-- ==== Sys2Proof/Word.lean ====
section
/-! DEFINITION. The word types of the part and its plainest arithmetic (R5, R8, R66). -/

namespace Sys2Proof

/-- One byte of memory. -/
abbrev Byte := BitVec 8

/-- A 32-bit register value. -/
abbrev W32 := BitVec 32

/-- A 64-bit value: an instruction word, a register pair, a descriptor word. -/
abbrev W64 := BitVec 64

/-- An 8-bit operand code of R66. -/
abbrev Code := BitVec 8

/-- A virtual clause address, 56 bits (R8, R18). -/
abbrev Pc := BitVec 56

end Sys2Proof
end

