-- ==== Sys2Proof/Syntax.lean ====
section
/-! DEFINITION. The abstract syntax: the fields of a full or long-form word (R62, R65), the halves of a
pair word (R67), the parameters of the part's own steps, and `Instr`, one constructor per row of
spec/opcode_table.json. A row is either an instruction word that a clause holds, or one of the part's
own indivisible steps (spec/95_what_each_step_holds.md); the constructor of a step names the core,
queue, item or message it acts on. -/

namespace Sys2Proof

/-- The fields of a full word (R62) together with those of the extension word of a long form (R65);
in a full word the extension fields are 0. The major opcode is the constructor of `Instr`. -/
structure Fields where
  /-- form 10, a long form with an extension word (R50) -/
  long : Bool
  /-- completion-flag select: false A, true B (R54) -/
  fsel : Bool
  /-- guard predicate p0–p7 (R11) -/
  guard : BitVec 3
  /-- guard negate (R11) -/
  gneg : Bool
  /-- destination operand code (R66) -/
  d : Code
  /-- source a -/
  a : Code
  /-- source b -/
  b : Code
  /-- source c, an imm8 or a packed field, as the description gives -/
  c : Code
  minor : BitVec 4
  type : BitVec 5
  rm : BitVec 3
  sat : Bool
  aux : BitVec 3
  lit : BitVec 32
  xd : Code
  off24 : BitVec 24
  deriving DecidableEq, Repr

/-- One half of a pair word (R67). -/
structure Half where
  pop : BitVec 7
  dx : BitVec 7
  sy : BitVec 7
  imm : BitVec 8
  deriving DecidableEq, Repr

/-- Whose waiting time an aging step acts on (R212): a runnable record, or a ready sub-gang. -/
inductive AgeRef where
  | record (rid : Nat)
  | subgang (core slot sub : Nat)
  deriving DecidableEq, Repr

/-- One 80-byte flit of a Wysor link (R439): its 16 control bytes as one value, and its payload. -/
structure Flit where
  ctl : BitVec 128
  payload : List Byte
  deriving DecidableEq, Repr

/-- A fabric message (R439, R441). The spec gives the flit control fields and what each kind carries,
not the payload's bits, so the payload stands as named values (log entry 7). -/
structure Msg where
  /-- SNODE, DNODE, SDIE, SUNIT, SLOT of R439 -/
  snode : Nat
  dnode : Nat
  sdie : Nat
  sunit : Nat
  slot : Nat
  /-- identity of the item at the requester that the response is for -/
  tag : Nat
  /-- the sender's logical time, or wts (R302, R439) -/
  time : Nat
  /-- rts of a DATA message -/
  rts : Nat
  /-- physical address, hardware queue, launch key or record size, as the kind gives -/
  addr : Nat
  /-- operation, condition, type or reason, as the kind gives -/
  arg : Nat
  val : W64
  val2 : W64
  /-- byte enables of a masked write; empty means all of `data` -/
  mask : List Bool
  data : List Byte
  deriving DecidableEq, Repr

/-- Who writes a device register (R461, R462). -/
inductive Agent where
  | program (core : Nat)
  | controlNode
  | firmware
  deriving DecidableEq, Repr

/-- One write to a device register: `size` bytes at local address `addr`. -/
structure RegWrite where
  agent : Agent
  addr : Nat
  size : Nat
  value : W64
  deriving DecidableEq, Repr

/-- One access of the control node through the Bersy port (R461). -/
inductive BersyAccess where
  | read (addr size : Nat)
  | write (addr size : Nat) (value : W64)
  deriving DecidableEq, Repr

/-- What an ST 2110 packet carries (R483): video sample rows (row, byte offset, field bit, bytes), audio
samples, or an ancillary payload. -/
inductive Essence where
  | video (rows : List (Nat × Nat × Bool × List Byte))
  | audio (bytes : List Byte)
  | ancillary (bytes : List Byte)
  deriving DecidableEq, Repr

/-- An RTP packet of ST 2110 as it arrives on an Ethernet port, stamped with PTP time (R480, R483). -/
structure StreamPacket where
  port : Nat
  dstIp : BitVec 32
  srcIp : BitVec 32
  udp : BitVec 16
  pt : BitVec 8
  seq : Nat
  rtpTs : BitVec 32
  marker : Bool
  essence : Essence
  deriving DecidableEq, Repr

/-- The fields marked fw, which firmware fixes before the first access is accepted (R7, R489). -/
structure FirmwareValues where
  node : BitVec 10
  features : W64
  hbase : List (BitVec 20)
  qdtbase : W64
  ctxbase : W64
  fwfq : W64
  jbase : W64
  deriving DecidableEq, Repr

/-- One constructor per row of spec/opcode_table.json. The steps that only the outside world takes part in come
last. -/
inductive Instr where
  /-- CLAUSE_START (R14): When the sub-gang wins its issue slot and every flag in its wait mask is clear, a slice fetches the clause header and counted words, checks them, and executes the clause's instructions in order without interruption. -/
  | clauseStart (core slot sub : Nat)
  /-- PAIR_WORD (R68): Executes two restricted halves; both read their sources from before the pair. -/
  | pairWord (h1 h2 : Half)
  /-- VL_RESULT_WRITE (R54): A variable-latency result is written for every thread of the slice, and the completion flag's count drops by one. -/
  | vlResultWrite (id : Nat)
  /-- UNTRACKED_RESULT_WRITE (R55): The result of an untracked variable-latency instruction is written at an unspecified later time. -/
  | untrackedResultWrite (id : Nat)
  /-- ADD (R87): Integer add, wrapping or saturating. -/
  | add (f : Fields)
  /-- SUB (R87): Integer subtract. -/
  | sub (f : Fields)
  /-- MUL (R87): Low part of the integer product. -/
  | mul (f : Fields)
  /-- MULH (R87): High part of the integer product. -/
  | mulh (f : Fields)
  /-- MAD (R87): Multiply-add at width w. -/
  | mad (f : Fields)
  /-- MAD_WIDE (R88): 32×32 multiply plus a 64-bit addend, written to a pair. -/
  | madWide (f : Fields)
  /-- DIV (R89): Variable-latency integer division; division by zero defined without a trap. -/
  | div (f : Fields)
  /-- REM (R89): Variable-latency integer remainder. -/
  | rem (f : Fields)
  /-- MIN (R87): Integer minimum. -/
  | min (f : Fields)
  /-- MAX (R87): Integer maximum. -/
  | max (f : Fields)
  /-- ABS (R87): Integer absolute value. -/
  | abs (f : Fields)
  /-- NEG (R87): Integer negation. -/
  | neg (f : Fields)
  /-- DOT4 (R90): Four-way 8-bit dot product with a 32-bit accumulator. -/
  | dot4 (f : Fields)
  /-- ADDC (R91): Maintenance-mode add with a carry predicate. -/
  | addc (f : Fields)
  /-- SUBB (R91): Maintenance-mode subtract with a borrow predicate. -/
  | subb (f : Fields)
  /-- MADC (R91): Maintenance-mode multiply-add of the low or high product half, with carry. -/
  | madc (f : Fields)
  /-- AND (R92): Bitwise AND. -/
  | and (f : Fields)
  /-- OR (R92): Bitwise OR. -/
  | or (f : Fields)
  /-- XOR (R92): Bitwise XOR. -/
  | xor (f : Fields)
  /-- ANDN (R92): a AND NOT b. -/
  | andn (f : Fields)
  /-- NOT (R92): Bitwise NOT. -/
  | not (f : Fields)
  /-- LUT3 (R93): Arbitrary three-input bitwise function taken from an 8-entry table. -/
  | lut3 (f : Fields)
  /-- SHL (R94): Shift left by a count modulo w. -/
  | shl (f : Fields)
  /-- SHR (R94): Logical shift right. -/
  | shr (f : Fields)
  /-- SRA (R94): Arithmetic shift right. -/
  | sra (f : Fields)
  /-- ROT (R94): Rotate left, or right with .R. -/
  | rot (f : Fields)
  /-- FSH (R95): Funnel shift of a 64-bit concatenation, returning 32 bits. -/
  | fsh (f : Fields)
  /-- BFX (R96): Bit-field extract. -/
  | bfx (f : Fields)
  /-- BFI (R97): Bit-field insert. -/
  | bfi (f : Fields)
  /-- POPC (R98): Population count. -/
  | popc (f : Fields)
  /-- CLZ (R98): Count leading zeros. -/
  | clz (f : Fields)
  /-- CTZ (R98): Count trailing zeros. -/
  | ctz (f : Fields)
  /-- BREV (R98): Bit reverse. -/
  | brev (f : Fields)
  /-- BSEL (R99): Assembles a word from selected bytes, with fill modes. -/
  | bsel (f : Fields)
  /-- MOV (R100): Copies a to d; a read of an h register is segment-ending. -/
  | mov (f : Fields)
  /-- MOVI (R101): Writes a constant from imm8 or lit. -/
  | movi (f : Fields)
  /-- SEL (R102): Selects a or b by a predicate. -/
  | sel (f : Fields)
  /-- CMP (R103): Integer compare with an optional predicate combine. -/
  | cmp (f : Fields)
  /-- PSET (R104): Combines two predicates. -/
  | pset (f : Fields)
  /-- LEA (R105): Computes an effective address without an access. -/
  | lea (f : Fields)
  /-- CVTI (R106): Converts between integer formats. -/
  | cvti (f : Fields)
  /-- LD (R109): Loads up to 16 bytes per thread into registers. -/
  | ld (f : Fields)
  /-- ST (R110): Stores per thread; a store of h data is segment-ending. -/
  | st (f : Fields)
  /-- PREF (R114): Prefetch hint; raises no trap after decode. -/
  | pref (f : Fields)
  /-- FADD (R120): Floating-point add. -/
  | fadd (f : Fields)
  /-- FSUB (R120): Floating-point subtract. -/
  | fsub (f : Fields)
  /-- FMUL (R120): Floating-point multiply. -/
  | fmul (f : Fields)
  /-- FFMA (R120): Fused multiply-add with one rounding. -/
  | ffma (f : Fields)
  /-- FMIN (R121): IEEE minimumNumber. -/
  | fmin (f : Fields)
  /-- FMAX (R121): IEEE maximumNumber. -/
  | fmax (f : Fields)
  /-- FCMP (R122): Floating-point compare with an optional predicate combine. -/
  | fcmp (f : Fields)
  /-- FCLASS (R123): One-hot classification of a floating-point value. -/
  | fclass (f : Fields)
  /-- FRND (R124): Rounds to an integral value of the same type. -/
  | frnd (f : Fields)
  /-- FDIV (R126): Correctly rounded division; variable-latency. -/
  | fdiv (f : Fields)
  /-- FSQRT (R126): Correctly rounded square root. -/
  | fsqrt (f : Fields)
  /-- FRCP (R126): Correctly rounded reciprocal. -/
  | frcp (f : Fields)
  /-- FRSQ (R126): Correctly rounded reciprocal square root. -/
  | frsq (f : Fields)
  /-- FEX2 (R127): 2^A, rounded once with RN. -/
  | fex2 (f : Fields)
  /-- FLG2 (R127): log2(A), rounded once with RN. -/
  | flg2 (f : Fields)
  /-- FSIN (R127): sin(pi·A), rounded once with RN. -/
  | fsin (f : Fields)
  /-- FCOS (R127): cos(pi·A), rounded once with RN. -/
  | fcos (f : Fields)
  /-- FTANH (R127): tanh(A), rounded once with RN. -/
  | ftanh (f : Fields)
  /-- HADD2 (R129): Packed half-precision add. -/
  | hadd2 (f : Fields)
  /-- HMUL2 (R129): Packed half-precision multiply. -/
  | hmul2 (f : Fields)
  /-- HFMA2 (R129): Packed half-precision fused multiply-add. -/
  | hfma2 (f : Fields)
  /-- CVTF (R130): Converts between floating-point formats in scalar, PK2 or HI form. -/
  | cvtf (f : Fields)
  /-- CVTFI (R131): Floating point to integer. -/
  | cvtfi (f : Fields)
  /-- CVTIF (R132): Integer to floating point. -/
  | cvtif (f : Fields)
  /-- FSCALE (R125): Multiplies by 2^B with one rounding. -/
  | fscale (f : Fields)
  /-- NOP (R133): No effect. -/
  | nop (f : Fields)
  /-- BRA (R134): Relative branch; divergent lanes push deferred tokens. -/
  | bra (f : Fields)
  /-- BRX (R134): Branch to a register target. -/
  | brx (f : Fields)
  /-- CALL (R136): Relative call that writes a link pair. -/
  | call (f : Fields)
  /-- CALLX (R137): Indirect call through the indirection table, with the budget checks and possible forced record. -/
  | callx (f : Fields)
  /-- RET (R136): Return to a link pair. -/
  | ret (f : Fields)
  /-- EXIT (R138): Ends the guard-true threads and removes them from the token stack. -/
  | exit (f : Fields)
  /-- END (R138): As EXIT, but requires an empty token stack. -/
  | endThread (f : Fields)
  /-- TRAP (R139): Software trap SWTRAP n. -/
  | trap (f : Fields)
  /-- BPT (R139): Breakpoint trap. -/
  | bpt (f : Fields)
  /-- YIELD (R140): Moves the sub-gang last in the round-robin order of its level. -/
  | yield (f : Fields)
  /-- XLANE (R219): Cross-lane shuffle within a segment, with a validity predicate. -/
  | xlane (f : Fields)
  /-- PQRY (R220): Vote or query over a predicate. -/
  | pqry (f : Fields)
  /-- GRED (R225): Reduction over the participants. -/
  | gred (f : Fields)
  /-- SCAN (R225): Segmented inclusive or exclusive prefix. -/
  | scan (f : Fields)
  /-- KGRP (R221): Groups the participants by key: PEERS, ALLEQ or RANK. -/
  | kgrp (f : Fields)
  /-- LEAD (R222): Elects the lowest or highest participant. -/
  | lead (f : Fields)
  /-- RCV_J (R226): Pushes a join token. -/
  | rcvJ (f : Fields)
  /-- RCV_B (R226): Pushes a break token. -/
  | rcvB (f : Fields)
  /-- JOIN (R227): Parks the guard-true lanes at the innermost join or break entry. -/
  | join (f : Fields)
  /-- BRKJ (R227): Parks the guard-true lanes at the innermost break entry, leaving the joins above it. -/
  | brkj (f : Fields)
  /-- REGANG (R158): Parks a slice at its target, or ends its segment; the sibling set re-forms when all slices have parked. -/
  | regang (f : Fields)
  /-- CONT (R229): Ends the segment with a runnable RUN record. -/
  | cont (f : Fields)
  /-- FWD (R230): Ends the segment and sends the record to another core. -/
  | fwd (f : Fields)
  /-- SPAWN (R231): Places tasks on the die task queue, or ends the segment with TASKQ when there is no room. -/
  | spawn (f : Fields)
  /-- SPAWN_NB (R231): Places tasks, or writes a predicate of 0 when there is no room. -/
  | spawnNb (f : Fields)
  /-- BARI (R233): Sets a barrier's EXPECT and clears COUNT. -/
  | bari (f : Fields)
  /-- ARRIVE (R234): Plain, ordered barrier arrival that returns the phase. -/
  | arrive (f : Fields)
  /-- ARRIVE_RLX (R234): Relaxed barrier arrival. -/
  | arriveRlx (f : Fields)
  /-- ARRIVE_REMOTE (R235): Adds the arrival count to a 64-bit signal word as a reduction. -/
  | arriveRemote (f : Fields)
  /-- BWAIT (R236): Local barrier wait per lane; ends the segment with BAR if a phase is incomplete. -/
  | bwait (f : Fields)
  /-- BWAIT_REMOTE (R237): Registers a monitor for signal word ≥ (n+1)·E and always ends the segment with MON. -/
  | bwaitRemote (f : Fields)
  /-- EXPB (R239): Opens a gang- or group-scope expansion, makes the first deal, and stores the identity results of zero-length owners. -/
  | expb (f : Fields)
  /-- EXPN (R240): Deals the next flattened item to each lane. -/
  | expn (f : Fields)
  /-- EXPE (R241): Unbinds the threads and closes the expansion when it is finished. -/
  | expe (f : Fields)
  /-- SEGR (R242): Contributes to an owner's segmented reduction, storing the result when the owner completes. -/
  | segr (f : Fields)
  /-- LDFE (R321): Full-empty load; waits with FE on an empty granule. -/
  | ldfe (f : Fields)
  /-- STFE (R322): Stores and sets the granule full, serving its waiters. -/
  | stfe (f : Fields)
  /-- FESET_EMPTY (R323): Clears the full-empty bits of a range. -/
  | fesetEmpty (f : Fields)
  /-- FESET_FULL (R323): Sets the full-empty bits of a range and serves its waiters. -/
  | fesetFull (f : Fields)
  /-- ATOM (R325): Returning atomic read-modify-write, one element per address. -/
  | atom (f : Fields)
  /-- RED (R325): Non-returning atomic reduction. -/
  | red (f : Fields)
  /-- CAS (R325): Compare-and-swap. -/
  | cas (f : Fields)
  /-- WAITC (R327): Registers a monitor per lane and ends the segment with MON. -/
  | waitc (f : Fields)
  /-- FENCE (R328): Full fence: writes out combining buffers and holds later accesses. -/
  | fence (f : Fields)
  /-- FENCE_WC (R328): Writes out the thread's combining buffers. -/
  | fenceWc (f : Fields)
  /-- CMAINT_IINV (R329): Invalidates instruction-cache lines on every core of the context. -/
  | cmaintIinv (f : Fields)
  /-- CMAINT_WB (R329): Writes back dirty copies. -/
  | cmaintWb (f : Fields)
  /-- CMAINT_WBINV (R329): Writes back, then drops, the copies. -/
  | cmaintWbinv (f : Fields)
  /-- CMAINT_MSSET (R330): Makes lines memory-side (sets MSIDE). -/
  | cmaintMsset (f : Fields)
  /-- CMAINT_MSCLR (R330): Clears MSIDE. -/
  | cmaintMsclr (f : Fields)
  /-- CMAINT_REPAIR (R316): Firmware full-line repair write after a domain-wide recall. -/
  | cmaintRepair (f : Fields)
  /-- LDT (R331): Transposing fragment load from the scratchpad. -/
  | ldt (f : Fields)
  /-- QPUSH (R332): Pushes one entry to an external queue port. -/
  | qpush (f : Fields)
  /-- QWAIT (R333): Tests a port, ending the segment with EXTQ while it is empty and open. -/
  | qwait (f : Fields)
  /-- QWAIT_NB (R333): Tests a port without waiting. -/
  | qwaitNb (f : Fields)
  /-- MXRES_X (R383): Writes a bit-parallel reservation record. -/
  | mxresX (f : Fields)
  /-- MXRES_W (R383): Writes a term-side reservation record and clears its image. -/
  | mxresW (f : Fields)
  /-- MXREL (R384): Releases a reservation record, deferred while an operation reads it. -/
  | mxrel (f : Fields)
  /-- MXFENCE (R385): Holds the next MXISSUE until earlier writes have passed the recoder. -/
  | mxfence (f : Fields)
  /-- MXISSUE (R388): Checks and queues a matrix operation with its future. -/
  | mxissue (f : Fields)
  /-- MXDRAIN (R389): Drains a slot to scaled floating-point output. -/
  | mxdrain (f : Fields)
  /-- MXDRAIN_RAW (R389): Drains a slot as raw ACC80 images. -/
  | mxdrainRaw (f : Fields)
  /-- MXDRAIN_MX (R389): Drains a slot as MX-quantised blocks. -/
  | mxdrainMx (f : Fields)
  /-- TALLOC (R386): Allocates and zeroes an accumulator slot and binds a handle. -/
  | talloc (f : Fields)
  /-- TFREE (R387): Unbinds a slot handle; the slot frees when its bind count reaches 0. -/
  | tfree (f : Fields)
  /-- QNT (R391): Starts a quantisation operation on a copy engine. -/
  | qnt (f : Fields)
  /-- DQNT (R394): Starts a dequantisation operation. -/
  | dqnt (f : Fields)
  /-- CPY (R395): Starts a copy operation. -/
  | cpy (f : Fields)
  /-- FETCH (R396): Reserves an access-queue entry and starts a fetch. -/
  | fetch (f : Fields)
  /-- IXWALK (R397): Starts a coordinate walk. -/
  | ixwalk (f : Fields)
  /-- ZOPEN (R400): Opens a fibre. -/
  | zopen (f : Fields)
  /-- ZADV (R401): Advances a fibre by one position. -/
  | zadv (f : Fields)
  /-- ZADV_SEEK (R401): Seeks a fibre to the first coordinate not below B. -/
  | zadvSeek (f : Fields)
  /-- ZEND (R402): Tests a fibre for its end. -/
  | zend (f : Fields)
  /-- ZCLOSE (R402): Closes a fibre. -/
  | zclose (f : Fields)
  /-- ZVAL (R402): Loads VAL[POS] of a fibre. -/
  | zval (f : Fields)
  /-- CPACT (R398): Hands tokens to the compaction queue. -/
  | cpact (f : Fields)
  /-- CPFL (R399): Flushes the partial compaction tile. -/
  | cpfl (f : Fields)
  /-- RACQ_P (R404): Producer acquires a ring stage, or waits with RING. -/
  | racqP (f : Fields)
  /-- RACQ_C (R404): Consumer acquires a full ring stage, or waits with RING. -/
  | racqC (f : Fields)
  /-- RREL_P (R405): Producer releases a stage as full and serves a waiting consumer. -/
  | rrelP (f : Fields)
  /-- RREL_C (R405): Consumer releases a stage as empty and serves a waiting producer. -/
  | rrelC (f : Fields)
  /-- FWAIT (R380): Waits for a future and delivers its status word. -/
  | fwait (f : Fields)
  /-- FTEST (R381): Tests a future for completion. -/
  | ftest (f : Fields)
  /-- FCANCEL (R382): Requests cancellation of an operation. -/
  | fcancel (f : Fields)
  /-- RINIT (R403): Initialises a stage ring. -/
  | rinit (f : Fields)
  /-- GETS (R141): Reads a special register; reads of counters are variable-latency. -/
  | gets (f : Fields)
  /-- SETS (R145): Writes FPSTAT, RSTATE or PRIO. -/
  | sets (f : Fields)
  /-- TRET_RETRY (R147): Checks a held trap record and releases it to resume at the recorded word. -/
  | tretRetry (f : Fields)
  /-- TRET_SKIP (R147): Releases a held record past the trapping instruction. -/
  | tretSkip (f : Fields)
  /-- TRET_KILL (R147): Ends every thread of a held record. -/
  | tretKill (f : Fields)
  /-- SNAP (R148): Fires the module snapshot trigger. -/
  | snap (f : Fields)
  /-- UDF (R71): Always traps ILL. -/
  | udf (f : Fields)
  /-- SNAPSHOT_LATCH (R148): A block latches its snapshot registers when the trigger arrives, or counts a missed trigger. -/
  | snapshotLatch (block : Nat)
  /-- TRAP_DELIVERY (R411): After its flags drain, a trapping slice writes a forced record, its trap block and a fault entry, and the record is held. -/
  | trapDelivery (core slot pos : Nat)
  /-- COMPLETION_STAGE_TRAP (R21): A failed access becomes known after issue; the slice takes MEMERR at its next clause boundary. -/
  | completionStageTrap (core slot pos : Nat)
  /-- SEGMENT_END (R162): After its flags drain, a slice writes its record to the Pewter pool, registers its event and leaves the sibling set. -/
  | segmentEnd (core slot pos : Nat)
  /-- POOL_SPACE_GRANT (R260): A slice waiting for pool space writes its record once space frees. -/
  | poolSpaceGrant (core slot pos : Nat)
  /-- RECORD_MOVE (R260): The part moves a held record between pool tiers or cores. -/
  | recordMove (rid dest : Nat)
  /-- LANE_EVENT_FIRE (R163): A lane's awaited event fires: its value is written to the record, WAITS is updated, and at WAITS = 0 the record becomes RUN and is binned. -/
  | laneEventFire (rid lane : Nat)
  /-- BIN_DRAIN (R171): The bin unit picks a drainable bin and forms a gang from up to 8 records. -/
  | binDrain (core bin : Nat)
  /-- EXP_SLOT_LOAD (R194): A bin whose front record holds an expansion drains once a slot is free, loading the state from SAVE. -/
  | expSlotLoad (core bin : Nat)
  /-- GANG_CREATE (R207): The next logical gang of a placed group is created whole when a slot and register space are free. -/
  | gangCreate (core : Nat)
  /-- AGING_STEP (R212): Waiting time reaches a multiple of the starvation bound, and PRIO rises by one, to at most 22. -/
  | agingStep (who : AgeRef)
  /-- BALANCER_PERIOD (R214): Each BALPER period the die balancer moves task records from passed-over full bins to idle cores. -/
  | balancerPeriod (die : Nat)
  /-- TASK_SLICE_FORM (R215): The task queue forms a slice from four tasks of one entry and context and hands it to a core. -/
  | taskSliceForm (die ctx entry : Nat)
  /-- TASK_AGE_TIMEOUT (R215): The oldest task of a pair has waited 2 µs, and a short slice is formed. -/
  | taskAgeTimeout (die ctx entry : Nat)
  /-- TASKQ_ROOM_PLACE (R181): Room freed in the task queue places a waiting slice's tasks and bins its record. -/
  | taskqRoomPlace (die : Nat)
  /-- LAUNCH_HEAD_CHECK (R201): A launch at the head of its queue is checked, and fails or enters WAITDEP with its monitors registered. -/
  | launchHeadCheck (queue : Nat)
  /-- DEPENDENCE_LATCH (R203): A dependence monitor is satisfied and latched; when all are latched the launch becomes ACTIVE. -/
  | dependenceLatch (lid dep : Nat)
  /-- LAUNCH_COMPLETE (R204): Every access of the launch has been performed: COMPLETE, with the signal update and journal entry. -/
  | launchComplete (lid : Nat)
  /-- GROUP_PLACE (R206): A group is placed on a free core and its scratchpad allocation is zeroed and emptied. -/
  | groupPlace (core : Nat)
  /-- WALK_COMPLETE (R271): A page walk completes, fills the die TLB and walk cache, sets A, and fires the waiting lanes' WALK events. -/
  | walkComplete (id : Nat)
  /-- WALK_FAIL (R436): A walk finds no valid leaf or meets an error, and fires its events with a failure mark. -/
  | walkFail (id : Nat)
  /-- WALK_START (R271): A queued walk request starts when a walker frees. -/
  | walkStart (die : Nat)
  /-- TLB_RETENTION_EXPIRY (R272): The 100 µs retention of a walked entry ends. -/
  | tlbRetentionExpiry (id : Nat)
  /-- WC_BUFFER_WRITE (R263): A combining buffer is written to memory as one access, after 2 µs or when no buffer is free. -/
  | wcBufferWrite (id : Nat)
  /-- LOGICAL_CLOCK_TICK (R303): A core's logical clock rises by at least 1 every 64 clk. -/
  | logicalClockTick (core : Nat)
  /-- DIRTY_EVICT_WRITEBACK (R306): An evicted dirty copy is written back to its home with its times. -/
  | dirtyEvictWriteback (die line : Nat)
  /-- REQUEST_INJECT (R444): A waiting remote request is injected once a response slot and a buffer line are free. -/
  | requestInject (id : Nat)
  /-- REQUEST_TIMEOUT (R446): No response within 100 µs fails the request. -/
  | requestTimeout (id : Nat)
  /-- RESERVING_TIMEOUT (R456): An answer is missing after 100 µs: ROLLBACK is sent and the launch enters BACKOFF. -/
  | reservingTimeout (lid : Nat)
  /-- BACKOFF_EXPIRY (R456): After 50 µs of BACKOFF the reservation is retried. -/
  | backoffExpiry (lid : Nat)
  /-- PART_RESERVE_EXPIRY (R457): A part releases a reservation that has received no COMMIT within 1 ms. -/
  | partReserveExpiry (key : Nat)
  /-- PART_START (R458): A part begins placing its groups at its first clk with DEVTIME ≥ Ts. -/
  | partStart (key : Nat)
  /-- ENGINE_UNIT_ACCESS (R287): An engine operation performs one aligned unit read or write. -/
  | engineUnitAccess (op : Nat)
  /-- CPY_COMPLETION (R363): A copy completes its future and its ACT action. -/
  | cpyCompletion (op : Nat)
  /-- FETCH_RESERVE (R364): A waiting FETCH reserves the tail entry once a pop frees room. -/
  | fetchReserve (core queue : Nat)
  /-- FETCH_COMPLETION (R366): A fetch fills its access-queue entry, with zeros on failure. -/
  | fetchCompletion (op : Nat)
  /-- IXWALK_RANGE_COMPLETE (R368): A walk range is gathered, or overflows; its header is written, its bit set and SIG incremented. -/
  | ixwalkRangeComplete (op : Nat)
  /-- IXWALK_COMPLETION (R368): The coordinate walk's future completes after every range. -/
  | ixwalkCompletion (op : Nat)
  /-- CPACT_TILE_FILL (R372): A full 128-token tile acquires its stage, copies its rows and indices, and releases. -/
  | cpactTileFill (core : Nat)
  /-- CPACT_COMPLETION (R372): A CPACT future completes after its bypass copies and tile releases. -/
  | cpactCompletion (op : Nat)
  /-- MATRIX_OP_START (R346): A queued matrix operation starts its term stage after the previous E. -/
  | matrixOpStart (core : Nat)
  /-- MATRIX_OP_COMPLETE (R346): At E+24 the contributions are applied, the counters updated and the future completed. -/
  | matrixOpComplete (op : Nat)
  /-- MXDRAIN_COMPLETION (R390): A drain writes its output and FLAGS, optionally clears the slot, and completes with its ACT. -/
  | mxdrainCompletion (op : Nat)
  /-- QNT_COMPLETION (R393): A quantisation writes elements, scales and FLAGS and completes. -/
  | qntCompletion (op : Nat)
  /-- DQNT_COMPLETION (R394): A dequantisation writes its output and completes. -/
  | dqntCompletion (op : Nat)
  /-- CANCEL_SAFE_POINT (R360): A cancelled operation completes CANCELLED at its next safe point. -/
  | cancelSafePoint (op : Nat)
  /-- FAULT_ENTRY_WRITE (R416): A fault-queue entry and PROD are written, or wait in the pending list for room. -/
  | faultEntryWrite (queue : Nat)
  /-- PREEMPT_GO (R427): A write of PRECTL.GO chooses drain, save or flush per group and begins it. -/
  | preemptGo (die : Nat)
  /-- PREEMPT_GROUP_DONE (R428): A group's method finishes: engines drain, group state is written, the core is freed and PRESTAT is updated. -/
  | preemptGroupDone (die : Nat)
  /-- PREEMPT_RESUME (R430): A write of PRECTL with RESUME restores the held groups of a context. -/
  | preemptResume (die : Nat)
  /-- QWAKE_WRITE (R465): A QWAKE write stores PROD and wakes the parser, or is refused with a fault entry. -/
  | qwakeWrite (queue : Nat) (value : BitVec 64)
  /-- WAKE_WORD_CHANGE (R465): A change of the watched wake word wakes the queue. -/
  | wakeWordChange (queue : Nat)
  /-- NOP_PACKET (R467): A NOP packet is skipped. -/
  | nopPacket (queue : Nat)
  /-- LAUNCH_PACKET (R467): A LAUNCH packet is accepted, journalled and starts a launch. -/
  | launchPacket (queue : Nat)
  /-- BEGIN_PACKET (R468): Opens a batch, waits for all its members, and checks them whole. -/
  | beginPacket (queue : Nat)
  /-- COMMIT_PACKET (R468): Closes a batch; outside a batch it is malformed. -/
  | commitPacket (queue : Nat)
  /-- REPLACE_PACKET (R473): Invalidates a code range and writes a new indirection entry. -/
  | replacePacket (queue : Nat)
  /-- SIGNAL_PACKET (R469): Waits for earlier launches, then adds a value to a signal word. -/
  | signalPacket (queue : Nat)
  /-- CTXNEW (R474): Mailbox command that checks and activates a context descriptor. -/
  | ctxnew (ctx : Nat)
  /-- CTXDEL (R474): Mailbox command that tears a context down and removes its translations. -/
  | ctxdel (ctx : Nat)
  /-- MAPQ (R474): Mailbox command that maps a hardware queue. -/
  | mapq (queue : Nat)
  /-- UNMAPQ (R424): Mailbox command that starts unmapping a queue. -/
  | unmapq (queue : Nat)
  /-- QUEUE_UNMAP_COMPLETE (R424): The saved descriptor is written and the queue becomes UNMAPPED. -/
  | queueUnmapComplete (queue : Nat)
  /-- ABORT (R419): Mailbox command that aborts a launch and settles its items. -/
  | abortCmd (seq : Nat)
  /-- PREEMPT (R474): Mailbox command that pre-empts a context on every die. -/
  | preemptCmd (arg : BitVec 56)
  /-- BIN_TIMEOUT (R208): A bin's front record has waited 4 µs, and the bin becomes drainable. -/
  | binTimeout (core bin : Nat)
  /-- FEATACC_WRITE (R475): Stores the accepted features while no context exists. -/
  | feataccWrite (value : BitVec 64)
  /-- POOLCFG_APPLY (R259): A POOLCFG write takes effect once the die holds no records, save areas or groups. -/
  | poolcfgApply (die : Nat)
  /-- REGISTER_WRITE (R7): A write to a register without a row of its own stores, clears or ignores bits by access type. -/
  | registerWrite (w : RegWrite)
  /-- SCTL_OPEN (R481): Reads the stream descriptor and opens the stream, or refuses it. -/
  | sctlOpen (stream : Nat)
  /-- SCTL_CLOSE (R481): Closes a stream, ending its open frames. -/
  | sctlClose (stream : Nat)
  /-- FRAME_CLOSE (R484): A frame closes by marker or new timestamp; the record and bitmap are written and entries pushed. -/
  | frameClose (stream slot : Nat)
  /-- FRAME_TIMEOUT (R484): TO µs after the last packet, a frame closes by timeout. -/
  | frameTimeout (stream slot : Nat)
  /-- MRESET (R488): A keyed write to MRESET resets the module. -/
  | mreset (value : BitVec 64)
  /-- CLOCK_GATE (R496): A core idle for 10 µs is clock-gated. -/
  | clockGate (core : Nat)
  /-- CORE_WAKE (R496): A gated core resumes within 2 µs when work reaches it. -/
  | coreWake (core : Nat)
  /-- PART_UNREACHABLE (R456): A part of a spanning launch stays unreachable for 100 µs, and the launch goes to FAILED with every part aborting. -/
  | partUnreachable (lid : Nat)
  /-- LAUNCH_MSG (R450): A peer launch packet is appended to a queue, or refused with NACK. -/
  | launchMsg (m : Msg)
  /-- REC (R452): A forwarded record arrives, is stored in the pool, acknowledged and binned. -/
  | recMsg (m : Msg)
  /-- PART_RESERVE (R457): A part answers YES or NO to a spanning launch's reservation. -/
  | partReserve (m : Msg)
  /-- PART_COMMIT (R458): COMMIT carries Ts to the parts. -/
  | partCommit (m : Msg)
  /-- PART_ROLLBACK (R457): ROLLBACK releases a part's reservation. -/
  | partRollback (m : Msg)
  /-- PART_REPORT (R453): A part reports that its slices of a launch have ended and been performed. -/
  | partReport (m : Msg)
  /-- RD (R305): Fabric shared read or lease renewal of a line, served at the home or forwarded to the owner. -/
  | rdMsg (m : Msg)
  /-- RDX (R305): Fabric read for ownership. -/
  | rdxMsg (m : Msg)
  /-- WR (R441): Fabric masked line write. -/
  | wrMsg (m : Msg)
  /-- WRP (R441): Fabric partial write of up to 32 bytes. -/
  | wrpMsg (m : Msg)
  /-- ATM (R307): Fabric atomic performed at its chosen place. -/
  | atmMsg (m : Msg)
  /-- MON (R310): Fabric monitor registration at the home. -/
  | monMsg (m : Msg)
  /-- FWQ (R305): A home forwards a request or recall to the owner, which supplies or hands over the line. -/
  | fwqMsg (m : Msg)
  /-- DATA (R459): A line response is sunk, writes the lanes' destinations and frees the slot. -/
  | dataMsg (m : Msg)
  /-- ACK (R441): A completion response lowers the acknowledgement count, or returns an atomic's value. -/
  | ackMsg (m : Msg)
  /-- MSAT (R311): A monitor-satisfied response fires the waiting lane's event. -/
  | msat (m : Msg)
  /-- NACK (R446): A refusal response fails the requesting item. -/
  | nackMsg (m : Msg)
  /-- FLIT_RECEIVE (R440): A link receives a flit, dropping it and asking for replay on a bad CRC or sequence number. -/
  | flitReceive (port : Nat) (f : Flit)
  /-- LINK_TAKEDOWN (R440): A link that fails to retrain three times within 1 ms is taken down. -/
  | linkTakedown (port : Nat)
  /-- BERSY_ACCESS (R461): A control-node read or write of a local physical address. -/
  | bersyAccess (x : BersyAccess)
  /-- BERSY_LANE_FAIL (R461): A Bersy lane fails; if both fail, pending accesses are discarded and LOST is reported. -/
  | bersyLaneFail (lane : Nat)
  /-- PTP_EVENT_MESSAGE (R480): An Ethernet port timestamps a PTP event message. -/
  | ptpEventMessage (port : Nat)
  /-- INGEST_PACKET (R483): An ST 2110 packet is matched, timestamped and placed into its frame slot. -/
  | ingestPacket (p : StreamPacket)
  /-- BOOT_ROM_PHASE (R489): The boot ROM reads the firmware image: of the staging area, or of the flash. -/
  | bootRomPhase (staged : Bool)
  /-- VERIFY_PHASE (R491): The signature and security version are checked; the argument is what the signature check answers. -/
  | verifyPhase (signatureOk : Bool)
  /-- HBMINIT_PHASE (R489): Firmware zeroes all HBM and its brass bits. -/
  | hbminitPhase (ok : Bool)
  /-- SELFTEST_PHASE (R489): Maintenance-mode self-test of every enabled core. -/
  | selftestPhase (ok : Bool)
  /-- READY_PHASE (R489): Fields are set, the SVN may be burnt, and Bersy traffic is accepted. -/
  | readyPhase (fw : FirmwareValues)
  /-- THROTTLE (R494): Clks are withheld while PWR exceeds LIMIT or TJ reaches 100 °C. -/
  | throttle (pwr tj tin : BitVec 16)
  /-- FABRIC_RECEIVE_ENTRY (R375): An entry arrives at a fabric-receive port of a group, becoming poppable and waking slices waiting on it with EXTQ. -/
  | fabricReceiveEntry (core port : Nat) (words : List (BitVec 32))
  /-- L2_EVICT_RECALL (R297): An L2 slice evicting a line recalls its owned L1 copies. -/
  | l2EvictRecall (line : Nat)
  /-- ATTEST (R492): Mailbox command that writes and signs an attestation report. -/
  | attest
  /-- RESTORE (R474): Mailbox command that restores a context's held groups. -/
  | restoreCmd
  /-- SHOOTDOWN_GO (R421): A write of SDCTL.GO starts a TLB shootdown. -/
  | shootdownGo
  /-- SHOOTDOWN_COMPLETE (R422): Every entry of the range has been removed and in-flight uses drained; SDDONE rises. -/
  | shootdownComplete
  /-- SNAPCTL_TRIG (R434): A debugger write fires the snapshot trigger. -/
  | snapctlTrig
  /-- SNAPCTL_REL (R434): A write releases the latched snapshot in every block. -/
  | snapctlRel
  /-- STANDBY_ENTER (R496): Mailbox command 9 with ARG 0 enters STANDBY. -/
  | standbyEnter
  /-- STANDBY_LEAVE (R496): Mailbox command 9 with ARG 1 leaves STANDBY and reruns SELFTEST. -/
  | standbyLeave
  /-- POWER_ON_RESET (R488): Power-on resets the module and discards all state. -/
  | powerOnReset
  /-- THERMAL_TRIP (R495): At TJ 110 °C, the compute dies and HBM lose power and the part enters RECOVERY. -/
  | thermalTrip
  deriving DecidableEq, Repr

end Sys2Proof
end

