-- ==== Sys2Proof/Decode.lean ====
section
/-! DEFINITION. Instruction words: the operand classes of R66, the encoding tables of R86, R119, R133,
R141, R146, R216, R318 and R376 as one descriptor per mnemonic, the decoder, and the encoder. The
decoder answers which instruction a word stands for; whether its fields meet R72 orders 1 to 3 is the
business of WellFormed.lean, which reads the same descriptors. -/

namespace Sys2Proof

/-- The role of a gang (R175). -/
inductive Role where
  | feed | matrix | vector | general
  deriving DecidableEq, Repr

/-- The classes of operand code of R66 (port: q8–q15 alone; predW: p0–p6 alone). -/
inductive Kind where
  | v | g | pred | predW | h | z | q | port | zero | e | lit
  deriving DecidableEq, Repr

/-- The class test of R66; a literal only in a long form. -/
def Kind.has (long : Bool) : Kind → Nat → Bool
  | .v, c => c < 128
  | .g, c => 128 ≤ c && c < 192
  | .pred, c => 192 ≤ c && c < 200
  | .predW, c => 192 ≤ c && c < 199
  | .h, c => 200 ≤ c && c < 216
  | .z, c => 216 ≤ c && c < 224
  | .q, c => 224 ≤ c && c < 240
  | .port, c => 232 ≤ c && c < 240
  | .zero, c => c == 240
  | .e, c => 241 ≤ c && c < 245
  | .lit, c => long && c == 255

/-- How many registers an operand takes: one; an even pair; as the type gives (R81, R115); as the source
type in c[4:0] gives (R106, R130); the group of R108; the tiles of R331; SPAWN's eight argument
registers (R231). -/
inductive Width where
  | w32 | w64 | ofType | ofSource | group | tiles | args
  deriving DecidableEq, Repr

/-- The use of one of the fields d, a, b, c. -/
inductive Use where
  /-- must be 0 (R64) -/
  | unused
  /-- decided by the instruction's extra rule -/
  | raw
  /-- an immediate, at most this value -/
  | imm (max : Nat)
  /-- an operand code of one of these classes -/
  | op (w : Width) (ks : List Kind)
  deriving DecidableEq, Repr

/-- The long forms: none; literals only; an offset in off24 with c = 0; the offset in off24 and c kept
(CAS, R319). -/
inductive LongForm where
  | no | lit | off | offKeepC
  deriving DecidableEq, Repr

/-- The variable-latency table of R54: never; always; with a destination other than 240; for a counter. -/
inductive Latency where
  | fixed | always | ifDst | ifCounter
  deriving DecidableEq, Repr

/-- What an instruction's description adds to its row of the encoding table. -/
inductive Extra where
  | plain | shift | fsh | movi | lut | off | cvtf | pqry | red | scan | expb | expn | atom | handle | gets | sets
  /-- a compare with this many conditions (R103, R122) -/
  | cmp (conditions : Nat)
  /-- a conversion with these source types in c[4:0] (R106, R131, R132) -/
  | sourceType (ts : List Nat)
  deriving DecidableEq, Repr

/-- One row of an encoding table. -/
structure Desc where
  op : Nat
  minors : List Nat := [0]
  d : Use := .unused
  a : Use := .unused
  b : Use := .unused
  c : Use := .unused
  /-- permitted type codes of R63, 0 among them where the instruction has a default -/
  types : List Nat := [0]
  dflt : Nat := 0
  /-- rm must be below this -/
  rms : Nat := 1
  sat : Bool := false
  /-- aux must be below this -/
  auxs : Nat := 1
  long : LongForm := .lit
  latency : Latency := .fixed
  roles : List Role := [.feed, .matrix, .vector, .general]
  /-- must end its clause (R15, R58, R156) -/
  last : Bool := false
  extra : Extra := .plain
  deriving DecidableEq, Repr

/-- Type sets of R86 (W), R119 (F, H), R106, R108 and R130, each with 0 where a default is named. -/
def tyNone : List Nat := [0]
def tyW : List Nat := [0, 3, 4, 7, 8]
def tyF : List Nat := [0, 9, 10, 11, 12]
def tyH : List Nat := [0, 10, 11, 12]
def tyInt : List Nat := [1, 2, 3, 4, 5, 6, 7, 8, 19]
def tyMem : List Nat := [0, 1, 2, 3, 4, 5, 6, 7, 8, 9, 10, 11, 12]
def tyFlt : List Nat := [9, 10, 11, 12, 13, 14, 15, 16, 17]
/-- LUT3 holds the low half of its table in [11:8] and has bit [7] = 0 (R93). -/
def tyLut : List Nat := [0, 2, 4, 6, 8, 10, 12, 14, 16, 18, 20, 22, 24, 26, 28, 30]
def minorAny : List Nat := [0, 1, 2, 3, 4, 5, 6, 7, 8, 9, 10, 11, 12, 13, 14, 15]

/-- The sources of an integer instruction (R81, R84), its destinations, and the sources of a
floating-point instruction (R115). -/
def intSrc : List Kind := [.v, .g, .pred, .z, .q, .e, .zero, .lit]
def intDst : List Kind := [.v, .g, .pred, .zero]
def fltSrc : List Kind := [.v, .g, .q, .zero, .lit]

/-- The encoding-table row of each instruction word; none for a pair word and for the part's own steps.
DESIGN CHOICE (log entry 121): R216 says only "dst" for the destination of XLANE, GRED, SCAN and KGRP and R217
limits the sources alone; a predicate 192–199 as their destination is taken to be outside "dst" and traps ILL. DESIGN CHOICE (log entry 156):
R317 names q, h, z and e codes only; a predicate as a value, compare, length, data or dst operand of chapter 14 traps ILL too. -/
def descOf : Instr → Option Desc
  | .clauseStart _ _ _ => none
  | .pairWord _ _ => none
  | .vlResultWrite _ => none
  | .untrackedResultWrite _ => none
  | .add _ => some { op := 0x00, d := (.op .ofType intDst), a := (.op .ofType intSrc), b := (.op .ofType intSrc), types := tyW, dflt := 3, sat := true }
  | .sub _ => some { op := 0x01, d := (.op .ofType intDst), a := (.op .ofType intSrc), b := (.op .ofType intSrc), types := tyW, dflt := 3, sat := true }
  | .mul _ => some { op := 0x02, d := (.op .ofType intDst), a := (.op .ofType intSrc), b := (.op .ofType intSrc), types := tyW, dflt := 3, sat := true }
  | .mulh _ => some { op := 0x03, d := (.op .ofType intDst), a := (.op .ofType intSrc), b := (.op .ofType intSrc), types := tyW, dflt := 3 }
  | .mad _ => some { op := 0x04, d := (.op .ofType intDst), a := (.op .ofType intSrc), b := (.op .ofType intSrc), c := (.op .ofType intSrc), types := tyW, dflt := 3, sat := true }
  | .madWide _ => some { op := 0x04, minors := [1], d := (.op .w64 [.v, .g, .zero]), a := (.op .w32 intSrc), b := (.op .w32 intSrc), c := (.op .w64 intSrc), types := [0, 3, 7], dflt := 3, sat := true }
  | .div _ => some { op := 0x05, d := (.op .ofType intDst), a := (.op .ofType intSrc), b := (.op .ofType intSrc), types := tyW, dflt := 3, latency := .always }
  | .rem _ => some { op := 0x06, d := (.op .ofType intDst), a := (.op .ofType intSrc), b := (.op .ofType intSrc), types := tyW, dflt := 3, latency := .always }
  | .min _ => some { op := 0x07, d := (.op .ofType intDst), a := (.op .ofType intSrc), b := (.op .ofType intSrc), types := tyW, dflt := 3 }
  | .max _ => some { op := 0x08, d := (.op .ofType intDst), a := (.op .ofType intSrc), b := (.op .ofType intSrc), types := tyW, dflt := 3 }
  | .abs _ => some { op := 0x09, d := (.op .ofType intDst), a := (.op .ofType intSrc), types := [0, 3, 4], dflt := 3, sat := true }
  | .neg _ => some { op := 0x0a, d := (.op .ofType intDst), a := (.op .ofType intSrc), types := [0, 3, 4], dflt := 3, sat := true }
  | .dot4 _ => some { op := 0x0b, minors := [0, 1], d := (.op .w32 intDst), a := (.op .w32 intSrc), b := (.op .w32 intSrc), c := (.op .w32 intSrc), types := [0, 1, 5], dflt := 1, sat := true }
  | .addc _ => some { op := 0x0c, d := (.op .w32 intDst), a := (.op .w32 intSrc), b := (.op .w32 intSrc), types := [0, 7], dflt := 7, auxs := 8 }
  | .subb _ => some { op := 0x0d, d := (.op .w32 intDst), a := (.op .w32 intSrc), b := (.op .w32 intSrc), types := [0, 7], dflt := 7, auxs := 8 }
  | .madc _ => some { op := 0x0e, minors := [0, 1], d := (.op .w32 intDst), a := (.op .w32 intSrc), b := (.op .w32 intSrc), c := (.op .w32 intSrc), types := [0, 7], dflt := 7, auxs := 8 }
  | .and _ => some { op := 0x10, d := (.op .ofType intDst), a := (.op .ofType intSrc), b := (.op .ofType intSrc), types := tyW, dflt := 7 }
  | .or _ => some { op := 0x11, d := (.op .ofType intDst), a := (.op .ofType intSrc), b := (.op .ofType intSrc), types := tyW, dflt := 7 }
  | .xor _ => some { op := 0x12, d := (.op .ofType intDst), a := (.op .ofType intSrc), b := (.op .ofType intSrc), types := tyW, dflt := 7 }
  | .andn _ => some { op := 0x13, d := (.op .ofType intDst), a := (.op .ofType intSrc), b := (.op .ofType intSrc), types := tyW, dflt := 7 }
  | .not _ => some { op := 0x14, d := (.op .ofType intDst), a := (.op .ofType intSrc), types := tyW, dflt := 7 }
  | .lut3 _ => some { op := 0x15, minors := minorAny, d := (.op .w32 intDst), a := (.op .w32 intSrc), b := (.op .w32 intSrc), c := (.op .w32 intSrc), types := tyLut, dflt := 7, extra := .lut }
  | .shl _ => some { op := 0x16, minors := [0, 1], d := (.op .ofType intDst), a := (.op .ofType intSrc), b := .raw, c := .raw, types := tyW, dflt := 7, extra := .shift }
  | .shr _ => some { op := 0x17, minors := [0, 1], d := (.op .ofType intDst), a := (.op .ofType intSrc), b := .raw, c := .raw, types := tyW, dflt := 7, extra := .shift }
  | .sra _ => some { op := 0x18, minors := [0, 1], d := (.op .ofType intDst), a := (.op .ofType intSrc), b := .raw, c := .raw, types := tyW, dflt := 7, extra := .shift }
  | .rot _ => some { op := 0x19, minors := [0, 1, 2, 3], d := (.op .ofType intDst), a := (.op .ofType intSrc), b := .raw, c := .raw, types := tyW, dflt := 7, extra := .shift }
  | .fsh _ => some { op := 0x1a, minors := [0, 1, 2, 3], d := (.op .w32 intDst), a := (.op .w32 intSrc), b := (.op .w32 intSrc), c := .raw, types := [0, 7], dflt := 7, extra := .fsh }
  | .bfx _ => some { op := 0x1b, d := (.op .ofType intDst), a := (.op .ofType intSrc), b := (.op .w32 intSrc), types := tyW, dflt := 7 }
  | .bfi _ => some { op := 0x1c, d := (.op .ofType intDst), a := (.op .ofType intSrc), b := (.op .ofType intSrc), c := (.op .w32 intSrc), types := tyW, dflt := 7 }
  | .popc _ => some { op := 0x1d, d := (.op .w32 intDst), a := (.op .ofType intSrc), types := tyW, dflt := 7 }
  | .clz _ => some { op := 0x1e, d := (.op .w32 intDst), a := (.op .ofType intSrc), types := tyW, dflt := 7 }
  | .ctz _ => some { op := 0x1f, d := (.op .w32 intDst), a := (.op .ofType intSrc), types := tyW, dflt := 7 }
  | .brev _ => some { op := 0x20, d := (.op .ofType intDst), a := (.op .ofType intSrc), types := tyW, dflt := 7 }
  | .bsel _ => some { op := 0x21, minors := [0, 1, 2], d := (.op .w32 intDst), a := (.op .w32 intSrc), b := (.op .w32 intSrc), c := (.op .w32 intSrc), types := [0, 7], dflt := 7 }
  | .mov _ => some { op := 0x30, d := (.op .ofType intDst), a := (.op .ofType (.h :: intSrc)), types := tyW, dflt := 7 }
  | .movi _ => some { op := 0x31, d := (.op .ofType intDst), c := .raw, types := tyW, dflt := 3, extra := .movi }
  | .sel _ => some { op := 0x32, d := (.op .ofType intDst), a := (.op .ofType intSrc), b := (.op .ofType intSrc), c := (.op .w32 [.pred]), types := tyW, dflt := 7 }
  | .cmp _ => some { op := 0x33, d := (.op .w32 intDst), a := (.op .ofType intSrc), b := (.op .ofType intSrc), c := .raw, types := tyW, dflt := 3, rms := 8, sat := true, auxs := 4, extra := (.cmp 6) }
  | .pset _ => some { op := 0x34, minors := [0, 1, 2, 3, 4, 5, 6, 7], d := (.op .w32 [.pred, .zero]), a := (.op .w32 [.pred, .zero]), b := (.op .w32 [.pred, .zero]) }
  | .lea _ => some { op := 0x35, d := (.op .w64 [.v, .g, .zero]), a := (.op .w64 [.v, .g, .port, .zero]), b := (.op .w32 [.v, .g, .zero, .lit]), c := .raw, auxs := 4, long := .off, extra := .off }
  | .cvti _ => some { op := 0x36, d := (.op .ofType intDst), a := (.op .ofSource intSrc), c := .raw, types := tyInt, sat := true, extra := (.sourceType tyInt) }
  | .ld _ => some { op := 0x40, minors := [0, 1, 2], d := (.op .group [.v, .g, .zero]), a := (.op .w64 [.v, .g, .port, .zero]), b := (.op .w32 [.v, .g, .zero, .lit]), c := .raw, types := tyMem, dflt := 7, rms := 4, auxs := 4, long := .off, latency := .ifDst, roles := [.feed, .general], extra := .off }
  | .st _ => some { op := 0x41, minors := [0, 1, 2], d := (.op .group [.v, .g, .zero, .lit, .h]), a := (.op .w64 [.v, .g, .port, .zero]), b := (.op .w32 [.v, .g, .zero, .lit]), c := .raw, types := tyMem, dflt := 7, rms := 3, auxs := 4, long := .off, roles := [.feed, .vector, .general], extra := .off }
  | .pref _ => some { op := 0x42, minors := [0, 1, 2], a := (.op .w64 [.v, .g, .port, .zero]), b := (.op .w32 [.v, .g, .zero, .lit]), c := .raw, auxs := 4, long := .off, roles := [.feed, .general], extra := .off }
  | .fadd _ => some { op := 0x50, d := (.op .ofType [.v, .g, .zero]), a := (.op .ofType fltSrc), b := (.op .ofType fltSrc), types := tyF, dflt := 10, rms := 4, roles := [.vector, .general] }
  | .fsub _ => some { op := 0x51, d := (.op .ofType [.v, .g, .zero]), a := (.op .ofType fltSrc), b := (.op .ofType fltSrc), types := tyF, dflt := 10, rms := 4, roles := [.vector, .general] }
  | .fmul _ => some { op := 0x52, d := (.op .ofType [.v, .g, .zero]), a := (.op .ofType fltSrc), b := (.op .ofType fltSrc), types := tyF, dflt := 10, rms := 4, roles := [.vector, .general] }
  | .ffma _ => some { op := 0x53, d := (.op .ofType [.v, .g, .zero]), a := (.op .ofType fltSrc), b := (.op .ofType fltSrc), c := (.op .ofType fltSrc), types := tyF, dflt := 10, rms := 4, roles := [.vector, .general] }
  | .fmin _ => some { op := 0x54, d := (.op .ofType [.v, .g, .zero]), a := (.op .ofType fltSrc), b := (.op .ofType fltSrc), types := tyF, dflt := 10, roles := [.vector, .general] }
  | .fmax _ => some { op := 0x55, d := (.op .ofType [.v, .g, .zero]), a := (.op .ofType fltSrc), b := (.op .ofType fltSrc), types := tyF, dflt := 10, roles := [.vector, .general] }
  | .fcmp _ => some { op := 0x56, d := (.op .w32 intDst), a := (.op .ofType fltSrc), b := (.op .ofType fltSrc), c := .raw, types := tyF, dflt := 10, rms := 8, sat := true, auxs := 4, roles := [.vector, .general], extra := (.cmp 8) }
  | .fclass _ => some { op := 0x57, d := (.op .w32 intDst), a := (.op .ofType fltSrc), types := tyF, dflt := 10, roles := [.vector, .general] }
  | .frnd _ => some { op := 0x58, minors := [0, 1], d := (.op .ofType [.v, .g, .zero]), a := (.op .ofType fltSrc), types := tyF, dflt := 10, rms := 4, roles := [.vector, .general] }
  | .fdiv _ => some { op := 0x59, d := (.op .ofType [.v, .g, .zero]), a := (.op .ofType fltSrc), b := (.op .ofType fltSrc), types := tyF, dflt := 10, rms := 4, latency := .always, roles := [.vector, .general] }
  | .fsqrt _ => some { op := 0x5a, d := (.op .ofType [.v, .g, .zero]), a := (.op .ofType fltSrc), types := tyF, dflt := 10, rms := 4, latency := .always, roles := [.vector, .general] }
  | .frcp _ => some { op := 0x5b, d := (.op .ofType [.v, .g, .zero]), a := (.op .ofType fltSrc), types := tyF, dflt := 10, rms := 4, latency := .always, roles := [.vector, .general] }
  | .frsq _ => some { op := 0x5c, d := (.op .ofType [.v, .g, .zero]), a := (.op .ofType fltSrc), types := tyF, dflt := 10, rms := 4, latency := .always, roles := [.vector, .general] }
  | .fex2 _ => some { op := 0x5d, d := (.op .ofType [.v, .g, .zero]), a := (.op .ofType fltSrc), types := tyH, dflt := 10, latency := .always, roles := [.vector, .general] }
  | .flg2 _ => some { op := 0x5e, d := (.op .ofType [.v, .g, .zero]), a := (.op .ofType fltSrc), types := tyH, dflt := 10, latency := .always, roles := [.vector, .general] }
  | .fsin _ => some { op := 0x5f, d := (.op .ofType [.v, .g, .zero]), a := (.op .ofType fltSrc), types := tyH, dflt := 10, latency := .always, roles := [.vector, .general] }
  | .fcos _ => some { op := 0x60, d := (.op .ofType [.v, .g, .zero]), a := (.op .ofType fltSrc), types := tyH, dflt := 10, latency := .always, roles := [.vector, .general] }
  | .ftanh _ => some { op := 0x61, d := (.op .ofType [.v, .g, .zero]), a := (.op .ofType fltSrc), types := tyH, dflt := 10, latency := .always, roles := [.vector, .general] }
  | .hadd2 _ => some { op := 0x62, d := (.op .w32 [.v, .g, .zero]), a := (.op .w32 fltSrc), b := (.op .w32 fltSrc), types := [0, 11, 12], dflt := 11, rms := 4, roles := [.vector, .general] }
  | .hmul2 _ => some { op := 0x63, d := (.op .w32 [.v, .g, .zero]), a := (.op .w32 fltSrc), b := (.op .w32 fltSrc), types := [0, 11, 12], dflt := 11, rms := 4, roles := [.vector, .general] }
  | .hfma2 _ => some { op := 0x64, d := (.op .w32 [.v, .g, .zero]), a := (.op .w32 fltSrc), b := (.op .w32 fltSrc), c := (.op .w32 fltSrc), types := [0, 11, 12], dflt := 11, rms := 4, roles := [.vector, .general] }
  | .cvtf _ => some { op := 0x65, minors := [0, 1, 2], d := (.op .ofType [.v, .g, .zero]), a := (.op .ofSource fltSrc), b := .raw, c := .raw, types := tyFlt, rms := 5, sat := true, roles := [.vector, .general], extra := .cvtf }
  | .cvtfi _ => some { op := 0x66, d := (.op .ofType [.v, .g, .zero]), a := (.op .ofSource fltSrc), c := .raw, types := tyInt, rms := 4, roles := [.vector, .general], extra := (.sourceType [9, 10, 11, 12]) }
  | .cvtif _ => some { op := 0x67, d := (.op .ofType [.v, .g, .zero]), a := (.op .ofSource fltSrc), c := .raw, types := [9, 10, 11, 12], rms := 4, sat := true, roles := [.vector, .general], extra := (.sourceType tyInt) }
  | .fscale _ => some { op := 0x68, d := (.op .ofType [.v, .g, .zero]), a := (.op .ofType fltSrc), b := (.op .w32 fltSrc), types := tyF, dflt := 10, rms := 4, roles := [.vector, .general] }
  | .nop _ => some { op := 0x80, long := .no }
  | .bra _ => some { op := 0x81, c := .raw, long := .off, last := true, extra := .off }
  | .brx _ => some { op := 0x82, a := (.op .w64 [.v, .g, .lit]), last := true }
  | .call _ => some { op := 0x83, d := (.op .w64 [.v, .g]), c := .raw, long := .off, last := true, extra := .off }
  | .callx _ => some { op := 0x84, d := (.op .w64 [.v, .g]), a := (.op .w32 [.v, .g, .lit]), last := true }
  | .ret _ => some { op := 0x85, a := (.op .w64 [.v, .g]), long := .no, last := true }
  | .exit _ => some { op := 0x86, long := .no, last := true }
  | .endThread _ => some { op := 0x87, long := .no, last := true }
  | .trap _ => some { op := 0x88, c := (.imm 255), long := .no, last := true }
  | .bpt _ => some { op := 0x89, c := (.imm 255), long := .no }
  | .yield _ => some { op := 0x8a, long := .no }
  | .xlane _ => some { op := 0x90, minors := [0, 1, 2, 3], d := (.op .ofType [.v, .g, .zero]), a := (.op .ofType [.v, .g, .zero]), b := (.op .w32 [.v, .g, .zero, .lit]), c := (.imm 5), types := [0, 7, 8], dflt := 7, auxs := 8 }
  | .pqry _ => some { op := 0x91, minors := [0, 1, 2, 3, 4, 5], d := (.op .w32 intDst), a := (.op .w32 [.pred]), long := .no, extra := .pqry }
  | .gred _ => some { op := 0x92, minors := [0, 1, 2, 3, 4, 5, 6, 7, 8], d := (.op .ofType [.v, .g, .zero]), a := (.op .ofType [.v, .g, .zero, .lit]), types := [], dflt := 3, rms := 4, sat := true, extra := .red }
  | .scan _ => some { op := 0x93, minors := [0, 1, 2, 3, 4, 5, 6, 7, 8], d := (.op .ofType [.v, .g, .zero]), a := (.op .ofType [.v, .g, .zero, .lit]), c := .raw, types := [], dflt := 3, rms := 4, sat := true, auxs := 2, extra := .scan }
  | .kgrp _ => some { op := 0x94, minors := [0, 1, 2], d := (.op .w32 [.v, .g, .zero]), a := (.op .ofType [.v, .g, .zero, .lit]), types := [0, 7, 8, 9, 10], dflt := 7, auxs := 8 }
  | .lead _ => some { op := 0x95, minors := [0, 1], d := (.op .w32 intDst), long := .no }
  | .rcvJ _ => some { op := 0x96, c := .raw, long := .off, extra := .off }
  | .rcvB _ => some { op := 0x96, minors := [1], c := .raw, long := .off, extra := .off }
  | .join _ => some { op := 0x97, long := .no, last := true }
  | .brkj _ => some { op := 0x98, long := .no, last := true }
  | .regang _ => some { op := 0x99, long := .no, last := true }
  | .cont _ => some { op := 0x9a, long := .no, last := true }
  | .fwd _ => some { op := 0x9b, a := (.op .w32 [.v, .g, .zero, .lit]), last := true }
  | .spawn _ => some { op := 0x9c, a := (.op .w32 [.v, .g, .zero, .lit]), b := (.op .args [.v, .zero]), last := true }
  | .spawnNb _ => some { op := 0x9c, minors := [1], d := (.op .w32 [.predW]), a := (.op .w32 [.v, .g, .zero, .lit]), b := (.op .args [.v, .zero]) }
  | .bari _ => some { op := 0x9d, a := (.op .w32 [.v, .g, .zero, .lit]), c := (.imm 31) }
  | .arrive _ => some { op := 0x9e, d := (.op .w32 [.v, .zero]), c := (.imm 31), long := .no }
  | .arriveRlx _ => some { op := 0x9e, minors := [1], d := (.op .w32 [.v, .zero]), c := (.imm 31), long := .no }
  | .arriveRemote _ => some { op := 0x9e, minors := [2], d := (.op .w32 [.zero]), a := (.op .w64 [.v, .g, .zero]), long := .no }
  | .bwait _ => some { op := 0x9f, a := (.op .w32 [.v, .g, .zero, .lit]), c := (.imm 31), last := true }
  | .bwaitRemote _ => some { op := 0x9f, minors := [1], a := (.op .w64 [.v, .g, .zero]), b := (.op .w32 [.v, .g, .zero, .lit]), c := (.op .w32 [.v, .g, .zero, .lit]), last := true }
  | .expb _ => some { op := 0xa0, minors := [0, 1, 2, 3, 4, 5, 6, 7, 8, 9], d := (.op .w32 [.pred, .zero]), a := .raw, b := (.op .w32 [.v, .g, .zero, .lit]), c := .raw, types := [], auxs := 8, extra := .expb }
  | .expn _ => some { op := 0xa1, d := (.op .w32 [.pred]), auxs := 8, long := .no, extra := .expn }
  | .expe _ => some { op := 0xa2, long := .no }
  | .segr _ => some { op := 0xa3, a := (.op .ofType [.v, .g, .zero, .lit, .e]), types := [3, 4, 7, 8, 10] }
  | .ldfe _ => some { op := 0xb0, minors := [0, 1, 2, 4, 5, 6], d := (.op .group [.v, .g, .zero]), a := (.op .w64 [.v, .g, .zero]), b := (.op .w32 [.v, .g, .zero, .lit]), c := .raw, types := tyMem, dflt := 7, auxs := 4, long := .off, latency := .ifDst, roles := [.feed, .general], last := true, extra := .off }
  | .stfe _ => some { op := 0xb1, minors := [0, 1, 2], d := (.op .group [.v, .g, .zero, .lit]), a := (.op .w64 [.v, .g, .zero]), b := (.op .w32 [.v, .g, .zero, .lit]), c := .raw, types := tyMem, dflt := 7, auxs := 4, long := .off, roles := [.feed, .general], extra := .off }
  | .fesetEmpty _ => some { op := 0xb2, a := (.op .w64 [.v, .g, .zero]), b := (.op .w32 [.v, .g, .zero, .lit]), roles := [.feed, .general] }
  | .fesetFull _ => some { op := 0xb2, minors := [1], a := (.op .w64 [.v, .g, .zero]), b := (.op .w32 [.v, .g, .zero, .lit]), roles := [.feed, .general] }
  | .atom _ => some { op := 0xb3, minors := [0, 1, 2, 3, 4, 5, 6, 7, 8, 9, 10, 11], d := (.op .ofType [.v, .g, .zero]), a := (.op .w64 [.v, .g, .zero]), b := (.op .ofType [.v, .g, .zero, .lit]), c := .raw, types := [], dflt := 3, rms := 4, auxs := 8, long := .off, latency := .ifDst, roles := [.feed, .general], extra := .atom }
  | .red _ => some { op := 0xb4, minors := [0, 1, 2, 3, 4, 5, 7, 8, 9, 10, 11], a := (.op .w64 [.v, .g, .zero]), b := (.op .ofType [.v, .g, .zero, .lit]), c := .raw, types := [], dflt := 3, rms := 4, auxs := 8, long := .off, roles := [.feed, .general], extra := .atom }
  | .cas _ => some { op := 0xb5, d := (.op .ofType [.v, .g, .zero]), a := (.op .w64 [.v, .g, .zero]), b := (.op .ofType [.v, .g, .zero, .lit]), c := (.op .ofType [.v, .g, .zero, .lit]), types := tyW, dflt := 7, auxs := 8, long := .offKeepC, latency := .ifDst, roles := [.feed, .general] }
  | .waitc _ => some { op := 0xb6, minors := [0, 1, 2, 3, 4, 5, 6, 7], d := (.op .ofType [.v, .g, .zero]), a := (.op .w64 [.v, .g, .zero]), b := (.op .ofType [.v, .g, .zero, .lit]), c := .raw, types := tyW, dflt := 7, long := .off, roles := [.feed, .general], last := true, extra := .off }
  | .fence _ => some { op := 0xb7, long := .no, roles := [.feed, .general] }
  | .fenceWc _ => some { op := 0xb7, minors := [1], long := .no, roles := [.feed, .general] }
  | .cmaintIinv _ => some { op := 0xb8, a := (.op .w64 [.v, .g, .zero]), b := (.op .w32 [.v, .g, .zero, .lit]), roles := [.feed, .general] }
  | .cmaintWb _ => some { op := 0xb8, minors := [1], a := (.op .w64 [.v, .g, .zero]), b := (.op .w32 [.v, .g, .zero, .lit]), roles := [.feed, .general] }
  | .cmaintWbinv _ => some { op := 0xb8, minors := [2], a := (.op .w64 [.v, .g, .zero]), b := (.op .w32 [.v, .g, .zero, .lit]), roles := [.feed, .general] }
  | .cmaintMsset _ => some { op := 0xb8, minors := [3], a := (.op .w64 [.v, .g, .zero]), b := (.op .w32 [.v, .g, .zero, .lit]), roles := [.feed, .general] }
  | .cmaintMsclr _ => some { op := 0xb8, minors := [4], a := (.op .w64 [.v, .g, .zero]), b := (.op .w32 [.v, .g, .zero, .lit]), roles := [.feed, .general] }
  | .cmaintRepair _ => some { op := 0xb8, minors := [5], d := (.op .w64 [.v, .g]), a := (.op .w64 [.v, .g, .zero]), b := (.op .w32 [.v, .g, .zero, .lit]), roles := [.feed, .general] }
  | .ldt _ => some { op := 0xb9, minors := [0, 1, 2, 4, 5, 6], d := (.op .tiles [.v, .g, .zero]), a := (.op .w64 [.v, .g, .zero]), b := (.op .w32 [.v, .g, .zero, .lit]), c := .raw, types := [0, 6, 11, 12], dflt := 6, auxs := 4, long := .off, latency := .ifDst, roles := [.feed, .general], extra := .off }
  | .qpush _ => some { op := 0xba, d := (.op .w32 [.predW, .zero]), a := (.op .w32 [.v, .g, .zero, .lit]), c := (.op .w32 [.port]), types := [0, 7], dflt := 7, roles := [.feed, .general] }
  | .qwait _ => some { op := 0xbb, d := (.op .w32 [.predW, .zero]), a := (.op .w32 [.port]), long := .no, roles := [.feed, .general], last := true }
  | .qwaitNb _ => some { op := 0xbb, minors := [1], d := (.op .w32 [.predW, .zero]), a := (.op .w32 [.port]), long := .no, roles := [.feed, .general], last := true }
  | .mxresX _ => some { op := 0xc0, a := (.op .w64 [.v, .g, .lit]), b := (.op .w32 [.v, .g, .pred, .zero, .lit]), c := (.imm 15), roles := [.matrix, .general] }
  | .mxresW _ => some { op := 0xc0, minors := [1], a := (.op .w64 [.v, .g, .lit]), b := (.op .w32 [.v, .g, .pred, .zero, .lit]), c := (.imm 15), roles := [.matrix, .general] }
  | .mxrel _ => some { op := 0xc1, c := (.imm 15), long := .no, roles := [.matrix, .general] }
  | .mxfence _ => some { op := 0xc2, long := .no, roles := [.matrix, .general] }
  | .mxissue _ => some { op := 0xc3, d := (.op .w32 [.h, .zero]), a := (.op .w64 [.v, .g, .lit]), roles := [.matrix, .general] }
  | .mxdrain _ => some { op := 0xc4, d := (.op .w32 [.h, .zero]), a := (.op .w64 [.v, .g, .lit]), types := [0, 10, 11, 12, 13, 14], dflt := 10, rms := 5, sat := true, auxs := 4, roles := [.matrix, .general] }
  | .mxdrainRaw _ => some { op := 0xc4, minors := [1], d := (.op .w32 [.h, .zero]), a := (.op .w64 [.v, .g, .lit]), auxs := 4, roles := [.matrix, .general] }
  | .mxdrainMx _ => some { op := 0xc4, minors := [2], d := (.op .w32 [.h, .zero]), a := (.op .w64 [.v, .g, .lit]), types := [0, 13, 14, 15, 16, 17, 1], dflt := 13, rms := 5, auxs := 4, roles := [.matrix, .general] }
  | .talloc _ => some { op := 0xc5, c := (.imm 3), long := .no, roles := [.matrix, .general] }
  | .tfree _ => some { op := 0xc6, c := (.imm 3), long := .no, roles := [.matrix, .general] }
  | .qnt _ => some { op := 0xc7, d := (.op .w32 [.h, .zero]), a := (.op .w64 [.v, .g, .lit]), rms := 5, roles := [.feed, .general] }
  | .dqnt _ => some { op := 0xc8, d := (.op .w32 [.h, .zero]), a := (.op .w64 [.v, .g, .lit]), rms := 4, sat := true, roles := [.feed, .general] }
  | .cpy _ => some { op := 0xc9, d := (.op .w32 [.h, .zero]), a := (.op .w64 [.v, .g, .lit]), roles := [.feed, .general] }
  | .fetch _ => some { op := 0xca, d := (.op .w32 [.h, .zero]), a := (.op .w64 [.v, .g, .lit]), b := (.op .w32 [.v, .g, .pred, .zero, .lit]), c := (.op .w32 [.v, .g, .pred, .zero, .lit]), auxs := 8, roles := [.feed, .general] }
  | .ixwalk _ => some { op := 0xcb, d := (.op .w32 [.h, .zero]), a := (.op .w64 [.v, .g, .lit]), roles := [.feed, .general] }
  | .zopen _ => some { op := 0xcc, d := (.op .w32 [.z]), a := (.op .w64 [.v, .g, .lit]), b := (.op .w32 [.v, .g, .pred, .zero, .lit]), c := (.op .w64 [.v, .g, .lit]), auxs := 2, roles := [.feed, .general] }
  | .zadv _ => some { op := 0xcd, d := (.op .w32 [.z]), latency := .always, roles := [.feed, .general] }
  | .zadvSeek _ => some { op := 0xcd, minors := [1], d := (.op .w32 [.z]), b := (.op .w32 [.v, .g, .pred, .zero, .lit]), latency := .always, roles := [.feed, .general] }
  | .zend _ => some { op := 0xce, d := (.op .w32 [.predW, .v, .g, .zero]), a := (.op .w32 [.z]), long := .no, roles := [.feed, .general] }
  | .zclose _ => some { op := 0xcf, d := (.op .w32 [.z]), long := .no, roles := [.feed, .general] }
  | .zval _ => some { op := 0xd0, d := (.op .ofType [.v, .g, .zero]), a := (.op .w32 [.z]), types := [0, 7, 8], dflt := 7, long := .no, latency := .always, roles := [.feed, .general] }
  | .cpact _ => some { op := 0xd1, d := (.op .w32 [.h, .zero]), a := (.op .w64 [.v, .g, .lit]), b := (.op .w32 [.v, .g, .pred, .zero, .lit]), c := (.op .w32 [.pred]), roles := [.feed, .general] }
  | .cpfl _ => some { op := 0xd2, d := (.op .w32 [.h, .zero]), long := .no, roles := [.feed, .general] }
  | .racqP _ => some { op := 0xd3, d := (.op .w32 [.v, .g, .zero]), c := (.imm 7), long := .no, last := true }
  | .racqC _ => some { op := 0xd3, minors := [1], d := (.op .w32 [.v, .g, .zero]), c := (.imm 7), long := .no, last := true }
  | .rrelP _ => some { op := 0xd4, a := (.op .w32 [.v, .g, .pred, .zero, .lit]), c := (.imm 7) }
  | .rrelC _ => some { op := 0xd4, minors := [1], a := (.op .w32 [.v, .g, .pred, .zero, .lit]), c := (.imm 7) }
  | .fwait _ => some { op := 0xd5, d := (.op .w32 [.v, .zero]), a := .raw, c := .raw, last := true, extra := .handle }
  | .ftest _ => some { op := 0xd6, d := (.op .w32 [.predW, .v, .g, .zero]), a := .raw, c := .raw, extra := .handle }
  | .fcancel _ => some { op := 0xd7, a := .raw, c := .raw, extra := .handle }
  | .rinit _ => some { op := 0xd8, minors := minorAny, a := (.op .w32 [.v, .g, .pred, .zero, .lit]), b := (.op .w32 [.v, .g, .pred, .zero, .lit]), c := (.imm 7) }
  | .gets _ => some { op := 0xe0, d := (.op .ofType [.v, .g, .zero]), c := .raw, types := [0, 7, 8], dflt := 7, long := .no, latency := .ifCounter, extra := .gets }
  | .sets _ => some { op := 0xe1, a := (.op .ofType [.v, .g, .lit]), c := .raw, types := [0, 7, 8], dflt := 7, extra := .sets }
  | .tretRetry _ => some { op := 0xe2, a := (.op .w64 [.g]), long := .no }
  | .tretSkip _ => some { op := 0xe2, minors := [1], a := (.op .w64 [.g]), long := .no }
  | .tretKill _ => some { op := 0xe2, minors := [2], a := (.op .w64 [.g]), long := .no }
  | .snap _ => some { op := 0xe3, c := (.imm 255), long := .no }
  | .udf _ => some { op := 0xff, minors := minorAny }
  | .snapshotLatch _ => none
  | .trapDelivery _ _ _ => none
  | .completionStageTrap _ _ _ => none
  | .segmentEnd _ _ _ => none
  | .poolSpaceGrant _ _ _ => none
  | .recordMove _ _ => none
  | .laneEventFire _ _ => none
  | .binDrain _ _ => none
  | .expSlotLoad _ _ => none
  | .binTimeout _ _ => none
  | .gangCreate _ => none
  | .agingStep _ => none
  | .balancerPeriod _ => none
  | .taskSliceForm _ _ _ => none
  | .taskAgeTimeout _ _ _ => none
  | .taskqRoomPlace _ => none
  | .launchHeadCheck _ => none
  | .dependenceLatch _ _ => none
  | .launchComplete _ => none
  | .groupPlace _ => none
  | .walkComplete _ => none
  | .walkFail _ => none
  | .walkStart _ => none
  | .tlbRetentionExpiry _ => none
  | .wcBufferWrite _ => none
  | .logicalClockTick _ => none
  | .dirtyEvictWriteback _ _ => none
  | .l2EvictRecall _ => none
  | .requestInject _ => none
  | .rdMsg _ => none
  | .rdxMsg _ => none
  | .wrMsg _ => none
  | .wrpMsg _ => none
  | .atmMsg _ => none
  | .monMsg _ => none
  | .fwqMsg _ => none
  | .launchMsg _ => none
  | .recMsg _ => none
  | .partReserve _ => none
  | .partCommit _ => none
  | .partRollback _ => none
  | .partReport _ => none
  | .dataMsg _ => none
  | .ackMsg _ => none
  | .msat _ => none
  | .nackMsg _ => none
  | .flitReceive _ _ => none
  | .linkTakedown _ => none
  | .requestTimeout _ => none
  | .reservingTimeout _ => none
  | .backoffExpiry _ => none
  | .partReserveExpiry _ => none
  | .partStart _ => none
  | .engineUnitAccess _ => none
  | .cpyCompletion _ => none
  | .fetchReserve _ _ => none
  | .fetchCompletion _ => none
  | .ixwalkRangeComplete _ => none
  | .ixwalkCompletion _ => none
  | .cpactTileFill _ => none
  | .cpactCompletion _ => none
  | .matrixOpStart _ => none
  | .matrixOpComplete _ => none
  | .mxdrainCompletion _ => none
  | .qntCompletion _ => none
  | .dqntCompletion _ => none
  | .cancelSafePoint _ => none
  | .faultEntryWrite _ => none
  | .shootdownGo => none
  | .shootdownComplete => none
  | .preemptGo _ => none
  | .preemptGroupDone _ => none
  | .preemptResume _ => none
  | .snapctlTrig => none
  | .snapctlRel => none
  | .qwakeWrite _ _ => none
  | .wakeWordChange _ => none
  | .nopPacket _ => none
  | .launchPacket _ => none
  | .beginPacket _ => none
  | .commitPacket _ => none
  | .replacePacket _ => none
  | .signalPacket _ => none
  | .ctxnew _ => none
  | .ctxdel _ => none
  | .mapq _ => none
  | .unmapq _ => none
  | .queueUnmapComplete _ => none
  | .abortCmd _ => none
  | .preemptCmd _ => none
  | .restoreCmd => none
  | .attest => none
  | .standbyEnter => none
  | .standbyLeave => none
  | .feataccWrite _ => none
  | .poolcfgApply _ => none
  | .registerWrite _ => none
  | .bersyAccess _ => none
  | .bersyLaneFail _ => none
  | .ptpEventMessage _ => none
  | .sctlOpen _ => none
  | .sctlClose _ => none
  | .ingestPacket _ => none
  | .frameClose _ _ => none
  | .frameTimeout _ _ => none
  | .mreset _ => none
  | .powerOnReset => none
  | .bootRomPhase _ => none
  | .verifyPhase _ => none
  | .hbminitPhase _ => none
  | .selftestPhase _ => none
  | .readyPhase _ => none
  | .throttle _ _ _ => none
  | .thermalTrip => none
  | .clockGate _ => none
  | .coreWake _ => none
  | .fabricReceiveEntry _ _ _ => none
  | .partUnreachable _ => none

/-- The fields of each full or long-form word. -/
def fieldsOf : Instr → Option Fields
  | .clauseStart _ _ _ => none
  | .pairWord _ _ => none
  | .vlResultWrite _ => none
  | .untrackedResultWrite _ => none
  | .add f => some f
  | .sub f => some f
  | .mul f => some f
  | .mulh f => some f
  | .mad f => some f
  | .madWide f => some f
  | .div f => some f
  | .rem f => some f
  | .min f => some f
  | .max f => some f
  | .abs f => some f
  | .neg f => some f
  | .dot4 f => some f
  | .addc f => some f
  | .subb f => some f
  | .madc f => some f
  | .and f => some f
  | .or f => some f
  | .xor f => some f
  | .andn f => some f
  | .not f => some f
  | .lut3 f => some f
  | .shl f => some f
  | .shr f => some f
  | .sra f => some f
  | .rot f => some f
  | .fsh f => some f
  | .bfx f => some f
  | .bfi f => some f
  | .popc f => some f
  | .clz f => some f
  | .ctz f => some f
  | .brev f => some f
  | .bsel f => some f
  | .mov f => some f
  | .movi f => some f
  | .sel f => some f
  | .cmp f => some f
  | .pset f => some f
  | .lea f => some f
  | .cvti f => some f
  | .ld f => some f
  | .st f => some f
  | .pref f => some f
  | .fadd f => some f
  | .fsub f => some f
  | .fmul f => some f
  | .ffma f => some f
  | .fmin f => some f
  | .fmax f => some f
  | .fcmp f => some f
  | .fclass f => some f
  | .frnd f => some f
  | .fdiv f => some f
  | .fsqrt f => some f
  | .frcp f => some f
  | .frsq f => some f
  | .fex2 f => some f
  | .flg2 f => some f
  | .fsin f => some f
  | .fcos f => some f
  | .ftanh f => some f
  | .hadd2 f => some f
  | .hmul2 f => some f
  | .hfma2 f => some f
  | .cvtf f => some f
  | .cvtfi f => some f
  | .cvtif f => some f
  | .fscale f => some f
  | .nop f => some f
  | .bra f => some f
  | .brx f => some f
  | .call f => some f
  | .callx f => some f
  | .ret f => some f
  | .exit f => some f
  | .endThread f => some f
  | .trap f => some f
  | .bpt f => some f
  | .yield f => some f
  | .xlane f => some f
  | .pqry f => some f
  | .gred f => some f
  | .scan f => some f
  | .kgrp f => some f
  | .lead f => some f
  | .rcvJ f => some f
  | .rcvB f => some f
  | .join f => some f
  | .brkj f => some f
  | .regang f => some f
  | .cont f => some f
  | .fwd f => some f
  | .spawn f => some f
  | .spawnNb f => some f
  | .bari f => some f
  | .arrive f => some f
  | .arriveRlx f => some f
  | .arriveRemote f => some f
  | .bwait f => some f
  | .bwaitRemote f => some f
  | .expb f => some f
  | .expn f => some f
  | .expe f => some f
  | .segr f => some f
  | .ldfe f => some f
  | .stfe f => some f
  | .fesetEmpty f => some f
  | .fesetFull f => some f
  | .atom f => some f
  | .red f => some f
  | .cas f => some f
  | .waitc f => some f
  | .fence f => some f
  | .fenceWc f => some f
  | .cmaintIinv f => some f
  | .cmaintWb f => some f
  | .cmaintWbinv f => some f
  | .cmaintMsset f => some f
  | .cmaintMsclr f => some f
  | .cmaintRepair f => some f
  | .ldt f => some f
  | .qpush f => some f
  | .qwait f => some f
  | .qwaitNb f => some f
  | .mxresX f => some f
  | .mxresW f => some f
  | .mxrel f => some f
  | .mxfence f => some f
  | .mxissue f => some f
  | .mxdrain f => some f
  | .mxdrainRaw f => some f
  | .mxdrainMx f => some f
  | .talloc f => some f
  | .tfree f => some f
  | .qnt f => some f
  | .dqnt f => some f
  | .cpy f => some f
  | .fetch f => some f
  | .ixwalk f => some f
  | .zopen f => some f
  | .zadv f => some f
  | .zadvSeek f => some f
  | .zend f => some f
  | .zclose f => some f
  | .zval f => some f
  | .cpact f => some f
  | .cpfl f => some f
  | .racqP f => some f
  | .racqC f => some f
  | .rrelP f => some f
  | .rrelC f => some f
  | .fwait f => some f
  | .ftest f => some f
  | .fcancel f => some f
  | .rinit f => some f
  | .gets f => some f
  | .sets f => some f
  | .tretRetry f => some f
  | .tretSkip f => some f
  | .tretKill f => some f
  | .snap f => some f
  | .udf f => some f
  | .snapshotLatch _ => none
  | .trapDelivery _ _ _ => none
  | .completionStageTrap _ _ _ => none
  | .segmentEnd _ _ _ => none
  | .poolSpaceGrant _ _ _ => none
  | .recordMove _ _ => none
  | .laneEventFire _ _ => none
  | .binDrain _ _ => none
  | .expSlotLoad _ _ => none
  | .binTimeout _ _ => none
  | .gangCreate _ => none
  | .agingStep _ => none
  | .balancerPeriod _ => none
  | .taskSliceForm _ _ _ => none
  | .taskAgeTimeout _ _ _ => none
  | .taskqRoomPlace _ => none
  | .launchHeadCheck _ => none
  | .dependenceLatch _ _ => none
  | .launchComplete _ => none
  | .groupPlace _ => none
  | .walkComplete _ => none
  | .walkFail _ => none
  | .walkStart _ => none
  | .tlbRetentionExpiry _ => none
  | .wcBufferWrite _ => none
  | .logicalClockTick _ => none
  | .dirtyEvictWriteback _ _ => none
  | .l2EvictRecall _ => none
  | .requestInject _ => none
  | .rdMsg _ => none
  | .rdxMsg _ => none
  | .wrMsg _ => none
  | .wrpMsg _ => none
  | .atmMsg _ => none
  | .monMsg _ => none
  | .fwqMsg _ => none
  | .launchMsg _ => none
  | .recMsg _ => none
  | .partReserve _ => none
  | .partCommit _ => none
  | .partRollback _ => none
  | .partReport _ => none
  | .dataMsg _ => none
  | .ackMsg _ => none
  | .msat _ => none
  | .nackMsg _ => none
  | .flitReceive _ _ => none
  | .linkTakedown _ => none
  | .requestTimeout _ => none
  | .reservingTimeout _ => none
  | .backoffExpiry _ => none
  | .partReserveExpiry _ => none
  | .partStart _ => none
  | .engineUnitAccess _ => none
  | .cpyCompletion _ => none
  | .fetchReserve _ _ => none
  | .fetchCompletion _ => none
  | .ixwalkRangeComplete _ => none
  | .ixwalkCompletion _ => none
  | .cpactTileFill _ => none
  | .cpactCompletion _ => none
  | .matrixOpStart _ => none
  | .matrixOpComplete _ => none
  | .mxdrainCompletion _ => none
  | .qntCompletion _ => none
  | .dqntCompletion _ => none
  | .cancelSafePoint _ => none
  | .faultEntryWrite _ => none
  | .shootdownGo => none
  | .shootdownComplete => none
  | .preemptGo _ => none
  | .preemptGroupDone _ => none
  | .preemptResume _ => none
  | .snapctlTrig => none
  | .snapctlRel => none
  | .qwakeWrite _ _ => none
  | .wakeWordChange _ => none
  | .nopPacket _ => none
  | .launchPacket _ => none
  | .beginPacket _ => none
  | .commitPacket _ => none
  | .replacePacket _ => none
  | .signalPacket _ => none
  | .ctxnew _ => none
  | .ctxdel _ => none
  | .mapq _ => none
  | .unmapq _ => none
  | .queueUnmapComplete _ => none
  | .abortCmd _ => none
  | .preemptCmd _ => none
  | .restoreCmd => none
  | .attest => none
  | .standbyEnter => none
  | .standbyLeave => none
  | .feataccWrite _ => none
  | .poolcfgApply _ => none
  | .registerWrite _ => none
  | .bersyAccess _ => none
  | .bersyLaneFail _ => none
  | .ptpEventMessage _ => none
  | .sctlOpen _ => none
  | .sctlClose _ => none
  | .ingestPacket _ => none
  | .frameClose _ _ => none
  | .frameTimeout _ _ => none
  | .mreset _ => none
  | .powerOnReset => none
  | .bootRomPhase _ => none
  | .verifyPhase _ => none
  | .hbminitPhase _ => none
  | .selftestPhase _ => none
  | .readyPhase _ => none
  | .throttle _ _ _ => none
  | .thermalTrip => none
  | .clockGate _ => none
  | .coreWake _ => none
  | .fabricReceiveEntry _ _ _ => none
  | .partUnreachable _ => none

/-- The instruction that a major opcode and minor name (R70, R71, and the minor columns of the encoding
tables); none for an unassigned opcode and for a minor that selects no instruction of its opcode. -/
def instrOf (op : Nat) (f : Fields) : Option Instr :=
  match op with
  | 0x00 => some (.add f)
  | 0x01 => some (.sub f)
  | 0x02 => some (.mul f)
  | 0x03 => some (.mulh f)
  | 0x04 => match f.minor.toNat with
    | 0 => some (.mad f)
    | 1 => some (.madWide f)
    | _ => none
  | 0x05 => some (.div f)
  | 0x06 => some (.rem f)
  | 0x07 => some (.min f)
  | 0x08 => some (.max f)
  | 0x09 => some (.abs f)
  | 0x0a => some (.neg f)
  | 0x0b => some (.dot4 f)
  | 0x0c => some (.addc f)
  | 0x0d => some (.subb f)
  | 0x0e => some (.madc f)
  | 0x10 => some (.and f)
  | 0x11 => some (.or f)
  | 0x12 => some (.xor f)
  | 0x13 => some (.andn f)
  | 0x14 => some (.not f)
  | 0x15 => some (.lut3 f)
  | 0x16 => some (.shl f)
  | 0x17 => some (.shr f)
  | 0x18 => some (.sra f)
  | 0x19 => some (.rot f)
  | 0x1a => some (.fsh f)
  | 0x1b => some (.bfx f)
  | 0x1c => some (.bfi f)
  | 0x1d => some (.popc f)
  | 0x1e => some (.clz f)
  | 0x1f => some (.ctz f)
  | 0x20 => some (.brev f)
  | 0x21 => some (.bsel f)
  | 0x30 => some (.mov f)
  | 0x31 => some (.movi f)
  | 0x32 => some (.sel f)
  | 0x33 => some (.cmp f)
  | 0x34 => some (.pset f)
  | 0x35 => some (.lea f)
  | 0x36 => some (.cvti f)
  | 0x40 => some (.ld f)
  | 0x41 => some (.st f)
  | 0x42 => some (.pref f)
  | 0x50 => some (.fadd f)
  | 0x51 => some (.fsub f)
  | 0x52 => some (.fmul f)
  | 0x53 => some (.ffma f)
  | 0x54 => some (.fmin f)
  | 0x55 => some (.fmax f)
  | 0x56 => some (.fcmp f)
  | 0x57 => some (.fclass f)
  | 0x58 => some (.frnd f)
  | 0x59 => some (.fdiv f)
  | 0x5a => some (.fsqrt f)
  | 0x5b => some (.frcp f)
  | 0x5c => some (.frsq f)
  | 0x5d => some (.fex2 f)
  | 0x5e => some (.flg2 f)
  | 0x5f => some (.fsin f)
  | 0x60 => some (.fcos f)
  | 0x61 => some (.ftanh f)
  | 0x62 => some (.hadd2 f)
  | 0x63 => some (.hmul2 f)
  | 0x64 => some (.hfma2 f)
  | 0x65 => some (.cvtf f)
  | 0x66 => some (.cvtfi f)
  | 0x67 => some (.cvtif f)
  | 0x68 => some (.fscale f)
  | 0x80 => some (.nop f)
  | 0x81 => some (.bra f)
  | 0x82 => some (.brx f)
  | 0x83 => some (.call f)
  | 0x84 => some (.callx f)
  | 0x85 => some (.ret f)
  | 0x86 => some (.exit f)
  | 0x87 => some (.endThread f)
  | 0x88 => some (.trap f)
  | 0x89 => some (.bpt f)
  | 0x8a => some (.yield f)
  | 0x90 => some (.xlane f)
  | 0x91 => some (.pqry f)
  | 0x92 => some (.gred f)
  | 0x93 => some (.scan f)
  | 0x94 => some (.kgrp f)
  | 0x95 => some (.lead f)
  | 0x96 => match f.minor.toNat with
    | 0 => some (.rcvJ f)
    | 1 => some (.rcvB f)
    | _ => none
  | 0x97 => some (.join f)
  | 0x98 => some (.brkj f)
  | 0x99 => some (.regang f)
  | 0x9a => some (.cont f)
  | 0x9b => some (.fwd f)
  | 0x9c => match f.minor.toNat with
    | 0 => some (.spawn f)
    | 1 => some (.spawnNb f)
    | _ => none
  | 0x9d => some (.bari f)
  | 0x9e => match f.minor.toNat with
    | 0 => some (.arrive f)
    | 1 => some (.arriveRlx f)
    | 2 => some (.arriveRemote f)
    | _ => none
  | 0x9f => match f.minor.toNat with
    | 0 => some (.bwait f)
    | 1 => some (.bwaitRemote f)
    | _ => none
  | 0xa0 => some (.expb f)
  | 0xa1 => some (.expn f)
  | 0xa2 => some (.expe f)
  | 0xa3 => some (.segr f)
  | 0xb0 => some (.ldfe f)
  | 0xb1 => some (.stfe f)
  | 0xb2 => match f.minor.toNat with
    | 0 => some (.fesetEmpty f)
    | 1 => some (.fesetFull f)
    | _ => none
  | 0xb3 => some (.atom f)
  | 0xb4 => some (.red f)
  | 0xb5 => some (.cas f)
  | 0xb6 => some (.waitc f)
  | 0xb7 => match f.minor.toNat with
    | 0 => some (.fence f)
    | 1 => some (.fenceWc f)
    | _ => none
  | 0xb8 => match f.minor.toNat with
    | 0 => some (.cmaintIinv f)
    | 1 => some (.cmaintWb f)
    | 2 => some (.cmaintWbinv f)
    | 3 => some (.cmaintMsset f)
    | 4 => some (.cmaintMsclr f)
    | 5 => some (.cmaintRepair f)
    | _ => none
  | 0xb9 => some (.ldt f)
  | 0xba => some (.qpush f)
  | 0xbb => match f.minor.toNat with
    | 0 => some (.qwait f)
    | 1 => some (.qwaitNb f)
    | _ => none
  | 0xc0 => match f.minor.toNat with
    | 0 => some (.mxresX f)
    | 1 => some (.mxresW f)
    | _ => none
  | 0xc1 => some (.mxrel f)
  | 0xc2 => some (.mxfence f)
  | 0xc3 => some (.mxissue f)
  | 0xc4 => match f.minor.toNat with
    | 0 => some (.mxdrain f)
    | 1 => some (.mxdrainRaw f)
    | 2 => some (.mxdrainMx f)
    | _ => none
  | 0xc5 => some (.talloc f)
  | 0xc6 => some (.tfree f)
  | 0xc7 => some (.qnt f)
  | 0xc8 => some (.dqnt f)
  | 0xc9 => some (.cpy f)
  | 0xca => some (.fetch f)
  | 0xcb => some (.ixwalk f)
  | 0xcc => some (.zopen f)
  | 0xcd => match f.minor.toNat with
    | 0 => some (.zadv f)
    | 1 => some (.zadvSeek f)
    | _ => none
  | 0xce => some (.zend f)
  | 0xcf => some (.zclose f)
  | 0xd0 => some (.zval f)
  | 0xd1 => some (.cpact f)
  | 0xd2 => some (.cpfl f)
  | 0xd3 => match f.minor.toNat with
    | 0 => some (.racqP f)
    | 1 => some (.racqC f)
    | _ => none
  | 0xd4 => match f.minor.toNat with
    | 0 => some (.rrelP f)
    | 1 => some (.rrelC f)
    | _ => none
  | 0xd5 => some (.fwait f)
  | 0xd6 => some (.ftest f)
  | 0xd7 => some (.fcancel f)
  | 0xd8 => some (.rinit f)
  | 0xe0 => some (.gets f)
  | 0xe1 => some (.sets f)
  | 0xe2 => match f.minor.toNat with
    | 0 => some (.tretRetry f)
    | 1 => some (.tretSkip f)
    | 2 => some (.tretKill f)
    | _ => none
  | 0xe3 => some (.snap f)
  | 0xff => some (.udf f)
  | _ => none

/-- Why a word is not an instruction (R50, R62, R71, R72 order 1). -/
inductive DecodeError where
  /-- form 11 among the counted words -/
  | formEleven
  /-- a reserved bit is not 0 -/
  | reservedBit
  /-- an unassigned major opcode -/
  | unknownOpcode
  /-- a minor the description does not define -/
  | unknownMinor
  deriving DecidableEq, Repr

/-- Bits lo to lo + n - 1 of a word. -/
def bitsAt (w : W64) (lo n : Nat) : BitVec n := BitVec.extractLsb' lo n w

/-- The fields of R62 and, for a long form, of R65. -/
def unpackFields (long : Bool) (w x : W64) : Fields where
  long := long
  fsel := bitsAt w 61 1 == 1#1
  guard := bitsAt w 57 3
  gneg := bitsAt w 56 1 == 1#1
  d := bitsAt w 40 8
  a := bitsAt w 32 8
  b := bitsAt w 24 8
  c := bitsAt w 16 8
  minor := bitsAt w 12 4
  type := bitsAt w 7 5
  rm := bitsAt w 4 3
  sat := bitsAt w 3 1 == 1#1
  aux := bitsAt w 0 3
  lit := if long then bitsAt x 32 32 else 0
  xd := if long then bitsAt x 24 8 else 0
  off24 := if long then bitsAt x 0 24 else 0

/-- One half of a pair word (R67), from its 30 bits. -/
def unpackHalf (h : BitVec 30) : Half where
  pop := BitVec.extractLsb' 23 7 h
  dx := BitVec.extractLsb' 16 7 h
  sy := BitVec.extractLsb' 9 7 h
  imm := BitVec.extractLsb' 1 8 h

/-- The instruction of a full word or long form. -/
def decodeFull (long : Bool) (w x : W64) : Except DecodeError Instr :=
  if bitsAt w 60 1 ≠ 0#1 then .error .reservedBit
  else
    let f := unpackFields long w x
    match instrOf (bitsAt w 48 8).toNat f with
    | none => if knownOpcode (bitsAt w 48 8).toNat then .error .unknownMinor else .error .unknownOpcode
    | some i =>
      match descOf i with
      | some D => if f.minor.toNat ∈ D.minors then .ok i else .error .unknownMinor
      | none => .error .unknownOpcode
where
  /-- R71's list of unassigned opcodes, turned round. -/
  knownOpcode (o : Nat) : Bool :=
    o < 0x22 && o != 0x0f || 0x30 ≤ o && o < 0x37 || 0x40 ≤ o && o < 0x43 || 0x50 ≤ o && o < 0x69 ||
    0x80 ≤ o && o < 0x8b || 0x90 ≤ o && o < 0xa4 || 0xb0 ≤ o && o < 0xbc || 0xc0 ≤ o && o < 0xd9 ||
    0xe0 ≤ o && o < 0xe4 || o == 0xff

/-- The decoder: the instruction that word w stands for, x being the word after it (R50, R62, R65, R67).
A long form takes both words. -/
def decodeWord (w x : W64) : Except DecodeError Instr :=
  match (bitsAt w 62 2).toNat with
  | 0 =>
    if bitsAt w 60 2 ≠ 0#2 || bitsAt w 30 1 ≠ 0#1 || bitsAt w 0 1 ≠ 0#1 then .error .reservedBit
    else .ok (.pairWord (unpackHalf (bitsAt w 30 30)) (unpackHalf (bitsAt w 0 30)))
  | 1 => decodeFull false w x
  | 2 => decodeFull true w x
  | _ => .error .formEleven

/-- The words an instruction takes in a clause: a long form has an extension word (R50). -/
def wordCount (w : W64) : Nat := if (bitsAt w 62 2).toNat = 2 then 2 else 1

/-- The first word of a full word or long form (R62). -/
def packWord (op : Nat) (f : Fields) : W64 :=
  (((if f.long then 2#2 else 1#2) ++ (if f.fsel then 1#1 else 0#1) ++ 0#1 ++ f.guard ++
    (if f.gneg then 1#1 else 0#1) ++ BitVec.ofNat 8 op ++ f.d ++ f.a ++ f.b ++ f.c ++ f.minor ++ f.type ++
    f.rm ++ (if f.sat then 1#1 else 0#1) ++ f.aux : BitVec 64))

/-- The extension word of a long form (R65). -/
def packExt (f : Fields) : W64 := (f.lit ++ f.xd ++ f.off24 : BitVec 64)

/-- The 30 bits of a pair half (R67). -/
def packHalf (h : Half) : BitVec 30 := (h.pop ++ h.dx ++ h.sy ++ h.imm ++ 0#1 : BitVec 30)

/-- The encoder: the words of an instruction, from the same tables; none for the part's own steps, which
have no word. -/
def encode (i : Instr) : List W64 :=
  match i with
  | .pairWord h1 h2 => [((0#4 : BitVec 4) ++ packHalf h1 ++ packHalf h2 : BitVec 64)]
  | i =>
    match descOf i, fieldsOf i with
    | some D, some f => if f.long then [packWord D.op f, packExt f] else [packWord D.op f]
    | _, _ => []

/-- The instruction is a word of a thread's program, not a step of the part's own. -/
def Instr.isWord (i : Instr) : Bool :=
  match i with
  | .pairWord _ _ => true
  | i => (descOf i).isSome

/-- Decoding a list of words: the instruction and the words after it. -/
def decodeWords : List W64 → Except DecodeError (Instr × List W64)
  | [] => .error .formEleven
  | [w] => (decodeWord w 0).map fun i => (i, [])
  | w :: x :: rest => (decodeWord w x).map fun i => if wordCount w = 2 then (i, rest) else (i, x :: rest)

/-- What this decoder reads from an instruction whose bits are w, bit 0 the least significant bit of the
first 64-bit word and the extension word's bits counting on from 64; bits above nbits are 0. -/
def decodeTableWord (nbits w : Nat) : Option Instr :=
  let v := w % 2 ^ nbits
  match decodeWord (BitVec.ofNat 64 v) (BitVec.ofNat 64 (v / 2 ^ 64)) with
  | .ok i => some i
  | .error _ => none

end Sys2Proof
end

