-- ==== Sys2Proof/Machine/Tables.lean ====
section
/-! DEFINITION. Sparse tables in one canonical form: lists of (key, value) pairs with keys strictly rising
and no entry equal to what an unlisted key reads as. Memory, the register files, the brass bits and the
line tables are tables. -/

namespace Sys2Proof.Machine

/-- What a key reads as; `d` is what an unlisted key reads as. -/
def tabGet {α : Type} (d : α) : List (Nat × α) → Nat → α
  | [], _ => d
  | (k, v) :: t, a => if k = a then v else tabGet d t a

/-- Store v at key a, keeping the canonical form: a default value removes the entry. -/
def tabPut {α : Type} [DecidableEq α] (d : α) : List (Nat × α) → Nat → α → List (Nat × α)
  | [], a, v => if v = d then [] else [(a, v)]
  | (k, w) :: t, a, v =>
    if a < k then (if v = d then (k, w) :: t else (a, v) :: (k, w) :: t)
    else if a = k then (if v = d then t else (k, v) :: t)
    else (k, w) :: tabPut d t a v

/-- The canonical form: keys above `lo`, rising, no default value. -/
def tabOk {α : Type} [DecidableEq α] (d : α) : Nat → List (Nat × α) → Bool
  | _, [] => true
  | lo, (k, v) :: t => decide (lo ≤ k) && decide (v ≠ d) && tabOk d (k + 1) t

/-- Store consecutive values from key a on. -/
def tabPuts {α : Type} [DecidableEq α] (d : α) (t : List (Nat × α)) (a : Nat) : List α → List (Nat × α)
  | [] => t
  | v :: vs => tabPuts d (tabPut d t a v) (a + 1) vs

/-- n consecutive values from key a on. -/
def tabGets {α : Type} (d : α) (t : List (Nat × α)) (a : Nat) : Nat → List α
  | 0 => []
  | n + 1 => tabGet d t a :: tabGets d t (a + 1) n

/-- A little-endian number from its bytes (R5). -/
def bytesToNat : List Byte → Nat
  | [] => 0
  | b :: t => b.toNat + 256 * bytesToNat t

/-- The n bytes of a number, least significant first (R5). -/
def natToBytes : Nat → Nat → List Byte
  | 0, _ => []
  | n + 1, v => BitVec.ofNat 8 v :: natToBytes n (v / 256)

/-- Bits hi:lo of a number. -/
def fld (v hi lo : Nat) : Nat := v / 2 ^ lo % 2 ^ (hi + 1 - lo)

/-- One bit of a number. -/
def bitOf (v i : Nat) : Bool := v / 2 ^ i % 2 == 1

/-- 1 for true. -/
def b2n (b : Bool) : Nat := if b then 1 else 0

/-- The value of a w-bit two's complement number. -/
def sext (w v : Nat) : Int := if v / 2 ^ (w - 1) % 2 = 1 then (v % 2 ^ w : Int) - 2 ^ w else (v % 2 ^ w : Int)

/-- The w-bit image of an integer. -/
def wrap (w : Nat) (x : Int) : Nat := (x % (2 ^ w : Int)).toNat

/-- Replace the first element that meets p. -/
def updWhere {α : Type} (p : α → Bool) (g : α → α) : List α → List α
  | [] => []
  | x :: t => if p x then g x :: t else x :: updWhere p g t

/-- Replace every element that meets p. -/
def updAll {α : Type} (p : α → Bool) (g : α → α) (l : List α) : List α := l.map fun x => if p x then g x else x

/-- Insert before the first element that x goes before. -/
def insertBy {α : Type} (before : α → α → Bool) (x : α) : List α → List α
  | [] => [x]
  | y :: t => if before x y then x :: y :: t else y :: insertBy before x t

/-- A list in order. -/
def sortBy {α : Type} (before : α → α → Bool) (l : List α) : List α := l.foldr (insertBy before) []

/-- Replace element i. -/
def updAt {α : Type} (i : Nat) (g : α → α) (l : List α) : List α := l.modify i g

end Sys2Proof.Machine
end

