-- ==== Sys2Proof/WellFormed.lean ====
section
/-! DEFINITION. Well-formedness of an instruction: the decode checks of R72 orders 1 to 3 that its fields
alone decide, with the pairing rules of R69 for a pair word. The checks that need the state (last in its
clause, the token stack, privilege, budget, role, maintenance mode) stand in Machine/Ops.lean. -/

namespace Sys2Proof

/-- The four operand fields of R62. -/
inductive Slot where
  | d | a | b | c
  deriving DecidableEq, Repr

def Slot.all : List Slot := [.d, .a, .b, .c]

/-- The code a field holds. -/
def Slot.code (f : Fields) : Slot → Nat
  | .d => f.d.toNat
  | .a => f.a.toNat
  | .b => f.b.toNat
  | .c => f.c.toNat

/-- Bytes of one element of a type of R63 (R108); 1 for the sub-byte types. -/
def typeBytes (t : Nat) : Nat :=
  if t = 2 || t = 6 || t = 11 || t = 12 then 2
  else if t = 3 || t = 7 || t = 10 then 4
  else if t = 4 || t = 8 || t = 9 then 8 else 1

/-- Width in bits of a type of R63. -/
def typeBits (t : Nat) : Nat :=
  if t = 15 || t = 16 then 6 else if t = 17 || t = 18 || t = 19 then 4 else 8 * typeBytes t

/-- The default type of an operation of R223 and R324 (type code 0). -/
def redDefault (m : Nat) : Nat := if m < 3 then 3 else if m < 6 then 7 else 10
def atomDefault (m : Nat) : Nat := if m < 3 then 3 else if m < 9 then 7 else 10

/-- The type an instruction works in: the written code, or its default for code 0 (R63). -/
def effType (D : Desc) (f : Fields) : Nat :=
  if f.type.toNat ≠ 0 then f.type.toNat
  else match D.extra with
    | .red => redDefault f.minor.toNat
    | .scan => redDefault f.minor.toNat
    | .atom => atomDefault f.minor.toNat
    | .lut => 7
    | _ => D.dflt

/-- The permitted types of a reduction (R190, R223): OP 0 to 8 counted from ADD. -/
def redTypes (m : Nat) : List Nat :=
  if m < 3 then [3, 4, 7, 8] else if m < 6 then [7, 8] else if m < 9 then [10] else []

/-- The permitted types of an atomic (R324). -/
def atomTypes (m : Nat) : List Nat :=
  if m < 3 then [3, 4, 7, 8] else if m < 6 then [7, 8] else if m = 6 then [3, 4, 7, 8, 9, 10]
  else if m < 9 then [7, 8] else if m = 9 then [9, 10] else if m < 12 then [10] else []

/-- The use of a field once the instruction's own rule is applied. -/
def useOf (D : Desc) (f : Fields) (s : Slot) : Use :=
  let row := match s with | .d => D.d | .a => D.a | .b => D.b | .c => D.c
  match D.extra, s with
  | .shift, .b => if f.minor.getLsbD 0 then .unused else .op .w32 intSrc
  | .shift, .c => if f.minor.getLsbD 0 then .imm 255 else .unused
  | .fsh, .c => if f.minor.getLsbD 0 then .imm 255 else .op .w32 intSrc
  | .movi, .c => if f.long then .op .ofType [.lit] else .imm 255
  | .cmp _, .c => if f.aux.toNat = 0 then .unused else .op .w32 [.pred]
  | .off, .c => if f.long then .unused else .imm 255
  | .atom, .c => if f.long then .unused else .imm 255
  | .cvtf, .b => if f.minor.toNat = 1 then .op .ofSource fltSrc else .unused
  | .cvtf, .c => .imm 31
  | .sourceType _, .c => .imm 31
  | .pqry, .d => if f.minor.toNat < 3 then row else .op .w32 [.v, .g, .zero]
  | .scan, .c => if f.c.toNat = 0 then .unused else .op .w32 [.pred]
  | .expb, .d => if f.aux.getLsbD 2 then .op .w32 [.zero] else .op .w32 [.pred]
  | .expb, .a => if f.aux.getLsbD 2 then .op .w64 [.v, .g, .zero, .lit] else .op .w32 [.v, .g, .zero, .lit]
  | .expb, .c => if f.minor.toNat = 0 then .unused else .op .w64 [.v, .g]
  | .handle, .a => if f.c.toNat = 0 then .op .w32 [.v, .g, .lit] else .unused
  | .handle, .c => .imm 31
  | .gets, .c => .imm 255
  | .sets, .c => .imm 255
  | _, _ => row

/-- Registers an operand takes and the alignment of its first one. -/
def regsOf (D : Desc) (f : Fields) : Width → Nat × Nat
  | .w32 => (1, 1)
  | .w64 => (2, 2)
  | .ofType => if typeBytes (effType D f) = 8 then (2, 2) else (1, 1)
  | .ofSource =>
    if D.extra = .cvtf && f.minor.toNat = 2 then (1, 1)
    else if typeBytes (f.c.toNat % 32) = 8 then (2, 2) else (1, 1)
  | .group =>
    let n := (if typeBytes (effType D f) = 8 then 2 else 1) * 2 ^ (f.minor.toNat % 4)
    (n, n)
  | .tiles => (2 ^ (f.minor.toNat % 4), 2 ^ (f.minor.toNat % 4))
  | .args => (8, 2)

/-- A code is permitted in a field: it lies in a permitted class, a wide v or g operand is aligned, and no
wide operand is a z, q, e or h code (R9, R66, R84, R115). Codes 232–239 as the base of a memory operand
name a window, whatever the width (R76). -/
def codeOk (long : Bool) (regs align : Nat) (base : Bool) (ks : List Kind) (c : Nat) : Bool :=
  ks.any (fun k => k.has long c) &&
  (if c < 128 then c % align == 0
   else if c < 192 then (c - 128) % align == 0
   else if 200 ≤ c && c < 240 || 241 ≤ c && c < 245 then regs == 1 || base
   else true)

/-- The check of one operand field (R72 order 2). -/
def slotOk (D : Desc) (f : Fields) (s : Slot) : Bool :=
  match useOf D f s with
  | .unused => s.code f == 0
  | .raw => true
  | .imm m => s.code f ≤ m
  | .op w ks =>
    codeOk f.long (regsOf D f w).1 (regsOf D f w).2 (w == .w64 && ks.contains .port) ks (s.code f)

/-- The q codes among the operands. -/
def qCodes (D : Desc) (f : Fields) : List Nat :=
  Slot.all.filterMap fun s =>
    match useOf D f s with
    | .op _ _ => if 224 ≤ s.code f && s.code f < 240 then some (s.code f) else none
    | _ => none

/-- No q operand is named twice (R66). -/
def qOnce (D : Desc) (f : Fields) : Bool := decide (qCodes D f).Nodup

/-- Some operand field holds code 255, so that lit is used. -/
def readsLit (D : Desc) (f : Fields) : Bool :=
  Slot.all.any fun s => match useOf D f s with | .op _ _ => s.code f == 255 | _ => false

/-- The form (R64, R65, R71): a long form only where there is one, and its unused fields 0. -/
def formOk (D : Desc) (f : Fields) : Bool :=
  if f.long then
    D.long != .no && f.xd == 0#8 && (readsLit D f || f.lit == 0#32) && (D.long != .lit || f.off24 == 0#24)
  else f.lit == 0#32 && f.xd == 0#8 && f.off24 == 0#24

/-- Access size at most 16 bytes, a count above 1 only for 4- and 8-byte elements (R108); h data only for a
4-byte store (R110). -/
def groupOk (D : Desc) (f : Fields) : Bool :=
  if D.d = .op .group [.v, .g, .zero] || D.d = .op .group [.v, .g, .zero, .lit] ||
     D.d = .op .group [.v, .g, .zero, .lit, .h] then
    let e := typeBytes (effType D f)
    let n := 2 ^ (f.minor.toNat % 4)
    e * n ≤ 16 && (n == 1 || 4 ≤ e) &&
      (f.d.toNat < 200 || 216 ≤ f.d.toNat || e == 4 && n == 1)
  else true

/-- Exponent and fraction bits of the formats of type codes 9–17 (chapter Number Formats). -/
def fmtBits (t : Nat) : Nat × Nat :=
  match t with
  | 9 => (11, 52)
  | 10 => (8, 23)
  | 11 => (5, 10)
  | 12 => (8, 7)
  | 13 => (4, 3)
  | 14 => (5, 2)
  | 15 => (3, 2)
  | 16 => (2, 3)
  | 17 => (2, 1)
  | _ => (0, 0)

/-- Width in bits of a special register; none for an index R142 does not list. -/
def sregBits (i : Nat) : Option Nat :=
  if i ≤ 0x09 || 0x10 ≤ i && i ≤ 0x17 then some 32
  else if i == 0x0a || 0x20 ≤ i && i ≤ 0x22 || 0x30 ≤ i && i ≤ 0x34 then some 64 else none

/-- A counter of R142, whose GETS is variable-latency. -/
def sregCounter (i : Nat) : Bool := 0x20 ≤ i && i ≤ 0x22 || 0x30 ≤ i && i ≤ 0x34

/-- A special register SETS may write (R142). -/
def sregWritable (i : Nat) : Bool := i == 0 || i == 1 || i == 6

/-- What the instruction's description adds to order 2 and 3. -/
def extraOk (D : Desc) (f : Fields) : Bool :=
  let m := f.minor.toNat
  let t := f.type.toNat
  match D.extra with
  | .cmp n => f.rm.toNat * 2 + f.sat.toNat < n
  | .sourceType ts => ts.contains f.c.toNat
  | .cvtf =>
    tyFlt.contains f.c.toNat &&
    (m != 1 || (t == 11 || t == 12) && f.c.toNat == 10) &&
    (m != 2 || f.c.toNat == 11 || f.c.toNat == 12) &&
    (f.rm.toNat != 4 || (fmtBits t).2 < (fmtBits f.c.toNat).2 || (fmtBits t).1 < (fmtBits f.c.toNat).1)
  | .red => t == 0 || (redTypes m).contains t
  | .scan => t == 0 || (redTypes m).contains t
  | .atom => t == 0 || (atomTypes m).contains t
  | .expb => (f.aux.toNat == 0 || 4 ≤ f.aux.toNat) && (if m = 0 then t == 0 else (redTypes (m - 1)).contains t)
  | .expn => f.aux.toNat == 0 || 4 ≤ f.aux.toNat
  | .handle => f.c.toNat == 0 || 16 ≤ f.c.toNat
  | .gets =>
    match sregBits f.c.toNat with
    | some w => effType D f != 8 || w == 64
    | none => false
  | .sets =>
    match sregBits f.c.toNat with
    | some w => (effType D f != 8 || w == 64) && sregWritable f.c.toNat && (!f.long || f.a == 255#8)
    | none => false
  | _ => true

/-- rm and sat (R63, R82, R117, R223, R324). -/
def roundOk (D : Desc) (f : Fields) : Bool :=
  match D.extra with
  | .red => redRound
  | .scan => redRound
  | .atom => (f.rm == 0#3 || f.minor.toNat == 9 && f.rm.toNat < 4) && !f.sat
  | _ => f.rm.toNat < D.rms && (D.sat || !f.sat)
where
  redRound : Bool :=
    (f.rm == 0#3 || f.minor.toNat == 6 && f.rm.toNat < 4) && (!f.sat || f.minor.toNat == 0)

/-- The type code; an instruction whose rule fixes its types by operation checks them in `extraOk`. -/
def typeOk (D : Desc) (f : Fields) : Bool :=
  match D.extra with
  | .red => true
  | .scan => true
  | .atom => true
  | .expb => true
  | _ => D.types.contains f.type.toNat

/-- The instruction is variable-latency as encoded (R54). -/
def isVL (D : Desc) (f : Fields) : Bool :=
  match D.latency with
  | .fixed => false
  | .always => true
  | .ifDst => f.d.toNat != 240
  | .ifCounter => sregCounter f.c.toNat

/-- R72 orders 1 to 3 for a full word or long form. -/
def fieldsOk (D : Desc) (f : Fields) : Bool :=
  D.minors.contains f.minor.toNat && formOk D f && Slot.all.all (slotOk D f) && qOnce D f &&
  groupOk D f && f.aux.toNat < D.auxs && typeOk D f && roundOk D f && extraOk D f && (!f.fsel || isVL D f)

/-- The pair opcodes of R68. -/
def pairOps : List Nat :=
  [0x00, 0x01, 0x02, 0x07, 0x08, 0x10, 0x11, 0x12, 0x13, 0x16, 0x17, 0x18, 0x30, 0x31, 0x50, 0x51, 0x52, 0x54,
   0x55, 0x62, 0x63, 0x7f]

/-- The registers a half reads (R69). -/
def halfReads (h : Half) : List Nat :=
  if h.pop.toNat = 0x7f || h.pop.toNat = 0x31 then []
  else if h.pop.toNat = 0x30 then [h.sy.toNat] else [h.dx.toNat, h.sy.toNat]

/-- The register a half writes. -/
def halfWrites (h : Half) : Option Nat := if h.pop.toNat = 0x7f then none else some h.dx.toNat

/-- The unused fields of a half are 0 (R67, R68). -/
def halfOk (h : Half) : Bool :=
  pairOps.contains h.pop.toNat &&
  (if h.pop.toNat = 0x7f then h.dx == 0#7 && h.sy == 0#7 && h.imm == 0#8
   else if h.pop.toNat = 0x31 then h.sy == 0#7
   else if h.pop.toNat = 0x62 || h.pop.toNat = 0x63 then h.imm.toNat < 2
   else h.imm == 0#8)

/-- No bank is read by both halves, and they do not write one register (R69). -/
def pairRulesOk (h1 h2 : Half) : Bool :=
  (halfReads h1).all (fun r => (halfReads h2).all fun q => r % 4 != q % 4) &&
  (match halfWrites h1, halfWrites h2 with
   | some x, some y => x != y
   | _, _ => true)

/-- The checks of R72 orders 1 to 3, with R69. UDF is never well-formed (R71). The part's own steps are not
words: their parameters are checked by the step itself. -/
def Instr.wf (i : Instr) : Bool :=
  match i with
  | .pairWord h1 h2 => halfOk h1 && halfOk h2 && pairRulesOk h1 h2
  | .udf _ => false
  | i =>
    match descOf i, fieldsOf i with
    | some D, some f => fieldsOk D f
    | _, _ => true

end Sys2Proof
end

