-- ==== Sys2Proof/Machine/Num.lean ====
section
/-! DEFINITION. Floating-point formats, values and rounding (chapter Number Formats): every operation forms
an exact value, which is rounded once. -/

namespace Sys2Proof.Machine

/-- What an all-ones exponent means (R23, R25). -/
inductive Top where
  /-- infinities and NaNs -/
  | ieee
  /-- one NaN code, every other code a number (E4M3) -/
  | oneNan
  /-- numbers only -/
  | plain
  deriving DecidableEq, Repr

/-- A floating-point format: exponent and fraction bits, bias, and its top exponent. -/
structure Fmt where
  eb : Nat
  mb : Nat
  bias : Nat
  top : Top
  deriving DecidableEq, Repr

/-- The format of a type code 9 to 17 (R23, R25, R63). -/
def fmtOf (t : Nat) : Fmt :=
  match t with
  | 9 => ⟨11, 52, 1023, .ieee⟩
  | 10 => ⟨8, 23, 127, .ieee⟩
  | 11 => ⟨5, 10, 15, .ieee⟩
  | 12 => ⟨8, 7, 127, .ieee⟩
  | 13 => ⟨4, 3, 7, .oneNan⟩
  | 14 => ⟨5, 2, 15, .ieee⟩
  | 15 => ⟨3, 2, 3, .plain⟩
  | 16 => ⟨2, 3, 1, .plain⟩
  | _ => ⟨2, 1, 1, .plain⟩

def Fmt.bits (f : Fmt) : Nat := 1 + f.eb + f.mb

/-- A value: NaN (signalling or not), infinity, zero, or (−1)^neg · m · 2^e with m > 0. -/
inductive Val where
  | nan (sig : Bool)
  | inf (neg : Bool)
  | zero (neg : Bool)
  | fin (neg : Bool) (m : Nat) (e : Int)
  deriving DecidableEq, Repr

/-- FPSTAT flags (R12). -/
abbrev Flags := BitVec 5
def fNV : Flags := 16#5
def fDZ : Flags := 8#5
def fOF : Flags := 4#5
def fUF : Flags := 2#5
def fNX : Flags := 1#5

/-- The rounding modes of R36; RS carries the generator's new state u (R38). -/
inductive RMode where
  | rn | rz | rd | ru | rs (u : W32)
  deriving DecidableEq, Repr

/-- The mode of an rm code below 4 (R63). -/
def rmOf (rm : Nat) : RMode :=
  match rm with
  | 0 => .rn
  | 1 => .rz
  | 2 => .rd
  | _ => .ru

/-- One step of the stochastic-rounding generator (R38). -/
def rsNext (x : W32) : W32 :=
  let x := if x = 0#32 then 0x9e3779b9#32 else x
  let x := x ^^^ (x <<< 13)
  let x := x ^^^ (x >>> 17)
  x ^^^ (x <<< 5)

/-- The value a code stands for (R23, R25). -/
def unpackF (f : Fmt) (v : Nat) : Val :=
  let s := bitOf v (f.eb + f.mb)
  let e := fld v (f.eb + f.mb - 1) f.mb
  let m := v % 2 ^ f.mb
  let tope := 2 ^ f.eb - 1
  if e = tope && f.top = .ieee then
    (if m = 0 then .inf s else .nan (!bitOf m (f.mb - 1)))
  else if e = tope && f.top = .oneNan && m = 2 ^ f.mb - 1 then .nan false
  else if e = 0 then (if m = 0 then .zero s else .fin s m (1 - (f.bias : Int) - f.mb))
  else .fin s (2 ^ f.mb + m) ((e : Int) - f.bias - f.mb)

/-- The canonical NaN (R24); +0 in a format without one (R42). -/
def canonNan (f : Fmt) : Nat :=
  match f.top with
  | .ieee => (2 ^ f.eb - 1) * 2 ^ f.mb + 2 ^ (f.mb - 1)
  | .oneNan => 2 ^ (f.eb + f.mb) - 1
  | .plain => 0

def signBit (f : Fmt) (neg : Bool) : Nat := if neg then 2 ^ (f.eb + f.mb) else 0

/-- The code of the largest finite magnitude. -/
def maxCode (f : Fmt) : Nat :=
  match f.top with
  | .ieee => (2 ^ f.eb - 1) * 2 ^ f.mb - 1
  | .oneNan => 2 ^ (f.eb + f.mb) - 2
  | .plain => 2 ^ (f.eb + f.mb) - 1

/-- The largest finite magnitude as m · 2^e. -/
def maxFin (f : Fmt) : Nat × Int :=
  match unpackF f (maxCode f) with
  | .fin _ m e => (m, e)
  | _ => (0, 0)

/-- The code of an infinity; for a format without one, see R42. -/
def infCode (f : Fmt) (neg : Bool) : Nat := signBit f neg + (2 ^ f.eb - 1) * 2 ^ f.mb

/-- m1 · 2^e1 > m2 · 2^e2. -/
def gtPow (m1 : Nat) (e1 : Int) (m2 : Nat) (e2 : Int) : Bool :=
  if e1 ≥ e2 then m1 * 2 ^ (e1 - e2).toNat > m2 else m1 > m2 * 2 ^ (e2 - e1).toNat

/-- Whether a magnitude with integer part `sig`, discarded part r / d and a further part below one unit of
r (`sticky`) is rounded away from zero (R36, R38). -/
def roundsAway (rm : RMode) (neg : Bool) (sig r d : Nat) (sticky : Bool) : Bool :=
  match rm with
  | .rn => 2 * r > d || 2 * r == d && (sticky || sig % 2 == 1)
  | .rz => false
  | .rd => neg && (r != 0 || sticky)
  | .ru => !neg && (r != 0 || sticky)
  | .rs u => u.toNat < r * 2 ^ 32 / d

/-- The integer nearest m · 2^(e − q) in the mode, and whether it is exact. -/
def quantise (rm : RMode) (neg : Bool) (m : Nat) (e : Int) (sticky : Bool) (q : Int) : Nat × Bool :=
  if q ≤ e then
    let sig := m * 2 ^ (e - q).toNat
    (sig + b2n (roundsAway rm neg sig 0 1 sticky), !sticky)
  else
    let d := 2 ^ (q - e).toNat
    let sig := m / d
    let r := m % d
    (sig + b2n (roundsAway rm neg sig r d sticky), r == 0 && !sticky)

/-- The code of sig · 2^q, where the format holds it. -/
def packF (f : Fmt) (neg : Bool) (sig : Nat) (q : Int) : Nat :=
  if sig = 0 then signBit f neg
  else if sig < 2 ^ f.mb then signBit f neg + sig
  else
    let sig' := if sig = 2 ^ (f.mb + 1) then 2 ^ f.mb else sig
    let q' := if sig = 2 ^ (f.mb + 1) then q + 1 else q
    signBit f neg + (q' + f.mb + f.bias).toNat * 2 ^ f.mb + (sig' - 2 ^ f.mb)

/-- Overflow results (R41). -/
def overflowCode (f : Fmt) (rm : RMode) (sat neg : Bool) : Nat :=
  let away := match rm with
    | .rn => true
    | .rz => false
    | .rd => neg
    | .ru => !neg
    | .rs _ => true
  let most := signBit f neg + maxCode f
  if sat || !away then most
  else match f.top with
    | .ieee => infCode f neg
    | .oneNan => canonNan f
    | .plain => most

/-- Round (−1)^neg · (m · 2^e plus a part below 2^e when sticky) once to a format: the code and the flags
(R36, R40, R41; tininess after rounding, R12). m > 0 or sticky. -/
def roundF (f : Fmt) (rm : RMode) (sat neg : Bool) (m : Nat) (e : Int) (sticky : Bool) : Nat × Flags :=
  if m = 0 && !sticky then (signBit f neg, 0)
  else
    let lead : Int := if m = 0 then e - 1 else Nat.log2 m + e
    let qu := lead - f.mb
    let qmin : Int := 1 - (f.bias : Int) - f.mb
    let (su, _) := quantise rm neg m e sticky qu
    let mx := maxFin f
    if gtPow su qu mx.1 mx.2 then (overflowCode f rm sat neg, fOF ||| fNX)
    else
      let q := if qu < qmin then qmin else qu
      let (sig, exact) := quantise rm neg m e sticky q
      let tiny := !gtPow (2 * su) qu (2 ^ (f.mb + 1) - 1) qmin
      (packF f neg sig q, if exact then 0 else if tiny then fUF ||| fNX else fNX)

/-- The result of an operation before it is rounded. -/
inductive Exact where
  | val (v : Val)
  | num (neg : Bool) (m : Nat) (e : Int) (sticky : Bool)
  deriving DecidableEq, Repr

/-- Deliver an exact result in a format (R24, R36, R41, R42). -/
def deliver (f : Fmt) (rm : RMode) (sat : Bool) : Exact → Nat × Flags
  | .val (.nan sig) => (canonNan f, if f.top = .plain || sig then fNV else 0)
  | .val (.inf neg) =>
    match f.top with
    | .ieee => (infCode f neg, 0)
    | .oneNan => (if sat then signBit f neg + maxCode f else canonNan f, fNV)
    | .plain => (signBit f neg + maxCode f, fNV)
  | .val (.zero neg) => (signBit f neg, 0)
  | .val (.fin neg m e) => roundF f rm sat neg m e false
  | .num neg m e sticky => roundF f rm sat neg m e sticky

def Val.isNan : Val → Bool
  | .nan _ => true
  | _ => false

def Val.isSig : Val → Bool
  | .nan s => s
  | _ => false

def Val.neg? : Val → Bool
  | .nan _ => false
  | .inf n => n
  | .zero n => n
  | .fin n _ _ => n

def Val.negate : Val → Val
  | .nan s => .nan s
  | .inf n => .inf (!n)
  | .zero n => .zero (!n)
  | .fin n m e => .fin (!n) m e

/-- NV for a signalling operand (R24). -/
def sigFlags (vs : List Val) : Flags := if vs.any Val.isSig then fNV else 0

/-- A quiet NaN result. -/
def qnan : Exact := .val (.nan false)

def RMode.isRd : RMode → Bool
  | .rd => true
  | _ => false

/-- Signed integer of a finite value in units of 2^u, u not above its exponent. -/
def scaledInt (neg : Bool) (m : Nat) (e u : Int) : Int :=
  let k : Int := (m * 2 ^ (e - u).toNat : Nat)
  if neg then -k else k

/-- An integer times 2^u as an exact result; an exact zero sum of unlike signs follows R120. -/
def ofScaled (rm : RMode) (k u : Int) : Exact :=
  if k = 0 then .val (.zero rm.isRd) else .num (k < 0) k.natAbs u false

/-- The sum (R120). -/
def addE (rm : RMode) (a b : Val) : Exact × Flags :=
  match a, b with
  | .nan s, y => (qnan, if s || y.isSig then fNV else 0)
  | x, .nan s => (qnan, if s || x.isSig then fNV else 0)
  | .inf x, .inf y => if x = y then (.val (.inf x), 0) else (qnan, fNV)
  | .inf x, _ => (.val (.inf x), 0)
  | _, .inf y => (.val (.inf y), 0)
  | .zero x, .zero y => if x = y then (.val (.zero x), 0) else (.val (.zero rm.isRd), 0)
  | .zero _, .fin n m e => (.num n m e false, 0)
  | .fin n m e, .zero _ => (.num n m e false, 0)
  | .fin n m e, .fin n' m' e' =>
    let u := min e e'
    (ofScaled rm (scaledInt n m e u + scaledInt n' m' e' u) u, 0)

/-- The product, as a value (R120). -/
def mulV (a b : Val) : Val × Flags :=
  match a, b with
  | .nan s, y => (.nan false, if s || y.isSig then fNV else 0)
  | x, .nan s => (.nan false, if s || x.isSig then fNV else 0)
  | .inf _, .zero _ => (.nan false, fNV)
  | .zero _, .inf _ => (.nan false, fNV)
  | .inf x, y => (.inf (x != y.neg?), 0)
  | x, .inf y => (.inf (x.neg? != y), 0)
  | .zero x, y => (.zero (x != y.neg?), 0)
  | x, .zero y => (.zero (x.neg? != y), 0)
  | .fin n m e, .fin n' m' e' => (.fin (n != n') (m * m') (e + e'), 0)

/-- A·B + C with one rounding (R120): 0 × Inf raises NV even when C is a quiet NaN. -/
def fmaE (rm : RMode) (a b c : Val) : Exact × Flags :=
  let (p, fl) := mulV a b
  match p with
  | .nan _ => (qnan, fl ||| sigFlags [c])
  | p =>
    let (r, fl') := addE rm p c
    (r, fl ||| fl')

/-- Extra bits of a quotient or root beyond every format. -/
def extraBits : Nat := 128

/-- The quotient (R126, R128). -/
def divE (a b : Val) : Exact × Flags :=
  match a, b with
  | .nan s, y => (qnan, if s || y.isSig then fNV else 0)
  | x, .nan s => (qnan, if s || x.isSig then fNV else 0)
  | .inf _, .inf _ => (qnan, fNV)
  | .zero _, .zero _ => (qnan, fNV)
  | .inf x, y => (.val (.inf (x != y.neg?)), 0)
  | x, .inf y => (.val (.zero (x.neg? != y)), 0)
  | .zero x, y => (.val (.zero (x != y.neg?)), 0)
  | .fin n _ _, .zero y => (.val (.inf (n != y)), fDZ)
  | .fin n m e, .fin n' m' e' =>
    let k := extraBits + Nat.log2 m'
    let t := m * 2 ^ k
    (.num (n != n') (t / m') (e - e' - k) (t % m' != 0), 0)

/-- The integer square root of n below 2^(2·bits), one bit at a time. -/
def isqrt (n : Nat) : Nat → Nat → Nat
  | 0, r => r
  | k + 1, r => isqrt n k (if (r + 2 ^ k) * (r + 2 ^ k) ≤ n then r + 2 ^ k else r)

/-- m · 2^e with e even. -/
def evenExp (m : Nat) (e : Int) : Nat × Int := if e % 2 = 0 then (m, e) else (2 * m, e - 1)

/-- The square root (R126, R128). -/
def sqrtE (a : Val) : Exact × Flags :=
  match a with
  | .nan s => (qnan, if s then fNV else 0)
  | .zero n => (.val (.zero n), 0)
  | .inf true => (qnan, fNV)
  | .inf false => (.val (.inf false), 0)
  | .fin true _ _ => (qnan, fNV)
  | .fin false m e =>
    let (m, e) := evenExp m e
    let n := m * 2 ^ (2 * extraBits)
    let r := isqrt n (extraBits + Nat.log2 m + 1) 0
    (.num false r (e / 2 - extraBits) (r * r != n), 0)

/-- The reciprocal square root (R126, R128). -/
def rsqrtE (a : Val) : Exact × Flags :=
  match a with
  | .nan s => (qnan, if s then fNV else 0)
  | .zero n => (.val (.inf n), fDZ)
  | .inf true => (qnan, fNV)
  | .inf false => (.val (.zero false), 0)
  | .fin true _ _ => (qnan, fNV)
  | .fin false m e =>
    let (m, e) := evenExp m e
    let k := extraBits + Nat.log2 m
    let r := isqrt (2 ^ (2 * k) / m) (k + 1) 0
    (.num false r (-(e / 2) - k) (r * r * m != 2 ^ (2 * k)), 0)

/-- A · 2^b (R125). Beyond ±8192 every exponent over- or underflows alike, in every format and mode. -/
def scaleE (a : Val) (b : Int) : Exact × Flags :=
  match a with
  | .nan s => (qnan, if s then fNV else 0)
  | .fin n m e => (.num n m (e + max (-8192) (min 8192 b)) false, 0)
  | v => (.val v, 0)

/-- The integral value of a rounded value, with whether it is unchanged (R124, R43). -/
def toIntegral (rm : RMode) (neg : Bool) (m : Nat) (e : Int) : Nat × Bool := quantise rm neg m e false 0

/-- FRND (R124): a zero result keeps the sign. -/
def rndE (rm : RMode) (a : Val) : Exact × Flags × Bool :=
  match a with
  | .nan s => (qnan, if s then fNV else 0, true)
  | .fin n m e =>
    let (k, exact) := toIntegral rm n m e
    (if k = 0 then .val (.zero n) else .num n k 0 false, 0, exact)
  | v => (.val v, 0, true)

/-- Ordering of two numbers: −1, 0, 1; none when unordered. -/
def cmpV (a b : Val) : Option Int :=
  match a, b with
  | .nan _, _ => none
  | _, .nan _ => none
  | x, y => some (sgn (diff x y))
where
  diff (x y : Val) : Int :=
    match x, y with
    | .inf n, .inf n' => if n = n' then 0 else if n then -1 else 1
    | .inf n, _ => if n then -1 else 1
    | _, .inf n => if n then 1 else -1
    | .zero _, .zero _ => 0
    | .zero _, .fin n _ _ => if n then 1 else -1
    | .fin n _ _, .zero _ => if n then -1 else 1
    | .fin n m e, .fin n' m' e' => scaledInt n m e (min e e') - scaledInt n' m' e' (min e e')
    | _, _ => 0
  sgn (k : Int) : Int := if k < 0 then -1 else if k > 0 then 1 else 0

/-- minimumNumber and maximumNumber (R121): the operand chosen (false: A), and the flags; none when both are
NaN. −0 is smaller than +0. -/
def minMaxPick (isMax : Bool) (a b : Val) : Option Bool × Flags :=
  let fl := sigFlags [a, b]
  if a.isNan && b.isNan then (none, fl)
  else if a.isNan then (some true, fl)
  else if b.isNan then (some false, fl)
  else
    let less := match cmpV a b with
      | some k => if k = 0 then a.neg? && !b.neg? else k < 0
      | none => false
    (some (less == isMax), fl)

/-- FCLASS (R123): the bit number of the class. -/
def classBit (f : Fmt) (v : Val) : Nat :=
  match v with
  | .inf true => 0
  | .fin true m _ => if m < 2 ^ f.mb then 2 else 1
  | .zero true => 3
  | .zero false => 4
  | .fin false m _ => if m < 2 ^ f.mb then 5 else 6
  | .inf false => 7
  | .nan true => 8
  | .nan false => 9

/-- The exact sum of a set (R224): NaN, infinity, or the sum in units of 2^u with whether every value is −0. DESIGN
CHOICE (log entry 152): a set that holds a NaN as well as both infinities gives NaN without NV. -/
def sumSet (rm : RMode) (vs : List Val) : Exact × Flags :=
  let infP := vs.any fun v => v == .inf false
  let infN := vs.any fun v => v == .inf true
  if vs.any Val.isNan then (qnan, 0)
  else if infP && infN then (qnan, fNV)
  else if infP then (.val (.inf false), 0)
  else if infN then (.val (.inf true), 0)
  else
    let u := lowExp vs
    let k := sumIn u vs
    if k = 0 then
      (if vs.isEmpty then .val (.zero false)
       else if vs.all (fun v => v == .zero true) then .val (.zero true)
       else .val (.zero rm.isRd), 0)
    else (.num (k < 0) k.natAbs u false, 0)
where
  /-- the least exponent among the finite values, at most 0 -/
  lowExp : List Val → Int
    | [] => 0
    | .fin _ _ e :: t => min e (lowExp t)
    | _ :: t => lowExp t
  /-- the sum of the finite values in units of 2^u -/
  sumIn (u : Int) : List Val → Int
    | [] => 0
    | .fin n m e :: t => scaledInt n m e u + sumIn u t
    | _ :: t => sumIn u t

/-! ## Integer types (R26, R81) -/

def tySigned (t : Nat) : Bool := t == 1 || t == 2 || t == 3 || t == 4 || t == 19

/-- The integer a w-bit pattern stands for. -/
def intOf (t v : Nat) : Int := if tySigned t then sext (typeBits t) v else ((v % 2 ^ typeBits t : Nat) : Int)

def tyMin (t : Nat) : Int := if tySigned t then -(2 ^ (typeBits t - 1) : Nat) else 0
def tyMax (t : Nat) : Int := if tySigned t then (2 ^ (typeBits t - 1) : Nat) - 1 else (2 ^ typeBits t : Nat) - 1

/-- fin of R87: wrap, or clamp with SAT. -/
def fin87 (t : Nat) (sat : Bool) (x : Int) : Nat :=
  wrap (typeBits t) (if sat then min (max x (tyMin t)) (tyMax t) else x)

/-- The register image of a narrow integer result: extended to 32 bits, or to the pair (R106). -/
def extendInt (t : Nat) (x : Int) : Nat := wrap (if typeBits t = 64 then 64 else 32) x

/-- A float to an integer (R42, R43): the integer and the flags. -/
def toIntE (t : Nat) (rm : RMode) (a : Val) : Int × Flags :=
  match a with
  | .nan _ => (0, fNV)
  | .inf true => (tyMin t, fNV)
  | .inf false => (tyMax t, fNV)
  | .zero _ => (0, 0)
  | .fin n m e =>
    let (k, exact) := toIntegral rm n m e
    let x : Int := if n then -k else k
    if x < tyMin t then (tyMin t, fNV)
    else if tyMax t < x then (tyMax t, fNV)
    else (x, if exact then 0 else fNX)

/-- An integer as an exact value (R44). -/
def ofIntE (x : Int) : Exact := if x = 0 then .val (.zero false) else .num (x < 0) x.natAbs 0 false

end Sys2Proof.Machine
end

