-- ==== Sys2Proof/Machine/Blocks.lean ====
section
/-! DEFINITION. Packed elements, scales, block formats and the recoding of elements into terms
(R26–R35, R338–R342). -/

namespace Sys2Proof.Machine

/-- Bits of one packed element of a type code (R27). -/
def elemBits (t : Nat) : Nat := typeBits t

/-- Bytes that n packed elements take; 6-bit arrays are padded to whole groups of four (R27). -/
def packedBytes (t n : Nat) : Nat :=
  if elemBits t = 4 then (n + 1) / 2 else if elemBits t = 6 then 3 * ((n + 3) / 4) else n * (elemBits t / 8)

/-- First byte and byte count of the group that holds element i, and the element's bit in it. -/
def elemPlace (t i : Nat) : Nat × Nat × Nat :=
  if elemBits t = 4 then (i / 2, 1, 4 * (i % 2))
  else if elemBits t = 6 then (3 * (i / 4), 3, 6 * (i % 4))
  else (i * (elemBits t / 8), elemBits t / 8, 0)

/-- The GQ4 codebook in units of 1/32 (R33). -/
def gq4Book : List Int := [0, 2, 5, 8, 11, 14, 18, 24, 32, -3, -6, -10, -14, -18, -24, -32]

/-- A value from an integer times 2^e. -/
def valOfInt (k : Int) (e : Int) : Val := if k = 0 then .zero false else .fin (k < 0) k.natAbs e

/-- The element's own value P (R30), or its codebook value for GQ4. -/
def elemVal (t code : Nat) : Val :=
  if t = 18 then valOfInt (gq4Book.getD (code % 16) 0) (-5)
  else if t = 19 || t ≤ 8 then valOfInt (intOf t code) 0
  else unpackF (fmtOf t) code

/-- Scales: none, E8M0, UE4M4, NX shared exponent, GQ4 block code (R336). -/
inductive Scale where
  | nan
  | zero
  | val (m : Nat) (e : Int)
  deriving DecidableEq, Repr

/-- The scale of a code (R28, R29, R348). sfmt as in R336. -/
def scaleOf (sfmt : Nat) (zskip : Bool) (code : Nat) : Scale :=
  match sfmt with
  | 1 => if code = 255 then .nan else if code = 0 && zskip then .zero else .val 1 ((code : Int) - 127)
  | 2 =>
    if code = 255 then .nan else if code = 0 then .zero
    else if code / 16 = 0 then .val (code % 16) (-10) else .val (16 + code % 16) ((code / 16 : Int) - 11)
  | 3 => if code = 255 then .nan else if code = 0 && zskip then .zero else .val 1 ((code : Int) - 127)
  | 4 => if code = 0 then .zero else .val code 0
  | _ => .val 1 0

/-- An element of a block format as an exact value (R30, R31): element type, scale, micro-exponent, MXINT8,
and the GQ4 superscale. DESIGN CHOICE (log entry 127): where the scale is NaN the element's code is not looked at (R31 case
1), so that a signalling NaN element raises no NV there, although R24 has an operation that reads one raise it. -/
def blockElem (t : Nat) (sc : Scale) (micro : Nat) (mxint8 : Bool) (sup : Option Val) (code : Nat) : Exact × Flags :=
  match sup with
  | some s =>
    match sc, s with
    | .zero, .inf _ => (qnan, fNV)
    | .zero, .nan sig => (qnan, if sig then fNV else 0)
    | .zero, _ => (.val (.zero false), 0)
    | .nan, _ => (qnan, 0)
    | .val m e, s =>
      let p := (mulV (elemVal t code) (.fin false m e)).1
      let r := mulV p s
      (.val r.1, r.2)
  | none =>
    let v := elemVal t code
    match sc with
    | .nan => (qnan, 0)
    | .zero =>
      match v with
      | .nan sig => (qnan, if sig then fNV else 0)
      | .inf _ => (qnan, fNV)
      | _ => (.val (.zero false), 0)
    | .val m e =>
      match v with
      | .nan sig => (qnan, if sig then fNV else 0)
      | .fin n k x => (.num n (k * m) (x + e - micro - (if mxint8 then 6 else 0)) false, 0)
      | w => (.val w, 0)

/-- A block format that R30 gives: element type, scale format, block length (0: unscaled). -/
def blockFormatOk (t sfmt len : Nat) : Bool :=
  match sfmt with
  | 0 => len == 0
  | 1 => len == 32 && (t == 13 || t == 14 || t == 15 || t == 16 || t == 17 || t == 1)
  | 2 => (len == 16 || len == 32) && (t == 13 || t == 14 || t == 15 || t == 16 || t == 17 || t == 1 || t == 19)
  | 3 => len == 16 && (t == 17 || t == 15)
  | 4 => len == 64 && t == 18
  | _ => false

/-- Block length of an LBLK code (R336). -/
def lblkOf (c : Nat) : Nat := if c = 1 then 16 else if c = 2 then 32 else if c = 3 then 64 else 0

/-! ## Terms (R34, R35) -/

/-- The non-adjacent form of m, least significant term first: (negative, power). -/
def nafTerms : Nat → Nat → Nat → List (Bool × Nat)
  | 0, _, _ => []
  | n + 1, m, k =>
    if m = 0 then []
    else if m % 4 = 1 then (false, k) :: nafTerms n ((m - 1) / 2) (k + 1)
    else if m % 4 = 3 then (true, k) :: nafTerms n ((m + 1) / 2) (k + 1)
    else nafTerms n (m / 2) (k + 1)

/-- A term of an element: its sign and power. -/
structure Term where
  neg : Bool
  power : Int
  deriving DecidableEq, Repr

/-- What the recoder keeps of an element: its terms, most significant first, at most `cap`; or a mark. -/
inductive Recoded where
  | terms (ts : List Term)
  | inf (neg : Bool)
  | nan (neg : Bool)
  deriving DecidableEq, Repr

/-- Recode an element (R34, R35, R341): powers less its micro-exponent. -/
def recode (t cap micro code : Nat) : Recoded :=
  match elemVal t code with
  | .nan _ => .nan (bitOf code (elemBits t - 1))
  | .inf n => .inf n
  | .zero _ => .terms []
  | .fin n m e =>
    .terms (((nafTerms (Nat.log2 m + 3) m 0).reverse.take cap).map fun p =>
      ⟨p.1 != n, (p.2 : Int) + e - micro⟩)

/-- BASE(j): the smallest power kept in a block, 0 when none (R341). -/
def basePower (rs : List Recoded) : Int :=
  let ps := rs.flatMap fun r => match r with | .terms ts => ts.map Term.power | _ => []
  match ps with
  | [] => 0
  | p :: q => q.foldl min p

/-- The kept powers span more than 63 (R342). -/
def overrange (rs : List Recoded) : Bool :=
  rs.any fun r => match r with
    | .terms ts => ts.any fun t => decide (t.power - basePower rs > 63)
    | _ => false

/-- The plane entries of an element against its block's base (R340). -/
def planeEntries (cap : Nat) (base : Int) (r : Recoded) : List Byte :=
  (List.range cap).map fun p =>
    match r with
    | .inf n => if p = 0 then BitVec.ofNat 8 (0x3e + 64 * b2n n) else 0
    | .nan n => if p = 0 then BitVec.ofNat 8 (0x3f + 64 * b2n n) else 0
    | .terms ts =>
      match ts[p]? with
      | some t => BitVec.ofNat 8 (128 + 64 * b2n t.neg + (t.power - base).toNat % 64)
      | none => 0

/-- 16-bit image of a base power. -/
def base16 (b : Int) : List Byte := natToBytes 2 (wrap 16 b)

end Sys2Proof.Machine
end

