-- ==== Sys2Proof/Machine/Acc80.lean ====
section
/-! DEFINITION. The ACC80 accumulator (R46–R49), the epilogue's scaled value (R352), and the choices of the block
quantisers (R45, R392, R393). -/

namespace Sys2Proof.Machine

/-! ## ACC80 (R46–R48) -/

/-- An accumulator element. -/
inductive Acc80 where
  | nan
  | inf (neg : Bool)
  | fin (sticky : Bool) (e : Nat) (f : Int)
  deriving DecidableEq, Repr

/-- An element from its 80 bits. -/
def accOfBits (v : Nat) : Acc80 :=
  match fld v 79 78 with
  | 0 => .fin (bitOf v 77) (fld v 76 69) (sext 69 (fld v 68 0))
  | 1 => .inf false
  | 2 => .inf true
  | _ => .nan

/-- The 80 bits of an element. -/
def Acc80.bits : Acc80 → Nat
  | .fin st e f => b2n st * 2 ^ 77 + e % 256 * 2 ^ 69 + wrap 69 f
  | .inf n => (if n then 2 else 1) * 2 ^ 78
  | .nan => 3 * 2 ^ 78

/-- The all-zero encoding: unplaced when an operation begins (R47). -/
def Acc80.unplaced (a : Acc80) : Bool := a == .fin false 0 0

/-- The window moves up while F does not fit (R48). -/
def accFit : Nat → Bool → Nat → Int → Acc80
  | 0, st, e, f => .fin st e f
  | n + 1, st, e, f =>
    if f < 2 ^ 68 && -(2 ^ 68 : Int) ≤ f then .fin st e f
    else
      let t := Int.tdiv f 256
      let st := st || t * 256 != f
      if 255 < e + 8 then .inf (f < 0) else accFit n st (e + 8) t

/-- acc_add for a finite contribution k · 2^p to a placed finite element (R48). -/
def accAdd (st : Bool) (e : Nat) (f k p : Int) : Acc80 :=
  let sh : Int := p - ((e : Int) - 160)
  let q := if 0 ≤ sh then k * 2 ^ sh.toNat else Int.tdiv k (2 ^ (-sh).toNat)
  let lost := decide (sh < 0) && q * 2 ^ (-sh).toNat != k
  accFit 64 (st || lost) e (f + q)

/-- A contribution of the block-scale stage: k · 2^p, an infinity, or NaN. -/
inductive Contrib where
  | nan
  | inf (neg : Bool)
  | fin (k p : Int)
  deriving DecidableEq, Repr

/-- An element with the mark that its window has been placed. -/
structure Cell80 where
  acc : Acc80
  placed : Bool
  deriving DecidableEq, Repr

/-- Apply one contribution (R47, R48, R349). -/
def Cell80.add (c : Cell80) (x : Contrib) : Cell80 :=
  match c.acc, x with
  | .nan, _ => c
  | _, .nan => { c with acc := .nan }
  | .inf a, .inf b => if a = b then c else { c with acc := .nan }
  | .inf _, .fin _ _ => c
  | .fin _ _ _, .inf b => { c with acc := .inf b }
  | .fin st e f, .fin k p =>
    if k = 0 then c
    else if c.placed then { c with acc := accAdd st e f k p }
    else
      let l : Int := Nat.log2 k.natAbs + p
      if 255 < l + 100 then ⟨.inf (k < 0), true⟩ else ⟨accAdd st (l + 100).toNat f k p, true⟩

/-- The exact value of an element and its sticky bit (R49). -/
def Acc80.val : Acc80 → Val × Bool
  | .nan => (.nan false, false)
  | .inf n => (.inf n, false)
  | .fin st e f => (if f = 0 then .zero false else .fin (f < 0) f.natAbs ((e : Int) - 160), st)

/-- A value with the sticky displacement of R49, and the NX that a sticky bit always raises. -/
def displaced (v : Val) (st : Bool) : Exact × Flags :=
  (match v with
   | .fin n m e => .num n m e st
   | v => .val v, if st then fNX else 0)

/-- An element converted alone (R49, R394). -/
def Acc80.exact (a : Acc80) : Exact × Flags := displaced a.val.1 a.val.2

/-- v · sr · sc, exact (R352). -/
def Acc80.scaled (a : Acc80) (sr sc : Val) : Exact × Flags :=
  let p := mulV a.val.1 sr
  let q := mulV p.1 sc
  let d := displaced q.1 a.val.2
  (d.1, p.2 ||| q.2 ||| d.2)

/-! ## Block quantisers (R45, R392) -/

/-- The magnitude of a finite non-zero exact result: m · 2^e. -/
def Exact.mag : Exact → Option (Nat × Int)
  | .num _ m e _ => if m = 0 then none else some (m, e)
  | .val (.fin _ m e) => some (m, e)
  | _ => none

/-- Infinite or NaN. -/
def Exact.special : Exact → Bool
  | .val (.inf _) => true
  | .val (.nan _) => true
  | _ => false

def Exact.neg? : Exact → Bool
  | .num n _ _ _ => n
  | .val v => v.neg?

/-- The larger of two magnitudes. -/
def magMax (a b : Option (Nat × Int)) : Option (Nat × Int) :=
  match a, b with
  | none, y => y
  | x, none => x
  | some x, some y => if gtPow y.1 y.2 x.1 x.2 then some y else some x

def amaxOf (xs : List Exact) : Option (Nat × Int) := xs.foldl (fun m x => magMax m x.mag) none

/-- Exponent of the largest finite value of an element format; MXINT8 counts 0 (R392). -/
def emaxOf (t : Nat) : Int :=
  if t = 13 then 8 else if t = 14 then 15 else if t = 15 then 4 else if t = 16 || t = 17 then 2 else 0

/-- That largest value as m · 2^e. -/
def bigOf (t : Nat) : Nat × Int :=
  if t = 1 then (127, 0) else if t = 19 then (7, 0) else maxFin (fmtOf t)

/-- E8M0 code for a largest magnitude (R392). -/
def e8m0For (t : Nat) (a : Nat × Int) : Nat :=
  let k : Int := Nat.log2 a.1 + a.2 - emaxOf t + 127
  (min 254 (max 0 k)).toNat

/-- UE4M4 code: the smallest value not below amax / Emax (R392). -/
def ue4m4For (t : Nat) (a : Nat × Int) : Nat :=
  let b := bigOf t
  ((List.range 255).find? fun c => match scaleOf 2 false c with
    | .val m e => !gtPow a.1 a.2 (m * b.1) (e + b.2)
    | _ => false).getD 254

/-- The micro-exponent of an NX pair (R392): 1 when 2 · max · 2^(127 − X) ≤ Emax, as for a pair of zeros. -/
def microFor (t x : Nat) (a : Option (Nat × Int)) : Nat :=
  match a with
  | none => 1
  | some a => let b := bigOf t; b2n (!gtPow a.1 (a.2 + 1 + 127 - x) b.1 b.2)

/-- A finite exact result divided by a scale m · 2^e. -/
def Exact.over (x : Exact) (m : Nat) (e : Int) : Exact :=
  match x with
  | .num n k p st =>
    if m = 1 then .num n k (p - e) st
    else match (divE (.fin n k p) (.fin false m e)).1 with
      | .num n k p st' => .num n k p (st || st')
      | y => y
  | .val v => (divE v (.fin false m e)).1

/-- An integer element: rounded by the mode, saturated at the largest magnitude (R45, R393). -/
def quantInt (t : Nat) (rm : RMode) (x : Exact) : Nat × Flags :=
  let w := typeBits t
  match x with
  | .num n m e st =>
    let q := quantise rm n m e st 0
    let lim := (bigOf t).1
    if lim < q.1 then (wrap w (if n then -(lim : Int) else lim), fOF ||| fNX)
    else (wrap w (if n then -(q.1 : Int) else q.1), if q.2 then 0 else fNX)
  | .val (.fin n m e) =>
    let q := quantise rm n m e false 0
    let lim := (bigOf t).1
    if lim < q.1 then (wrap w (if n then -(lim : Int) else lim), fOF ||| fNX)
    else (wrap w (if n then -(q.1 : Int) else q.1), if q.2 then 0 else fNX)
  | _ => (0, 0)

/-- One element of a quantised block: rounded once and saturated (R45). -/
def quantElem (t : Nat) (rm : RMode) (x : Exact) : Nat × Flags :=
  if t = 1 || t = 19 then quantInt t rm x else deliver (fmtOf t) rm true x

/-- What a block becomes: scale code, micro-exponent byte, element codes, flags. -/
structure QBlock where
  scale : Nat
  micro : Nat
  codes : List Nat
  flags : Flags
  deriving DecidableEq, Repr

/-- Quantise one block of an E8M0, UE4M4 or NX format; `rms` gives each element's rounding mode. DESIGN CHOICE
(log entry 146): R45 gives a block that holds NaN or infinity scale 0xFF and elements 0; the micro-exponent byte of an NX one is
written 0. -/
def quantBlock (t sfmt : Nat) (rms : List RMode) (xs : List Exact) : QBlock :=
  let zeros := xs.map fun _ => 0
  if xs.any Exact.special then ⟨255, 0, zeros, fNV⟩
  else match amaxOf xs with
    | none => ⟨0, 0, zeros, 0⟩
    | some a =>
      let code := if sfmt = 2 then ue4m4For t a else e8m0For t a
      let micros := if sfmt = 3 then
          (List.range (xs.length / 2)).map fun j => microFor t code (amaxOf ((xs.drop (2 * j)).take 2))
        else []
      let scale := match scaleOf sfmt false code with
        | .val m e => (m, e - (if t = 1 && sfmt = 1 then 6 else 0))
        | _ => (1, 0)
      let els := (xs.zip rms).zipIdx.map fun q =>
        quantElem t q.1.2 (q.1.1.over scale.1 (scale.2 - micros.getD (q.2 / 2) 0))
      ⟨code, (micros.zipIdx.map fun q => q.1 * 2 ^ q.2).foldl (· + ·) 0, els.map fun q => q.1,
       els.foldl (fun f q => f ||| q.2) 0⟩

/-- m1 · 2^e1 less than, equal to or greater than m2 · 2^e2. -/
def cmpPow (m1 : Nat) (e1 : Int) (m2 : Nat) (e2 : Int) : Ordering :=
  if gtPow m1 e1 m2 e2 then .gt else if gtPow m2 e2 m1 e1 then .lt else .eq

/-- The superscale of a GQ4 group: its largest finite magnitude over 255, rounded up to binary32 (R392). -/
def superFor (blocks : List (List Exact)) : Nat :=
  match (blocks.filter fun b => !b.any Exact.special).foldl (fun m b => magMax m (amaxOf b)) none with
  | none => 0
  | some a => (deliver (fmtOf 10) .ru false (divE (.fin false a.1 a.2) (.fin false 255 0)).1).1

/-- The block code: the largest magnitude over the superscale, rounded up, in 1 to 255. -/
def gq4Code (sup : Nat) (a : Nat × Int) : Nat :=
  match unpackF (fmtOf 10) sup with
  | .fin _ m e =>
    ((List.range 256).find? fun c => c != 0 && !gtPow a.1 a.2 (c * m) e).getD 255
  | _ => 255

/-- The codebook entry nearest to x over c · S; on a tie the one of smaller magnitude. -/
def gq4Nearest (neg : Bool) (m : Nat) (e : Int) (c ms : Nat) (es : Int) : Nat × Bool :=
  -- entries are k/32 · c · ms · 2^es; compare with x in units of 2^u
  let u := min e (es - 5)
  let x : Int := (m * 2 ^ (e - u).toNat : Nat)
  let x := if neg then -x else x
  let entry := fun (k : Int) => k * ((c * ms * 2 ^ (es - 5 - u).toNat : Nat) : Int)
  let best := gq4Book.zipIdx.foldl (fun (b : Option (Nat × Int)) q =>
    match b with
    | none => some (q.2, q.1)
    | some r =>
      let dn := (x - entry q.1).natAbs
      let db := (x - entry r.2).natAbs
      if dn < db || dn == db && q.1.natAbs < r.2.natAbs then some (q.2, q.1) else b) none
  match best with
  | some r => (r.1, entry r.2 == x)
  | none => (0, true)

/-- Quantise one GQ4 block with its group's superscale. -/
def gq4Block (sup : Nat) (xs : List Exact) : QBlock :=
  let zeros := xs.map fun _ => 0
  if xs.any Exact.special then ⟨0, 0, zeros, fNV⟩
  else match amaxOf xs, unpackF (fmtOf 10) sup with
    | some a, .fin _ ms es =>
      let c := gq4Code sup a
      let els := xs.map fun x => match x.mag with
        | none => (0, true)
        | some q => gq4Nearest x.neg? q.1 q.2 c ms es
      ⟨c, 0, els.map fun q => q.1, if els.all fun q => q.2 then 0 else fNX⟩
    | _, _ => ⟨0, 0, zeros, 0⟩

/-- Pack n-bit element codes (R27). -/
def packCodes (t : Nat) (codes : List Nat) : List Byte :=
  let w := elemBits t
  natToBytes (packedBytes t codes.length) (codes.zipIdx.foldl (fun a q => a + q.1 % 2 ^ w * 2 ^ (w * q.2)) 0)

/-- The generator state of element n of an engine operation, ready for its use (R39). -/
def elemRs (seed : W32) (n : Nat) : W32 := rsNext (seed ^^^ BitVec.ofNat 32 (n * 0x85ebca6b))

/-- The rounding mode of element n. -/
def elemRm (rm : Nat) (seed : W32) (n : Nat) : RMode := if rm = 4 then .rs (elemRs seed n) else rmOf rm

end Sys2Proof.Machine
end

