-- ==== Sys2Proof/Config.lean ====
section
/-! DEFINITION. What one implementation fixes, and the free values the spec leaves open (R3). Every
free value is an opaque constant without a body: no proof can see what it is, so a claim about the
model holds whatever the part delivers there. -/

namespace Sys2Proof.Config

/-- The free value of an unpredictable result (R3, R16, R55, R56, R289, R362): the bits delivered the
`n`-th time the machine needs open values, at place `k` of that step (log entry 2). -/
opaque freeBits : Nat → Nat → BitVec 128

/-- The free choice among the moves the spec leaves unordered (R198, R238, R406, R499): a number taken
modulo the count of enabled moves at step `n` (log entry 3). -/
opaque choice : Nat → Nat

/-- The clks that pass before step `n` beyond the stated ones (timing is not fixed; log entry 4). -/
opaque elapsed : Nat → Nat

/-- The ns by which DEVTIME advances at step `n`: its rate is trimmed (R480; log entry 4). -/
opaque elapsedNs : Nat → Nat

/-- The steps for which a move can stay open before it is made, and after which a clk passes (R183; log entry 124). -/
opaque patience : Nat

/-- The hash by which a die counts the monitors of a line that have spilled (R310; log entry 115). -/
opaque monHash : Nat → Nat

/-- SHAKE256 (R476, R492): the hash of a byte string, cut to the wanted number of bits. The spec names
the function and does not define it (log entry 5). -/
opaque shake256 : List Byte → BitVec 512

/-- Whether the ROM's check with the vendor key accepts a signature over a byte string (R491). The spec names FN-DSA-1024 and does
not define it (log entry 5). -/
opaque vendorAccepts : List Byte → List Byte → Bool

/-- The FN-DSA-1024 signature the ROM's signing call makes over a report (R492; log entry 5). -/
opaque signReport : List Byte → List Byte

/-- The identity public key, 1,793 bytes in the report (R492; log entry 5). -/
opaque identityKey : List Byte

end Sys2Proof.Config
end

