-- ==== Sys2Proof/Machine/State.lean ====
section
/-! DEFINITION. The state of one TRF-DL4 module as plain data, the reasons a step can stop, and the state
after reset. Cores are numbered die * 64 + physical core number. Every list that holds one entry per core,
die, stack, queue or stream is indexed by that number; a table is a list of (key, value) pairs in the
canonical form of Tables.lean. -/

namespace Sys2Proof.Machine

/-! ## Threads, slices, gangs (R8, R149–R155) -/

/-- A fibre of a thread (R369). `pos` 0xFFFF_FFFF is before-first. -/
structure Fibre where
  opened : Bool
  crd : W64
  val : W64
  len : W32
  pos : W32
  cur : W32
  wide : Bool
  deriving DecidableEq, Repr

def Fibre.closed : Fibre := ⟨false, 0, 0, 0, 0, 0, false⟩

/-- What a thread's MXFENCEs cover (R289, R385): the step of the last one, the copies whose completion it had observed by then,
and those it has observed since the start, by operation. -/
structure FenceMark where
  stamp : Option Nat
  fenced : List Nat
  seen : List Nat
  deriving DecidableEq, Repr

def FenceMark.none : FenceMark := ⟨Option.none, [], []⟩

/-- What one thread holds beside its v registers (R8): p0–p6, FPSTAT (R12), RSTATE, e0–e3 with the binding
and item marks of R187 to R191, its fibres, and what its MXFENCEs cover (R289). -/
structure Lane where
  preds : BitVec 7
  fpstat : BitVec 5
  rstate : W32
  e0 : W32
  e1 : W32
  e2 : W32
  e3 : W32
  xbound : Bool
  xitem : Bool
  xgave : Bool
  fibres : List Fibre
  fence : FenceMark
  deriving DecidableEq, Repr

def Lane.start : Lane :=
  ⟨0, 0, 0, 0, 0, 0, 0, false, false, false, List.replicate 8 Fibre.closed, FenceMark.none⟩

/-- Kinds of token-stack entry (R153). -/
inductive TokenKind where
  | join | brk | deferred
  deriving DecidableEq, Repr

structure Token where
  kind : TokenKind
  mask : BitVec 4
  parked : BitVec 4
  target : Nat
  deriving DecidableEq, Repr

/-- Event kinds of a record (R165). -/
inductive EventKind where
  | run | bar | mon | fut | fe | ring | extq | taskq | walk | trap | pre | fwd
  deriving DecidableEq, Repr

/-- Trap causes (R410). -/
inductive Cause where
  | ill | priv | budget | role | align | xnp | xperm | pcOvf | endRun | hazard | resv | expovf | qproto
  | memerr | engerr | bpt | swtrap
  deriving DecidableEq, Repr

/-- One task of the die task queue (R181, R231): its entry as looked up, code address and budget. -/
structure Task where
  ord : Nat
  ctx : Nat
  entry : Nat
  vbud : Nat
  lid : Nat
  prio : Nat
  args : List W64
  rstate : W32
  since : Nat
  deriving DecidableEq, Repr

/-- A completion-stage failure not yet taken (R21): the failing word, the counted words of its clause, its
length, and the lanes that failed with their addresses. -/
structure MemErr where
  pc : Nat
  cwords : Nat
  ilen : Nat
  lanes : List (Nat × Nat)
  deriving DecidableEq, Repr

/-- Where an instruction stands: its word's address, the counted words of its clause, its length. -/
structure At where
  pc : Nat
  cwords : Nat
  ilen : Nat
  deriving DecidableEq, Repr

/-- What a slice that is ending its segment will write (R162, R163): `dest` and `dregs` name the destination of
a waiting instruction, `fwd` the core or node of FWD, `tasks` the tasks of a waiting SPAWN. `full` says that
no pool tier had room and firmware has been told (R260). `mates` are the records of the slices that one instruction
ended (R246). -/
structure EndInfo where
  rid : Nat
  kind : EventKind
  subject : Nat
  hdr : Nat
  word : Nat
  forced : Bool
  livev : Nat
  liveg : Bool
  livee : Bool
  vbud : Nat
  waits : BitVec 4
  dest : Nat
  dregs : Nat
  waitAt : At
  fwd : Option W32
  tasks : List Task
  full : Bool
  mates : List Nat
  deriving DecidableEq, Repr

/-- What a trapping slice will write (R411, R412): under the number `rid`; `dest`, `dregs`, `waitPc` and `tasks`
belong to an instruction whose segment end the trap overtakes (R21). -/
structure TrapInfo where
  rid : Nat
  dest : Nat
  dregs : Nat
  waitAt : At
  tasks : List Task
  cause : Cause
  late : Bool
  pc : Nat
  hdr : Nat
  word : Nat
  cwords : Nat
  ilen : Nat
  tlanes : BitVec 4
  aux : Nat
  faddr : List Nat
  full : Bool
  deriving DecidableEq, Repr

/-- A resident slice runs in a sub-gang, is parked at REGANG (R158), or drains its flags before a segment
end (R162) or a trap delivery (R411), or has ended with results outstanding (R20). -/
inductive SliceSt where
  | run (sub : Nat)
  | parked (target : Nat) (header : W64)
  | ending (e : EndInfo)
  | trapping (t : TrapInfo)
  | dead
  deriving DecidableEq, Repr

/-- A destination of a variable-latency instruction that reads as anything: until its flag clears, or, with no flag, until
the slice ends its segment. `spoilt` says that another instruction has written it meanwhile (R16, R55, R56). -/
structure Vague where
  flag : Option Nat
  lane : Nat
  code : Nat
  len : Nat
  spoilt : Bool
  deriving DecidableEq, Repr

/-- A resident slice (R149). `vague` holds the destinations that are not settled yet; `flags` are the counts of f0–f11 (R54); `bind` the slots of m0–m3 (R350);
`lids` the launch that each thread counts toward (0: none), `number` and `index` its IDENT (R165);
`stuck` marks a slice that has lost its clean state for flush (R429); `merr` holds the completion-stage
failures not yet taken, the first one first (R21). `retry` names the lanes whose walk failed: cause + 64 · page (R271, R436); `walked` the record it resumed from, whose walks are
retained until it has executed an instruction (R272); `bypass` that walks bypass the walk cache (R437). -/
structure Slice where
  pos : Nat
  pc : Nat
  active : BitVec 4
  live : BitVec 4
  tokens : List Token
  flags : List Nat
  bind : List (Option Nat)
  prio : Nat
  lids : List Nat
  number : Nat
  index : Nat
  restart : Option Nat
  stuck : Bool
  xsave : Option Nat
  lanes : List Lane
  merr : List MemErr
  retry : List (Nat × Nat)
  walked : Option Nat
  bypass : Bool
  st : SliceSt
  vague : List Vague := []
  deriving DecidableEq, Repr

/-- A clause being executed (R14): its header's address and word, the counted words as fetched, and the
index of the next one; `shadow` holds the gang's register-file words as they stood before the clause, which
is what a window access sees (R251). `yields` says that it has executed a YIELD (R140). -/
structure Run where
  hdr : Nat
  header : W64
  words : List W64
  ix : Nat
  shadow : List (Nat × W32)
  yields : Bool
  deriving DecidableEq, Repr

/-- A sub-gang (R150); `run` is the clause it executes, none between clauses; `word` the word at which it
resumes inside its next clause (R60), 0 for the start; `waited` the clk it has been ready and not issued, `riseAt`
how long that was when its priority last rose (R212); `place` the slice position that it takes in the round-robin order, its lowest
one but for a sub-gang created by parting, which takes its parent's (R211). -/
structure Sub where
  id : Nat
  word : Nat
  run : Option Run
  waited : Nat
  riseAt : Nat
  place : Option Nat
  deriving DecidableEq, Repr

/-- A resident gang (R150): its slot, its register-file base in 128-byte units (R251), its budgets, its g
and h registers (R8, R355), its issue slot (R210), its slices and sub-gangs. `departed` says that a slice
has left the sibling set by ending its segment (R158); `handler` is the physical address of the record a
handler slice holds (R413); `group` the group it belongs to. -/
structure Gang where
  core : Nat
  slot : Nat
  base : Nat
  vbud : Nat
  gbud : Nat
  ctx : Nat
  role : Role
  group : Option Nat
  handler : Option Nat
  fw : Bool
  g : List W32
  h : List W32
  islot : Nat
  departed : Bool
  slices : List Slice
  subs : List Sub
  deriving DecidableEq, Repr

/-- One destination of a variable-latency result: slice position, lane, operand code, words. -/
structure VlWrite where
  pos : Nat
  lane : Nat
  code : Nat
  vals : List W32
  deriving DecidableEq, Repr

/-- What one lane's access does (R108–R110, R324, R325): load into a destination, store bytes, or read,
modify and write with operands B and C. -/
inductive AccKind where
  | load (type code : Nat)
  | store (data : List Byte)
  | rmw (op type rm : Nat) (b c : Nat) (code : Nat)
  deriving DecidableEq, Repr

/-- A thread whose store a write carries, by gang slot, position and lane, and where its instruction stands. -/
structure Src where
  slot : Nat
  pos : Nat
  lane : Nat
  at_ : At
  deriving DecidableEq, Repr

/-- One lane's access, translated: its physical address, its bytes, its effective address, the memory type
of its page, the request that carries it when it is made at another module's home, whether its scope lets the
module take the line's ownership (R307), the cache hint (R112), and the bytes that its core's combining buffers held for it
when it was issued (R263). -/
structure Acc where
  pos : Nat
  lane : Nat
  va : Nat
  pa : Nat
  bytes : Nat
  memType : Nat
  kind : AccKind
  sent : Option Nat
  near : Bool
  hint : Nat := 0
  merged : List (Nat × Byte) := []
  deriving DecidableEq, Repr

/-- A variable-latency instruction whose result is not yet written, or whose accesses wait for lines of
another module (R16, R54, R55, R444): the slices it covers, the flag it counts on (none: untracked), its
destinations, the accesses still to make, the FPSTAT flags it raises, fibre changes, the lanes whose access
failed (R21) with their addresses, and the address of the word. `hold` keeps the slices' next accesses back
until every remote write of the core is acknowledged and the earlier accesses of the slices are made (R328, R443), `strict`
their next instruction too (R112, R330); `fenced` names the threads of a full FENCE (R282). -/
structure Pend where
  id : Nat
  core : Nat
  slot : Nat
  poss : List Nat
  flag : Option Nat
  writes : List VlWrite
  accs : List Acc
  fp : List (Nat × Nat × BitVec 5)
  fibres : List (Nat × Nat × Nat × Fibre)
  failed : List (Nat × Nat × Nat)
  at_ : At
  hold : Bool
  strict : Bool
  fenced : List (Nat × Nat × Nat × Nat) := []
  wcOut : List (Nat × Nat) := []
  deriving DecidableEq, Repr

/-! ## Records, bins and events (R162–R171) -/

/-- Where a record stands: waiting on events; runnable in a bin; on the unbinned list (R170); held by a trap
(R411); held by pre-emption (R428); on its way to another core or node (R230); staying at its core while a
REC message is unanswered (R452). -/
inductive RecSt where
  | waiting | binned (bin : Nat) | unbinned | held | travelling (dest : Nat) | sent (node : Nat)
  deriving DecidableEq, Repr

/-- What the part keeps beside a record (R163, R168, R169, R414): its place and size in the pool, its core,
its role and group, the launches its threads count toward, the destination of its waiting instruction, the
copy of its protected bytes while it is held, its fibre block (address and bytes), what each lane holds of its
expansion (bound, holding an item, item given), its time (R302), and its ages. `rid` identifies the record for the units that own its events. The slice of tasks or of a handler that
has not run yet has no bytes in the pool: `body` holds its record (R182, R413). While pre-emption holds the record, `since` is
the clk for which it had waited. `mates` are the records with which it becomes runnable (R246), `images` the pool addresses of the
spilled slots that its handles bind (R351), `raised` the clk of its last rise and `raisedN` the rises in that clk, `readyAt` the clk in which it
became runnable here (R209), `riseAt` the waiting time at which its priority last rose (R212), `fibCopy` the copy of its fibre block while it is
held (R414). -/
structure RecMeta where
  rid : Nat
  pa : Nat
  size : Nat
  core : Nat
  ctx : Nat
  role : Role
  group : Option Nat
  lids : List Nat
  handler : Option Nat
  fw : Bool
  st : RecSt
  pre : Bool
  pts : Nat
  since : Nat
  ord : Nat
  riseAt : Nat
  dest : Nat
  dregs : Nat
  merr : List MemErr
  waitAt : At
  marks : List (Nat × Nat)
  bypass : Bool
  fibre : Option (Nat × Nat)
  exp : List (Bool × Bool × Bool)
  fences : List FenceMark
  stuck : Bool
  copy : List Byte
  tampered : Bool
  trap : Option TrapInfo
  nested : Option Nat
  tasks : List Task
  body : Option (List Byte)
  mates : List Nat := []
  images : List Nat := List.replicate 4 0
  raised : Nat := 0
  raisedN : Nat := 0
  readyAt : Nat := 0
  fibCopy : List Byte := []
  deriving DecidableEq, Repr

/-- What a lane waits on (R160, R163); `stored`: the acknowledgement of a handle's store at another home (R110). -/
inductive WaitKind where
  | bar (core b phase : Nat)
  | mon
  | fut (handle : Nat)
  | futStatus (handle : Nat)
  | futStore (handle : Nat) (pa va memType : Nat)
  | futPort (handle core port popped off : Nat)
  | stored
  | fe (pa : Nat) (clr : Bool) (ty count : Nat)
  | ring (core ring : Nat) (consumer : Bool)
  | extq (core port : Nat)
  | taskq (die : Nat)
  | walk (die ctx vpn : Nat)
  deriving DecidableEq, Repr

/-- One awaited event; `fired` holds the words it delivers once it has come about, `seen` the copies whose completion the thread
thereby observes (R288). -/
structure Wait where
  rid : Nat
  lane : Nat
  kind : WaitKind
  ord : Nat
  fired : Option (List W32)
  failed : Bool
  seen : List Nat := []
  deriving DecidableEq, Repr

/-- Who a monitor (R310, R311) tells: a waiting lane, a launch's dependence (R203), a queue's wake word
(R465), or another module's requester. -/
inductive MonFor where
  | lane (rid lane : Nat)
  | dep (lid dep : Nat)
  | wake (queue : Nat)
  | remote (m : Msg)
  deriving DecidableEq, Repr

/-- A monitor at the home of a word: condition and type codes as WAITC has them (R327). `spilled` says that it was
registered while the home slice's 2,048 entries were taken, and stands in the die's spill table (R310); `ctx` is the context
in whose name it reads, 65537 for another module's, which owns no pool space (R261). -/
structure Monitor where
  pa : Nat
  wide : Bool
  signed : Bool
  cond : Nat
  cmp : Nat
  who : MonFor
  ord : Nat
  hit : Option Nat
  spilled : Bool := false
  ctx : Nat := 65537
  deriving DecidableEq, Repr

/-! ## The expand unit (R185–R195) -/

/-- One owner of an expansion (R195). `cls`: 0 finite, 1 +Inf, 2 −Inf, 3 NaN. -/
structure Owner where
  start : Nat
  len : Nat
  pre : Nat
  done : Nat
  zsign : Bool
  cls : Nat
  acc : Int
  deriving DecidableEq, Repr

/-- The shared state of an expansion (R194, R195), identified by its save area. -/
structure Expansion where
  save : Nat
  n : Nat
  w : Nat
  type : Nat
  op : Nat
  gidx : Nat
  core : Nat
  group : Bool
  rb : Nat
  total : Nat
  cursor : Nat
  bound : Nat
  owners : List Owner
  deriving DecidableEq, Repr

/-! ## Group resources (R176, R336, R364, R371, R373, R375) -/

structure Barrier where
  expect : Nat
  count : Nat
  phase : Nat
  deriving DecidableEq, Repr

/-- A stage ring (R373); `rel` names the operations whose completion released a stage still full (R357). -/
structure Ring where
  valid : Bool
  base : Nat
  ssz : Nat
  ns : Nat
  full : List Bool
  held : List Bool
  pcur : Nat
  ccur : Nat
  rel : List (Nat × Nat)
  deriving DecidableEq, Repr

def Ring.none : Ring := ⟨false, 0, 0, 0, [], [], 0, 0, []⟩

/-- One entry of an access queue (R364): the handle of the FETCH that fills it, and its words once filled. -/
structure QEntry where
  handle : Nat
  words : Option (List W32)
  deriving DecidableEq, Repr

/-- An external queue port (R375): its binding, the entries of a fabric receive port, those sent by a fabric
send port, and the head and count of a local FIFO with its entries' participant masks (R332). -/
structure Port where
  kind : Nat
  queue : Nat
  entries : List (List W32)
  sent : List (List W32)
  head : Nat
  count : Nat
  masks : List W32
  popped : Nat := 0
  deriving DecidableEq, Repr

def Port.unbound : Port := ⟨0, 0, [], [], 0, 0, [], 0⟩

/-- A reservation record (R336); `releasing` marks a pending MXREL (R354). -/
structure Resv where
  valid : Bool
  wside : Bool
  zskip : Bool
  cap : Nat
  fmt : Nat
  sfmt : Nat
  lblk : Nat
  len : Nat
  base : Nat
  soff : Nat
  ovr : Bool
  releasing : Bool
  stamp : Nat
  deriving DecidableEq, Repr

def Resv.none : Resv := ⟨false, false, false, 0, 0, 0, 0, 0, 0, 0, false, false, 0⟩

/-- The compaction queue (R371, R372): the latched descriptor, the ring slot, the tokens of the current tile
with the operation that appended each. -/
structure Compact where
  desc : Option (Nat × List W64)
  slot : Nat
  tile : List (Nat × Nat)
  deriving DecidableEq, Repr

/-- The state of one core beside its gangs and register file. `group` is the placed group (R206); `gexp` the
save areas of its open group-scope expansions by group index (R185); `rr` the
sub-gang (gang slot, place in it) that last won at (issue slot, priority) (R211); `slots` the
accumulator slots' allocation (R350); `pts` the logical clock (R299); `wpts` the time of the last access to the core's
windows, which are elements of S too (R274); the term counters of R353; `snap` the
latched snapshot image (R435); `idle` the clk since which the core holds no work (R496). -/
structure CoreSt where
  group : Option Nat
  reserved : Option Nat
  wpts : Nat
  barriers : List Barrier
  rings : List Ring
  queues : List (List QEntry)
  ports : List Port
  expand : List (Option Expansion)
  gexp : List (Option Nat)
  resvs : List Resv
  slots : List Bool
  compact : Compact
  bins : List (List Nat)
  unbinned : List Nat
  rr : List (Nat × (Nat × Nat))
  busy : List Nat
  instret : Nat
  terms : Nat
  tlclk : Nat
  syncidle : Nat
  skippack : Nat
  skipblk : Nat
  pts : Nat
  snap : List Byte
  maint : Bool
  gated : Bool
  idle : Nat
  deriving DecidableEq, Repr

def CoreSt.reset : CoreSt where
  group := none
  reserved := none
  wpts := 0
  barriers := List.replicate 32 ⟨0, 0, 0⟩
  rings := List.replicate 8 Ring.none
  queues := List.replicate 8 []
  ports := List.replicate 8 Port.unbound
  expand := List.replicate 4 none
  gexp := List.replicate 4 none
  resvs := List.replicate 16 Resv.none
  slots := List.replicate 4 false
  compact := ⟨none, 0, []⟩
  bins := List.replicate 64 []
  unbinned := []
  rr := []
  busy := List.replicate 4 0
  instret := 0
  terms := 0
  tlclk := 0
  syncidle := 0
  skippack := 0
  skipblk := 0
  pts := 0
  snap := []
  maint := false
  gated := false
  idle := 0

/-! ## Translation (R264–R273) -/

/-- A TLB entry: of a core or of a die; first page and page count of 64 KiB pages; the leaf as loaded. A
retained entry (R272) names the records that still owe their retry. -/
structure TlbEntry where
  id : Nat
  die : Nat
  core : Option Nat
  ctx : Nat
  vpn : Nat
  pages : Nat
  pte : W64
  ptePa : Nat
  retained : List Nat
  since : Nat
  deriving DecidableEq, Repr

/-- A page walk asked for (R271). Lanes wait on it by their WALK events, engine operations by their `waitPage`;
`front` says that the front end asked; `walker` is the walker that makes it, once running. -/
structure Walk where
  id : Nat
  die : Nat
  ctx : Nat
  vpn : Nat
  running : Bool
  fw : Bool
  front : Bool
  ord : Nat
  walker : Nat
  deriving DecidableEq, Repr

/-- One line of a die's page-walk cache (R270). -/
structure WalkLine where
  die : Nat
  ctx : Nat
  line : Nat
  words : List W64
  deriving DecidableEq, Repr

/-- A combining buffer (R263): its context and line, the bytes written, the threads (gang slot, position, lane) that
stored into it, and when the first store came. -/
structure WcBuf where
  id : Nat
  core : Nat
  line : Nat
  bytes : List (Nat × Byte)
  threads : List Src
  lids : List Nat
  since : Nat
  ord : Nat
  ctx : Nat := 0
  deriving DecidableEq, Repr

/-- A coordinate of a page that is not normal, read for one thread's ZADV and not read again by it (R281, R369): the request
under way for it, the bytes of the core's combining buffer at the time, the word that came. -/
structure SeekWord where
  core : Nat
  thread : Nat × Nat × Nat × Nat
  pa : Nat
  req : Nat
  merged : List (Nat × Byte)
  word : Option Nat
  deriving DecidableEq, Repr

/-! ## Engines and futures (R355–R372) -/

/-- Kinds of engine operation; `tile` is the copy of one full compaction tile, which has no future (R372). -/
inductive OpKind where
  | cpy | fetch | ixwalk | cpact | cpfl | mxissue | mxdrain | qnt | dqnt | tile
  deriving DecidableEq, Repr

/-- A read of another module's page that is not normal, which an operation has asked for (R262): its request, its row and
place there, its address and bytes. -/
structure Ask where
  req : Nat
  row : Nat
  off : Nat
  va : Nat
  pa : Nat
  bytes : Nat
  deriving DecidableEq, Repr

/-- An engine operation (R286): its agent's place, context and launch, its future, its descriptor and what
the issuing thread gave it (`args`, `toks`, `seed`, the instruction's fields, `slot`, `fence`), and how far it has
come. `words` are the descriptor's, once read; `started` says that they have passed their checks, or that the
tokens of a compaction have been taken. `got` holds the bytes read, by row · 2^40 + place in the row; `old` what
the bytes it has written were before, since an operation never reads its own writes; `put` the
writes made; `limit` the first row that will not be done, when a fault or a
cancellation has set one; `fail` the row, CODE, cause and address of that fault; `srcs` and `dsts` the physical
ranges read and written, the latter beside `put`. `spoilt` marks outputs made unpredictable (R289), and a walk of
which a range has overflowed. `waitPage` is the page whose walk it waits for, `mark` a walk that failed
(cause + 64 · page), `due` the clk E of a matrix operation. `unit` is its copy engine (R361), `asked` its own reads under way,
`count` the count of the bypass list as its token found it (R372), `freed` that the bytes it both read and wrote have lost
their values (R362). `put` and `dsts` go together, `put` holding row · 2^40 + place in the row's writes. -/
structure EngineOp where
  id : Nat
  kind : OpKind
  die : Nat
  core : Nat
  ctx : Nat
  fw : Bool
  lid : Nat
  group : Option Nat
  handle : Nat
  desc : Nat
  words : Option (List W64)
  args : List Nat
  toks : List (Nat × Bool)
  seed : W32
  minor : Nat
  type : Nat
  rm : Nat
  sat : Bool
  slot : Nat
  fence : FenceMark
  started : Bool
  progress : Nat
  got : List (Nat × Option Byte)
  old : List (Nat × Option Byte)
  put : List Nat
  limit : Option Nat
  fail : Option (Nat × Nat × Cause × Nat)
  srcs : List (Nat × Nat)
  dsts : List (Nat × Nat)
  waitPage : Option Nat
  mark : Option Nat
  cancel : Bool
  spoilt : Bool
  due : Nat
  pts : Nat
  since : Nat
  unit : Nat := 0
  asked : List Ask := []
  count : Option Nat := none
  freed : Bool := false
  deriving DecidableEq, Repr

inductive FutSt where
  | free | running | complete
  deriving DecidableEq, Repr

/-- An entry of a die's future table (R356, R357), with the operation it stands for. -/
structure Fut where
  st : FutSt
  gen : Nat
  ctx : Nat
  code : Nat
  progress : Nat
  observed : Bool
  lid : Nat
  ord : Nat
  op : Nat
  deriving DecidableEq, Repr

def Fut.free : Fut := ⟨.free, 0, 0, 0, 0, false, 0, 0, 0⟩

/-! ## Fault queues (R416, R417) -/

/-- A fault-queue entry that waits to be written: the queue (none: firmware's), its base and log2 size, its eight
words, the item it keeps from reuse, and the pool blocks of a record that has been settled meanwhile, which are freed with it. -/
structure FaultEntry where
  queue : Option Nat
  base : Nat
  log2 : Nat
  die : Nat
  words : List W64
  rid : Option Nat
  handle : Option Nat
  frees : List Nat := []
  deriving DecidableEq, Repr

/-! ## Launches, groups, queues, contexts (R199–R207, R463–R477) -/

inductive LaunchSt where
  | queued | waitdep | reserving | backoff | active | ending | complete | failed
  deriving DecidableEq, Repr

/-- One part's answers in a spanning launch (R456). -/
structure PartSt where
  node : Nat
  answer : Option Bool
  reported : Bool
  heard : Nat
  deriving DecidableEq, Repr

/-- A launch (R199, R202): its record's words as read, its entry as read (R472), its journal number, the
dependences latched, the threads not yet ended (as slices and tasks), and its parts. `fail` says
that it ends in FAILED; `owner` is the coordinator's node and key where this module runs a part of another module's launch (R455), or
slices forwarded from there (R453; `queue` 65537, `seq` the threads received); `away` holds the nodes to which its
slices went and `gone` how many of its threads run there; `claim` the core claimed for each group of a part (R457); `peer` says that a
peer append submitted it (R451). -/
structure Launch where
  lid : Nat
  queue : Nat
  ctx : Nat
  number : Nat
  seq : Nat
  tag : W64
  digest : W64
  fw : Bool
  words : List W64
  entryAddr : Nat
  entryVbud : Nat
  entryIdem : Bool
  drain : Nat
  st : LaunchSt
  latched : BitVec 4
  live : Nat
  activeAt : Nat
  late : Bool
  parts : List PartSt
  owner : Option (Nat × Nat)
  virt : Nat
  since : Nat
  signalled : Bool
  fail : Bool
  away : List Nat
  gone : Nat := 0
  claim : List (Nat × Nat) := []
  peer : Bool := false
  deriving DecidableEq, Repr

inductive GroupSt where
  | waiting | placed | held | done
  deriving DecidableEq, Repr

/-- The state of a held group (R428): its scratchpad, full-empty bits, barriers, rings, queues, reservations
and spilled slots. -/
structure GroupImage where
  scratch : List Byte
  fe : List Byte
  barriers : List Barrier
  rings : List Ring
  queues : List (List QEntry)
  resvs : List Resv
  gexp : List (Option Nat)
  place : Nat
  compact : Compact
  deriving DecidableEq, Repr

/-- A group of a launch (R206): the cores that may host it (`num` from `lo` on), the one that does, how many of its
gangs are created, how many of its threads live. `held` is 0, or 1 + the method by which it is or was pre-empted (R428); `spills`
holds the pool addresses of the images of its spilled accumulator slots (R351). -/
structure Group where
  gid : Nat
  lid : Nat
  gi : Nat
  lo : Nat
  num : Nat
  core : Nat
  st : GroupSt
  nextGang : Nat
  live : Nat
  image : Option GroupImage
  spills : List Nat
  held : Nat
  deriving DecidableEq, Repr

inductive QueueSt where
  | mapped | unmapping | unmapped
  deriving DecidableEq, Repr

/-- A packet as the parser has read it (R466–R468): its 16 words, its journal number and digest, whether it belongs
to a committed batch, whether it could not be read, the launch record and the entry read for it, and the launch
it has started (0: none); `sent` says that its write at another home has gone out, to that line, and is awaited. -/
structure Packet where
  words : List W64
  seq : Nat
  digest : W64
  inBatch : Bool
  bad : Bool
  record : List W64
  entry : Option (Nat × Nat × Bool × Nat)
  lid : Nat
  sent : Option Nat := none
  deriving DecidableEq, Repr

/-- A hardware queue as the part holds it (R464): indices, the packet the parser holds, what is left of a committed
batch, the launches of the queue that are not over, and the value of its wake word last seen. -/
structure HwQueue where
  q : Nat
  st : QueueSt
  prod : Nat
  cons : Nat
  pwake : Bool
  fwown : Bool
  log2n : Nat
  ctx : Nat
  ring : Nat
  wakesig : Nat
  wakeval : Nat
  pkt : Option Packet
  members : List Packet
  earlier : List Nat
  deriving DecidableEq, Repr

/-- A resident context (R471): its descriptor's words and its fault queue's count. -/
structure Context where
  ctx : Nat
  words : List W64
  launches : Nat
  fqseq : Nat
  deriving DecidableEq, Repr

/-! ## Stream ingest (R481–R485) -/

/-- A frame of a stream in its slot (R484): packets, times, what of each line has come (lines of video, packets of
audio), the bytes to be stored by their place in the slot, and the next place of ancillary data. `index` is the number of
an audio group. `closing`: 0 open, 1 complete, 2 by timeout, 3 by a new timestamp; `groups` have had their entries pushed, `wrote` is the
group whose essence and record are being written, with its entry, and `ready` holds the entries of later groups that closed before. -/
structure Frame where
  slot : Nat
  seq : Nat
  index : Nat
  rtpTs : BitVec 32
  first : Nat
  last : Nat
  lastClk : Nat
  minSeq : Nat
  seqs : List Nat
  marker : Option Nat
  lines : List (Nat × Nat)
  data : List (Nat × List Byte)
  fill : Nat
  closing : Nat
  groups : Nat
  dropped : Bool
  wrote : Option (Nat × List W32)
  ready : List (Nat × List W32)
  deriving DecidableEq, Repr

/-- A stream (R481): its registers, its descriptor as read, its open frames, the timestamps or groups closed last, frames
so far, its queue of entries not yet popped (slot, record words), the slots held by entries, whether the queue is
closed, and the first sequence number. -/
structure Stream where
  state : Nat
  desc : Nat
  overrun : Nat
  timeout : Nat
  late : Nat
  bad : Nat
  words : List W64
  frames : List Frame
  closed : List Nat
  count : Nat
  entries : List (Nat × List W32)
  held : List (Nat × Nat)
  shut : Bool
  base : Option Nat
  deriving DecidableEq, Repr

def Stream.reset : Stream := ⟨0, 0, 0, 0, 0, 0, [], [], [], 0, [], [], true, none⟩

/-! ## The fabric and the homes (R294–R304, R439–R446) -/

/-- States of a cached copy (R296, R297). -/
inductive Moesi where
  | m | o | e | s
  deriving DecidableEq, Repr

/-- A line of a normal page in a core's L1 (R258): its physical address, its state in the directory of the L2 slice
(R297), its times (R299), and its bytes. A copy in state M, O or E holds the line as it is; one in state S is
valid under its lease. One that an error has struck cannot be read (R313). -/
structure L1Copy where
  core : Nat
  line : Nat
  st : Moesi
  wts : Nat
  rts : Nat
  data : List Byte
  bad : Bool := false
  deriving DecidableEq, Repr

/-- A line of the module's own HBM in its home die's L2, by local address, with its times (R298, R299), and whether an error
has made it unreadable there (R313). For a memory-side line it is the base die that keeps them. -/
structure L2Line where
  line : Nat
  wts : Nat
  rts : Nat
  bad : Bool := false
  deriving DecidableEq, Repr

/-- What errors make of a line (R313): one symbol, which a read corrects; more, which it cannot; or more that it takes
for one, delivering other bytes. -/
inductive DramError where
  | corrected | uncorrectable | wrong (data : List Byte)
  deriving DecidableEq, Repr

/-- Where an error strikes (R313): a line of HBM or of a window, by local line number; a core's L1 copy or a die's L2 copy of a
line, by physical line number. -/
inductive UpsetAt where
  | array
  | l1 (core : Nat)
  | l2 (die : Nat)
  deriving DecidableEq, Repr

/-- An error that will strike a line of this module's memories at a clk. -/
structure Upset where
  clk : Nat
  place : UpsetAt := .array
  line : Nat
  error : DramError
  deriving DecidableEq, Repr

/-- A store that its thread has not fenced yet (R282): bytes, memory type, and the thread by launch, slice number, index
and lane. -/
structure TypedStore where
  pa : Nat
  bytes : Nat
  memType : Nat
  thread : Nat × Nat × Nat × Nat
  deriving DecidableEq, Repr

/-- A copy of another module's line in a die's L2 (R298): `excl` in state E or M, `owned` in state O too (R296), `clean` while
nothing has been written into it since the home granted it (state E, R305); `bad` when an error has struck it (R313). -/
structure LineCopy where
  die : Nat
  pa : Nat
  excl : Bool
  owned : Bool
  wts : Nat
  rts : Nat
  data : List Byte
  clean : Bool := false
  bad : Bool := false
  deriving DecidableEq, Repr

/-- What an unanswered request is for. -/
inductive ReqFor where
  | core (core : Nat)
  | engine (op : Nat)
  | front
  | record (rid : Nat)
  | monitor (rid lane : Nat)
  | walk (id : Nat)
  | dep (lid dep : Nat)
  | wake (queue : Nat)
  | home (stack : Nat)
  deriving DecidableEq, Repr

/-- A request of this module (R443, R444): not yet injected, or waiting for its response. A `direct` read is one access's
alone, and its line is not cached (R262); `by_` tells the issuing sub-gangs of one core apart (R444), 0 for the rest. -/
structure Req where
  id : Nat
  die : Nat
  who : ReqFor
  kind : Nat
  node : Nat
  pa : Nat
  slot : Option Nat
  injected : Option Nat
  msg : Msg
  direct : Bool := false
  by_ : Nat := 0
  deriving DecidableEq, Repr

/-- A request that takes no slot and is not acknowledged yet (R443): `src` names the threads whose access it is, `sig` the context, address and WHERE of a signal update (R500),
`dirty` the page whose D bit is being set, for which a store waits (R267); `held` a message that its core holds back behind 256 others; `arg` the message's own. -/
structure Post where
  id : Nat
  kind : Nat
  node : Nat
  addr : Nat
  who : ReqFor
  since : Nat
  src : List Src
  sig : Option (Nat × Nat × Nat)
  dirty : Option Nat := none
  held : Option Msg := none
  arg : Nat := 0
  deriving DecidableEq, Repr

/-- A request of another module that waits at its line's home: behind another request, or, once `sent`, for the owner
to whom it was forwarded (R305) at clk `since`. -/
structure HomeItem where
  id : Nat
  line : Nat
  kind : Nat
  msg : Msg
  sent : Bool
  since : Nat
  deriving DecidableEq, Repr

/-- A home's registers and clocks (R300, R304). -/
structure Home where
  epoch : Nat
  hclk : Nat
  uecnt : Nat
  cecnt : Nat
  ueLine : Nat
  ueValid : Bool
  deriving DecidableEq, Repr

/-! ## Devices -/

inductive Phase where
  | rom | verify | hbminit | selftest | ready | recovery
  deriving DecidableEq, Repr

/-- The registers of one die: DSCHED (R213), POOLCFG with a write that waits (R259), PRECTL and PRESTAT
(R426). `preLeft` holds the groups still to be pre-empted, `heldCtx` the contexts whose task slices are held. -/
structure DieRegs where
  starve : Nat
  balper : Nat
  balNext : Nat
  poolcfg : W64
  poolNext : Option W64
  preBusy : Bool
  preAll : Bool
  preResume : Bool
  preCtx : Nat
  preCore : Nat
  preBound : Nat
  preLeft : List Nat
  heldCtx : List Nat
  preMethod : Nat
  preMissed : Bool
  preClks : Nat
  preSince : Nat
  lastMethod : Nat
  deriving DecidableEq, Repr

/-- The module's device registers (chapters 20, 22, 24, 25), each under its own name. `mbBusy` is the mailbox command
being carried out, `warm` that SELFTEST is rerun on leaving STANDBY (R496), `booted` that READY has given the fields marked fw
their values (R489). -/
structure Regs where
  step : BitVec 8
  grade : BitVec 2
  serial : W64
  enabled : List (BitVec 64)
  phase : Phase
  bootError : Nat
  svnFuse : BitVec 8
  fwver : BitVec 32
  featpub : W64
  featacc : W64
  qdtbase : W64
  ctxbase : W64
  fwfq : W64
  jbase : W64
  jnext : Nat
  mbreq : W64
  mbDone : Bool
  mbErr : Bool
  mbStatus : Nat
  mbBusy : Option (Nat × Nat)
  devtime : Nat
  ptpoff : W64
  trim : BitVec 32
  pcap : Nat
  throt : Bool
  throtAt : Option Nat
  pwr : Nat
  tj : Nat
  tin : Nat
  standby : Bool
  warm : Bool
  booted : Bool
  sdva : W64
  sdctx : Nat
  sdall : Bool
  sdglobal : Bool
  sdpages : Nat
  sdsince : Nat
  sdbusy : Bool
  sddone : Nat
  snapLatched : Bool
  snapSrc : Nat
  snapCause : Nat
  snapMissed : Nat
  snapTag : Nat
  snapOrigin : Nat
  snapMask : W64
  snapPc : Nat
  acl : List (Nat × W64)
  route : List (Nat × W64)
  dies : List DieRegs
  homes : List Home
  deriving DecidableEq, Repr

/-! ## The module -/

/-- The sub-gang whose instruction is being executed. -/
structure Cur where
  core : Nat
  slot : Nat
  sub : Nat
  deriving DecidableEq, Repr

/-- A move: the next word of a running clause, a step of the part's own, the first input, or the step that a
register write has set off. -/
inductive Move where
  | word (c : Cur)
  | own (i : Instr)
  | input
  | due
  deriving DecidableEq, Repr

/-- The whole state of one module and of what stands at its ports. -/
structure State where
  /-- steps taken; selects the free choice of the next step (log entry 3) -/
  tick : Nat
  /-- clk since module reset (CLOCK, R142) -/
  clk : Nat
  /-- free values taken so far (log entry 2): the model's own field -/
  fresh : Nat
  /-- numbers given to records, operations, waits and the like, in their order of birth: the model's own -/
  nextId : Nat
  /-- the moves that are open, and the step since which each has been: the model's own field (R183, log entry 124) -/
  openMoves : List (Move × Nat)
  /-- the issuing sub-gang of the instruction being executed -/
  cur : Option Cur
  /-- steps that come from outside the module, in the order they arrive -/
  inputs : List Instr
  /-- device-register steps that a write has set off and that come before anything else (R112, R281, R461) -/
  due : List Instr
  /-- the node number of the module (R7 fw, R142) -/
  node : Nat
  /-- bytes of HBM and of the core windows held as bytes, by local address (R247) -/
  mem : List Host.Cell
  /-- words of memory that clause fetch may still see as they were (R73): (word address, old value, number of the store), in the
  order of the stores -/
  stale : List (Nat × W64 × Nat)
  /-- lines that cannot be read (R315), and lines whose metadata is bad -/
  poisoned : List Nat
  /-- lines with an error that their next read corrects (R314), and errors to come (R313) -/
  correctable : List Nat
  upsets : List Upset
  /-- save areas of expansions into which a program has written (R168, R195) -/
  spoiltSaves : List Nat
  /-- lines of normal pages in the cores' L1s, and own lines in the L2s (R258, R297–R299) -/
  l1 : List L1Copy
  l2 : List L2Line
  /-- own lines of which another module has been granted a leased copy since STATE was last I (R306) -/
  leased : List Nat
  /-- stores that their threads have not fenced yet (R282) -/
  typed : List TypedStore
  /-- logical clocks of the front end, of the 64 walkers of each die, and of the device registers (R299); the largest time that
  a message has brought, or that an agent which is gone had -/
  frontPts : Nat
  walkPts : List Nat
  devPts : Nat
  heard : Nat
  /-- brass bits by line number (R295) -/
  brass : List (Nat × BitVec 32)
  /-- register files: 32-bit words by core * 98304 + word (R251) -/
  rf : List (Nat × W32)
  /-- write stamps of operand-buffer bytes by core * 2^20 + offset (R289) -/
  opStamp : List (Nat × Nat)
  /-- the copy that wrote a byte of an operand buffer last, by the same key; and the full-empty bits and signal words by which
  copies completed: key, bytes, operation (R288, R385) -/
  opBy : List (Nat × Nat)
  signs : List (Nat × Nat × Nat)
  /-- bytes of logical images written through the recoder (R340), by core * 2^20 + offset: what a partial
  write of an element leaves of it, and the block a recoding starts from -/
  opLogic : List (Nat × Byte)
  /-- ranges of an operand buffer whose contents R289 calls unpredictable: low and high key (core * 2^20 +
  offset) and the step from which on; a byte written later is known again -/
  opSpoilt : List (Nat × Nat × Nat)
  /-- window writes to registers of a gang inside a clause, applied at its end (R251) -/
  rfLate : List (Nat × Byte)
  gangs : List Gang
  pend : List Pend
  cores : List CoreSt
  recs : List RecMeta
  waits : List Wait
  mons : List Monitor
  /-- pool allocations (address, bytes, context), by any tier (R260) -/
  pool : List (Nat × Nat × Nat)
  /-- the die task queues (R181) and the records that wait for room -/
  tasks : List (List Task)
  /-- TLBs, walks and walk caches -/
  tlbs : List TlbEntry
  walks : List Walk
  /-- walks for the front end that failed: (die, context, page, cause code) -/
  frontMarks : List (Nat × Nat × Nat × Nat)
  walkLines : List WalkLine
  wcbufs : List WcBuf
  seeks : List SeekWord
  ops : List EngineOp
  futs : List (Nat × Fut)
  launches : List Launch
  groups : List Group
  queues : List HwQueue
  contexts : List Context
  /-- fault-queue entries that wait to be written, in report order (R416) -/
  faults : List FaultEntry
  fwFaultSeq : Nat
  /-- the queues and indices of packets that a peer append has placed and that their parser has not passed (R450, R451) -/
  peers : List (Nat × Nat)
  streams : List Stream
  regs : Regs
  /-- blocks that have not latched a trigger yet, and what dies (0–3) and homes (4–19) have latched (R148, R435) -/
  snapDue : List Nat
  dieSnap : List (List Nat)
  /-- copies of other modules' lines, requests, acknowledgement counts, and messages sent, newest last, each with
  its kind (R441) and the Wysor port it took (R460) -/
  copies : List LineCopy
  reqs : List Req
  acks : List (Nat × Nat)
  posts : List Post
  homeQ : List HomeItem
  failedPa : List (Nat × Nat)
  /-- lines of other modules whose home grants a die no ownership (R308, R310): (die, line) -/
  uncached : List (Nat × Nat)
  outbox : List (Nat × Nat × Msg)
  ports : List Bool
  /-- of each link end: the LSEQ expected next, the flits of the message that is arriving, and the LSEQ from which a replay has been
  asked for; the LSEQ to be sent next with the last 256 flits sent (LSEQ, place of the message in `outbox`, flit of it); and flits
  of reserved kinds, the node's report of which to firmware is this count (R440, R441) -/
  linkSeq : List Nat
  linkRx : List (List Flit)
  linkAsk : List (Option Nat)
  linkTx : List (Nat × List (Nat × Nat × Nat))
  linkErrors : Nat
  bersy : List Bool
  interrupts : Nat
  /-- what reads of the control node have returned, newest last (R461) -/
  answers : List W64
  /-- the running firmware image: security version and whether it commits (R491) -/
  imageSvn : BitVec 8
  imageCommit : Bool
  /-- the on-module flash; the image that the ROM has read, header, code and signature; the 256 KiB memory with its code (R489, R491) -/
  flash : List Byte
  image : List Byte
  tcm : List Byte
  /-- the TAG of each journalled packet, by its place in the journal (R467) -/
  journalTags : List (Nat × W64)
  deriving DecidableEq, Repr

/-- Why the machine stops. Every constructor is safe: a stop proves nothing about the hardware. -/
inductive Fault where
  /-- Raised by a meaning that `exec` is asked for while no sub-gang is issuing: `step` never does. Safe. -/
  | noIssuer
  deriving DecidableEq, Repr

/-- Why an instruction has no meaning. -/
inductive Refusal where
  /-- Raised by a refused arm of Dispatch: the meaning is not written. Safe. -/
  | notModelled (mnemonic : String)
  deriving DecidableEq, Repr

/-- Fields at the reset values of R213, R259 and R426. POOLCFG: HSIZE 256, L2MB 8, SPREG 8; HBASE is fw. -/
def DieRegs.reset : DieRegs where
  starve := 1000
  balper := 2
  balNext := 0
  poolcfg := BitVec.ofNat 64 (256 * 2 ^ 12 + 8 * 2 ^ 6 + 8)
  poolNext := none
  preBusy := false
  preAll := false
  preResume := false
  preCtx := 0
  preCore := 0
  preBound := 0
  preLeft := []
  heldCtx := []
  preMethod := 0
  preMissed := false
  preClks := 0
  preSince := 0
  lastMethod := 0

/-- Device registers at their reset values; fuse values as log entry 6 says. -/
def Regs.reset : Regs where
  step := 0
  grade := 0
  serial := 0
  enabled := List.replicate 4 (BitVec.allOnes 64)
  phase := .rom
  bootError := 0
  svnFuse := 0
  fwver := 0
  featpub := 0
  featacc := 0
  qdtbase := 0
  ctxbase := 0
  fwfq := 0
  jbase := 0
  jnext := 1
  mbreq := 0
  mbDone := false
  mbErr := false
  mbStatus := 0
  mbBusy := none
  devtime := 0
  ptpoff := 0
  trim := 0
  pcap := 4400
  throt := false
  throtAt := none
  pwr := 0
  tj := 0
  tin := 0
  standby := false
  warm := false
  booted := false
  sdva := 0
  sdctx := 0
  sdall := false
  sdglobal := false
  sdpages := 0
  sdsince := 0
  sdbusy := false
  sddone := 0
  snapLatched := false
  snapSrc := 0
  snapCause := 0
  snapMissed := 0
  snapTag := 0
  snapOrigin := 0
  snapMask := 0
  snapPc := 0
  acl := []
  route := []
  dies := List.replicate 4 DieRegs.reset
  homes := List.replicate 16 ⟨0, 0, 0, 0, 0, false⟩

/-- The module right after a power-on reset (R488, R489): phase ROM, nothing resident, memory with nothing
listed. -/
def State.reset : State where
  tick := 0
  openMoves := []
  clk := 0
  fresh := 0
  nextId := 1
  cur := none
  inputs := []
  due := []
  node := 0
  mem := []
  stale := []
  poisoned := []
  correctable := []
  upsets := []
  spoiltSaves := []
  l1 := []
  l2 := []
  leased := []
  typed := []
  frontPts := 0
  walkPts := List.replicate 256 0
  devPts := 0
  heard := 0
  brass := []
  rf := []
  opStamp := []
  opBy := []
  signs := []
  opLogic := []
  opSpoilt := []
  rfLate := []
  gangs := []
  pend := []
  cores := List.replicate 256 CoreSt.reset
  recs := []
  waits := []
  mons := []
  pool := []
  tasks := List.replicate 4 []
  tlbs := []
  walks := []
  frontMarks := []
  walkLines := []
  wcbufs := []
  seeks := []
  ops := []
  futs := []
  launches := []
  groups := []
  queues := []
  contexts := []
  faults := []
  fwFaultSeq := 0
  peers := []
  streams := List.replicate 256 Stream.reset
  regs := Regs.reset
  snapDue := []
  dieSnap := List.replicate 20 []
  copies := []
  reqs := []
  acks := []
  posts := []
  homeQ := []
  failedPa := []
  uncached := []
  outbox := []
  ports := List.replicate 18 true
  linkSeq := List.replicate 18 0
  linkRx := List.replicate 18 []
  linkAsk := List.replicate 18 none
  linkTx := List.replicate 18 (0, [])
  linkErrors := 0
  bersy := [true, true]
  interrupts := 0
  answers := []
  imageSvn := 0
  imageCommit := false
  flash := []
  image := []
  tcm := []
  journalTags := []

end Sys2Proof.Machine
end

