-- ==== Sys2Proof/Machine/Regs.lean ====
section
/-! DEFINITION. Reading the device registers (0xC00_0000_0000 on) and the core control and status window
(R252). Reserved fields read as 0 (R4). -/

namespace Sys2Proof.Machine

def State.core (s : State) (c : Nat) : CoreSt := s.cores.getD c CoreSt.reset
def State.setCore (s : State) (c : Nat) (g : CoreSt → CoreSt) : State := { s with cores := updAt c g s.cores }
def State.dieRegs (s : State) (d : Nat) : DieRegs := s.regs.dies.getD d DieRegs.reset
def State.setDie (s : State) (d : Nat) (g : DieRegs → DieRegs) : State :=
  { s with regs := { s.regs with dies := updAt d g s.regs.dies } }
def State.stream (s : State) (i : Nat) : Stream := s.streams.getD i Stream.reset
def State.setStream (s : State) (i : Nat) (g : Stream → Stream) : State := { s with streams := updAt i g s.streams }

/-- Core c is enabled (R1, R487). -/
def State.coreOn (s : State) (c : Nat) : Bool := (s.regs.enabled.getD (c / 64) 0#64).getLsbD (c % 64)

/-- CORELOC and the location fields of a core (R142). -/
def corelocOf (s : State) (c : Nat) : Nat := s.node % 1024 * 2 ^ 16 + c / 64 % 4 * 2 ^ 8 + c % 64

def phaseCode : Phase → Nat
  | .rom => 0
  | .verify => 1
  | .hbminit => 2
  | .selftest => 3
  | .ready => 4
  | .recovery => 5

/-- Cause codes (R410). -/
def causeCode : Cause → Nat
  | .ill => 1
  | .priv => 2
  | .budget => 3
  | .role => 4
  | .align => 5
  | .xnp => 6
  | .xperm => 7
  | .pcOvf => 8
  | .endRun => 9
  | .hazard => 10
  | .resv => 11
  | .expovf => 12
  | .qproto => 13
  | .memerr => 14
  | .engerr => 15
  | .bpt => 16
  | .swtrap => 17

/-- Groups held for a context on a die (PRESTAT GROUPS, R426). -/
def heldGroups (s : State) (die ctx : Nat) : Nat :=
  (s.groups.filter fun g => g.st == .held && g.core / 64 == die &&
    (s.launches.any fun l => l.lid == g.lid && l.ctx == ctx)).length

/-- The 64-bit device register at an 8-byte-aligned offset; write-only registers read 0 (R7). -/
def readReg (s : State) (off : Nat) : Nat :=
  let r := s.regs
  if off < 0x40 then
    (if off = 0 then 0x0d14 * 2 ^ 48 + r.step.toNat * 2 ^ 40 + r.grade.toNat * 2 ^ 38
     else if off = 8 then r.serial.toNat
     else if off < 0x30 then (r.enabled.getD ((off - 0x10) / 8) 0#64).toNat
     else if off = 0x30 then
       phaseCode r.phase * 2 ^ 60 + r.bootError % 16 * 2 ^ 56 + r.svnFuse.toNat * 2 ^ 48 + r.fwver.toNat
     else 0)
  else if 0x10000 ≤ off && off < 0x14000 && off % 0x1000 = 0 then
    let d := s.dieRegs ((off - 0x10000) / 0x1000)
    d.starve % 65536 * 256 + d.balper % 16 * 16 + 4
  else if 0x20000 ≤ off && off < 0x24000 && off % 0x1000 = 0 then
    (s.dieRegs ((off - 0x20000) / 0x1000)).poolcfg.toNat % 2 ^ 44
  else if 0x30000 ≤ off && off < 0x31000 then
    match r.homes[(off - 0x30000) / 256]? with
    | some h =>
      (if off % 256 = 0 then h.epoch % 2 ^ 64
       else if off % 256 = 8 then h.uecnt % 2 ^ 32 * 2 ^ 32 + h.cecnt % 2 ^ 32
       else if off % 256 = 0x10 then h.ueLine % 2 ^ 47 * 128 + b2n h.ueValid else 0)
    | none => 0
  else if off = 0x40000 then r.sdva.toNat % 2 ^ 56 / 2 ^ 16 * 2 ^ 16
  else if off = 0x40008 then
    b2n r.sdbusy * 2 ^ 62 + r.sdctx % 2 ^ 16 * 2 ^ 32 + b2n r.sdall * 2 ^ 31 + b2n r.sdglobal * 2 ^ 30 + r.sdpages % 2 ^ 20
  else if off = 0x40010 then r.sddone % 2 ^ 64
  else if 0x50000 ≤ off && off < 0x54000 then
    let k := (off - 0x50000) / 0x1000
    let d := s.dieRegs k
    (if off % 0x1000 = 0 then
       b2n d.preBusy * 2 ^ 62 + b2n d.preAll * 2 ^ 61 + b2n d.preResume * 2 ^ 60 + d.preCtx % 2 ^ 16 * 2 ^ 32 +
       d.preCore % 64 * 2 ^ 26 + d.preBound % 2 ^ 26
     else if off % 0x1000 = 8 then
       d.lastMethod % 4 * 2 ^ 62 + b2n d.preMissed * 2 ^ 61 + heldGroups s k d.preCtx % 2 ^ 16 * 2 ^ 32 + d.preClks % 2 ^ 32
     else 0)
  else if off = 0x60000 then
    b2n r.snapLatched * 2 ^ 61 + r.snapSrc % 8 * 2 ^ 58 + r.snapCause % 64 * 2 ^ 52 + r.snapMissed % 2 ^ 16 * 2 ^ 32 +
    r.snapTag % 256 * 2 ^ 24 + r.snapOrigin % 1024
  else if off = 0x60008 then r.snapMask.toNat
  else if off = 0x60010 then r.snapPc % 2 ^ 56
  else if 0x70000 ≤ off && off < 0x72000 then (tabGet 0#64 r.acl ((off - 0x70000) / 8)).toNat
  else if 0x80000 ≤ off && off < 0x82000 then (tabGet 0#64 r.route ((off - 0x80000) / 8)).toNat
  else if off = 0x90000 then r.qdtbase.toNat
  else if off = 0x90008 then r.ctxbase.toNat
  else if off = 0x90010 then r.fwfq.toNat
  else if off = 0xa0000 then r.featpub.toNat
  else if off = 0xa0008 then r.featacc.toNat
  else if off = 0xb0000 then r.jbase.toNat
  else if off = 0xb0008 then r.jnext
  else if 0xc0000 ≤ off && off < 0xc1000 then
    let t := s.stream ((off - 0xc0000) / 16)
    (if off % 16 = 0 then t.state % 4 * 2 ^ 60 + t.desc % 2 ^ 54
     else t.overrun % 65536 * 2 ^ 48 + t.timeout % 65536 * 2 ^ 32 + t.late % 65536 * 2 ^ 16 + t.bad % 65536)
  else if off = 0xd0000 then r.devtime % 2 ^ 64
  else if off = 0xd0008 then r.ptpoff.toNat
  else if off = 0xd0010 then r.trim.toNat
  else if off = 0xe0000 then r.mbreq.toNat
  else if off = 0xe0008 then b2n r.mbDone * 2 ^ 63 + b2n r.mbErr * 2 ^ 62 + r.mbStatus % 2 ^ 32
  else if off = 0xf0000 then r.pcap % 65536
  else if off = 0xf0008 then
    b2n (r.throt || (match r.throtAt with | some t => decide (s.clk < t + 850000) | none => false)) * 2 ^ 63 + b2n r.standby * 2 ^ 62 + r.pwr % 65536 * 2 ^ 32 + r.tj % 65536 * 2 ^ 16 + r.tin % 65536
  else 0

/-! ## Windows (R249) -/

/-- Local address of a core's window (R247). -/
def windowBase (c : Nat) : Nat := 0x80000000000 + c / 64 * 2 ^ 36 + c % 64 * 2 ^ 23

/-- What a local address names (R247–R249). -/
inductive Region where
  | hbm | rf | scratch | fe | opbuf | acc | ctl | dev | absent
  deriving DecidableEq, Repr

/-- A local address resolved: region, core, offset in the region (in the plain view for the scratchpad). -/
structure Place where
  region : Region
  core : Nat
  off : Nat
  deriving DecidableEq, Repr

/-- The plain offset of a swizzled one (R254). -/
def unswizzle (o : Nat) : Nat := o / 128 * 128 + (o / 8 % 16 ^^^ o / 128 % 16) * 8 + o % 8

/-- The local map (R247, R248, R249); the windows of a fused core are absent. -/
def placeOf (s : State) (la : Nat) : Place :=
  if la < 0x10000000000 then ⟨.hbm, 0, la⟩
  else if 0x80000000000 ≤ la && la < 0xc0000000000 then
    let x := la - 0x80000000000
    let die := x / 2 ^ 36
    let k := x % 2 ^ 36 / 2 ^ 23
    let c := die * 64 + k
    let o := x % 2 ^ 23
    if die < 4 && k < 64 && s.coreOn c then
      (if o < 0x60000 then ⟨.rf, c, o⟩
       else if 0x80000 ≤ o && o < 0x100000 then ⟨.scratch, c, o - 0x80000⟩
       else if 0x100000 ≤ o && o < 0x101000 then ⟨.fe, c, o - 0x100000⟩
       else if 0x180000 ≤ o && o < 0x200000 then ⟨.scratch, c, unswizzle (o - 0x180000)⟩
       else if 0x200000 ≤ o && o < 0x300000 then ⟨.opbuf, c, o - 0x200000⟩
       else if 0x400000 ≤ o && o < 0x4a0000 then ⟨.acc, c, o - 0x400000⟩
       else if 0x600000 ≤ o && o < 0x610000 then ⟨.ctl, c, o - 0x600000⟩
       else ⟨.absent, c, 0⟩)
    else ⟨.absent, 0, 0⟩
  else if 0xc0000000000 ≤ la && la < 0xc0001000000 then ⟨.dev, 0, la - 0xc0000000000⟩
  else ⟨.absent, 0, 0⟩

/-- The key under which a byte of the memory table is held. -/
def memKey (p : Place) : Nat :=
  match p.region with
  | .scratch => windowBase p.core + 0x80000 + p.off
  | .fe => windowBase p.core + 0x100000 + p.off
  | .opbuf => windowBase p.core + 0x200000 + p.off
  | .acc => windowBase p.core + 0x400000 + p.off
  | _ => p.off

/-- A reservation record's two words (R336). -/
def resvWord0 (r : Resv) : Nat :=
  if !r.valid then 0
  else 2 ^ 63 + b2n r.wside * 2 ^ 62 + b2n r.zskip * 2 ^ 61 + r.cap % 8 * 2 ^ 57 + r.fmt % 32 * 2 ^ 52 +
    r.sfmt % 8 * 2 ^ 49 + r.lblk % 4 * 2 ^ 47 + r.len % 2 ^ 14 * 2 ^ 27 + r.base % 2 ^ 20
def resvWord1 (r : Resv) : Nat := if !r.valid then 0 else b2n r.ovr * 2 ^ 31 + r.soff % 2 ^ 21

def maskOf : List Bool → Nat
  | [] => 0
  | b :: t => b2n b + 2 * maskOf t

/-- A ring's two words (R373). -/
def ringWord0 (r : Ring) : Nat :=
  maskOf r.full % 65536 * 2 ^ 48 + maskOf r.held % 65536 * 2 ^ 32 + r.pcur % 16 * 2 ^ 28 + r.ccur % 16 * 2 ^ 24 +
  (r.ns - 1) % 16 * 2 ^ 20 + b2n r.valid * 2 ^ 19 + r.base % 2 ^ 19

/-- The gang-table entry of a slot (R252). DESIGN CHOICE (log entry 153): LAUNCH and SLICE are 0 when the slice of position 0 has left
a gang whose other slices stay. -/
def gangWord (s : State) (c g : Nat) : Nat :=
  match s.gangs.find? fun x => x.core == c && x.slot == g with
  | none => 0
  | some x =>
    let head := match x.slices.find? fun sl => sl.pos == 0 with
      | some sl => sl.number % 256 * 2 ^ 32 + sl.index % 2 ^ 24
      | none => 0
    x.base % 4096 * 2 ^ 48 + x.vbud % 256 * 2 ^ 40 + head

/-- A 64-bit word of the core control and status window. The bin, expand and barrier blocks are named there
without a layout, so their bits are free values (log entry 9). -/
def ctlWord (s : State) (c off : Nat) : Nat :=
  let k := s.core c
  if off < 0x100 then gangWord s c (off / 8)
  else if 0x1000 ≤ off && off < 0x4000 then (Config.freeBits s.fresh off).toNat % 2 ^ 64
  else if 0x4000 ≤ off && off < 0x4100 then
    let r := k.resvs.getD ((off - 0x4000) / 16) Resv.none
    (if off % 16 = 0 then resvWord0 r else resvWord1 r)
  else if 0x5000 ≤ off && off < 0x5080 then
    let r := k.rings.getD ((off - 0x5000) / 16) Ring.none
    (if off % 16 = 0 then (if r.valid then ringWord0 r else 0) else r.ssz % 2 ^ 19)
  else if 0x5100 ≤ off && off < 0x5140 then
    let p := k.ports.getD ((off - 0x5100) / 8) Port.unbound
    p.kind % 16 * 2 ^ 60 + p.queue % 2 ^ 56
  else if 0x8000 ≤ off && off < 0x8380 then bytesToNat ((k.snap.drop (off - 0x8000)).take 8)
  else 0

end Sys2Proof.Machine
end

