-- ==== Sys2Proof/Machine/Mem.lean ====
section
/-! DEFINITION. Reading and writing the bytes of the local map (R247–R261): the register-file window, the
full-empty bits and the records they serve, the operand buffer with its recoder (R338–R343), memory with
its monitors (R310, R311), and the checks the pool makes (R261). No translation is made here. -/

namespace Sys2Proof.Machine

/-! ## The register file (R251) -/

/-- 32-bit words of one core's register file. -/
def rfWords : Nat := 98304
def rfKey (core word : Nat) : Nat := core * rfWords + word

/-- The gang's allocation covers a word of its core's register file. -/
def Gang.covers (g : Gang) (core word : Nat) : Bool :=
  g.core == core && g.base * 32 ≤ word && word < g.base * 32 + 32 * g.vbud

/-- The clause a gang executes. -/
def Gang.running (g : Gang) : Option Run := g.subs.findSome? fun u => u.run

/-- A word as a window read sees it: as it stood between two clauses of its gang. -/
def rfWindowWord (s : State) (core word : Nat) : W32 :=
  let now := tabGet 0 s.rf (rfKey core word)
  match s.gangs.find? fun g => g.covers core word with
  | some g =>
    match g.running with
    | some r => tabGet now r.shadow (rfKey core word)
    | none => now
  | none => now

def rfByte (s : State) (core off : Nat) : Byte :=
  BitVec.ofNat 8 ((rfWindowWord s core (off / 4)).toNat / 2 ^ (8 * (off % 4)))

/-- Replace byte i of a word. -/
def setByte (w : W32) (i : Nat) (b : Byte) : W32 :=
  BitVec.ofNat 32 (w.toNat - fld w.toNat (8 * i + 7) (8 * i) * 2 ^ (8 * i) + b.toNat * 2 ^ (8 * i))

/-- Store a byte in the register file at once. -/
def rfPutByte (rf : List (Nat × W32)) (k : Nat) (b : Byte) : List (Nat × W32) :=
  tabPut 0 rf (k / 4) (setByte (tabGet 0 rf (k / 4)) (k % 4) b)

/-- A window write of one byte: late when the gang that holds the word is inside a clause. -/
def rfWindowPut (s : State) (core off : Nat) (b : Byte) : State :=
  let k := core * (4 * rfWords) + off
  if s.gangs.any fun g => g.covers core (off / 4) && g.running.isSome then { s with rfLate := s.rfLate ++ [(k, b)] }
  else { s with rf := rfPutByte s.rf k b }

/-- Window writes that waited for a gang's clause to end take effect. -/
def settleLate (s : State) (g : Gang) : State :=
  let mine := fun (e : Nat × Byte) => g.covers (e.1 / (4 * rfWords)) (e.1 % (4 * rfWords) / 4)
  { s with rf := (s.rfLate.filter mine).foldl (fun rf e => rfPutByte rf e.1 e.2) s.rf,
           rfLate := s.rfLate.filter fun e => !mine e }

/-! ## The images of loads and stores (R108) -/

/-- The registers a loaded element image fills, from the bytes of the whole access. -/
def loadImage (t : Nat) (bs : List Byte) : List W32 :=
  if typeBytes t = 1 then [BitVec.ofNat 32 (if t = 1 then wrap 32 (sext 8 (bytesToNat bs)) else bytesToNat bs)]
  else if typeBytes t = 2 then [BitVec.ofNat 32 (if t = 2 then wrap 32 (sext 16 (bytesToNat bs)) else bytesToNat bs)]
  else words bs
where
  words : List Byte → List W32
    | a :: b :: c :: d :: r => BitVec.ofNat 32 (bytesToNat [a, b, c, d]) :: words r
    | _ => []

/-- The bytes of a 1- or 2-byte store, or of whole registers. -/
def storeImage (t : Nat) (vs : List W32) : List Byte :=
  if typeBytes t < 4 then natToBytes (typeBytes t) (vs.headD 0).toNat else vs.flatMap fun v => natToBytes 4 v.toNat

/-! ## Full-empty bits (R256, R257) -/

def feKey (core k : Nat) : Nat := windowBase core + 0x100000 + k / 8

/-- The bit of granule k. -/
def feBit (s : State) (core k : Nat) : Bool := bitOf (tabGet 0#8 s.mem (feKey core k)).toNat (k % 8)

/-- Change the bit of granule k, serving nobody. -/
def setFe (s : State) (core k : Nat) (v : Bool) : State :=
  let b := (tabGet 0#8 s.mem (feKey core k)).toNat
  let b' := if bitOf b (k % 8) = v then b else if v then b + 2 ^ (k % 8) else b - 2 ^ (k % 8)
  { s with mem := tabPut 0#8 s.mem (feKey core k) (BitVec.ofNat 8 b') }

/-- An awaited event comes about with the words it delivers; the first one counts. -/
def fireWait (s : State) (rid lane : Nat) (vals : List W32) (seen : List Nat := []) : State :=
  { s with
    waits := updWhere (fun w => w.rid == rid && w.lane == lane && w.fired.isNone)
      (fun w => { w with fired := some vals, seen := w.seen ++ seen }) s.waits }

/-- Where a completion sign stands: a place of this module, or an address of another (R288). -/
def signKey (s : State) (pa : Nat) : Nat :=
  if pa / 2 ^ 44 % 1024 == s.node % 1024 then memKey (placeOf s (pa % 2 ^ 44)) else 2 ^ 60 + pa

/-- The copies whose completion a read of n bytes at pa observes. -/
def signOps (s : State) (pa n : Nat) : List Nat :=
  let k := signKey s pa
  (s.signs.filter fun e => decide (e.1 < k + n) && decide (k < e.1 + e.2.1)).map fun e => e.2.2

/-- An awaited event fails: with the address that the trap will name, or with the cause code of a walk (R271, R315,
R436, R446). -/
def failWait (s : State) (rid lane what : Nat) : State :=
  { s with
    waits := updWhere (fun w => w.rid == rid && w.lane == lane && w.fired.isNone)
      (fun w => { w with fired := some [BitVec.ofNat 32 what, BitVec.ofNat 32 (what / 2 ^ 32)], failed := true }) s.waits }

/-- Bytes of the memory table from a local address on; a swizzled address is placed byte by byte (R254). -/
def rawBytes (s : State) (la n : Nat) : List Byte :=
  (List.range n).map fun i => tabGet 0#8 s.mem (memKey (placeOf s (la + i)))

/-- Serve the records waiting on a granule, in the order they began to wait, while its bit is 1 (R257). -/
def feServe (core k : Nat) : List Wait → State → State
  | [], s => s
  | w :: ws, s =>
    if !feBit s core k then s
    else match w.kind, w.fired with
      | .fe pa clr ty count, none =>
        let p := placeOf s pa
        if p.region = .scratch && p.core == core && p.off / 16 == k then
          let s := fireWait s w.rid w.lane (loadImage ty (rawBytes s pa count)) (signOps s pa 1)
          feServe core k ws (if clr then setFe s core k false else s)
        else feServe core k ws s
      | _, _ => feServe core k ws s

/-- Set or clear a granule's bit; a granule that turns full serves its waiters. -/
def feChange (s : State) (core k : Nat) (v : Bool) : State :=
  if v && !feBit s core k then let s := setFe s core k true; feServe core k s.waits s
  else setFe s core k v

/-- A window write of one byte of full-empty bits: granules in increasing order. -/
def fePutByte (s : State) (core byte : Nat) (b : Byte) : State :=
  (List.range 8).foldl (fun s i => feChange s core (8 * byte + i) (bitOf b.toNat i)) s

/-! ## Who may see the pool (R259, R261) -/

/-- First byte of a core's scratchpad tier. -/
def spBase (s : State) (core : Nat) : Nat :=
  0x80000 - 0x4000 * fld (s.dieRegs (core / 64)).poolcfg.toNat 5 0

/-- Base and size of a die's HBM tier. -/
def hbmTier (s : State) (die : Nat) : Nat × Nat :=
  let c := (s.dieRegs die).poolcfg.toNat
  (fld c 43 24 * 2 ^ 20, fld c 23 12 * 2 ^ 20)

/-- A place lies in pool space. -/
def inPool (s : State) (p : Place) : Bool :=
  match p.region with
  | .scratch => spBase s p.core ≤ p.off
  | .hbm => let t := hbmTier s (p.off / 2 ^ 38 % 4); t.1 ≤ p.off && p.off < t.1 + t.2
  | _ => false

/-- The context whose record or save area holds a pool byte. -/
def poolOwner (s : State) (k : Nat) : Option Nat :=
  (s.pool.find? fun e => decide (e.1 ≤ k) && decide (k < e.1 + e.2.1)).map fun e => e.2.2

/-- A program may see this byte. -/
def poolOpen (s : State) (ctx : Nat) (p : Place) : Bool := !inPool s p || poolOwner s (memKey p) == some ctx

/-! ## Pages mapped with two types (R282) -/

/-- Bytes that stores through two types have written read as anything. -/
def mixFree (s : State) (pa : Nat) (bs : List Byte) : List Byte :=
  bs.zipIdx.map fun e =>
    let ts := (s.typed.filter fun t => decide (t.pa ≤ pa + e.2) && decide (pa + e.2 < t.pa + t.bytes)).map fun t => t.memType
    if ts.any fun t => t != ts.headD 0 then (Config.freeBits s.fresh (2 ^ 60 + pa + e.2)).setWidth 8 else e.1

/-! ## Monitors (R284, R310, R311, R327) -/

/-- The condition of a monitor on a word's value. -/
def condHolds (cond : Nat) (signed : Bool) (w v b : Nat) : Bool :=
  let x := if signed then sext w v else (v : Int)
  let y := if signed then sext w b else (b : Int)
  match cond with
  | 0 => v == b
  | 1 => v != b
  | 2 => x < y
  | 3 => x ≤ y
  | 4 => x > y
  | 5 => x ≥ y
  | 6 => v &&& b == b
  | _ => v &&& b != 0

def Monitor.bytes (m : Monitor) : Nat := if m.wide then 8 else 4

/-- The words a satisfied monitor returns. -/
def splitWord (wide : Bool) (v : Nat) : List W32 :=
  if wide then [BitVec.ofNat 32 v, BitVec.ofNat 32 (v / 2 ^ 32)] else [BitVec.ofNat 32 v]

/-- Ports that the route table lists for a node and that are up, in increasing order (R448, R460). -/
def portsTo (s : State) (node : Nat) : List Nat :=
  let e := tabGet 0#64 s.regs.route node
  if e.getLsbD 63 then (List.range 18).filter fun p => e.getLsbD p && s.ports.getD p false else []

/-- The port of a message: for one about a line the port of rank PA[10:7] mod n, else the lowest (R460). -/
def portFor (s : State) (node : Nat) (line : Option Nat) : Option Nat :=
  let ps := portsTo s node
  match line with
  | some pa => ps[fld pa 10 7 % ps.length]?
  | none => ps.head?

/-- Messages that carry no line address: LAUNCH, REC and PART (R441, R460). -/
def lineless (kind : Nat) : Bool := kind == 7 || kind == 8 || kind == 9

/-- Flits of a message (R441). -/
def flitCount (kind : Nat) (m : Msg) : Nat :=
  if kind = 2 || kind = 7 then 3 else if kind = 8 then 1 + (m.data.length + 63) / 64 else if kind = 16 then 2 else 1

/-- A link end sends n flits of the message at a place of `outbox`; its replay buffer keeps the last 256 (R440). -/
def sendFlits (place n : Nat) (t : Nat × List (Nat × Nat × Nat)) : Nat × List (Nat × Nat × Nat) :=
  let all := t.2 ++ (List.range n).map fun i => ((t.1 + i) % 4096, place, i)
  ((t.1 + n) % 4096, all.drop (all.length - 256))

/-- A message leaves by its port; a node without a port gets none (R448). -/
def State.send (s : State) (kind : Nat) (m : Msg) (bare : Bool := false) : State :=
  match portFor s m.dnode (if lineless kind || bare then none else some m.addr) with
  | some p => { s with
      outbox := s.outbox ++ [(p, kind, m)]
      linkTx := updAt p (sendFlits s.outbox.length (flitCount kind m)) s.linkTx }
  | none => s

/-- The time of an own line held only in DRAM: EPOCH + LEASE (R299). -/
def leaseTime (s : State) (la : Nat) : Nat :=
  (s.regs.homes.getD (la / 2 ^ 36 % 16) ⟨0, 0, 0, 0, 0, false⟩).epoch + fld (tabGet 0#32 s.brass (la / 128)).toNat 28 15

/-- The line in its home die's L2. -/
def l2Of (s : State) (la : Nat) : Option L2Line := s.l2.find? fun l => l.line == la / 128 * 128

/-- The write time of an own line, and its largest lease end. -/
def lineWts (s : State) (la : Nat) : Nat := match l2Of s la with | some l => l.wts | none => leaseTime s la
def lineRts (s : State) (la : Nat) : Nat := match l2Of s la with | some l => max l.rts (leaseTime s la) | none => leaseTime s la

/-- MSAT, the answer to another module's registration, with the time of the element that satisfied it (R311, R441). -/
def msatFor (s : State) (m : Msg) (v : Nat) : Msg :=
  { m with snode := s.node, dnode := m.snode, time := max m.time (lineWts s (m.addr % 2 ^ 44)), val := BitVec.ofNat 64 v, data := [] }

/-- One monitor is satisfied by a value: a lane's event fires and a remote one is answered, and both are
removed; a dependence or a wake keeps the value for its own step (R203, R465). -/
def satisfy (s : State) (m : Monitor) (v : Nat) : State :=
  match m.who with
  | .lane rid lane => { fireWait s rid lane (splitWord m.wide v) (signOps s (s.node % 1024 * 2 ^ 44 + m.pa) m.bytes) with mons := s.mons.filter fun x => x.ord != m.ord }
  | .remote q =>
    { s.send 18 (msatFor s q v) with mons := s.mons.filter fun x => x.ord != m.ord }
  | _ => { s with mons := updWhere (fun x => x.ord == m.ord) (fun x => { x with hit := some v }) s.mons }

/-- Evaluate a monitor against memory as it stands, as its context may see it (R261). -/
def tryMonitor (s : State) (m : Monitor) : State :=
  let v := if poolOpen s m.ctx (placeOf s m.pa) then
      bytesToNat (mixFree s (s.node % 1024 * 2 ^ 44 + m.pa) (tabGets 0#8 s.mem m.pa m.bytes)) else 0
  if m.hit.isNone && condHolds m.cond m.signed (8 * m.bytes) v m.cmp then satisfy s m v else s

/-- The home evaluates a write of n bytes at la, monitors in order of registration. -/
def evalMonitors (s : State) (la n : Nat) : State :=
  (s.mons.filter fun m => decide (m.pa < la + n) && decide (la < m.pa + m.bytes)).foldl tryMonitor s

/-- The L2 slice of a line, numbered over the module (R258). -/
def sliceOf (la : Nat) : Nat := Nat.xor (Nat.xor (fld la 11 7) (fld la 16 12)) (fld la 21 17) + 32 * (la / 2 ^ 38 % 4)

/-- The bucket in which a die counts a spilled monitor (R310); the hash is not given (log entry 115). -/
def bucketOf (la : Nat) : Nat := Config.monHash (la / 128) % 4096

/-- Spilled monitors that a die counts in a bucket (R310). -/
def spillCount (s : State) (die bucket : Nat) : Nat :=
  (s.mons.filter fun m => m.spilled && m.pa / 2 ^ 38 % 4 == die && bucketOf m.pa == bucket).length

/-- The brass bits of a line: MSIDE. -/
def msideOf (s : State) (la : Nat) : Bool := (tabGet 0#32 s.brass (la / 128)).getLsbD 29

/-- A monitor is registered on a word of the line. -/
def monitored (s : State) (la : Nat) : Bool := s.mons.any fun q => q.pa / 128 == la / 128

/-- Register a monitor at its word's home and evaluate it, in a free entry of its slice or, when there is none, in the spill table; a
memory-side line's is held at the base die. The L1 copies in state M, O or E are recalled first (R310). -/
def addMonitor (s : State) (m : Monitor) : State :=
  let held := (s.mons.filter fun x => !x.spilled && sliceOf x.pa == sliceOf m.pa && !msideOf s x.pa).length
  let m := { m with spilled := !msideOf s m.pa && decide (2048 ≤ held) }
  let line := (s.node % 1024 * 2 ^ 44 + m.pa) / 128 * 128
  tryMonitor { s with nextId := s.nextId + 1, mons := s.mons ++ [m], l1 := s.l1.filter fun c => !(c.line == line && c.st != .s) } m

/-! ## The operand buffer and the recoder (R336–R343) -/

def opKey (core off : Nat) : Nat := core * 2 ^ 20 + off

/-- Block length of a reservation; 32 when unscaled (R335, R337). -/
def Resv.lr (r : Resv) : Nat := if r.lblk = 0 then 32 else lblkOf r.lblk

/-- Bytes of one block of the logical image; NX blocks carry their scale (R32, R338). -/
def Resv.blockBytes (r : Resv) : Nat :=
  if r.sfmt = 3 then 2 + packedBytes r.fmt 16 else packedBytes r.fmt r.lr

/-- A 6-bit element format keeps a raw row (R340). -/
def Resv.raw (r : Resv) : Nat := if elemBits r.fmt = 6 then 1 else 0

/-- S of R340: bytes of one K-block of the stored image. -/
def Resv.stored (r : Resv) : Nat := (if r.sfmt = 3 then 128 else 0) + 256 + r.lr * 128 * (r.cap + r.raw)

/-- K-blocks that fit below SOFF (R339). -/
def Resv.nk (r : Resv) : Nat :=
  if r.wside then min (r.soff / (128 * r.blockBytes)) (r.soff / r.stored) else r.soff / (128 * r.blockBytes)

/-- Code and micro-exponent of the elements of logical block b, from the block's bytes. -/
def blockCodes (r : Resv) (bs : List Byte) : List (Nat × Nat) :=
  let body := if r.sfmt = 3 then bs.drop 2 else bs
  let micro := if r.sfmt = 3 then (bs.getD 1 0).toNat else 0
  (List.range (if r.sfmt = 3 then 16 else r.lr)).map fun i =>
    let (o, n, bit) := elemPlace r.fmt i
    (bytesToNat ((body.drop o).take n) / 2 ^ bit % 2 ^ elemBits r.fmt, if bitOf micro (i / 2) then 1 else 0)

/-- The bytes of logical block b (R338). -/
def logicBlock (s : State) (core : Nat) (r : Resv) (b : Nat) : List Byte :=
  tabGets 0#8 s.opLogic (opKey core (r.base + b * r.blockBytes)) r.blockBytes

/-- The block's elements as recoded (R341). -/
def recodedBlock (s : State) (core : Nat) (r : Resv) (b : Nat) : List Recoded :=
  (blockCodes r (logicBlock s core r b)).map fun c => recode r.fmt r.cap c.2 c.1

/-- Window offset in the operand buffer as a key of the memory table. -/
def opMem (core off : Nat) : Nat := windowBase core + 0x200000 + off

/-- Store the planes of one block of the stored image (R340–R342). -/
def recodeBlock (s : State) (core : Nat) (r : Resv) (b : Nat) : State :=
  let bs := logicBlock s core r b
  let codes := blockCodes r bs
  let rec0 := codes.map fun c => recode r.fmt r.cap c.2 c.1
  let ovr := overrange rec0
  let base := basePower rec0
  let kb := b / 128
  let j := b % 128
  let nx := if r.sfmt = 3 then 128 else 0
  let o := r.base + kb * r.stored
  let put := fun (m : List Host.Cell) (off : Nat) (v : Byte) => tabPut 0#8 m (opMem core off) v
  let m := if r.sfmt = 3 then put s.mem (o + j) (bs.getD 0 0) else s.mem
  let m := put (put m (o + nx + 2 * j) ((base16 base).getD 0 0)) (o + nx + 2 * j + 1) ((base16 base).getD 1 0)
  let m := (List.range codes.length).foldl (fun m k =>
    let row := o + nx + 256 + k * 128 * (r.cap + r.raw)
    let m := if r.raw = 1 then put m (row + j) (BitVec.ofNat 8 (codes.getD k (0, 0)).1) else m
    let es := if ovr then List.replicate r.cap 0 else planeEntries r.cap base (rec0.getD k (.terms []))
    (List.range r.cap).foldl (fun m p => put m (row + 128 * r.raw + 128 * p + j) (es.getD p 0)) m) m
  { s with mem := m }

/-- Some block of the reservation is overrange. -/
def anyOverrange (s : State) (core : Nat) (r : Resv) : Bool :=
  r.fmt == 12 && (List.range (128 * r.nk)).any fun b => overrange (recodedBlock s core r b)

/-- The valid reservation whose range holds an offset, with its number. -/
def resvAt (s : State) (core off : Nat) : Option (Nat × Resv) :=
  (s.core core).resvs.zipIdx.findSome? fun e =>
    if e.1.valid && e.1.base ≤ off && off < e.1.base + 128 * e.1.len then some (e.2, e.1) else none

/-- Operations that still read a reservation: issued, not complete (R289, R354). -/
def opsReading (s : State) (core ri : Nat) : List EngineOp :=
  s.ops.filter fun o => o.kind == .mxissue && o.core == core && (o.args.take 2).contains ri

/-- Operations in flight on an accumulator slot. -/
def opsOnSlot (s : State) (core slot : Nat) : List EngineOp :=
  s.ops.filter fun o => (o.kind == .mxissue || o.kind == .mxdrain) && o.core == core && o.slot == slot

/-- The bytes of an operand range, or of a slot in use by an operation or free (R289, R387), that an access now
would find unpredictable. -/
def opUnknown (s : State) (p : Place) : Bool :=
  match p.region with
  | .opbuf =>
    (match resvAt s p.core p.off with
     | some (ri, _) => !(opsReading s p.core ri).isEmpty
     | none => false) ||
    s.opSpoilt.any fun e =>
      decide (e.1 ≤ opKey p.core p.off) && decide (opKey p.core p.off < e.2.1) &&
      decide (tabGet 0 s.opStamp (opKey p.core p.off) ≤ e.2.2)
  | .acc => !(opsOnSlot s p.core (p.off / 0x28000)).isEmpty || !(s.core p.core).slots.getD (p.off / 0x28000) false
  | _ => false

/-- A thread write into a range or slot an operation uses spoils both (R289). -/
def spoilOps (s : State) (p : Place) : State :=
  match p.region with
  | .opbuf =>
    match resvAt s p.core p.off with
    | some (ri, r) =>
      if (opsReading s p.core ri).isEmpty then s
      else { s with ops := updAll (fun o => o.kind == .mxissue && o.core == p.core && (o.args.take 2).contains ri)
                      (fun o => { o with spoilt := true }) s.ops,
                    opSpoilt := s.opSpoilt ++ [(opKey p.core r.base, opKey p.core (r.base + 128 * r.len), s.tick)] }
    | none => s
  | .acc =>
    { s with ops := updAll (fun o => (o.kind == .mxissue || o.kind == .mxdrain) && o.core == p.core &&
        o.slot == p.off / 0x28000) (fun o => { o with spoilt := true }) s.ops }
  | _ => s

/-- A write of bytes into the operand buffer: through the recoder in the element region of a term-side
reservation, else as written (R338, R340, R341). -/
def opWrite (s : State) (core off : Nat) (bs : List Byte) : State :=
  let s := { s with
    opStamp := tabPuts 0 s.opStamp (opKey core off) (bs.map fun _ => s.tick), opBy := tabPuts 0 s.opBy (opKey core off) (bs.map fun _ => 0) }
  match resvAt s core off with
  | some (ri, r) =>
    if r.wside && off < r.base + r.soff then
      let lo := off - r.base
      let room := r.nk * 128 * r.blockBytes
      let kept := bs.take (room - lo)
      if kept.isEmpty then s
      else
        let s := { s with opLogic := tabPuts 0#8 s.opLogic (opKey core off) kept }
        let b0 := lo / r.blockBytes
        let b1 := (lo + kept.length - 1) / r.blockBytes
        let s := (List.range (b1 + 1 - b0)).foldl (fun s i => recodeBlock s core r (b0 + i)) s
        let ovr := (List.range (b1 + 1 - b0)).any fun i => overrange (recodedBlock s core r (b0 + i))
        let ovr := ovr || (r.ovr && anyOverrange s core r)
        s.setCore core fun k => { k with resvs := updAt ri (fun r => { r with ovr := ovr }) k.resvs }
    else { s with mem := tabPuts 0#8 s.mem (opMem core off) bs }
  | none => { s with mem := tabPuts 0#8 s.mem (opMem core off) bs }

/-! ## Bytes of the local map -/

/-- A byte of the local map, as a read finds it. -/
def readByte (s : State) (la : Nat) : Byte :=
  let p := placeOf s la
  match p.region with
  | .rf => rfByte s p.core p.off
  | .ctl => BitVec.ofNat 8 (ctlWord s p.core (p.off / 8 * 8) / 2 ^ (8 * (p.off % 8)))
  | .dev => BitVec.ofNat 8 (readReg s (p.off / 8 * 8) / 2 ^ (8 * (p.off % 8)))
  | .absent => 0
  | _ =>
    if opUnknown s p then (Config.freeBits s.fresh la).setWidth 8 else tabGet 0#8 s.mem (memKey p)

def readBytes (s : State) (la : Nat) : Nat → List Byte
  | 0 => []
  | n + 1 => readByte s la :: readBytes s (la + 1) n

/-- A number of n bytes (R5). -/
def readNat (s : State) (la n : Nat) : Nat := bytesToNat (readBytes s la n)

/-- The number that the next store to code words takes (R73). -/
def codeOrd (s : State) : Nat := (s.stale.getLast?.map fun e => e.2.2).getD 0 + 1

/-- The old words that a write of HBM to `mem` changes, which clause fetch may still see (R73). -/
def staleWords (s : State) (mem : List Host.Cell) (la n : Nat) : List (Nat × W64 × Nat) :=
  let word := fun (m : List Host.Cell) (i : Nat) => BitVec.ofNat 64 (bytesToNat (tabGets 0#8 m (8 * (la / 8 + i)) 8))
  ((List.range ((la + n - 1) / 8 + 1 - la / 8)).filter fun i => word s.mem i != word mem i).map fun i =>
    (8 * (la / 8 + i), word s.mem i, codeOrd s)

/-- Write bytes at one place of the local map; device registers have steps of their own and are not
written here. -/
def writeBytes (s : State) (la : Nat) (bs : List Byte) : State :=
  let p := placeOf s la
  match p.region with
  | .hbm =>
    if bs.isEmpty then s
    else
      let mem := tabPuts 0#8 s.mem la bs
      evalMonitors { s with mem := mem, stale := s.stale ++ staleWords s mem la bs.length } la bs.length
  | .rf => bs.zipIdx.foldl (fun s e => rfWindowPut s p.core (p.off + e.2) e.1) s
  | .fe => bs.zipIdx.foldl (fun s e => fePutByte s p.core (p.off + e.2) e.1) s
  | .scratch => { s with mem := bs.zipIdx.foldl (fun m e => tabPut 0#8 m (memKey (placeOf s (la + e.2))) e.1) s.mem }
  | .opbuf => opWrite s p.core p.off bs
  | .acc => { s with mem := tabPuts 0#8 s.mem (memKey p) bs }
  | _ => s

/-! ## The pool (R259–R261, R168) -/

/-- A program's or engine's read. -/
def accRead (s : State) (ctx la n : Nat) : List Byte :=
  if poolOpen s ctx (placeOf s la) then readBytes s la n else List.replicate n 0

/-- A write into a record the part holds for other than a trap makes its registers unpredictable, and one into a save
area what it holds (R168, R195). -/
def tamper (s : State) (p : Place) : State :=
  if inPool s p then
    { s with
      spoiltSaves := s.spoiltSaves ++ ((s.pool.filter fun e => decide (e.1 ≤ memKey p) && decide (memKey p < e.1 + e.2.1) &&
        !(s.recs.any fun r => r.pa == e.1) && !s.spoiltSaves.contains e.1).map fun e => e.1)
      recs := updAll (fun r => r.trap.isNone && decide (r.pa ≤ memKey p) && decide (memKey p < r.pa + r.size))
        (fun r => { r with tampered := true }) s.recs }
  else s

/-- A program's or engine's write, ignored where R261 says so: a thread's being one that R289 speaks of, any into a slot one that R354
does. -/
def accWrite (s : State) (ctx la : Nat) (bs : List Byte) (thread : Bool := false) : State :=
  let p := placeOf s la
  if poolOpen s ctx p then writeBytes (tamper (if thread || p.region == .acc then spoilOps s p else s) p) la bs else s

/-! ## Logical time and DRAM lines (R299–R304, R314, R315) -/

def brassLease (b : BitVec 32) : Nat := fld b.toNat 28 15
def setLease (b : BitVec 32) (v : Nat) : BitVec 32 :=
  BitVec.ofNat 32 (b.toNat - brassLease b * 2 ^ 15 + v % 2 ^ 14 * 2 ^ 15)

/-- The home of a line has granted or stored a time (R300). -/
def noteHclk (s : State) (la t : Nat) : State :=
  { s with regs := { s.regs with homes := updAt (la / 2 ^ 36 % 16) (fun h => { h with hclk := max h.hclk t }) s.regs.homes } }

/-- Store a time in a line's LEASE, rebasing the home first when it does not fit (R304). -/
def storeTime (s : State) (la t : Nat) : State :=
  let st := la / 2 ^ 36 % 16
  let h := s.regs.homes.getD st ⟨0, 0, 0, 0, 0, false⟩
  let epoch := if h.epoch + 0x3fff < t then t - 0x3fff else h.epoch
  let lease := t - epoch
  { s with brass := tabPut 0#32 s.brass (la / 128) (setLease (tabGet 0#32 s.brass (la / 128)) lease),
           regs := { s.regs with homes := updAt st (fun h => { h with epoch := epoch, hclk := max h.hclk t }) s.regs.homes } }

/-- The home die's L2 holds a line with these times; the home has granted them. -/
def setL2 (s : State) (la wts rts : Nat) : State :=
  let bad := match l2Of s la with | some l => l.bad | none => false
  noteHclk { s with l2 := (s.l2.filter fun l => l.line != la / 128 * 128) ++ [⟨la / 128 * 128, wts, rts, bad⟩] } la (max wts rts)

/-- The L2 gives a line up: its lease end is kept in LEASE (R299, R306). -/
def dropL2 (s : State) (la : Nat) : State :=
  match l2Of s la with
  | some _ =>
    let t := lineRts s la
    storeTime { s with l2 := s.l2.filter fun l => l.line != la / 128 * 128 } la t
  | none => s

/-! ### L1 copies and their directory (R297) -/

/-- A core's L1 copy of a line, by physical address. -/
def l1At (s : State) (core pa : Nat) : Option L1Copy := s.l1.find? fun c => c.core == core && c.line == pa / 128 * 128

/-- A slice may invalidate a shared copy early: whether it does is free (R297). -/
def l1Early (s : State) (c : L1Copy) : Bool := (Config.freeBits s.fresh (2 ^ 62 + c.core * 2 ^ 54 + c.line)).getLsbD 0

/-- What an access of another agent leaves of a copy: a write recalls the copies in state M, O or E, and may
invalidate one in state S early; a read leaves the owner its copy, shared. -/
def l1After (s : State) (write : Bool) (c : L1Copy) : Option L1Copy :=
  match c.st with
  | .s => if write && l1Early s c then none else some c
  | .e => if write then none else some { c with st := .s }
  | _ => if write then none else some { c with st := .o }

/-- The copies of a line, but the accessing core's own, as such an access leaves them. -/
def l1Settle (s : State) (core : Option Nat) (pa : Nat) (write : Bool) : State :=
  { s with l1 := s.l1.filterMap fun c =>
      if c.line == pa / 128 * 128 && some c.core != core then l1After s write c else some c }

/-- The largest lease end among the copies of a line that read without a lease: those of its owner. -/
def l1Rts (s : State) (pa : Nat) : Nat :=
  (s.l1.filter fun c => c.line == pa / 128 * 128 && c.st != .s).foldl (fun t c => max t c.rts) 0

/-- Every copy of a line in the L1s of these cores is gone. -/
def dropL1 (s : State) (pa : Nat) (p : Nat → Bool) : State :=
  { s with l1 := s.l1.filter fun c => !(c.line == pa / 128 * 128 && p c.core) }

/-- The directory entry of a line at the L2 slice of a die (R297): the states of its L1 copies, the presence vector, and
the core that owns it. -/
structure DirEntry where
  states : List (Nat × Moesi)
  presence : BitVec 256
  owner : Option Nat
  deriving DecidableEq, Repr

def dirEntry (s : State) (pa : Nat) (p : Nat → Bool) : DirEntry :=
  let cs := s.l1.filter fun c => c.line == pa / 128 * 128 && p c.core
  { states := cs.map fun c => (c.core, c.st)
    presence := cs.foldl (fun v c => v ||| (1#256 <<< c.core)) 0#256
    owner := (cs.find? fun c => c.st != .s).map fun c => c.core }

/-! ### Errors that a read corrects (R313, R314) -/

/-- Lines that n bytes at la touch. -/
def lineNumbers (la n : Nat) : List Nat := if n = 0 then [] else (List.range ((la + n - 1) / 128 + 1 - la / 128)).map fun i => la / 128 + i

/-- A read of own lines corrects what it can: the corrected line is written back, and counted (R314). -/
def scrub (s : State) (la n : Nat) : State :=
  (lineNumbers la n).foldl (fun s l =>
    if !s.correctable.contains l then s
    else { s with
      correctable := s.correctable.filter fun x => x != l
      regs := if 2 ^ 33 ≤ l then s.regs else
        { s.regs with homes := updAt (l * 128 / 2 ^ 36 % 16) (fun h => { h with cecnt := min (h.cecnt + 1) (2 ^ 32 - 1) }) s.regs.homes } }) s

/-! ### The timestamp of an access -/

/-- An agent's access to an own line of HBM takes its timestamp (R300) from the agent's clock `pts` and the line's times:
the agent's new clock. The L2 keeps the times; a memory-side line has that of its last write in LEASE (R308). An
access to a window of a core, or to the device registers, comes after the one before it there (R274). -/
def touchBy (s : State) (pts la : Nat) (write : Bool) (core : Option Nat := none) : State × Nat :=
  let p := placeOf s la
  let s := scrub s la 1
  match p.region with
  | .hbm =>
    let pa := s.node % 1024 * 2 ^ 44 + la
    let wts := lineWts s la
    let rts := max (lineRts s la) (l1Rts s pa)
    let s := l1Settle s core pa write
    if write then
      let ts := max pts (rts + 1)
      let s := setL2 s la ts ts
      (if (tabGet 0#32 s.brass (la / 128)).getLsbD 29 then storeTime s la ts else s, ts)
    else
      let ts := max pts (wts + 1)
      let rts := if pts ≤ rts && wts < rts then rts else max rts (max (pts + 64) (wts + 65))
      (setL2 s la wts (max rts ts), ts)
  | .absent => (s, pts)
  | .dev =>
    let ts := max pts (s.devPts + 1)
    ({ s with devPts := ts }, ts)
  | _ =>
    let ts := max pts ((s.core p.core).wpts + 1)
    (s.setCore p.core fun k => { k with wpts := ts }, ts)

/-- The same for a core; a write leaves no copy in its own L1 but the one it then fills. -/
def touchLine (s : State) (core la : Nat) (write : Bool) : State :=
  let r := touchBy s (s.core core).pts la write (if write then none else some core)
  let s := if write then dropL1 r.1 (s.node % 1024 * 2 ^ 44 + la) fun c => c == core else r.1
  s.setCore core fun k => { k with pts := max k.pts r.2 }

/-- The largest clock of any agent of the module, and the largest time it has heard of (R299, R302). -/
def State.latest (s : State) : Nat :=
  (s.cores.map (fun k => max k.pts k.wpts) ++ s.regs.homes.map (fun h => h.hclk) ++ s.ops.map (fun o => o.pts) ++ s.walkPts ++
    [s.frontPts, s.devPts, s.heard]).foldl max 0

/-- A time has reached the module. -/
def State.hear (s : State) (t : Nat) : State := { s with heard := max s.heard t }

/-- An ordering link that is not an access raises the receiving core's clock beyond the carried time (R302): the
model takes the largest time of the module (log entry 12). -/
def State.link (s : State) (core : Nat) : State :=
  s.setCore core fun k => { k with pts := max k.pts (s.latest + 1) }

/-- The metadata of an own line is bad: a reserved STATE or a reserved bit (R296). -/
def brassBad (s : State) (line : Nat) : Bool :=
  let b := (tabGet 0#32 s.brass line).toNat
  5 ≤ b % 8 || b / 2 ^ 30 != 0

/-- A line or array word, or the L2's copy of it, cannot be read (R296, R313, R315). -/
def lineBad (s : State) (la n : Nat) : Bool :=
  (lineNumbers la n).any fun l => s.poisoned.contains l || brassBad s l || s.l2.any fun x => x.bad && x.line / 128 == l

/-- A context as the part holds it. -/
def State.context (s : State) (c : Nat) : Option Context := s.contexts.find? fun x => x.ctx == c

/-- What a fault-queue entry reports (R417). -/
structure Report where
  cause : Nat
  kind : Nat
  nohandler : Bool := false
  lanes : Nat := 0
  ctx : Nat := 0
  pc : Nat := 0
  addr : Nat := 0
  ident : Nat := 0
  attr : Nat := 0
  loc : Nat := 0
  deriving DecidableEq, Repr

/-- The sequence number the next report to a queue takes (R417). -/
def nextSeq (s : State) : Option Nat → Nat
  | none => s.fwFaultSeq + 1
  | some c => match s.context c with | some x => x.fqseq + 1 | none => 1

/-- Report an entry to a context's fault queue, or to firmware's (none); it is written by a step of its own
(R416). -/
def report (s : State) (q : Option Nat) (die : Nat) (rid handle : Option Nat) (r : Report) : State :=
  let seq := nextSeq s q
  let w : List Nat :=
    [r.cause * 2 ^ 58 + r.kind * 2 ^ 54 + b2n r.nohandler * 2 ^ 53 + r.lanes % 16 * 2 ^ 49 + r.ctx % 2 ^ 16, r.pc, r.addr,
     r.ident, r.attr % 2 ^ 64, r.attr / 2 ^ 64 % 2 ^ 32 + r.loc % 2 ^ 32 * 2 ^ 32, s.regs.devtime, seq]
  let place := match q with
    | none => (s.regs.fwfq.toNat % 2 ^ 54, fld s.regs.fwfq.toNat 63 54)
    | some c => match s.context c with
      | some x => ((x.words.getD 3 0).toNat % 2 ^ 54, fld (x.words.getD 4 0).toNat 4 0)
      | none => (0, 0)
  let s := { s with faults := s.faults ++ [FaultEntry.mk q place.1 place.2 die (w.map (BitVec.ofNat 64)) rid handle []] }
  match q with
  | none => { s with fwFaultSeq := seq }
  | some c => { s with contexts := updWhere (fun x => x.ctx == c) (fun x => { x with fqseq := seq }) s.contexts }

/-- An uncorrectable read is counted, recorded and reported to firmware (R315, R417, R418). -/
def noteUncorrectable (s : State) (la : Nat) : State :=
  let st := la / 2 ^ 36 % 16
  let s := { s with regs := { s.regs with homes := updAt st (fun h =>
             { h with uecnt := min (h.uecnt + 1) (2 ^ 32 - 1),
                      ueLine := s.node % 1024 * 2 ^ 37 + la / 128, ueValid := true }) s.regs.homes } }
  report s none (st / 4) none none { cause := 14, kind := 3, addr := s.node % 1024 * 2 ^ 44 + la / 128 * 128 }

end Sys2Proof.Machine
end

