-- ==== Sys2Proof/Machine/Lines.lean ====
section
/-! DEFINITION. Physical addresses of the whole domain (R247): lines of other modules as copies in a die's
L2 (R258, R298, R300), lines of this module that another owns (R296, R305), and the requests either needs
(R443–R446). -/

namespace Sys2Proof.Machine

def nodeOf (pa : Nat) : Nat := pa / 2 ^ 44 % 1024
def localOf (pa : Nat) : Nat := pa % 2 ^ 44
def lineOf (pa : Nat) : Nat := pa / 128 * 128

/-- The address is the module's own. -/
def isOwn (s : State) (pa : Nat) : Bool := nodeOf pa == s.node % 1024

/-- Physical address of a local one. -/
def ownPa (s : State) (la : Nat) : Nat := s.node % 1024 * 2 ^ 44 + la

/-- An address of HBM of some module. -/
def isHbm (pa : Nat) : Bool := localOf pa < 0x10000000000

/-- STATE, ODIE and ONODE of the brass bits (R295). -/
def brassState (b : BitVec 32) : Nat := fld b.toNat 2 0
def brassDie (b : BitVec 32) : Nat := fld b.toNat 4 3
def brassNode (b : BitVec 32) : Nat := fld b.toNat 14 5
def brassOf (s : State) (la : Nat) : BitVec 32 := tabGet 0#32 s.brass (la / 128)

/-- The brass bits with a new STATE and owner. -/
def withOwner (b : BitVec 32) (st node die : Nat) : BitVec 32 :=
  BitVec.ofNat 32 (b.toNat / 2 ^ 15 * 2 ^ 15 + node % 1024 * 32 + die % 4 * 8 + st % 8)
def setBrass (s : State) (la : Nat) (b : BitVec 32) : State := { s with brass := tabPut 0#32 s.brass (la / 128) b }

/-- A die's copy of another module's line. -/
def copyAt (s : State) (die pa : Nat) : Option LineCopy :=
  s.copies.find? fun c => c.die == die && c.pa == lineOf pa

/-- STATE says that a copy outside the module holds the line (R296). -/
def heldOutside (s : State) (la : Nat) : Bool := 2 ≤ brassState (brassOf s la) && brassState (brassOf s la) ≤ 4

/-- The die whose L2 serves a line to a die of this module: the home die for an own one (R298). -/
def homeDie (s : State) (die pa : Nat) : Nat := if isOwn s pa then localOf pa / 2 ^ 38 % 4 else die

/-- The leased or owned copy that serves a die's accesses to a line: of another module's line; of an own one while it is
owned outside. -/
def heldCopy (s : State) (die pa : Nat) : Option LineCopy :=
  if isOwn s pa && !(isHbm pa && heldOutside s (localOf pa)) then none else copyAt s (homeDie s die pa) pa

/-- Whether an access finds its line: in this module, not owned outside; else as a copy with a lease that reaches `pts`, or
owned when `excl`. Writes to another module's windows travel as messages and need no line. -/
def lineHere (s : State) (die pts pa : Nat) (excl : Bool) : Bool :=
  if isOwn s pa && !(isHbm pa && heldOutside s (localOf pa)) then true
  else if excl && !isHbm pa then true
  else match heldCopy s die pa with
    | some c => c.excl || (!excl && (c.owned || decide (pts ≤ c.rts)))
    | none => false

/-- n bytes of a line as a die would read them cannot be read: in memory or in the copy it holds (R313, R315). -/
def badAt (s : State) (die pa n : Nat) : Bool :=
  match heldCopy s die pa with
  | some c => c.bad
  | none => isOwn s pa && lineBad s (localOf pa) n

/-- The report of such a read: an own line's is counted at its home; of another module's, held here, no home is (log entry 135). -/
def noteBad (s : State) (die pa : Nat) : State :=
  if isOwn s pa then noteUncorrectable s (localOf pa)
  else report s none die none none { cause := 14, kind := 3, addr := lineOf pa }

/-- A read of own bytes corrects what it can (R314). -/
def scrubAt (s : State) (pa n : Nat) : State := if isOwn s pa then scrub s (localOf pa) n else s

/-- Identity of a requester in the acknowledgement counts and the failure marks. -/
def whoKey : ReqFor → Nat
  | .core c => c
  | .engine op => 2 ^ 40 + op
  | .front => 2 ^ 39
  | .record rid => 2 ^ 41 + rid
  | .monitor rid lane => 2 ^ 42 + 4 * rid + lane
  | .walk id => 2 ^ 43 + id
  | .dep lid i => 2 ^ 44 + 4 * lid + i
  | .wake q => 2 ^ 45 + q
  | .home st => 2 ^ 46 + st

/-- Unit number of a requester in the flit control (R439); one that takes an engine slot is known by it once injected. -/
def unitOf : ReqFor → Nat
  | .core c => c % 64
  | .engine op => 0x40 + op % 32
  | .walk id => 0x40 + id % 32
  | .front => 0x60
  | .home st => 0x64 + st % 4
  | _ => 0x60

/-- The route table reaches a node (R448). -/
def reachable (s : State) (node : Nat) : Bool := !(portsTo s node).isEmpty

/-- A request message of this module. -/
def mkMsg (s : State) (die : Nat) (who : ReqFor) (node tag time addr : Nat) : Msg where
  snode := s.node % 1024
  dnode := node
  sdie := die
  sunit := unitOf who
  slot := 0
  tag := tag
  time := time
  rts := 0
  addr := addr
  arg := 0
  val := 0
  val2 := 0
  mask := []
  data := []

/-- Ask for a line: RD (0) or RDX (1) at another module's home, FWQ (6) at the owner of a line of this one. A
request for a line already in flight joins it; FWQ carries how the line is wanted, the owner's die, and the requester
with its tag; one that cannot be routed fails at once. For a shared request the owner outside keeps the line and supplies
it, else it hands it over. An expand unit says with 4 that it wants a save area. -/
def requestLine (s : State) (die : Nat) (who : ReqFor) (pts pa : Nat) (excl : Bool) (by_ : Nat := 0) : State :=
  let line := lineOf pa
  let own := isOwn s pa
  let b := brassOf s (localOf line)
  let node := if own then brassNode b else nodeOf pa
  let kind := if own then 6 else if excl then 1 else 0
  if s.reqs.any fun r => r.die == die && r.pa == line && !r.direct && (r.kind == kind || r.kind == 1) then s
  else if own && s.reqs.any fun r => r.kind == 6 && r.pa == line then s
  else if !reachable s node then { s with failedPa := s.failedPa ++ [(whoKey who, line)] }
  else
    let m := { mkMsg s die who node s.nextId pts line with
      sdie := if own then localOf pa / 2 ^ 38 % 4 else die
      sunit := if own then 0x64 + localOf pa / 2 ^ 36 % 4 else unitOf who
      arg := if own then b2n excl + 4 * brassDie b else (match who with | .engine op => if 2 ^ 20 ≤ op then 4 else 0 | _ => 0)
      val := BitVec.ofNat 64 (s.node % 1024), val2 := BitVec.ofNat 64 s.nextId }
    { s with nextId := s.nextId + 1, reqs := s.reqs ++ [⟨s.nextId, die, who, kind, node, line, none, none, m, false, by_⟩] }

/-- An agent asks for a line; behind requests that wait at the home of a line of this module it asks afterwards (R305). -/
def askLine (s : State) (die : Nat) (who : ReqFor) (pts pa : Nat) (excl : Bool) (by_ : Nat := 0) : State :=
  if isOwn s pa && s.homeQ.any fun i => i.line == lineOf pa then s else requestLine s die who pts pa excl by_

/-- A request of this requester for the line failed, and the failure has not been taken yet (R446). -/
def lineFailed (s : State) (who : ReqFor) (pa : Nat) : Bool := s.failedPa.contains (whoKey who, lineOf pa)
def clearFailed (s : State) (who : ReqFor) (pas : List Nat) : State :=
  { s with failedPa := s.failedPa.filter fun e => !(e.1 == whoKey who && pas.any fun p => lineOf p == e.2) }

/-- Tags of requests that take no slot. -/
def postTag (id : Nat) : Nat := 2 ^ 50 + id

/-- Writes of a core that travel and are not acknowledged. -/
def inFlight (s : State) (core : Nat) : Nat :=
  (s.posts.filter fun p => p.who == .core core && p.held.isNone && p.node != s.node % 1024).length

/-- Send a request that takes no slot: one unacknowledged write more; behind 256 of a core it is held back (R443). One for a line of this module whose owner
is outside waits at its own home, which recalls the line (R305). -/
def postMsg (s : State) (who : ReqFor) (kind : Nat) (m : Msg) (src : List Src := []) (sig : Option (Nat × Nat × Nat) := none)
    (dirty : Option Nat := none) : State :=
  let m := { m with tag := postTag s.nextId }
  let held := match who with | .core c => m.dnode != s.node % 1024 && decide (256 ≤ inFlight s c) | _ => false
  let post : Post := ⟨s.nextId, kind, m.dnode, m.addr, who, s.clk, src, sig, dirty, if held then some m else none, m.arg⟩
  let s := { s with
    nextId := s.nextId + 1, acks := tabPut 0 s.acks (whoKey who) (tabGet 0 s.acks (whoKey who) + 1), posts := s.posts ++ [post] }
  if m.dnode = s.node % 1024 then
    let stack := localOf m.addr / 2 ^ 36 % 16
    let s := if heldOutside s (localOf m.addr) then askLine s (stack / 4) (.home stack) m.time m.addr true else s
    { s with nextId := s.nextId + 1, homeQ := s.homeQ ++ [⟨s.nextId, lineOf m.addr, kind, m, false, s.clk⟩] }
  else if held then s
  else s.send kind m

/-- A write of the bytes at pa, as a masked line write (WR, R441). -/
def maskedWrite (m : Msg) (pa : Nat) (bs : List Byte) : Msg :=
  let off := pa % 128
  { m with
    addr := lineOf pa
    mask := (List.range 128).map fun i => decide (off ≤ i) && decide (i < off + bs.length)
    data := List.replicate off 0 ++ bs ++ List.replicate (128 - off - bs.length) 0 }

/-- Several writes of one line, in order, as one masked line write (R443). -/
def maskedLine (m : Msg) (line : Nat) (ws : List (Nat × List Byte)) : Msg :=
  { m with
    addr := line
    mask := (List.range 128).map fun i => ws.any fun w => decide (w.1 % 128 ≤ i) && decide (i < w.1 % 128 + w.2.length)
    data := ws.foldl (fun d w => d.take (w.1 % 128) ++ w.2 ++ d.drop (w.1 % 128 + w.2.length)) (List.replicate 128 0) }

/-- Bytes of one line, found by `lineHere`, as the part holds them. -/
def lineBytes (s : State) (die pa n : Nat) : List Byte :=
  match heldCopy s die pa with
  | some c => (c.data.drop (pa % 128)).take n
  | none => if isOwn s pa then readBytes s (localOf pa) n else List.replicate n 0

/-- Read n bytes of one line, found by `lineHere`; a program's view of pool space (R261). -/
def readAt (s : State) (die ctx pa n : Nat) : List Byte :=
  if isOwn s pa && (heldCopy s die pa).isNone then accRead s ctx (localOf pa) n else lineBytes s die pa n

/-- Put bytes into a line's data. -/
def patch (data : List Byte) (off : Nat) (bs : List Byte) : List Byte :=
  data.take off ++ bs ++ data.drop (off + bs.length)

/-- The copies of a line in a die's L2, changed. -/
def updCopy (s : State) (die pa : Nat) (h : LineCopy → LineCopy) : State :=
  { s with copies := updWhere (fun x => x.die == die && x.pa == lineOf pa) h s.copies }

/-- An agent's read of a line found by `lineHere` takes its timestamp (R300): the agent's new clock. An owner
renews its own lease. -/
def readStamp (s : State) (die pts pa : Nat) (core : Option Nat := none) : State × Nat :=
  match heldCopy s die pa with
  | some c =>
    let s := l1Settle s core pa false
    let s := if c.owned && decide (c.rts < pts) then updCopy s c.die pa fun x => { x with rts := max (pts + 64) (x.wts + 65) } else s
    (s, max pts (c.wts + 1))
  | none => if isOwn s pa then touchBy s pts (localOf pa) false core else (s, pts)

/-- A core's read. -/
def stampRead (s : State) (core pa : Nat) : State :=
  let r := readStamp s (core / 64) (s.core core).pts pa (some core)
  r.1.setCore core fun k => { k with pts := max k.pts r.2 }

/-- A write into the copy that a die owns takes its timestamp (R300): beyond every lease of it. -/
def ownedWrite (s : State) (c : LineCopy) (pts pa : Nat) (bs : List Byte) : State × Nat :=
  let ts := max pts (max c.rts (l1Rts s pa) + 1)
  (updCopy (l1Settle s none pa true) c.die pa fun x => { x with wts := ts, rts := ts, clean := false, data := patch x.data (pa % 128) bs }, ts)

/-- Write bytes of one line by a core: here; into the copy the die owns, with its timestamp (R300); or as a
message to another module's window (WRP, R441). -/
def writeAt (s : State) (core ctx pa : Nat) (bs : List Byte) : State :=
  if isOwn s pa then accWrite (touchLine s core (localOf pa) true) ctx (localOf pa) bs true
  else
    let die := core / 64
    if isHbm pa then
      match copyAt s die pa with
      | some c =>
        let r := ownedWrite s c (s.core core).pts pa bs
        (dropL1 r.1 pa fun c => c == core).setCore core fun k => { k with pts := max k.pts r.2 }
      | none => s
    else postMsg s (.core core) 3 { mkMsg s die (.core core) (nodeOf pa) 0 (s.core core).pts pa with data := bs }

/-- A line may be held in an L1: of a normal page, not in the pool, not memory-side (R258, R308). -/
def mayCache (s : State) (die pa : Nat) : Bool :=
  isHbm pa &&
  (if isOwn s pa then !inPool s (placeOf s (localOf pa)) && !msideOf s (localOf pa) && (heldCopy s die pa).isNone
   else !s.uncached.contains (die, lineOf pa))

/-- A core's L1 takes the line as it stands, with its times (R258, R299); of a monitored line only a shared copy (R310). -/
def fillL1 (s : State) (core pa : Nat) (st : Moesi) : State :=
  let die := core / 64
  let watched := isOwn s pa && monitored s (localOf pa)
  let st := if watched && st = .e then .s else st
  if !mayCache s die pa || watched && st != .s then s
  else
    let times := match copyAt s die pa with
      | some c => (c.wts, c.rts)
      | none => (lineWts s (localOf pa), lineRts s (localOf pa))
    let c : L1Copy := ⟨core, lineOf pa, st, times.1, times.2, lineBytes s die (lineOf pa) 128, false⟩
    { s with l1 := (s.l1.filter fun x => !(x.core == core && x.line == lineOf pa)) ++ [c] }

/-- An L1 copy serves a load: it is owned, or its lease reaches the core's clock (R300). -/
def l1Hit (s : State) (core pa : Nat) : Option L1Copy :=
  if !mayCache s (core / 64) pa then none
  else (l1At s core pa).filter fun c => c.st != .s || decide ((s.core core).pts ≤ c.rts)

/-- The owner of a line has read it beyond its lease, which the L2 that serves it then knows (R276, R300). -/
def renewLease (s : State) (die pa ts : Nat) : State :=
  match heldCopy s die pa with
  | some c => updCopy s c.die pa fun x => { x with rts := max x.rts ts }
  | none => { s with l2 := updWhere (fun l => isOwn s pa && l.line == lineOf (localOf pa)) (fun l => { l with rts := max l.rts ts }) s.l2 }

/-- A load of a core from its L1 or, into it, from the L2 (R258, R300): the value of the copy that serves it. With hint 2 or 3 the
L1 takes no copy, with 3 it gives up the one it has (R112). -/
def l1Load (s : State) (core ctx pa n : Nat) (hint : Nat := 0) : State × List Byte :=
  match l1Hit s core pa with
  | some c =>
    let ts := max (s.core core).pts (c.wts + 1)
    let s := s.setCore core fun k => { k with pts := ts }
    let up := fun (x : L1Copy) => if x.st != .s then { x with rts := max x.rts ts } else x
    let s := if c.st != .s then renewLease s (core / 64) pa ts else s
    let s := { s with l1 := updWhere (fun x => x.core == core && x.line == c.line) up s.l1 }
    (if hint = 3 then dropL1 s pa fun k => k == core else s, (c.data.drop (pa % 128)).take n)
  | none =>
    let bs := readAt s (core / 64) ctx pa n
    let whole := match heldCopy s (core / 64) pa with | some c => c.excl | none => true
    let alone := whole && !(s.l1.any fun x => x.line == lineOf pa && x.core != core)
    let s := stampRead s core pa
    (if hint = 3 then dropL1 s pa fun k => k == core else if hint = 2 then s else fillL1 s core pa (if alone then .e else .s), bs)

/-- Copies of another module's windows and of lines that may not be cached are used once (R250, R308). -/
def dropWindows (s : State) (die : Nat) : State :=
  { s with copies := s.copies.filter fun c => !(c.die == die && (!isHbm c.pa || !c.owned && s.uncached.contains (die, c.pa))) }

/-- A die's L2 gives up its copy of a line, and its cores' L1s theirs (R297). -/
def dropCopy (s : State) (die pa : Nat) : State :=
  let s := dropL1 s pa fun c => isOwn s pa || c / 64 == die
  { s with copies := s.copies.filter fun c => !(c.die == die && c.pa == lineOf pa) }

end Sys2Proof.Machine
end

