-- ==== Sys2Proof/Machine/Xlate.lean ====
section
/-! DEFINITION. Page tables, TLBs and the walk cache (R264–R273). -/

namespace Sys2Proof.Machine

/-- The root table of a context (R264, R471). -/
def rootOf (s : State) (ctx : Nat) : Nat :=
  match s.context ctx with
  | some c => (c.words.getD 0 0).toNat % 2 ^ 54
  | none => 0

/-- Fields of an entry (R265). -/
def pteFrame (e : Nat) : Nat := fld e 53 16 * 2 ^ 16
def pteType (e : Nat) : Nat := fld e 6 5

/-- A leaf's frame is wholly or partly absent (R248): of another node never; of this one, unless it lies in
HBM, in the device registers, or in one block of a core window that fills it. -/
def frameAbsent (s : State) (frame size : Nat) : Bool :=
  if !isOwn s frame then false
  else
    let la := localOf frame
    if la + size ≤ 0x10000000000 then false
    else if 0xc0000000000 ≤ la && la + size ≤ 0xc0001000000 then false
    else
      size != 0x10000 || (placeOf s la).region == .absent || (placeOf s (la + 0x1000)).region == .absent ||
      (placeOf s (la + 0xffff)).region == .absent

/-- What an entry is at a level (R266). -/
inductive EntryKind where
  | invalid
  | table (base : Nat)
  | leaf (size : Nat)
  deriving DecidableEq, Repr

def entryKind (s : State) (level e : Nat) : EntryKind :=
  if !bitOf e 0 || fld e 15 12 != 0 then .invalid
  else if bitOf e 1 then
    (if level = 1 then (if frameAbsent s (pteFrame e) 0x10000 then .invalid else .leaf 0x10000)
     else if level = 2 then
       (if fld e 28 16 != 0 || frameAbsent s (pteFrame e) 0x20000000 then .invalid else .leaf 0x20000000)
     else .invalid)
  else if level = 1 || fld e 15 2 != 0 then .invalid
  else .table (pteFrame e)

/-- Address of the entry a level reads (R264). -/
def entryPa (base level va : Nat) : Nat :=
  base + 8 * (if level = 3 then fld va 55 42 else if level = 2 then fld va 41 29 else fld va 28 16)

/-- The end of a walk: a leaf with its address, no valid leaf at an entry, or an entry that could not be read. -/
inductive WalkEnd where
  | leaf (pte pa size : Nat)
  | invalid (pa : Nat)
  | missing (pa : Nat)
  deriving DecidableEq, Repr

/-- Walk the tables with a reader of entries. -/
def walkWith (s : State) (rd : Nat → Option Nat) (va : Nat) : Nat → Nat → WalkEnd
  | 0, base => .invalid base
  | level + 1, base =>
    let pa := entryPa base (level + 1) va
    match rd pa with
    | none => .missing pa
    | some e =>
      match entryKind s (level + 1) e with
      | .invalid => .invalid pa
      | .leaf size => .leaf e pa size
      | .table b => walkWith s rd va level b

/-- Entries as the walk cache of a die holds them (R270). -/
def cachedEntry (s : State) (die ctx pa : Nat) : Option Nat :=
  (s.walkLines.find? fun l => l.die == die && l.ctx == ctx && l.line == lineOf pa).map fun l =>
    (l.words.getD (pa % 128 / 8) 0).toNat

/-- Entries as memory holds them, where their line can be read at a walker's clock. -/
def memoryEntry (s : State) (die pts pa : Nat) : Option Nat :=
  if lineHere s die pts pa false then some (bytesToNat (lineBytes s die pa 8)) else none

/-- The clock of an agent (R299), and what an access leaves of it. -/
def whoPts (s : State) (who : ReqFor) : Nat :=
  match who with
  | .core c => (s.core c).pts
  | .engine op => ((s.ops.find? fun o => o.id == op).map fun o => o.pts).getD s.latest
  | .walk id => ((s.walks.find? fun w => w.id == id).map fun w => s.walkPts.getD (w.die % 4 * 64 + w.walker) 0).getD s.latest
  | .front => s.frontPts
  | _ => s.latest
def raisePts (s : State) (who : ReqFor) (t : Nat) : State :=
  match who with
  | .core c => s.setCore c fun k => { k with pts := max k.pts t }
  | .engine op => { s.hear t with ops := updWhere (fun o => o.id == op) (fun o => { o with pts := max o.pts t }) s.ops }
  | .walk id =>
    match s.walks.find? fun w => w.id == id with
    | some w => { s with walkPts := updAt (w.die % 4 * 64 + w.walker) (fun p => max p t) s.walkPts }
    | none => s.hear t
  | .front => { s with frontPts := max s.frontPts t }
  | _ => s.hear t

/-- A table entry can be changed here and now: its line is of this module, not owned outside, and readable. -/
def leafHere (s : State) (pa : Nat) : Bool := isOwn s pa && !heldOutside s (localOf pa) && !lineBad s (localOf pa) 8

/-- Set bits in a table entry by one read-modify-write at its home (R267), at the agent's clock (R292, R301): here, or
by a message whose acknowledgement a store waits for. -/
def orEntry (s : State) (die : Nat) (who : ReqFor) (pa mask : Nat) (src : List Src := []) (dirty : Option Nat := none) : State :=
  if isOwn s pa && !heldOutside s (localOf pa) then
    if lineBad s (localOf pa) 8 then noteUncorrectable s (localOf pa)
    else
      let r := touchBy s (whoPts s who) (localOf pa) true
      let s := raisePts r.1 who r.2
      writeBytes s (localOf pa) (natToBytes 8 (readNat s (localOf pa) 8 ||| mask))
  else
    let m := mkMsg s die who (nodeOf pa) 0 (whoPts s who) pa
    postMsg s who 4 { m with arg := 4 + 32 * 8, data := natToBytes 8 mask ++ natToBytes 8 0 } src none dirty

/-- Make room for one more among the entries that `p` names, of which there is place for `cap`: which of those that need not stay
gives way is free (R270). -/
def makeRoom {α : Type} (s : State) (p stay : α → Bool) (cap : Nat) (l : List α) : List α :=
  if (l.filter p).length < cap then l
  else
    let old := l.zipIdx.filter fun e => p e.1 && !stay e.1
    match old[(Config.freeBits s.fresh (2 ^ 61)).toNat % old.length]? with
    | some e => l.eraseIdx e.2
    | none => l

/-- An entry that a record still needs for its retry, for at most 100 µs (R272). -/
def TlbEntry.stays (e : TlbEntry) (clk : Nat) : Bool := !e.retained.isEmpty && decide (clk < e.since + 85000)

/-- An entry goes into its TLB: 64 of a core, 8,192 of a die (R270). -/
def addTlb (s : State) (e : TlbEntry) : State :=
  let mine := fun (x : TlbEntry) => x.die == e.die && x.core == e.core
  { s with
    nextId := s.nextId + 1
    tlbs := makeRoom s mine (fun x => x.stays s.clk) (if e.core.isSome then 64 else 8192) s.tlbs ++ [{ e with id := s.nextId }] }

/-- A TLB entry covers a page of a context; G entries serve every context (R268, R270). -/
def TlbEntry.covers (e : TlbEntry) (ctx vpn : Nat) : Bool :=
  (e.ctx == ctx || bitOf e.pte.toNat 7) && e.vpn ≤ vpn && vpn < e.vpn + e.pages

/-- The translation a core uses: its own TLB's, else its die's. -/
def tlbFind (s : State) (core ctx vpn : Nat) : Option TlbEntry :=
  match s.tlbs.find? fun e => e.core == some core && e.covers ctx vpn with
  | some e => some e
  | none => s.tlbs.find? fun e => e.core.isNone && e.die == core / 64 && e.covers ctx vpn

/-- The translation an engine or the front end of a die uses. -/
def tlbFindDie (s : State) (die ctx vpn : Nat) : Option TlbEntry :=
  s.tlbs.find? fun e => e.core.isNone && e.die == die && e.covers ctx vpn

/-- Place a leaf in a die's TLB, setting its A bit if it was clear (R267, R271). -/
def placeLeaf (s : State) (die : Nat) (who : ReqFor) (ctx va pte pa size : Nat) (retained : List Nat) : State :=
  let s := if bitOf pte 8 then s else orEntry s die who pa 0x100
  let pte := if bitOf pte 8 then pte else pte + 0x100
  let vpn := va / size * (size / 0x10000)
  addTlb s ⟨0, die, none, ctx, vpn, size / 0x10000, BitVec.ofNat 64 pte, pa, retained, s.clk⟩

/-- A translated address: the leaf as the TLB holds it, where it lies, and the physical address. -/
structure Xlt where
  pte : Nat
  ptePa : Nat
  pa : Nat
  deriving DecidableEq, Repr

inductive XRes where
  | ok (x : Xlt)
  | xnp
  | walk
  deriving DecidableEq, Repr

def TlbEntry.xlt (e : TlbEntry) (va : Nat) : Xlt :=
  ⟨e.pte.toNat, e.ptePa, pteFrame e.pte.toNat + (va - e.vpn * 0x10000)⟩

/-- Translate for a core, or for a die's engines when `core` is none (R270): TLBs, then the walk cache unless it
is bypassed (R437), else a walk is needed. A walk made from the cache that finds no leaf removes the line of its entry there, and
the access meets XNP as after a walk of memory (R436). `who` is the agent whose access it is. -/
def translate (s : State) (die : Nat) (core : Option Nat) (ctx va : Nat) (bypass : Bool := false) (who : ReqFor := .front) :
    State × XRes :=
  if va / 2 ^ 56 != 0 then (s, .xnp)
  else
    let hit := match core with
      | some c => tlbFind s c ctx (va / 0x10000)
      | none => tlbFindDie s die ctx (va / 0x10000)
    match hit with
    | some e =>
      let s := match core with
        | some c =>
          if e.core == some c then s
          else addTlb s { e with core := some c, retained := [], since := s.clk }
        | none => s
      (s, .ok (e.xlt va))
    | none =>
      match walkWith s (if bypass then fun _ => none else cachedEntry s die ctx) va 3 (rootOf s ctx) with
      | .missing _ => (s, .walk)
      | .invalid pa =>
        ({ s with walkLines := s.walkLines.filter fun l => !(l.die == die && l.ctx == ctx && l.line == lineOf pa) }, .xnp)
      | .leaf pte pa size =>
        let s := placeLeaf s die (match core with | some c => .core c | none => who) ctx va pte pa size []
        (s, .ok ⟨if bitOf pte 8 then pte else pte + 0x100, pa, pteFrame pte + va % size⟩)

/-- D of a leaf is set: in the TLBs that hold it (R267). -/
def dirtyTlbs (s : State) (ptePa : Nat) : State :=
  { s with tlbs := updAll (fun e => e.ptePa == ptePa) (fun e => { e with pte := e.pte ||| 0x200#64 }) s.tlbs }

/-- A store through a translation waits for the D update of its leaf (R267). -/
def leafWaits (s : State) (x : Xlt) : Bool := !bitOf x.pte 9 && !leafHere s x.ptePa

/-- A store through a translation with D clear sets D in the leaf first, and in the TLBs that hold it
(R267). A leaf elsewhere is set by a message, of the threads `src`; one that is under way for the agent serves them too. The store
waits for it (`leafWaits`), as for a leaf that cannot be read, whose error is reported here and which its caller lets fail. -/
def markDirty (s : State) (die : Nat) (who : ReqFor) (va : Nat) (x : Xlt) (src : List Src := []) : State :=
  if bitOf x.pte 9 then s
  else if leafHere s x.ptePa then dirtyTlbs (orEntry s die who x.ptePa 0x200) x.ptePa
  else if isOwn s x.ptePa && !heldOutside s (localOf x.ptePa) then noteUncorrectable s (localOf x.ptePa)
  else
    let mine := fun (p : Post) => p.dirty.isSome && p.addr == x.ptePa && p.who == who
    if s.posts.any mine then { s with posts := updAll mine (fun p => { p with src := p.src ++ src.filter fun t => !p.src.contains t }) s.posts }
    else orEntry s die who x.ptePa 0x200 src (some (va / 0x10000))

/-- What a store of an agent other than a core meets first: its leaf's D is set; or is being set elsewhere, which it waits for; or
cannot be (R267). -/
inductive DRes where
  | ok | wait | fail
  deriving DecidableEq, Repr

def dirtyFor (s : State) (die : Nat) (who : ReqFor) (va : Nat) (x : Xlt) : State × DRes :=
  if !leafWaits s x then (markDirty s die who va x, .ok)
  else if lineFailed s who x.ptePa then (clearFailed s who [x.ptePa], .fail)
  else (markDirty s die who va x, if isOwn s x.ptePa && !heldOutside s (localOf x.ptePa) then .fail else .wait)

/-- Queue a walk request; requests for one page of one context are one (R271). -/
def askWalk (s : State) (die ctx vpn : Nat) (fw : Bool) (front : Bool := false) : State :=
  if s.walks.any fun w => w.die == die && w.ctx == ctx && w.vpn == vpn then
    { s with walks := s.walks.map fun (w : Walk) =>
        if w.die == die && w.ctx == ctx && w.vpn == vpn then { w with front := w.front || front } else w }
  else { s with nextId := s.nextId + 1, walks := s.walks ++ [⟨s.nextId, die, ctx, vpn, false, fw, front, s.nextId, 0⟩] }

/-- Permission of an access under a leaf (R113, R265, R266): R 4, W 8, X 16; an F page needs firmware-issued
work. -/
def permitted (pte : Nat) (fw : Bool) (need : Nat) : Bool := pte &&& need == need && (!bitOf pte 11 || fw)

end Sys2Proof.Machine
end

