-- ==== Sys2Proof/Machine/Operands.lean ====
section
/-! DEFINITION. The gang, slice and lane that an instruction acts on, its registers (R8–R11, R66), every
operand form, and the destinations with the hazards of R55 and R56. -/

namespace Sys2Proof.Machine

/-! ## Gangs, slices, lanes -/

def State.gang (s : State) (core slot : Nat) : Option Gang := s.gangs.find? fun g => g.core == core && g.slot == slot
def State.updGang (s : State) (core slot : Nat) (h : Gang → Gang) : State :=
  { s with gangs := updWhere (fun g => g.core == core && g.slot == slot) h s.gangs }
def Gang.slice (g : Gang) (pos : Nat) : Option Slice := g.slices.find? fun x => x.pos == pos
def Gang.updSlice (g : Gang) (pos : Nat) (h : Slice → Slice) : Gang :=
  { g with slices := updWhere (fun x => x.pos == pos) h g.slices }
def State.updSlice (s : State) (core slot pos : Nat) (h : Slice → Slice) : State :=
  s.updGang core slot fun g => g.updSlice pos h
def Slice.lane (x : Slice) (l : Nat) : Lane := x.lanes.getD l Lane.start
def Slice.updLane (x : Slice) (l : Nat) (h : Lane → Lane) : Slice := { x with lanes := updAt l h x.lanes }
def State.updLane (s : State) (core slot pos l : Nat) (h : Lane → Lane) : State :=
  s.updSlice core slot pos fun x => x.updLane l h

/-- A thread observes the completion of copies (R288). -/
def State.sees (s : State) (core slot pos l : Nat) (ops : List Nat) : State :=
  if ops.isEmpty then s
  else s.updLane core slot pos l fun t =>
    { t with fence := { t.fence with seen := t.fence.seen ++ ops.filter fun o => !t.fence.seen.contains o } }

/-- Lane l of a mask. -/
def hasLane (m : BitVec 4) (l : Nat) : Bool := m.getLsbD l
def laneBit (l : Nat) : BitVec 4 := BitVec.ofNat 4 (2 ^ l)
def lanesOf (m : BitVec 4) : List Nat := (List.range 4).filter fun l => hasLane m l

/-- The slices a sub-gang issues for, in position order. -/
def Gang.slicesOf (g : Gang) (sub : Nat) : List Slice := g.slices.filter fun x => x.st == .run sub
def Gang.sub (g : Gang) (id : Nat) : Option Sub := g.subs.find? fun u => u.id == id

/-! ## Single registers -/

/-- Where a thread's v(j) lies in the register-file table (R251). -/
def vKey (g : Gang) (pos lane j : Nat) : Nat := rfKey g.core (g.base * 32 + 32 * j + 4 * pos + lane)

/-- An unsettled destination of a slice at `at_` covers a register of a lane: a g register is the gang's (R10). -/
def Vague.covers (v : Vague) (at_ pos lane code : Nat) : Bool :=
  v.code ≤ code && code < v.code + v.len && (128 ≤ code && code < 192 || at_ == pos && v.lane == lane)

/-- The register is a destination of an earlier variable-latency instruction that is not settled (R16, R55, R56). -/
def outstanding (s : State) (g : Gang) (pos lane code : Nat) : Bool :=
  match s.gang g.core g.slot with
  | some g => g.slices.any fun x => x.vague.any fun v => v.covers x.pos pos lane code
  | none => false

/-- A free word for a place of this instruction (R3, R16, R55). -/
def freeWord (s : State) (k : Nat) : W32 := (Config.freeBits s.fresh (2 ^ 60 + k)).setWidth 32

/-- The window address at which a gang's v(code) begins (R251), and whether the register file's own code finds it uncorrectable
(R313). -/
def vLine (g : Gang) (code : Nat) : Nat := windowBase g.core + 128 * (g.base + code)
def rfBad (s : State) (g : Gang) (code : Nat) : Bool := decide (code < 128) && s.poisoned.contains (vLine g code / 128)

/-- The 32-bit value of a register code for one lane (R66): v, g, p, z, e, and 0 elsewhere. A register whose
result is outstanding reads as a free value. -/
def regRead (s : State) (g : Gang) (x : Slice) (lane code : Nat) : W32 :=
  if (code < 199 || 216 ≤ code && code < 224) && outstanding s g x.pos lane code then freeWord s ((x.pos * 4 + lane) * 256 + code)
  else
    let t := x.lane lane
    if rfBad s g code then freeWord s ((x.pos * 4 + lane) * 256 + code)
    else if code < 128 then tabGet 0 s.rf (vKey g x.pos lane code)
    else if code < 192 then g.g.getD (code - 128) 0
    else if code < 199 then (if t.preds.getLsbD (code - 192) then 1 else 0)
    else if code = 199 then 1
    else if 216 ≤ code && code < 224 then (t.fibres.getD (code - 216) Fibre.closed).cur
    else if code = 241 then t.e0
    else if code = 242 then t.e1
    else if code = 243 then t.e2
    else if code = 244 then t.e3
    else 0

/-- The value of a predicate p0–p7 of one lane. -/
def predRead (s : State) (g : Gang) (x : Slice) (lane k : Nat) : Bool := (regRead s g x lane (192 + k)).getLsbD 0

/-- The guard of R11. -/
def guardTrue (s : State) (g : Gang) (x : Slice) (lane : Nat) (f : Fields) : Bool :=
  predRead s g x lane f.guard.toNat != f.gneg

/-- The guard-true active lanes of a slice, as a mask. -/
def guardMask (s : State) (g : Gang) (f : Fields) (x : Slice) : BitVec 4 :=
  (lanesOf x.active).foldl (fun m l => if guardTrue s g x l f then m ||| laneBit l else m) 0

/-- Store one word in the register file during a clause, keeping what a window access sees (R251). -/
def rfPut (s : State) (g : Gang) (k : Nat) (v : W32) : State :=
  let old := tabGet 0 s.rf k
  { s with rf := tabPut 0 s.rf k v,
           gangs := updWhere (fun x => x.core == g.core && x.slot == g.slot)
             (fun x => { x with
               subs := x.subs.map fun u => { u with
                 run := u.run.map fun r =>
                   if r.shadow.any fun e => e.1 == k then r else { r with shadow := r.shadow ++ [(k, old)] } } }) s.gangs }

/-- One destination of one lane. -/
structure Put where
  pos : Nat
  lane : Nat
  code : Nat
  vals : List W32
  deriving DecidableEq, Repr

/-- Another instruction writes a destination that is not settled: it leaves the register unpredictable (R55, R56). -/
def spoil (s : State) (core slot : Nat) (p : Put) : State :=
  let hits := fun (at_ : Nat) (v : Vague) => (List.range p.vals.length).any fun i => v.covers at_ p.pos p.lane (p.code + i)
  s.updGang core slot fun g => { g with
    slices := g.slices.map fun x => { x with vague := updAll (hits x.pos) (fun v => { v with spoilt := true }) x.vague } }

/-- Write a register code of one lane: v and g registers in order, bit 0 to a predicate; p7, code 240 and
every other code discard. -/
def putOne (s : State) (core slot : Nat) (p : Put) : State :=
  match s.gang core slot with
  | none => s
  | some g =>
    if p.code < 128 then
      p.vals.zipIdx.foldl (fun s e => rfPut s g (vKey g p.pos p.lane (p.code + e.2)) e.1) s
    else if p.code < 192 then
      s.updGang core slot fun g => { g with g := p.vals.zipIdx.foldl (fun r e => r.set (p.code - 128 + e.2) e.1) g.g }
    else if p.code < 199 then
      s.updLane core slot p.pos p.lane fun t =>
        { t with preds := t.preds &&& ~~~(BitVec.ofNat 7 (2 ^ (p.code - 192))) |||
            (if (p.vals.headD 0).getLsbD 0 then BitVec.ofNat 7 (2 ^ (p.code - 192)) else 0) }
    else s

/-- Write the destinations of one instruction, given in THREADIX order: a g register takes the value of the
lowest lane (R10), which is written last. -/
def putAll (s : State) (core slot : Nat) (ps : List Put) : State :=
  (ps.reverse).foldl (fun s p => putOne (spoil s core slot p) core slot p) s

/-! ## Operands -/

/-- The instruction being executed: the state it finds (with its queue entries popped), its gang, sub-gang,
clause, fields, description, and the popped entries by operand code. -/
structure Ctx where
  s : State
  g : Gang
  sub : Nat
  i : Instr
  D : Desc
  f : Fields
  run : Run
  pops : List (Nat × List W32)
  /-- the live set of the resume header, where R58 has read one: word of the header -/
  resume : W64
  deriving Repr

/-- Address of the word, and of the next clause header (R14 step 4). -/
def Ctx.pc (c : Ctx) : Nat := c.run.hdr + 8 * (1 + c.run.ix)
def Run.next (r : Run) : Nat := r.hdr + 8 * (1 + r.words.length)
def Ctx.next (c : Ctx) : Nat := c.run.next

def Ctx.slices (c : Ctx) : List Slice := c.g.slicesOf c.sub

/-- Guard-true active lanes in THREADIX order: slice and lane. -/
def Ctx.lanes (c : Ctx) : List (Slice × Nat) :=
  c.slices.flatMap fun x => (lanesOf (guardMask c.s c.g c.f x)).map fun l => (x, l)

def threadIx (x : Slice) (lane : Nat) : Nat := 4 * x.pos + lane

/-- The literal widened to an operand's type (R65). `packed` takes both halves. -/
def litOf (lit : BitVec 32) (t : Nat) (packed : Bool) : Nat :=
  let v := lit.toNat
  if t = 4 then wrap 64 (sext 32 v)
  else if t = 9 then (deliver (fmtOf 9) .rn false (.val (unpackF (fmtOf 10) v))).1
  else if packed then v
  else if typeBits t < 32 then v % 2 ^ typeBits t
  else v

/-- A source operand of a lane: code, number of registers, type for a literal (R66, R81, R115). -/
def Ctx.src (c : Ctx) (x : Slice) (lane code regs t : Nat) (packed : Bool := false) : Nat :=
  if code = 255 then litOf c.f.lit t packed
  else if code = 240 then 0
  else if 224 ≤ code && code < 240 then
    ((c.pops.find? fun e => e.1 == code).map fun e => (e.2.getD (threadIx x lane) 0).toNat).getD 0
  else if regs = 2 && code < 192 then
    (regRead c.s c.g x lane code).toNat + (regRead c.s c.g x lane (code + 1)).toNat * 2 ^ 32
  else (regRead c.s c.g x lane code).toNat

/-- The instruction's type, and the registers and type of a W operand of the description. -/
def Ctx.ty (c : Ctx) : Nat := effType c.D c.f
def Ctx.regs (c : Ctx) (s : Slot) : Nat :=
  match useOf c.D c.f s with
  | .op w _ => (regsOf c.D c.f w).1
  | _ => 0

/-- Operand in a slot, read at the instruction's type, at a 32-bit integer type, or at the source type of a
conversion. -/
def Ctx.opnd (c : Ctx) (x : Slice) (lane : Nat) (s : Slot) : Nat :=
  match useOf c.D c.f s with
  | .op .ofSource _ => c.src x lane (s.code c.f) (c.regs s) (c.f.c.toNat % 32)
  | .op .w32 _ => c.src x lane (s.code c.f) 1 7
  | .op .w64 _ => c.src x lane (s.code c.f) 2 8
  | .op _ _ => c.src x lane (s.code c.f) (c.regs s) c.ty
  | _ => s.code c.f

/-- The register words of an n-register value. -/
def wordsOf (n v : Nat) : List W32 := (List.range n).map fun i => BitVec.ofNat 32 (v / 2 ^ (32 * i))

/-- The destination of a lane holding a value at the width of field d; code 240 discards (R66). -/
def Ctx.put (c : Ctx) (x : Slice) (lane v : Nat) : Put :=
  ⟨x.pos, lane, c.f.d.toNat, wordsOf (if c.f.d.toNat < 192 then c.regs .d else 1) v⟩

/-- The predicate that the aux field names, where the instruction reads or writes one (R94, R217). -/
def auxPred (D : Desc) (f : Fields) : List Nat :=
  if [0x0c, 0x0d, 0x0e, 0x90, 0x94].contains D.op && f.aux.toNat % 8 != 7 then [192 + f.aux.toNat % 8] else []

/-- The registers an instruction reads or writes, for the hazard detector (R432). -/
def touched (D : Desc) (f : Fields) : List Nat :=
  auxPred D f ++
  (Slot.all.flatMap fun s =>
    match useOf D f s with
    | .op w _ => (List.range (if s.code f < 192 then (regsOf D f w).1 else 1)).map fun i => s.code f + i
    | _ => []) ++ (if f.guard == 7#3 then [] else [192 + f.guard.toNat])

/-! ## Effective addresses (R107, R319) -/

/-- Entry window of a queue port (R375): for a stream, the virtual address of the current entry's frame record. For a local
FIFO and a fabric receive port the spec gives the entry's 128 bytes and no virtual address: the address is a free value
(log entry 10), and a load or store inside the window goes to the entry. -/
def windowOf (s : State) (core code : Nat) : Nat :=
  let p := (s.core core).ports.getD (code - 232) Port.unbound
  if p.kind = 1 then
    match (s.stream p.queue).entries with
    | e :: _ => ((s.stream p.queue).words.getD 7 0).toNat % 2 ^ 56 + 1024 * e.1
    | [] => 0
  else (Config.freeBits s.fresh (2 ^ 61 + code)).toNat % 2 ^ 49 * 128

def signExt (w v : Nat) : Nat := wrap 64 (sext w v)

/-- index · scale + offset. -/
def Ctx.displace (c : Ctx) (x : Slice) (lane : Nat) : Nat :=
  let f := c.f
  let ix := signExt 32 (c.src x lane f.b.toNat 1 7)
  let off := if f.long then signExt 24 f.off24.toNat else signExt 8 f.c.toNat
  (ix * 2 ^ (f.aux.toNat % 4) + off) % 2 ^ 64

/-- base + index · scale + offset. -/
def Ctx.ea (c : Ctx) (x : Slice) (lane : Nat) : Nat :=
  let a := c.f.a.toNat
  let base := if 232 ≤ a && a < 240 then windowOf c.s c.g.core a else c.src x lane a 2 8
  (base + c.displace x lane) % 2 ^ 64

/-- The port whose window the base names, when its entry has no virtual address. -/
def Ctx.winPort (c : Ctx) : Option Port :=
  let a := c.f.a.toNat
  let p := (c.s.core c.g.core).ports.getD (a - 232) Port.unbound
  if 232 ≤ a && a < 240 && (p.kind == 2 || p.kind == 4) then some p else none

/-- base + offset, without an index (R319). -/
def Ctx.eaPlain (c : Ctx) (x : Slice) (lane : Nat) : Nat :=
  let f := c.f
  let off := if f.long then signExt 24 f.off24.toNat else signExt 8 f.c.toNat
  (c.src x lane f.a.toNat 2 8 + off) % 2 ^ 64

end Sys2Proof.Machine
end

