-- ==== Sys2Proof/Machine/Flags.lean ====
section
/-! DEFINITION. The flags of the part: FPSTAT of a thread (R12, R13), the completion flags of a slice (R54),
and the 0 or 1 that compares deliver (R103, R122). -/

namespace Sys2Proof.Machine

/-- OR new flags into a thread's FPSTAT (R13). -/
def raiseOne (s : State) (core slot pos lane : Nat) (f : Flags) : State :=
  if f = 0 then s else s.updLane core slot pos lane fun t => { t with fpstat := t.fpstat ||| f }

/-- OR the flags of one instruction's lanes. -/
def raiseAll (s : State) (core slot : Nat) (fs : List (Nat × Nat × Flags)) : State :=
  fs.foldl (fun s e => raiseOne s core slot e.1 e.2.1 e.2.2) s

/-- The count of a completion flag. -/
def Slice.flagCount (x : Slice) (k : Nat) : Nat := x.flags.getD k 0

/-- Every flag that a wait mask names is clear (R14, R57). -/
def Slice.flagsClear (x : Slice) (mask : Nat) : Bool :=
  (List.range 12).all fun k => !bitOf mask k || x.flagCount k == 0

/-- A variable-latency instruction issues on a flag, or its result is written (R54). -/
def flagUp (x : Slice) (k : Nat) : Slice := { x with flags := updAt k (fun c => c + 1) x.flags }
def flagDown (x : Slice) (k : Nat) : Slice := { x with flags := updAt k (fun c => c - 1) x.flags }

/-- A fibre whose contents are unpredictable (R56). -/
def freeFibre (s : State) (pos lane k : Nat) : Fibre :=
  let bits := fun (i : Nat) => (Config.freeBits s.fresh (2 ^ 67 + ((pos * 4 + lane) * 8 + k) * 2 + i)).toNat
  let v := bits 0
  let w := bits 1
  ⟨bitOf w 96, BitVec.ofNat 64 (fld v 63 0 * 4), BitVec.ofNat 64 (fld v 127 64 * 8), BitVec.ofNat 32 (fld w 31 0),
   BitVec.ofNat 32 (fld w 63 32), BitVec.ofNat 32 (fld w 95 64), bitOf w 97⟩

/-- A register or fibre that was written too early holds anything (R55, R56). -/
def vagueWord (core slot pos : Nat) (s : State) (v : Vague) : State :=
  if !v.spoilt then s
  else if 216 ≤ v.code then
    { s with fresh := s.fresh + 1 }.updLane core slot pos v.lane fun t =>
      { t with fibres := updAt (v.code - 216) (fun _ => freeFibre s pos v.lane (v.code - 216)) t.fibres }
  else putOne { s with fresh := s.fresh + 1 } core slot
    ⟨pos, v.lane, v.code, (List.range v.len).map fun i => freeWord s ((pos * 4 + v.lane) * 256 + v.code + i)⟩

/-- Destinations of a slice are settled: those of a flag that has cleared, or all of them as its segment ends. -/
def settleVague (s : State) (core slot pos : Nat) (p : Option Nat → Bool) : State :=
  match (s.gang core slot).bind fun g => g.slice pos with
  | none => s
  | some x =>
    let s := s.updSlice core slot pos fun x => { x with vague := x.vague.filter fun v => !p v.flag }
    (x.vague.filter fun v => p v.flag).foldl (vagueWord core slot pos) s

/-- The count of a flag of a slice falls; the destinations of a clear flag are settled. -/
def flagFalls (k core slot : Nat) (s : State) (pos : Nat) : State :=
  let s := s.updSlice core slot pos fun x => flagDown x k
  match (s.gang core slot).bind fun g => g.slice pos with
  | some x => if x.flagCount k = 0 then settleVague s core slot pos fun f => f == some k else s
  | none => s

/-- The flag a variable-latency instruction selects from its clause header (R54); none: untracked (R55). -/
def flagOf (header : W64) (fsel : Bool) : Option Nat :=
  let k := if fsel then fld header.toNat 45 42 else fld header.toNat 49 46
  if k < 12 then some k else none

/-- Results of a slice that are not yet written, tracked or not (R16, R55). -/
def drained (s : State) (core slot pos : Nat) : Bool :=
  !(s.pend.any fun p => p.core == core && p.slot == slot && p.poss.contains pos)

/-- Condition and combination of a compare (R103, R122): bits [6:3] and [2:0] of the word. -/
def cmpCode (f : Fields) : Nat := f.rm.toNat * 2 + b2n f.sat

def combine (how : Nat) (t p : Bool) : Bool :=
  match how with
  | 1 => t && p
  | 2 => t || p
  | 3 => t != p
  | _ => t

def intCond (k : Nat) (a b : Int) : Bool :=
  match k with
  | 0 => decide (a = b)
  | 1 => decide (a ≠ b)
  | 2 => decide (a < b)
  | 3 => decide (a ≤ b)
  | 4 => decide (a > b)
  | _ => decide (a ≥ b)

/-- The truth of a floating-point condition and the flag it raises (R122). -/
def fltCond (k : Nat) (a b : Val) : Bool × Flags :=
  let nan := a.isNan || b.isNan
  let c := cmpV a b
  let t := match k with
    | 0 => c == some 0
    | 1 => c != some 0
    | 2 => c == some (-1)
    | 3 => c == some (-1) || c == some 0
    | 4 => c == some 1
    | 5 => c == some 1 || c == some 0
    | 6 => nan
    | _ => !nan
  let nv := if 2 ≤ k && k < 6 then nan else a.isSig || b.isSig
  (t, if nv then fNV else 0)

end Sys2Proof.Machine
end

