-- ==== Sys2Proof/Machine/Records.lean ====
section
/-! DEFINITION. Continuation records as bytes of the Pewter pool (R153, R164–R168, R193, R370, R412): their
encoding, their decoding, the checks of R167, and where they are placed (R260). -/

namespace Sys2Proof.Machine

def kindCode : EventKind → Nat
  | .run => 0
  | .bar => 1
  | .mon => 2
  | .fut => 3
  | .fe => 4
  | .ring => 5
  | .extq => 6
  | .taskq => 7
  | .walk => 8
  | .trap => 9
  | .pre => 10
  | .fwd => 11

def tokenKindCode : TokenKind → Nat
  | .join => 0
  | .brk => 1
  | .deferred => 2

/-- A token-stack entry (R153). -/
def tokenWord (t : Token) : Nat :=
  tokenKindCode t.kind * 2 ^ 62 + t.mask.toNat * 2 ^ 58 + t.parked.toNat * 2 ^ 54 + t.target / 8 % 2 ^ 53

def tokenOf (w : Nat) : Option Token :=
  let k := fld w 63 62
  let mk := fun kind => some ⟨kind, BitVec.ofNat 4 (fld w 61 58), BitVec.ofNat 4 (fld w 57 54), fld w 52 0 * 8⟩
  if k = 0 then mk .join else if k = 1 then mk .brk else if k = 2 then mk .deferred else none

/-- RESUME (R165). -/
def resumeWord (hdr word : Nat) : Nat := word % 64 * 2 ^ 56 + hdr % 2 ^ 56

/-- IDENT with the restart point, where it can be carried (R165). DESIGN CHOICE (log entry 149): a restart point exactly 2^30 words
after HEADER is not dropped and stands in the 31-bit IDOFF as −2^30. -/
def identWord (restart : Option Nat) (hdr number index : Nat) : Nat :=
  let low := number % 256 * 2 ^ 24 + index % 2 ^ 24
  match restart with
  | none => low
  | some r =>
    let off : Int := ((r : Int) - hdr) / 8
    if off.natAbs ≤ 2 ^ 30 then wrap 31 off * 2 ^ 33 + 2 ^ 32 + low else low

/-- BIND of a slice (R166, R350): m0 lowest. -/
def bindField (b : List (Option Nat)) : Nat :=
  (List.range 4).foldl (fun a k =>
    a + (match b.getD k none with
      | some sl => 8 + sl % 4
      | none => 0) * 16 ^ k) 0

/-- What decides the header of a record. -/
structure RecHead where
  hdr : Nat
  word : Nat
  kind : EventKind
  subject : Nat
  cause : Nat
  forced : Bool
  livev : Nat
  liveg : Bool
  livee : Bool
  vbud : Nat
  waits : BitVec 4
  deriving DecidableEq, Repr

def RecHead.size (h : RecHead) (x : Slice) : Nat :=
  128 + 16 * h.livev + (if h.liveg then 32 else 0) + (if x.xsave.isSome then 64 else 0)

/-- Bytes rounded up to the pool's grain (R164). -/
def grain (n : Nat) : Nat := (n + 127) / 128 * 128

def ctlWordOf (g : Gang) (x : Slice) (h : RecHead) : Nat :=
  h.cause * 2 ^ 58 + b2n h.forced * 2 ^ 57 + bindField x.bind * 2 ^ 41 + b2n h.livee * 2 ^ 40 + b2n h.liveg * 2 ^ 39 +
  h.livev * 2 ^ 31 + g.gbud / 8 * 2 ^ 27 + h.vbud / 8 * 2 ^ 22 + x.prio * 2 ^ 17 + g.ctx % 2 ^ 16

def lanesWordOf (x : Slice) (waits : BitVec 4) : Nat :=
  waits.toNat * 2 ^ 60 +
  (List.range 4).foldl (fun a k => a + (x.lane k).fpstat.toNat * 2 ^ (40 + 5 * k) + (x.lane k).preds.toNat * 2 ^ (12 + 7 * k)) 0 +
  x.tokens.length % 16 * 2 ^ 8 + x.live.toNat * 2 ^ 4 + x.active.toNat

/-- The header words of a record (R164–R166). -/
def headWords (g : Gang) (x : Slice) (h : RecHead) : List Nat :=
  [resumeWord h.hdr h.word, kindCode h.kind * 2 ^ 60 + h.subject % 2 ^ 56, ctlWordOf g x h, lanesWordOf x h.waits,
   identWord x.restart h.hdr x.number x.index,
   x.xsave.getD 0 % 2 ^ 56,
   (x.lane 0).rstate.toNat + (x.lane 1).rstate.toNat * 2 ^ 32, (x.lane 2).rstate.toNat + (x.lane 3).rstate.toNat * 2 ^ 32] ++
  (List.range 8).map fun i => match x.tokens[i]? with | some t => tokenWord t | none => 0

/-- The expansion block (R193). -/
def expBlock (x : Slice) : List Byte :=
  ([Lane.e0, Lane.e1, Lane.e2, Lane.e3].flatMap fun e => (List.range 4).map fun k => e (x.lane k)).flatMap fun w =>
    natToBytes 4 w.toNat

/-- The bytes of a slice's record. -/
def recordBytes (s : State) (g : Gang) (x : Slice) (h : RecHead) : List Byte :=
  (headWords g x h).flatMap (natToBytes 8) ++
  ((List.range h.livev).flatMap fun j => (List.range 4).flatMap fun k =>
    natToBytes 4 (if j < g.vbud then tabGet 0 s.rf (vKey g x.pos k j) else 0).toNat) ++
  (if h.liveg then (List.range 8).flatMap fun j => natToBytes 4 (g.g.getD j 0).toNat else []) ++
  (if x.xsave.isSome then expBlock x else [])

/-- The fibre block (R370): 32 bytes per open fibre per lane. -/
def fibreBlock (x : Slice) : List Byte :=
  (List.range 4).flatMap fun l => (List.range 8).flatMap fun k =>
    let z := (x.lane l).fibres.getD k Fibre.closed
    if z.opened then
      natToBytes 8 z.crd.toNat ++ natToBytes 8 z.val.toNat ++ natToBytes 4 z.len.toNat ++ natToBytes 4 z.pos.toNat ++
      natToBytes 4 z.cur.toNat ++ natToBytes 4 (1 + 2 * b2n z.wide + 4 * k + 32 * l)
    else []

/-! ## Places in the pool (R260) -/

/-- The tiers of a core in order: key of the first byte and bytes. Pinned part first, then the rest (R259). -/
def tiers (s : State) (core : Nat) : List (Nat × Nat) :=
  let die := core / 64
  let (base, size) := hbmTier s die
  let pin := min size (fld (s.dieRegs die).poolcfg.toNat 11 6 * 2 ^ 20)
  [(windowBase core + 0x80000 + spBase s core, 0x80000 - spBase s core), (base, pin), (base + pin, size - pin)]

/-- The first free run of n bytes in a tier. -/
def findRoom (pool : List (Nat × Nat × Nat)) (lo size n : Nat) : Option Nat :=
  let inside := pool.filter fun e => decide (lo ≤ e.1) && decide (e.1 < lo + size)
  let tries := lo :: inside.map fun e => grain (e.1 + e.2.1)
  tries.foldl (fun best a =>
    if a + n ≤ lo + size && inside.all (fun e => decide (a + n ≤ e.1) || decide (e.1 + e.2.1 ≤ a)) then
      (match best with | some b => some (min a b) | none => some a)
    else best) none

/-- Allocate n bytes for a context in the first tier with room. -/
def poolAlloc (s : State) (core n : Nat) : Option Nat :=
  (tiers s core).findSome? fun t => findRoom s.pool t.1 t.2 (grain n)

def poolTake (s : State) (a n ctx : Nat) : State := { s with pool := s.pool ++ [(a, grain n, ctx)] }
def poolFree (s : State) (a : Nat) : State :=
  { s with pool := s.pool.filter fun e => e.1 != a, spoiltSaves := s.spoiltSaves.filter fun k => k != a }

/-- Bytes of the pool, by key. -/
def poolBytes (s : State) (k n : Nat) : List Byte := tabGets 0#8 s.mem k n
def poolWord (s : State) (k : Nat) : Nat := bytesToNat (poolBytes s k 8)
/-- The part's own write into the pool. A line that cannot be read is not written: only the repair form does that (R316). -/
def poolPut (s : State) (k : Nat) (bs : List Byte) : State :=
  if 2 ^ 40 ≤ k || !lineBad s k bs.length then { s with mem := tabPuts 0#8 s.mem k bs }
  else (lineNumbers k bs.length).foldl (fun s l =>
    let lo := max k (128 * l)
    let hi := min (k + bs.length) (128 * l + 128)
    if lineBad s lo 1 then noteUncorrectable s lo
    else { s with mem := tabPuts 0#8 s.mem lo ((bs.drop (lo - k)).take (hi - lo)) }) s

/-! ## Reading a record back -/

/-- n bytes of a record from an offset on. -/
def recBytes (s : State) (m : RecMeta) (off n : Nat) : List Byte :=
  match m.body with
  | some b => (b.drop off).take n
  | none => poolBytes s (m.pa + off) n
def recWord (s : State) (m : RecMeta) (off : Nat) : Nat := bytesToNat (recBytes s m off 8)

/-- A record's header as read. -/
structure RecImage where
  words : List Nat
  deriving DecidableEq, Repr

def readHead (s : State) (m : RecMeta) : RecImage := ⟨(List.range 16).map fun i => recWord s m (8 * i)⟩

namespace RecImage
def w (r : RecImage) (i : Nat) : Nat := r.words.getD i 0
def hdr (r : RecImage) : Nat := fld (r.w 0) 55 0
def word (r : RecImage) : Nat := fld (r.w 0) 61 56
def kind (r : RecImage) : Nat := fld (r.w 1) 63 60
def subject (r : RecImage) : Nat := fld (r.w 1) 55 0
def forced (r : RecImage) : Bool := bitOf (r.w 2) 57
def cause (r : RecImage) : Nat := fld (r.w 2) 63 58
def bindNib (r : RecImage) (k : Nat) : Nat := fld (r.w 2) (44 + 4 * k) (41 + 4 * k)
def livee (r : RecImage) : Bool := bitOf (r.w 2) 40
def liveg (r : RecImage) : Bool := bitOf (r.w 2) 39
def livev (r : RecImage) : Nat := fld (r.w 2) 38 31
def gbud (r : RecImage) : Nat := 8 * fld (r.w 2) 30 27
def vbud (r : RecImage) : Nat := 8 * fld (r.w 2) 26 22
def prio (r : RecImage) : Nat := fld (r.w 2) 21 17
def ctx (r : RecImage) : Nat := fld (r.w 2) 15 0
def waits (r : RecImage) : Nat := fld (r.w 3) 63 60
def fp (r : RecImage) (k : Nat) : Nat := fld (r.w 3) (44 + 5 * k) (40 + 5 * k)
def preds (r : RecImage) (k : Nat) : Nat := fld (r.w 3) (18 + 7 * k) (12 + 7 * k)
def depth (r : RecImage) : Nat := fld (r.w 3) 11 8
def live (r : RecImage) : Nat := fld (r.w 3) 7 4
def active (r : RecImage) : Nat := fld (r.w 3) 3 0
def number (r : RecImage) : Nat := fld (r.w 4) 31 24
def index (r : RecImage) : Nat := fld (r.w 4) 23 0
def restart (r : RecImage) : Option Nat :=
  if bitOf (r.w 4) 32 then some ((r.hdr : Int) + 8 * sext 31 (fld (r.w 4) 63 33)).toNat else none
def xptr (r : RecImage) : Nat := fld (r.w 5) 55 0
def rstate (r : RecImage) (k : Nat) : Nat := fld (r.w (6 + k / 2)) (32 * (k % 2) + 31) (32 * (k % 2))
def token (r : RecImage) (i : Nat) : Nat := r.w (8 + i)
def tokens (r : RecImage) : List Token := (List.range (min r.depth 8)).filterMap fun i => tokenOf (r.token i)
/-- Offsets of the g block and of the expansion block (R164). -/
def gOff (r : RecImage) : Nat := 128 + 16 * r.livev
def xOff (r : RecImage) : Nat := r.gOff + (if r.liveg then 32 else 0)
def size (r : RecImage) : Nat := r.xOff + (if r.xptr != 0 then 64 else 0)
end RecImage

/-! ## R154 and R167 -/

/-- Lane l of a slice meets R154 with a token stack, bottom first. -/
def tokenLaneOk (active live : BitVec 4) (ts : List Token) (l : Nat) : Bool :=
  let jb := fun (t : Token) => t.kind != .deferred
  let holds := (ts.filter jb).length
  let parked := (ts.zipIdx.filter fun e => jb e.1 && hasLane e.1.parked l).map fun e => e.2
  let deferred := (ts.zipIdx.filter fun e => !jb e.1 && hasLane e.1.mask l).map fun e => e.2
  let inMask := (ts.zipIdx.filter fun e => jb e.1 && hasLane e.1.mask l).map fun e => e.2
  if hasLane active l then parked.isEmpty && deferred.isEmpty && inMask.length == holds
  else if hasLane live l then
    parked.length + deferred.length == 1 &&
    (match parked with
     | [k] => (ts.zipIdx.all fun e => !jb e.1 || (if e.2 ≤ k then hasLane e.1.mask l else !hasLane e.1.mask l))
     | _ => true)
  else parked.isEmpty && deferred.isEmpty && inMask.isEmpty

/-- R154 for a slice. -/
def tokensOk (active live : BitVec 4) (ts : List Token) : Bool :=
  (List.range 4).all (tokenLaneOk active live ts) &&
  ts.all fun t => (t.parked &&& ~~~t.mask) == 0 && (t.kind != .deferred || t.parked == 0)

/-- Reserved bits of the header (R153, R165, R166). -/
def reservedOk (r : RecImage) : Bool :=
  fld (r.w 0) 63 62 == 0 && fld (r.w 0) 2 0 == 0 && fld (r.w 1) 59 56 == 0 && !bitOf (r.w 2) 16 && fld (r.w 5) 63 56 == 0 &&
  (List.range 8).all fun i => !bitOf (r.token i) 53

/-- The checks of a drain (R167). -/
def recordOk (r : RecImage) : Bool :=
  reservedOk r && r.kind == 0 && r.depth ≤ 8 &&
  (List.range 8).all (fun i => if i < r.depth then fld (r.token i) 63 62 != 3 else r.token i == 0) &&
  (BitVec.ofNat 4 r.active &&& ~~~BitVec.ofNat 4 r.live) == 0 &&
  tokensOk (BitVec.ofNat 4 r.active) (BitVec.ofNat 4 r.live) r.tokens &&
  8 ≤ r.vbud && r.vbud ≤ 128 && 8 ≤ r.gbud && r.gbud ≤ 64 && r.livev ≤ r.vbud && r.prio ≤ 23 && r.waits == 0

/-- The bin key of a record (R169). -/
structure BinKey where
  resume : Nat
  ctx : Nat
  vbud : Nat
  gbud : Nat
  tokens : List Nat
  g : Option (List Nat)
  role : Role
  group : Option Nat
  handler : Option Nat
  deriving DecidableEq, Repr

def binKey (s : State) (m : RecMeta) : BinKey :=
  let r := readHead s m
  ⟨r.w 0, r.ctx, r.vbud, r.gbud, (List.range (min r.depth 8)).map r.token,
   if r.liveg then some ((List.range 4).map fun i => recWord s m (r.gOff + 8 * i)) else none,
   m.role, m.group, m.handler⟩

end Sys2Proof.Machine
end

