-- ==== Sys2Proof/Machine/Expansion.lean ====
section
/-! DEFINITION. The shared state of an expansion: its save area (R195), its slot (R194), binding and closing
(R187). -/

namespace Sys2Proof.Machine

/-- Key of a pool byte from its physical address. -/
def poolKey (s : State) (pa : Nat) : Nat := memKey (placeOf s (localOf pa))

/-- An owner's 64 bytes (R195). -/
def ownerBytes (o : Owner) : List Byte :=
  natToBytes 4 o.start ++ natToBytes 4 o.len ++ natToBytes 4 o.pre ++ natToBytes 4 o.done ++
  natToBytes 4 (b2n o.zsign + 2 * o.cls) ++ natToBytes 4 0 ++ natToBytes 40 (wrap 320 o.acc)

/-- DESC of a save area. -/
def Expansion.desc (e : Expansion) : Nat :=
  e.n * 2 ^ 29 + e.w * 2 ^ 23 + e.type * 2 ^ 18 + e.op * 2 ^ 14 + e.gidx * 2 ^ 12 +
  (e.core / 64 * 64 + e.core % 64) * 4 + 2 * b2n e.group + 1

def Expansion.bytes (e : Expansion) : List Byte :=
  natToBytes 8 e.desc ++ natToBytes 8 e.rb ++ natToBytes 4 e.total ++
  natToBytes 4 (if e.group then e.cursor else 0) ++ natToBytes 4 e.bound ++ List.replicate 100 0 ++
  e.owners.flatMap ownerBytes

/-- Bytes of a save area (R195). -/
def saveSize (n : Nat) : Nat := 128 + 64 * n

/-- Bytes of a save area: unpredictable once a program has written into it (R168); one of another module is read through
its lines' copies (R452). -/
def areaBytes (s : State) (die save off n : Nat) : List Byte :=
  if s.spoiltSaves.contains (poolKey s save) && isOwn s save then
    (List.range n).map fun i => (Config.freeBits s.fresh (2 ^ 63 + save + off + i)).setWidth 8
  else if isOwn s save then poolBytes s (poolKey s save + off) n
  else (List.range n).map fun i => match copyAt s die (save + off + i) with
    | some c => c.data.getD ((save + off + i) % 128) 0
    | none => 0

/-- The lines of another module's save area that are not here yet; the first one tells how many there are. -/
def saveMissing (s : State) (die save : Nat) : List Nat :=
  if (copyAt s die save).isNone then [save]
  else
    let n := fld (bytesToNat (areaBytes s die save 0 8)) 39 29
    ((List.range (1 + (n + 1) / 2)).map fun i => save + 128 * i).filter fun l => (copyAt s die l).isNone

/-- The requester that an expand unit is: an engine of its die. -/
def expUnit (core : Nat) : ReqFor := .engine (2 ^ 20 + core)

/-- Bytes of a save area are written; another module's as line writes of an expand unit (WR with arg 4). -/
def savePut (s : State) (core save : Nat) (bs : List Byte) : State :=
  if isOwn s save then poolPut { s with spoiltSaves := s.spoiltSaves.filter fun k => k != poolKey s save } (poolKey s save) bs
  else
    let s := { s with copies := s.copies.filter fun c => !(save / 128 ≤ c.pa / 128 && c.pa / 128 < (save + bs.length) / 128 + 1) }
    (List.range ((bs.length + 127) / 128)).foldl (fun s i =>
      let part := (bs.drop (128 * i)).take 128
      let m := mkMsg s (core / 64) (expUnit core) (nodeOf save) 0 (s.core core).pts (save + 128 * i)
      postMsg s (expUnit core) 2 { m with
        arg := 4, mask := (List.range 128).map fun k => decide (k < part.length),
        data := part ++ List.replicate (128 - part.length) 0 }) s

def ownerAt (s : State) (die save k : Nat) (float : Bool) : Owner :=
  let w := fun o n => bytesToNat (areaBytes s die save (k + o) n)
  { start := w 0 4, len := w 4 4, pre := w 8 4, done := w 12 4, zsign := bitOf (w 16 4) 0, cls := fld (w 16 4) 2 1,
    acc := if float then sext 320 (w 24 40) else ((w 24 8 : Nat) : Int) }

/-- The shared state as a save area holds it. -/
def loadExpansion (s : State) (die save : Nat) : Expansion :=
  let w := fun o n => bytesToNat (areaBytes s die save o n)
  let d := w 0 8
  let n := fld d 39 29
  let op := fld d 17 14
  { save := save, n := n, w := fld d 28 23, type := fld d 22 18, op := op, gidx := fld d 13 12, core := fld d 9 2,
    group := bitOf d 1, rb := w 8 8, total := w 16 4, cursor := w 20 4, bound := w 24 4,
    owners := (List.range n).map fun o => ownerAt s die save (128 + 64 * o) (op == 7) }

/-- The slot of a core that holds an expansion. -/
def expAt (s : State) (core save : Nat) : Option (Nat × Expansion) :=
  (s.core core).expand.zipIdx.findSome? fun e =>
    match e.1 with
    | some x => if x.save == save then some (e.2, x) else none
    | none => none

/-- Some slot of the module that holds an expansion. -/
def expAnywhere (s : State) (save : Nat) : Option (Nat × Expansion) :=
  (List.range 256).findSome? fun c => (expAt s c save).map fun e => (c, e.2)

def setExp (s : State) (core save : Nat) (h : Expansion → Expansion) : State :=
  s.setCore core fun k => { k with expand := k.expand.map fun e => e.map fun x => if x.save == save then h x else x }

def freeExpSlot (s : State) (core save : Nat) : State :=
  s.setCore core fun k => { k with expand := k.expand.map fun e => e.filter fun x => x.save != save }

/-- Place an expansion in a free slot of a core. -/
def placeExp (s : State) (core : Nat) (e : Expansion) : State :=
  s.setCore core fun k => { k with expand := updWhere Option.isNone (fun _ => some e) k.expand }

def expSlotFree (s : State) (core : Nat) : Bool := (s.core core).expand.any Option.isNone

/-- Some resident slice of the core is bound to the expansion. -/
def residentBound (s : State) (core save : Nat) : Bool :=
  s.gangs.any fun g => g.core == core && g.slices.any fun x => x.xsave == some save && x.st != .dead

/-- When the last resident bound slice has left, the shared state goes to the save area and the slot is freed
(R194). -/
def expWriteout (s : State) (core save : Nat) : State :=
  match expAt s core save with
  | some (_, e) =>
    if residentBound s core save then s else freeExpSlot (savePut s core save e.bytes) core save
  | none => s

/-- At close the slot and the save area are freed (R187); another module's is told by a DESC of zeros. -/
def expClose (s : State) (core save : Nat) : State :=
  let s := freeExpSlot s core save
  let s := if isOwn s save then poolFree s (poolKey s save) else savePut s core save (List.replicate 8 0)
  s.setCore core fun k => { k with gexp := k.gexp.map fun e => e.filter fun a => a != save }

/-- The expansion may close: no slice is bound, and in group scope every index has been dealt. -/
def Expansion.over? (e : Expansion) : Bool := e.bound == 0 && (!e.group || e.total ≤ e.cursor)

/-- One binding of another module's expansion ends: its home is told (WR with arg 5), since the state stands there. -/
def saveRelease (s : State) (core save : Nat) : State :=
  let m := mkMsg s (core / 64) (expUnit core) (nodeOf save) 0 (s.core core).pts save
  postMsg s (expUnit core) 2 { m with arg := 5, mask := List.replicate 128 false, data := List.replicate 128 0 }

/-- The expansion may close as its last bound slice leaves: R187 names no close for a group-scope expansion of which every index
was dealt before a slice bound to it (T = 0); it stays open until a slice has bound to it and left (DESIGN CHOICE, log
entry 120). A slice's binding ends: the count falls, and the expansion closes or, with no bound slice resident, is
written out. For a record's binding the state may stand in its save area alone. -/
def expUnbind (s : State) (core save : Nat) : State :=
  match expAt s core save with
  | some (_, e) =>
    let e' := { e with bound := e.bound - 1 }
    if e'.over? then expClose s core save else expWriteout (setExp s core save fun _ => e') core save
  | none =>
    match expAnywhere s save with
    | some (c, e) =>
      let e' := { e with bound := e.bound - 1 }
      if e'.over? then expClose s c save else expWriteout (setExp s c save fun _ => e') c save
    | none =>
      if !isOwn s save then saveRelease s core save
      else
        let e := loadExpansion s (core / 64) save
        let e' := { e with bound := e.bound - 1 }
        if e'.over? then expClose s core save else savePut s core save e'.bytes

end Sys2Proof.Machine
end

