-- ==== Sys2Proof/Machine/Slices.lean ====
section
/-! DEFINITION. The life of a slice: its token stack (R153–R155), the end of its threads (R20, R138), parting
and regang (R151, R157, R158), the segment end with its record (R162–R168), and the bins (R169, R170). -/

namespace Sys2Proof.Machine

/-! ## Token stack -/

/-- The settling of a slice without active lanes (R155), on its stack top first: the stack left, and the lanes
and address that run next. -/
def settleTop : List Token → List Token × Option (BitVec 4 × Nat)
  | [] => ([], none)
  | e :: t =>
    if e.kind = .deferred then
      if e.mask = 0 then settleTop t else (t, some (e.mask, e.target))
    else if e.mask = e.parked then
      if e.parked = 0 then settleTop t else (t, some (e.parked, e.target))
    else (e :: t, none)

def Slice.settle (x : Slice) : Slice :=
  if x.active ≠ 0 then x
  else
    let r := settleTop x.tokens.reverse
    match r.2 with
    | some (m, pc) => { x with active := m, pc := pc, tokens := r.1.reverse }
    | none => { x with tokens := r.1.reverse }

/-- Push a token, unless the stack is full (R155). -/
def Slice.push (x : Slice) (t : Token) : Option Slice :=
  if x.tokens.length < 8 then some { x with tokens := x.tokens ++ [t] } else none

/-- Place in the stack of the innermost entry that meets p. -/
def innermost (p : Token → Bool) (ts : List Token) : Option Nat :=
  ((ts.zipIdx.filter fun e => p e.1).map fun e => e.2).getLast?

def Token.isJoin (t : Token) : Bool := t.kind == .join
def Token.isBrk (t : Token) : Bool := t.kind == .brk

/-- JOIN (R155). -/
def Slice.joinLanes (x : Slice) (m : BitVec 4) : Slice :=
  match innermost (fun t => t.isJoin || t.isBrk) x.tokens with
  | some k =>
    { x with tokens := updAt k (fun t => { t with parked := t.parked ||| m }) x.tokens, active := x.active &&& ~~~m }.settle
  | none => x

/-- BRKJ (R155). -/
def Slice.breakLanes (x : Slice) (m : BitVec 4) : Slice :=
  match innermost Token.isBrk x.tokens with
  | some k =>
    let ts := x.tokens.zipIdx.map fun e =>
      if e.2 = k then { e.1 with parked := e.1.parked ||| m }
      else if k < e.2 && e.1.isJoin then { e.1 with mask := e.1.mask &&& ~~~m }
      else e.1
    { x with tokens := ts, active := x.active &&& ~~~m }.settle
  | none => x

/-- The slice loses the lanes whose threads end (R155). -/
def Slice.loseLanes (x : Slice) (m : BitVec 4) : Slice :=
  let ts := x.tokens.map fun t => { t with mask := t.mask &&& ~~~m, parked := t.parked &&& ~~~m }
  { x with live := x.live &&& ~~~m, active := x.active &&& ~~~m, tokens := ts }.settle

/-! ## Launches and groups as threads end (R202, R206) -/

/-- One thread of a launch has ended; 0 names no launch. -/
def threadEnded (s : State) (lid : Nat) : State :=
  { s with
    launches := updWhere (fun l => l.lid == lid)
      (fun l =>
        let n := l.live - 1
        { l with live := n, st := if n = 0 && l.st = .active then .ending else l.st }) s.launches }

/-- The group's core is free again: its slots, rings, queues, ports, reservations and what is left of its group
expansions are discarded; what an operation of the matrix unit still names goes at its completion (R354, R387). -/
def freeCore (s : State) (core : Nat) : State :=
  ((s.core core).gexp.foldl (fun s e => match e with | some a => expClose s core a | none => s) s).setCore core fun k => { k with
    group := none
    gexp := List.replicate 4 none
    barriers := List.replicate 32 ⟨0, 0, 0⟩
    rings := List.replicate 8 Ring.none
    queues := List.replicate 8 []
    ports := List.replicate 8 Port.unbound
    resvs := k.resvs.zipIdx.map fun e =>
      if e.1.valid && !(opsReading s core e.2).isEmpty then { e.1 with releasing := true } else Resv.none
    slots := k.slots.zipIdx.map fun e => e.1 && !(opsOnSlot s core e.2).isEmpty
    compact := ⟨none, 0, []⟩
    idle := s.clk }

/-- n threads of a group have ended. -/
def groupEnded (s : State) (gid : Option Nat) (n : Nat) : State :=
  match gid with
  | none => s
  | some id =>
    match s.groups.find? fun g => g.gid == id with
    | none => s
    | some g =>
      let left := g.live - n
      let s := { s with
        groups := updWhere (fun g => g.gid == id)
          (fun g => { g with live := left, st := if left = 0 then .done else g.st, image := if left = 0 then none else g.image }) s.groups }
      if left ≠ 0 then s
      else
        let s := match g.image with
          | some im => poolFree s im.place
          | none => s
        if g.st == .placed then freeCore s g.core else s

/-- The launches of the lanes of a mask. -/
def lidsOf (lids : List Nat) (m : BitVec 4) : List Nat := (lanesOf m).map fun l => lids.getD l 0

/-! ## Combining buffers (R263) -/

/-- The bytes of a buffer laid over the span they cover, as one access. -/
def wcSpan (s : State) (b : WcBuf) : Nat × List Byte :=
  let as := b.bytes.map fun e => e.1
  let lo := as.foldl min (b.line + 127)
  let hi := as.foldl max b.line
  (lo, (List.range (hi + 1 - lo)).map fun i => tabGet (readByte s (localOf (lo + i))) b.bytes (lo + i))

/-- A combining buffer is written to memory as one access, its pool bytes as its context may write them then (R261): here, or by a message when its line is another module's, is
owned outside, or cannot be written, which its threads then learn (R315). -/
def wcWrite (s : State) (b : WcBuf) : State :=
  let s := { s with wcbufs := s.wcbufs.filter fun x => x.id != b.id }
  let hbm := (placeOf s (localOf b.line)).region == .hbm
  if b.bytes.isEmpty then s
  else if isOwn s b.line && !(hbm && (heldOutside s (localOf b.line) || lineBad s (localOf b.line) 1)) then
    if hbm && !b.bytes.any fun e => inPool s (placeOf s (localOf e.1)) then
      let (lo, bs) := wcSpan s b
      writeBytes (touchLine s b.core (localOf lo) true) (localOf lo) bs
    else b.bytes.foldl (fun s e => accWrite (touchLine s b.core (localOf e.1) true) b.ctx (localOf e.1) [e.2] true) s
  else
    let m := mkMsg s (b.core / 64) (.core b.core) (nodeOf b.line) 0 (s.core b.core).pts b.line
    let on := (List.range 128).map fun i => b.bytes.any fun e => e.1 == b.line + i
    let data := (List.range 128).map fun i => tabGet 0#8 b.bytes (b.line + i)
    postMsg s (.core b.core) 2 { m with mask := on, data := data } b.threads

def Src.isOf (t : Src) (slot pos : Nat) : Bool := t.slot == slot && t.pos == pos

/-- The buffers that a slice's threads stored into, and their writes that are not acknowledged. -/
def sliceBufs (s : State) (core slot pos : Nat) : List WcBuf :=
  s.wcbufs.filter fun b => b.core == core && b.threads.any fun t => t.isOf slot pos
def slicePosts (s : State) (core slot pos : Nat) : Bool :=
  s.posts.any fun p => p.who == .core core && p.src.any fun t => t.isOf slot pos
def wcWriteSlice (s : State) (core slot pos : Nat) : State := (sliceBufs s core slot pos).foldl wcWrite s

/-! ## Gangs as slices come and go -/

/-- Sub-gangs without slices are gone; a gang without slices is gone (R162). -/
def tidyGang (s : State) (core slot : Nat) : State :=
  match s.gang core slot with
  | none => s
  | some g =>
    let subs := g.subs.filter fun u => g.slices.any fun x => x.st == .run u.id
    let s := if subs.any (fun u => u.run.isSome) then s else settleLate s g
    if g.slices.isEmpty then
      { s with gangs := s.gangs.filter fun x => !(x.core == core && x.slot == slot),
               cores := updAt core (fun k => { k with idle := s.clk }) s.cores }
    else s.updGang core slot fun g => { g with subs := subs }

/-- A fresh number. -/
def State.bump (s : State) : State := { s with nextId := s.nextId + 1 }

/-- Distinct values in order of first appearance. -/
def distinct : List Nat → List Nat
  | [] => []
  | a :: t => a :: (distinct t).filter fun b => b != a

/-- Slices with the given states take new sub-gangs, one per address, in their old positions. -/
def formSubs (s : State) (core slot : Nat) (sel : Slice → Option Nat) : State :=
  match s.gang core slot with
  | none => s
  | some g =>
    let pcs := distinct (g.slices.filterMap sel)
    (pcs.zipIdx).foldl (fun s e =>
      let id := s.nextId
      s.bump.updGang core slot fun g => { g with
        slices := g.slices.map fun x => if sel x = some e.1 then { x with st := .run id, pc := e.1 } else x
        subs := g.subs ++ [⟨id, 0, none, 0, 0, none⟩] }) s

def Slice.parkedAt (x : Slice) : Option Nat :=
  match x.st with
  | .parked t _ => some t
  | _ => none

/-- When every slice of the sibling set is parked, the parked slices form one sub-gang per target (R158). -/
def reform (s : State) (core slot : Nat) : State :=
  match s.gang core slot with
  | none => s
  | some g =>
    let live := g.slices.filter fun x => x.st != .dead
    if !g.departed && !live.isEmpty && live.all (fun x => x.parkedAt.isSome && drained s core slot x.pos) then
      formSubs s core slot Slice.parkedAt
    else s

/-- A slice leaves its gang for good; its marks in the combining buffers go with it. -/
def removeSlice (s : State) (core slot pos : Nat) : State :=
  let s := { s with
    wcbufs := s.wcbufs.map fun (b : WcBuf) => if b.core = core then
      { b with threads := b.threads.filter fun t => !t.isOf slot pos } else b }
  let s := s.updGang core slot fun g => { g with slices := g.slices.filter fun x => x.pos != pos }
  tidyGang s core slot

/-- The end of a segment for a slice waiting on nothing. -/
def plainEnd (rid hdr : Nat) (live : W64) : EndInfo :=
  ⟨rid, .run, 0, hdr, 0, false, fld live.toNat 31 24, live.getLsbD 23, live.getLsbD 22, 0, 0, 240, 0, ⟨0, 0, 0⟩, none, [], false, []⟩

/-- A slice ends its segment: it will drain its flags and write its record (R162). -/
def endSegment (s : State) (core slot pos : Nat) (e : EndInfo) : State :=
  s.updSlice core slot pos fun x => { x with st := .ending e }

/-- Every parked slice of a gang ends its segment at its target, as in step 1 (R158 step 4); their records become runnable together (R246). -/
def forceParked (s : State) (core slot : Nat) : State :=
  match s.gang core slot with
  | none => s
  | some g =>
    let ps := g.slices.filterMap fun x => match x.st with | .parked t h => some (x.pos, t, h) | _ => none
    let mates := (List.range ps.length).map fun i => s.nextId + i
    ps.foldl (fun s p => endSegment s.bump core slot p.1 { plainEnd s.nextId p.2.1 p.2.2 with mates := mates }) s

/-- A slice leaves the sibling set by ending its segment. -/
def departSlice (s : State) (core slot pos : Nat) : State :=
  let s := wcWriteSlice s core slot pos
  let save := match s.gang core slot with
    | some g => match g.slice pos with | some x => x.xsave | none => none
    | none => none
  let s := removeSlice s core slot pos
  let s := match save with
    | some a => expWriteout s core a
    | none => s
  let s := s.updGang core slot fun g => { g with departed := true }
  forceParked s core slot

/-- A record of a core binds an accumulator slot (R166, R350): a spilled slot is no slot. -/
def recBinds (s : State) (m : RecMeta) (slot : Nat) : Bool :=
  let h := readHead s m
  (List.range 4).any fun k => 8 ≤ h.bindNib k && h.bindNib k < 12 && h.bindNib k % 4 = slot

/-- Slices and records that bind a slot: its bind count (R350, R386). -/
def bindCount (s : State) (core slot : Nat) : Nat :=
  (s.gangs.filter fun g => g.core == core).foldl (fun n g =>
    n + (g.slices.filter fun x => x.live != 0 && x.bind.contains (some slot)).length) 0 +
  (s.recs.filter fun m => m.core == core && m.group.isSome && recBinds s m slot).length

/-- A slot whose bind count is 0 is freed when no operation names it (R354, R387). -/
def sweepSlots (s : State) (core : Nat) : State :=
  s.setCore core fun k => { k with
    slots := k.slots.zipIdx.map fun e => e.1 && (bindCount s core e.2 != 0 || !(opsOnSlot s core e.2).isEmpty) }

/-- Threads of a slice end (R138): the launches and the group count them, the slice settles, and a slice
without live lanes is gone once its results are written (R20). -/
def endLanes (s : State) (core slot pos : Nat) (m : BitVec 4) : State :=
  match s.gang core slot with
  | none => s
  | some g =>
    match g.slice pos with
    | none => s
    | some x =>
      let gone := m &&& x.live
      let y := x.loseLanes gone
      let y := { y with lanes := y.lanes.zipIdx.map fun e => if hasLane gone e.2 then { e.1 with xbound := false } else e.1 }
      let unbound := y.xsave.isSome && !(y.lanes.any fun t => t.xbound)
      let y := if unbound then { y with xsave := none } else y
      let s := s.updSlice core slot pos fun _ => y
      let s := match x.xsave with
        | some a => if unbound then expUnbind s core a else s
        | none => s
      let s := (lidsOf x.lids gone).foldl threadEnded s
      let s := groupEnded s g.group (lanesOf gone).length
      if y.live = 0 then
        let s := sweepSlots s core
        if drained s core slot pos then reform (removeSlice s core slot pos) core slot
        else reform (s.updSlice core slot pos fun x => { x with st := .dead }) core slot
      else s

/-- A slice that has ended is removed once its results are written. -/
def reap (s : State) (core slot pos : Nat) : State :=
  match s.gang core slot with
  | none => s
  | some g =>
    match g.slice pos with
    | some x => if x.st = .dead && drained s core slot pos then removeSlice s core slot pos else reform s core slot
    | none => s

/-! ## Records and bins -/

def State.rec? (s : State) (rid : Nat) : Option RecMeta := s.recs.find? fun r => r.rid == rid
def State.updRec (s : State) (rid : Nat) (h : RecMeta → RecMeta) : State :=
  { s with recs := updWhere (fun r => r.rid == rid) h s.recs }

/-- The part's write into a record. -/
def recPut (s : State) (m : RecMeta) (off : Nat) (bs : List Byte) : State :=
  match m.body with
  | some b => s.updRec m.rid fun r => { r with body := some (patch b off bs) }
  | none => poolPut s (m.pa + off) bs

/-! ## Aging (R212) -/

/-- The starvation bound in clk. -/
def starveClk (s : State) (die : Nat) : Nat := (s.dieRegs die).starve * 850

def raisePrio (p : Nat) : Nat := if p < 22 then p + 1 else p

/-- The waiting time of the rise that follows one at a waiting time: the next multiple of the bound. -/
def nextRise (s : State) (die t : Nat) : Nat := (t / starveClk s die + 1) * starveClk s die

/-- A record waits in a bin or on the unbinned list. -/
def RecMeta.runnable (m : RecMeta) : Bool :=
  match m.st with
  | .binned _ => true
  | .unbinned => true
  | _ => false

/-- A rise is due: the waiting time has reached a multiple of the bound since the last one. -/
def recordAged (s : State) (m : RecMeta) : Bool := m.runnable && decide (nextRise s (m.core / 64) m.riseAt ≤ s.clk - m.since)
def subAged (s : State) (core : Nat) (u : Sub) : Bool := u.run.isNone && decide (nextRise s (core / 64) u.riseAt ≤ u.waited)

/-- The highest PRIO among records of a bin (R170). -/
def recPrio (s : State) (rid : Nat) : Nat :=
  match s.rec? rid with
  | some m => (readHead s m).prio
  | none => 0

/-- Since when a record has waited. -/
def recSince (s : State) (rid : Nat) : Nat :=
  match s.rec? rid with
  | some m => m.since
  | none => 0

def binPrio (s : State) (b : List Nat) : Nat := (b.map (recPrio s)).foldl max 0

/-- The bin of a core that holds a key. -/
def binWithKey (s : State) (core : Nat) (k : BinKey) : Option Nat :=
  (s.core core).bins.findIdx? fun b =>
    match b with
    | r :: _ => match s.rec? r with | some m => binKey s m == k | none => false
    | [] => false

/-- A runnable record goes to the bin of its key, else to an empty bin, else to the unbinned list (R169,
R170); a record held by pre-emption stays held (R428), with the time it has waited. -/
def binRecord (s : State) (rid : Nat) : State :=
  match s.rec? rid with
  | none => s
  | some m =>
    if m.pre then
      (recPut s m 8 (natToBytes 8 (kindCode .pre * 2 ^ 60))).updRec rid fun r => { r with st := .held, since := s.clk - r.since }
    else
      let place := match binWithKey s m.core (binKey s m) with
        | some b => some b
        | none => (s.core m.core).bins.findIdx? List.isEmpty
      match place with
      | some b =>
        (s.updRec rid fun r => { r with st := .binned b }).setCore m.core fun k =>
          { k with bins := updAt b (fun l => l ++ [rid]) k.bins }
      | none =>
        (s.updRec rid fun r => { r with st := .unbinned }).setCore m.core fun k =>
          { k with unbinned := k.unbinned ++ [rid] }

/-- A bin has emptied: the unbinned record of highest priority, then greatest age, takes it, with the records
of its key (R170). -/
def refill (s : State) (core : Nat) : State :=
  if (s.core core).bins.any List.isEmpty then
    let best := (s.core core).unbinned.foldl (fun b r =>
      match b with
      | none => some r
      | some q => if recPrio s q < recPrio s r || recPrio s q == recPrio s r && decide (recSince s r < recSince s q) then some r else some q) none
    match best with
    | none => s
    | some r =>
      match s.rec? r with
      | none => s
      | some m =>
        let k := binKey s m
        let same := (s.core core).unbinned.filter fun q => match s.rec? q with | some m' => binKey s m' == k | none => false
        let s := s.setCore core fun c => { c with unbinned := c.unbinned.filter fun q => !same.contains q }
        same.foldl binRecord s
  else s

/-- A record leaves its bin or the unbinned list. -/
def unbin (s : State) (rid : Nat) : State :=
  match s.rec? rid with
  | none => s
  | some m =>
    refill (s.setCore m.core fun k =>
      { k with bins := k.bins.map fun b => b.filter fun r => r != rid,
               unbinned := k.unbinned.filter fun r => r != rid }) m.core

/-- A record becomes runnable: EVENT is RUN with SUBJECT 0, its waiting time starts, and it is binned (R163). -/
def makeRunnable (s : State) (rid : Nat) : State :=
  match s.rec? rid with
  | none => s
  | some m =>
    let s := recPut s m 8 (natToBytes 8 0)
    let s := s.bump.updRec rid fun r => { r with since := s.clk, ord := s.nextId, riseAt := 0, readyAt := s.clk }
    binRecord s rid

/-- The records of slices that one instruction ended become runnable in the same clk, in position order: once the last of
those slices has left (R246). -/
def releaseMates (s : State) : State :=
  let here := s.gangs.flatMap fun g => g.slices.filterMap fun x => match x.st with
    | .ending e => some e.rid
    | .trapping t => some t.rid
    | _ => none
  let free := s.recs.filter fun m => !m.mates.isEmpty && m.mates.all fun r => !here.contains r
  (distinct (free.flatMap fun m => m.mates)).foldl (fun s rid =>
    if free.any (fun m => m.rid == rid) then makeRunnable (s.updRec rid fun r => { r with mates := [] }) rid else s) s

/-- A record is gone with everything kept beside it: its bytes, trap block and fibre block. -/
def dropRecord (s : State) (rid : Nat) : State :=
  match s.rec? rid with
  | none => s
  | some m =>
    let s := unbin s rid
    let places := (if m.body.isNone then [m.pa] else []) ++ (match m.fibre with | some f => [f.1] | none => [])
    let mine := fun (e : FaultEntry) => e.rid == some rid
    let s := if s.faults.any mine then { s with faults := updWhere mine (fun e => { e with frees := e.frees ++ places }) s.faults }
      else places.foldl poolFree s
    { s with recs := s.recs.filter fun r => r.rid != rid,
             waits := s.waits.filter fun w => w.rid != rid,
             mons := s.mons.filter fun q => match q.who with | .lane r _ => r != rid | _ => true }

/-- Images of spilled slots that no record of the group binds any more are freed (R350, R351). -/
def sweepImages (s : State) (gid : Option Nat) : State :=
  match gid with
  | none => s
  | some id =>
    let used := (s.recs.filter fun m => m.group == gid).flatMap fun m => m.images
    let gone := ((s.groups.filter fun g => g.gid == id).flatMap fun g => g.spills).filter fun a => !used.contains a
    { gone.foldl poolFree s with
      groups := updWhere (fun g => g.gid == id) (fun g => { g with spills := g.spills.filter used.contains }) s.groups }

/-- Threads of a record end as by EXIT (R147, R419): all of them, since a record is killed whole. -/
def killRecord (s : State) (rid : Nat) : State :=
  match s.rec? rid with
  | none => s
  | some m =>
    let h := readHead s m
    let live := BitVec.ofNat 4 h.live
    let s := if h.xptr != 0 then expUnbind s m.core h.xptr else s
    let s := (lidsOf m.lids live).foldl threadEnded s
    let s := groupEnded s m.group (lanesOf live).length
    sweepImages (sweepSlots (dropRecord s rid) m.core) m.group

/-- How the work of a group, or the task slices of a context, are pre-empted or held: 0 drain, 1 save, 2 flush
(R426, R428). -/
def preMethod (s : State) (die : Nat) (group : Option Nat) (ctx : Nat) : Option Nat :=
  match group with
  | some id =>
    match s.groups.find? fun g => g.gid == id with
    | some g => if g.held = 0 then none else some (g.held - 1)
    | none => none
  | none => if (s.dieRegs die).heldCtx.contains ctx then some 1 else none

/-- What a record written now carries beside its bytes. -/
def metaOf (s : State) (g : Gang) (x : Slice) (rid pa size : Nat) : RecMeta where
  rid := rid
  pa := pa
  size := size
  core := g.core
  ctx := g.ctx
  role := g.role
  group := g.group
  lids := x.lids
  handler := g.handler
  fw := g.fw
  st := .waiting
  pre := (preMethod s (g.core / 64) g.group g.ctx).isSome
  pts := (s.core g.core).pts
  since := s.clk
  ord := 0
  riseAt := 0
  dest := 240
  dregs := 0
  merr := x.merr
  waitAt := ⟨0, 0, 0⟩
  marks := x.retry
  bypass := x.bypass
  fibre := none
  exp := x.lanes.map fun t => (t.xbound, t.xitem, t.xgave)
  fences := x.lanes.map fun t => t.fence
  stuck := x.stuck
  copy := []
  tampered := false
  trap := none
  nested := none
  tasks := []
  body := none

/-- Room for a record of n bytes and its fibre block: in one tier, one after the other (R370). -/
def recordRoom (s : State) (core n fib : Nat) : Option Nat := poolAlloc s core (grain n + fib)

/-- Store a record's bytes, an optional block after it, and its fibre block, each under its own allocation. -/
def storeRecord (s : State) (ctx a : Nat) (bytes block fib : List Byte) : State :=
  let n := grain bytes.length + block.length
  let s := poolPut (poolPut (poolTake s a n ctx) a bytes) (a + grain bytes.length) block
  if fib.isEmpty then s else poolPut (poolTake s (a + grain n) fib.length ctx) (a + grain n) fib

/-- A slice that waits for pool space tells firmware once (R260, R418). -/
def poolFull (s : State) (g : Gang) (x : Slice) : State :=
  report s none (g.core / 64) none none
    { cause := 0, kind := 4, ctx := g.ctx, ident := identWord x.restart x.pc x.number x.index,
      loc := corelocOf s g.core }

/-- SEGMENT_END: once its flags have drained, a slice writes its record in the first tier with room and leaves
the sibling set; with no room it waits (R162, R260). A slice whose access has failed meanwhile has no record
of its own: `TRAP_DELIVERY` writes it (R21). While its group is pre-empted its kind is PRE (R428). -/
def finishSegment (s : State) (g : Gang) (x : Slice) (e : EndInfo) : State :=
  let pre := (preMethod s (g.core / 64) g.group g.ctx).isSome && e.kind != .fwd
  let h : RecHead := ⟨e.hdr, e.word, if pre then .pre else e.kind, if pre then 0 else e.subject, 0, e.forced, e.livev, e.liveg,
    e.livee, if e.vbud = 0 then g.vbud else e.vbud, e.waits⟩
  let fib := fibreBlock x
  match recordRoom s g.core (h.size x) fib.length with
  | none =>
    if e.full then s
    else (poolFull s g x).updSlice g.core g.slot x.pos fun x => { x with st := .ending { e with full := true } }
  | some a =>
    let bytes := recordBytes s g x h
    let s := storeRecord s g.ctx a bytes [] fib
    let m := { metaOf s g x e.rid a bytes.length with
      dest := e.dest, dregs := e.dregs, waitAt := e.waitAt, tasks := e.tasks, mates := if pre then [] else e.mates,
      fibre := if fib.isEmpty then none else some (a + grain bytes.length, fib.length) }
    let s := departSlice { s with recs := s.recs ++ [m] } g.core g.slot x.pos
    releaseMates <| match e.kind with
    | .run => if pre || e.mates.isEmpty then makeRunnable s e.rid else s
    | .pre => makeRunnable s e.rid
    | .fwd => s.updRec e.rid fun r => { r with st := .travelling ((e.fwd.getD 0).toNat) }
    | _ => s

/-- The forced end of a slice inside a clause, at a word (R60). -/
def forcedEnd (rid hdr word : Nat) (kind : EventKind) (subject : Nat) (waits : BitVec 4) (g : Gang) (x : Slice) : EndInfo :=
  ⟨rid, kind, subject, hdr, word, true, g.vbud, true, x.xsave.isSome, 0, waits, 240, 0, ⟨0, 0, 0⟩, none, [], false, []⟩

end Sys2Proof.Machine
end

