-- ==== Sys2Proof/Machine/Ops.lean ====
section
/-! DEFINITION. The operations that every instruction goes through: taking a trap (R21, R411–R415) and returning
from one (R147, R414); fetching a clause (R14, R53, R60, R73); the checks before an instruction (R22, R58,
R72); its retirement (R14, R151); the checks and the performance of its accesses (R107–R113, R263). -/

namespace Sys2Proof.Machine

/-! ## The context's tables (R471, R472) -/

def ctxWord (s : State) (ctx i : Nat) : Nat :=
  match s.context ctx with
  | some c => (c.words.getD i 0).toNat
  | none => 0

/-- Feature bit 3 of FEATACC lets a context run in debug mode and use SNAP (R475). -/
def debugOn (s : State) (ctx : Nat) : Bool := bitOf (ctxWord s ctx 5) 3 && s.regs.featacc.getLsbD 3
def snapOn (s : State) (ctx : Nat) : Bool := bitOf (ctxWord s ctx 5) 1 && s.regs.featacc.getLsbD 3

/-- An entry of the indirection table (R472). -/
inductive Entry where
  | missing (pa : Nat)
  | bad (pa : Nat)
  | empty
  | code (addr vbud : Nat) (idem : Bool) (drain : Nat)
  deriving DecidableEq, Repr

def entryOf (lo hi : Nat) : Entry :=
  if !bitOf lo 63 || fld lo 62 61 != 0 || fld hi 63 33 != 0 || fld lo 60 56 = 0 || 16 < fld lo 60 56 then .empty
  else .code (fld lo 55 0) (8 * fld lo 60 56) (bitOf hi 32) (fld hi 31 0)

/-- Bytes at a physical address whose line a die can read now. -/
def peek (s : State) (die pts pa n : Nat) : Option (List Byte) :=
  if lineHere s die pts pa false then
    some (if isOwn s pa then readBytes s (localOf pa) n
          else match copyAt s die pa with
            | some c => (c.data.drop (pa % 128)).take n
            | none => List.replicate n 0)
  else none

/-- The address of an entry of a context's table. -/
def tableEntry (s : State) (ctx ix : Nat) : Nat := ctxWord s ctx 1 % 2 ^ 54 + 16 * ix

/-- Look up an index. An address that is not a multiple of 8 cannot name a clause header and counts as given. An entry whose line
cannot be read is none; what its reader then does stands with it (R315, log entry 138). -/
def lookupEntry (s : State) (die pts ctx ix : Nat) : Entry :=
  if fld (ctxWord s ctx 2) 31 0 ≤ ix then .empty
  else
    let pa := tableEntry s ctx ix
    match peek s die pts pa 16 with
    | none => .missing pa
    | some b => if badAt s die pa 16 then .bad pa else entryOf (bytesToNat (b.take 8)) (bytesToNat (b.drop 8))

/-- An entry has been read: its line is corrected (R314), or reported (R315). -/
def entryRead (s : State) (die ctx ix : Nat) : Entry → State
  | .bad pa => noteBad s die pa
  | .missing _ => s
  | _ => if fld (ctxWord s ctx 2) 31 0 ≤ ix then s else scrubAt s (tableEntry s ctx ix) 16

/-! ## The snapshot trigger (R148, R434) -/

/-- Every block of the module, in the order the trigger may reach them: cores, then dies, then homes. -/
def snapBlocks (s : State) : List Nat :=
  (List.range 256).filter (fun c => s.coreOn c) ++ (List.range 20).map fun i => 256 + i

/-- Fire the trigger: a trigger that finds a latched snapshot only counts. -/
def fireSnapshot (s : State) (src cause tag core pc : Nat) : State :=
  let r := s.regs
  if r.snapLatched then { s with regs := { r with snapMissed := min 65535 (r.snapMissed + 1) } }
  else
    { s with
      regs := { r with
        snapLatched := true, snapSrc := src, snapCause := cause, snapTag := tag, snapPc := pc,
        snapOrigin := core / 64 % 4 * 256 + core % 64 },
      snapDue := snapBlocks s }

/-! ## Taking a trap (R21, R22, R411) -/

/-- One slice's trap: its cause, TLANES, AUX and FADDR (R412). -/
structure Hit where
  pos : Nat
  cause : Cause
  lanes : BitVec 4
  aux : Nat
  faddr : List Nat
  deriving DecidableEq, Repr

/-- A cause decided by one lane, with an address for the causes that have one. -/
def hitAt (pos lane : Nat) (cause : Cause) (addr : Nat := 0) : Hit :=
  ⟨pos, cause, laneBit lane, 0, (List.range 4).map fun l => if l = lane then addr else 0⟩

def lowLane (m : BitVec 4) : Nat := (lanesOf m).headD 0

/-- A slice takes a trap at a word: an armed cause fires the snapshot trigger after the precise point, and the
slice drains its flags (R411 step 1, R434). -/
def takeTrap (s : State) (core slot : Nat) (t : TrapInfo) (pos : Nat) : State :=
  let c := causeCode t.cause
  let s := if s.regs.snapMask.getLsbD c then fireSnapshot s 3 c 0 core t.pc else s
  s.updSlice core slot pos fun x => { x with st := .trapping t, retry := [], walked := none, bypass := false }

/-- The trap block (R412), with the attribution of R196. -/
def trapBlock (x : Slice) (t : TrapInfo) (seq : Nat) : List Byte :=
  let attr := (List.range 4).flatMap fun k =>
    let l := x.lane k
    if l.xbound then [l.e0.toNat, l.e1.toNat, l.e3.toNat] else [0xffffffff, 0, 0]
  natToBytes 8 (causeCode t.cause * 2 ^ 58 + t.tlanes.toNat * 2 ^ 48 + t.aux % 256 * 2 ^ 40 + t.cwords % 64 * 2 ^ 8 + t.ilen % 4) ++
  natToBytes 8 (t.pc % 2 ^ 56) ++ (List.range 4).flatMap (fun k => natToBytes 8 (t.faddr.getD k 0)) ++
  attr.flatMap (natToBytes 4) ++ natToBytes 8 seq ++ natToBytes 24 0

/-- Header and registers of a slice that no gang has held yet (R19, R182, R413): four v0–v7 images. -/
def newBody (ctx prio number index vbud entry : Nat) (live : BitVec 4) (rstate : List W32) (regs : List (List W32)) :
    List Byte :=
  let x : Slice :=
    { pos := 0, pc := entry, active := live, live := live, tokens := [], flags := [], bind := List.replicate 4 none,
      prio := prio, lids := [], number := number, index := index, restart := none, stuck := false, xsave := none,
      lanes := (List.range 4).map fun k => { Lane.start with rstate := rstate.getD k 0 }, merr := [], retry := [],
      walked := none, bypass := false, st := .dead }
  let g : Gang :=
    { core := 0, slot := 0, base := 0, vbud := vbud, gbud := 64, ctx := ctx, role := .general, group := none,
      handler := none, fw := false, g := [], h := [], islot := 0, departed := false, slices := [], subs := [] }
  (headWords g x ⟨entry, 0, .run, 0, 0, false, 8, false, false, vbud, 0⟩).flatMap (natToBytes 8) ++
  (List.range 8).flatMap fun j => (List.range 4).flatMap fun k => natToBytes 4 ((regs.getD k []).getD j 0).toNat

/-- A record that no slice has written: a slice of tasks, or a handler slice. -/
def bareRecord (s : State) (rid core ctx : Nat) (lids : List Nat) (handler : Option Nat) (body : List Byte) : RecMeta where
  rid := rid
  pa := 0
  size := body.length
  core := core
  ctx := ctx
  role := .general
  group := none
  lids := lids
  handler := handler
  fw := false
  st := .waiting
  pre := (preMethod s (core / 64) none ctx).isSome
  pts := (s.core core).pts
  since := s.clk
  ord := 0
  riseAt := 0
  dest := 240
  dregs := 0
  merr := []
  waitAt := ⟨0, 0, 0⟩
  marks := []
  bypass := false
  fibre := none
  exp := List.replicate 4 (false, false, false)
  fences := List.replicate 4 FenceMark.none
  stuck := false
  copy := []
  tampered := false
  trap := none
  nested := none
  tasks := []
  body := some body

/-- HANDLER_SLICE_FORM (R413): the handler slice for a held record at pa with its trap block; none when the
context gives no usable entry. -/
def formHandler (s : State) (core ctx pa block : Nat) : Option State :=
  let ix := fld (ctxWord s ctx 2) 63 32
  if ix = 0xffffffff then none
  else match lookupEntry s (core / 64) (s.core core).pts ctx ix with
    | .code addr vbud _ _ =>
      let w := fun (v : Nat) => BitVec.ofNat 32 v
      let regs := [[w pa, w (pa / 2 ^ 32), w block, w (block / 2 ^ 32), 0, 0, 0, 0]]
      let rid := s.nextId
      let body := newBody ctx 23 0 0xffffff vbud addr 1 [w pa ^^^ 0x9e3779b9#32] regs
      let m := bareRecord s rid core ctx [0, 0, 0, 0] (some pa) body
      some (makeRunnable { s.bump with recs := s.recs ++ [m] } rid)
    | _ => none

/-- The line that the look-up of a context's handler still waits for (R413, R472). -/
def handlerLine (s : State) (core ctx : Nat) : Option Nat :=
  let ix := fld (ctxWord s ctx 2) 63 32
  if ix = 0xffffffff then none
  else match lookupEntry s (core / 64) (s.core core).pts ctx ix with
    | .missing pa => some pa
    | _ => none

/-- The look-up of a context's handler reads its entry. -/
def readHandler (s : State) (core ctx : Nat) : State :=
  let ix := fld (ctxWord s ctx 2) 63 32
  if ix = 0xffffffff then s else entryRead s (core / 64) ctx ix (lookupEntry s (core / 64) (s.core core).pts ctx ix)

/-- The report of a trap (R417). -/
def trapReport (s : State) (g : Gang) (x : Slice) (t : TrapInfo) (kind : Nat) (nohandler : Bool) (hdr : Nat) : Report :=
  let l := lowLane t.tlanes
  let z := x.lane l
  let attr := if z.xbound then z.e0.toNat + z.e1.toNat * 2 ^ 32 + z.e3.toNat * 2 ^ 64 else 0xffffffff
  { cause := causeCode t.cause, kind := kind, nohandler := nohandler, lanes := t.tlanes.toNat, ctx := g.ctx, pc := t.pc,
    addr := t.faddr.getD l 0, ident := identWord x.restart hdr x.number x.index, attr := attr, loc := corelocOf s g.core }

/-- TRAP_DELIVERY (R411–R415): the forced record with its trap block and fibre block, the fault-queue entry,
the hold, and the handler slice. A trap of a handler is NESTED and has no handler. The waits of a slice that
was ending its segment stay with the record. -/
def deliverTrap (s : State) (g : Gang) (x : Slice) (t : TrapInfo) : State :=
  let waits := (s.waits.filter fun w => w.rid == t.rid && w.fired.isNone).foldl (fun m w => m ||| laneBit w.lane) 0#4
  let h : RecHead := ⟨t.hdr, t.word, .trap, 0, causeCode t.cause, true, g.vbud, true, x.xsave.isSome, g.vbud, waits⟩
  let fib := fibreBlock x
  let size := grain (h.size x)
  match poolAlloc s g.core (size + 128 + fib.length) with
  | none =>
    if t.full then s
    else (poolFull s g x).updSlice g.core g.slot x.pos fun x => { x with st := .trapping { t with full := true } }
  | some a =>
    let rid := t.rid
    let bytes := recordBytes s g x h
    let nested := g.handler.isSome
    let pa := ownPa s a
    let s := if nested then s else readHandler s g.core g.ctx
    let formed := if nested then none else formHandler s g.core g.ctx pa (pa + size)
    let nohandler := !nested && formed.isNone
    let s := formed.getD s
    let rep := trapReport s g x t (if nested then 1 else 0) nohandler t.hdr
    let seq := nextSeq s (some g.ctx)
    let s := report s (some g.ctx) (g.core / 64) (some rid) none rep
    let s := if nested || nohandler then report s none (g.core / 64) none none rep else s
    let s := storeRecord s g.ctx a bytes (trapBlock x t seq) fib
    let m := { metaOf s g x rid a bytes.length with
      st := .held, trap := some t, copy := bytes, fibCopy := fib, nested := if nested then g.handler else none,
      dest := t.dest, dregs := t.dregs, waitAt := t.waitAt, tasks := t.tasks,
      fibre := if fib.isEmpty then none else some (a + size + 128, fib.length) }
    releaseMates (departSlice { s with recs := s.recs ++ [m] } g.core g.slot x.pos)

/-! ## Return from a trap (R147, R414) -/

inductive Release where
  | retry | skip | kill
  deriving DecidableEq, Repr

/-- A byte of a held record that its handler may write: RESUME, PRED and FP of LANES, RSTATE, the v body and the
g block. PRED and FP share bytes with other fields, which `fieldsKept` checks. -/
def writable (h : RecImage) (i : Nat) : Bool :=
  i < 8 || 0x18 ≤ i && i < 0x20 || 0x30 ≤ i && i < 0x40 || 128 ≤ i && i < h.xOff

/-- The protected part of a record equals the copy kept of it (R414). -/
def fieldsKept (s : State) (m : RecMeta) : Bool :=
  let now := recBytes s m 0 m.size
  let h := readHead s m
  let old := bytesToNat ((m.copy.drop 0x18).take 8)
  let new := h.w 3
  let resume := bytesToNat (m.copy.take 8)
  ((now.zip m.copy).zipIdx.all fun e => writable h e.2 || e.1.1 == e.1.2) &&
  (match m.fibre with | some f => poolBytes s f.1 f.2 == m.fibCopy | none => true) &&
  fld old 63 60 == fld new 63 60 && fld old 11 0 == fld new 11 0 && (h.w 0 == resume || h.word == 0)

/-- TRET.SKIP's resume point: the word after the trapping instruction, or the next clause header (R147). -/
def skipTo (t : TrapInfo) : Nat :=
  if t.late || t.ilen = 0 then resumeWord t.hdr t.word
  else if t.cwords < t.word + t.ilen then resumeWord (t.hdr + 8 * (1 + t.cwords)) 0
  else resumeWord t.hdr (t.word + t.ilen)

/-- Release a held record to the bins; an event still outstanding keeps it waiting. -/
def releaseRecord (s : State) (m : RecMeta) (how : Release) : State :=
  match how with
  | .kill => killRecord s m.rid
  | _ =>
    let s := match how, m.trap with
      | .skip, some t => recPut s m 0 (natToBytes 8 (skipTo t))
      | _, _ => s
    let ctl := (readHead s m).w 2
    let s := recPut s m 0x10 (natToBytes 8 (ctl % 2 ^ 58))
    let s := recPut s m 8 (natToBytes 8 0)
    let s := s.updRec m.rid fun r => { r with trap := none, copy := [], fibCopy := [], st := .waiting, bypass := how == .retry, pts := max r.pts (s.latest + 1) }
    if (readHead s m).waits = 0 then makeRunnable s m.rid else s

/-! ## Fetching (R14, R53, R60, R73) -/

inductive Fetched (α : Type) where
  | ok (v : α)
  | trap (cause : Cause) (addr : Nat)
  | walk (va : Nat)
  | ask (pa : Nat)
  | bad (pa : Nat)
  deriving Repr

/-- The values that a code word had, with the numbers of the stores that ended them. -/
def oldWords (s : State) (key : Nat) : List (W64 × Nat) := (s.stale.filter fun e => e.1 == key).map fun e => e.2

/-- The views of a code word and the word after it that a fetch may take (R73): as they are, or as they were before one of the
stores to them. -/
def codeViews (s : State) (key : Nat) : List Nat :=
  codeOrd s :: distinct ((s.stale.filter fun e => e.1 == key || e.1 == key + 8).map fun e => e.2.2 - 1)

/-- Where the versions of a code word are kept: by local address, or by the physical one of another module. -/
def codeKey (s : State) (pa : Nat) : Nat := if isOwn s pa then localOf pa else 2 ^ 60 + pa

/-- Another module's line, once fetched, may stay in an instruction cache as it was (R73). -/
def noteCode (s : State) (die pa : Nat) : State :=
  if isOwn s pa then s
  else
    let new := (List.range 16).map fun i =>
      (2 ^ 60 + lineOf pa + 8 * i, BitVec.ofNat 64 (bytesToNat (lineBytes s die (lineOf pa + 8 * i) 8)), codeOrd s)
    if new.all fun e => (oldWords s e.1).getLast?.map (fun q => q.1) == some e.2.1 then s
    else { s with stale := s.stale ++ new }

/-- The word at a code address as a context sees it (R261), in a view chosen freely, or in view `ver` (an extension goes with its
first word). -/
def codeWord (s : State) (die ctx pa : Nat) (ver : Option Nat) : W64 × Nat :=
  let key := codeKey s pa
  let views := codeViews s key
  let v := ver.getD (views.getD ((Config.freeBits s.fresh key).toNat % views.length) 0)
  if isOwn s pa && !poolOpen s ctx (placeOf s (localOf pa)) then (0, v)
  else match (oldWords s key).find? fun e => decide (v < e.2) with
    | some e => (e.1, v)
    | none => (BitVec.ofNat 64 (bytesToNat (lineBytes s die pa 8)), v)

/-- Cause of a lane's walk failure. -/
def causeOf (mark : Nat) : Cause := if mark % 64 = 14 then .memerr else .xnp

/-- The mark of a failed walk for a page, of one lane or of any (R271, R436). -/
def markFor (x : Slice) (lane : Option Nat) (va : Nat) : Option Nat :=
  (x.retry.find? fun e => e.2 / 64 == va / 0x10000 && (lane.isNone || lane == some e.1)).map fun e => e.2

/-- The slice in whose name a sub-gang fetches: one of them in its retry after a trap bypasses the walk cache (R437). -/
def fetcher (xs : List Slice) (x : Slice) : Slice := { x with bypass := xs.any fun y => y.bypass }

/-- The slices whose walk for a page failed: they trap instead of walking again (R271, R436). -/
def markedFor (xs : List Slice) (va : Nat) : List (Slice × Cause) :=
  xs.filterMap fun x => (markFor x none va).map fun m => (x, causeOf m)

/-- Fetch one word for a slice: translation, execute permission, a normal page of memory (R249, R262). -/
def fetchWord (s : State) (g : Gang) (x : Slice) (va : Nat) (ver : Option Nat) : State × Fetched (W64 × Nat) :=
  let die := g.core / 64
  match translate s die (some g.core) g.ctx va x.bypass with
  | (s, .xnp) => (s, .trap .xnp va)
  | (s, .walk) => (s, .walk va)
  | (s, .ok t) =>
    if !permitted t.pte g.fw 16 || pteType t.pte != 0 || !isHbm t.pa then (s, .trap .xperm va)
    else if lineFailed s (.core g.core) t.pa then (clearFailed s (.core g.core) [t.pa], .bad t.pa)
    else if !lineHere s die (s.core g.core).pts t.pa false then (s, .ask t.pa)
    else if badAt s die t.pa 8 then (noteBad s die t.pa, .bad t.pa)
    else
      let s := scrubAt s t.pa 8
      (noteCode s die t.pa, .ok (codeWord s die g.ctx t.pa ver))

/-- Fetch n counted words from va on. -/
def fetchWords (s : State) (g : Gang) (x : Slice) (va : Nat) : Nat → Option Nat → State × Fetched (List W64)
  | 0, _ => (s, .ok [])
  | n + 1, ver =>
    match fetchWord s g x va ver with
    | (s, .ok (w, k)) =>
      let ver' := if ver.isNone && wordCount w = 2 then some k else none
      match fetchWords s g x (va + 8) n ver' with
      | (s, .ok ws) => (s, .ok (w :: ws))
      | r => r
    | (s, .trap c a) => (s, .trap c a)
    | (s, .walk v) => (s, .walk v)
    | (s, .ask p) => (s, .ask p)
    | (s, .bad p) => (s, .bad p)

/-- Instructions that a word of one word counts as: a pair word two, a header word none (R50). -/
def formCount (w : W64) : Nat := match fld w.toNat 63 62 with | 0 => 2 | 3 => 0 | _ => 1

/-- Instructions of a clause; none when an extension word falls outside it (R53). -/
def countInstrs : List W64 → Option Nat
  | [] => some 0
  | [w] => if wordCount w = 2 then none else some (formCount w)
  | w :: x :: r => if wordCount w = 2 then (countInstrs r).map (· + 1) else (countInstrs (x :: r)).map (· + formCount w)

/-- The fields of a header (R53). -/
def headerOk (h : W64) : Bool :=
  let v := h.toNat
  let fl := fun k => decide (k ≤ 11) || k == 15
  fld v 63 62 == 3 && 1 ≤ fld v 41 36 && fld v 41 36 ≤ 48 && fl (fld v 49 46) && fl (fld v 45 42) && fld v 31 24 ≤ 128 &&
  (bitOf v 35 || fld v 31 22 == 0) && !bitOf v 32 && fld v 21 0 == 0

/-- A whole clause: its header and counted words, checked (R14 step 1, R17, R53). -/
def fetchClause (s : State) (g : Gang) (x : Slice) (pc : Nat) : State × Fetched (W64 × List W64) :=
  if 2 ^ 56 ≤ pc then (s, .trap .pcOvf pc)
  else match fetchWord s g x pc none with
    | (s, .ok (h, _)) =>
      let n := fld h.toNat 41 36
      if fld h.toNat 63 62 != 3 then (s, .trap .ill pc)
      else if 2 ^ 56 < pc + 8 * (n + 1) then (s, .trap .pcOvf pc)
      else match fetchWords s g x (pc + 8) n none with
        | (s, .ok ws) =>
          if !headerOk h then (s, .trap .ill pc)
          else match countInstrs ws with
            | none => (s, .trap .ill pc)
            | some k =>
              if 24 < k then (s, .trap .ill pc)
              else if bitOf h.toNat 33 then (s, .trap .endRun pc)
              else (s, .ok (h, ws))
        | (s, .trap c a) => (s, .trap c a)
        | (s, .walk v) => (s, .walk v)
        | (s, .ask p) => (s, .ask p)
        | (s, .bad p) => (s, .bad p)
    | (s, .trap c a) => (s, .trap c a)
    | (s, .walk v) => (s, .walk v)
    | (s, .ask p) => (s, .ask p)
    | (s, .bad p) => (s, .bad p)

/-! ## Leaving inside a clause -/

/-- Where a sub-gang stands: clause, word, counted words, length of the instruction (0 at clause fetch). -/
structure Spot where
  hdr : Nat
  word : Nat
  cwords : Nat
  ilen : Nat
  deriving DecidableEq, Repr

def Spot.pc (p : Spot) : Nat := p.hdr + 8 * p.word

/-- The trap of one slice at a spot. -/
def trapInfo (rid : Nat) (p : Spot) (h : Hit) : TrapInfo where
  rid := rid
  dest := 240
  dregs := 0
  waitAt := ⟨0, 0, 0⟩
  tasks := []
  cause := h.cause
  late := false
  pc := p.pc
  hdr := p.hdr
  word := p.word
  cwords := if p.ilen = 0 then 0 else p.cwords
  ilen := p.ilen
  tlanes := h.lanes
  aux := h.aux
  faddr := h.faddr
  full := false

/-- Slices of a sub-gang meet causes: each of them traps, and every other slice with an active lane leaves with
a forced record that runs the instruction again (R411). -/
def trapSlices (s : State) (g : Gang) (sub : Nat) (p : Spot) (hits : List Hit) : State :=
  let s := (g.slicesOf sub).foldl (fun s x =>
    match hits.find? fun h => h.pos == x.pos with
    | some h => takeTrap s.bump g.core g.slot (trapInfo s.nextId p h) x.pos
    | none =>
      if x.active = 0 then s
      else endSegment s.bump g.core g.slot x.pos (forcedEnd s.nextId p.hdr p.word .run 0 0 g x)) s
  tidyGang s g.core g.slot

/-- One lane's need of a page walk. -/
structure Need where
  pos : Nat
  lane : Nat
  va : Nat
  deriving DecidableEq, Repr

/-- SUBJECT of a WALK event (R271). -/
def walkSubject (die va : Nat) : Nat := fld va 55 16 * 2 ^ 16 + die % 4

/-- Register an awaited event of a lane. -/
def addWait (s : State) (rid lane : Nat) (k : WaitKind) : State :=
  { s with nextId := s.nextId + 1, waits := s.waits ++ [⟨rid, lane, k, s.nextId, none, false, []⟩] }

/-- Slices that need walks leave with forced WALK records at the instruction (R113, R58). -/
def walkSlices (s : State) (g : Gang) (sub : Nat) (p : Spot) (needs : List Need) : State :=
  let die := g.core / 64
  let s := (g.slicesOf sub).foldl (fun s x =>
    match needs.filter fun n => n.pos == x.pos with
    | [] => s
    | n :: ns =>
      let rid := s.nextId
      let waits := (n :: ns).foldl (fun m q => m ||| laneBit q.lane) 0#4
      let s := (n :: ns).foldl (fun s q =>
        askWalk (addWait s rid q.lane (.walk die g.ctx (q.va / 0x10000))) die g.ctx (q.va / 0x10000) g.fw) s.bump
      endSegment s g.core g.slot x.pos (forcedEnd rid p.hdr p.word .walk (walkSubject die n.va) waits g x)) s
  tidyGang s g.core g.slot

/-! ## The checks before an instruction's own effect (R22, R58, R72) -/

/-- What an instruction's own effect comes to: done in a state; slices that trap; lanes that need walks; or a
bounded stall. -/
inductive Body where
  | done (s : State)
  | trap (s : State) (hits : List Hit)
  | walk (s : State) (needs : List Need)
  | stall (s : State)
  deriving Repr

/-- Segment-ending (R58). -/
def segEnding (i : Instr) : Bool :=
  match i with
  | .bwait _ | .bwaitRemote _ | .waitc _ | .fwait _ | .ldfe _ | .racqP _ | .racqC _ | .qwait _ | .qwaitNb _ | .regang _ |
    .cont _ | .fwd _ | .spawn _ => true
  | .mov f => 200 ≤ f.a.toNat && f.a.toNat < 216
  | .st f => 200 ≤ f.d.toNat && f.d.toNat < 216
  | _ => false

/-- Stack checks of JOIN and BRKJ (R155). -/
def stackOk (i : Instr) (x : Slice) : Bool :=
  match i with
  | .join _ => x.tokens.any fun t => t.isJoin || t.isBrk
  | .brkj _ => x.tokens.any Token.isBrk
  | _ => true

/-- RCV must be unguarded (R155). -/
def rcvOk (i : Instr) (f : Fields) : Bool :=
  match i with
  | .rcvJ _ | .rcvB _ => f.guard == 7#3 && !f.gneg
  | _ => true

def maintOnly (i : Instr) : Bool :=
  match i with
  | .addc _ | .subb _ | .madc _ => true
  | _ => false

/-- Order 5 of R72: privilege that the state alone decides. -/
def privOk (s : State) (g : Gang) (i : Instr) : Bool :=
  match i with
  | .cmaintRepair _ => g.fw
  | .gets f => f.c.toNat != 0x0a || g.handler.isSome
  | .snap _ => snapOn s g.ctx
  | _ => true

/-- Order 6 of R72: every v and g register named lies below its budget. -/
def budgetOk (g : Gang) (D : Desc) (f : Fields) : Bool :=
  Slot.all.all fun sl =>
    match useOf D f sl with
    | .op w _ =>
      let c := sl.code f
      let n := (regsOf D f w).1
      if c < 128 then c + n ≤ g.vbud else if c < 192 then c - 128 + n ≤ g.gbud else true
    | _ => true

/-- The same for a pair word. -/
def pairRegs (h1 h2 : Half) : List Nat :=
  halfReads h1 ++ halfReads h2 ++ (halfWrites h1).toList ++ (halfWrites h2).toList

/-- Roles of a pair half (R116): floating point is for vector and general gangs. -/
def halfFloat (h : Half) : Bool := 0x50 ≤ h.pop.toNat && h.pop.toNat < 0x68

/-- The queue codes that a source read pops (R364, R375): every q operand but the base of a window. -/
def popCodes (D : Desc) (f : Fields) : List Nat :=
  Slot.all.filterMap fun sl =>
    match useOf D f sl with
    | .op _ ks =>
      if 224 ≤ sl.code f && sl.code f < 240 && ks.contains .q then some (sl.code f) else none
    | _ => none

/-- Decode causes by slice (R72): the first check that fails decides. -/
def decodeHits (s : State) (g : Gang) (sub : Nat) (i : Instr) (D : Desc) (f : Fields) (lastWord : Bool) : List Hit :=
  let xs := (g.slicesOf sub).filter fun x => x.active != 0
  let all := fun c => xs.map fun x => hitAt x.pos (lowLane x.active) c
  if !i.wf || maintOnly i && !(s.core g.core).maint then all .ill
  else if (D.last || segEnding i) && !lastWord || !rcvOk i f then all .ill
  else
    let bad := xs.filter fun x => !stackOk i x
    if !bad.isEmpty then bad.map fun x => hitAt x.pos (lowLane x.active) .ill
    else if !privOk s g i then all .priv
    else
      let budget := match i with
        | .pairWord h1 h2 => (pairRegs h1 h2).all fun r => decide (r < g.vbud)
        | _ => budgetOk g D f
      let role := match i with
        | .pairWord h1 h2 => !(halfFloat h1 || halfFloat h2) || g.role == .vector || g.role == .general
        | _ => D.roles.contains g.role && (g.role != .matrix || (popCodes D f).all fun c => decide (232 ≤ c))
      if !budget then all .budget else if !role then all .role else []

/-- The active lanes in which an instruction touches an outstanding result: the guard is read in every one of them, the
rest only where it is true (R11, R432). -/
def hazardLanes (s : State) (g : Gang) (f : Fields) (x : Slice) (c : Nat) : List Nat :=
  (lanesOf x.active).filter fun l => outstanding s g x.pos l c && (guardTrue s g x l f || f.guard != 7#3 && c == 192 + f.guard.toNat)

/-- The lowest operand code whose result is outstanding in some lane of a slice that executes the instruction (R432). -/
def hazardCode (s : State) (g : Gang) (i : Instr) (D : Desc) (f : Fields) (x : Slice) : Option Nat :=
  let codes := match i with
    | .pairWord h1 h2 => pairRegs h1 h2
    | _ => touched D f
  (codes.filter fun c => !(hazardLanes s g f x c).isEmpty).foldl (fun b c =>
    some (match b with | some d => min c d | none => c)) none

/-- HAZARD (R22 order 3); PREF raises no trap after decode (R114). -/
def hazardHits (s : State) (g : Gang) (sub : Nat) (i : Instr) (D : Desc) (f : Fields) : List Hit :=
  if !debugOn s g.ctx || D.op == 0x42 then []
  else (g.slicesOf sub).filterMap fun x =>
    if x.active = 0 then none
    else (hazardCode s g i D f x).map fun c => { hitAt x.pos ((hazardLanes s g f x c).headD 0) .hazard with aux := c }

/-- The ports that a window operand names. -/
def windowCodes (D : Desc) (f : Fields) : List Nat :=
  Slot.all.filterMap fun sl =>
    match useOf D f sl with
    | .op w ks => if 232 ≤ sl.code f && sl.code f < 240 && (w == .w64 && ks.contains .port) then some (sl.code f) else none
    | _ => none

/-- What stands at the head of a queue or port. -/
inductive Head where
  | none | unfilled | entry (words : List W32)
  deriving DecidableEq, Repr

/-- The words of a 128-byte entry in memory. -/
def wordsAt (s : State) (la n : Nat) : List W32 := (List.range n).map fun i => BitVec.ofNat 32 (readNat s (la + 4 * i) 4)

def headOf (s : State) (core code : Nat) : Head :=
  if code < 232 then
    match (s.core core).queues.getD (code - 224) [] with
    | [] => .none
    | e :: _ => match e.words with | some w => .entry w | Option.none => .unfilled
  else
    let p := (s.core core).ports.getD (code - 232) Port.unbound
    if p.kind = 1 then
      match (s.stream p.queue).entries with
      | e :: _ => .entry e.2
      | [] => .none
    else if p.kind = 2 then
      match p.entries with
      | e :: _ => .entry e
      | [] => .none
    else if p.kind = 4 && p.count != 0 then
      .entry (wordsAt s (windowBase core + 0x80000 + p.queue + 128 * p.head) 32)
    else .none

/-- Die and entry of a handle (R356). -/
def futKey (h : Nat) : Nat := fld h 31 30 * 16384 + fld h 29 16
def futGen (h : Nat) : Nat := h % 2 ^ 16
def futAt (s : State) (h : Nat) : Fut := tabGet Fut.free s.futs (futKey h)
def setFut (s : State) (h : Nat) (k : Fut → Fut) : State :=
  { s with futs := tabPut Fut.free s.futs (futKey h) (k (futAt s h)) }

/-- The operation whose completion a handle shows. -/
def opOfHandle (s : State) (h : Nat) : List Nat := if (futAt s h).gen = futGen h && futGen h != 0 then [(futAt s h).op] else []

/-- The completion of a future has been observed (R357). -/
def observeFut (s : State) (h : Nat) : State :=
  if (futAt s h).gen = futGen h && futGen h != 0 then setFut s h fun f => { f with observed := true } else s

/-- One outstanding entry of a slot has been popped; the slot frees with its last one (R484). -/
def lowerHeld (slot : Nat) : List (Nat × Nat) → List (Nat × Nat)
  | [] => []
  | (k, n) :: t => if k = slot then (if n ≤ 1 then t else (k, n - 1) :: t) else (k, n) :: lowerHeld slot t

/-- Pop the head entry, which observes the FETCH that filled it (R357). A FETCH that waits for room reserves by
a step of its own. -/
def popHead (s : State) (core code : Nat) : State :=
  if code < 232 then
    let s := match (s.core core).queues.getD (code - 224) [] with
      | e :: _ => observeFut s e.handle
      | [] => s
    s.setCore core fun k => { k with queues := updAt (code - 224) List.tail k.queues }
  else
    let p := (s.core core).ports.getD (code - 232) Port.unbound
    if p.kind = 1 then
      s.setStream p.queue fun t =>
        match t.entries with
        | e :: r => { t with entries := r, held := lowerHeld e.1 t.held }
        | [] => t
    else
      s.setCore core fun k => { k with
        ports := updAt (code - 232) (fun p =>
          if p.kind = 2 then { p with entries := p.entries.tail, popped := p.popped + 1 }
          else { p with head := (p.head + 1) % 16, count := p.count - 1, masks := p.masks.tail }) k.ports }

/-- The check of the following resume header (R58), for the slices with a guard-true lane (R11). DESIGN CHOICE (log entry
123): R22 lists no MEMERR at this stage; a header whose line is uncorrectable or failed traps MEMERR with the header's
address. -/
inductive ResumeCheck where
  | ok (s : State) (h : W64)
  | trap (s : State) (hits : List Hit)
  | walk (s : State) (needs : List Need)
  | stall (s : State)
  deriving Repr

def resumeCheck (s : State) (g : Gang) (f : Fields) (xs : List Slice) (next : Nat) : ResumeCheck :=
  let all := fun c a => xs.map fun x => hitAt x.pos (lowLane (guardMask s g f x)) c a
  match xs with
  | [] => .ok s 0
  | x :: _ =>
    if 2 ^ 56 ≤ next then .trap s (all .pcOvf 0)
    else match fetchWord s g (fetcher xs x) next none with
      | (s, .ok (h, _)) =>
        let v := h.toNat
        if fld v 63 62 == 3 && decide (2 ^ 56 < next + 8 * (fld v 41 36 + 1)) then .trap s (all .pcOvf 0)
        else if fld v 63 62 != 3 || !bitOf v 35 || 128 < fld v 31 24 then .trap s (all .ill 0)
        else if g.vbud < fld v 31 24 then .trap s (all .budget 0)
        else .ok s h
      | (s, .trap c a) => .trap s (all c a)
      | (s, .walk va) =>
        if !(markedFor xs va).isEmpty then
          .trap s ((markedFor xs va).map fun e => hitAt e.1.pos (lowLane (guardMask s g f e.1)) e.2 va)
        else .walk s (xs.flatMap fun x => (lanesOf (guardMask s g f x)).map fun l => ⟨x.pos, l, va⟩)
      | (s, .ask pa) => .stall (askLine s (g.core / 64) (.core g.core) (s.core g.core).pts pa false)
      | (s, .bad _) => .trap s (all .memerr next)

/-! ## Retirement (R14, R151) -/

/-- Instructions that leave a slice clean for flush (R429), by their major opcodes; stores to pages that are not
normal, and changes of the active mask or the stack, are seen by their effects. -/
def cleanOp (i : Instr) (D : Desc) : Bool :=
  match i with
  | .pairWord _ _ => true
  | _ => D.op < 0x37 || D.op == 0x40 || D.op == 0x41 || 0x50 ≤ D.op && D.op < 0x69 || 0x80 ≤ D.op && D.op < 0x96

/-! ## The round-robin order (R211) -/

def subPrio (g : Gang) (u : Sub) : Nat := ((g.slicesOf u.id).map fun x => x.prio).foldl max 0
def subPos (g : Gang) (u : Sub) : Nat := ((g.slicesOf u.id).map fun x => x.pos).headD 8

/-- Where a sub-gang stands in its gang's part of the order: by its place, then by its own lowest position. -/
def subKey (g : Gang) (u : Sub) : Nat := u.place.getD (subPos g u) * 8 + subPos g u

/-- A sub-gang counts as the last winner of its issue slot and of a priority. -/
def noteWin (s : State) (g : Gang) (prio key : Nat) : State :=
  s.setCore g.core fun k => { k with
    rr := (k.rr.filter fun e => e.1 != g.islot * 32 + prio) ++ [(g.islot * 32 + prio, (g.slot, key))] }

/-- The sub-gangs that a clause end has left of one: itself and those created since number `new`. -/
def partsOfSub (g : Gang) (sub new : Nat) : List Sub := g.subs.filter fun v => v.id == sub || decide (new ≤ v.id)

/-- Where a sub-gang has parted, its parts hold its place, and so have won last where it had (R211); after a YIELD every
part is the last of its priority level (R140). -/
def placeParts (s : State) (core slot key sub new : Nat) (yields : Bool) : State :=
  match s.gang core slot with
  | none => s
  | some g =>
    let vs := partsOfSub g sub new
    let top := (vs.map (subKey g)).foldl max 0
    let s := s.setCore core fun k => { k with
      rr := k.rr.map fun e => if e.1 / 32 = g.islot && e.2 == (slot, key) then (e.1, (slot, top)) else e }
    if yields then vs.foldl (fun s v => noteWin s g (subPrio g v) (subKey g v)) s else s

/-- A clause has ended: the slices of the sub-gang part by their addresses, the group of the lowest position
keeping the sub-gang (R151), and the parts its place in the order. -/
def partSub (s : State) (core slot sub : Nat) : State :=
  match s.gang core slot with
  | none => s
  | some g =>
    let pcs := distinct ((g.slicesOf sub).map fun x => x.pc)
    let place := (g.sub sub).map fun u => u.place.getD (subPos g u)
    let s := s.updGang core slot fun g => { g with
      subs := updWhere (fun u => u.id == sub) (fun u => { u with place := if pcs.length ≤ 1 then u.place else place }) g.subs }
    (pcs.drop 1).foldl (fun s pc =>
      let id := s.nextId
      s.bump.updGang core slot fun g => { g with
        slices := g.slices.map fun x => if x.st = .run sub && x.pc = pc then { x with st := .run id } else x,
        subs := g.subs ++ [⟨id, 0, none, 0, 0, place⟩] }) s

/-- A further failure: of an instruction that has failed already, more lanes of it; of another, taken after the earlier ones. -/
def addErr (es : List MemErr) (e : MemErr) : List MemErr :=
  let same := fun (q : MemErr) => q.pc == e.pc && q.cwords == e.cwords && q.ilen == e.ilen
  if es.any same then updWhere same (fun q => { q with
      lanes := q.lanes ++ e.lanes.filter fun l => !(q.lanes.any fun k => k.1 == l.1) }) es
  else es ++ [e]

def Ctx.here (c : Ctx) : At := ⟨c.pc, c.run.words.length, if c.f.long then 2 else 1⟩

/-- The v registers that an instruction reads: its sources, and its d operand where that admits a literal, being a source. -/
def readRegs (i : Instr) (D : Desc) (f : Fields) : List Nat :=
  match i with
  | .pairWord h1 h2 => halfReads h1 ++ halfReads h2
  | _ => [Slot.d, .a, .b, .c].flatMap fun s =>
    match useOf D f s with
    | .op w ks => if s == .d && !ks.contains .lit then [] else (List.range (regsOf D f w).1).map fun i => s.code f + i
    | _ => []

/-- An instruction that has read an uncorrectable register of the register file fails in its guard-true lanes, as at the completion
stage (R21, R313, R315; log entry 145). -/
def rfErrors (c : Ctx) (pos : Nat) (es : List MemErr) : List MemErr :=
  match (readRegs c.i c.D c.f).filter (rfBad c.s c.g) with
  | [] => es
  | r :: _ =>
    match (c.lanes.filter fun e => e.1.pos == pos).map fun e => (e.2, vLine c.g r + 4 * threadIx e.1 e.2) with
    | [] => es
    | ls => addErr es ⟨c.here.pc, c.here.cwords, c.here.ilen, ls⟩

/-- The instruction of a sub-gang has taken effect: it is counted (R142), its word passed; after the last word
the clause ends. -/
def retire (s : State) (c : Ctx) (ilen : Nat) : State :=
  let core := c.g.core
  let slot := c.g.slot
  let pair := match c.i with | .pairWord _ _ => true | _ => false
  let s := s.setCore core fun k => { k with instret := k.instret + (if pair then 2 else 1) }
  let before := c.slices
  let dirty := fun (x : Slice) =>
    match before.find? fun y => y.pos == x.pos with
    | some y => y.active != x.active || y.tokens != x.tokens || !cleanOp c.i c.D
    | none => false
  let walked := before.filterMap fun x => x.walked
  let s := { s with tlbs := s.tlbs.map fun (e : TlbEntry) => { e with retained := e.retained.filter fun r => !walked.contains r } }
  let upd := fun (x : Slice) =>
    if before.any (fun y => y.pos == x.pos) then
      { x with retry := [], walked := none, bypass := false, stuck := x.stuck || dirty x, merr := rfErrors c x.pos x.merr }
    else x
  let s := s.updGang core slot fun g => { g with slices := g.slices.map upd }
  let s := tidyGang s core slot
  match s.gang core slot with
  | none => s
  | some g =>
    match g.sub c.sub with
    | none => s
    | some u =>
      match u.run with
      | none => s
      | some r =>
        let ix := r.ix + ilen
        if ix < r.words.length then
          s.updGang core slot fun g => { g with
            subs := updWhere (fun u => u.id == c.sub) (fun u => { u with run := some { r with ix := ix } }) g.subs }
        else
          let s := s.updGang core slot fun g => { g with
            subs := updWhere (fun u => u.id == c.sub) (fun u => { u with run := none, word := 0 }) g.subs }
          let t := tidyGang (partSub s core slot c.sub) core slot
          placeParts t core slot (subKey g u) c.sub s.nextId r.yields

/-! ## Issue -/

/-- The sub-gang that `exec` acts for, with its clause. -/
def issuer (s : State) : Option (Gang × Nat × Run) :=
  match s.cur with
  | none => none
  | some c =>
    match s.gang c.core c.slot with
    | none => none
    | some g =>
      match g.sub c.sub with
      | none => none
      | some u => u.run.map fun r => (g, c.sub, r)

/-- A pair word has no fields; its halves are read by its meaning. -/
def noFields : Fields where
  long := false
  fsel := false
  guard := 7
  gneg := false
  d := 0
  a := 0
  b := 0
  c := 0
  minor := 0
  type := 0
  rm := 0
  sat := false
  aux := 0
  lit := 0
  xd := 0
  off24 := 0

def instrDesc (i : Instr) : Desc := (descOf i).getD { op := 0 }
def instrFields (i : Instr) : Fields := (fieldsOf i).getD noFields

/-- The slices of an issue with a guard-true active lane. -/
def guardedSlices (s : State) (g : Gang) (sub : Nat) (f : Fields) : List Slice :=
  (g.slicesOf sub).filter fun x => guardMask s g f x != 0

/-- Heads of the popped queues, each once. -/
def heads (s : State) (core : Nat) (codes : List Nat) : List (Nat × Head) := codes.map fun c => (c, headOf s core c)

/-- Words of an instruction. -/
def ilenOf (f : Fields) : Nat := if f.long then 2 else 1
def Ctx.ilen (c : Ctx) : Nat := ilenOf c.f

/-- Where the instruction stands. -/
def Ctx.spot (c : Ctx) : Spot := ⟨c.run.hdr, c.run.ix + 1, c.run.words.length, c.ilen⟩

/-- What stands before an instruction's own effect: the sub-gang leaves or waits, in state t; or the effect is given c,
where s0 is the state with its queues unpopped and `starved` says that a queue it pops has no entry. -/
inductive Gate where
  | leave (t : State)
  | go (s0 : State) (c : Ctx) (starved : Bool)

/-- Instructions that make accesses, arrive at barriers or issue to engines: an earlier access or fence holds them back
(R112, R328). The rest issue meanwhile: BARI, EXPE, TALLOC, TFREE, ZOPEN, ZEND, ZCLOSE, FTEST and FCANCEL among them. -/
def orderedOp (D : Desc) : Bool :=
  (0x40 ≤ D.op && D.op ≤ 0x42 || 0x9b ≤ D.op && D.op ≤ 0x9f || 0xa0 ≤ D.op && D.op ≤ 0xd8 || D.op == 0xe2) &&
  !([0x9d, 0xa2, 0xc5, 0xc6, 0xcc, 0xce, 0xcf, 0xd6, 0xd7].contains D.op)

/-- A read that an instruction has asked for of its own is still to be injected (R444). -/
def notInjected (s : State) (q : Pend) : Bool :=
  q.accs.any fun a => match a.sent with
    | some id => s.reqs.any fun r => r.id == id && r.injected.isNone
    | none => false

/-- A D bit that a store of the slice waits for is being set at another home (R267). -/
def dirtyPost (s : State) (core slot pos : Nat) : Bool :=
  s.posts.any fun p => p.dirty.isSome && p.who == .core core && p.src.any fun t => t.isOf slot pos

/-- An earlier access holds the slices back (R112), or a completion flag's count is full (R54). -/
def heldBack (s : State) (g : Gang) (xs : List Slice) (D : Desc) (f : Fields) (header : W64) : Bool :=
  (s.pend.any fun q => (q.strict || q.hold && orderedOp D || notInjected s q) && q.core == g.core && q.slot == g.slot &&
    xs.any fun x => q.poss.contains x.pos) ||
  orderedOp D && xs.any (fun x => dirtyPost s g.core g.slot x.pos) ||
  isVL D f && (match flagOf header f.fsel with
    | some k => xs.any fun x => 63 ≤ x.flagCount k
    | none => false)

/-- The resume header of a segment-ending instruction (R58). -/
def resumeOf (s : State) (g : Gang) (sub : Nat) (i : Instr) (next : Nat) : ResumeCheck :=
  if segEnding i && !(guardedSlices s g sub (instrFields i)).isEmpty then
    resumeCheck s g (instrFields i) (guardedSlices s g sub (instrFields i)) next
  else .ok s 0

/-- The queue heads of an instruction (R364, R375), for its guard-true slices xs. A task's window use traps RESV, PREF's too (R182, log
entry 22); an empty port stops no PREF (R114). -/
def gateQueues (i : Instr) (s : State) (g : Gang) (sub : Nat) (run : Run) (xs : List Slice) (resume : W64) : Gate :=
  let D := instrDesc i
  let f := instrFields i
  let p : Spot := ⟨run.hdr, run.ix + 1, run.words.length, ilenOf f⟩
  let codes := if xs.isEmpty then [] else popCodes D f
  let hs := heads s g.core codes
  let ports := if xs.isEmpty then [] else windowCodes D f
  let all := fun c => xs.map fun x => hitAt x.pos (lowLane (guardMask s g f x)) c
  if g.group.isNone && (!codes.isEmpty || !ports.isEmpty) then .leave (trapSlices s g sub p (all .resv))
  else if D.op != 0x42 && ports.any fun c => headOf s g.core c == .none then .leave (trapSlices s g sub p (all .qproto))
  else if hs.any fun h => h.2 == .unfilled then .leave s
  else
    let starved := hs.any fun h => h.2 == .none
    let pops := hs.map fun h => (h.1, match h.2 with | .entry w => w | _ => [])
    let popped := if starved then s else codes.foldl (fun s c => popHead s g.core c) s
    .go s ⟨popped, g, sub, i, D, f, run, pops, resume⟩ starved

/-- Decode checks, hazards, waits, the resume header, queue heads (R22). -/
def gate (i : Instr) (s : State) (g : Gang) (sub : Nat) (run : Run) : Gate :=
  let D := instrDesc i
  let f := instrFields i
  let p : Spot := ⟨run.hdr, run.ix + 1, run.words.length, ilenOf f⟩
  let dec := decodeHits s g sub i D f (run.words.length ≤ run.ix + ilenOf f)
  let hz := hazardHits s g sub i D f
  let xs := guardedSlices s g sub f
  if !dec.isEmpty then .leave (trapSlices s g sub p dec)
  else if !hz.isEmpty then .leave (trapSlices s g sub p hz)
  else if heldBack s g xs D f run.header then .leave s
  else match resumeOf s g sub i run.next with
    | .trap t hits => .leave (trapSlices t g sub p hits)
    | .walk t needs => .leave (walkSlices t g sub p needs)
    | .stall t => .leave t
    | .ok s resume => gateQueues i s g sub run xs resume

/-- The queues of s0 in t: an attempt that does not complete pops nothing. -/
def unpopped (s0 t : State) : State := { t with cores := s0.cores, streams := s0.streams, futs := s0.futs }

/-- Finish an issue: retire it, or let the slices leave that trap or walk. An empty queue traps QPROTO after the
instruction's own causes. -/
def finish (s0 : State) (c : Ctx) (starved : Bool) (b : Body) : Host.Outcome State Fault Refusal :=
  match b with
  | .trap t hits => .next (trapSlices (unpopped s0 t) c.g c.sub c.spot hits)
  | b =>
    if starved then
      .next (trapSlices s0 c.g c.sub c.spot
        ((guardedSlices s0 c.g c.sub c.f).map fun x => hitAt x.pos (lowLane (guardMask s0 c.g c.f x)) .qproto))
    else match b with
      | .done t => .next (retire t c c.ilen)
      | .walk t needs => .next (walkSlices (unpopped s0 t) c.g c.sub c.spot needs)
      | .stall t => .next (unpopped s0 t)
      | .trap t hits => .next (trapSlices t c.g c.sub c.spot hits)

/-- The free values of one issue are its own (R3). -/
def State.freshen (s : State) : State := { s with fresh := s.fresh + 1 }

/-- Issue one instruction of the current sub-gang: the checks before it, then its own effect `body` (R22). -/
def issue (i : Instr) (s : State) (body : Ctx → Body) : Host.Outcome State Fault Refusal :=
  match issuer s with
  | none => .fault .noIssuer
  | some (g, sub, run) =>
    match gate i s.freshen g sub run with
    | .leave t => .next t
    | .go s0 c starved => finish s0 c starved (body c)

end Sys2Proof.Machine
end

