-- ==== Sys2Proof/Machine/Access.lean ====
section
/-! DEFINITION. The accesses of thread instructions: their checks before any is performed (R21, R107, R113, R320),
their performance in THREADIX order (R111, R112, R263, R309, R325), at a line of this module, at a copy the die
holds, or at another module's home (R443, R444), and the results that come later (R16, R54–R56). -/

namespace Sys2Proof.Machine

/-! ## Checks -/

/-- One access that a lane wants: PTE permission bits in `need`; `first` says that its operands are misaligned as
a whole, `also` gives a cause of a later place in R22's order; `any` that every target will do; `direct` the physical address of
an access inside a port's window (R375). -/
structure Want where
  x : Slice
  lane : Nat
  va : Nat
  bytes : Nat
  align : Nat
  need : Nat
  first : Bool := false
  also : State → Option Cause := fun _ => none
  any : Bool := false
  direct : Option Nat := none

inductive LaneRes where
  | ok (t : Xlt)
  | trap (c : Cause)
  | walk
  deriving DecidableEq, Repr

/-- Check one access in the order of R22. -/
def checkWant (s : State) (g : Gang) (target : State → Xlt → Option Cause) (w : Want) : State × LaneRes :=
  if w.first || w.va % w.align != 0 then (s, .trap .align)
  else if w.direct.isSome then (s, .ok ⟨13, 0, w.direct.getD 0⟩)
  else if 2 ^ 56 ≤ w.va then (s, .trap .xnp)
  else match markFor w.x (some w.lane) w.va with
    | some m => (s, .trap (causeOf m))
    | none =>
      match translate s (g.core / 64) (some g.core) g.ctx w.va w.x.bypass with
      | (s, .walk) => (s, .walk)
      | (s, .xnp) => (s, .trap .xnp)
      | (s, .ok t) =>
        if !permitted t.pte g.fw w.need then (s, .trap .xperm)
        else match (if w.any then none else target s t) with
          | some c => (s, .trap c)
          | none => match w.also s with
            | some c => (s, .trap c)
            | none => (s, .ok t)

/-- Every access of an instruction is checked before any is performed. -/
def checkWants (g : Gang) (target : State → Xlt → Option Cause) : List Want → State → State × List (Want × LaneRes)
  | [], s => (s, [])
  | w :: ws, s =>
    let (s, r) := checkWant s g target w
    let (s, rs) := checkWants g target ws s
    (s, (w, r) :: rs)

/-- FADDR holds an address for four causes only (R412). -/
def faddrFor (c : Cause) (va : Nat) : Nat :=
  match c with
  | .align | .xnp | .xperm | .memerr => va
  | _ => 0

/-- The trap of a slice that a lane decides: FADDR holds, for each lane that meets the cause itself, its effective address (R412, log
entry 27). -/
def hitOf (pos lane : Nat) (cause : Cause) (met : List (Nat × Nat)) : Hit :=
  { hitAt pos lane cause with
    faddr := (List.range 4).map fun l => ((met.find? fun e => e.1 == l).map fun e => faddrFor cause e.2).getD 0 }

/-- Place of a cause of the execute stage in R22's order; a page that still needs its walk stands where the walk's own
causes do. -/
def LaneRes.rank : LaneRes → Nat
  | .ok _ => 99
  | .walk => 1
  | .trap .pcOvf | .trap .align => 0
  | .trap .xnp => 2
  | .trap .memerr => 3
  | .trap .xperm => 4
  | .trap .priv => 5
  | .trap .ill => 6
  | .trap .budget => 7
  | .trap .resv => 8
  | .trap .expovf => 9
  | .trap _ => 10

/-- The access of one slice that decides: of its lowest lane that does not pass, the first cause in order (R22). -/
def decider (rs : List (Want × LaneRes)) : Option (Want × LaneRes) :=
  rs.foldl (fun d r =>
    match r.2, d with
    | .ok _, d => d
    | _, none => some r
    | _, some q =>
      if r.1.lane < q.1.lane || r.1.lane == q.1.lane && decide (r.2.rank < q.2.rank) then some r else some q) none

/-- The lowest lane of each slice that does not pass decides whether the slice traps or walks (R22). -/
def deciders (poss : List Nat) (rs : List (Want × LaneRes)) : List Hit × List Need :=
  (distinct poss).foldl (fun a pos =>
    match decider (rs.filter fun r => r.1.x.pos == pos) with
    | none => a
    | some (w, .trap c) =>
      (a.1 ++ [hitOf pos w.lane c ((rs.filter fun r => r.1.x.pos == pos && r.2 == .trap c).map fun r => (r.1.lane, r.1.va))], a.2)
    | some _ =>
      (a.1, a.2 ++ (rs.filter fun r => r.1.x.pos == pos && r.2 == .walk).map fun r => ⟨pos, r.1.lane, r.1.va⟩)) ([], [])

/-- Check the accesses of an instruction, and go on with their translations in the order given. -/
def withAccess (s : State) (c : Ctx) (target : State → Xlt → Option Cause) (ws : List Want)
    (go : State → List (Want × Xlt) → Body) : Body :=
  let (s, rs) := checkWants c.g target ws s
  let (hits, needs) := deciders (c.slices.map fun x => x.pos) rs
  if !hits.isEmpty then .trap s hits
  else if !needs.isEmpty then .walk s needs
  else go s (rs.filterMap fun r => match r.2 with | .ok t => some (r.1, t) | _ => none)

/-- The memory type of an access: windows and device registers ignore the page's (R250, R262). -/
def memTypeOf (t : Xlt) : Nat :=
  if isHbm t.pa then pteType t.pte
  else if 0xc0000000000 ≤ localOf t.pa then 3 else 0

/-- Any target. -/
def anyTarget (_ : State) (_ : Xlt) : Option Cause := none

/-- The place of a translation in this module, if it is one. -/
def ownPlace (s : State) (t : Xlt) : Option Place := if isOwn s t.pa then some (placeOf s (localOf t.pa)) else none

/-- Core window of another module: the spec gives its layout by the same map (R247). -/
def windowRegion (pa : Nat) : Region × Nat :=
  let la := localOf pa
  if 0x80000000000 ≤ la && la < 0xc0000000000 then
    let o := la % 2 ^ 23
    if o < 0x60000 then (.rf, o)
    else if 0x80000 ≤ o && o < 0x100000 then (.scratch, o - 0x80000)
    else if 0x180000 ≤ o && o < 0x200000 then (.scratch, unswizzle (o - 0x180000))
    else (.absent, 0)
  else if la < 0x10000000000 then (.hbm, la)
  else (.absent, 0)

/-- The access lies in a scratchpad window, either view, below its core's pool region. -/
def inScratch (s : State) (t : Xlt) : Bool :=
  match ownPlace s t with
  | some p => p.region == .scratch && decide (p.off < spBase s p.core)
  | none => (windowRegion t.pa).1 == .scratch

/-- Targets of atomics (R320): a normal page of memory or a scratchpad window below the pool region. -/
def atomTarget (s : State) (t : Xlt) : Option Cause :=
  if inScratch s t then none
  else if pteType t.pte == 0 && isHbm t.pa then none else some .xperm

/-- Targets of WAITC and CMAINT: a normal page of memory. -/
def hbmTarget (_ : State) (t : Xlt) : Option Cause := if pteType t.pte == 0 && isHbm t.pa then none else some .xperm

/-! ## Combining buffers (R263) -/

/-- The core's buffer for a line. -/
def wcAt (s : State) (core line : Nat) : Option WcBuf := s.wcbufs.find? fun b => b.core == core && b.line == line

/-- A write-combining store enters the buffer for its line; with none free for a new line, the oldest is
written first. Pool bytes a program may not write are left out (R261). -/
def wcStore (s : State) (g : Gang) (a : Acc) (at_ : At) (data : List Byte) : State :=
  let line := lineOf a.pa
  let mine := s.wcbufs.filter fun b => b.core == g.core
  let s := if (wcAt s g.core line).isSome || mine.length < 16 then s
    else match mine with
      | b :: r => wcWrite s (r.foldl (fun m b => if b.ord < m.ord then b else m) b)
      | [] => s
  let s := if (wcAt s g.core line).isSome then s
    else { s with nextId := s.nextId + 1, wcbufs := s.wcbufs ++ [⟨s.nextId, g.core, line, [], [], [], s.clk, s.nextId, g.ctx⟩] }
  let open_ := fun (i : Nat) => !isOwn s a.pa || poolOpen s g.ctx (placeOf s (localOf (a.pa + i)))
  let lid := match g.slice a.pos with | some x => x.lids.getD a.lane 0 | none => 0
  let stale := fun (b : WcBuf) => b.ctx != g.ctx && isOwn s a.pa && inPool s (placeOf s (localOf a.pa)) && open_ 0
  let put := fun (bs : List (Nat × Byte)) =>
    (data.zipIdx.filter fun e => open_ e.2).foldl (fun bs e => bs.filter (fun q => q.1 != a.pa + e.2) ++ [(a.pa + e.2, e.1)]) bs
  { s with
    wcbufs := updWhere (fun b => b.core == g.core && b.line == line)
      (fun b => { b with
        bytes := put (if stale b then [] else b.bytes), ctx := if open_ 0 then g.ctx else b.ctx, lids := if b.lids.contains lid then b.lids else b.lids ++ [lid],
        threads := (b.threads.filter fun t => !(t.isOf g.slot a.pos && t.lane == a.lane)) ++ [⟨g.slot, a.pos, a.lane, at_⟩] })
      s.wcbufs }

/-- A load takes with it the bytes that the core's buffer holds of its line as it is issued: the later writing of the buffer hides
none of its thread's own stores (R111, R280). Pool bytes a program may not see are left out (R261). -/
def withBuffer (s : State) (g : Gang) (a : Acc) : Acc :=
  if a.memType != 1 then a
  else match wcAt s g.core (lineOf a.pa), a.kind with
    | some b, .load _ _ =>
      { a with merged := b.bytes.filter fun q => !isOwn s a.pa || poolOpen s g.ctx (placeOf s (localOf q.1)) }
    | _, _ => a

/-- A load from a line held in a buffer returns the buffered bytes merged over memory (R263). -/
def wcMerge (a : Acc) (bs : List Byte) : List Byte :=
  if a.merged.isEmpty then bs
  else bs.zipIdx.map fun e => match a.merged.find? fun q => q.1 == a.pa + e.2 with | some q => q.2 | none => e.1

/-! ## Pages mapped with two types (R282) -/

/-- The thread of a lane, across segment ends: its launch, slice number, index and lane. -/
def threadKey (g : Gang) (pos lane : Nat) : Nat × Nat × Nat × Nat :=
  match g.slice pos with
  | some x => (x.lids.getD lane 0, x.number, x.index, lane)
  | none => (0, 0, 0, lane)

/-- A store to memory is remembered until its thread's next full FENCE. -/
def noteStore (s : State) (g : Gang) (a : Acc) : State :=
  let e : TypedStore := ⟨a.pa, a.bytes, a.memType, threadKey g a.pos a.lane⟩
  if !isHbm a.pa || s.typed.contains e then s else { s with typed := s.typed ++ [e] }

/-! ## Device registers -/

/-- The step that a write of `size` bytes, at most 8, of a device register sets off: the wake registers (R463),
FEATACC (R475) and MRESET (R488) have steps of their own. -/
def regStep (s : State) (who : Agent) (la size v : Nat) : Instr :=
  let off := la - 0xc0000000000
  let at_ := 8 * (off % 8)
  let old := readReg s (off / 8 * 8)
  let v64 := BitVec.ofNat 64 (old - fld old (at_ + 8 * size - 1) at_ * 2 ^ at_ + v * 2 ^ at_)
  let byProgram := match who with | .program _ => true | _ => false
  if 0x400000 ≤ off && off < 0x480000 then .qwakeWrite ((off - 0x400000) / 8) v64
  else if off / 8 * 8 = 0xa0008 && !byProgram then .feataccWrite v64
  else if off / 8 * 8 = 0x38 && !byProgram then .mreset v64
  else .registerWrite ⟨who, la, size, BitVec.ofNat 64 v⟩

/-- A write of device registers, as elements of at most 8 bytes in increasing order (R111). -/
def deviceWrite (s : State) (who : Agent) (la : Nat) (bs : List Byte) : State :=
  let steps := (List.range ((bs.length + 7) / 8)).map fun i =>
    let part := (bs.drop (8 * i)).take 8
    regStep s who (la + 8 * i) part.length (bytesToNat part)
  { s with due := s.due ++ steps }

/-! ## Performing one access -/

/-- What a thread's ZADV has read, or asked for, of a coordinate. -/
def seekAt (s : State) (core : Nat) (key : Nat × Nat × Nat × Nat) (pa : Nat) : Option SeekWord :=
  s.seeks.find? fun q => q.core == core && q.thread == key && q.pa == pa
def seekPut (s : State) (q : SeekWord) : State :=
  { s with seeks := s.seeks.filter (fun p => !(p.core == q.core && p.thread == q.thread && p.pa == q.pa)) ++ [q] }

/-- The access needs its line alone: a store or a read-modify-write. -/
def AccKind.excl : AccKind → Bool
  | .load _ _ => false
  | _ => true

/-- What stands between an access and its performance: nothing; a line that must be asked for; a read of its own
that must be asked for; a request at another module's home; a failure. -/
inductive AccSt where
  | ready | missing | direct | atHome | failed
  deriving DecidableEq, Repr

/-- The copy that would serve the access has been struck by an error (R313). -/
def copyBad (s : State) (core : Nat) (a : Acc) : Bool :=
  let die := core / 64
  let held := match heldCopy s die a.pa with | some c => c.bad | none => false
  match a.kind with
  | .load _ _ =>
    if a.memType != 0 then false
    else match l1Hit s core a.pa with
      | some c => c.bad
      | none => lineHere s die (s.core core).pts a.pa false && held
  | _ => a.memType == 0 && lineHere s die (s.core core).pts a.pa true &&
    (held || (match l1At s core a.pa with | some c => c.bad && c.st != .s | none => false))

/-- The line of an access, or the copy that would serve it, cannot be read (R315). -/
def accBad (s : State) (core : Nat) (a : Acc) : Bool := isOwn s a.pa && lineBad s (localOf a.pa) a.bytes || copyBad s core a

/-- The state of one access. An access to another module's page that is not normal is made at its home, a load by a
read of its own whose line is not cached (R262, R281); an atomic of a wide scope is made at the home too (R307), and fails where
that cannot be reached (R448). -/
def accState (s : State) (core : Nat) (a : Acc) : AccSt :=
  let die := core / 64
  if a.sent.isSome then .atHome
  else if lineFailed s (.core core) a.pa then .failed
  else if accBad s core a then .failed
  else if !isOwn s a.pa && isHbm a.pa && a.memType != 0 then
    (match a.kind with
     | .load _ _ => .direct
     | _ => .ready)
  else match a.kind with
    | .rmw _ _ _ _ _ _ =>
      if isOwn s a.pa then (if lineHere s die (s.core core).pts a.pa true then .ready else .missing)
      else if !reachable s (nodeOf a.pa) && !(isHbm a.pa && a.near && lineHere s die (s.core core).pts a.pa true) then .failed
      else if !isHbm a.pa || !a.near || s.uncached.contains (die, lineOf a.pa) || lineHere s die (s.core core).pts a.pa true then .ready
      else .missing
    | .store _ =>
      if lineHere s die (s.core core).pts a.pa true || !isOwn s a.pa && s.uncached.contains (die, lineOf a.pa) then .ready
      else .missing
    | .load _ _ =>
      if lineHere s die (s.core core).pts a.pa false || a.memType == 0 && (l1Hit s core a.pa).isSome then .ready else .missing

/-- The new value of an atomic, with the flags of FADD (R324, R325): operations 0–11, and 12 for CAS. -/
def atomNew (op t rm : Nat) (old b c : Nat) : Nat × Flags :=
  let w := typeBits t
  let m := 2 ^ w
  match op with
  | 0 => ((old + b) % m, 0)
  | 1 => (if intOf t b < intOf t old then b else old, 0)
  | 2 => (if intOf t old < intOf t b then b else old, 0)
  | 3 => (old &&& b, 0)
  | 4 => (old ||| b, 0)
  | 5 => (old ^^^ b, 0)
  | 6 => (b, 0)
  | 7 => (if b ≤ old then 0 else old + 1, 0)
  | 8 => (if old = 0 || b < old then b else old - 1, 0)
  | 9 =>
    let f := fmtOf t
    let (e, fl) := addE (rmOf rm) (unpackF f old) (unpackF f b)
    let (v, fl') := deliver f (rmOf rm) false e
    (v, fl ||| fl')
  | 12 => (if old = b then c else old, 0)
  | _ =>
    let f := fmtOf t
    let (pick, fl) := minMaxPick (op == 11) (unpackF f old) (unpackF f b)
    (match pick with | none => canonNan f | some true => b | some false => old, fl)

/-- A failing CAS writes nothing (R325). -/
def atomWrites (op old b : Nat) : Bool := op != 12 || old == b

/-- Bytes of an atomic's value. -/
def atomBytes (t : Nat) : Nat := typeBytes t

/-- Fill the destinations of a lane's access. -/
def fillWrites (ws : List VlWrite) (a : Acc) (code : Nat) (vals : List W32) : List VlWrite :=
  updWhere (fun w => w.pos == a.pos && w.lane == a.lane && w.code == code) (fun w => { w with vals := vals }) ws

/-- A read of n bytes by a core, at the timestamp of R300: of a normal page of memory through its L1. -/
def coreRead (s : State) (g : Gang) (a : Acc) : State × List Byte :=
  if a.memType = 0 && isHbm a.pa then
    let r := l1Load s g.core g.ctx a.pa a.bytes a.hint
    (r.1, mixFree s a.pa r.2)
  else
    let bs := readAt s (g.core / 64) g.ctx a.pa a.bytes
    (stampRead s g.core a.pa, wcMerge a (mixFree s a.pa bs))

/-- The die owns its copy of another module's line. -/
def ownsCopy (s : State) (die pa : Nat) : Bool := match copyAt s die pa with | some c => c.excl | none => false

/-- A store of one lane: into a combining buffer; to device registers; to another module's device and strongly ordered
pages and windows as WRP, to a line that the die may not own as WR (R441); else into the line, which the core's L1
then holds modified, with hint 2 only where it had a copy (R112). -/
def coreWrite (s : State) (g : Gang) (a : Acc) (at_ : At) (data : List Byte) : State :=
  let s := noteStore s g a
  let remote := !isOwn s a.pa && isHbm a.pa
  let m := mkMsg s (g.core / 64) (.core g.core) (nodeOf a.pa) 0 (s.core g.core).pts a.pa
  let src : List Src := [⟨g.slot, a.pos, a.lane, at_⟩]
  if a.memType = 1 then wcStore s g a at_ data
  else if isOwn s a.pa && (placeOf s (localOf a.pa)).region = .dev then
    deviceWrite s (if g.fw then .firmware else .program g.core) (localOf a.pa) data
  else if remote && a.memType != 0 || !isOwn s a.pa && !isHbm a.pa then postMsg s (.core g.core) 3 { m with data := data } src
  else if remote && !ownsCopy s (g.core / 64) a.pa then postMsg s (.core g.core) 2 (maskedWrite m a.pa data) src
  else
    let keep := a.hint != 2 || (l1At s g.core a.pa).isSome
    let s := writeAt s g.core g.ctx a.pa data
    if a.memType = 0 && isHbm a.pa && keep then fillL1 s g.core a.pa .m else s

/-- What tells the requests of one sub-gang from another's (R444). -/
def issuerKey (slot pos : Nat) : Nat := 1 + slot * 8 + pos

/-- The atomics of one instruction at one address, at another module's home: one ATM message (R307, R309). Its
data holds each lane's operands B and C, in THREADIX order; its tag the request that its values answer. -/
def atmTo (s : State) (core : Nat) (as : List Acc) (reply : Bool) (src : List Src) : State :=
  match as with
  | [] => s
  | a :: _ =>
    match a.kind with
    | .rmw op t rm _ _ _ =>
      let id := s.nextId
      let data := as.flatMap fun x => match x.kind with
        | .rmw _ _ _ b c _ => natToBytes 8 b ++ natToBytes 8 c
        | _ => []
      let who := ReqFor.core core
      let m := { mkMsg s (core / 64) who (nodeOf a.pa) id (s.core core).pts a.pa with arg := op + 32 * t + 1024 * rm, data := data }
      if !reachable s (nodeOf a.pa) then { s with failedPa := s.failedPa ++ [(whoKey who, lineOf a.pa)] }
      else if reply then
        { s with nextId := id + 1, reqs := s.reqs ++ [⟨id, core / 64, who, 4, nodeOf a.pa, a.pa, none, none, m, false,
          issuerKey ((src.headD ⟨0, 0, 0, ⟨0, 0, 0⟩⟩).slot) a.pos⟩] }
      else postMsg { s with nextId := id + 1 } who 4 m src
    | _ => s

/-- How far the accesses of an instruction have come; `made` names the (position, lane) of atomics performed with
an earlier lane of their element, `hold` says that the rest waits for an acknowledgement. -/
structure Perf where
  s : State
  writes : List VlWrite
  fp : List (Nat × Nat × BitVec 5)
  failed : List (Nat × Nat × Nat)
  rest : List Acc
  made : List (Nat × Nat) := []
  hold : Bool := false
  deriving Repr

/-- FADDR of a failed access: the line of a failed request, else the lane's address (R412, R446). -/
def failAddr (s : State) (core : Nat) (a : Acc) : Nat :=
  if lineFailed s (.core core) a.pa || !isOwn s a.pa && !reachable s (nodeOf a.pa) then lineOf a.pa else a.va

/-- Accesses of one group of an atomic: the same kind at the same address. -/
def sameSpot (a b : Acc) : Bool :=
  match a.kind, b.kind with
  | .rmw _ _ _ _ _ _, .rmw _ _ _ _ _ _ => a.pa == b.pa
  | _, _ => false

/-- How far one read-modify-write element has come: the value, whether a lane has written, results, flags. -/
structure Elem where
  val : Nat
  wrote : Bool
  writes : List VlWrite
  fp : List (Nat × Nat × BitVec 5)

/-- One lane's part of an element. Code 240 returns nothing and raises nothing (R325). -/
def Elem.lane (e : Elem) (a : Acc) : Elem :=
  match a.kind with
  | .rmw op t rm b c code =>
    let r := atomNew op t rm e.val b c
    let w := atomWrites op e.val b
    { val := if w then r.1 else e.val, wrote := e.wrote || w,
      writes := fillWrites e.writes a code (wordsOf ((a.bytes + 3) / 4) e.val),
      fp := if code = 240 then e.fp else e.fp ++ [(a.pos, a.lane, r.2)] }
  | _ => e

/-- One element: its lanes in THREADIX order at one address, then one write unless every lane is a failing CAS
(R309, R325). -/
def performElem (g : Gang) (p : Perf) (a : Acc) (grp : List Acc) : Perf :=
  let old := bytesToNat (mixFree p.s a.pa (readAt p.s (g.core / 64) g.ctx a.pa a.bytes))
  let e := grp.foldl Elem.lane ⟨old, false, p.writes, p.fp⟩
  let s := if e.wrote then fillL1 (writeAt p.s g.core g.ctx a.pa (natToBytes a.bytes e.val)) g.core a.pa .m else stampRead p.s g.core a.pa
  { p with s := s, writes := e.writes, fp := e.fp, made := p.made ++ grp.map fun q => (q.pos, q.lane) }

/-- Perform one access that is ready, here; an atomic with every lane of its element. -/
def performHere (g : Gang) (at_ : At) (p : Perf) (a : Acc) (rest : List Acc) : Perf :=
  match a.kind with
  | .load t code =>
    let (s, bs) := coreRead p.s g a
    let s := s.sees g.core g.slot a.pos a.lane (signOps s a.pa a.bytes)
    { p with s := s, writes := fillWrites p.writes a code (loadImage t bs) }
  | .store data => { p with s := coreWrite p.s g a at_ data }
  | .rmw _ _ _ _ _ _ => performElem g p a (a :: rest.filter (sameSpot a))

/-- An element that is made at another module's home travels there; the elements after it wait for its answer, which keeps
them in order (R309). -/
def sendElem (g : Gang) (at_ : At) (p : Perf) (a : Acc) (code : Nat) (rest : List Acc) : Perf :=
  let id := p.s.nextId
  let grp := a :: rest.filter (sameSpot a)
  let reply := code != 240
  let later := rest.filter fun q => !sameSpot a q
  { p with
    s := atmTo p.s g.core grp reply (grp.map fun q => ⟨g.slot, q.pos, q.lane, at_⟩)
    rest := p.rest ++ (if reply then grp.map fun q => { q with sent := some id } else []) ++ later
    hold := p.hold || !reply }

/-- A load of another module's page that is not normal reads its line on its own (R262). The loads of one instruction from one line
of a write-combining page share one read (R443); those of a device or strongly ordered page never do (R281). -/
def oneRead (a b : Acc) : Bool :=
  a.memType == 1 && b.memType == 1 && lineOf a.pa == lineOf b.pa && (match b.kind with | .load _ _ => b.sent.isNone | _ => false)
def sendRead (g : Gang) (p : Perf) (a : Acc) (rest : List Acc) : Perf × List Acc :=
  let s := p.s
  let grp := a :: rest.filter (oneRead a)
  let later := rest.filter fun b => !oneRead a b
  let who := ReqFor.core g.core
  let m := mkMsg s (g.core / 64) who (nodeOf a.pa) s.nextId (s.core g.core).pts (lineOf a.pa)
  if !reachable s (nodeOf a.pa) then ({ p with failed := p.failed ++ grp.map fun b => (b.pos, b.lane, lineOf b.pa) }, later)
  else
    let r : Req := ⟨s.nextId, g.core / 64, who, 0, nodeOf a.pa, a.pa, none, none, m, true, issuerKey g.slot a.pos⟩
    ({ p with
      s := { s with nextId := s.nextId + 1, reqs := s.reqs ++ [r] }
      rest := p.rest ++ grp.map fun b => { b with sent := some s.nextId } }, later)

/-- An atomic may be performed in this module: at an own line, or at a copy that the die owns, within its scope (R307). -/
def atomHere (s : State) (g : Gang) (a : Acc) : Bool :=
  isOwn s a.pa || a.near && (match copyAt s (g.core / 64) a.pa with | some c => c.excl | none => false)

/-- The accesses of a device or strongly ordered page of another module are made one after the other (R281), and so are the loads
of its write-combining pages, in THREADIX order (R111). -/
def inTurn (s : State) (a : Acc) : Bool :=
  !isOwn s a.pa && (decide (2 ≤ a.memType) || a.memType == 1 && (match a.kind with | .load _ _ => true | _ => false))

/-- Stores of one instruction to one line that its die may not own travel as one write (R443). -/
def oneWrite (s : State) (core : Nat) (a b : Acc) : Bool :=
  !isOwn s a.pa && isHbm a.pa && a.memType == 0 && b.memType == 0 && lineOf a.pa == lineOf b.pa && !ownsCopy s (core / 64) a.pa &&
  (match a.kind, b.kind with | .store _, .store _ => true | _, _ => false)

def sendLine (g : Gang) (at_ : At) (p : Perf) (a : Acc) (rest : List Acc) : Perf :=
  let grp := a :: rest.filter (oneWrite p.s g.core a)
  let s := grp.foldl (fun s b => noteStore s g b) p.s
  let m := mkMsg s (g.core / 64) (.core g.core) (nodeOf a.pa) 0 (s.core g.core).pts a.pa
  let ws := grp.map fun b => match b.kind with | .store d => (b.pa, d) | _ => (b.pa, [])
  { p with
    s := postMsg s (.core g.core) 2 (maskedLine m (lineOf a.pa) ws) (grp.map fun b => ⟨g.slot, b.pos, b.lane, at_⟩)
    made := p.made ++ grp.map fun b => (b.pos, b.lane) }

/-- Perform accesses in order as far as their lines allow; a failed one is passed over (R21). -/
def performAccs (g : Gang) (at_ : At) : List Acc → Perf → Perf
  | [], p => p
  | a :: r, p =>
    if p.made.contains (a.pos, a.lane) then performAccs g at_ r p
    else match accState p.s g.core a with
    | .failed =>
      let s := if accBad p.s g.core a then noteBad p.s (g.core / 64) a.pa else p.s
      performAccs g at_ r { p with s := s, failed := p.failed ++ [(a.pos, a.lane, failAddr p.s g.core a)] }
    | .missing => { p with rest := p.rest ++ (a :: r) }
    | .direct =>
      let q := sendRead g p a r
      { q.1 with rest := q.1.rest ++ q.2 }
    | .atHome => performAccs g at_ r { p with rest := p.rest ++ [a] }
    | .ready =>
      match a.kind with
      | .rmw _ _ _ _ _ code =>
        if atomHere p.s g a then performAccs g at_ r (performHere g at_ p a r) else sendElem g at_ p a code r
      | _ =>
        let q := if oneWrite p.s g.core a a then sendLine g at_ p a r else performHere g at_ p a r
        if inTurn p.s a && !r.isEmpty then { q with rest := q.rest ++ r, hold := true } else performAccs g at_ r q

/-- An uncorrectable error on a line of an atomic: no lane's write is performed (R326). -/
def atomsFail (s : State) (core : Nat) (as : List Acc) : Bool :=
  as.any fun a => (match a.kind with | .rmw _ _ _ _ _ _ => true | _ => false) && accState s core a == .failed

/-- Every access of an instruction that fails whole, with one report for each line that cannot be read. -/
def failAll (core : Nat) : List Acc → State → State × List (Nat × Nat × Nat)
  | [], s => (s, [])
  | a :: r, s =>
    let s' := if accBad s core a && !(r.any fun b => lineOf b.pa == lineOf a.pa) then noteBad s (core / 64) a.pa else s
    let q := failAll core r s'
    (q.1, (a.pos, a.lane, failAddr s core a) :: q.2)

/-- Ask for every line that the accesses still need. The sub-gang is known by its lowest position. -/
def askAccs (s : State) (core slot : Nat) (as : List Acc) : State :=
  let by_ := issuerKey slot ((as.map fun a => a.pos).headD 0)
  as.foldl (fun s a =>
    match accState s core a with
    | .missing => askLine s (core / 64) (.core core) (s.core core).pts a.pa a.kind.excl by_
    | _ => s) s

/-- Every request of these accesses has been injected (R444). -/
def allInjected (s : State) (core : Nat) (as : List Acc) : Bool :=
  as.all fun a =>
    accState s core a != .missing ||
    s.reqs.any fun r => r.die == core / 64 && r.pa == lineOf a.pa && r.injected.isSome

/-- Some earlier access of these slices has not been performed yet: program order keeps the next one back. -/
def accBusy (s : State) (g : Gang) (poss : List Nat) : Bool :=
  s.pend.any fun p => p.core == g.core && p.slot == g.slot && !p.accs.isEmpty && poss.any fun q => p.poss.contains q

/-! ## Results that come later (R16, R54–R56) -/

/-- What an instruction leaves to come: its destinations, accesses, flags, fibres and failures. -/
structure Later where
  writes : List VlWrite := []
  accs : List Acc := []
  fp : List (Nat × Nat × BitVec 5) := []
  fibres : List (Nat × Nat × Nat × Fibre) := []
  failed : List (Nat × Nat × Nat) := []
  hold : Bool := false
  strict : Bool := false
  fenced : List (Nat × Nat × Nat × Nat) := []
  wcOut : List (Nat × Nat) := []

/-- The destinations of an instruction that its slice at pos does not find settled from now on: registers, predicates, fibres. -/
def vagueOf (flag : Option Nat) (l : Later) (pos : Nat) (clash : VlWrite → Bool) : List Vague :=
  (l.writes.filter fun w => w.pos == pos && decide (w.code < 199)).map (fun w => ⟨flag, w.lane, w.code, w.vals.length, clash w⟩) ++
  (l.fibres.filter fun e => e.1 == pos).map fun e => ⟨flag, e.2.1, 216 + e.2.2.1, 1, false⟩

/-- Hand results over to a later step. `counted` says that the instruction is variable-latency and counts on
its flag (R54). A destination that is outstanding already is left unpredictable by both (R56). -/
def issueLater (s : State) (c : Ctx) (counted : Bool) (poss : List Nat) (l : Later) : State :=
  let core := c.g.core
  let slot := c.g.slot
  let s0 := s
  let s := l.writes.foldl (fun s w => spoil s core slot ⟨w.pos, w.lane, w.code, w.vals⟩) s
  let flag := if counted then flagOf c.run.header c.f.fsel else none
  let s := match flag with
    | some k => poss.foldl (fun (s : State) q => s.updSlice core slot q fun x => flagUp x k) s
    | none => s
  let clash := fun (w : VlWrite) => (List.range w.vals.length).any fun i => outstanding s0 c.g w.pos w.lane (w.code + i)
  let s := if l.writes.isEmpty && l.fibres.isEmpty then s else
    poss.foldl (fun (s : State) q => s.updSlice core slot q fun x => { x with vague := x.vague ++ vagueOf flag l q clash }) s
  { s with
    nextId := s.nextId + 1,
    pend := s.pend ++ [⟨s.nextId, core, slot, poss, flag, l.writes, l.accs, l.fp, l.fibres, l.failed, c.here, l.hold, l.strict, l.fenced, l.wcOut⟩] }

/-- The parts of an access: of a device or strongly ordered page, and of device registers, at most 8 bytes each, in
increasing order of address (R111, R281). -/
def partsOf (a : Acc) : List Acc :=
  if a.memType < 2 || a.bytes ≤ 8 then [a]
  else (List.range (a.bytes / 8)).map fun i =>
    { a with
      va := a.va + 8 * i, pa := a.pa + 8 * i, bytes := 8
      kind := match a.kind with
        | .load t code => .load t (if code = 240 then 240 else code + 2 * i)
        | .store d => .store ((d.drop (8 * i)).take 8)
        | k => k }

/-- The destinations of those parts. -/
def partSlots (as : List Acc) (ws : List VlWrite) : List VlWrite :=
  ws.flatMap fun w =>
    if w.vals.length ≤ 2 || !(as.any fun a => a.pos == w.pos && a.lane == w.lane && 2 ≤ a.memType) then [w]
    else (List.range (w.vals.length / 2)).map fun i => { w with code := w.code + 2 * i, vals := (w.vals.drop (2 * i)).take 2 }

/-- An access goes through its own core's scratchpad port (R334). -/
def usesPort (s : State) (core pa : Nat) : Bool :=
  isOwn s pa && (placeOf s (localOf pa)).region == .scratch && (placeOf s (localOf pa)).core == core

/-- An earlier instruction of the core has its turn at the scratchpad port (R334). -/
def portBusy (s : State) (core : Nat) (pas : List Nat) : Bool :=
  pas.any (usesPort s core) && s.pend.any fun p => p.core == core && p.accs.any fun a => usesPort s core a.pa

/-- What keeps accesses from issuing: an earlier access of their slices, no room for the writes they may post (R443). -/
def accStalls (s : State) (c : Ctx) (as : List Acc) : Bool :=
  let writes := (as.filter fun a => !isOwn s a.pa && a.kind.excl).length
  accBusy s c.g (distinct (as.map fun a => a.pos)) || writes != 0 && decide (256 < inFlight s c.g.core + writes)

/-- What stands in the way of accesses being made at issue: that, and the scratchpad port. -/
def accWaits (s : State) (c : Ctx) (as : List Acc) : Bool :=
  portBusy s c.g.core (as.map fun a => a.pa) || accStalls s c as

/-- The accesses of one instruction made now, in order: results and failures come later, and an access that awaits
acknowledgement is remembered. A strongly ordered access completes before the slice's next instruction (R112). -/
def accMade (s : State) (c : Ctx) (vl : Bool) (as : List Acc) (writes : List VlWrite) : State :=
  let poss := distinct (as.map fun a => a.pos)
  let acks := tabGet 0 s.acks c.g.core
  let strict := as.any fun a => a.memType == 3
  let p := performAccs c.g c.here (as.flatMap partsOf) ⟨s, partSlots as writes, [], [], [], [], false⟩
  let s := dropWindows (clearFailed p.s (.core c.g.core) (as.map fun a => a.pa)) (c.g.core / 64)
  let posted := decide (acks < tabGet 0 s.acks c.g.core)
  let s := if vl || !p.rest.isEmpty || !p.failed.isEmpty then
      issueLater s c vl poss { writes := p.writes, accs := p.rest, fp := p.fp, failed := p.failed, hold := strict || p.hold, strict := strict }
    else raiseAll s c.g.core c.g.slot p.fp
  if posted then issueLater s c false poss { hold := true, strict := strict } else s

/-- Make the accesses of one instruction: performed now where their lines are here, else left to a later step
once every request has been injected, and so where the scratchpad port serves an earlier instruction, for which issue does not
wait (R334). `vl`: the instruction delivers registers through its flag. -/
def makeAccesses (s : State) (c : Ctx) (vl : Bool) (as : List Acc) (writes : List VlWrite) : Body :=
  let poss := distinct (as.map fun a => a.pos)
  let as := as.map (withBuffer s c.g)
  let busy := portBusy s c.g.core (as.map fun a => a.pa)
  if accStalls s c as then .stall s
  else if !busy && atomsFail s c.g.core as then
    let r := failAll c.g.core as s
    .done (issueLater (clearFailed r.1 (.core c.g.core) (as.map fun a => a.pa)) c vl poss { writes := writes, failed := r.2 })
  else if busy || as.any (fun a => accState s c.g.core a == .missing) then
    let s := askAccs s c.g.core c.g.slot as
    let strict := as.any fun a => a.memType == 3
    if allInjected s c.g.core as then
      .done (issueLater s c vl poss { writes := partSlots as writes, accs := as.flatMap partsOf, hold := strict, strict := strict })
    else .stall s
  else .done (accMade s c vl as writes)

/-- Lanes of a slice as a failure to be taken at the next clause boundary (R21). -/
def noteFailure (s : State) (core slot : Nat) (at_ : At) (failed : List (Nat × Nat × Nat)) : State :=
  (distinct (failed.map fun e => e.1)).foldl (fun s pos =>
    let lanes := (failed.filter fun e => e.1 == pos).map fun e => (e.2.1, e.2.2)
    s.updSlice core slot pos fun x =>
      { x with merr := addErr x.merr ⟨at_.pc, at_.cwords, at_.ilen, lanes⟩ }) s

/-- The result of a later instruction is written for every thread, its flags are raised, and its completion flag
clears (R13, R54); a slice with a failed access gets nothing and notes the failure (R21). -/
def writeResult (s : State) (q : Pend) : State :=
  let bad := fun (pos : Nat) => q.failed.any fun e => e.1 == pos
  let s := { s with
    fresh := s.fresh + 1, pend := s.pend.filter fun p => p.id != q.id, typed := s.typed.filter fun t => !q.fenced.contains t.thread }
  let s := ((q.writes.filter fun w => !bad w.pos).reverse).foldl (fun s w => putOne s q.core q.slot ⟨w.pos, w.lane, w.code, w.vals⟩) s
  let s := raiseAll s q.core q.slot (q.fp.filter fun e => !bad e.1)
  let s := (q.fibres.filter fun e => !bad e.1).foldl (fun s e =>
    s.updLane q.core q.slot e.1 e.2.1 fun t => { t with fibres := updAt e.2.2.1 (fun _ => e.2.2.2) t.fibres }) s
  let s := match q.flag with
    | some k => q.poss.foldl (flagFalls k q.core q.slot) s
    | none => s
  let s := noteFailure s q.core q.slot q.at_ q.failed
  q.poss.foldl (fun s p => reap s q.core q.slot p) s

/-- A read-modify-write among the accesses still waits for a line: none of them is performed before all are there, or one
has failed and so all have (R326). -/
def atomsWait (s : State) (core : Nat) (as : List Acc) : Bool :=
  as.any fun a => match a.kind with
    | .rmw _ _ _ _ _ _ => accState s core a == .missing
    | _ => false

/-- A fence, or an access that waits for acknowledgements, is held: by writes that are not acknowledged, and by accesses of its
slices that came before it (R328). Accesses of the core's own scratchpad wait for the port (R334). -/
def pendHeld (s : State) (q : Pend) : Bool :=
  (q.accs.any (fun a => usesPort s q.core a.pa) &&
    s.pend.any fun p => p.id < q.id && p.core == q.core && p.accs.any fun a => usesPort s q.core a.pa) ||
  q.hold && (tabGet 0 s.acks q.core != 0 ||
    s.pend.any fun p => p.id < q.id && p.core == q.core && p.slot == q.slot && !p.accs.isEmpty && p.poss.any fun x => q.poss.contains x)

/-- The combining buffers of a core that hold stores of these threads are written (R279). -/
def wcWriteOf (s : State) (core slot : Nat) (lanes : List (Nat × Nat)) : State :=
  (s.wcbufs.filter fun b => b.core == core && b.threads.any fun t =>
    lanes.any fun e => t.isOf slot e.1 && e.2 == t.lane).foldl wcWrite s

/-- A pending instruction goes on: its accesses as far as their lines allow, then its result. A fence that has waited for its threads'
earlier accesses writes the buffers that those stores have entered, and waits for their acknowledgements (R279, R280). -/
def advancePend (s : State) (q : Pend) : State :=
  match s.gang q.core q.slot with
  | none => { s with pend := s.pend.filter fun p => p.id != q.id }
  | some g =>
    if pendHeld s q then s
    else
      let p : Perf :=
        if atomsFail s q.core q.accs then
          let r := failAll q.core q.accs s
          ⟨r.1, q.writes, q.fp, q.failed ++ r.2, [], [], false⟩
        else if atomsWait s q.core q.accs then ⟨s, q.writes, q.fp, q.failed, q.accs, [], false⟩
        else performAccs g q.at_ q.accs ⟨s, q.writes, q.fp, q.failed, [], [], false⟩
      let s := clearFailed p.s (.core q.core) ((q.accs.filter fun a => p.rest.all fun b => a != b).map fun a => a.pa)
      let s := askAccs s q.core q.slot p.rest
      let s := wcWriteOf s q.core q.slot q.wcOut
      let q := { q with writes := p.writes, fp := p.fp, failed := p.failed, accs := p.rest, hold := q.hold || p.hold, wcOut := [] }
      let s := if p.rest.isEmpty then dropWindows s (q.core / 64) else s
      if p.rest.isEmpty && !pendHeld s q then
        writeResult { s with pend := updWhere (fun x => x.id == q.id) (fun _ => q) s.pend } q
      else { s with pend := updWhere (fun x => x.id == q.id) (fun _ => q) s.pend }

/-- No request is under way for a line that an access needs (R305). -/
def unasked (s : State) (core : Nat) (a : Acc) : Bool :=
  !(s.reqs.any fun r => r.pa == lineOf a.pa && !r.direct && (r.die == core / 64 || r.kind == 6)) && !(s.homeQ.any fun i => i.line == lineOf a.pa)

/-- The step can move a pending instruction: it waits for nothing. -/
def pendReady (s : State) (q : Pend) : Bool :=
  !pendHeld s q &&
  (match q.accs with
   | [] => true
   | a :: _ =>
     match accState s q.core a with
     | .atHome => false
     | .missing => unasked s q.core a
     | _ => !atomsWait s q.core q.accs || atomsFail s q.core q.accs || q.accs.any fun b => accState s q.core b == .missing && unasked s q.core b)

/-! ## Requests that fail (R443, R446) -/

/-- One acknowledgement less: the write that a core holds back longest goes (R443). -/
def dropPost (s : State) (p : Post) : State :=
  let s := { s with
    posts := s.posts.filter fun q => q.id != p.id
    acks := tabPut 0 s.acks (whoKey p.who) (tabGet 0 s.acks (whoKey p.who) - 1) }
  let room := match p.who with | .core c => decide (inFlight s c < 256) | _ => false
  match s.posts.find? fun q => room && q.who == p.who && q.held.isSome with
  | some q =>
    match q.held with
    | some m => { s with posts := updWhere (fun x => x.id == q.id) (fun x => { x with held := none, since := s.clk }) s.posts }.send q.kind m
    | none => s
  | none => s

/-- A thread whose write failed: its held instruction, or the thread itself, notes the failure of the instruction that
stored; of an atomic no later element is performed (R326). -/
def failThread (core addr : Nat) (s : State) (t : Src) : State :=
  let mine := fun (p : Pend) => p.core == core && p.slot == t.slot && p.hold && p.at_ == t.at_ && p.poss.contains t.pos
  if s.pend.any mine then
    let atom := fun (a : Acc) => match a.kind with | .rmw _ _ _ _ _ _ => true | _ => false
    { s with pend := updWhere mine (fun p => { p with
        failed := p.failed ++ [(t.pos, t.lane, addr)] ++ (p.accs.filter atom).map fun a => (a.pos, a.lane, lineOf a.pa)
        accs := p.accs.filter fun a => !atom a }) s.pend }
  else noteFailure s core t.slot t.at_ [(t.pos, t.lane, addr)]

/-- A lane whose store needs a D bit that could not be set meets the failure when it executes the store again, as for a
walk (R271). -/
def failDirty (core page : Nat) (s : State) (t : Src) : State :=
  s.updSlice core t.slot t.pos fun x => { x with retry := x.retry ++ [(t.lane, 14 + 64 * page)] }

/-- Failures are kept for an operation that is not over, and for a stream. -/
def keepsFailure (s : State) (op : Nat) : Bool := s.ops.any (fun o => o.id == op) || 2 ^ 21 ≤ op && op < 2 ^ 21 + 256

/-- An unacknowledged write fails: its threads, its operation's row, or the signal update it made (R500). -/
def failPost (s : State) (p : Post) : State :=
  let s := dropPost s p
  match p.sig, p.dirty with
  | some (ctx, va, w), _ => report s (some ctx) 0 none none { cause := causeCode .memerr, kind := 2, ctx := ctx, addr := va, loc := w }
  | none, some page =>
    match p.who with
    | .core c => p.src.foldl (failDirty c page) s
    | .engine op =>
      if keepsFailure s op then { s with failedPa := s.failedPa ++ [(whoKey (.engine op), lineOf p.addr)] } else s
    | w => { s with failedPa := s.failedPa ++ [(whoKey w, lineOf p.addr)] }
  | none, none =>
    match p.who with
    | .core c => p.src.foldl (failThread c (lineOf p.addr)) s
    | .engine op => if keepsFailure s op then { s with failedPa := s.failedPa ++ [(whoKey (.engine op), lineOf p.addr)] } else s
    | .monitor rid lane => failWait s rid lane (lineOf p.addr)
    | .front =>
      if s.queues.any fun x => (x.pkt.bind fun q => q.sent) == some (lineOf p.addr) then
        { s with failedPa := s.failedPa ++ [(whoKey .front, lineOf p.addr)] } else s
    | _ => s

/-- The acknowledgement of a write has come, with the time the write took (R300): its agent's clock advances to it. The leaf of a D
update has its D from now on (R267). -/
def ackPost (s : State) (p : Post) (time : Nat) : State :=
  let s := (dropPost s p).hear time
  let s := if p.dirty.isSome then dirtyTlbs s p.addr else s
  match p.who with
  | .core _ | .engine _ | .front | .walk _ => raisePts s p.who time
  | .monitor rid lane => fireWait s rid lane []
  | _ => s

end Sys2Proof.Machine
end

