-- ==== Sys2Proof/Machine/Integer.lean ====
section
/-! DEFINITION. Integer arithmetic, logic, bit manipulation, moves, comparison and predicates (R81–R106). -/

namespace Sys2Proof.Machine

/-! ## Shared forms -/

/-- A fixed-latency instruction: every guard-true active lane writes the value given for it (R10, R14). -/
def perLane (c : Ctx) (val : Slice → Nat → Nat) : Body :=
  .done (putAll c.s c.g.core c.g.slot (c.lanes.map fun e => c.put e.1 e.2 (val e.1 e.2)))

/-- The destination of a lane as a result to come. -/
def Ctx.vlPut (c : Ctx) (x : Slice) (lane v : Nat) : VlWrite :=
  let p := c.put x lane v
  ⟨p.pos, p.lane, p.code, p.vals⟩

/-- Positions of the slices with a guard-true active lane. -/
def Ctx.guarded (c : Ctx) : List Nat := distinct (c.lanes.map fun e => e.1.pos)

/-- A variable-latency instruction without an access: its results and flags come later (R54). -/
def perLaneLater (c : Ctx) (val : Slice → Nat → Nat × Flags) : Body :=
  .done (if c.lanes.isEmpty then c.s
    else issueLater c.s c true c.guarded
      { writes := c.lanes.map fun e => c.vlPut e.1 e.2 (val e.1 e.2).1,
        fp := c.lanes.map fun e => (e.1.pos, e.2, (val e.1 e.2).2) })

/-- Width in bits of the instruction's type. -/
def Ctx.w (c : Ctx) : Nat := typeBits c.ty

/-- An operand as the integer of the instruction's type (R81). -/
def Ctx.int (c : Ctx) (x : Slice) (l : Nat) (s : Slot) : Int := intOf c.ty (c.opnd x l s)

/-- An operand as its bits. -/
def Ctx.nat (c : Ctx) (x : Slice) (l : Nat) (s : Slot) : Nat := c.opnd x l s % 2 ^ c.w

/-- fin of R87 at the instruction's type. -/
def Ctx.fin (c : Ctx) (x : Int) : Nat := fin87 c.ty c.f.sat x

/-! ## Arithmetic (R87–R91) -/

def execAdd (f : Fields) (s : State) : Host.Outcome State Fault Refusal :=
  issue (.add f) s fun c => perLane c fun x l => c.fin (c.int x l .a + c.int x l .b)

def execSub (f : Fields) (s : State) : Host.Outcome State Fault Refusal :=
  issue (.sub f) s fun c => perLane c fun x l => c.fin (c.int x l .a - c.int x l .b)

def execMul (f : Fields) (s : State) : Host.Outcome State Fault Refusal :=
  issue (.mul f) s fun c => perLane c fun x l => c.fin (c.int x l .a * c.int x l .b)

def execMulh (f : Fields) (s : State) : Host.Outcome State Fault Refusal :=
  issue (.mulh f) s fun c => perLane c fun x l =>
    wrap c.w (c.int x l .a * c.int x l .b / (2 ^ c.w : Nat))

def execMad (f : Fields) (s : State) : Host.Outcome State Fault Refusal :=
  issue (.mad f) s fun c => perLane c fun x l => c.fin (c.int x l .a * c.int x l .b + c.int x l .c)

/-- The 64-bit type of the same signedness. -/
def wideType (t : Nat) : Nat := if tySigned t then 4 else 8

/-- MAD.WIDE (R88). -/
def execMadWide (f : Fields) (s : State) : Host.Outcome State Fault Refusal :=
  issue (.madWide f) s fun c => perLane c fun x l =>
    fin87 (wideType c.ty) c.f.sat
      (c.int x l .a * c.int x l .b + intOf (wideType c.ty) (c.src x l c.f.c.toNat 2 (wideType c.ty)))

/-- Quotient and remainder of R89. -/
def quotRem (t : Nat) (a b : Int) : Int × Int :=
  if b = 0 then ((2 ^ typeBits t : Nat) - 1, a)
  else if tySigned t && a == tyMin t && b == -1 then (a, 0)
  else (a.tdiv b, a.tmod b)

def execDiv (f : Fields) (s : State) : Host.Outcome State Fault Refusal :=
  issue (.div f) s fun c => perLaneLater c fun x l =>
    (wrap c.w (quotRem c.ty (c.int x l .a) (c.int x l .b)).1, 0)

def execRem (f : Fields) (s : State) : Host.Outcome State Fault Refusal :=
  issue (.rem f) s fun c => perLaneLater c fun x l =>
    (wrap c.w (quotRem c.ty (c.int x l .a) (c.int x l .b)).2, 0)

def execMin (f : Fields) (s : State) : Host.Outcome State Fault Refusal :=
  issue (.min f) s fun c => perLane c fun x l => wrap c.w (min (c.int x l .a) (c.int x l .b))

def execMax (f : Fields) (s : State) : Host.Outcome State Fault Refusal :=
  issue (.max f) s fun c => perLane c fun x l => wrap c.w (max (c.int x l .a) (c.int x l .b))

def execAbs (f : Fields) (s : State) : Host.Outcome State Fault Refusal :=
  issue (.abs f) s fun c => perLane c fun x l => c.fin (c.int x l .a).natAbs

def execNeg (f : Fields) (s : State) : Host.Outcome State Fault Refusal :=
  issue (.neg f) s fun c => perLane c fun x l => c.fin (-(c.int x l .a))

/-- Byte i of a word. -/
def byteOf (v i : Nat) : Nat := v / 2 ^ (8 * i) % 256

/-- The four products of DOT4: `ta` and `tb` are the 8-bit types of a and b. -/
def dot4Sum (ta tb a b : Nat) : Int :=
  ((List.range 4).map fun i => intOf ta (byteOf a i) * intOf tb (byteOf b i)).foldl (· + ·) 0

/-- DOT4 (R90): the accumulator's type is N32 for unmixed N8, else I32. -/
def execDot4 (f : Fields) (s : State) : Host.Outcome State Fault Refusal :=
  issue (.dot4 f) s fun c => perLane c fun x l =>
    let ta := c.ty
    let tb := if c.f.minor.toNat = 1 then (if ta = 1 then 5 else 1) else ta
    let t := if ta = 5 && c.f.minor.toNat = 0 then 7 else 3
    fin87 t c.f.sat (dot4Sum ta tb (c.opnd x l .a) (c.opnd x l .b) + intOf t (c.opnd x l .c))

/-- The carry-in of R91. -/
def Ctx.carryIn (c : Ctx) (x : Slice) (l : Nat) : Nat :=
  if c.f.aux.toNat = 7 then 0 else b2n (predRead c.s c.g x l c.f.aux.toNat)

/-- A maintenance-mode sum: the 32-bit result, then the carry-out to the predicate of aux (R91). -/
def carryOp (c : Ctx) (val : Slice → Nat → Int) : Body :=
  let s := putAll c.s c.g.core c.g.slot (c.lanes.map fun e => c.put e.1 e.2 (wrap 32 (val e.1 e.2)))
  .done (if c.f.aux.toNat = 7 then s
    else putAll s c.g.core c.g.slot (c.lanes.map fun e =>
      let t := val e.1 e.2
      ⟨e.1.pos, e.2, 192 + c.f.aux.toNat, [if t < 0 || 2 ^ 32 ≤ t then 1 else 0]⟩))

def execAddc (f : Fields) (s : State) : Host.Outcome State Fault Refusal :=
  issue (.addc f) s fun c => carryOp c fun x l =>
    ((c.opnd x l .a + c.opnd x l .b + c.carryIn x l : Nat) : Int)

def execSubb (f : Fields) (s : State) : Host.Outcome State Fault Refusal :=
  issue (.subb f) s fun c => carryOp c fun x l =>
    (c.opnd x l .a : Int) - (c.opnd x l .b : Int) - (c.carryIn x l : Int)

def execMadc (f : Fields) (s : State) : Host.Outcome State Fault Refusal :=
  issue (.madc f) s fun c => carryOp c fun x l =>
    let p := c.opnd x l .a * c.opnd x l .b
    (((if c.f.minor.toNat = 0 then p % 2 ^ 32 else p / 2 ^ 32) + c.opnd x l .c + c.carryIn x l : Nat) : Int)

/-! ## Logic and bits (R92–R99) -/

def execAnd (f : Fields) (s : State) : Host.Outcome State Fault Refusal :=
  issue (.and f) s fun c => perLane c fun x l => c.nat x l .a &&& c.nat x l .b

def execOr (f : Fields) (s : State) : Host.Outcome State Fault Refusal :=
  issue (.or f) s fun c => perLane c fun x l => c.nat x l .a ||| c.nat x l .b

def execXor (f : Fields) (s : State) : Host.Outcome State Fault Refusal :=
  issue (.xor f) s fun c => perLane c fun x l => c.nat x l .a ^^^ c.nat x l .b

/-- Complement of w bits. -/
def compl (w v : Nat) : Nat := 2 ^ w - 1 - v % 2 ^ w

def execAndn (f : Fields) (s : State) : Host.Outcome State Fault Refusal :=
  issue (.andn f) s fun c => perLane c fun x l => c.nat x l .a &&& compl c.w (c.nat x l .b)

def execNot (f : Fields) (s : State) : Host.Outcome State Fault Refusal :=
  issue (.not f) s fun c => perLane c fun x l => compl c.w (c.nat x l .a)

/-- A word from its bits, least significant first. -/
def ofBits : List Bool → Nat
  | [] => 0
  | b :: t => b2n b + 2 * ofBits t

/-- LUT3 (R93). -/
def lut3 (table a b c : Nat) : Nat :=
  ofBits ((List.range 32).map fun i => bitOf table (b2n (bitOf a i) + 2 * b2n (bitOf b i) + 4 * b2n (bitOf c i)))

/-- The table stands in word bits [15:8]: the minor field and the top of the type field. -/
def execLut3 (f : Fields) (s : State) : Host.Outcome State Fault Refusal :=
  issue (.lut3 f) s fun c => perLane c fun x l =>
    lut3 (c.f.minor.toNat * 16 + c.f.type.toNat / 2) (c.opnd x l .a) (c.opnd x l .b) (c.opnd x l .c)

/-- The shift count of R94, modulo w. -/
def Ctx.count (c : Ctx) (x : Slice) (l : Nat) : Nat :=
  (if c.f.minor.getLsbD 0 then c.f.c.toNat else c.opnd x l .b) % c.w

def execShl (f : Fields) (s : State) : Host.Outcome State Fault Refusal :=
  issue (.shl f) s fun c => perLane c fun x l => c.nat x l .a * 2 ^ c.count x l % 2 ^ c.w

def execShr (f : Fields) (s : State) : Host.Outcome State Fault Refusal :=
  issue (.shr f) s fun c => perLane c fun x l => c.nat x l .a / 2 ^ c.count x l

def execSra (f : Fields) (s : State) : Host.Outcome State Fault Refusal :=
  issue (.sra f) s fun c => perLane c fun x l =>
    wrap c.w (sext c.w (c.nat x l .a) / (2 ^ c.count x l : Nat))

/-- Rotate w bits left. -/
def rotl (w v n : Nat) : Nat := (v * 2 ^ n + v / 2 ^ (w - n)) % 2 ^ w

def execRot (f : Fields) (s : State) : Host.Outcome State Fault Refusal :=
  issue (.rot f) s fun c => perLane c fun x l =>
    let n := c.count x l
    rotl c.w (c.nat x l .a) (if c.f.minor.getLsbD 1 then (c.w - n) % c.w else n)

/-- FSH (R95). -/
def execFsh (f : Fields) (s : State) : Host.Outcome State Fault Refusal :=
  issue (.fsh f) s fun c => perLane c fun x l =>
    let v := c.opnd x l .b * 2 ^ 32 + c.opnd x l .a
    let n := (if c.f.minor.getLsbD 0 then c.f.c.toNat else c.opnd x l .c) % 32
    if c.f.minor.getLsbD 1 then v / 2 ^ n % 2 ^ 32 else v * 2 ^ n / 2 ^ 32 % 2 ^ 32

/-- BFX (R96). -/
def bfx (signed : Bool) (w a ctl : Nat) : Nat :=
  let pos := fld ctl 7 0
  let len := fld ctl 15 8
  if len = 0 || w ≤ pos then 0
  else
    let n := min len (w - pos)
    let v := a / 2 ^ pos % 2 ^ n
    if signed then wrap w (sext n v) else v

def execBfx (f : Fields) (s : State) : Host.Outcome State Fault Refusal :=
  issue (.bfx f) s fun c => perLane c fun x l => bfx (tySigned c.ty) c.w (c.nat x l .a) (c.opnd x l .b)

/-- BFI (R97). -/
def bfi (w a b ctl : Nat) : Nat :=
  let pos := fld ctl 7 0
  let len := fld ctl 15 8
  if len = 0 || w ≤ pos then a
  else
    let n := min len (w - pos)
    a / 2 ^ (pos + n) * 2 ^ (pos + n) + b % 2 ^ n * 2 ^ pos + a % 2 ^ pos

def execBfi (f : Fields) (s : State) : Host.Outcome State Fault Refusal :=
  issue (.bfi f) s fun c => perLane c fun x l => bfi c.w (c.nat x l .a) (c.nat x l .b) (c.opnd x l .c)

def popCount (w v : Nat) : Nat := ((List.range w).filter fun i => bitOf v i).length
def leadingZeros (w v : Nat) : Nat := if v = 0 then w else w - 1 - Nat.log2 v
def trailingZeros (w v : Nat) : Nat := ((List.range w).find? fun i => bitOf v i).getD w

def execPopc (f : Fields) (s : State) : Host.Outcome State Fault Refusal :=
  issue (.popc f) s fun c => perLane c fun x l => popCount c.w (c.nat x l .a)

def execClz (f : Fields) (s : State) : Host.Outcome State Fault Refusal :=
  issue (.clz f) s fun c => perLane c fun x l => leadingZeros c.w (c.nat x l .a)

def execCtz (f : Fields) (s : State) : Host.Outcome State Fault Refusal :=
  issue (.ctz f) s fun c => perLane c fun x l => trailingZeros c.w (c.nat x l .a)

def execBrev (f : Fields) (s : State) : Host.Outcome State Fault Refusal :=
  issue (.brev f) s fun c => perLane c fun x l =>
    ofBits ((List.range c.w).map fun i => bitOf (c.nat x l .a) (c.w - 1 - i))

/-- BSEL (R99): fill 0 ZERO, 1 SGN, 2 ONE. -/
def bsel (fill a b sel : Nat) : Nat :=
  bytesToNat ((List.range 4).map fun i =>
    let q := sel / 16 ^ i % 16
    let y := byteOf (a + b * 2 ^ 32) (q % 8)
    BitVec.ofNat 8 (if q < 8 then y
      else if fill = 0 then 0
      else if fill = 1 then (if 128 ≤ y then 255 else 0)
      else 255))

def execBsel (f : Fields) (s : State) : Host.Outcome State Fault Refusal :=
  issue (.bsel f) s fun c => perLane c fun x l =>
    bsel c.f.minor.toNat (c.opnd x l .a) (c.opnd x l .b) (c.opnd x l .c)

/-! ## Constants, selection, comparison, predicates (R101–R104) -/

/-- MOVI (R101). -/
def execMovi (f : Fields) (s : State) : Host.Outcome State Fault Refusal :=
  issue (.movi f) s fun c => perLane c fun x l =>
    if c.f.long then c.opnd x l .c else wrap c.w (sext 8 c.f.c.toNat)

def execSel (f : Fields) (s : State) : Host.Outcome State Fault Refusal :=
  issue (.sel f) s fun c => perLane c fun x l => if c.opnd x l .c = 1 then c.nat x l .a else c.nat x l .b

def execCmp (f : Fields) (s : State) : Host.Outcome State Fault Refusal :=
  issue (.cmp f) s fun c => perLane c fun x l =>
    b2n (combine c.f.aux.toNat (intCond (cmpCode c.f) (c.int x l .a) (c.int x l .b))
      (c.f.aux.toNat != 0 && c.opnd x l .c == 1))

/-- PSET (R104). -/
def psetOp (k : Nat) (a b : Bool) : Bool :=
  match k with
  | 0 => a && b
  | 1 => a || b
  | 2 => a != b
  | 3 => a && !b
  | 4 => a || !b
  | 5 => !(a && b)
  | 6 => !(a || b)
  | _ => a == b

def execPset (f : Fields) (s : State) : Host.Outcome State Fault Refusal :=
  issue (.pset f) s fun c => perLane c fun x l =>
    b2n (psetOp c.f.minor.toNat (c.opnd x l .a == 1) (c.opnd x l .b == 1))

/-! ## Addresses and conversion (R105, R106) -/

def execLea (f : Fields) (s : State) : Host.Outcome State Fault Refusal :=
  issue (.lea f) s fun c => perLane c fun x l => c.ea x l

/-- CVTI (R106). -/
def cvti (src dst : Nat) (sat : Bool) (v : Nat) : Nat :=
  let x := intOf src v
  extendInt dst (if sat then min (max x (tyMin dst)) (tyMax dst) else intOf dst (wrap (typeBits dst) x))

def execCvti (f : Fields) (s : State) : Host.Outcome State Fault Refusal :=
  issue (.cvti f) s fun c => perLane c fun x l => cvti c.f.c.toNat c.ty c.f.sat (c.opnd x l .a)

end Sys2Proof.Machine
end

