-- ==== Sys2Proof/Machine/Special.lean ====
section
/-! DEFINITION. 2^x, log2 x, sin πx, cos πx and tanh x rounded once with RN (R127, R128). Each value is
bracketed in fixed point with 256 fraction bits; both ends of the bracket round to the delivered code. Where
they did not, the result would be a free value (log entry 8: no operand of the 16- and 32-bit formats is
that close to a tie). -/

namespace Sys2Proof.Machine

/-- Fraction bits of the fixed-point values below. -/
def fpBits : Nat := 256
def fpOne : Nat := 2 ^ fpBits

/-- Sum of x^k / k! for k ≤ n, in fixed point: term by term. -/
def expSeries (x : Nat) : Nat → Nat → Nat → Nat
  | 0, _, term => term
  | n + 1, k, term => term + expSeries x n (k + 1) (term * x / fpOne / (k + 1))

/-- e^x for 0 ≤ x < 1 in fixed point. -/
def expFp (x : Nat) : Nat := expSeries x 64 0 fpOne

/-- Sum of x^(2k+1) / (2k+1), signs alternating when alt: artanh or arctan of x. -/
def oddSeries (alt : Bool) (x2 : Nat) : Nat → Nat → Nat → Int
  | 0, _, _ => 0
  | n + 1, k, pw =>
    let t : Int := (pw / (2 * k + 1) : Nat)
    (if alt && k % 2 == 1 then -t else t) + oddSeries alt x2 n (k + 1) (pw * x2 / fpOne)

/-- artanh (a / b) in fixed point for a / b ≤ 1/3. -/
def atanhFp (a b : Nat) : Nat :=
  let x := a * fpOne / b
  (oddSeries false (x * x / fpOne) 90 0 x).toNat

/-- arctan (1 / n) in fixed point. -/
def atanInv (n : Nat) : Nat :=
  let x := fpOne / n
  (oddSeries true (x * x / fpOne) 70 0 x).toNat

/-- ln 2 and π in fixed point. -/
def ln2Fp : Nat := 2 * atanhFp 1 3
def piFp : Nat := 16 * atanInv 5 - 4 * atanInv 239

/-- sin z in fixed point for 0 ≤ z ≤ π/2. -/
def sinSeries (z2 : Nat) : Nat → Nat → Nat → Int
  | 0, _, _ => 0
  | n + 1, k, term =>
    (term : Int) - sinSeries z2 n (k + 1) (term * z2 / fpOne / ((2 * k + 2) * (2 * k + 3)))

def sinFp (z : Nat) : Nat := (sinSeries (z * z / fpOne) 48 0 z).toNat

/-- Round a bracketed irrational y · 2^(s − fpBits), |error| below 2^32 units of y, to a format with RN; none
when the two ends disagree. -/
def bracket (f : Fmt) (neg : Bool) (y : Nat) (s : Int) : Option (Nat × Flags) :=
  let lo := roundF f .rn false neg (y - 2 ^ 32) (s - fpBits) true
  let hi := roundF f .rn false neg (y + 2 ^ 32) (s - fpBits) true
  if lo = hi then some lo else none

/-- Fixed-point image of m · 2^e, exact for e ≥ −fpBits. -/
def toFp (m : Nat) (e : Int) : Nat := if e + fpBits ≥ 0 then m * 2 ^ (e + fpBits).toNat else m / 2 ^ (-(e + fpBits)).toNat

/-- Magnitudes at or above 2^16 need no exact image in 2^x and tanh x. -/
def isHuge (m : Nat) (e : Int) : Bool := Nat.log2 m + e > 15

/-- 2^x (R127, R128). -/
def ex2 (f : Fmt) (a : Val) : Option (Nat × Flags) :=
  match a with
  | .nan s => some (canonNan f, if s then fNV else 0)
  | .inf true => some (0, 0)
  | .inf false => some (infCode f false, 0)
  | .zero _ => some (deliver f .rn false (.num false 1 0 false))
  | .fin neg m e =>
    if isHuge m e then some (roundF f .rn false false 1 (if neg then -5000 else 5000) true)
    else
      let x := toFp m e
      let i := x / fpOne
      let r := x % fpOne
      if r = 0 then some (roundF f .rn false false 1 (if neg then -(i : Int) else i) false)
      else
        let (k, fr) : Int × Nat := if neg then (-(i : Int) - 1, fpOne - r) else (i, r)
        bracket f false (expFp (fr * ln2Fp / fpOne)) k

/-- log2 x (R127, R128). -/
def lg2 (f : Fmt) (a : Val) : Option (Nat × Flags) :=
  match a with
  | .nan s => some (canonNan f, if s then fNV else 0)
  | .zero _ => some (infCode f true, fDZ)
  | .inf true => some (canonNan f, fNV)
  | .fin true _ _ => some (canonNan f, fNV)
  | .inf false => some (infCode f false, 0)
  | .fin false m e =>
    let l := Nat.log2 m
    let k : Int := l + e
    if m = 2 ^ l then some (deliver f .rn false (ofIntE k))
    else
      -- t = m / 2^l in (1, 2): ln t = 2 artanh ((t - 1) / (t + 1))
      let y := 2 * atanhFp (m - 2 ^ l) (m + 2 ^ l) * fpOne / ln2Fp
      let v : Int := k * fpOne + y
      bracket f (v < 0) v.natAbs 0

/-- sin (π q) for a fixed-point q modulo 2: exact zero, exact one, or bracketed. -/
def sinTurns (f : Fmt) (neg : Bool) (q : Nat) : Option (Nat × Flags) :=
  let q := q % (2 * fpOne)
  let neg := neg != (fpOne ≤ q)
  let q := q % fpOne
  let q := if 2 * q > fpOne then fpOne - q else q
  if q = 0 then some (signBit f neg, 0)
  else if 2 * q = fpOne then some (deliver f .rn false (.num neg 1 0 false))
  else bracket f neg (sinFp (q * piFp / fpOne)) 0

/-- m · 2^e modulo 2 in fixed point. -/
def mod2Fp (m : Nat) (e : Int) : Nat :=
  if e > 0 then 0 else toFp m e % (2 * fpOne)

/-- sin (π x) (R127, R128): an integer gives a zero of x's sign. -/
def sinPi (f : Fmt) (a : Val) : Option (Nat × Flags) :=
  match a with
  | .nan s => some (canonNan f, if s then fNV else 0)
  | .inf _ => some (canonNan f, fNV)
  | .zero n => some (signBit f n, 0)
  | .fin n m e =>
    let q := mod2Fp m e
    if q % fpOne = 0 then some (signBit f n, 0) else sinTurns f n q

/-- cos (π x): n + 1/2 gives +0. -/
def cosPi (f : Fmt) (a : Val) : Option (Nat × Flags) :=
  match a with
  | .nan s => some (canonNan f, if s then fNV else 0)
  | .inf _ => some (canonNan f, fNV)
  | .zero _ => some (deliver f .rn false (.num false 1 0 false))
  | .fin _ m e =>
    let q := mod2Fp m e + fpOne / 2
    if q % fpOne = 0 then some (0, 0) else sinTurns f false q

/-- tanh x = (1 − e^(−2|x|)) / (1 + e^(−2|x|)), with the sign of x. -/
def tanhV (f : Fmt) (a : Val) : Option (Nat × Flags) :=
  match a with
  | .nan s => some (canonNan f, if s then fNV else 0)
  | .inf n => some (deliver f .rn false (.num n 1 0 false))
  | .zero n => some (signBit f n, 0)
  | .fin n m e =>
    if isHuge m e || toFp m e ≥ 128 * fpOne then bracket f n fpOne 0
    else
      let z := 2 * toFp m e
      let i := z / ln2Fp + 1
      let w := expFp (i * ln2Fp - z) / 2 ^ i
      bracket f n ((fpOne - w) * fpOne / (fpOne + w)) 0

end Sys2Proof.Machine
end

