-- ==== Sys2Proof/Machine/Float.lean ====
section
/-! DEFINITION. Floating-point arithmetic, comparison, special functions, packed halves and conversions
(R115–R132), and pair words (R67–R69). -/

namespace Sys2Proof.Machine

/-! ## Shared forms -/

/-- A fixed-latency instruction with flags: every lane writes its value and ORs its flags (R13). -/
def perLaneF (c : Ctx) (val : Slice → Nat → Nat × Flags) : Body :=
  let s := putAll c.s c.g.core c.g.slot (c.lanes.map fun e => c.put e.1 e.2 (val e.1 e.2).1)
  .done (raiseAll s c.g.core c.g.slot (c.lanes.map fun e => (e.1.pos, e.2, (val e.1 e.2).2)))

def Ctx.fmt (c : Ctx) : Fmt := fmtOf c.ty

/-- An operand as a value of the instruction's type. -/
def Ctx.flt (c : Ctx) (x : Slice) (l : Nat) (s : Slot) : Val := unpackF c.fmt (c.opnd x l s)

/-- One rounding of an exact result to a format, with the flags of the operation (R117). -/
def rounded (f : Fmt) (rm : RMode) (sat : Bool) (e : Exact × Flags) : Nat × Flags :=
  ((deliver f rm sat e.1).1, e.2 ||| (deliver f rm sat e.1).2)

def Ctx.rm (c : Ctx) : RMode := rmOf c.f.rm.toNat

/-- Round to the instruction's type by its mode. -/
def Ctx.rnd (c : Ctx) (e : Exact × Flags) : Nat × Flags := rounded c.fmt c.rm false e

/-! ## Arithmetic (R120, R121) -/

/-- A − B. -/
def subE (rm : RMode) (a b : Val) : Exact × Flags := addE rm a b.negate

/-- A · B. -/
def mulE (a b : Val) : Exact × Flags := (.val (mulV a b).1, (mulV a b).2)

def execFadd (f : Fields) (s : State) : Host.Outcome State Fault Refusal :=
  issue (.fadd f) s fun c => perLaneF c fun x l => c.rnd (addE c.rm (c.flt x l .a) (c.flt x l .b))

def execFsub (f : Fields) (s : State) : Host.Outcome State Fault Refusal :=
  issue (.fsub f) s fun c => perLaneF c fun x l => c.rnd (subE c.rm (c.flt x l .a) (c.flt x l .b))

def execFmul (f : Fields) (s : State) : Host.Outcome State Fault Refusal :=
  issue (.fmul f) s fun c => perLaneF c fun x l => c.rnd (mulE (c.flt x l .a) (c.flt x l .b))

def execFfma (f : Fields) (s : State) : Host.Outcome State Fault Refusal :=
  issue (.ffma f) s fun c => perLaneF c fun x l =>
    c.rnd (fmaE c.rm (c.flt x l .a) (c.flt x l .b) (c.flt x l .c))

/-- The operand a minimum or maximum returns, bit for bit (R121). -/
def minMax (isMax : Bool) (f : Fmt) (a b : Nat) : Nat × Flags :=
  let r := minMaxPick isMax (unpackF f a) (unpackF f b)
  (match r.1 with
   | none => canonNan f
   | some false => a % 2 ^ f.bits
   | some true => b % 2 ^ f.bits, r.2)

def execFmin (f : Fields) (s : State) : Host.Outcome State Fault Refusal :=
  issue (.fmin f) s fun c => perLaneF c fun x l => minMax false c.fmt (c.opnd x l .a) (c.opnd x l .b)

def execFmax (f : Fields) (s : State) : Host.Outcome State Fault Refusal :=
  issue (.fmax f) s fun c => perLaneF c fun x l => minMax true c.fmt (c.opnd x l .a) (c.opnd x l .b)

/-! ## Comparison, class, rounding to integral, scaling (R122–R125) -/

def execFcmp (f : Fields) (s : State) : Host.Outcome State Fault Refusal :=
  issue (.fcmp f) s fun c => perLaneF c fun x l =>
    let r := fltCond (cmpCode c.f) (c.flt x l .a) (c.flt x l .b)
    (b2n (combine c.f.aux.toNat r.1 (c.f.aux.toNat != 0 && c.opnd x l .c == 1)), r.2)

def execFclass (f : Fields) (s : State) : Host.Outcome State Fault Refusal :=
  issue (.fclass f) s fun c => perLane c fun x l => 2 ^ classBit c.fmt (c.flt x l .a)

/-- FRND, and FRND.X which raises NX for a changed value (R124). -/
def execFrnd (f : Fields) (s : State) : Host.Outcome State Fault Refusal :=
  issue (.frnd f) s fun c => perLaneF c fun x l =>
    let r := rndE c.rm (c.flt x l .a)
    ((deliver c.fmt .rn false r.1).1, r.2.1 ||| (if c.f.minor.toNat = 1 && !r.2.2 then fNX else 0))

def execFscale (f : Fields) (s : State) : Host.Outcome State Fault Refusal :=
  issue (.fscale f) s fun c => perLaneF c fun x l => c.rnd (scaleE (c.flt x l .a) (sext 32 (c.opnd x l .b)))

/-! ## Division, roots, special functions (R126–R128) -/

def execFdiv (f : Fields) (s : State) : Host.Outcome State Fault Refusal :=
  issue (.fdiv f) s fun c => perLaneLater c fun x l => c.rnd (divE (c.flt x l .a) (c.flt x l .b))

def execFsqrt (f : Fields) (s : State) : Host.Outcome State Fault Refusal :=
  issue (.fsqrt f) s fun c => perLaneLater c fun x l => c.rnd (sqrtE (c.flt x l .a))

def execFrcp (f : Fields) (s : State) : Host.Outcome State Fault Refusal :=
  issue (.frcp f) s fun c => perLaneLater c fun x l => c.rnd (divE (.fin false 1 0) (c.flt x l .a))

def execFrsq (f : Fields) (s : State) : Host.Outcome State Fault Refusal :=
  issue (.frsq f) s fun c => perLaneLater c fun x l => c.rnd (rsqrtE (c.flt x l .a))

/-- The value of a special function, free where its bracket does not decide (log entry 8). -/
def Ctx.special (c : Ctx) (fn : Fmt → Val → Option (Nat × Flags)) (x : Slice) (l : Nat) : Nat × Flags :=
  match fn c.fmt (c.flt x l .a) with
  | some r => r
  | none => ((freeWord c.s (threadIx x l)).toNat % 2 ^ c.fmt.bits, fNX)

def execFex2 (f : Fields) (s : State) : Host.Outcome State Fault Refusal :=
  issue (.fex2 f) s fun c => perLaneLater c (c.special ex2)

def execFlg2 (f : Fields) (s : State) : Host.Outcome State Fault Refusal :=
  issue (.flg2 f) s fun c => perLaneLater c (c.special lg2)

def execFsin (f : Fields) (s : State) : Host.Outcome State Fault Refusal :=
  issue (.fsin f) s fun c => perLaneLater c (c.special sinPi)

def execFcos (f : Fields) (s : State) : Host.Outcome State Fault Refusal :=
  issue (.fcos f) s fun c => perLaneLater c (c.special cosPi)

def execFtanh (f : Fields) (s : State) : Host.Outcome State Fault Refusal :=
  issue (.ftanh f) s fun c => perLaneLater c (c.special tanhV)

/-! ## Packed halves (R129) -/

/-- The 16-bit element k of a packed value. -/
def halfOf (k v : Nat) : Nat := v / 2 ^ (16 * k) % 2 ^ 16

/-- An operation on both elements of packed operands. -/
def packed (op : Nat → Nat × Flags) : Nat × Flags := ((op 0).1 + (op 1).1 * 2 ^ 16, (op 0).2 ||| (op 1).2)

def execHadd2 (f : Fields) (s : State) : Host.Outcome State Fault Refusal :=
  issue (.hadd2 f) s fun c => perLaneF c fun x l => packed fun k =>
    c.rnd (addE c.rm (unpackF c.fmt (halfOf k (c.opnd x l .a))) (unpackF c.fmt (halfOf k (c.opnd x l .b))))

def execHmul2 (f : Fields) (s : State) : Host.Outcome State Fault Refusal :=
  issue (.hmul2 f) s fun c => perLaneF c fun x l => packed fun k =>
    c.rnd (mulE (unpackF c.fmt (halfOf k (c.opnd x l .a))) (unpackF c.fmt (halfOf k (c.opnd x l .b))))

def execHfma2 (f : Fields) (s : State) : Host.Outcome State Fault Refusal :=
  issue (.hfma2 f) s fun c => perLaneF c fun x l => packed fun k =>
    c.rnd (fmaE c.rm (unpackF c.fmt (halfOf k (c.opnd x l .a))) (unpackF c.fmt (halfOf k (c.opnd x l .b)))
      (unpackF c.fmt (halfOf k (c.opnd x l .c))))

/-! ## Conversions (R130–R132) -/

/-- A conversion between floating-point formats (R40–R42). -/
def cvtf (src dst : Fmt) (rm : RMode) (sat : Bool) (v : Nat) : Nat × Flags :=
  let a := unpackF src v
  rounded dst rm sat (.val a, sigFlags [a])

/-- The elements a CVTF converts, in order. -/
def Ctx.cvtElems (c : Ctx) (x : Slice) (l : Nat) : List Nat :=
  match c.f.minor.toNat with
  | 1 => [c.opnd x l .a, c.opnd x l .b]
  | 2 => [c.src x l c.f.a.toNat 1 7 / 2 ^ 16]
  | _ => [c.opnd x l .a]

/-- Convert elements in order, each RS step advancing the generator (R38): packed results, flags, RSTATE. -/
def cvtSeq (src dst : Fmt) (rm : Nat) (sat : Bool) : List Nat → W32 → Nat × Flags × W32
  | [], u => (0, 0, u)
  | v :: t, u =>
    let u' := if rm = 4 then rsNext u else u
    let r := cvtf src dst (if rm = 4 then .rs u' else rmOf rm) sat v
    let q := cvtSeq src dst rm sat t u'
    (r.1 + q.1 * 2 ^ 16, r.2 ||| q.2.1, q.2.2)

def Ctx.cvtLane (c : Ctx) (x : Slice) (l : Nat) : Nat × Flags × W32 :=
  cvtSeq (fmtOf c.f.c.toNat) c.fmt c.f.rm.toNat c.f.sat (c.cvtElems x l) (x.lane l).rstate

/-- CVTF, with the stepped RSTATE of every lane. -/
def execCvtf (f : Fields) (s : State) : Host.Outcome State Fault Refusal :=
  issue (.cvtf f) s fun c =>
    match perLaneF c fun x l => ((c.cvtLane x l).1, (c.cvtLane x l).2.1) with
    | .done s => .done (c.lanes.foldl (fun (s : State) e =>
        s.updLane c.g.core c.g.slot e.1.pos e.2 fun t => { t with rstate := (c.cvtLane e.1 e.2).2.2 }) s)
    | b => b

def execCvtfi (f : Fields) (s : State) : Host.Outcome State Fault Refusal :=
  issue (.cvtfi f) s fun c => perLaneF c fun x l =>
    let r := toIntE c.ty c.rm (unpackF (fmtOf c.f.c.toNat) (c.opnd x l .a))
    (extendInt c.ty r.1, r.2)

def execCvtif (f : Fields) (s : State) : Host.Outcome State Fault Refusal :=
  issue (.cvtif f) s fun c => perLaneF c fun x l =>
    rounded c.fmt c.rm c.f.sat (ofIntE (intOf c.f.c.toNat (c.opnd x l .a)), 0)

/-! ## Pair words (R67–R69) -/

/-- The result of a half from dx and sy (R68): 32-bit wrapping integers, RN floating point. -/
def halfValue (h : Half) (a b : Nat) : Nat × Flags :=
  let ia := intOf 3 a
  let ib := intOf 3 b
  let n := b % 32
  let f32 := fmtOf 10
  let f16 := fmtOf (if h.imm.getLsbD 0 then 12 else 11)
  let two := fun (op : Val → Val → Exact × Flags) => packed fun k =>
    rounded f16 .rn false (op (unpackF f16 (halfOf k a)) (unpackF f16 (halfOf k b)))
  match h.pop.toNat with
  | 0x00 => (wrap 32 (ia + ib), 0)
  | 0x01 => (wrap 32 (ia - ib), 0)
  | 0x02 => (wrap 32 (ia * ib), 0)
  | 0x07 => (wrap 32 (min ia ib), 0)
  | 0x08 => (wrap 32 (max ia ib), 0)
  | 0x10 => (a &&& b, 0)
  | 0x11 => (a ||| b, 0)
  | 0x12 => (a ^^^ b, 0)
  | 0x13 => (a &&& compl 32 b, 0)
  | 0x16 => (a * 2 ^ n % 2 ^ 32, 0)
  | 0x17 => (a / 2 ^ n, 0)
  | 0x18 => (wrap 32 (ia / (2 ^ n : Nat)), 0)
  | 0x30 => (b, 0)
  | 0x31 => (wrap 32 (sext 8 h.imm.toNat), 0)
  | 0x50 => rounded f32 .rn false (addE .rn (unpackF f32 a) (unpackF f32 b))
  | 0x51 => rounded f32 .rn false (subE .rn (unpackF f32 a) (unpackF f32 b))
  | 0x52 => rounded f32 .rn false (mulE (unpackF f32 a) (unpackF f32 b))
  | 0x54 => minMax false f32 a b
  | 0x55 => minMax true f32 a b
  | 0x62 => two (addE .rn)
  | _ => two mulE

/-- The lanes' results of a half, from registers as they were before the pair. -/
def Ctx.halfOuts (c : Ctx) (h : Half) : List (Put × Flags) :=
  if h.pop.toNat = 0x7f then []
  else c.lanes.map fun e =>
    let r := halfValue h (regRead c.s c.g e.1 e.2 h.dx.toNat).toNat (regRead c.s c.g e.1 e.2 h.sy.toNat).toNat
    (⟨e.1.pos, e.2, h.dx.toNat, [BitVec.ofNat 32 r.1]⟩, r.2)

def execPairWord (h1 h2 : Half) (s : State) : Host.Outcome State Fault Refusal :=
  issue (.pairWord h1 h2) s fun c =>
    let o := c.halfOuts h1
    let q := c.halfOuts h2
    let s := putAll (putAll c.s c.g.core c.g.slot (o.map fun e => e.1)) c.g.core c.g.slot (q.map fun e => e.1)
    .done (raiseAll s c.g.core c.g.slot ((o ++ q).map fun e => (e.1.pos, e.1.lane, e.2)))

end Sys2Proof.Machine
end

