-- ==== Sys2Proof/Machine/Futures.lean ====
section
/-! DEFINITION. Futures and their handles (R355–R360, R380–R382), stage rings (R373, R374, R403–R405), signal
updates (R500), completion actions (R363), and reads of handles by MOV (R58, R100). -/

namespace Sys2Proof.Machine

/-! ## Segment ends of waiting instructions -/

/-- The end of a segment before the resume clause, waiting on events of the lanes in `waits` (R58, R162). -/
def waitEnd (c : Ctx) (rid : Nat) (kind : EventKind) (subject : Nat) (waits : BitVec 4) (dest dregs : Nat) : EndInfo :=
  let live := c.resume
  ⟨rid, kind, subject, c.next, 0, false, fld live.toNat 31 24, live.getLsbD 23, live.getLsbD 22, 0, waits, dest, dregs,
   c.here, none, [], false, []⟩

/-- A slice ends its segment waiting: one event per lane given. -/
def waitSlice (s : State) (c : Ctx) (pos : Nat) (kind : EventKind) (subject dest dregs : Nat)
    (waits : List (Nat × WaitKind)) : State :=
  let rid := s.nextId
  let s := waits.foldl (fun s w => addWait s rid w.1 w.2) s.bump
  let m := waits.foldl (fun m w => m ||| laneBit w.1) 0#4
  endSegment s c.g.core c.g.slot pos (waitEnd c rid kind subject m dest dregs)

/-- A trap of the issuing thread, the lowest guard-true one. -/
def trapFirst (c : Ctx) (cause : Cause) (addr : Nat := 0) : Body :=
  match c.lanes with
  | e :: _ => .trap c.s [hitAt e.1.pos e.2 cause addr]
  | [] => .done c.s

/-- Traps of single lanes: the first lane of each slice decides (R22). -/
def trapLanes (s : State) (bad : List (Slice × Nat × Cause × Nat)) : Body :=
  .trap s ((distinct (bad.map fun e => e.1.pos)).filterMap fun p =>
    (bad.find? fun e => e.1.pos == p).map fun e =>
      hitOf p e.2.1 e.2.2.1 ((bad.filter fun q => q.1.pos == p && q.2.2.1 == e.2.2.1).map fun q => (q.2.1, q.2.2.2)))

/-! ## The future table -/

def handleOf (die entry gen : Nat) : Nat := die % 4 * 2 ^ 30 + entry % 16384 * 2 ^ 16 + gen % 2 ^ 16

/-- A handle is live for a context (R358). -/
def handleLive (s : State) (ctx h : Nat) : Bool :=
  let f := futAt s h
  f.gen == futGen h && f.ctx == ctx && f.st != .free && futGen h != 0

def handleRunning (s : State) (ctx h : Nat) : Bool := handleLive s ctx h && (futAt s h).st == .running

/-- The status word of a handle: RETIRED when it is not live (R357, R358). -/
def handleStatus (s : State) (ctx h : Nat) : Nat :=
  if handleLive s ctx h then
    let f := futAt s h
    (if f.st = .running then 5 else f.code) * 2 ^ 28 + f.progress % 2 ^ 28
  else 4 * 2 ^ 28

/-- A launch has reached COMPLETE or FAILED. -/
def launchOver (s : State) (lid : Nat) : Bool :=
  lid != 0 && !(s.launches.any fun l => l.lid == lid && l.st != .complete && l.st != .failed)

/-- What a wait awaits of a handle. -/
def WaitKind.onHandle (k : WaitKind) (h : Nat) : Bool :=
  match k with
  | .fut g => g == h
  | .futStatus g => g == h
  | .futStore g _ _ _ => g == h
  | .futPort g _ _ _ _ => g == h
  | _ => false

/-- A complete entry may be reclaimed (R357). -/
def reclaimable (s : State) (key : Nat) (f : Fut) : Bool :=
  let h := handleOf (key / 16384) (key % 16384) f.gen
  f.st == .complete && !(s.waits.any fun w => w.kind.onHandle h) && !(s.faults.any fun e => e.handle == some h) &&
  (f.observed || launchOver s f.lid)

/-- Entries of a die that are not FREE. -/
def usedFuts (s : State) (die : Nat) : List (Nat × Fut) := s.futs.filter fun e => e.1 / 16384 == die && e.2.st != .free

/-- The FREE entry that an issue takes: which one is free (log entry 13). -/
def freeEntry (s : State) (die : Nat) : Nat :=
  let start := (Config.freeBits s.fresh (2 ^ 62)).toNat
  (((List.range 16384).map fun i => (start + i) % 16384).find? fun e =>
    (tabGet Fut.free s.futs (die * 16384 + e)).st == .free).getD 0

/-- The reclaimable entry that completed longest ago. -/
def oldestFut (s : State) (die : Nat) : Option Nat :=
  ((usedFuts s die).filter fun e => reclaimable s e.1 e.2).foldl (fun b e =>
    match b with
    | none => some e
    | some q => if e.2.ord < q.2.ord then some e else some q) none |>.map fun e => e.1 % 16384

/-- The entry an issue takes, if there is one (R356). -/
def futEntry (s : State) (die : Nat) : Option Nat :=
  if (usedFuts s die).length < 16384 then some (freeEntry s die) else oldestFut s die

/-- Take an entry: the handle of the new RUNNING future, in its next generation. -/
def takeFut (s : State) (die entry ctx lid op : Nat) (discard : Bool) : State × Nat :=
  let key := die * 16384 + entry
  let old := tabGet Fut.free s.futs key
  let gen := old.gen % 65535 + 1
  ({ s with futs := tabPut Fut.free s.futs key ⟨.running, gen, ctx, 0, 0, discard, lid, 0, op⟩ }, handleOf die entry gen)

/-- The events that await a handle, once it is complete with a status word. -/
def fireHandle (s : State) (h status : Nat) : State :=
  let word := fun (v : Nat) => [BitVec.ofNat 32 v]
  let ws := s.waits.filter fun w => w.kind.onHandle h
  let s := ws.foldl (fun s w =>
    match w.kind with
    | .futStatus _ => fireWait s w.rid w.lane (word status) (opOfHandle s h)
    | .fut _ => fireWait s w.rid w.lane (word h) (opOfHandle s h)
    | _ => fireWait s w.rid w.lane []) s
  if ws.isEmpty then s else observeFut s h

/-- The completion of a future with a CODE and PROGRESS; FAULT and FAILED are reported (R418). -/
def completeFut (s : State) (die h code progress : Nat) (cause : Cause := .engerr) (addr : Nat := 0) : State :=
  let f := futAt s h
  if f.st != .running || f.gen != futGen h then s
  else
    let progress := progress % 2 ^ 28
    let s := setFut s.bump h fun f => { f with st := .complete, code := code, progress := progress, ord := s.nextId }
    let s := if code = 2 || code = 3 then
        report s (some f.ctx) die none (some h) { cause := causeCode cause, kind := 2, ctx := f.ctx, addr := addr, loc := h }
      else s
    fireHandle s h (code * 2 ^ 28 + progress)

/-! ## Creating an operation (R355, R377, R379) -/

/-- The issuing thread. -/
def Ctx.first (c : Ctx) : Option (Slice × Nat) := c.lanes.head?

/-- A thread of a task belongs to no group (R182, R378). -/
def Ctx.isTask (c : Ctx) : Bool := c.g.group.isNone

/-- Earlier accesses of the issuing thread are still to be made, or wait for acknowledgement. -/
def Ctx.mustWait (c : Ctx) : Bool :=
  accBusy c.s c.g (c.lanes.map fun e => e.1.pos) || tabGet 0 c.s.acks c.g.core != 0

/-- An operation as its issue leaves it. -/
def newOp (c : Ctx) (e : Slice × Nat) (kind : OpKind) (desc : Nat) (args : List Nat) : EngineOp where
  id := 0
  kind := kind
  die := c.g.core / 64
  core := c.g.core
  ctx := c.g.ctx
  fw := c.g.fw
  lid := e.1.lids.getD e.2 0
  group := c.g.group
  handle := 0
  desc := desc
  words := none
  args := args
  toks := []
  seed := 0
  minor := c.f.minor.toNat
  type := c.ty
  rm := c.f.rm.toNat
  sat := c.f.sat
  slot := 0
  fence := FenceMark.none
  started := false
  progress := 0
  got := []
  old := []
  put := []
  limit := none
  fail := none
  srcs := []
  dsts := []
  waitPage := none
  mark := none
  cancel := false
  spoilt := false
  due := 0
  pts := (c.s.core c.g.core).pts + 1
  since := c.s.clk

/-- Operations that run on the copy engines of a die (R361, R391). -/
def OpKind.copies (k : OpKind) : Bool := k == .cpy || k == .qnt || k == .dqnt

/-- Operations on a copy engine, performed or waiting. -/
def onEngine (s : State) (die unit : Nat) : List EngineOp := s.ops.filter fun o => o.kind.copies && o.die == die && o.unit == unit

/-- The engine with the fewest operations, the lowest-numbered on a tie (R361). -/
def copyEngine (s : State) (die : Nat) : Nat :=
  (List.range 8).foldl (fun b k => if (onEngine s die k).length < (onEngine s die b).length then k else b) 0

/-- The issue of an operation with a future entry: its handle is written to d, the operation starts. -/
def startedOp (c : Ctx) (s : State) (op : EngineOp) (entry : Nat) : State :=
  let d := c.f.d.toNat
  let r := takeFut s op.die entry op.ctx op.lid s.nextId (d == 240)
  let unit := if op.kind.copies then copyEngine s op.die else 0
  let s := { r.1 with nextId := r.1.nextId + 1, ops := r.1.ops ++ [{ op with id := r.1.nextId, handle := r.2, unit := unit }] }
  if 200 ≤ d && d < 216 then
    s.updGang c.g.core c.g.slot fun g => { g with h := g.h.set (d - 200) (BitVec.ofNat 32 r.2) }
  else s

/-- Step 4 of R379 and the issue: take a future, write its handle to d, start the operation. -/
def startOp (c : Ctx) (s : State) (op : EngineOp) : Body :=
  match futEntry s op.die with
  | none => trapFirst c .resv
  | some entry => .done (startedOp c s op entry)

/-- Steps 1 and 2 of R379 for a descriptor address; then the instruction's own checks in `go`. An issue with no
guard-true lane has no effect. -/
def withDesc (c : Ctx) (go : Slice × Nat → Nat → Body) : Body :=
  match c.first with
  | none => .done c.s
  | some e =>
    let a := c.src e.1 e.2 c.f.a.toNat 2 8
    if 2 ^ 56 ≤ a then trapFirst c .xnp a
    else if a % 64 != 0 then trapFirst c .align a
    else if c.mustWait then .stall c.s
    else go e a

/-! ## Full-empty and signal actions (R363, R500) -/

/-- A signal update comes to an end, waits for a walk, or waits for a line. -/
inductive Signal where
  | done (s : State)
  | walk (s : State) (va : Nat)
  | ask (s : State)
  deriving Repr

/-- Add to a signal word, setting bit 63 besides when `bad`, by one read-modify-write through a context's
tables; a failure is reported and nothing is written (R500). -/
def signalUpdate (s : State) (die ctx : Nat) (fw : Bool) (who : ReqFor) (pts : Nat) (mark : Option Nat)
    (va add : Nat) (bad : Bool) (where_ : Nat) : Signal :=
  let fail := fun (s : State) (cause : Cause) =>
    .done (report s (some ctx) die none none { cause := causeCode cause, kind := 2, ctx := ctx, addr := va, loc := where_ })
  match mark.filter fun m => m / 64 == va / 0x10000 with
  | some m => fail s (causeOf m)
  | none =>
    match translate s die none ctx va with
    | (s, .xnp) => fail s .xnp
    | (s, .walk) => .walk (askWalk s die ctx (va / 0x10000) fw (who == .front)) va
    | (s, .ok t) =>
      if !permitted t.pte fw 12 then fail s .xperm
      else match atomTarget s t with
        | some cause => fail s cause
        | none =>
          match dirtyFor s die who va t with
          | (s, .fail) => fail s .memerr
          | (s, .wait) => .ask s
          | (s, .ok) =>
          let pts := max pts (whoPts s who)
          if isOwn s t.pa then
            let la := localOf t.pa
            if lineBad s la 8 then fail (noteUncorrectable s la) .memerr
            else if lineFailed s who t.pa then fail (clearFailed s who [t.pa]) .memerr
            else if !lineHere s die pts t.pa true then .ask (askLine s die who pts t.pa true)
            else
              let v := (bytesToNat (mixFree s t.pa (accRead s ctx la 8)) + add) % 2 ^ 64
              let r := touchBy s pts la true
              .done (raisePts (accWrite r.1 ctx la (natToBytes 8 (if bad then v ||| 2 ^ 63 else v))) who r.2)
          else if !reachable s (nodeOf t.pa) then fail s .memerr
          else
            let m := { mkMsg s die who (nodeOf t.pa) 0 pts t.pa with
              arg := (if bad then 13 else 0) + 32 * 8, data := natToBytes 8 add ++ natToBytes 8 0 }
            .done (postMsg s who 4 m [] (some (ctx, va, where_)))

/-! ## Stage rings (R373, R374) -/

def State.ring (s : State) (core k : Nat) : Ring := (s.core core).rings.getD k Ring.none
def State.setRing (s : State) (core k : Nat) (f : Ring → Ring) : State :=
  s.setCore core fun c => { c with rings := updAt k f c.rings }

/-- The stage a side would acquire next. -/
def Ring.next (r : Ring) (consumer : Bool) : Nat := if consumer then r.ccur else r.pcur

/-- Acquire: the next stage, if it is unheld and full for the consumer, not full for the producer. -/
def ringAcquire (s : State) (core k : Nat) (consumer : Bool) : Option (State × Nat) :=
  let r := s.ring core k
  let st := r.next consumer
  if r.held.getD st false || r.full.getD st false != consumer then none
  else
    let cur := (st + 1) % r.ns
    let s := if consumer then (r.rel.filter fun e => e.1 == st).foldl (fun s e => observeFut s e.2) s else s
    some (s.setRing core k fun r => { r with
      held := r.held.set st true,
      pcur := if consumer then r.pcur else cur,
      ccur := if consumer then cur else r.ccur,
      rel := if consumer then r.rel.filter fun e => e.1 != st else r.rel }, st)

/-- The operations whose completion released a stage. -/
def ringOps (s : State) (core k st : Nat) : List Nat :=
  ((s.ring core k).rel.filter fun e => e.1 == st).flatMap fun e => opOfHandle s e.2

/-- Records waiting on a side of a ring, in the order they began to wait. -/
def ringWaiters (s : State) (core k : Nat) (consumer : Bool) : List Nat :=
  distinct ((s.waits.filter fun w => w.kind == .ring core k consumer && w.fired.isNone).map fun w => w.rid)

/-- Serve waiting records while the next stage of their side is ready; each lane of a served record receives the
stage's offset. -/
def ringServe (core k : Nat) (consumer : Bool) : List Nat → State → State
  | [], s => s
  | rid :: rest, s =>
    match ringAcquire s core k consumer with
    | none => s
    | some (t, st) =>
      let r := t.ring core k
      let v := BitVec.ofNat 32 (r.base + st * r.ssz)
      let seen := if consumer then ringOps s core k st else []
      ringServe core k consumer rest
        ((t.waits.filter fun w => w.rid == rid).foldl (fun t w => fireWait t rid w.lane [v] seen) t)

/-- Release a stage: none when it is not held, or held by the other side. -/
def ringRelease (s : State) (core k : Nat) (consumer : Bool) (st : Nat) (by_ : Option Nat) : Option State :=
  let r := s.ring core k
  if !r.valid || r.ns ≤ st || !r.held.getD st false || r.full.getD st false != consumer then none
  else
    let s := s.setRing core k fun r => { r with
      held := r.held.set st false, full := r.full.set st (!consumer),
      rel := (r.rel.filter fun e => e.1 != st) ++ (match by_ with | some h => [(st, h)] | none => []) }
    some (ringServe core k (!consumer) (ringWaiters s core k (!consumer)) s)

/-! ## Ring instructions (R403–R405) -/

/-- The lanes' destinations, all with one value. -/
def giveAll (s : State) (c : Ctx) (v : Nat) : State :=
  putAll s c.g.core c.g.slot (c.lanes.map fun e => c.put e.1 e.2 v)

/-- RACQ: acquire for the sub-gang, or wait slice by slice. -/
def racq (c : Ctx) (consumer : Bool) : Body :=
  if c.lanes.isEmpty then .done c.s
  else if c.isTask then trapFirst c .resv
  else
    let k := c.f.c.toNat
    let r := c.s.ring c.g.core k
    if !r.valid then trapFirst c .resv
    else
      match (if (ringWaiters c.s c.g.core k consumer).isEmpty then ringAcquire c.s c.g.core k consumer else none) with
      | some (s, st) =>
        let s := if consumer then c.lanes.foldl (fun s e => s.sees c.g.core c.g.slot e.1.pos e.2 (ringOps c.s c.g.core k st)) s else s
        .done (giveAll (s.link c.g.core) c (r.base + st * r.ssz))
      | none =>
        let subject := b2n consumer * 128 + k * 16 + r.next consumer
        .done (c.guarded.foldl (fun s p =>
          waitSlice s c p .ring subject c.f.d.toNat 1
            ((c.lanes.filter fun e => e.1.pos == p).map fun e => (e.2, .ring c.g.core k consumer))) c.s)

def execRacqP (f : Fields) (s : State) : Host.Outcome State Fault Refusal := issue (.racqP f) s fun c => racq c false
def execRacqC (f : Fields) (s : State) : Host.Outcome State Fault Refusal := issue (.racqC f) s fun c => racq c true

/-- RREL (R405). -/
def rrel (c : Ctx) (consumer : Bool) : Body :=
  match c.first with
  | none => .done c.s
  | some e =>
    if c.isTask then trapFirst c .resv
    else
      let k := c.f.c.toNat
      let r := c.s.ring c.g.core k
      let a := c.src e.1 e.2 c.f.a.toNat 1 7
      if !r.valid then trapFirst c .resv
      else if c.mustWait then .stall c.s
      else if a < r.base || (a - r.base) % r.ssz != 0 then trapFirst c .qproto
      else match ringRelease c.s c.g.core k consumer ((a - r.base) / r.ssz) none with
        | some s => .done s
        | none => trapFirst c .qproto

def execRrelP (f : Fields) (s : State) : Host.Outcome State Fault Refusal := issue (.rrelP f) s fun c => rrel c false
def execRrelC (f : Fields) (s : State) : Host.Outcome State Fault Refusal := issue (.rrelC f) s fun c => rrel c true

/-- Scratchpad bytes of the group of a gang (R199). -/
def groupScratch (s : State) (gid : Option Nat) : Nat :=
  match gid with
  | none => 0
  | some id =>
    match s.groups.find? fun g => g.gid == id with
    | none => 0
    | some g => match s.launches.find? fun l => l.lid == g.lid with
      | some l => fld (l.words.getD 2 0).toNat 18 0
      | none => 0

def execRinit (f : Fields) (s : State) : Host.Outcome State Fault Refusal :=
  issue (.rinit f) s fun c =>
    match c.first with
    | none => .done c.s
    | some e =>
      let k := c.f.c.toNat
      let base := c.src e.1 e.2 c.f.a.toNat 1 7
      let ssz := c.src e.1 e.2 c.f.b.toNat 1 7
      let ns := c.f.minor.toNat + 1
      let r := c.s.ring c.g.core k
      let busy := r.valid && (r.held.any id || c.s.waits.any fun w => match w.kind with
        | .ring core j _ => core == c.g.core && j == k
        | _ => false)
      if c.mustWait then .stall c.s
      else if c.isTask || base % 128 != 0 || ssz % 128 != 0 || ssz = 0 || busy || groupScratch c.s c.g.group < base + ns * ssz then
        trapFirst c .resv
      else .done (c.s.setRing c.g.core k fun _ =>
        ⟨true, base, ssz, ns, List.replicate ns false, List.replicate ns false, 0, 0, []⟩)

/-! ## Futures: instructions (R380–R382, R58) -/

/-- The handle that FWAIT, FTEST and FCANCEL name in a lane (R376). -/
def Ctx.handle (c : Ctx) (x : Slice) (l : Nat) : Nat :=
  if 16 ≤ c.f.c.toNat then (c.g.h.getD (c.f.c.toNat % 16) 0).toNat else c.src x l c.f.a.toNat 1 7

/-- A lane observes the completion of a live handle that is not running (R288, R357). -/
def seeHandle (c : Ctx) (s : State) (e : Slice × Nat) : State :=
  let h := c.handle e.1 e.2
  if handleLive s c.g.ctx h then (observeFut s h).sees c.g.core c.g.slot e.1.pos e.2 (opOfHandle s h) else s

/-- FWAIT: the status of a complete handle at once; slices with a running one end their segments. -/
def execFwait (f : Fields) (s : State) : Host.Outcome State Fault Refusal :=
  issue (.fwait f) s fun c =>
    let runs := fun (e : Slice × Nat) => handleRunning c.s c.g.ctx (c.handle e.1 e.2)
    let now := c.lanes.filter fun e => !runs e
    let s := putAll c.s c.g.core c.g.slot (now.map fun e => c.put e.1 e.2 (handleStatus c.s c.g.ctx (c.handle e.1 e.2)))
    let s := now.foldl (seeHandle c) s
    let s := if now.isEmpty then s else s.link c.g.core
    .done (c.guarded.foldl (fun s p =>
      match c.lanes.filter fun e => e.1.pos == p && runs e with
      | [] => s
      | e :: r => waitSlice s c p .fut (c.handle e.1 e.2) c.f.d.toNat 1
          ((e :: r).map fun e => (e.2, .futStatus (c.handle e.1 e.2)))) s)

def execFtest (f : Fields) (s : State) : Host.Outcome State Fault Refusal :=
  issue (.ftest f) s fun c =>
    let done := fun (e : Slice × Nat) => !handleRunning c.s c.g.ctx (c.handle e.1 e.2)
    let s := putAll c.s c.g.core c.g.slot (c.lanes.map fun e => c.put e.1 e.2 (b2n (done e)))
    let seen := c.lanes.filter done
    let s := seen.foldl (seeHandle c) s
    .done (if seen.isEmpty then s else s.link c.g.core)

/-- FCANCEL: the request reaches a live RUNNING operation at its next safe point (R360). -/
def execFcancel (f : Fields) (s : State) : Host.Outcome State Fault Refusal :=
  issue (.fcancel f) s fun c =>
    let hs := (c.lanes.map fun e => c.handle e.1 e.2).filter fun h => handleRunning c.s c.g.ctx h
    .done { c.s with ops := updAll (fun o => hs.contains o.handle) (fun o => { o with cancel := true }) c.s.ops }

/-- MOV (R100): a read of an h register whose future is RUNNING ends the segments of the slices that read it, and
the handle is delivered when the future completes (R358). -/
def execMov (f : Fields) (s : State) : Host.Outcome State Fault Refusal :=
  issue (.mov f) s fun c =>
    let a := c.f.a.toNat
    if 200 ≤ a && a < 216 then
      let h := (c.g.h.getD (a - 200) 0).toNat
      if handleRunning c.s c.g.ctx h then
        .done (c.guarded.foldl (fun s p =>
          waitSlice s c p .fut h c.f.d.toNat 1
            ((c.lanes.filter fun e => e.1.pos == p).map fun e => (e.2, .fut h))) c.s)
      else
        let s := giveAll c.s c h
        .done (if c.lanes.isEmpty then s else s.link c.g.core)
    else perLane c fun x l => c.nat x l .a

end Sys2Proof.Machine
end

