-- ==== Sys2Proof/Machine/Jobs.lean ====
section
/-! DEFINITION. What an engine operation reads and writes (R287, R362): its accesses in aligned units of at most
16 bytes, in no order among themselves; faults, walks and remote lines; and the work of each kind of operation as
rows of reads and of writes computed from them (R361–R368, R389–R394). -/

namespace Sys2Proof.Machine

/-! ## Units -/

/-- A range split into aligned units of at most 16 bytes. -/
def unitsOf (a n : Nat) : List (Nat × Nat) :=
  if n = 0 then [] else
    (List.range ((a + n - 1) / 16 + 1 - a / 16)).map fun i =>
      let lo := max a (16 * (a / 16 + i))
      (lo, min (a + n) (16 * (a / 16 + i + 1)) - lo)

/-- The units of reads laid end to end: place in the row, address, bytes. -/
def readUnits : Nat → List (Nat × Nat) → List (Nat × Nat × Nat)
  | _, [] => []
  | off, (a, n) :: t => ((unitsOf a n).map fun u => (off + (u.1 - a), u.1, u.2)) ++ readUnits (off + n) t

def bytesIn (ps : List (Nat × Nat)) : Nat := ps.foldl (fun n p => n + p.2) 0

/-- A range to write, once bytes lo to hi − 1 of its row's reads are known, or, when `each`, as the byte of the reads that
each of its bytes copies is known; `phys` for an address of this module that needs no translation. -/
structure Out where
  phys : Bool
  va : Nat
  lo : Nat
  hi : Nat
  each : Bool
  bytes : List Byte
  deriving DecidableEq, Repr

/-- The part of a write from byte k on, n bytes long. -/
def Out.part (o : Out) (k n : Nat) : Out :=
  { o with
    va := o.va + k, bytes := (o.bytes.drop k).take n,
    lo := if o.each then o.lo + k else o.lo,
    hi := if o.each then o.lo + k + n else o.hi }

/-- The units of a row's writes, with their places in the row's writes laid end to end. -/
def writeUnits : Nat → List Out → List (Nat × Out)
  | _, [] => []
  | off, o :: t =>
    ((unitsOf o.va o.bytes.length).map fun u => (off + (u.1 - o.va), o.part (u.1 - o.va) u.2)) ++ writeUnits (off + o.bytes.length) t

/-- Key of a place in a row; the descriptor's reads stand in a row of their own. -/
def rowKey (row off : Nat) : Nat := row * 2 ^ 40 + off
def descRow : Nat := 2 ^ 64

/-- The bytes of a row that have been read, from its start while they are known. -/
def knownPrefix (o : EngineOp) (row n : Nat) : List Byte :=
  ((tabGets none o.got (rowKey row 0) n).takeWhile Option.isSome).map fun b => b.getD 0
def rowBytes (o : EngineOp) (row n : Nat) : List Byte :=
  (tabGets none o.got (rowKey row 0) n).map fun b => b.getD 0
def knownIn (o : EngineOp) (row lo hi : Nat) : Bool :=
  (tabGets none o.got (rowKey row lo) (hi - lo)).all Option.isSome

/-- The work of an operation: element size on device pages, count of rows, each row's reads and writes, and the
writes that follow every row. -/
structure Job where
  esz : Nat
  rows : Nat
  reads : Nat → List (Nat × Nat)
  outs : Nat → List Out
  last : List Out

/-- Writes of row r, the last row being the job's own. -/
def Job.writes (j : Job) (r : Nat) : List (Nat × Out) := writeUnits 0 (if r = j.rows then j.last else j.outs r)
def Job.readsOf (j : Job) (r : Nat) : List (Nat × Nat) := if r = j.rows then [] else j.reads r

/-- What is left of read units of a row: each from its first unknown byte on. -/
def unread (o : EngineOp) (r : Nat) (us : List (Nat × Nat × Nat)) : List (Nat × Nat × Nat) :=
  us.filterMap fun u =>
    let k := ((tabGets none o.got (rowKey r u.1) u.2.2).takeWhile Option.isSome).length
    if k = u.2.2 then none else some (u.1 + k, u.2.1 + k, u.2.2 - k)

/-- Reads of a row not yet made. -/
def Job.toRead (j : Job) (o : EngineOp) (r : Nat) : List (Nat × Nat × Nat) := unread o r (readUnits 0 (j.readsOf r))

/-- Bytes of a unit of writes that have been made: they are made in increasing order. -/
def putBytes (o : EngineOp) (r off n : Nat) : Nat :=
  ((o.put.zip o.dsts).filter fun e => decide (rowKey r off ≤ e.1) && decide (e.1 < rowKey r (off + n))).foldl (fun k e => k + e.2.2) 0

/-- Writes of a row not yet made: each unit from its first unwritten byte on. -/
def Job.toWrite (j : Job) (o : EngineOp) (r : Nat) : List (Nat × Out) :=
  (j.writes r).filterMap fun e =>
    let n := e.2.bytes.length
    let k := putBytes o r e.1 n
    if k = n then none else some (e.1 + k, e.2.part k (n - k))

def Job.rowDone (j : Job) (o : EngineOp) (r : Nat) : Bool := (j.toRead o r).isEmpty && (j.toWrite o r).isEmpty

/-- Rows that the operation is still to do, when nothing has set a limit. -/
def Job.end_ (j : Job) (o : EngineOp) : Nat := min j.rows (o.limit.getD j.rows)

/-- Rows wholly done from the first on, below a bound. -/
def Job.doneRows (j : Job) (o : EngineOp) : Nat := ((List.range (j.end_ o)).takeWhile fun r => j.rowDone o r).length

def Job.allDone (j : Job) (o : EngineOp) : Bool :=
  (List.range (j.end_ o)).all (fun r => j.rowDone o r) && (o.limit.isSome || j.rowDone o j.rows)

/-! ## One unit -/

def State.op? (s : State) (id : Nat) : Option EngineOp := s.ops.find? fun o => o.id == id
def State.updOp (s : State) (id : Nat) (h : EngineOp → EngineOp) : State :=
  { s with ops := updWhere (fun o => o.id == id) h s.ops }

/-- A leaf that would be valid but names an absent range (R248). -/
def rawLeafAbsent (s : State) (die pts va : Nat) : Nat → Nat → Bool
  | 0, _ => false
  | level + 1, base =>
    match memoryEntry s die pts (entryPa base (level + 1) va) with
    | none => false
    | some e =>
      if !bitOf e 0 || fld e 15 12 != 0 then false
      else if bitOf e 1 then
        (if level + 1 = 1 then frameAbsent s (pteFrame e) 0x10000
         else level + 1 = 2 && fld e 28 16 == 0 && frameAbsent s (pteFrame e) 0x20000000)
      else if level + 1 = 1 || fld e 15 2 != 0 then false
      else rawLeafAbsent s die pts va level (pteFrame e)

/-- Where one access of an engine leads. -/
inductive EAddr where
  | at_ (pa : Nat) (t : Option Xlt)
  | walk
  | fault (code : Nat) (cause : Cause)
  deriving Repr

/-- Translate for an engine, through the die TLB (R362). -/
def engineXlate (s : State) (o : EngineOp) (va need : Nat) : State × EAddr :=
  let noLeaf := fun (s : State) =>
    if rawLeafAbsent s o.die o.pts va 3 (rootOf s o.ctx) then EAddr.fault 3 .engerr else .fault 2 .xnp
  match translate s o.die none o.ctx va with
  | (s, .xnp) => (s, if 2 ^ 56 ≤ va then .fault 2 .xnp else noLeaf s)
  | (s, .walk) =>
    match o.mark.filter fun m => m / 64 == va / 0x10000 with
    | some m => (s, if causeOf m = .memerr then .fault 3 .memerr else noLeaf s)
    | none => (s, .walk)
  | (s, .ok t) => if permitted t.pte o.fw need then (s, .at_ t.pa (some t)) else (s, .fault 2 .xperm)

/-- The line an engine needs can be used now. -/
inductive ELine where
  | here
  | ask
  | fault (cause : Cause)
  deriving DecidableEq, Repr

def engineLine (s : State) (o : EngineOp) (pa n : Nat) (excl : Bool) : ELine :=
  if lineFailed s (.engine o.id) pa then .fault .engerr
  else if isOwn s pa && (placeOf s (localOf pa)).region = .absent then .fault .engerr
  else if badAt s o.die pa n && lineHere s o.die o.pts pa excl then .fault .memerr
  else if lineHere s o.die o.pts pa excl then .here
  else if !isOwn s pa && !reachable s (nodeOf pa) then .fault .engerr
  -- a write to another module's home travels as a message
  else if excl && !isOwn s pa then .here
  else .ask

/-- An engine's read of one unit: its bytes and its new clock. -/
def engineRead (s : State) (o : EngineOp) (pa n : Nat) : State × List Byte × Nat :=
  let r := readStamp s o.die o.pts pa
  (dropWindows r.1 o.die, mixFree s pa (readAt s o.die o.ctx pa n), r.2)

/-- An engine's write of one unit on a page of a memory type: here, into the copy its die owns, or as a message to the home
(R441). -/
def engineWrite (s : State) (o : EngineOp) (pa : Nat) (bs : List Byte) (memType : Nat) : State × Nat :=
  if isOwn s pa then
    let la := localOf pa
    if (placeOf s la).region = .dev then (deviceWrite s (if o.fw then .firmware else .program o.core) la bs, o.pts)
    else
      let r := touchBy s o.pts la true
      let t := accWrite r.1 o.ctx la bs
      let p := placeOf s la
      (if p.region = .opbuf && o.kind.copies then { t with opBy := tabPuts 0 t.opBy (opKey p.core p.off) (bs.map fun _ => o.id) } else t, r.2)
  else
    let who := ReqFor.engine o.id
    let m := mkMsg s o.die who (nodeOf pa) 0 o.pts pa
    match (if memType = 0 then (copyAt s o.die pa).filter fun c => c.excl else none) with
    | some c => ownedWrite s c o.pts pa bs
    | none =>
      if isHbm pa && memType < 2 then (postMsg s who 2 (maskedWrite m pa bs), o.pts)
      else (postMsg s who 3 { m with data := bs }, o.pts)

/-- A fault at a row: no later row is done, and the first row that faults counts (R362). -/
def EngineOp.faultAt (o : EngineOp) (row code : Nat) (cause : Cause) (addr : Nat) : EngineOp :=
  match o.limit with
  | some l =>
    if row < l || o.fail.isNone && row = l then { o with limit := some row, fail := some (row, code, cause, addr) } else o
  | none => { o with limit := some row, fail := some (row, code, cause, addr) }

/-- The operation waits for a walk. -/
def engineWalk (s : State) (o : EngineOp) (va : Nat) : State :=
  (askWalk s o.die o.ctx (va / 0x10000) o.fw).updOp o.id fun o => { o with waitPage := some (va / 0x10000) }

/-- The read of another module's page that is not normal is one access's alone (R262). -/
def ownRead (s : State) (need pa : Nat) (t : Option Xlt) : Bool :=
  need == 4 && !isOwn s pa && (match t with | some t => memTypeOf t != 0 && isHbm pa | none => false)

/-- One access of an operation at a row: `go` performs it at its physical address. A line of this module that is owned
outside is asked for as the access needs it. -/
def engineTouch (s : State) (o : EngineOp) (row : Nat) (phys : Bool) (va n need : Nat)
    (go : State → Nat → Option Xlt → State) : State :=
  let fail := fun (s : State) code cause => s.updOp o.id fun o => o.faultAt row code cause va
  let line := fun (s : State) (pa : Nat) (t : Option Xlt) =>
    match (if ownRead s need pa t && reachable s (nodeOf pa) && !lineFailed s (.engine o.id) pa then .here else engineLine s o pa n (need = 8)) with
    | .here => go s pa t
    | .ask => askLine s o.die (.engine o.id) o.pts pa (need = 8)
    | .fault c =>
      let s := if c = .memerr && badAt s o.die pa n then noteBad s o.die pa else s
      fail (clearFailed s (.engine o.id) [pa]) 3 c
  if phys then line s (ownPa s va) none
  else match engineXlate s o va need with
    | (s, .walk) => engineWalk s o va
    | (s, .fault code cause) => fail s code cause
    | (s, .at_ pa t) => line s pa t

/-- The memory type of the page at an address, where it can be translated now. -/
def pageKind (s : State) (o : EngineOp) (va : Nat) : Option Nat :=
  match (engineXlate s o va 0).2 with
  | .at_ _ (some t) => some (memTypeOf t)
  | _ => none

/-- Bytes of the next access at an address: an element of at most 8 bytes on a device or strongly ordered page (R262). -/
def pieceOf (s : State) (o : EngineOp) (esz va n : Nat) : Nat := if 2 ≤ (pageKind s o va).getD 0 then min n (min esz 8) else n

/-- Ask for a read of one access's own. -/
def askRead (s : State) (o : EngineOp) (row : Nat) (u : Nat × Nat × Nat) (pa n : Nat) : State :=
  let who := ReqFor.engine o.id
  let m := mkMsg s o.die who (nodeOf pa) s.nextId o.pts (lineOf pa)
  let q : Req := ⟨s.nextId, o.die, who, 0, nodeOf pa, pa, none, none, m, true, 0⟩
  let a : Ask := ⟨s.nextId, row, u.1, u.2.1, pa, n⟩
  State.updOp { s with nextId := s.nextId + 1, reqs := s.reqs ++ [q] } o.id fun o => { o with asked := o.asked ++ [a] }

/-- Bytes read at pa reach an operation: an operation never reads its own writes (R287). -/
def takeRead (s : State) (o : EngineOp) (row off pa : Nat) (bs : List Byte) (pts : Nat) : State :=
  let mine := fun (a : Nat) => o.dsts.any fun d => decide (d.1 ≤ a) && decide (a < d.1 + d.2)
  let was := bs.zipIdx.map fun e => match tabGet none o.old (pa + e.2) with
    | some b => b
    | none => if mine (pa + e.2) then (Config.freeBits s.fresh (2 ^ 67 + pa + e.2)).setWidth 8 else e.1
  s.updOp o.id fun o => { o with
    got := tabPuts none o.got (rowKey row off) (was.map some)
    srcs := if row = descRow then o.srcs else o.srcs ++ [(pa, bs.length)]
    pts := max o.pts pts }

/-- Make one read unit of a row, or its next element. -/
def unitRead (s : State) (o : EngineOp) (esz row : Nat) (u : Nat × Nat × Nat) : State :=
  let n := pieceOf s o esz u.2.1 u.2.2
  engineTouch s o row false u.2.1 n 4 fun s pa t =>
    if ownRead s 4 pa t then askRead s o row u pa n
    else
      let r := engineRead s o pa n
      takeRead r.1 o row u.1 pa r.2.1 r.2.2

/-- What a write is about to replace, where an operation can know it. -/
def oldBytes (s : State) (o : EngineOp) (pa n : Nat) : List Byte := if lineHere s o.die 0 pa false then readAt s o.die o.ctx pa n else []

/-- Make one write unit of a row, or its next element. A store waits for a D bit set at another home (R267). -/
def unitWrite (s : State) (o : EngineOp) (esz row : Nat) (u : Nat × Out) : State :=
  let n := if u.2.phys then u.2.bytes.length else pieceOf s o esz u.2.va u.2.bytes.length
  let bs := u.2.bytes.take n
  engineTouch s o row u.2.phys u.2.va n 8 fun s pa t =>
    let who := ReqFor.engine o.id
    match (match t with | some x => dirtyFor s o.die who u.2.va x | none => (s, .ok)) with
    | (s, .fail) => s.updOp o.id fun o => o.faultAt row 3 .engerr u.2.va
    | (s, .wait) => s
    | (s, .ok) =>
      let was := (oldBytes s o pa n).zipIdx.filter fun e => (tabGet none o.old (pa + e.2)).isNone
      let r := engineWrite s ((s.op? o.id).getD o) pa bs (match t with | some t => memTypeOf t | none => 0)
      r.1.updOp o.id fun o => { o with
        old := was.foldl (fun t e => tabPut none t (pa + e.2) (some e.1)) o.old
        put := o.put ++ [rowKey row u.1], dsts := o.dsts ++ [(pa, n)], pts := max o.pts r.2 }

/-- One of several, chosen freely (log entry 3). -/
def pickFree {α : Type} (s : State) (k : Nat) (l : List α) : Option α :=
  l[(Config.freeBits s.fresh (2 ^ 65 + k)).toNat % l.length]?

/-- The access that comes first: the one picked; on a device or strongly ordered page the lowest left on such pages, among
those of its row (R262). -/
def inAddressOrder {α : Type} (s : State) (o : EngineOp) (va : α → Nat) (l : List α) (u : α) : α :=
  if (pageKind s o (va u)).getD 0 < 2 then u
  else (l.filter fun v => 2 ≤ (pageKind s o (va v)).getD 2).foldl (fun b v => if va v < va b then v else b) u

/-- Some access of a row that can be made now, chosen freely: any read, or a write whose bytes are known. -/
def rowUnit (s : State) (o : EngineOp) (j : Job) (r : Nat) : State :=
  let asked := o.asked.filter fun a => a.row = r
  let rl := (j.toRead o r).filter fun u => !asked.any fun a => decide (u.1 ≤ a.off) && decide (a.off < u.1 + u.2.2)
  let wl := j.toWrite o r
  let known := fun (e : Nat × Out) => knownIn o r e.2.lo e.2.hi
  let rs : List ((Nat × Nat × Nat) ⊕ (Nat × Out)) := rl.map Sum.inl
  let ws : List ((Nat × Nat × Nat) ⊕ (Nat × Out)) := (wl.filter known).map Sum.inr
  let t := { s with fresh := s.fresh + 1 }
  match pickFree s 1 (rs ++ ws) with
  | some (.inl u) =>
    let u := inAddressOrder s o (fun u => u.2.1) rl u
    if 2 ≤ (pageKind s o u.2.1).getD 0 && !asked.isEmpty then t else unitRead t o j.esz r u
  | some (.inr u) =>
    let u := if u.2.phys then u else inAddressOrder s o (fun e => e.2.va) (wl.filter fun e => !e.2.phys) u
    if known u then unitWrite t o j.esz r u else t
  | none => s

/-- One unit of some row below the end, chosen freely; then one of the writes that follow every row. -/
def jobUnit (s : State) (o : EngineOp) (j : Job) : State :=
  match pickFree s 0 ((List.range (j.end_ o)).filter fun r => !j.rowDone o r) with
  | some r => rowUnit { s with fresh := s.fresh + 1 } o j r
  | none => if o.limit.isNone then rowUnit s o j j.rows else s

/-! ## Tensors (R365, R366, R407) -/

structure Tensor where
  base : Nat
  sbase : Nat
  ssbase : Nat
  rows : Nat
  cols : Nat
  rstr : Nat
  sstr : Nat
  zskip : Bool
  sfmt : Nat
  lblk : Nat
  etype : Nat
  otype : Nat
  deriving DecidableEq, Repr

def wordAt (ws : List W64) (i : Nat) : Nat := (ws.getD i 0).toNat

/-- The FMT word's fields laid over a tensor. -/
def withFmt (f : Nat) (t : Tensor) : Tensor :=
  { t with zskip := bitOf f 15, sfmt := fld f 14 12, lblk := fld f 11 10, etype := fld f 9 5, otype := fld f 4 0 }

def tensorOf (ws : List W64) : Tensor :=
  withFmt (wordAt ws 5)
    { base := wordAt ws 0, sbase := wordAt ws 1, ssbase := wordAt ws 2,
      rows := fld (wordAt ws 3) 31 0, cols := fld (wordAt ws 3) 63 32, rstr := fld (wordAt ws 4) 31 0,
      sstr := fld (wordAt ws 4) 63 32, zskip := false, sfmt := 0, lblk := 0, etype := 0, otype := 0 }

def Tensor.blocked (t : Tensor) : Bool := t.sfmt != 0 || t.lblk != 0

/-- Block length; 1 when unblocked. -/
def Tensor.len (t : Tensor) : Nat := if t.blocked then lblkOf t.lblk else 1

/-- The block side of a descriptor is well formed, but for its arrays (R30, R407). -/
def Tensor.formatOk (t : Tensor) : Bool :=
  if t.blocked then t.sfmt != 0 && blockFormatOk t.etype t.sfmt t.len && t.len != 0 && t.cols % t.len == 0
  else 10 ≤ t.etype && t.etype ≤ 17 && !t.zskip

def Tensor.arraysOk (t : Tensor) : Bool :=
  if t.blocked then (t.sbase != 0) == (t.sfmt == 1 || t.sfmt == 2 || t.sfmt == 4) && (t.ssbase != 0) == (t.sfmt == 4)
  else t.sbase == 0 && t.ssbase == 0 && t.sstr == 0

def otypeOk (t : Nat) : Bool := t == 10 || t == 11 || t == 12
def zskipOn (s : State) : Bool := s.regs.featacc.getLsbD 2

/-- A tensor descriptor that FETCH and IXWALK accept. -/
def tensorOk (s : State) (ws : List W64) : Bool :=
  let t := tensorOf ws
  fld (wordAt ws 5) 63 16 == 0 && wordAt ws 6 == 0 && wordAt ws 7 == 0 && t.formatOk && t.arraysOk && otypeOk t.otype &&
  (t.blocked || t.cols != 0) && (!t.zskip || zskipOn s)

/-- Bytes of an NX block (R32). -/
def nxBytes (etype : Nat) : Nat := 2 + packedBytes etype 16

/-- Where element (r, c) lies: its block or group of bytes, its scale, its superscale; nothing outside the
tensor. -/
def Tensor.pieces (t : Tensor) (r c : Nat) : List (Nat × Nat) :=
  if t.rows ≤ r || t.cols ≤ c then []
  else
    let row := t.base + r * t.rstr
    if t.sfmt = 3 then [((row + c / 16 * nxBytes t.etype) % 2 ^ 64, nxBytes t.etype)]
    else
      let (o, n, _) := elemPlace t.etype c
      ((row + o) % 2 ^ 64, n) ::
        (if t.blocked then [((t.sbase + r * t.sstr + c / t.len) % 2 ^ 64, 1)] else []) ++
        (if t.sfmt = 4 then [((t.ssbase + 4 * ((r * (t.cols / 64) + c / 64) / 256)) % 2 ^ 64, 4)] else [])

/-- The exact value of a block element from its code, scale code, micro-exponent and superscale (R31–R33). -/
def decodeElem (etype sfmt : Nat) (zskip : Bool) (code scale micro sup : Nat) : Exact × Flags :=
  if sfmt = 0 then
    let v := elemVal etype code
    (.val v, 0)
  else blockElem etype (scaleOf sfmt zskip scale) micro (etype == 1 && sfmt == 1)
    (if sfmt = 4 then some (unpackF (fmtOf 10) sup) else none) code

/-- The exact value of element (r, c) from the bytes of its pieces. -/
def Tensor.elem (t : Tensor) (r c : Nat) (bs : List Byte) : Exact × Flags :=
  if t.rows ≤ r || t.cols ≤ c then (.val (.zero false), 0)
  else if t.sfmt = 3 then
    let (o, n, bit) := elemPlace t.etype (c % 16)
    let code := bytesToNat (((bs.drop 2).drop o).take n) / 2 ^ bit % 2 ^ elemBits t.etype
    decodeElem t.etype 3 t.zskip code (bs.getD 0 0).toNat (b2n (bitOf (bs.getD 1 0).toNat (c % 16 / 2))) 0
  else
    let (_, n, bit) := elemPlace t.etype c
    let code := bytesToNat (bs.take n) / 2 ^ bit % 2 ^ elemBits t.etype
    decodeElem t.etype t.sfmt t.zskip code (bs.getD n 0).toNat 0 (bytesToNat ((bs.drop (n + 1)).take 4))

/-- Element (r, c) delivered in OTYPE, rounded with RN. -/
def Tensor.deliver (t : Tensor) (r c : Nat) (bs : List Byte) : Nat :=
  (Machine.deliver (fmtOf t.otype) .rn false (t.elem r c bs).1).1

/-- The elements of one row segment, from their pieces' bytes end to end. -/
def Tensor.deliverAll (t : Tensor) (r : Nat) : List Nat → List Byte → List Nat
  | [], _ => []
  | c :: cs, bs =>
    let n := bytesIn (t.pieces r c)
    t.deliver r c (bs.take n) :: t.deliverAll r cs (bs.drop n)

def Tensor.size (t : Tensor) : Nat := typeBytes t.otype

/-! ## The work of a copy (R361, R362) -/

/-- Row counts E0 to E3. -/
def cpyExt (ws : List W64) (k : Nat) : Nat := fld (wordAt ws 2) (16 * k + 15) (16 * k) + 1
def cpyStride (ws : List W64) (dst : Bool) (k : Nat) : Int := sext 32 (fld (wordAt ws (2 + k)) (if dst then 63 else 31) (if dst then 32 else 0))

/-- Start of a row on one side. -/
def cpyRow (ws : List W64) (dst : Bool) (r : Nat) : Nat :=
  let i1 := r % cpyExt ws 1
  let i2 := r / cpyExt ws 1 % cpyExt ws 2
  let i3 := r / (cpyExt ws 1 * cpyExt ws 2)
  wrap 64 ((wordAt ws (if dst then 1 else 0) : Int) + i1 * cpyStride ws dst 1 + i2 * cpyStride ws dst 2 + i3 * cpyStride ws dst 3)

/-- ACT and ARG agree (R361). -/
def actOk (act arg : Nat) : Bool :=
  match act with
  | 0 => arg == 0
  | 1 => arg == fld arg 2 0 + fld arg 11 8 * 2 ^ 8
  | 2 => arg == 0
  | 3 => arg % 8 == 0
  | _ => false

def cpyOk (ws : List W64) : Bool :=
  let ctl := wordAt ws 6
  let esz := 2 ^ fld ctl 5 4
  wordAt ws 0 < 2 ^ 56 && wordAt ws 1 < 2 ^ 56 && fld ctl 31 6 == 0 && !bitOf ctl 3 && actOk (fld ctl 2 0) (wordAt ws 7) &&
  wordAt ws 0 % esz == 0 && wordAt ws 1 % esz == 0 && cpyExt ws 0 % esz == 0 &&
  [1, 2, 3].all fun k => cpyStride ws false k % (esz : Int) == 0 && cpyStride ws true k % (esz : Int) == 0

def cpyJob (o : EngineOp) (ws : List W64) : Job where
  esz := 2 ^ fld (wordAt ws 6) 5 4
  rows := cpyExt ws 1 * cpyExt ws 2 * cpyExt ws 3
  reads := fun r => [(cpyRow ws false r, cpyExt ws 0)]
  outs := fun r => [⟨false, cpyRow ws true r, 0, cpyExt ws 0, true, rowBytes o r (cpyExt ws 0)⟩]
  last := []

/-! ## The work of a fetch (R366) -/

/-- Columns of the elements of one entry. -/
def fetchCols (t : Tensor) (col : Nat) : List Nat := (List.range (if t.otype = 10 then 32 else 64)).map fun i => col + i

def fetchJob (o : EngineOp) (ws : List W64) : Job where
  esz := 16
  rows := 1
  reads := fun _ => (fetchCols (tensorOf ws) (o.args.getD 2 0)).flatMap fun c => (tensorOf ws).pieces (o.args.getD 1 0) c
  outs := fun _ => []
  last := []

/-- The 32 words of the entry. -/
def fetchWords32 (o : EngineOp) (ws : List W64) : List W32 :=
  let t := tensorOf ws
  let n := bytesIn ((fetchJob o ws).reads 0)
  let es := t.deliverAll (o.args.getD 1 0) (fetchCols t (o.args.getD 2 0)) (rowBytes o 0 n)
  if t.otype = 10 then es.map (BitVec.ofNat 32)
  else (List.range 32).map fun i => BitVec.ofNat 32 (es.getD (2 * i) 0 + es.getD (2 * i + 1) 0 * 2 ^ 16)

/-! ## The coordinate walk (R367, R368, R397) -/

/-- Words of a walk: its descriptor, then those of X and Yᵀ, then the core list. -/
def walkX (ws : List W64) : List W64 := (ws.drop 8).take 8
def walkY (ws : List W64) : List W64 := (ws.drop 16).take 8
def walkLoc (ws : List W64) (q : Nat) : Nat := fld (wordAt ws (24 + q / 2)) (32 * (q % 2) + 31) (32 * (q % 2))
def walkNe (ws : List W64) : Nat := fld (wordAt ws 4) 31 0
def walkQ (ws : List W64) : Nat := fld (wordAt ws 4) 39 32 + 1
def walkStart (ws : List W64) (q : Nat) : Nat := q * (walkNe ws / walkQ ws) + min q (walkNe ws % walkQ ws)
def walkN (ws : List W64) (q : Nat) : Nat := walkNe ws / walkQ ws + (if q < walkNe ws % walkQ ws then 1 else 0)
def walkCore (ws : List W64) (q : Nat) : Nat := fld (walkLoc ws q) 9 8 * 64 + fld (walkLoc ws q) 5 0

def walkOk (s : State) (ws : List W64) : Bool :=
  let x := tensorOf (walkX ws)
  let y := tensorOf (walkY ws)
  let ob := wordAt ws 5
  let ix := wordAt ws 6
  tensorOk s (walkX ws) && tensorOk s (walkY ws) && x.cols == y.cols && fld (wordAt ws 4) 63 40 == 0 && walkQ ws ≤ 64 &&
  fld ob 31 20 == 0 && fld ob 63 52 == 0 && fld ob 19 0 % 128 == 0 && fld ob 51 32 % 128 == 0 &&
  fld ix 31 19 == 0 && fld ix 63 48 == 0 && fld ix 18 0 % 16 == 0 && wordAt ws 7 % 8 == 0 &&
  (List.range (walkQ ws)).all fun q =>
    let l := walkLoc ws q
    fld l 31 26 == 0 && fld l 15 10 == 0 && fld l 7 6 == 0 && fld l 25 16 == s.node % 1024 && s.coreOn (walkCore ws q)

/-- The entries of a range, row and column each. -/
def walkEntries (n : Nat) (bs : List Byte) : List (Nat × Nat) :=
  (List.range n).map fun i => (bytesToNat ((bs.drop (8 * i)).take 4), bytesToNat ((bs.drop (8 * i + 4)).take 4))

/-- Scratchpad bytes of the group on a core. -/
def coreScratch (s : State) (core : Nat) : Nat := groupScratch s (s.core core).group

/-- A range overflows: too many rows or columns, or regions too small. -/
def walkOver (s : State) (ws : List W64) (q : Nat) (es : List (Nat × Nat)) : Bool :=
  let rs := distinct (es.map fun e => e.1)
  let cs := distinct (es.map fun e => e.2)
  let x := tensorOf (walkX ws)
  let y := tensorOf (walkY ws)
  let rcap := fld (wordAt ws 6) 47 32
  rcap < rs.length || rcap < cs.length ||
  coreScratch s (walkCore ws q) < fld (wordAt ws 6) 18 0 + 16 + 4 * walkN ws q ||
  2 ^ 20 < fld (wordAt ws 5) 19 0 + rs.length * x.cols * x.size || 2 ^ 20 < fld (wordAt ws 5) 51 32 + cs.length * y.cols * y.size

/-- The entries of a range, once they are known. -/
def walkKnown (o : EngineOp) (ws : List W64) (q : Nat) : Option (List (Nat × Nat)) :=
  if knownIn o q 0 (8 * walkN ws q) then some (walkEntries (walkN ws q) (rowBytes o q (8 * walkN ws q))) else none

/-- The element reads of one gathered row. -/
def gatherReads (t : Tensor) (r : Nat) : List (Nat × Nat) := (List.range t.cols).flatMap fun c => t.pieces r c

/-- The gathered rows' writes: row slot k of a list at an operand-buffer offset. -/
def gatherOuts (core off total : Nat) (t : Tensor) : Nat → List Nat → List Byte → List Out
  | _, [], _ => []
  | k, r :: rs, bs =>
    let n := bytesIn (gatherReads t r)
    let es := t.deliverAll r (List.range t.cols) (bs.take n)
    ⟨true, opMem core (off + k * t.cols * t.size), 0, total, false, es.flatMap (natToBytes t.size)⟩ ::
      gatherOuts core off total t (k + 1) rs (bs.drop n)

def walkJob (s : State) (o : EngineOp) (ws : List W64) : Job where
  esz := 16
  rows := walkQ ws
  reads := fun q =>
    (wordAt ws 0 + 8 * walkStart ws q, 8 * walkN ws q) ::
      match walkKnown o ws q with
      | none => []
      | some es =>
        if walkOver s ws q es then []
        else (distinct (es.map fun e => e.1)).flatMap (gatherReads (tensorOf (walkX ws))) ++
             (distinct (es.map fun e => e.2)).flatMap (gatherReads (tensorOf (walkY ws)))
  outs := fun q =>
    match walkKnown o ws q with
    | none => []
    | some es =>
      if walkOver s ws q es then []
      else
        let rs := distinct (es.map fun e => e.1)
        let cs := distinct (es.map fun e => e.2)
        let x := tensorOf (walkX ws)
        let y := tensorOf (walkY ws)
        let nx := bytesIn (rs.flatMap (gatherReads x))
        let ny := bytesIn (cs.flatMap (gatherReads y))
        let n0 := 8 * walkN ws q
        let bs := (rowBytes o q (n0 + nx + ny)).drop n0
        let core := walkCore ws q
        gatherOuts core (fld (wordAt ws 5) 19 0) (n0 + nx + ny) x 0 rs bs ++
        gatherOuts core (fld (wordAt ws 5) 51 32) (n0 + nx + ny) y 0 cs (bs.drop nx) ++
        [⟨true, windowBase core + 0x80000 + fld (wordAt ws 6) 18 0 + 16, 0, n0, false,
          es.flatMap fun e => natToBytes 4 ((rs.findIdx fun r => r == e.1) + (cs.findIdx fun c => c == e.2) * 2 ^ 16)⟩]
  last := []

/-- The header of a range. -/
def walkHeader (s : State) (o : EngineOp) (ws : List W64) (q : Nat) : List Byte × Bool :=
  match walkKnown o ws q with
  | none => ([], false)
  | some es =>
    let big := walkOver s ws q es
    let v : List Nat := if big then [0xffffffff, 0, 0, 0]
      else [walkN ws q, (distinct (es.map fun e => e.1)).length, (distinct (es.map fun e => e.2)).length, walkStart ws q]
    (v.flatMap (natToBytes 4), big)

/-! ## Conversions (R391–R394) -/

/-- The block side of a conversion descriptor; `dst` for QNT. -/
def convTensor (ws : List W64) (dst : Bool) : Tensor :=
  withFmt (wordAt ws 9)
    { base := wordAt ws (if dst then 3 else 0), sbase := wordAt ws (if dst then 4 else 1),
      ssbase := wordAt ws (if dst then 5 else 2), rows := fld (wordAt ws 6) 31 0, cols := fld (wordAt ws 6) 63 32,
      rstr := fld (wordAt ws (if dst then 8 else 7)) 31 0, sstr := fld (wordAt ws (if dst then 8 else 7)) 63 32,
      zskip := false, sfmt := 0, lblk := 0, etype := 0, otype := 0 }

/-- DQNT of raw ACC80 images. -/
def convRaw (ws : List W64) : Bool := fld (wordAt ws 9) 14 5 == 0

def convOk (s : State) (ws : List W64) (qnt : Bool) (rm : Nat) : Bool :=
  let t := convTensor ws qnt
  let ctl := wordAt ws 10
  fld (wordAt ws 9) 63 16 == 0 && fld ctl 31 3 == 0 && actOk (fld ctl 2 0) (wordAt ws 11) &&
  wordAt ws 13 == 0 && wordAt ws 14 == 0 && wordAt ws 15 == 0 && otypeOk t.otype && (!t.zskip || zskipOn s) &&
  (if qnt then wordAt ws 1 == 0 && wordAt ws 2 == 0 else wordAt ws 4 == 0 && wordAt ws 5 == 0) &&
  (if !qnt && convRaw ws then t.sbase == 0 && t.ssbase == 0 && !t.zskip
   else t.formatOk && t.arraysOk) && (!qnt || t.sfmt != 4 || rm == 0)

/-- Start of row r of the wide side. -/
def wideRow (ws : List W64) (dst : Bool) (r : Nat) : Nat :=
  (wordAt ws (if dst then 3 else 0) + r * fld (wordAt ws (if dst then 8 else 7)) 31 0) % 2 ^ 64

/-- Wide elements as exact values, from their bytes. -/
def wideVals (t : Tensor) (n : Nat) (bs : List Byte) : List Exact :=
  (List.range n).map fun i => .val (unpackF (fmtOf t.otype) (bytesToNat ((bs.drop (i * t.size)).take t.size)))

/-- Flat numbers of the GQ4 groups that row r touches. -/
def gq4Groups (t : Tensor) (r : Nat) : List Nat :=
  distinct ((List.range (t.cols / 64)).map fun b => (r * (t.cols / 64) + b) / 256)

/-- The blocks of a group, as rows and block columns. -/
def gq4Blocks (t : Tensor) (g : Nat) : List (Nat × Nat) :=
  ((List.range 256).map fun i => 256 * g + i).filterMap fun b =>
    if b < t.rows * (t.cols / 64) then some (b / (t.cols / 64), b % (t.cols / 64)) else none

/-- What QNT reads for row r: its elements, or for GQ4 every block of the groups it touches. -/
def qntReads (ws : List W64) (t : Tensor) (r : Nat) : List (Nat × Nat) :=
  if t.sfmt = 4 then
    (gq4Groups t r).flatMap fun g => (gq4Blocks t g).map fun b => ((wideRow ws false b.1 + 64 * b.2 * t.size) % 2 ^ 64, 64 * t.size)
  else [(wideRow ws false r, t.cols * t.size)]

/-- A row's blocks as quantised, and the superscales its first blocks of groups write. -/
structure QRow where
  blocks : List QBlock
  sups : List (Nat × Nat)
  deriving Repr

/-- The blocks of one group, by the flat number of the block, with its superscale. -/
def gq4Group (t : Tensor) (bs : List Byte) : List (List Exact) :=
  (List.range (bs.length / (64 * t.size))).map fun i => wideVals t 64 (bs.drop (64 * t.size * i))

/-- Row r under GQ4, from the bytes of its groups. -/
def gq4Row (t : Tensor) (r : Nat) : List Nat → List Byte → QRow
  | [], _ => ⟨[], []⟩
  | g :: gs, bs =>
    let places := gq4Blocks t g
    let n := places.length * 64 * t.size
    let blocks := gq4Group t (bs.take n)
    let sup := superFor blocks
    let mine := (places.zip blocks).filter fun e => e.1.1 == r
    let rest := gq4Row t r gs (bs.drop n)
    ⟨(mine.map fun e => gq4Block sup e.2) ++ rest.blocks,
     (if (places.headD (0, 0)).1 = r then [(g, sup)] else []) ++ rest.sups⟩

/-- Row r of a quantisation (R392, R393). -/
def qntRow (o : EngineOp) (ws : List W64) (r : Nat) : QRow :=
  let t := convTensor ws true
  let n := bytesIn (qntReads ws t r)
  let bs := rowBytes o r n
  if t.sfmt = 4 then gq4Row t r (gq4Groups t r) bs
  else
    let xs := wideVals t t.cols bs
    let rms := (List.range t.cols).map fun c => elemRm o.rm o.seed (r * t.cols + c)
    if t.blocked then
      ⟨(List.range (t.cols / t.len)).map fun b =>
        quantBlock t.etype t.sfmt ((rms.drop (b * t.len)).take t.len) ((xs.drop (b * t.len)).take t.len), []⟩
    else
      let els := (xs.zip rms).map fun e => quantElem t.etype e.2 e.1
      ⟨[⟨0, 0, els.map fun e => e.1, els.foldl (fun f e => f ||| e.2) 0⟩], []⟩

/-- The writes of a quantised row. -/
def qntOuts (o : EngineOp) (ws : List W64) (r : Nat) : List Out :=
  let t := convTensor ws true
  let n := bytesIn (qntReads ws t r)
  let q := qntRow o ws r
  let row := (t.base + r * t.rstr) % 2 ^ 64
  let out := fun a bs => (⟨false, a, 0, n, false, bs⟩ : Out)
  if t.sfmt = 3 then
    [out row (q.blocks.flatMap fun b => BitVec.ofNat 8 b.scale :: BitVec.ofNat 8 b.micro :: packCodes t.etype b.codes)]
  else
    [out row (packCodes t.etype (q.blocks.flatMap QBlock.codes))] ++
    (if t.blocked then [out ((t.sbase + r * t.sstr) % 2 ^ 64) (q.blocks.map fun b => BitVec.ofNat 8 b.scale)] else []) ++
    q.sups.map fun e => out ((t.ssbase + 4 * e.1) % 2 ^ 64) (natToBytes 4 e.2)

/-- FLAGS (R389). -/
def flagsOut (a : Nat) (f : Flags) : Out := ⟨false, a, 0, 0, false, natToBytes 8 f.toNat⟩

def orFlags (fs : List Flags) : Flags := fs.foldl (fun a b => a ||| b) 0

/-- A conversion with no rows or no columns has nothing to do. -/
def convRows (t : Tensor) : Nat := if t.cols = 0 then 0 else t.rows

def qntJob (o : EngineOp) (ws : List W64) : Job :=
  let t := convTensor ws true
  { esz := 16, rows := convRows t, reads := qntReads ws t, outs := qntOuts o ws,
    last := [flagsOut (o.desc + 0x60)
      (orFlags ((List.range (convRows t)).flatMap fun r => (qntRow o ws r).blocks.map fun b => b.flags))] }

/-- What DQNT reads for row r: its elements and scales, or its images. -/
def dqntReads (ws : List W64) (t : Tensor) (r : Nat) : List (Nat × Nat) :=
  if convRaw ws then [((t.base + r * t.rstr) % 2 ^ 64, 10 * t.cols)]
  else if t.sfmt = 3 then [((t.base + r * t.rstr) % 2 ^ 64, t.cols / 16 * nxBytes t.etype)]
  else
    [((t.base + r * t.rstr) % 2 ^ 64, packedBytes t.etype t.cols)] ++
    (if t.blocked then [((t.sbase + r * t.sstr) % 2 ^ 64, t.cols / t.len)] else []) ++
    (if t.sfmt = 4 then (gq4Groups t r).map fun g => ((t.ssbase + 4 * g) % 2 ^ 64, 4) else [])

/-- The exact value of element c of row r. -/
def dqntElem (ws : List W64) (t : Tensor) (r c : Nat) (bs : List Byte) : Exact × Flags :=
  if convRaw ws then (accOfBits (bytesToNat ((bs.drop (10 * c)).take 10))).exact
  else if t.sfmt = 3 then t.elem 0 (c % 16) ((bs.drop (c / 16 * nxBytes t.etype)).take (nxBytes t.etype))
  else
    let n := packedBytes t.etype t.cols
    let (o, k, bit) := elemPlace t.etype c
    let code := bytesToNat ((bs.drop o).take k) / 2 ^ bit % 2 ^ elemBits t.etype
    let nb := if t.blocked then t.cols / t.len else 0
    let g := (gq4Groups t r).findIdx fun g => g == (r * (t.cols / 64) + c / 64) / 256
    decodeElem t.etype t.sfmt t.zskip code (if t.blocked then (bs.getD (n + c / t.len) 0).toNat else 0) 0
      (bytesToNat ((bs.drop (n + nb + 4 * g)).take 4))

/-- Row r of a dequantisation (R394); an element of an unblocked source is rounded with RN (R407, log entry 116). -/
def dqntRow (o : EngineOp) (ws : List W64) (r : Nat) : List (Nat × Flags) :=
  let t := convTensor ws false
  let bs := rowBytes o r (bytesIn (dqntReads ws t r))
  (List.range t.cols).map fun c =>
    let e := dqntElem ws { t with rows := 1 } r c bs
    let d := deliver (fmtOf t.otype) (if t.blocked || convRaw ws then rmOf o.rm else .rn) o.sat e.1
    (d.1, e.2 ||| d.2)

def dqntJob (o : EngineOp) (ws : List W64) : Job :=
  let t := convTensor ws false
  { esz := 16, rows := convRows t, reads := dqntReads ws t,
    outs := fun r => [⟨false, wideRow ws true r, 0, bytesIn (dqntReads ws t r), false, (dqntRow o ws r).flatMap fun e => natToBytes t.size e.1⟩],
    last := [flagsOut (o.desc + 0x60)
      (orFlags ((List.range (convRows t)).flatMap fun r => (dqntRow o ws r).map fun e => e.2))] }

/-! ## Drains (R352, R389, R390) -/

def drainOk (o : EngineOp) (ws : List W64) : Bool :=
  let ctl := wordAt ws 5
  wordAt ws 0 % 16 == 0 && fld (wordAt ws 1) 63 32 == 0 && fld (wordAt ws 1) 31 0 % 16 == 0 &&
  (o.minor == 1 || wordAt ws 2 % 4 == 0 && wordAt ws 3 % 4 == 0) && (o.minor == 2) == (wordAt ws 4 != 0) && fld ctl 31 8 == 0 && fld ctl 6 3 == 0 &&
  actOk (fld ctl 2 0) (wordAt ws 6)

/-- A slot's element (R249). -/
def slotElem (s : State) (core slot i j : Nat) : Acc80 :=
  accOfBits (bytesToNat (tabGets 0#8 s.mem (windowBase core + 0x400000 + slot * 0x28000 + 10 * (128 * i + j)) 10))

/-- A drain makes its slot's contents known, or finds them unpredictable. -/
def drainElem (s : State) (o : EngineOp) (i j : Nat) : Acc80 :=
  if o.spoilt then accOfBits (Config.freeBits o.id (2 ^ 66 + 128 * i + j)).toNat else slotElem s o.core o.slot i j

/-- Row and column scales as read with the descriptor's row: 1.0 where no array is named. -/
def drainScale (o : EngineOp) (row off : Nat) (named : Bool) (i : Nat) : Val :=
  if named then unpackF (fmtOf 10) (bytesToNat ((rowBytes o row (off + 512)).drop (off + 4 * i) |>.take 4)) else .fin false 1 0

def drainReads (o : EngineOp) (ws : List W64) : List (Nat × Nat) :=
  if o.minor = 1 then [] else
    (if wordAt ws 2 = 0 then [] else [(wordAt ws 2, 512)]) ++ (if wordAt ws 3 = 0 then [] else [(wordAt ws 3, 512)])

/-- The scaled values of row i, with what forming them raises. -/
def drainVals (s : State) (o : EngineOp) (ws : List W64) (i : Nat) : List (Exact × Flags) :=
  (List.range 128).map fun j =>
    (drainElem s o i j).scaled (drainScale o i 0 (wordAt ws 2 != 0) i)
      (drainScale o i (if wordAt ws 2 = 0 then 0 else 512) (wordAt ws 3 != 0) j)

/-- Row i of a drain: element bytes, scale bytes, flags. DESIGN CHOICE (log entry 125): R39 counts the elements that round
with RS "in the operation's element order", which R393 states for QNT only; a drain's element (i, j) is number 128i + j.
DESIGN CHOICE (log entry 126): R46 has a non-finite element written with e, F and sticky 0, and a spill restore exactly the
80 bits; RAW output of an element stored with a non-finite class and other fields not 0 writes them as 0. -/
def drainRow (s : State) (o : EngineOp) (ws : List W64) (i : Nat) : List Byte × List Byte × Flags :=
  if o.minor = 1 then ((List.range 128).flatMap fun j => natToBytes 10 (drainElem s o i j).bits, [], 0)
  else
    let xs := drainVals s o ws i
    let fl := orFlags (xs.map fun e => e.2)
    let rms := (List.range 128).map fun j => elemRm o.rm o.seed (128 * i + j)
    if o.minor = 2 then
      let bs := (List.range 4).map fun b =>
        quantBlock o.type 1 ((rms.drop (32 * b)).take 32) (((xs.map fun e => e.1).drop (32 * b)).take 32)
      (packCodes o.type (bs.flatMap QBlock.codes), bs.map fun b => BitVec.ofNat 8 b.scale, fl ||| orFlags (bs.map QBlock.flags))
    else
      let es := (xs.zip rms).map fun e => deliver (fmtOf o.type) e.2 o.sat e.1.1
      (es.flatMap fun e => natToBytes (typeBytes o.type) e.1, [], fl ||| orFlags (es.map fun e => e.2))

def drainAddr (ws : List W64) (i : Nat) : Nat := wrap 64 ((wordAt ws 0 : Int) + i * sext 32 (fld (wordAt ws 1) 31 0))

def drainJob (s : State) (o : EngineOp) (ws : List W64) : Job where
  esz := 16
  rows := 128
  reads := fun _ => drainReads o ws
  outs := fun i =>
    let r := drainRow s o ws i
    let n := bytesIn (drainReads o ws)
    ⟨false, drainAddr ws i, 0, n, false, r.1⟩ ::
      (if o.minor = 2 then [⟨false, (wordAt ws 4 + 4 * i) % 2 ^ 64, 0, n, false, r.2.1⟩] else [])
  last := [flagsOut (o.desc + 0x38) (orFlags ((List.range 128).map fun i => (drainRow s o ws i).2.2))]

/-! ## Compaction (R371, R372) -/

def compactStride (ws : List W64) : Nat := fld (wordAt ws 3) 31 0
def compactBytes (ws : List W64) : Nat := fld (wordAt ws 3) 45 32

/-- The bypass copies of a CPACT: one row per dropped token. -/
def bypassJob (o : EngineOp) (ws : List W64) : Job :=
  let xs := (o.toks.filter fun t => !t.2).map fun t => t.1
  let n := compactBytes ws
  { esz := 16, rows := xs.length,
    reads := fun k => [((wordAt ws 1 + xs.getD k 0 * compactStride ws) % 2 ^ 64, n)],
    outs := fun k => [⟨false, (wordAt ws 2 + xs.getD k 0 * compactStride ws) % 2 ^ 64, 0, n, true, rowBytes o k n⟩],
    last := [] }

/-- The padding token of CPFL: a zero row, and index 0xFFFF_FFFF. -/
def padToken : Nat := 2 ^ 32

/-- The copy of a full tile: 128 rows into the tile slot, and the index list. `args` holds the stage. -/
def tileJob (o : EngineOp) (ws : List W64) : Job :=
  let n := compactBytes ws
  let st := o.args.getD 0 0
  let tok := fun k => (o.toks.getD k (0, true)).1
  { esz := 16, rows := 128,
    reads := fun k => if tok k = padToken then [] else [((wordAt ws 0 + tok k * compactStride ws) % 2 ^ 64, n)],
    outs := fun k =>
      [⟨true, opMem o.core (fld (wordAt ws 4) 19 0 + st * 128 * n + k * n), 0, if tok k = padToken then 0 else n, tok k != padToken,
        if tok k = padToken then List.replicate n 0 else rowBytes o k n⟩],
    last := [⟨false, (wordAt ws 5 + 512 * st) % 2 ^ 64, 0, 0, false,
      (List.range 128).flatMap fun k => natToBytes 4 (if tok k = padToken then 0xffffffff else tok k)⟩] }

/-! ## The job of an operation -/

def jobOf (s : State) (o : EngineOp) (ws : List W64) : Job :=
  match o.kind with
  | .cpy => cpyJob o ws
  | .fetch => fetchJob o ws
  | .ixwalk => walkJob s o ws
  | .qnt => qntJob o ws
  | .dqnt => dqntJob o ws
  | .mxdrain => drainJob s o ws
  | .cpact => bypassJob o ws
  | .tile => tileJob o ws
  | .cpfl => ⟨16, 0, fun _ => [], fun _ => [], []⟩
  | .mxissue => ⟨16, 0, fun _ => [], fun _ => [], []⟩

/-- The reads of the descriptor, and for a walk of what it names. -/
def descReads (o : EngineOp) : List (Nat × Nat) :=
  match o.kind with
  | .qnt => [(o.desc, 128)]
  | .dqnt => [(o.desc, 128)]
  | .ixwalk =>
    let known := knownPrefix o descRow 64
    if known.length < 64 then [(o.desc, 64)]
    else
      let w := fun i => bytesToNat ((known.drop (8 * i)).take 8)
      [(o.desc, 64), (w 1, 64), (w 2, 64), (w 3, 4 * (fld (w 4) 39 32 + 1))]
  | _ => [(o.desc, 64)]

/-- The 64-bit words of a list of bytes. -/
def words64 (bs : List Byte) : List W64 :=
  (List.range ((bs.length + 7) / 8)).map fun i => BitVec.ofNat 64 (bytesToNat ((bs.drop (8 * i)).take 8))

/-- The descriptor passes the checks of its operation. -/
def descOk (s : State) (o : EngineOp) (ws : List W64) : Bool :=
  match o.kind with
  | .cpy => cpyOk ws
  | .fetch => tensorOk s ws
  | .ixwalk => walkOk s ws
  | .qnt => convOk s ws true o.rm
  | .dqnt => convOk s ws false o.rm
  | .mxdrain => drainOk o ws
  | _ => true

/-- ACT, ARG and ADDV of a descriptor. -/
def actOf (o : EngineOp) (ws : List W64) : Nat × Nat × Nat :=
  let f := fun ctl arg => (fld (wordAt ws ctl) 2 0, wordAt ws arg, fld (wordAt ws ctl) 63 32)
  match o.kind with
  | .cpy => f 6 7
  | .mxdrain => f 5 6
  | .qnt => f 10 11
  | .dqnt => f 10 11
  | _ => (0, 0, 0)

end Sys2Proof.Machine
end

