-- ==== Sys2Proof/Machine/Memory.lean ====
section
/-! DEFINITION. Load, store and prefetch (R107–R114). -/

namespace Sys2Proof.Machine

/-- Bytes of the access of LD and ST (R108). -/
def Ctx.accBytes (c : Ctx) : Nat := typeBytes c.ty * 2 ^ (c.f.minor.toNat % 4)

/-- A lane's access lies in the entry that a port's window shows (R375): its place there. -/
def Ctx.inWindow (c : Ctx) (e : Slice × Nat) : Option Nat :=
  if c.displace e.1 e.2 + c.accBytes ≤ 128 then some (c.displace e.1 e.2) else none

/-- The physical address of an access inside the head entry of a local FIFO. -/
def Ctx.fifoPa (c : Ctx) (e : Slice × Nat) : Option Nat :=
  match c.winPort with
  | some p => if p.kind = 4 then (c.inWindow e).map fun o => ownPa c.s (windowBase c.g.core + 0x80000 + p.queue + 128 * p.head + o) else none
  | none => none

/-- The accesses of the guard-true active lanes, each at its effective address. -/
def Ctx.wants (c : Ctx) (need : Nat) : List Want :=
  c.lanes.map fun e =>
    { x := e.1, lane := e.2, va := c.ea e.1 e.2, bytes := c.accBytes, align := c.accBytes, need := need, direct := c.fifoPa e }

/-! ### The window of a fabric receive port (R375) -/

/-- The base is the window of a fabric receive port: its port number and head entry. -/
def Ctx.received (c : Ctx) : Option (List W32) :=
  match c.winPort with
  | some p => if p.kind = 2 then p.entries.head? else none
  | none => none

/-- The lanes whose address no access may have (R22), with their causes. -/
def Ctx.barred (c : Ctx) : List (Slice × Nat × Cause × Nat) :=
  c.lanes.filterMap fun e =>
    if c.ea e.1 e.2 % c.accBytes ≠ 0 then some (e.1, e.2, .align, c.ea e.1 e.2)
    else if 2 ^ 56 ≤ c.ea e.1 e.2 then some (e.1, e.2, .xnp, c.ea e.1 e.2) else none

/-- A lane's bytes of the entry; the spec gives none outside it. -/
def Ctx.entryBytes (c : Ctx) (entry : List W32) (e : Slice × Nat) : List Byte :=
  match c.inWindow e with
  | some o => ((entry.flatMap fun w => natToBytes 4 w.toNat).drop o).take c.accBytes
  | none => (List.range c.accBytes).map fun i => (freeWord c.s (2 ^ 30 + threadIx e.1 e.2 * 16 + i)).setWidth 8

/-- A load from the entry. -/
def loadReceived (c : Ctx) (entry : List W32) : Body :=
  if !c.barred.isEmpty then trapLanes c.s c.barred
  else if c.f.d.toNat = 240 || c.lanes.isEmpty then .done c.s
  else .done (issueLater c.s c true c.guarded
    { writes := c.lanes.map fun e => ⟨e.1.pos, e.2, c.f.d.toNat, loadImage c.ty (c.entryBytes entry e)⟩ })

/-- The entry with the lanes' stores, in THREADIX order. -/
def Ctx.patched (c : Ctx) (entry : List W32) (data : Slice × Nat → List Byte) : List W32 :=
  let bs := c.lanes.foldl (fun bs e => match c.inWindow e with | some o => patch bs o (data e) | none => bs)
    (entry.flatMap fun w => natToBytes 4 w.toNat)
  loadImage.words bs

/-- A translated access. -/
def accOf (w : Want) (t : Xlt) (kind : AccKind) (near : Bool := false) : Acc :=
  ⟨w.x.pos, w.lane, w.va, t.pa, w.bytes, memTypeOf t, kind, none, near, 0, []⟩

/-- An access of LD or ST, with its cache hint in word bits [6:4] (R112). -/
def hinted (c : Ctx) (a : Acc) : Acc := { a with hint := c.f.aux.toNat / 16 }

/-- The checked wants that store, the thread of a want, and the state in which the D bit of every page stored to is set or under
way. -/
def storesIn (rs : List (Want × Xlt)) : List (Want × Xlt) := rs.filter fun r => bitOf r.1.need 3
def srcOf (c : Ctx) (r : Want × Xlt) : Src := ⟨c.g.slot, r.1.x.pos, r.1.lane, c.here⟩
def dirtyAll (s : State) (c : Ctx) (rs : List (Want × Xlt)) : State :=
  (storesIn rs).foldl (fun s r => markDirty s (c.g.core / 64) (.core c.g.core) r.1.va r.2 [srcOf c r]) s

/-- A store waits for the D bit of its leaf (R267). -/
def leafStops (s : State) (rs : List (Want × Xlt)) : Bool := (storesIn rs).any fun r => leafWaits s r.2

/-- The D bits of the pages that the stores go to are set first; a leaf at another home makes them wait, and one that cannot be
read fails their lanes, as a walk that meets it does (R267, R271, R315). -/
def withStores (s : State) (c : Ctx) (rs : List (Want × Xlt)) (go : State → Body) : Body :=
  let t := dirtyAll s c rs
  if leafStops s rs then
    let bad := (storesIn rs).filter fun r => leafWaits s r.2 && isOwn s r.2.ptePa && !heldOutside s (localOf r.2.ptePa)
    .stall (bad.foldl (fun t r => failDirty c.g.core (r.1.va / 0x10000) t (srcOf c r)) t)
  else go t

def execLd (f : Fields) (s : State) : Host.Outcome State Fault Refusal :=
  issue (.ld f) s fun c =>
    match c.received with
    | some entry => loadReceived c entry
    | none => withAccess c.s c anyTarget (c.wants 4) fun s rs =>
      let d := c.f.d.toNat
      let writes := if d = 240 then [] else
        rs.map fun r => ⟨r.1.x.pos, r.1.lane, d, List.replicate (c.regs .d) 0⟩
      makeAccesses s c (d != 240) (rs.map fun r => hinted c (accOf r.1 r.2 (.load c.ty d))) writes

/-- The data of a lane's store, as registers (R110). -/
def Ctx.stData (c : Ctx) (x : Slice) (l : Nat) : List W32 :=
  let d := c.f.d.toNat
  let per := if typeBytes c.ty = 8 then 2 else 1
  if d = 255 then (List.replicate (c.regs .d / per) (wordsOf per (litOf c.f.lit c.ty false))).flatten
  else if d = 240 then List.replicate (c.regs .d) 0
  else if 200 ≤ d && d < 216 then [c.g.h.getD (d - 200) 0]
  else (List.range (c.regs .d)).map fun i => regRead c.s c.g x l (d + i)

/-- The handle that ST stores, if its data is one. -/
def Ctx.handleData (c : Ctx) : Option Nat :=
  if 200 ≤ c.f.d.toNat && c.f.d.toNat < 216 then some (c.g.h.getD (c.f.d.toNat - 200) 0).toNat else none

/-- The handle of a RUNNING future that ST stores: the store waits for it (R110). -/
def Ctx.lateHandle (c : Ctx) : Option Nat :=
  c.handleData.bind fun h => if handleRunning c.s c.g.ctx h then some h else none

/-- The slices of some lanes have executed an instruction that a flush may not repeat (R429). -/
def notClean (s : State) (core slot : Nat) (ps : List Nat) : State :=
  s.updGang core slot fun g => { g with slices := updAll (fun x => ps.contains x.pos) (fun x => { x with stuck := true }) g.slices }

/-- A body's state, when it is done. -/
def Body.after (b : Body) (h : State → State) : Body :=
  match b with
  | .done s => .done (h s)
  | b => b

/-- A store into the entry of a fabric receive port; that of a handle whose future is RUNNING waits for it. -/
def storeReceived (c : Ctx) (entry : List W32) : Body :=
  if !c.barred.isEmpty then trapLanes c.s c.barred
  else match c.lateHandle with
  | some h =>
    let popped := ((c.s.core c.g.core).ports.getD (c.f.a.toNat - 232) Port.unbound).popped
    .done (c.guarded.foldl (fun s p =>
      waitSlice s c p .fut h 240 0
        ((c.lanes.filter fun e => e.1.pos == p).map fun e =>
          (e.2, .futPort h c.g.core (c.f.a.toNat - 232) popped ((c.inWindow e).getD 128)))) (notClean c.s c.g.core c.g.slot c.guarded))
  | none => .done ((notClean c.s c.g.core c.g.slot c.guarded).setCore c.g.core fun k => { k with
    ports := updAt (c.f.a.toNat - 232) (fun p => { p with
      entries := c.patched entry (fun e => storeImage c.ty (c.stData e.1 e.2)) :: p.entries.tail }) k.ports })

/-- ST. A store of a handle whose future is RUNNING ends the segments of its slices after the checks, and is
performed when the future completes. -/
def execSt (f : Fields) (s : State) : Host.Outcome State Fault Refusal :=
  issue (.st f) s fun c =>
    match c.received with
    | some entry => storeReceived c entry
    | none => withAccess c.s c anyTarget (c.wants 8) fun s rs =>
      let unclean := (rs.filter fun r => memTypeOf r.2 != 0).map fun r => r.1.x.pos
      withStores s c rs fun s =>
        match c.lateHandle with
        | some h =>
          .done (c.guarded.foldl (fun s p =>
            waitSlice s c p .fut h 240 0
              ((rs.filter fun r => r.1.x.pos == p).map fun r => (r.1.lane, .futStore h r.2.pa r.1.va (memTypeOf r.2)))) (notClean s c.g.core c.g.slot unclean))
        | none =>
          (makeAccesses s c false (rs.map fun r => hinted c (accOf r.1 r.2 (.store (storeImage c.ty (c.stData r.1.x r.1.lane))))) []).after
            fun s => notClean s c.g.core c.g.slot unclean

/-- PREF changes no value and no order. -/
def execPref (f : Fields) (s : State) : Host.Outcome State Fault Refusal :=
  issue (.pref f) s fun c => .done c.s

end Sys2Proof.Machine
end

