-- ==== Sys2Proof/Machine/Engine.lean ====
section
/-! DEFINITION. Issue of engine operations (R355, R379, R391–R399): CPY, FETCH, IXWALK, QNT, DQNT, CPACT, CPFL.
What an operation then does stands in EngineSteps.lean. -/

namespace Sys2Proof.Machine

/-- Go on with the state of a body that is done. -/
def Body.map (b : Body) (h : State → State) : Body :=
  match b with
  | .done s => .done (h s)
  | b => b

/-- Threads of a task, and issues without a guard-true lane (R377, R378). -/
def groupOnly (c : Ctx) (go : Slice × Nat → Body) : Body :=
  match c.first with
  | none => .done c.s
  | some e => if c.isTask then trapFirst c .resv else go e

/-- An operation that rounds with RS takes its seed from the issuing thread, whose RSTATE advances once (R39). -/
def seeded (c : Ctx) (e : Slice × Nat) : State :=
  if c.f.rm.toNat = 4 then c.s.updLane c.g.core c.g.slot e.1.pos e.2 fun t => { t with rstate := rsNext t.rstate } else c.s
def withSeed (c : Ctx) (e : Slice × Nat) (op : EngineOp) : EngineOp :=
  { op with seed := if c.f.rm.toNat = 4 then (e.1.lane e.2).rstate else op.seed }

def startSeeded (c : Ctx) (e : Slice × Nat) (op : EngineOp) : Body := startOp c (seeded c e) (withSeed c e op)

def execCpy (f : Fields) (s : State) : Host.Outcome State Fault Refusal :=
  issue (.cpy f) s fun c => withDesc c fun e a => startOp c c.s (newOp c e .cpy a [])

def execIxwalk (f : Fields) (s : State) : Host.Outcome State Fault Refusal :=
  issue (.ixwalk f) s fun c => withDesc c fun e a => startOp c c.s (newOp c e .ixwalk a [])

def execQnt (f : Fields) (s : State) : Host.Outcome State Fault Refusal :=
  issue (.qnt f) s fun c => withDesc c fun e a => startSeeded c e (newOp c e .qnt a [])

def execDqnt (f : Fields) (s : State) : Host.Outcome State Fault Refusal :=
  issue (.dqnt f) s fun c => withDesc c fun e a => startOp c c.s (newOp c e .dqnt a [])

/-! ## FETCH (R364, R396) -/

/-- A fetch's queue, and whether it has its reservation: `args` is queue, row, column, then 1 once reserved. -/
def EngineOp.queue (o : EngineOp) : Nat := o.args.getD 0 0
def EngineOp.reserved (o : EngineOp) : Bool := o.args.getD 3 0 == 1

/-- Fetches of a queue that wait for their reservation, in issue order. -/
def unreserved (s : State) (core q : Nat) : List EngineOp :=
  s.ops.filter fun o => o.kind == .fetch && o.core == core && o.queue == q && !o.reserved

/-- Reserve the tail entry for a fetch. A fetch whose group has ended has no queue left. -/
def reserveEntry (s : State) (o : EngineOp) : State :=
  let s := if (s.core o.core).group = o.group then
      s.setCore o.core fun k => { k with queues := updAt o.queue (fun q => q ++ [⟨o.handle, none⟩]) k.queues }
    else s
  s.updOp o.id fun o => { o with args := o.args ++ [1] }

/-- There is room in the fetch's queue. -/
def queueRoom (s : State) (o : EngineOp) : Bool :=
  (s.core o.core).group != o.group || decide (((s.core o.core).queues.getD o.queue []).length < 64)

/-- The fetch just issued reserves at once where its queue has room for those that wait before it and for it (R364, R408). -/
def reserveNow (s : State) : State :=
  match s.ops.getLast? with
  | none => s
  | some o => (unreserved s o.core o.queue).foldl (fun s q => if queueRoom s q then reserveEntry s q else s) s

/-- Queue, row and column of a fetch. -/
def fetchArgs (c : Ctx) (e : Slice × Nat) : List Nat :=
  [c.f.aux.toNat % 8, c.src e.1 e.2 c.f.b.toNat 1 7, c.src e.1 e.2 c.f.c.toNat 1 7]

def execFetch (f : Fields) (s : State) : Host.Outcome State Fault Refusal :=
  issue (.fetch f) s fun c => withDesc c fun e a => groupOnly c fun _ =>
    (startOp c c.s (newOp c e .fetch a (fetchArgs c e))).map reserveNow

/-! ## The compaction queue (R371, R372, R398, R399) -/

/-- Operations of a core's compaction queue whose tokens have not been taken. -/
def untaken (s : State) (core : Nat) : List EngineOp :=
  s.ops.filter fun o => (o.kind == .cpact || o.kind == .cpfl) && o.core == core && !o.started

/-- Those of the core's group: a CPACT whose descriptor has met a fault latches nothing. -/
def queued (s : State) (core : Nat) : List EngineOp :=
  (untaken s core).filter fun o => o.group == (s.core core).group && (o.words.isSome || o.fail.isNone)

/-- Whether a queued CPACT will latch a descriptor other than `a` is not known before the unit has read it: a CPACT waits
for that (log entry 117). -/
def unsettled (s : State) (core a : Nat) : Bool := (queued s core).any fun o => o.kind == .cpact && o.words.isNone && o.desc != a

/-- The latched descriptor and the tokens of the current tile once every queued operation has taken its turn. -/
def compactAhead (s : State) (core : Nat) : Option Nat × Nat :=
  let k := (s.core core).compact
  (queued s core).foldl (fun (q : Option Nat × Nat) o =>
    if o.kind = .cpfl then (if q.2 % 128 = 0 then q else (none, 0))
    else (some (q.1.getD o.desc), q.2 + ((o.toks.drop o.progress).filter fun t => t.2).length)) (k.desc.map (fun d => d.1), k.tile.length)

/-- The tokens that a compaction takes, one of each guard-true active lane. -/
def tokensOf (c : Ctx) : List (Nat × Bool) :=
  c.lanes.map fun e => (c.src e.1 e.2 c.f.b.toNat 1 7, bitOf (c.src e.1 e.2 c.f.c.toNat 1 7) 0)

def execCpact (f : Fields) (s : State) : Host.Outcome State Fault Refusal :=
  issue (.cpact f) s fun c => withDesc c fun e a => groupOnly c fun _ =>
    let k := compactAhead c.s c.g.core
    if unsettled c.s c.g.core a then .stall c.s
    else if k.2 % 128 != 0 && k.1 != some a then trapFirst c .resv
    else
      startOp c c.s { newOp c e .cpact a [] with toks := tokensOf c }

def execCpfl (f : Fields) (s : State) : Host.Outcome State Fault Refusal :=
  issue (.cpfl f) s fun c => groupOnly c fun e =>
    if c.mustWait then .stall c.s else startOp c c.s (newOp c e .cpfl 0 [])

end Sys2Proof.Machine
end

