-- ==== Sys2Proof/Machine/Fibre.lean ====
section
/-! DEFINITION. Fibre registers (R369, R400–R402): ZOPEN, ZADV, ZEND, ZCLOSE, ZVAL. -/

namespace Sys2Proof.Machine

/-- Number of the fibre that an operand code names. -/
def fibreNo (code : Nat) : Nat := code % 8

/-- Fibre k of a lane. -/
def fibreOf (x : Slice) (l k : Nat) : Fibre := (x.lane l).fibres.getD k Fibre.closed

/-- The result of an earlier ZADV for this fibre is not yet in place (R401). -/
def fibrePending (c : Ctx) (x : Slice) (l k : Nat) : Bool := outstanding c.s c.g x.pos l (216 + k)

/-- Another instruction writes a fibre whose ZADV is outstanding: it will be unpredictable. -/
def spoilFibre (s : State) (core slot pos lane k : Nat) : State := spoil s core slot ⟨pos, lane, 216 + k, [0]⟩

/-- Write fibre k of lanes. -/
def putFibres (s : State) (c : Ctx) (k : Nat) (zs : List (Nat × Nat × Fibre)) : State :=
  zs.foldl (fun s e => (spoilFibre s c.g.core c.g.slot e.1 e.2.1 k).updLane c.g.core c.g.slot e.1 e.2.1 fun t =>
    { t with fibres := updAt k (fun _ => e.2.2) t.fibres }) s

/-- ZOPEN's checks for one lane, in the order of R22. -/
def zopenBad (crd val size : Nat) : Option (Cause × Nat) :=
  if crd % 4 != 0 then some (.align, crd)
  else if val % size != 0 then some (.align, val)
  else if 2 ^ 56 ≤ crd then some (.xnp, crd)
  else if 2 ^ 56 ≤ val then some (.xnp, val)
  else none

def execZopen (f : Fields) (s : State) : Host.Outcome State Fault Refusal :=
  issue (.zopen f) s fun c =>
    let wide := bitOf c.f.aux.toNat 0
    let crd := fun (e : Slice × Nat) => c.src e.1 e.2 c.f.a.toNat 2 8
    let val := fun (e : Slice × Nat) => c.src e.1 e.2 c.f.c.toNat 2 8
    let bad := c.lanes.filterMap fun e => (zopenBad (crd e) (val e) (if wide then 8 else 4)).map fun b => (e.1, e.2, b.1, b.2)
    if !bad.isEmpty then trapLanes c.s bad
    else .done (putFibres c.s c (fibreNo c.f.d.toNat) (c.lanes.map fun e =>
      (e.1.pos, e.2, ⟨true, BitVec.ofNat 64 (crd e), BitVec.ofNat 64 (val e),
        BitVec.ofNat 32 (c.src e.1 e.2 c.f.b.toNat 1 7), 0xffffffff, 0, wide⟩)))

def execZclose (f : Fields) (s : State) : Host.Outcome State Fault Refusal :=
  issue (.zclose f) s fun c =>
    .done (putFibres c.s c (fibreNo c.f.d.toNat) (c.lanes.map fun e => (e.1.pos, e.2, Fibre.closed)))

/-! ## ZADV (R369, R401) -/

def Fibre.before (z : Fibre) : Bool := z.pos == 0xffffffff#32
/-- The position lies inside the array. -/
def Fibre.inside (z : Fibre) : Bool := !z.before && z.pos.toNat < z.len.toNat

/-- Where a lane's advance comes to. -/
inductive Seek where
  | found (z : Fibre)
  | stop (w : Want) (r : LaneRes)
  | ask (a : Acc)
  | wait
  | bad (addr : Nat)

/-- Place a fibre at p with the coordinate read there. -/
def Fibre.to (z : Fibre) (p v : Nat) : Fibre := { z with pos := BitVec.ofNat 32 p, cur := BitVec.ofNat 32 v }

/-- One coordinate of a lane: its value, or what it waits for, or its failure. -/
inductive Crd where
  | val (v : Nat)
  | wait
  | ask (a : Acc)
  | bad (addr : Nat)

/-- Read one coordinate. A page that is not normal is read once for the thread's instruction, a line of another module's by a
request of its own (R262, R281); the core's own scratchpad in its turn (R334). -/
def readCrd (c : Ctx) (a : Acc) (s : State) : State × Crd :=
  let core := c.g.core
  let key := threadKey c.g a.pos a.lane
  let known := if a.memType = 0 then none else seekAt s core key a.pa
  match known.bind fun q => q.word with
  | some v => (s, .val v)
  | none =>
    match accState s core a with
    | .ready =>
      if portBusy s core [a.pa] then (s, .wait)
      else
        let r := coreRead s c.g (withBuffer s c.g a)
        let v := bytesToNat r.2
        (if a.memType = 0 then r.1 else seekPut r.1 ⟨core, key, a.pa, 0, [], some v⟩, .val v)
    | .direct =>
      if !reachable s (nodeOf a.pa) then (s, .bad (lineOf a.pa))
      else if known.any fun q => s.reqs.any fun r => r.id == q.req then (s, .wait)
      else
        let id := s.nextId
        let m := mkMsg s (core / 64) (.core core) (nodeOf a.pa) id (s.core core).pts (lineOf a.pa)
        let r : Req := ⟨id, core / 64, .core core, 0, nodeOf a.pa, a.pa, none, none, m, true, issuerKey c.g.slot a.pos⟩
        (seekPut { s with nextId := id + 1, reqs := s.reqs ++ [r] } ⟨core, key, a.pa, id, (withBuffer s c.g a).merged, none⟩, .wait)
    | .missing => (s, .ask a)
    | .atHome => (s, .wait)
    | .failed =>
      let at_ := failAddr s core a
      let s := if accBad s core a then noteBad s (core / 64) a.pa else s
      (clearFailed s (.core core) [a.pa], .bad at_)

/-- Read coordinates from p on until one is not below b; n is how many are left. -/
def seekFrom (c : Ctx) (x : Slice) (l : Nat) (z : Fibre) (b : Nat) : Nat → Nat → State → State × Seek
  | 0, p, s => (s, .found (z.to p 0xffffffff))
  | n + 1, p, s =>
    let w : Want := { x := x, lane := l, va := (z.crd.toNat + 4 * p) % 2 ^ 64, bytes := 4, align := 4, need := 4 }
    match checkWant s c.g anyTarget w with
    | (s, .ok t) =>
      match readCrd c (accOf w t (.load 7 0)) s with
      | (s, .val v) => if b ≤ v then (s, .found (z.to p v)) else seekFrom c x l z b n (p + 1) s
      | (s, .wait) => (s, .wait)
      | (s, .ask a) => (s, .ask a)
      | (s, .bad at_) => (s, .bad at_)
    | (s, r) => (s, .stop w r)

/-- One lane's ZADV. -/
def advanceLane (c : Ctx) (seek : Bool) (k : Nat) (s : State) (e : Slice × Nat) : State × Seek :=
  let z := fibreOf e.1 e.2 k
  let none? : Want := { x := e.1, lane := e.2, va := 0, bytes := 0, align := 1, need := 0 }
  if fibrePending c e.1 e.2 k then (s, .found (freeFibre s e.1.pos e.2 k))
  else if !z.opened then (s, .stop none? (.trap .resv))
  else if seek then
    if !z.before && z.len.toNat ≤ z.pos.toNat then (s, .found z)
    else
      let p := if z.before then 0 else z.pos.toNat
      seekFrom c e.1 e.2 z (c.src e.1 e.2 c.f.b.toNat 1 7) (z.len.toNat - p) p s
  else
    let p := if z.before then 0 else z.pos.toNat + 1
    seekFrom c e.1 e.2 z 0 (if p < z.len.toNat then 1 else 0) p s

def advanceAll (c : Ctx) (seek : Bool) (k : Nat) : List (Slice × Nat) → State → State × List ((Slice × Nat) × Seek)
  | [], s => (s, [])
  | e :: es, s =>
    let r := advanceLane c seek k s e
    let q := advanceAll c seek k es r.1
    (q.1, (e, r.2) :: q.2)

/-- What these lanes' ZADV has read of pages that are not normal is not kept for a later one. -/
def seeksDone (c : Ctx) (s : State) : State :=
  { s with seeks := s.seeks.filter fun q => !(q.core == c.g.core && c.lanes.any fun e => q.thread == threadKey c.g e.1.pos e.2) }

/-- The fibres take their new places later; one whose read failed is unsettled until then too (R55). -/
def advanced (c : Ctx) (r : State × List ((Slice × Nat) × Seek)) : State :=
  let k := fibreNo c.f.d.toNat
  let found := r.2.filterMap fun e => match e.2 with
    | .found z => some (e.1.1.pos, e.1.2, k, z)
    | _ => none
  let failed := r.2.filterMap fun e => match e.2 with
    | .bad a => some (e.1.1.pos, e.1.2, a)
    | _ => none
  let s := c.lanes.foldl (fun s e => spoilFibre s c.g.core c.g.slot e.1.pos e.2 k) r.1
  let lost := failed.map fun e => (e.1, e.2.1, k, freeFibre s e.1 e.2.1 k)
  issueLater (seeksDone c s) c true c.guarded { fibres := found ++ lost, failed := failed }

def zadv (c : Ctx) (seek : Bool) : Body :=
  let k := fibreNo c.f.d.toNat
  if c.lanes.isEmpty then .done c.s
  else if accBusy c.s c.g c.guarded then .stall c.s
  else
    let r := advanceAll c seek k c.lanes c.s
    let stops := r.2.filterMap fun e => match e.2 with | .stop w q => some (w, q) | _ => none
    let d := deciders c.guarded stops
    let asks := r.2.filterMap fun e => match e.2 with | .ask a => some a | _ => none
    let waits := r.2.any fun e => match e.2 with | .wait | .ask _ => true | _ => false
    if !d.1.isEmpty then .trap (seeksDone c r.1) d.1
    else if !d.2.isEmpty then .walk r.1 d.2
    else if waits then
      .stall (asks.foldl (fun s a => askLine s (c.g.core / 64) (.core c.g.core) (s.core c.g.core).pts a.pa false) r.1)
    else
      .done (advanced c r)

def execZadv (f : Fields) (s : State) : Host.Outcome State Fault Refusal := issue (.zadv f) s fun c => zadv c false
def execZadvSeek (f : Fields) (s : State) : Host.Outcome State Fault Refusal := issue (.zadvSeek f) s fun c => zadv c true

/-! ## ZEND and ZVAL (R369, R402) -/

def Fibre.atEnd (z : Fibre) : Bool := !z.opened || (!z.before && z.len.toNat ≤ z.pos.toNat)

def execZend (f : Fields) (s : State) : Host.Outcome State Fault Refusal :=
  issue (.zend f) s fun c => perLane c fun x l =>
    let k := fibreNo c.f.a.toNat
    if fibrePending c x l k then (freeWord c.s ((x.pos * 4 + l) * 256 + 216 + k)).toNat else b2n (fibreOf x l k).atEnd

/-- One lane's load of ZVAL: its check, and whether it makes an access. -/
def zvalLane (c : Ctx) (k : Nat) (s : State) (e : Slice × Nat) : State × (Want × LaneRes) × Bool :=
  let z := fibreOf e.1 e.2 k
  let n := typeBytes c.ty
  let w : Want := { x := e.1, lane := e.2, va := (z.val.toNat + n * z.pos.toNat) % 2 ^ 64, bytes := n, align := n, need := 4,
                    also := fun _ => if z.wide == (n == 8) then none else some .resv }
  let skip := fun (r : LaneRes) => (s, (w, r), false)
  if fibrePending c e.1 e.2 k || !z.opened then skip (.ok ⟨0, 0, 0⟩)
  else if !z.inside then skip (if z.wide == (n == 8) then .ok ⟨0, 0, 0⟩ else .trap .resv)
  else
    let r := checkWant s c.g anyTarget w
    (r.1, (w, r.2), true)

def zvalLanes (c : Ctx) (k : Nat) : List (Slice × Nat) → State → State × List ((Want × LaneRes) × Bool)
  | [], s => (s, [])
  | e :: es, s =>
    let r := zvalLane c k s e
    let q := zvalLanes c k es r.1
    (q.1, r.2 :: q.2)

/-- The loads that are made, and the destinations: those that the loads of their slice fill, and the rest. -/
def zvalAccs (c : Ctx) (rs : List ((Want × LaneRes) × Bool)) : List Acc :=
  rs.filterMap fun e => match e.2, e.1.2 with
    | true, .ok t => some (accOf e.1.1 t (.load c.ty c.f.d.toNat))
    | _, _ => none
def zvalSlots (c : Ctx) : List VlWrite :=
  if c.f.d.toNat = 240 then [] else c.lanes.map fun e =>
    if fibrePending c e.1 e.2 (fibreNo c.f.a.toNat) then
      { c.vlPut e.1 e.2 0 with
        vals := (List.range (c.regs .d)).map fun i => freeWord c.s (2 ^ 20 + (e.1.pos * 4 + e.2) * 2 + i) }
    else c.vlPut e.1 e.2 0
def zvalWrites (c : Ctx) (accs : List Acc) : List VlWrite := (zvalSlots c).filter fun w => accs.any fun a => a.pos == w.pos
def zvalRest (c : Ctx) (accs : List Acc) (s : State) : State :=
  let still := c.guarded.filter fun p => !(accs.any fun a => a.pos == p)
  if c.f.d.toNat = 240 || still.isEmpty then s
  else issueLater s c true still { writes := (zvalSlots c).filter fun w => !(accs.any fun a => a.pos == w.pos) }

def execZval (f : Fields) (s : State) : Host.Outcome State Fault Refusal :=
  issue (.zval f) s fun c =>
    let k := fibreNo c.f.a.toNat
    let d := c.f.d.toNat
    let r := zvalLanes c k c.lanes c.s
    let q := deciders c.guarded (r.2.map fun e => e.1)
    if !q.1.isEmpty then .trap r.1 q.1
    else if !q.2.isEmpty then .walk r.1 q.2
    else
      let accs := zvalAccs c r.2
      if accs.isEmpty then .done (zvalRest c accs r.1)
      else (makeAccesses r.1 c (d != 240) accs (zvalWrites c accs)).map (zvalRest c accs)

end Sys2Proof.Machine
end

