-- ==== Sys2Proof/Machine/Matrix.lean ====
section
/-! DEFINITION. Issue to the matrix unit (R383–R390): reservations, MXFENCE, MXISSUE, MXDRAIN, and accumulator
slots. The operation itself stands in MatrixUnit.lean. -/

namespace Sys2Proof.Machine

/-! ## Reservations (R336–R339, R383, R384) -/

def State.resv (s : State) (core r : Nat) : Resv := (s.core core).resvs.getD r Resv.none
def State.setResv (s : State) (core r : Nat) (h : Resv → Resv) : State :=
  s.setCore core fun k => { k with resvs := updAt r h k.resvs }

/-- The most terms of a format; 0 for one that no term side takes (R35, R337). -/
def maxTerms (fmt : Nat) : Nat :=
  match fmt with
  | 17 => 2
  | 19 => 2
  | 15 => 2
  | 16 => 3
  | 13 => 3
  | 14 => 2
  | 1 => 4
  | 11 => 6
  | 12 => 5
  | 18 => 3
  | _ => 0

/-- The permitted combinations. -/
def comboOk (wside : Bool) (fmt sfmt lblk : Nat) : Bool :=
  if sfmt = 0 then lblk == 0 && (fmt == 1 || fmt == 19 || (10 ≤ fmt && fmt ≤ 17)) && !(wside && fmt == 10)
  else lblk != 0 && blockFormatOk fmt sfmt (lblkOf lblk) && (fmt != 18 || wside)

/-- A reservation from a specification and an offset. -/
def resvOf (wside : Bool) (spec soff : Nat) : Resv where
  valid := true
  wside := wside
  zskip := bitOf spec 61
  cap := fld spec 59 57
  fmt := fld spec 56 52
  sfmt := fld spec 51 49
  lblk := fld spec 48 47
  len := fld spec 40 27
  base := fld spec 19 0
  soff := soff
  ovr := false
  releasing := false
  stamp := 0

/-- The scale region is a part of the range of its own. -/
def Resv.scaled (r : Resv) : Bool := r.sfmt == 1 || r.sfmt == 2 || r.sfmt == 4

/-- MXRES accepts a record (R383). -/
def resvOk (s : State) (core k : Nat) (spec : Nat) (r : Resv) : Bool :=
  !(s.resv core k).valid && fld spec 63 62 == 0 && !bitOf spec 60 && fld spec 46 41 == 0 && fld spec 26 20 == 0 &&
  comboOk r.wside r.fmt r.sfmt r.lblk && (!r.zskip || (r.sfmt == 1 || r.sfmt == 3) && zskipOn s) &&
  (if r.wside then 1 ≤ r.cap && r.cap ≤ maxTerms r.fmt else r.cap == 0) &&
  1 ≤ r.len && r.base % 128 == 0 && r.base + 128 * r.len ≤ 2 ^ 20 &&
  (s.core core).resvs.all (fun q => !q.valid || q.base + 128 * q.len ≤ r.base || r.base + 128 * r.len ≤ q.base) &&
  r.soff % 16 == 0 && r.soff ≤ 128 * r.len && (r.scaled || r.soff == 128 * r.len) &&
  1 ≤ r.nk && (!r.scaled || 128 * r.nk ≤ 128 * r.len - r.soff)

/-- The stored image of a term side is cleared, but for the scale rows of NX, whose bytes its logical blocks keep. -/
def clearImage (s : State) (core : Nat) (r : Resv) : State :=
  let lo := opMem core r.base
  let n := r.nk * r.stored
  let mem := s.mem.filter fun c => !(lo ≤ c.1 && c.1 < lo + n && !(r.sfmt == 3 && (c.1 - lo) % r.stored < 128))
  let key := opKey core r.base
  let room := r.nk * 128 * r.blockBytes
  let logic := s.opLogic.filter fun c => !(key ≤ c.1 && c.1 < key + room)
  let logic := if r.sfmt = 3 then
      (List.range (128 * r.nk)).foldl (fun t b =>
        tabPut 0#8 t (key + b * r.blockBytes) (tabGet 0#8 mem (lo + b / 128 * r.stored + b % 128))) logic
    else logic
  { s with mem := mem, opLogic := logic, opStamp := tabPuts 0 s.opStamp key (List.replicate room s.tick)
           opBy := tabPuts 0 s.opBy key (List.replicate room 0) }

def mxres (c : Ctx) (wside : Bool) : Body :=
  groupOnly c fun e =>
    let spec := c.src e.1 e.2 c.f.a.toNat 2 8
    let r := resvOf wside spec (c.src e.1 e.2 c.f.b.toNat 1 7)
    let k := c.f.c.toNat % 16
    if c.mustWait then .stall c.s
    else if !resvOk c.s c.g.core k spec r then trapFirst c .resv
    else
      let s := if wside then clearImage c.s c.g.core r else c.s
      .done (s.setResv c.g.core k fun _ => { r with stamp := s.tick })

def execMxresX (f : Fields) (s : State) : Host.Outcome State Fault Refusal := issue (.mxresX f) s fun c => mxres c false
def execMxresW (f : Fields) (s : State) : Host.Outcome State Fault Refusal := issue (.mxresW f) s fun c => mxres c true

/-- MXREL, at once or at the completion of the operations that read the record (R354, R384). -/
def execMxrel (f : Fields) (s : State) : Host.Outcome State Fault Refusal :=
  issue (.mxrel f) s fun c => groupOnly c fun _ =>
    let k := c.f.c.toNat % 16
    let r := c.s.resv c.g.core k
    if c.mustWait then .stall c.s
    else if !r.valid || r.releasing then trapFirst c .resv
    else if (opsReading c.s c.g.core k).isEmpty then .done (c.s.setResv c.g.core k fun _ => Resv.none)
    else .done (c.s.setResv c.g.core k fun r => { r with releasing := true })

/-- MXFENCE: the recoder has taken every write made before this step, a copy's if the thread has observed its completion
(R343, R385). -/
def execMxfence (f : Fields) (s : State) : Host.Outcome State Fault Refusal :=
  issue (.mxfence f) s fun c =>
    if c.lanes.isEmpty then .done c.s
    else if c.isTask then
      trapLanes c.s (c.lanes.map fun e => (e.1, e.2, .resv, 0))
    else if c.mustWait then .stall c.s
    else .done (c.lanes.foldl (fun s e => s.updLane c.g.core c.g.slot e.1.pos e.2 fun t =>
      { t with fence := { t.fence with stamp := some s.tick, fenced := t.fence.seen } }) c.s)

/-! ## MXISSUE and MXDRAIN (R388–R390) -/

/-- K positions that a record holds (R339). -/
def Resv.held (r : Resv) : Nat := r.nk * r.lr

/-- MXISSUE accepts a parameter value. -/
def issueOk (s : State) (core : Nat) (x : Slice) (p : Nat) : Bool :=
  let rx := s.resv core (fld p 3 0)
  let rw := s.resv core (fld p 7 4)
  let k := fld p 27 16 + 1
  fld p 31 28 == 0 && fld p 15 10 == 0 && (x.bind.getD (fld p 9 8) none).isSome && rx.valid && !rx.wside && rw.valid && rw.wside &&
  !rx.releasing && !rw.releasing && k % rx.lr == 0 && k % rw.lr == 0 && fld p 47 32 % rx.lr == 0 && fld p 63 48 % rw.lr == 0 &&
  fld p 47 32 + k ≤ rx.held && fld p 63 48 + k ≤ rw.held

/-- The operation of a parameter value: the records, their K bases, K, and the slot. -/
def mxOp (c : Ctx) (e : Slice × Nat) (p : Nat) : EngineOp :=
  { newOp c e .mxissue 0 [fld p 3 0, fld p 7 4, fld p 47 32, fld p 63 48, fld p 27 16 + 1] with
    slot := (e.1.bind.getD (fld p 9 8) none).getD 0, fence := (e.1.lane e.2).fence }

def execMxissue (f : Fields) (s : State) : Host.Outcome State Fault Refusal :=
  issue (.mxissue f) s fun c => groupOnly c fun e =>
    let p := c.src e.1 e.2 c.f.a.toNat 2 8
    if c.mustWait then .stall c.s
    else if !issueOk c.s c.g.core e.1 p then trapFirst c .resv
    else
      startOp c c.s (mxOp c e p)

def mxdrain (c : Ctx) : Body :=
  withDesc c fun e a => groupOnly c fun _ =>
    match e.1.bind.getD (c.f.aux.toNat % 4) none with
    | none => trapFirst c .resv
    | some slot => startSeeded c e { newOp c e .mxdrain a [] with slot := slot }

def execMxdrain (f : Fields) (s : State) : Host.Outcome State Fault Refusal := issue (.mxdrain f) s mxdrain
def execMxdrainRaw (f : Fields) (s : State) : Host.Outcome State Fault Refusal := issue (.mxdrainRaw f) s mxdrain
def execMxdrainMx (f : Fields) (s : State) : Host.Outcome State Fault Refusal := issue (.mxdrainMx f) s mxdrain

/-! ## Accumulator slots (R350, R386, R387) -/

/-- First byte of a slot in the memory table. -/
def slotMem (core slot : Nat) : Nat := windowBase core + 0x400000 + slot * 0x28000

/-- Every element of a slot at the all-zero encoding. -/
def clearSlot (s : State) (core slot : Nat) : State :=
  { s with mem := s.mem.filter fun c => !(slotMem core slot ≤ c.1 && c.1 < slotMem core slot + 0x28000) }

/-- Bind handle m of every slice of the sub-gang. -/
def bindAll (s : State) (c : Ctx) (m : Nat) (b : Option Nat) : State :=
  c.slices.foldl (fun s x => s.updSlice c.g.core c.g.slot x.pos fun x => { x with bind := updAt m (fun _ => b) x.bind }) s

def execTalloc (f : Fields) (s : State) : Host.Outcome State Fault Refusal :=
  issue (.talloc f) s fun c => groupOnly c fun _ =>
    let m := c.f.c.toNat % 4
    if c.mustWait then .stall c.s
    else if c.slices.any fun x => (x.bind.getD m none).isSome then trapFirst c .resv
    else match (List.range 4).find? fun k => !(c.s.core c.g.core).slots.getD k false with
      | none => trapFirst c .resv
      | some k =>
        let s := clearSlot c.s c.g.core k
        .done (bindAll (s.setCore c.g.core fun q => { q with slots := q.slots.set k true }) c m (some k))

def execTfree (f : Fields) (s : State) : Host.Outcome State Fault Refusal :=
  issue (.tfree f) s fun c => groupOnly c fun _ =>
    let m := c.f.c.toNat % 4
    if c.mustWait then .stall c.s
    else if c.slices.any fun x => (x.bind.getD m none).isNone then trapFirst c .resv
    else .done (sweepSlots (bindAll c.s c m none) c.g.core)

end Sys2Proof.Machine
end

