-- ==== Sys2Proof/Machine/MatrixUnit.lean ====
section
/-! DEFINITION. The matrix unit's operation (R344–R349, R353, R354): the term stage's times, the exact partial sums,
the block-scale stage, the counters, and MATRIX_OP_START and MATRIX_OP_COMPLETE. -/

namespace Sys2Proof.Machine

/-! ## Operands as the unit reads them -/

/-- An operand element: k · 2^p, or special. -/
inductive Opd where
  | nan
  | inf (neg : Bool)
  | num (k p : Int)
  deriving DecidableEq, Repr

def Opd.special : Opd → Bool
  | .num _ _ => false
  | _ => true

/-- A W element: the sum of its kept terms, or its mark (R347). -/
def Recoded.opd : Recoded → Opd
  | .nan _ => .nan
  | .inf n => .inf n
  | .terms ts =>
    let p := basePower [.terms ts]
    .num (ts.foldl (fun a t => a + (if t.neg then -1 else 1) * 2 ^ (t.power - p).toNat) 0) p

/-- An X element with its micro-exponent. -/
def xOpd (fmt micro code : Nat) : Opd :=
  match elemVal fmt code with
  | .nan _ => .nan
  | .inf n => .inf n
  | .zero _ => .num 0 0
  | .fin n m e => .num (if n then -(m : Int) else m) (e - micro)

/-- One block of a side: its scale, its elements, and how many terms each takes. -/
structure SideBlock where
  scale : Scale
  els : List Opd
  cnts : List Nat
  deriving Repr

def SideBlock.special (b : SideBlock) : Bool := b.els.any Opd.special

/-- The scale of a code, with the 2^−6 of MXINT8 (R348). -/
def sideScale (r : Resv) (code : Nat) : Scale :=
  match scaleOf r.sfmt r.zskip code with
  | .val m e => .val m (e - (if r.fmt = 1 && r.sfmt = 1 then 6 else 0))
  | z => z

/-- Block b of a reservation; an overrange block holds no term (R342). -/
def sideBlock (s : State) (core : Nat) (r : Resv) (b : Nat) : SideBlock :=
  let bs := if r.wside then logicBlock s core r b
    else tabGets 0#8 s.mem (opMem core (r.base + b * r.blockBytes)) r.blockBytes
  let code := if r.sfmt = 3 then bs.getD 0 0 else tabGet 0#8 s.mem (opMem core (r.base + r.soff + b))
  let scale := sideScale r code.toNat
  if r.wside then
    let rs := recodedBlock s core r b
    let rs := if overrange rs then rs.map fun _ => Recoded.terms [] else rs
    ⟨scale, rs.map Recoded.opd, rs.map fun q => match q with | .terms ts => ts.length | _ => 1⟩
  else ⟨scale, (blockCodes r bs).map fun c => xOpd r.fmt c.2 c.1, []⟩

/-- The 128 blocks of K-block kb. -/
def sideBlocks (s : State) (core : Nat) (r : Resv) (kb : Nat) : List SideBlock :=
  (List.range 128).map fun i => sideBlock s core r (kb * 128 + i)

/-! ## An operation's parts -/

def EngineOp.rx (o : EngineOp) (s : State) : Resv := s.resv o.core (o.args.getD 0 0)
def EngineOp.rw (o : EngineOp) (s : State) : Resv := s.resv o.core (o.args.getD 1 0)
def EngineOp.k0 (o : EngineOp) (wside : Bool) : Nat := o.args.getD (if wside then 3 else 2) 0
def EngineOp.depth (o : EngineOp) : Nat := o.args.getD 4 0

/-- The K-block length (R335). -/
def opLk (s : State) (o : EngineOp) : Nat := min (o.rx s).lr (o.rw s).lr
def opBlocks (s : State) (o : EngineOp) : Nat := o.depth / opLk s o

/-- The pack kp of the X side (R337). -/
def packOf (fmt : Nat) : Nat :=
  if fmt = 17 || fmt = 19 then 8 else if fmt = 10 then 1 else if fmt = 11 || fmt = 12 then 2 else 4

/-- One K-block of an operation: the 128 W columns and X rows, restricted to its positions, with the specials of
their whole blocks. -/
structure Piece where
  scale : Scale
  special : Bool
  els : List Opd
  cnts : List Nat
  deriving Repr

def pieces (s : State) (o : EngineOp) (r : Resv) (wside : Bool) (b : Nat) : List Piece :=
  let lk := opLk s o
  let k := o.k0 wside + b * lk
  (sideBlocks s o.core r (k / r.lr)).map fun q =>
    ⟨q.scale, q.special, (q.els.drop (k % r.lr)).take lk, (q.cnts.drop (k % r.lr)).take lk⟩

/-! ## The term stage (R344, R345, R353) -/

/-- The eight columns of group g. -/
def groupCols (ps : List Piece) (g : Nat) : List Piece := (ps.drop (8 * g)).take 8

def Piece.zero (p : Piece) : Bool := p.scale == .zero

/-- A K-block is skipped for a group (R348). -/
def skippedFor (ps : List Piece) (g : Nat) : Bool := (groupCols ps g).all fun p => p.zero && !p.special

/-- The largest count in one column's part of a pack. -/
def colCount (kp n : Nat) (p : Piece) : Nat := ((p.cnts.drop (n * kp)).take kp).foldl max 0

/-- One pack: each group's clks, the lane-clks idle for want of terms, and the groups that skip it. -/
structure Pack where
  ts : List Nat
  idle : Nat
  skipped : Nat
  deriving DecidableEq, Repr

def packAt (kp : Nat) (ps : List Piece) (n : Nat) : Pack :=
  let gs := (List.range 16).map fun g =>
    if skippedFor ps g then (0, 0, 0)
    else
      let cs := (groupCols ps g).map (colCount kp n)
      let t := cs.foldl max 0
      (t, (cs.map fun c => 128 * (t - c)).foldl (· + ·) 0, b2n (t == 0))
  ⟨gs.map fun q => q.1, (gs.map fun q => q.2.1).foldl (· + ·) 0, (gs.map fun q => q.2.2).foldl (· + ·) 0⟩

/-- Every pack of an operation, in order of k. -/
def opPacks (s : State) (o : EngineOp) : List Pack :=
  let kp := packOf (o.rx s).fmt
  (List.range (opBlocks s o)).flatMap fun b =>
    let ps := pieces s o (o.rw s) true b
    (List.range (opLk s o / kp)).map (packAt kp ps)

/-- The times of the packs: each group's finish of the packs so far, newest first, and the clks spent waiting under
the 16-pack bound. -/
def runPacks (start : Nat) : List Pack → List (List Nat) → Nat → List (List Nat) × Nat
  | [], fin, wait => (fin, wait)
  | p :: ps, fin, wait =>
    let prev := fin.headD (List.replicate 16 start)
    let bound := (fin.getD 15 []).foldl max 0
    let begins := prev.map fun f => max f bound
    runPacks start ps (List.zipWith (· + ·) begins p.ts :: fin) (wait + (List.zipWith (· - ·) begins prev).foldl (· + ·) 0)

/-- E: the first clk after the term stage. -/
def opEnd (s : State) (o : EngineOp) (start : Nat) : Nat :=
  ((runPacks start (opPacks s o) [] 0).1.headD [start]).foldl max start

/-- An operation's additions to the counters: TERMS, TLCLK, SYNCIDLE, SKIPPACK, SKIPBLK. -/
structure TermCounts where
  terms : Nat
  tlclk : Nat
  syncidle : Nat
  skippack : Nat
  skipblk : Nat
  deriving DecidableEq, Repr

def opCounts (s : State) (o : EngineOp) : TermCounts :=
  let packs := opPacks s o
  let sum := fun (l : List Nat) => l.foldl (· + ·) 0
  let blocks := (List.range (opBlocks s o)).map (pieces s o (o.rw s) true)
  let terms := fun (p : Piece) => sum ((p.els.zip p.cnts).map fun e => if e.1.special then 0 else e.2)
  { terms := sum (blocks.flatMap fun ps => (List.range 16).map fun g =>
      if skippedFor ps g then 0 else sum ((groupCols ps g).map terms)),
    tlclk := 1024 * sum (packs.map fun p => sum p.ts),
    syncidle := sum (packs.map fun p => p.idle) + 1024 * (runPacks 0 packs [] 0).2,
    skippack := sum (packs.map fun p => p.skipped),
    skipblk := sum (blocks.map fun ps => ((List.range 16).filter (skippedFor ps)).length) }

/-! ## Partial sums and contributions (R347–R349) -/

/-- The product of two elements. -/
def Opd.times (w x : Opd) : Contrib :=
  match w, x with
  | .nan, _ => .nan
  | _, .nan => .nan
  | .inf a, .inf b => .inf (a != b)
  | .inf a, .num k _ => if k = 0 then .nan else .inf (a != decide (k < 0))
  | .num k _, .inf b => if k = 0 then .nan else .inf (b != decide (k < 0))
  | .num k p, .num l q => .fin (k * l) (p + q)

/-- The exact sum of two terms of a partial sum. -/
def Contrib.plus (a b : Contrib) : Contrib :=
  match a, b with
  | .nan, _ => .nan
  | _, .nan => .nan
  | .inf m, .inf n => if m = n then .inf m else .nan
  | .inf m, .fin _ _ => .inf m
  | .fin _ _, .inf n => .inf n
  | .fin k p, .fin l q =>
    if k = 0 then .fin l q else if l = 0 then .fin k p
    else
      let u := min p q
      .fin (k * 2 ^ (p - u).toNat + l * 2 ^ (q - u).toNat) u

def partialSum (ws xs : List Opd) : Contrib :=
  (List.zipWith Opd.times ws xs).foldl Contrib.plus (.fin 0 0)

/-- The contribution of one K-block to one element; none when the block is skipped for it. -/
def contribution (w x : Piece) : Option Contrib :=
  match w.scale, x.scale with
  | .nan, _ => some .nan
  | _, .nan => some .nan
  | .val m e, .val n f =>
    some (match partialSum w.els x.els with
      | .fin k p => .fin (k * m * n) (p + e + f)
      | c => c)
  | _, _ => if w.special || x.special then some .nan else none

/-- One element's contributions in K-block order. -/
def applyAll (a : Acc80) (cs : List (Option Contrib)) : Acc80 :=
  (cs.foldl (fun (q : Cell80) c => match c with | some c => q.add c | none => q) ⟨a, !a.unplaced⟩).acc

/-! ## What is unpredictable (R289) -/

/-- A byte of the operand buffer that the operation may not rely on. -/
def staleByte (s : State) (o : EngineOp) (key : Nat) : Bool :=
  match o.fence.stamp with
  | none => true
  | some t =>
    let st := tabGet 0 s.opStamp key
    let by_ := tabGet 0 s.opBy key
    decide (t < st) || by_ != 0 && !o.fence.fenced.contains by_ || s.opSpoilt.any fun e => decide (e.1 ≤ key) && decide (key < e.2.1) && decide (st ≤ e.2.2)

/-- Row i of X, or column i of W, has an element or scale that is stale in the operation's depth. -/
def staleLine (s : State) (o : EngineOp) (r : Resv) (wside : Bool) (i : Nat) : Bool :=
  let k0 := o.k0 wside
  (List.range ((k0 + o.depth - 1) / r.lr + 1 - k0 / r.lr)).any fun n =>
    let b := (k0 / r.lr + n) * 128 + i
    (List.range r.blockBytes).any (fun j => staleByte s o (opKey o.core (r.base + b * r.blockBytes + j))) ||
    (r.scaled && staleByte s o (opKey o.core (r.base + r.soff + b)))

/-! ## The two steps -/

/-- Operations of a core's matrix unit, in issue order. -/
def unitOps (s : State) (core : Nat) : List EngineOp := s.ops.filter fun o => o.kind == .mxissue && o.core == core

/-- The operation whose term stage starts next. -/
def mxNext (s : State) (core : Nat) : Option EngineOp := (unitOps s core).find? fun o => !o.started

/-- MATRIX_OP_START: the term stage starts in the clk after the issue, or at the E of the operation before it. -/
def execMatrixOpStart (core : Nat) (s : State) : Host.Outcome State Fault Refusal :=
  match mxNext s core with
  | none => .next s
  | some o =>
    let last := ((unitOps s core).filter fun q => q.started).foldl (fun m q => max m q.due) 0
    .next (s.updOp o.id fun q => { q with started := true, due := opEnd s o (max (o.since + 1) last) })

/-- An operation on a slot that comes before another. -/
def slotFirst (s : State) (o : EngineOp) : Bool := (opsOnSlot s o.core o.slot).all fun q => decide (o.id ≤ q.id)

/-- An operation may make its completion action: 24 clk after its term stage, in order. -/
def mxDone (s : State) (o : EngineOp) : Bool :=
  o.started && decide (o.due + 24 ≤ s.clk) && (mxNext s o.core).isNone && slotFirst s o &&
  (unitOps s o.core).all fun q => decide (o.id ≤ q.id)

/-- The slot's bytes after the operation. -/
def slotAfter (s : State) (o : EngineOp) : List Byte :=
  let rx := o.rx s
  let rw := o.rw s
  let n := opBlocks s o
  let ws := (List.range n).map (pieces s o rw true)
  let xs := (List.range n).map (pieces s o rx false)
  let badX := (List.range 128).map (staleLine s o rx false)
  let badW := (List.range 128).map (staleLine s o rw true)
  (List.range 128).flatMap fun i => (List.range 128).flatMap fun j =>
    natToBytes 10
      (if o.spoilt || badX.getD i true || badW.getD j true then (Config.freeBits s.fresh (2 ^ 68 + 128 * i + j)).toNat % 2 ^ 80
       else (applyAll (slotElem s o.core o.slot i j) (List.zipWith (fun w x =>
         match w[j]?, x[i]? with
         | some w, some x => contribution w x
         | _, _ => none) ws xs)).bits)

/-- The first K-block that holds an overrange block. -/
def firstOver (s : State) (o : EngineOp) : Option Nat :=
  let r := o.rw s
  (List.range (opBlocks s o)).find? fun b =>
    let kb := (o.k0 true + b * opLk s o) / r.lr
    r.fmt == 12 && (List.range 128).any fun j => overrange (recodedBlock s o.core r (kb * 128 + j))

/-- A record whose release waited is cleared when no operation reads it. -/
def settleResv (s : State) (core k : Nat) : State :=
  if (s.resv core k).releasing && (opsReading s core k).isEmpty then s.setResv core k fun _ => Resv.none else s

/-- An operation is gone. -/
def dropOp (s : State) (id : Nat) : State :=
  { s.hear (((s.op? id).map fun o => o.pts).getD 0) with ops := s.ops.filter fun q => q.id != id }

def countTerms (s : State) (core : Nat) (n : TermCounts) : State :=
  s.setCore core fun k => { k with
    terms := k.terms + n.terms, tlclk := k.tlclk + n.tlclk, syncidle := k.syncidle + n.syncidle,
    skippack := k.skippack + n.skippack, skipblk := k.skipblk + n.skipblk }

/-- A matrix operation's end: its slot is written, its terms are counted, and the reservations and slots that waited for it
are given up (R346, R349, R384). -/
def mxWritten (s : State) (o : EngineOp) : State :=
  let bytes := slotAfter s (if (firstOver s o).isSome then { o with spoilt := true } else o)
  let t := { s with mem := tabPuts 0#8 s.mem (slotMem o.core o.slot) bytes }
  let t := dropOp (countTerms t o.core (opCounts s o)) o.id
  sweepSlots (settleResv (settleResv t o.core (o.args.getD 0 0)) o.core (o.args.getD 1 0)) o.core

/-- MATRIX_OP_COMPLETE (R342, R346, R353, R354). -/
def execMatrixOpComplete (op : Nat) (s : State) : Host.Outcome State Fault Refusal :=
  match s.op? op with
  | none => .next s
  | some o =>
    if o.kind != .mxissue || !mxDone s o then .next s
    else
      let s := { s with fresh := s.fresh + 1 }
      .next (match firstOver s o with
        | some b => completeFut (mxWritten s o) o.die o.handle 3 b
        | none => completeFut (mxWritten s o) o.die o.handle 0 (opBlocks s o))

end Sys2Proof.Machine
end

