-- ==== Sys2Proof/Machine/EngineSteps.lean ====
section
/-! DEFINITION. The steps of engine operations other than the matrix unit's (R287, R288, R360–R372, R390–R394):
one unit access, and the completion actions. -/

namespace Sys2Proof.Machine

/-! ## When an operation can go on -/

/-- Every write of an operation to another module has been acknowledged. -/
def opAcked (s : State) (o : EngineOp) : Bool := tabGet 0 s.acks (whoKey (.engine o.id)) == 0

/-- Reads of the descriptor that are still to be made. -/
def descLeft (o : EngineOp) : List (Nat × Nat × Nat) :=
  unread o descRow (readUnits 0 (descReads o))

/-- The operation's descriptor is malformed, or cannot be used: it will complete FAILED with PROGRESS 0 and no
action (R362). -/
def malformed (s : State) (o : EngineOp) : State :=
  s.updOp o.id fun o => { o with limit := some 0, fail := some (0, 3, .engerr, 0), words := none, started := true }

/-- Make one read of the descriptor. -/
def descUnit (s : State) (o : EngineOp) : State :=
  if !o.asked.isEmpty then s
  else match pickFree s 2 (descLeft o) with
    | some u => unitRead { s with fresh := s.fresh + 1 } o 8 descRow (inAddressOrder s o (fun u => u.2.1) (descLeft o) u)
    | none => s

/-! ## The destination of a copy that sets full-empty bits (R362) -/

/-- Pieces of a range that lie in one 64 KiB page. -/
def pagePieces (a n : Nat) : List (Nat × Nat) :=
  if n = 0 then [] else
    (List.range ((a + n - 1) / 0x10000 + 1 - a / 0x10000)).map fun i =>
      let lo := max a (0x10000 * (a / 0x10000 + i))
      (lo, min (a + n) (0x10000 * (a / 0x10000 + i + 1)) - lo)

inductive DestCheck where
  | ok | walk (va : Nat) | bad
  deriving DecidableEq, Repr

/-- Check a piece: a translation fault is met later, at its row. -/
def destCheck (o : EngineOp) : List (Nat × Nat) → State → State × DestCheck
  | [], s => (s, .ok)
  | (a, n) :: r, s =>
    match engineXlate s o a 8 with
    | (s, .walk) => (s, .walk a)
    | (s, .fault _ _) => destCheck o r s
    | (s, .at_ pa t) =>
      let good : Bool := match t with
        | some t => inScratch s t && (match ownPlace s { t with pa := pa + (n - 1) } with
          | some p => p.region == .scratch && decide (p.off < spBase s p.core)
          | none => true)
        | none => true
      if good then destCheck o r s else (s, .bad)

/-- The rows of elements that an operation writes. -/
def destRows (j : Job) : List (Nat × Nat) :=
  (List.range j.rows).flatMap fun r => ((j.outs r).take 1).map fun u => (u.va, u.bytes.length)

/-- Start the work of a descriptor that has passed its checks. -/
def startWork (s : State) (o : EngineOp) (ws : List W64) : State :=
  if (actOf o ws).1 = 2 then
    match destCheck o ((destRows (jobOf s o ws)).flatMap fun p => pagePieces p.1 p.2) s with
    | (s, .ok) => s.updOp o.id fun o => { o with started := true }
    | (s, .walk va) => engineWalk s o va
    | (s, .bad) => malformed s o
  else s.updOp o.id fun o => { o with started := true }

/-! ## Compaction (R371, R372, R398, R399) -/

/-- Ring and stages that a compaction descriptor names. -/
def compactRing (ws : List W64) : Nat := fld (wordAt ws 4) 42 40
def compactSlots (ws : List W64) : Nat := fld (wordAt ws 4) 35 32 + 1

def compactOk (s : State) (core : Nat) (ws : List W64) : Bool :=
  let r := s.ring core (compactRing ws)
  fld (wordAt ws 3) 63 46 == 0 && compactBytes ws % 16 == 0 && 16 ≤ compactBytes ws && compactBytes ws ≤ 8192 &&
  fld (wordAt ws 4) 31 20 == 0 && fld (wordAt ws 4) 39 36 == 0 && fld (wordAt ws 4) 63 43 == 0 && wordAt ws 7 == 0 &&
  r.valid && r.ns == compactSlots ws

/-- The group that an operation belongs to still holds its core. -/
def groupHere (s : State) (o : EngineOp) : Bool := (s.core o.core).group == o.group

def State.setCompact (s : State) (core : Nat) (h : Compact → Compact) : State :=
  s.setCore core fun k => { k with compact := h k.compact }

/-- A token's mark: the operation that appended it. -/
def fillerOf (t : Nat × Nat) : Nat := t.2 / 2 ^ 16

/-- A failure of one token. -/
def tokenFail (s : State) (o : EngineOp) (code : Nat) (cause : Cause) (addr : Nat) : State :=
  s.updOp o.id fun o => { o with
    started := true, fail := some (o.progress, code, cause, addr),
    limit := some ((o.toks.take o.progress).filter fun t => !t.2).length }

/-- The count of the bypass list is raised by one read-modify-write: here or at an owned copy, or at its home by an atomic
whose answer is its old value (R307, R372). -/
def raiseCount (s : State) (o : EngineOp) (pa : Nat) (t : Option Xlt) : State :=
  let who := ReqFor.engine o.id
  if isOwn s pa || (match copyAt s o.die pa with | some c => c.excl | none => false) then
    let r := engineRead s ((s.op? o.id).getD o) pa 8
    let n := bytesToNat r.2.1
    let w := engineWrite r.1 { o with pts := r.2.2 } pa (natToBytes 8 ((n + 1) % 2 ^ 64)) (match t with | some t => memTypeOf t | none => 0)
    w.1.updOp o.id fun o => { o with pts := max o.pts w.2, count := some n }
  else
    let m := { mkMsg s o.die who (nodeOf pa) s.nextId o.pts pa with arg := 32 * 8, data := natToBytes 8 1 ++ natToBytes 8 0 }
    let q : Req := ⟨s.nextId, o.die, who, 4, nodeOf pa, pa, none, none, m, true, 0⟩
    State.updOp { s with nextId := s.nextId + 1, reqs := s.reqs ++ [q] } o.id fun o => { o with asked := o.asked ++ [⟨s.nextId, descRow, 2 ^ 20, 0, pa, 8⟩] }

/-- One access of the bypass list; `go` makes it at its physical address. A store waits for a D bit set at another home. -/
def listTouch (s : State) (o : EngineOp) (va n need : Nat) (go : State → Nat → Option Xlt → State) : State :=
  let who := ReqFor.engine o.id
  match engineXlate s o va need with
  | (s, .walk) => engineWalk s o va
  | (s, .fault code cause) => tokenFail s o code cause va
  | (s, .at_ pa t) =>
    match engineLine s o pa n true with
    | .fault c =>
      let s := if c = .memerr && badAt s o.die pa n then noteBad s o.die pa else s
      tokenFail (clearFailed s who [pa]) o 3 c va
    | .ask => askLine s o.die who o.pts pa true
    | .here =>
      match t with
      | none => go s pa t
      | some x =>
        match dirtyFor s o.die who va x with
        | (s, .ok) => go s pa t
        | (s, .wait) => s
        | (s, .fail) => tokenFail s o 3 .engerr va

/-- Add a dropped token to the bypass list: one read-modify-write of the count, then the index it has made room for. -/
def bypassToken (s : State) (o : EngineOp) (ws : List W64) (x : Nat) : State :=
  let va := wordAt ws 6
  if !o.asked.isEmpty then s
  else match o.count with
    | none => listTouch s o va 8 12 fun s pa t => raiseCount s o pa t
    | some n =>
      listTouch s o ((va + 8 + 4 * n) % 2 ^ 64) 4 8 fun s pa t =>
        let w := engineWrite s ((s.op? o.id).getD o) pa (natToBytes 4 x) (match t with | some t => memTypeOf t | none => 0)
        w.1.updOp o.id fun o => { o with pts := max o.pts w.2, progress := o.progress + 1, count := none }

/-- Take the next token of a CPACT, or find that all are taken. -/
def takeToken (s : State) (o : EngineOp) (ws : List W64) : State :=
  match o.toks[o.progress]? with
  | none => s.updOp o.id fun o => { o with started := true }
  | some (x, true) =>
    (s.setCompact o.core fun k => { k with tile := k.tile ++ [(x, o.id * 2 ^ 16 + o.progress)] }).updOp o.id fun o =>
      { o with progress := o.progress + 1 }
  | some (x, false) => bypassToken s o ws x

/-- The turn of a CPACT: find the latched descriptor, or read and latch its own, then take tokens. -/
def compactTurn (s : State) (o : EngineOp) : State :=
  if !groupHere s o then malformed s o
  else match o.words with
    | some ws => takeToken s o ws
    | none =>
      match (s.core o.core).compact.desc with
      | some d => s.updOp o.id fun o => { o with words := some d.2 }
      | none =>
        if !(descLeft o).isEmpty then descUnit s o
        else
          let ws := words64 (rowBytes o descRow 64)
          if compactOk s o.core ws then
            (s.setCompact o.core fun k => { k with desc := some (o.desc, ws) }).updOp o.id fun o => { o with words := some ws }
          else malformed s o

/-- The turn of a CPFL: pad the current tile, or find it empty. -/
def flushTurn (s : State) (o : EngineOp) : State :=
  let k := (s.core o.core).compact
  if !groupHere s o then malformed s o
  else if k.tile.any fun t => fillerOf t == o.id then s
  else if k.tile.length % 128 = 0 then s.updOp o.id fun o => { o with started := true }
  else s.setCompact o.core fun k => { k with
    tile := k.tile ++ List.replicate (128 - k.tile.length % 128) (padToken, o.id * 2 ^ 16) }

/-! ## ENGINE_UNIT_ACCESS (R287) -/

/-- A token operation whose turn it is. -/
def compactFirst (s : State) (o : EngineOp) : Bool :=
  match untaken s o.core with
  | q :: _ => q.id == o.id
  | [] => false

/-! ## Rows into a peer submission window (R450) -/

/-- A place in a submission window (R450). -/
def peerPlace (pa : Nat) : Bool := 0xc0000800000 ≤ localOf pa && localOf pa < 0xc0001000000

/-- A row that travels as one LAUNCH message: 128 bytes, aligned, to another module's submission windows. -/
def peerRow (s : State) (o : EngineOp) (j : Job) (r : Nat) : Option Nat :=
  match j.outs r with
  | u :: _ =>
    if u.bytes.length != 128 then none
    else match (engineXlate s o u.va 8).2 with
      | .at_ pa _ =>
        if !isOwn s pa && pa % 128 == 0 && peerPlace pa then some pa else none
      | _ => none
  | [] => none

/-- Rows of writes to another module that failed (R446); of the rows to one submission window, sent one by one, the last one sent. -/
def refusedRows (s : State) (o : EngineOp) : List Nat :=
  let hit := (o.put.zip o.dsts).filter fun e => s.failedPa.contains (whoKey (.engine o.id), lineOf e.2.1)
  ((hit.filter fun e => !peerPlace e.2.1).map fun e => e.1 / 2 ^ 40) ++
    (((hit.filter fun e => peerPlace e.2.1).getLast?).map fun e => e.1 / 2 ^ 40).toList

/-- The first row not done, when it is a peer row: read, and then sent once every earlier message is acknowledged. -/
def peerUnit (s : State) (o : EngineOp) (j : Job) (r pa : Nat) : State :=
  match refusedRows s o with
  | q :: _ => s.updOp o.id fun o => o.faultAt q 3 .engerr 0
  | [] =>
    match j.toRead o r with
    | _ :: _ => rowUnit s o { j with outs := fun _ => [] } r
    | [] =>
      if tabGet 0 s.acks (whoKey (.engine o.id)) != 0 then s
      else if !reachable s (nodeOf pa) then s.updOp o.id fun o => o.faultAt r 3 .engerr 0
      else
        let m := mkMsg s o.die (.engine o.id) (nodeOf pa) 0 o.pts pa
        let s := postMsg s (.engine o.id) 7 { m with data := rowBytes o r 128 }
        s.updOp o.id fun o => { o with
          put := o.put ++ (List.range 8).map fun i => rowKey r (16 * i)
          dsts := o.dsts ++ (List.range 8).map fun i => (pa + 16 * i, 16) }

/-- A copy's next unit: rows into peer windows go in row order, one at a time; others in any order. -/
def copyUnit (s : State) (o : EngineOp) (j : Job) : State :=
  let left := (List.range (j.end_ o)).filter fun r => !j.rowDone o r
  match left with
  | [] => jobUnit s o j
  | r :: _ =>
    match peerRow s o j r with
    | some pa => peerUnit s o j r pa
    | none =>
      match pickFree s 0 left with
      | some q => if (peerRow s o j q).isSome then rowUnit s o j r else rowUnit s o j q
      | none => s

/-- The work of an operation whose descriptor is known and started. -/
def workUnit (s : State) (o : EngineOp) (ws : List W64) : State :=
  match o.kind with
  | .ixwalk => if o.progress < (jobOf s o ws).end_ o then rowUnit s o (jobOf s o ws) o.progress else s
  | .cpy => copyUnit s o (jobOf s o ws)
  | _ => jobUnit s o (jobOf s o ws)

/-- One step of an operation's own work. -/
def opUnit (s : State) (o : EngineOp) : State :=
  match o.kind with
  | .mxissue => s
  | .cpfl => if !o.started && compactFirst s o then flushTurn s o else s
  | .cpact =>
    if o.started then (match o.words with | some ws => workUnit s o ws | none => s)
    else if o.fail.isSome then s.updOp o.id fun o => { o with started := true }
    else if compactFirst s o then compactTurn s o
    else s
  | _ =>
    if o.kind == .fetch && !o.reserved || o.kind == .mxdrain && !slotFirst s o then s
    else match o.words with
      | none =>
        if o.fail.isSome || o.limit.isSome then s
        else if !(descLeft o).isEmpty then descUnit s o
        else
          let ws := words64 (rowBytes o descRow (bytesIn (descReads o)))
          if descOk s o ws then s.updOp o.id fun o => { o with words := some ws } else malformed s o
      | some ws => if o.started then workUnit s o ws else startWork s o ws

/-- An earlier operation has the copy engine (R361). -/
def engineTaken (s : State) (o : EngineOp) : Bool := o.kind.copies && (onEngine s o.die o.unit).any fun q => decide (q.id < o.id)

def execEngineUnitAccess (op : Nat) (s : State) : Host.Outcome State Fault Refusal :=
  match s.op? op with
  | none => .next s
  | some o => if o.waitPage.isSome || engineTaken s o then .next s else .next (opUnit s o)

/-! ## Completion (R360, R362, R363) -/

/-- An operation whose remote writes failed meets the failure at the first of their rows. -/
def withFailures (s : State) (o : EngineOp) : EngineOp :=
  (refusedRows s o).foldl (fun o r => o.faultAt r 3 .engerr 0) o

/-- The work is over: nothing is left below the limit, and every write is acknowledged. -/
def workOver (s : State) (o : EngineOp) : Bool :=
  o.waitPage.isNone && opAcked s o &&
  (match o.words with
   | none => o.fail.isSome
   | some ws => o.started && (jobOf s o ws).allDone o)

/-- CODE, PROGRESS, cause and address with which an operation of rows ends. -/
def outcomeOf (s : State) (o : EngineOp) : Nat × Nat × Cause × Nat :=
  match o.fail, o.limit, o.words with
  | some f, _, none => (f.2.1, 0, f.2.2.1, f.2.2.2)
  | some f, _, some _ => (f.2.1, f.1, f.2.2.1, f.2.2.2)
  | none, some l, _ => (1, l, .engerr, 0)
  | none, none, some ws => (0, (jobOf s o ws).rows, .engerr, 0)
  | none, none, none => (0, 0, .engerr, 0)

/-- One byte that loses its value: here, in the copy its die owns, or at its home. -/
def freeByte (o : EngineOp) (s : State) (a : Nat) : State :=
  let b : Byte := (Config.freeBits s.fresh (2 ^ 69 + a)).setWidth 8
  if isOwn s a && !heldOutside s (localOf a) then accWrite s o.ctx (localOf a) [b] else (engineWrite s o a [b] 0).1

/-- Bytes of a copy or a conversion that it both read and wrote: their values are unpredictable (R362, R391). -/
def overlapFree (s : State) (o : EngineOp) : State :=
  let bytes := if o.kind.copies then o.dsts.flatMap fun d => (List.range d.2).map fun i => d.1 + i else []
  let both := bytes.filter fun a => o.srcs.any fun p => decide (p.1 ≤ a) && decide (a < p.1 + p.2)
  (both.foldl (freeByte o) { s with fresh := s.fresh + 1 }).updOp o.id fun o => { o with freed := true }

/-- Granules of a scratchpad window that rows of elements touch, in increasing order (R363). -/
def touchedGranules (s : State) (o : EngineOp) (rows : Nat) : List (Nat × Nat) :=
  let places := ((o.put.zip o.dsts).filter fun e => e.1 / 2 ^ 40 < rows).flatMap fun e =>
    (List.range e.2.2).filterMap fun i =>
      if isOwn s (e.2.1 + i) then
        let p := placeOf s (localOf (e.2.1 + i))
        if p.region = .scratch then some (p.core * 0x8000 + p.off / 16) else none
      else none
  (sortBy (fun (a b : Nat) => decide (a ≤ b)) (distinct places)).map fun k => (k / 0x8000, k % 0x8000)

/-- A place by which a copy's completion can be observed (R288). -/
def addSign (s : State) (o : EngineOp) (key n : Nat) : State :=
  if o.kind.copies then { s with signs := s.signs.filter (fun e => e != (key, n, o.id)) ++ [(key, n, o.id)] } else s

/-- The signal word at an address. -/
def signAt (s : State) (o : EngineOp) (va : Nat) : State :=
  match (translate s o.die none o.ctx va).2 with
  | .ok t => addSign s o (signKey s t.pa) 8
  | _ => s

/-- The completion action (R363): the future's CODE after it, or a wait. -/
inductive Acted where
  | done (s : State) (code : Nat) (cause : Cause) (addr : Nat)
  | waits (s : State)

def actNow (s : State) (o : EngineOp) : Acted :=
  let q := outcomeOf s o
  match o.words with
  | none => .done s q.1 q.2.2.1 q.2.2.2
  | some ws =>
    let a := actOf o ws
    let plain := Acted.done s q.1 q.2.2.1 q.2.2.2
    if a.1 = 1 then
      if q.1 != 0 then plain
      else match (if groupHere s o then ringRelease s o.core (fld a.2.1 2 0) false (fld a.2.1 11 8) (some o.handle) else none) with
        | some s => .done s 0 .engerr 0
        | none => .done s 3 .qproto 0
    else if a.1 = 2 then
      if q.1 != 0 then plain
      else .done ((touchedGranules s o (jobOf s o ws).rows).foldl (fun s g =>
        feChange (addSign s o (windowBase g.1 + 0x80000 + 16 * g.2) 16) g.1 g.2 true) s) 0 .engerr 0
    else if a.1 = 3 then
      match signalUpdate s o.die o.ctx o.fw (.engine o.id) o.pts o.mark a.2.1 a.2.2 (q.1 != 0) o.handle with
      | .done s => .done (signAt s o a.2.1) q.1 q.2.2.1 q.2.2.2
      | .walk s va => .waits (s.updOp o.id fun o => { o with waitPage := some (va / 0x10000) })
      | .ask s => .waits s
    else plain

/-- CLR of a drain (R390). A slot that a thread has written meanwhile holds anything (R289). -/
def drainClear (s : State) (o : EngineOp) : State :=
  if o.kind != .mxdrain then s
  else if (match o.words with | some ws => bitOf (wordAt ws 5) 7 | none => false) then clearSlot s o.core o.slot
  else if o.spoilt then
    let any := (List.range 0x28000).map fun i => (Config.freeBits s.fresh (2 ^ 70 + i)).setWidth 8
    { s with mem := tabPuts 0#8 s.mem (slotMem o.core o.slot) any }
  else s

/-- The completion of a copy, a conversion or a drain. -/
def finishOp (s : State) (o : EngineOp) : State :=
  let o := withFailures s o
  if !workOver s o then s
  else if !o.freed then overlapFree s o
  else
    let s := { s with fresh := s.fresh + 1 }
    let q := outcomeOf s o
    match actNow s o with
    | .waits t => t
    | .done t code cause addr =>
      let t := sweepSlots (dropOp (drainClear t o) o.id) o.core
      let t := { t with failedPa := t.failedPa.filter fun e => e.1 != whoKey (.engine o.id) }
      completeFut t o.die o.handle code q.2.1 cause addr

/-- A completion step of operations of one kind. -/
def completionOf (kind : OpKind) (op : Nat) (s : State) : Host.Outcome State Fault Refusal :=
  match s.op? op with
  | none => .next s
  | some o => if o.kind == kind then .next (finishOp s o) else .next s

def execCpyCompletion (op : Nat) (s : State) : Host.Outcome State Fault Refusal := completionOf .cpy op s
def execMxdrainCompletion (op : Nat) (s : State) : Host.Outcome State Fault Refusal := completionOf .mxdrain op s
def execQntCompletion (op : Nat) (s : State) : Host.Outcome State Fault Refusal := completionOf .qnt op s
def execDqntCompletion (op : Nat) (s : State) : Host.Outcome State Fault Refusal := completionOf .dqnt op s

/-! ## FETCH (R364, R366) -/

/-- FETCH_RESERVE: the first waiting fetch of a queue takes its tail entry. -/
def execFetchReserve (core queue : Nat) (s : State) : Host.Outcome State Fault Refusal :=
  match unreserved s core queue with
  | [] => .next s
  | o :: _ => if queueRoom s o then .next (reserveEntry s o) else .next s

/-- Fill the entry of a handle. -/
def fillEntry (s : State) (o : EngineOp) (ws : List W32) : State :=
  s.setCore o.core fun k => { k with
    queues := updAt o.queue (updWhere (fun (e : QEntry) => e.handle == o.handle && e.words.isNone) fun e => { e with words := some ws }) k.queues }

/-- FETCH_COMPLETION: the entry is filled, with zeros unless the fetch is DONE. -/
def execFetchCompletion (op : Nat) (s : State) : Host.Outcome State Fault Refusal :=
  match s.op? op with
  | none => .next s
  | some o =>
    let over? := o.waitPage.isNone && o.reserved && (match o.words with
      | none => o.fail.isSome || o.limit.isSome
      | some ws => o.limit.isSome || (o.started && (jobOf s o ws).allDone o))
    if o.kind != .fetch || !over? then .next s
    else
      let q := outcomeOf s o
      let words := match q.1, o.words with
        | 0, some ws => fetchWords32 o ws
        | _, _ => List.replicate 32 0
      .next (completeFut (dropOp (fillEntry s o words) op) o.die o.handle q.1 (if q.1 = 0 then 1 else 0) q.2.2.1 q.2.2.2)

/-! ## IXWALK (R368, R397) -/

/-- The header of range q goes to its core, and its granule's bit is set. -/
def putHeader (s : State) (o : EngineOp) (ws : List W64) (q : Nat) : State :=
  let h := walkHeader s o ws q
  let core := walkCore ws q
  let off := fld (wordAt ws 6) 18 0
  let la := windowBase core + 0x80000 + off
  let r := touchBy s o.pts la true
  let s := feChange (accWrite r.1 o.ctx la h.1) core (off / 16) true
  s.updOp o.id fun o => { o with progress := o.progress + 1, spoilt := o.spoilt || h.2, pts := max o.pts r.2 }

/-- IXWALK_RANGE_COMPLETE. -/
def execIxwalkRangeComplete (op : Nat) (s : State) : Host.Outcome State Fault Refusal :=
  match s.op? op with
  | none => .next s
  | some o =>
    match o.words with
    | none => .next s
    | some ws =>
      let j := jobOf s o ws
      if o.kind != .ixwalk || !o.started || o.waitPage.isSome || !decide (o.progress < j.end_ o) || !j.rowDone o o.progress ||
          !opAcked s o then .next s
      else
        let sig := wordAt ws 7
        if sig = 0 then .next (putHeader s o ws o.progress)
        else
          let pts := fun (s : State) => ((s.op? op).map fun o => o.pts).getD o.pts
          let add := fun (s : State) => signalUpdate s o.die o.ctx o.fw (.engine op) (pts s) o.mark sig 1 false o.handle
          match add s with
          | .walk t va => .next (t.updOp op fun o => { o with waitPage := some (va / 0x10000) })
          | .ask t => .next t
          | .done _ =>
            let t := putHeader s o ws o.progress
            match add t with
            | .done t => .next t
            | _ => .next t

/-- IXWALK_COMPLETION: FAILED when a range has overflowed. -/
def execIxwalkCompletion (op : Nat) (s : State) : Host.Outcome State Fault Refusal :=
  match s.op? op with
  | none => .next s
  | some o =>
    let over? := o.waitPage.isNone && opAcked s o && (match o.words with
      | none => o.fail.isSome
      | some ws => o.started && decide ((jobOf s o ws).end_ o ≤ o.progress))
    if o.kind != .ixwalk || !over? then .next s
    else
      let q := outcomeOf s o
      let code := if q.1 = 0 && o.spoilt then 3 else q.1
      .next (completeFut (dropOp s op) o.die o.handle code q.2.1 q.2.2.1 q.2.2.2)

/-! ## Compaction steps (R372) -/

/-- The copy of a core's full tile in progress. -/
def tileOp (s : State) (core : Nat) : Option EngineOp := s.ops.find? fun o => o.kind == .tile && o.core == core

/-- Acquire a stage and start the copy of the first 128 tokens. -/
def startTile (s : State) (core : Nat) : State :=
  let k := (s.core core).compact
  match k.desc, k.tile[127]? with
  | some (_, ws), some t =>
    let ring := compactRing ws
    match s.op? (fillerOf t), (if (s.ring core ring).valid && (ringWaiters s core ring false).isEmpty then ringAcquire s core ring false else none) with
    | some f, some (s, stage) =>
      let op : EngineOp := { f with
        id := s.nextId, kind := .tile, handle := 0, words := some ws, args := stage :: (k.tile.take 128).map fillerOf,
        toks := (k.tile.take 128).map (fun t => (t.1, true)), slot := f.id, started := true, progress := 0, got := [], old := [],
        put := [], limit := none, fail := none, srcs := [], dsts := [], waitPage := none, mark := none }
      let s := { s with nextId := s.nextId + 1, ops := s.ops ++ [op] }
      let s := s.setCompact core fun k => { k with
        tile := k.tile.drop 128, slot := stage, desc := if f.kind = .cpfl then none else k.desc }
      if f.kind = .cpfl then s.updOp f.id fun f => { f with started := true } else s
    | _, _ => s
  | _, _ => s

/-- CPACT_TILE_FILL: a full tile takes its stage, or the copied one is released. A tile that met a fault stays
held, and its fault is that of the operation that filled it. -/
def execCpactTileFill (core : Nat) (s : State) : Host.Outcome State Fault Refusal :=
  match tileOp s core with
  | none => .next (startTile s core)
  | some o =>
    let o := withFailures s o
    match o.words with
    | none => .next s
    | some ws =>
      if !workOver s o then .next s
      else
        let t := dropOp s o.id
        match o.fail with
        | some f =>
          -- the tokens of the operation that the tile has not taken in
          let lost := ((o.args.drop (1 + f.1)).filter fun k => k == o.slot).length
          .next (t.updOp o.slot fun q => if q.fail.isSome then q else { q with fail := some (2 ^ 32 + lost, f.2.1, f.2.2.1, f.2.2.2) })
        | none =>
          if groupHere s o then .next ((ringRelease t core (compactRing ws) false (o.args.getD 0 0) none).getD t) else .next t

/-- No tile that the operation filled is still to be released. -/
def tilesReleased (s : State) (o : EngineOp) : Bool :=
  let ts := (s.core o.core).compact.tile
  !(s.ops.any fun q => q.kind == .tile && q.slot == o.id) &&
  !((List.range (ts.length / 128)).any fun i => fillerOf (ts.getD (128 * i + 127) (0, 0)) == o.id)

/-- Tokens that an operation has wholly performed when it meets a fault (R379): those before the one whose entry in the bypass
list failed; or all but the dropped ones not copied and the kept ones that a tile has not taken in. -/
def tokensDone (o : EngineOp) (row : Nat) : Nat :=
  let n := o.toks.length
  let left := (o.toks.filter fun t => !t.2).length
  if o.words.isNone then 0
  else if o.progress < n then row
  else if 2 ^ 32 ≤ row then n - (row - 2 ^ 32)
  else n - (left - row)

/-- CPACT_COMPLETION, of a CPACT or a CPFL. -/
def execCpactCompletion (op : Nat) (s : State) : Host.Outcome State Fault Refusal :=
  match s.op? op with
  | none => .next s
  | some o =>
    let o := withFailures s o
    let copied := match o.kind, o.words with
      | .cpact, some ws => (jobOf s o ws).allDone o
      | _, _ => true
    if (o.kind != .cpact && o.kind != .cpfl) || !o.started || o.waitPage.isSome || !opAcked s o || !copied || !tilesReleased s o then
      .next s
    else
      let n := if o.kind = .cpfl then 1 else o.toks.length
      .next (match o.fail with
        | some f =>
          let at_ := if o.kind = .cpfl then 0 else tokensDone o f.1
          completeFut (dropOp s op) o.die o.handle f.2.1 at_ f.2.2.1 f.2.2.2
        | none => completeFut (dropOp s op) o.die o.handle 0 n)

/-! ## CANCEL_SAFE_POINT (R360) -/

/-- Rows of an operation that a write has reached, counted from 0: those below are written whole. -/
def rowsBegun (o : EngineOp) : Nat := o.put.foldl (fun m k => max m (k / 2 ^ 40 + 1)) 0

def execCancelSafePoint (op : Nat) (s : State) : Host.Outcome State Fault Refusal :=
  match s.op? op with
  | none => .next s
  | some o =>
    let stopAt := fun (r : Nat) => s.updOp op fun o => { o with limit := some r }
    if !o.cancel || o.limit.isSome then .next s
    else match o.kind, o.words with
      | .cpy, some ws => .next (if (jobOf s o ws).rows ≤ rowsBegun o then s else stopAt (rowsBegun o))
      | .fetch, _ => .next (if o.reserved then stopAt 0 else s)
      | .ixwalk, some ws =>
        .next (if decide (o.progress < (jobOf s o ws).rows) && !(o.put.any fun k => k / 2 ^ 40 == o.progress) then stopAt o.progress else s)
      | _, _ => .next s

end Sys2Proof.Machine
end

