-- ==== Sys2Proof/Machine/Clause.lean ====
section
/-! DEFINITION. Starting a clause (R14, R210, R211), results that come later (R16, R54, R55), completion-stage traps
(R21), and the ends of segments (R162, R260, R411). -/

namespace Sys2Proof.Machine

/-! ## CLAUSE_START -/

/-- Traps at the clause-fetch stage, of these slices of the sub-gang. -/
def fetchTraps (s : State) (g : Gang) (u : Sub) (hdr : Nat) (xs : List (Slice × Cause)) (addr : Nat) : State :=
  let s := xs.foldl (fun s e =>
    let h := hitAt e.1.pos (lowLane e.1.active) e.2 (faddrFor e.2 addr)
    takeTrap s.bump g.core g.slot { trapInfo s.nextId ⟨hdr, u.word, 0, 0⟩ h with pc := addr } e.1.pos) s
  tidyGang s g.core g.slot

/-- The trap of every slice of the sub-gang. -/
def fetchTrap (s : State) (g : Gang) (u : Sub) (hdr : Nat) (cause : Cause) (addr : Nat) : State :=
  fetchTraps s g u hdr ((g.slicesOf u.id).map fun x => (x, cause)) addr

/-- The fetch needs a walk: the slices whose walk for the page has failed trap, the others wait for one (R271, R436). -/
def fetchWalk (s : State) (g : Gang) (u : Sub) (hdr va : Nat) : State :=
  let bad := markedFor (g.slicesOf u.id) va
  let t := walkSlices s g u.id ⟨hdr, u.word, 0, 0⟩
    (((g.slicesOf u.id).filter fun x => bad.all fun e => e.1.pos != x.pos).flatMap fun x => (lanesOf x.active).map fun l => ⟨x.pos, l, va⟩)
  if bad.isEmpty then t else fetchTraps t g u hdr bad va

/-- The clause that a sub-gang fetches next. -/
def nextFetch (s : State) (g : Gang) (u : Sub) : State × Fetched (W64 × List W64) :=
  match g.slicesOf u.id with
  | [] => (s, .ask 0)
  | x :: _ => fetchClause s g (fetcher (g.slicesOf u.id) x) x.pc

/-- A slice is being settled: its launch is aborted, or its context torn down (R419). -/
def beingSettled (s : State) (ctx : Nat) (x : Slice) : Bool :=
  (s.launches.any fun l => l.fail && l.st == .active && x.lids.contains l.lid) || s.regs.mbBusy == some (2, ctx)

/-- Slices of a sub-gang may start a clause: none is inside one, none has a failure to take at this boundary (one that resumes at a word
inside a clause takes it at the end of that clause), none is being settled,
and the group is not being saved (R21, R419, R428, R496). -/
def subFree (s : State) (g : Gang) (u : Sub) : Bool :=
  u.run.isNone && !((g.slicesOf u.id).any (beingSettled s g.ctx)) && !(g.slicesOf u.id).isEmpty && (u.word != 0 || (g.slicesOf u.id).all (fun x => x.merr.isEmpty)) && !(s.core g.core).gated &&
  (match preMethod s (g.core / 64) g.group g.ctx with
   | some m => m == 0
   | none => true)

/-- The issue slot is held by a clause, or by one that has ended with a request still to be injected (R444). -/
def slotBusy (s : State) (core islot : Nat) : Bool :=
  s.gangs.any fun g => g.core == core && g.islot == islot && (g.running.isSome ||
    s.pend.any fun q => q.core == core && q.slot == g.slot && notInjected s q)

/-- A fetched clause's wait mask is satisfied; a resumption inside a clause skips it (R60). -/
def maskOk (g : Gang) (u : Sub) (h : W64) : Bool :=
  u.word != 0 || (g.slicesOf u.id).all fun x => x.flagsClear (fld h.toNat 61 50)

/-- Ready (R210): its next clause's wait mask is satisfied, or fetching that clause will stop it. -/
def subReady (s : State) (g : Gang) (u : Sub) : Bool :=
  subFree s g u &&
  match (nextFetch s g u).2 with
  | .ok (h, _) => maskOk g u h
  | .ask _ => false
  | _ => true

/-- The sub-gangs that are ready at an issue slot: priority, place in the order, gang slot, number. -/
def readySubs (s : State) (core islot : Nat) : List (Nat × Nat × Nat × Nat) :=
  (s.gangs.filter fun g => g.core == core && g.islot == islot).flatMap fun g =>
    (g.subs.filter (subReady s g)).map fun u => (subPrio g u, g.slot * 128 + subKey g u, g.slot, u.id)

/-- The least place above the last winner's, else the least. -/
def nextInOrder (last : Option Nat) (l : List (Nat × Nat × Nat × Nat)) : Option (Nat × Nat × Nat × Nat) :=
  let least := fun (l : List (Nat × Nat × Nat × Nat)) => l.foldl (fun b e =>
    match b with
    | none => some e
    | some q => if e.2.1 < q.2.1 then some e else some q) (none : Option (Nat × Nat × Nat × Nat))
  match last with
  | none => least l
  | some k => (least (l.filter fun e => k < e.2.1)).or (least l)

/-- The last winner at an issue slot and priority. -/
def lastWin (s : State) (core islot prio : Nat) : Option Nat :=
  (((s.core core).rr.find? fun e => e.1 == islot * 32 + prio)).map fun e => e.2.1 * 128 + e.2.2

/-- The choice of a free issue slot (R211); a rise by aging that is due comes first (R212). -/
def slotChoice (s : State) (core islot : Nat) : Option (Nat × Nat) :=
  if s.gangs.any fun g => g.core == core && g.islot == islot && g.subs.any (subAged s core) then none else
  let l := readySubs s core islot
  let p := (l.map fun e => e.1).foldl max 0
  (nextInOrder (lastWin s core islot p) (l.filter fun e => e.1 == p)).map fun e => (e.2.2.1, e.2.2.2)

/-- A header with idem = 1 is the restart point of its slices, which are clean from there on (R61, R429). -/
def restartAt (u : Sub) (hdr : Nat) (h : W64) (x : Slice) : Slice :=
  if h.getLsbD 34 then { x with restart := some hdr, stuck := if u.word = 0 then false else x.stuck } else x

/-- The clause starts: every slice stands at the clause after it, and the sub-gang holds the issue slot. -/
def beginClause (s : State) (g : Gang) (u : Sub) (hdr : Nat) (h : W64) (ws : List W64) : State :=
  let prio := subPrio g u
  let run : Run := ⟨hdr, h, ws, u.word - 1, [], false⟩
  let s := s.updGang g.core g.slot fun g => { g with
    subs := updWhere (fun v => v.id == u.id) (fun v => { v with run := some run, waited := 0, riseAt := 0 }) g.subs,
    slices := g.slices.map fun x =>
      if x.st == .run u.id then { restartAt u hdr h x with pc := run.next } else x }
  noteWin s g prio (subKey g u)

/-- CLAUSE_START (R14, R53, R60, R211): the clause that was found ready is the one that starts. -/
def execClauseStart (core slot sub : Nat) (s : State) : Host.Outcome State Fault Refusal :=
  match s.gang core slot with
  | none => .next s
  | some g =>
    match g.sub sub, g.slicesOf sub with
    | some u, x :: _ =>
      if !subFree s g u || slotBusy s core g.islot then .next s
      else
        let r := nextFetch s g u
        let r := ({ r.1 with fresh := r.1.fresh + 1 }, r.2)
        match r.2 with
        | .ask pa => .next (askLine r.1 (core / 64) (.core core) (s.core core).pts pa false)
        | f =>
          if slotChoice s core g.islot != some (slot, sub) then .next s
          else match f with
            | .ok (h, ws) => .next (beginClause r.1 g u x.pc h ws)
            | .trap c a => .next (fetchTrap r.1 g u x.pc c a)
            | .walk va => .next (fetchWalk r.1 g u x.pc va)
            | .bad _ => .next (fetchTrap r.1 g u x.pc .memerr x.pc)
            | .ask _ => .next s
    | _, _ => .next s

/-! ## Results that come later (R16, R54–R56) -/

def laterStep (id : Nat) (tracked : Bool) (s : State) : Host.Outcome State Fault Refusal :=
  match s.pend.find? fun q => q.id == id with
  | some q => if q.flag.isSome == tracked && pendReady s q then .next (advancePend s q) else .next s
  | none => .next s

def execVlResultWrite (id : Nat) (s : State) : Host.Outcome State Fault Refusal := laterStep id true s
def execUntrackedResultWrite (id : Nat) (s : State) : Host.Outcome State Fault Refusal := laterStep id false s

/-! ## Completion-stage traps (R21, R411) -/

/-- The trap of a slice with a failure: RESUME names the header where it stopped, with WORD 0. -/
def lateTrap (rid hdr dest dregs : Nat) (waitAt : At) (tasks : List Task) (m : MemErr) : TrapInfo :=
  let l := (m.lanes.map fun e => e.1).foldl min 3
  { rid := rid, dest := dest, dregs := dregs, waitAt := waitAt, tasks := tasks, cause := .memerr, late := true, pc := m.pc,
    hdr := hdr, word := 0, cwords := m.cwords, ilen := m.ilen, tlanes := laneBit l, aux := 0,
    faddr := (hitOf 0 l .memerr m.lanes).faddr, full := false }

/-- COMPLETION_STAGE_TRAP: at the slice's first clause boundary after the failure is known. -/
def execCompletionStageTrap (core slot pos : Nat) (s : State) : Host.Outcome State Fault Refusal :=
  match s.gang core slot with
  | none => .next s
  | some g =>
    match g.slice pos with
    | none => .next s
    | some x =>
      match x.merr with
      | [] => .next s
      | m :: ms =>
        let take := fun (s : State) (t : TrapInfo) =>
          Host.Outcome.next (tidyGang ((takeTrap s core slot t pos).updSlice core slot pos fun x => { x with merr := ms }) core slot)
        match x.st with
        | .run u =>
          match g.sub u with
          | some q => if q.run.isSome || q.word != 0 then .next s else take s.bump (lateTrap s.nextId x.pc 240 0 ⟨0, 0, 0⟩ [] m)
          | none => .next s
        | .parked t _ => take s.bump (lateTrap s.nextId t 240 0 ⟨0, 0, 0⟩ [] m)
        | .ending e => take s (lateTrap e.rid e.hdr e.dest e.dregs e.waitAt e.tasks m)
        | _ => .next s

/-! ## Ends of segments (R162, R260, R411) -/

/-- Before a slice leaves, the combining buffers that its threads stored into are written, and those writes are
acknowledged, since they precede every access after the segment's end (R263, R280). -/
def buffersOut (s : State) (core slot pos : Nat) (go : State → Host.Outcome State Fault Refusal) : Host.Outcome State Fault Refusal :=
  if !(sliceBufs s core slot pos).isEmpty then .next (wcWriteSlice s core slot pos)
  else if slicePosts s core slot pos then .next s
  else go s

/-- A slice that is leaving with its registers settled (R55). -/
def settled (s : State) (core slot pos : Nat) (go : State → Gang → Slice → State) : State :=
  let s := settleVague s core slot pos fun _ => true
  match s.gang core slot with
  | none => s
  | some g => match g.slice pos with
    | none => s
    | some x => go s g x

/-- SEGMENT_END: a slice whose flags have drained writes its record. -/
def execSegmentEnd (core slot pos : Nat) (s : State) : Host.Outcome State Fault Refusal :=
  match s.gang core slot with
  | none => .next s
  | some g =>
    match g.slice pos with
    | none => .next s
    | some x =>
      match x.st with
      | .ending e => 
        if e.full || !x.merr.isEmpty || !drained s core slot pos then .next s
        else buffersOut s core slot pos fun s => .next (settled s core slot pos fun s g x => finishSegment s g x e)
      | _ => .next s

/-- TRAP_DELIVERY. -/
def execTrapDelivery (core slot pos : Nat) (s : State) : Host.Outcome State Fault Refusal :=
  match s.gang core slot with
  | none => .next s
  | some g =>
    match g.slice pos with
    | none => .next s
    | some x =>
      match x.st with
      | .trapping t => 
        if t.full || !drained s core slot pos then .next s
        else match (if g.handler.isSome then none else handlerLine s core g.ctx) with
        | some pa => .next (askLine s (core / 64) (.core core) (s.core core).pts pa false)
        | none => buffersOut s core slot pos fun s => .next (settled s core slot pos fun s g x => deliverTrap s g x t)
      | _ => .next s

/-- POOL_SPACE_GRANT: a slice that found no room tries again. -/
def execPoolSpaceGrant (core slot pos : Nat) (s : State) : Host.Outcome State Fault Refusal :=
  match s.gang core slot with
  | none => .next s
  | some g =>
    match g.slice pos with
    | none => .next s
    | some x =>
      match x.st with
      | .ending e =>
        if !e.full then .next s
        else if !x.merr.isEmpty then .next (s.updSlice core slot pos fun x => { x with st := .ending { e with full := false } })
        else .next (finishSegment s g x e)
      | .trapping t => if t.full then .next (deliverTrap s g x t) else .next s
      | _ => .next s

end Sys2Proof.Machine
end

