-- ==== Sys2Proof/Machine/Control.lean ====
section
/-! DEFINITION. Control transfer (R133–R140), special registers (R141–R145), trap return and snapshots
(R146–R148). -/

namespace Sys2Proof.Machine

/-! ## Control transfer (R134, R135) -/

/-- Target of a relative transfer. -/
def Ctx.relTarget (c : Ctx) : Nat :=
  (c.next + 8 * (if c.f.long then signExt 24 c.f.off24.toNat else signExt 8 c.f.c.toNat)) % 2 ^ 64

/-- The guard-true active lanes of a slice. -/
def Ctx.lanesIn (c : Ctx) (x : Slice) : List Nat := lanesOf (guardMask c.s c.g c.f x)

/-- The targets of a slice's active lanes; a lane whose guard is false continues at N. -/
def Ctx.targets (c : Ctx) (tgt : Slice → Nat → Nat) (x : Slice) : List (Nat × Nat) :=
  (lanesOf x.active).map fun l => (l, if (c.lanesIn x).contains l then tgt x l else c.next)

/-- The address check of the guard-true targets of a slice, in lane order (R134). -/
def Ctx.badTarget (c : Ctx) (tgt : Slice → Nat → Nat) (x : Slice) : Option Hit :=
  ((c.lanesIn x).find? fun l => 2 ^ 56 ≤ tgt x l || tgt x l % 8 != 0).map fun l =>
    if 2 ^ 56 ≤ tgt x l then hitAt x.pos l .pcOvf else hitAt x.pos l .align (tgt x l)

/-- Lanes of a target. -/
def lanesAt (ts : List (Nat × Nat)) (t : Nat) : BitVec 4 :=
  (ts.filter fun e => e.2 == t).foldl (fun m e => m ||| laneBit e.1) 0

/-- Settle a slice's active lanes by their targets (R135); none when the token stack has no room. `atN` names the
fall-through target of BRA and CALL, whose group runs first. -/
def settleTargets (x : Slice) (atN : Option Nat) (ts : List (Nat × Nat)) : Option Slice :=
  let gs := distinct (ts.map fun e => e.2)
  match gs with
  | [] => some x
  | t :: rest =>
    let low := rest.foldl min t
    let first := match atN with
      | some n => if rest.isEmpty then t else if gs.contains n then n else low
      | none => low
    let others := sortBy (fun a b => decide (b ≤ a)) (gs.filter fun t => t != first)
    (others.foldl (fun (y : Option Slice) t => y.bind fun y => y.push ⟨.deferred, lanesAt ts t, 0, t⟩) (some x)).map
      fun y => { y with active := if others.isEmpty then x.active else lanesAt ts first, pc := first }

/-- What a transfer does: its traps, or the settled slices. -/
inductive Plan where
  | trap (hits : List Hit)
  | go (xs : List Slice)
  deriving Repr

def Ctx.plan (c : Ctx) (atN : Option Nat) (tgt : Slice → Nat → Nat) : Plan :=
  let r := c.slices.map fun x =>
    match c.badTarget tgt x with
    | some h => Sum.inl h
    | none =>
      match settleTargets x atN (c.targets tgt x) with
      | none => Sum.inl (hitAt x.pos (lowLane (guardMask c.s c.g c.f x)) .ill)
      | some y => Sum.inr y
  match r.filterMap Sum.getLeft? with
  | [] => .go (r.filterMap Sum.getRight?)
  | hits => .trap hits

/-- Put settled slices in their places: the token stack, the active mask and the address are what changed. -/
def applySlices (s : State) (c : Ctx) (xs : List Slice) : State :=
  xs.foldl (fun s y => s.updSlice c.g.core c.g.slot y.pos fun x => { x with pc := y.pc, active := y.active, tokens := y.tokens }) s

/-- The link pairs (R136). -/
def Ctx.links (c : Ctx) : List Put := c.lanes.map fun e => ⟨e.1.pos, e.2, c.f.d.toNat, wordsOf 2 c.next⟩

/-- A transfer with or without a link. -/
def transfer (c : Ctx) (link : Bool) (atN : Option Nat) (tgt : Slice → Nat → Nat) : Body :=
  match c.plan atN tgt with
  | .trap hits => .trap c.s hits
  | .go xs =>
    let s := if link then putAll c.s c.g.core c.g.slot c.links else c.s
    .done (applySlices s c xs)

def execNop (f : Fields) (s : State) : Host.Outcome State Fault Refusal := issue (.nop f) s fun c => .done c.s

def execBra (f : Fields) (s : State) : Host.Outcome State Fault Refusal :=
  issue (.bra f) s fun c => transfer c false (some c.next) fun _ _ => c.relTarget

def execBrx (f : Fields) (s : State) : Host.Outcome State Fault Refusal :=
  issue (.brx f) s fun c => transfer c false none fun x l => c.src x l c.f.a.toNat 2 8

def execCall (f : Fields) (s : State) : Host.Outcome State Fault Refusal :=
  issue (.call f) s fun c => transfer c true (some c.next) fun _ _ => c.relTarget

def execRet (f : Fields) (s : State) : Host.Outcome State Fault Refusal :=
  issue (.ret f) s fun c => transfer c false none fun x l => c.src x l c.f.a.toNat 2 8

/-! ## CALLX (R137) -/

/-- The launch record's LCTL of a thread's launch (R199); none for a handler's. -/
def lctlOf (s : State) (lid : Nat) : Option Nat :=
  if lid = 0 then none else (s.launches.find? fun l => l.lid == lid).map fun l => (l.words.getD 0 0).toNat

/-- M of R137. -/
def maxBudget (s : State) (lid : Nat) : Nat := match lctlOf s lid with | some w => 8 * fld w 34 30 | none => 128

/-- Launch priority (R145): a handler's slices come from no launch. -/
def launchPrio (s : State) (lid : Nat) : Nat := match lctlOf s lid with | some w => fld w 51 47 | none => 23

/-- The entry a lane calls. -/
def Ctx.callee (c : Ctx) (x : Slice) (l : Nat) : Entry :=
  lookupEntry c.s (c.g.core / 64) (c.s.core c.g.core).pts c.g.ctx (c.src x l c.f.a.toNat 1 7)

/-- The entries of lanes have been read, each line once. -/
def Ctx.entriesRead (c : Ctx) (look : Slice → Nat → Entry) : State :=
  let ix := fun (e : Slice × Nat) => c.src e.1 e.2 c.f.a.toNat 1 7
  (c.lanes.zipIdx.filter fun e => !((c.lanes.take e.2).any fun q =>
    lineOf (tableEntry c.s c.g.ctx (ix q)) == lineOf (tableEntry c.s c.g.ctx (ix e.1)))).foldl (fun s e =>
      entryRead s (c.g.core / 64) c.g.ctx (ix e.1) (look e.1.1 e.1.2)) c.s

def Entry.addr : Entry → Nat
  | .code a _ _ _ => a
  | _ => 0

def Entry.vbud : Entry → Nat
  | .code _ v _ _ => v
  | _ => 0

/-- The largest declared budget among a slice's calls. -/
def Ctx.callBudget (c : Ctx) (x : Slice) : Nat := ((c.lanesIn x).map fun l => (c.callee x l).vbud).foldl max 0

def Ctx.callLimit (c : Ctx) (x : Slice) : Nat :=
  ((c.lanesIn x).map fun l => maxBudget c.s (x.lids.getD l 0)).foldl min 128

/-- The cause of a lane's call: a target no slice can transfer to, or no entry (R22, R134, R137); MEMERR for an entry that cannot be
read (DESIGN CHOICE, log entry 138). -/
def Ctx.calleeHit (c : Ctx) (x : Slice) (l : Nat) : Option Hit :=
  if c.callee x l == .empty then some (hitAt x.pos l .xnp)
  else if (match c.callee x l with | .bad _ => true | _ => false) then some (hitAt x.pos l .memerr)
  else if 2 ^ 56 ≤ (c.callee x l).addr then some (hitAt x.pos l .pcOvf)
  else if (c.callee x l).addr % 8 != 0 then some (hitAt x.pos l .align (c.callee x l).addr)
  else none

/-- The cause that a slice's call meets: that of its lowest failing lane, else no room for its tokens, else its budget.
DESIGN CHOICE (log entry 122): the last two are the slice's, no lane's, and R22 and R137 name no lane for them; TLANES
gives the lowest guard-true lane. -/
def Ctx.callHit (c : Ctx) (x : Slice) : Option Hit :=
  let own := fun cause => hitAt x.pos (lowLane (guardMask c.s c.g c.f x)) cause
  match (c.lanesIn x).findSome? (c.calleeHit x) with
  | some h => some h
  | none =>
    if c.lanesIn x = [] then none
    else if (settleTargets x none (c.targets (fun x l => (c.callee x l).addr) x)).isNone then some (own .ill)
    else if c.callLimit x < c.callBudget x then some (own .budget)
    else none

/-- CALLX: every slice that meets a cause traps with its own (R411); with none, each slice transfers, or ends its segment
for a larger budget. -/
def execCallx (f : Fields) (s : State) : Host.Outcome State Fault Refusal :=
  issue (.callx f) s fun c =>
    let gone := c.lanes.findSome? fun e => match c.callee e.1 e.2 with | .missing pa => some pa | _ => none
    match gone with
    | some pa => .stall (askLine c.s (c.g.core / 64) (.core c.g.core) (c.s.core c.g.core).pts pa false)
    | none =>
      let hits := c.slices.filterMap c.callHit
      let s := c.entriesRead c.callee
      if !hits.isEmpty then .trap s hits
      else match c.plan none fun x l => (c.callee x l).addr with
        | .trap hits => .trap s hits
        | .go xs =>
            let s := applySlices (putAll s c.g.core c.g.slot c.links) c xs
            let need := fun (y : Slice) =>
              match c.slices.find? fun x => x.pos = y.pos with
              | some x => c.callBudget x
              | none => 0
            .done (xs.foldl (fun s y =>
              if c.g.vbud < need y then
                let e := forcedEnd s.nextId y.pc 0 .run 0 0 c.g y
                endSegment s.bump c.g.core c.g.slot y.pos { e with vbud := need y }
              else s) s)

/-! ## Ends, traps, YIELD (R138–R140) -/

/-- End the guard-true threads of every slice. -/
def endGuarded (c : Ctx) : State :=
  c.slices.foldl (fun s x =>
    let m := guardMask c.s c.g c.f x
    if m = 0 then s else endLanes s c.g.core c.g.slot x.pos m) c.s

def execExit (f : Fields) (s : State) : Host.Outcome State Fault Refusal :=
  issue (.exit f) s fun c => .done (endGuarded c)

/-- END needs an empty token stack (R20). -/
def execEndThread (f : Fields) (s : State) : Host.Outcome State Fault Refusal :=
  issue (.endThread f) s fun c =>
    match (c.slices.filter fun x => guardMask c.s c.g c.f x != 0 && !x.tokens.isEmpty).map fun x =>
        hitAt x.pos (lowLane (guardMask c.s c.g c.f x)) .ill with
    | [] => .done (endGuarded c)
    | hits => .trap c.s hits

/-- An explicit trap: every guard-true lane is a trapping lane. -/
def explicitTrap (c : Ctx) (cause : Cause) : Body :=
  match (c.slices.filter fun x => guardMask c.s c.g c.f x != 0).map fun x =>
      (⟨x.pos, cause, guardMask c.s c.g c.f x, c.f.c.toNat, [0, 0, 0, 0]⟩ : Hit) with
  | [] => .done c.s
  | hits => .trap c.s hits

def execTrap (f : Fields) (s : State) : Host.Outcome State Fault Refusal :=
  issue (.trap f) s fun c => explicitTrap c .swtrap

def execBpt (f : Fields) (s : State) : Host.Outcome State Fault Refusal :=
  issue (.bpt f) s fun c => explicitTrap c .bpt

/-- The clause that a sub-gang executes is to end with it last in its priority level's order. -/
def noteYield (s : State) (g : Gang) (sub : Nat) : State :=
  s.updGang g.core g.slot fun g => { g with
    subs := updWhere (fun u => u.id == sub) (fun u => { u with run := u.run.map fun r => { r with yields := true } }) g.subs }

/-- YIELD: its place in the round-robin order changes when its clause has ended (R140). -/
def execYield (f : Fields) (s : State) : Host.Outcome State Fault Refusal :=
  issue (.yield f) s fun c => .done (if c.lanes.isEmpty then c.s else noteYield c.s c.g c.sub)

/-! ## Special registers (R141–R145) -/

/-- Extents E1 to E7 of a launch's SHAPE, by level (R199, R200). -/
def extents (shape : Nat) : List Nat :=
  [1, 4, fld shape 24 22 + 1, fld shape 29 25 + 1, fld shape 31 30 + 1, fld shape 35 32 + 1, fld shape 37 36 + 1, fld shape 47 38 + 1]

/-- LVLk of a thread (R173): its digit in the grid, carried up to the next declared level. -/
def lvlOf (shape index lane k : Nat) : Nat :=
  let e := extents shape
  let decl := fld shape 55 48
  if !bitOf decl k then 0
  else match (List.range 8).find? fun j => k < j && bitOf decl j with
    | none => 0
    | some up =>
      let digit := fun j => if j = 0 then lane else index / (((e.drop 2).take (j - 1)).foldl (· * ·) 1) % e.getD (j + 1) 1
      ((List.range 8).filter fun j => k ≤ j && j < up).foldl (fun a j =>
        a + digit j * (((e.drop (k + 1)).take (j - k)).foldl (· * ·) 1)) 0

/-- SHAPE of a thread's launch; none for a task's thread (R182). DESIGN CHOICE (log entry 148): a handler's
thread, of which R142, R182 and R413 say nothing, has none either and reads LVL0 to LVL7 as 0xFFFF_FFFF. -/
def shapeOf (s : State) (x : Slice) (l : Nat) : Option Nat :=
  if x.index = 0xffffff then none
  else (s.launches.find? fun q => q.lid == x.lids.getD l 0).map fun q => (q.words.getD 1 0).toNat

/-- The value of a special register (R142). -/
def sregRead (c : Ctx) (x : Slice) (l i : Nat) : Nat :=
  let k := c.s.core c.g.core
  match i with
  | 0x00 => (x.lane l).fpstat.toNat
  | 0x01 => (x.lane l).rstate.toNat
  | 0x02 => threadIx x l
  | 0x03 => x.active.toNat
  | 0x04 => c.g.slot
  | 0x05 => corelocOf c.s c.g.core
  | 0x06 => x.prio
  | 0x07 => c.g.vbud % 256 + c.g.gbud % 256 * 256
  | 0x08 => b2n c.g.handler.isSome + 2 * b2n (debugOn c.s c.g.ctx) + 4 * b2n k.maint
  | 0x09 => c.g.ctx % 2 ^ 16
  | 0x0a => c.g.handler.getD 0
  | 0x20 => c.s.clk
  | 0x21 => c.s.regs.devtime
  | 0x22 => k.instret
  | 0x30 => k.terms
  | 0x31 => k.tlclk
  | 0x32 => k.syncidle
  | 0x33 => k.skippack
  | 0x34 => k.skipblk
  | _ => match shapeOf c.s x l with
    | some sh => lvlOf sh x.index l (i - 0x10)
    | none => 0xffffffff

/-- GETS: a counter is sampled at issue and written later. -/
def execGets (f : Fields) (s : State) : Host.Outcome State Fault Refusal :=
  issue (.gets f) s fun c =>
    let i := c.f.c.toNat
    let v := fun x l => sregRead c x l i % 2 ^ c.w
    if sregCounter i then perLaneLater c fun x l => (v x l, 0) else perLane c v

/-- The lowest guard-true lane of a slice decides a register of slice scope (R143). -/
def Ctx.sliceValue (c : Ctx) (x : Slice) : Option (Nat × Nat) :=
  (c.lanesIn x).head?.map fun l => (l, c.opnd x l .a)

/-- The checks of SETS of PRIO (R145). -/
def prioHit (c : Ctx) (x : Slice) : Option Hit :=
  (c.sliceValue x).bind fun e =>
    if 23 < e.2 then some (hitAt x.pos e.1 .ill)
    else if c.g.handler.isNone && (e.2 = 23 || launchPrio c.s (x.lids.getD e.1 0) < e.2) then some (hitAt x.pos e.1 .priv)
    else none

def execSets (f : Fields) (s : State) : Host.Outcome State Fault Refusal :=
  issue (.sets f) s fun c =>
    let core := c.g.core
    let slot := c.g.slot
    let put := fun (h : Nat → Lane → Lane) => c.lanes.foldl (fun (s : State) e =>
      s.updLane core slot e.1.pos e.2 (h (c.opnd e.1 e.2 .a))) c.s
    if c.f.c.toNat = 0 then .done (put fun v t => { t with fpstat := BitVec.ofNat 5 v })
    else if c.f.c.toNat = 1 then .done (put fun v t => { t with rstate := BitVec.ofNat 32 v })
    else match c.slices.filterMap (prioHit c) with
      | [] => .done (c.slices.foldl (fun (s : State) x =>
          match c.sliceValue x with
          | some e => s.updSlice core slot x.pos fun y => { y with prio := e.2 }
          | none => s) c.s)
      | hits => .trap c.s hits

/-! ## TRET and SNAP (R146–R148) -/

/-- The held record that a handler gang may release, at a physical address. -/
def heldRecord (s : State) (g : Gang) (pa : Nat) : Option RecMeta :=
  if g.handler = some pa then
    s.recs.find? fun r => r.st == .held && r.trap.isSome && r.nested.isNone && ownPa s r.pa == pa && r.ctx == g.ctx
  else none

/-- TRET: the checks of R147 and R414, the gang's earlier accesses performed, then the release; the record stays held while its
fault-queue entry waits (R416). DESIGN CHOICE (log entry 147): R147 checks PRIV, ALIGN and XPERM per gang; in a sub-gang of several
slices the slice of the lowest guard-true thread meets them. -/
def tret (c : Ctx) (how : Release) : Body :=
  match c.first with
  | none => .done c.s
  | some e =>
    let pa := c.src e.1 e.2 c.f.a.toNat 2 8
    if c.g.handler.isNone then trapFirst c .priv
    else if pa % 128 != 0 then trapFirst c .align pa
    else
      let mine := c.g.slices.map fun x => x.pos
      let s := mine.foldl (fun s p => wcWriteSlice s c.g.core c.g.slot p) c.s
      if accBusy s c.g mine || tabGet 0 s.acks c.g.core != 0 then .stall s
      else match heldRecord s c.g pa with
        | none => trapFirst { c with s := s } .xperm pa
        | some m =>
          let moved := (readHead s m).w 0 != bytesToNat (m.copy.take 8)
          if !fieldsKept s m || how == .skip && moved then trapFirst { c with s := s } .resv
          else if s.faults.any fun e => e.rid == some m.rid then .stall s
          else .done (releaseRecord s m how)

def execTretRetry (f : Fields) (s : State) : Host.Outcome State Fault Refusal := issue (.tretRetry f) s fun c => tret c .retry
def execTretSkip (f : Fields) (s : State) : Host.Outcome State Fault Refusal := issue (.tretSkip f) s fun c => tret c .skip
def execTretKill (f : Fields) (s : State) : Host.Outcome State Fault Refusal := issue (.tretKill f) s fun c => tret c .kill

/-- SNAP; its permission is checked at decode. -/
def execSnap (f : Fields) (s : State) : Host.Outcome State Fault Refusal :=
  issue (.snap f) s fun c =>
    .done (if c.lanes.isEmpty then c.s else fireSnapshot c.s 1 0 c.f.c.toNat c.g.core c.pc)

/-- UDF traps ILL at decode, like every word that is no instruction (R71). -/
def execUdf (f : Fields) (s : State) : Host.Outcome State Fault Refusal := issue (.udf f) s fun c => trapFirst c .ill

end Sys2Proof.Machine
end

