-- ==== Sys2Proof/Machine/Bins.lean ====
section
/-! DEFINITION. Awaited events (R110, R163), the choice of the bin unit (R170, R208, R209), draining (R59, R167,
R171, R194, R351), the creation of gangs (R19, R207), aging (R212) and the balancer (R214). -/

namespace Sys2Proof.Machine

/-! ## Awaited events (R163) -/

/-- A gang in whose name the part acts for a record. -/
def recGang (m : RecMeta) : Gang where
  core := m.core
  slot := 0
  base := 0
  vbud := 0
  gbud := 64
  ctx := m.ctx
  role := m.role
  group := m.group
  handler := m.handler
  fw := m.fw
  g := []
  h := []
  islot := 0
  departed := false
  slices := []
  subs := []

/-- An awaited lane's value at its destination in the record; outside the live set it is discarded. A g register
takes the value of the lowest awaited lane (R10). -/
def deliverValue (s : State) (m : RecMeta) (lane : Nat) (vals : List W32) : State :=
  let r := readHead s m
  let d := m.dest
  let lowest := (s.waits.filter fun w => w.rid == m.rid).all fun w => decide (lane ≤ w.lane)
  if 192 ≤ d && d < 199 then
    let w := r.w 3
    let i := 12 + 7 * lane + (d - 192)
    let v := (vals.getD 0 0).getLsbD 0
    recPut s m 0x18 (natToBytes 8 (if bitOf w i = v then w else if v then w + 2 ^ i else w - 2 ^ i))
  else
    ((vals.take m.dregs).zipIdx).foldl (fun s e =>
      let j := d + e.2
      let bytes := natToBytes 4 e.1.toNat
      if d < 128 then (if j < r.livev then recPut s m (128 + 16 * j + 4 * lane) bytes else s)
      else if d < 192 then (if j - 128 < 8 && r.liveg && lowest then recPut s m (r.gOff + 4 * (j - 128)) bytes else s)
      else s) s

/-- A lane no longer waits; with none left the record becomes runnable, unless a trap holds it. The copy kept of a
held record follows. -/
def clearWait (s : State) (m : RecMeta) (lane : Nat) : State :=
  let w := (readHead s m).w 3
  let w := if bitOf w (60 + lane) then w - 2 ^ (60 + lane) else w
  let s := recPut s m 0x18 (natToBytes 8 w)
  let s := s.updRec m.rid fun r => { r with
    copy := if r.copy.isEmpty then [] else patch r.copy 0x1f (natToBytes 1 (fld (bytesToNat ((r.copy.drop 0x1f).take 1)) 3 0 + fld w 63 60 * 16)),
    pts := max r.pts (s.latest + 1)
    fences := updAt lane (fun t => { t with seen := t.seen ++ ((s.waits.filter fun q => q.rid == m.rid && q.lane == lane).flatMap fun q => q.seen) }) r.fences }
  if fld w 63 60 = 0 then
    let s := { s with waits := s.waits.filter fun q => q.rid != m.rid }
    if m.trap.isSome then s else makeRunnable s m.rid
  else s

/-- The mark that a failed event leaves: a walk's for the lane's next attempt (R271, R436), any other as a failure
that traps before the resume clause (R315). -/
def markFailure (s : State) (m : RecMeta) (w : Wait) : State :=
  let what := match w.fired with
    | some [a, b] => a.toNat + b.toNat * 2 ^ 32
    | _ => 0
  match w.kind with
  | .walk _ _ vpn => s.updRec m.rid fun r => { r with marks := r.marks ++ [(w.lane, what % 64 + 64 * vpn)] }
  | _ => s.updRec m.rid fun r => { r with
      merr := addErr r.merr ⟨r.waitAt.pc, r.waitAt.cwords, r.waitAt.ilen, [(w.lane, what)]⟩ }

/-- The store of a handle that waited for its future: performed, sent to another home, waiting for its line, or failed
(R110). -/
inductive HandleStore where
  | done (s : State)
  | posted (s : State)
  | ask (s : State)
  | failed (s : State) (addr : Nat)

/-- A write-combining page's store is written at once: no slice is left whose buffer it would be. -/
def handleStore (s : State) (m : RecMeta) (lane h pa va memType : Nat) : HandleStore :=
  let data := natToBytes 4 h
  let a : Acc := ⟨0, lane, va, pa, 4, memType, .store data, none, false, 0, []⟩
  let who := ReqFor.core m.core
  match accState s m.core a with
  | .failed => .failed (clearFailed s who [pa]) (failAddr s m.core a)
  | .missing => .ask (askLine s (m.core / 64) who (s.core m.core).pts pa true)
  | _ =>
    if isOwn s pa && (placeOf s (localOf pa)).region = .dev then
      .done (deviceWrite s (if m.fw then .firmware else .program m.core) (localOf pa) data)
    else if isOwn s pa || isHbm pa && memType = 0 && ownsCopy s (m.core / 64) pa then .done (writeAt s m.core m.ctx pa data)
    else
      let q := mkMsg s (m.core / 64) who (nodeOf pa) 0 (s.core m.core).pts pa
      let word := 1 < memType || !isHbm pa
      .posted (postMsg s (.monitor m.rid lane) (if word then 3 else 2) (if word then { q with data := data } else maskedWrite q pa data))

/-- A port whose head entry has bytes stored in it, if no entry was popped since the store was issued. -/
def Port.stored (p : Port) (popped off : Nat) (bs : List Byte) : Port :=
  match p.entries with
  | e :: r =>
    if p.popped = popped && off + bs.length ≤ 128 then
      { p with entries := loadImage.words (patch (e.flatMap fun w => natToBytes 4 w.toNat) off bs) :: r }
    else p
  | [] => p

/-- The store of a handle into a receive port's head entry that waited for its future: into the entry it was checked against;
an entry popped meanwhile is nowhere (R110, R375, log entry 137). -/
def portStore (s : State) (core port popped off h : Nat) : State :=
  s.setCore core fun k => { k with ports := updAt port (fun p => p.stored popped off (natToBytes 4 h)) k.ports }

/-- LANE_EVENT_FIRE: the event of one lane of a written record has come about. -/
def execLaneEventFire (rid lane : Nat) (s : State) : Host.Outcome State Fault Refusal :=
  match s.rec? rid, s.waits.find? fun w => w.rid == rid && w.lane == lane with
  | some m, some w =>
    match w.fired with
    | none => .next s
    | some vals =>
      if !bitOf (readHead s m).waits lane then .next s
      else if w.failed then .next (clearWait (markFailure s m w) m lane)
      else match w.kind with
        | .futStore h pa va ty =>
          match handleStore s m lane h pa va ty with
          | .done s => .next (clearWait s m lane)
          | .posted s =>
            .next { s with waits := updWhere (fun q => q.rid == rid && q.lane == lane) (fun q => { q with kind := .stored, fired := none }) s.waits }
          | .ask s => .next s
          | .failed s a => .next (clearWait (markFailure s m { w with fired := some [BitVec.ofNat 32 a, BitVec.ofNat 32 (a / 2 ^ 32)] }) m lane)
        | .futPort h core port popped off => .next (clearWait (portStore s core port popped off h) m lane)
        | _ => .next (clearWait (deliverValue s m lane vals) m lane)
  | _, _ => .next s

/-! ## Gang slots and register space (R171, R207, R210, R251) -/

/-- The lowest free gang slot of a core. -/
def freeSlot (s : State) (core : Nat) : Option Nat :=
  (List.range 32).find? fun k => (s.gang core k).isNone

/-- The lowest free run of n units of 128 register-file bytes; a core has 3,072. -/
def freeRun (s : State) (core n : Nat) : Option Nat :=
  let gs := s.gangs.filter fun g => g.core == core
  (0 :: gs.map fun g => g.base + g.vbud).foldl (fun best b =>
    if b + n ≤ 3072 && gs.all (fun g => decide (b + n ≤ g.base) || decide (g.base + g.vbud ≤ b)) then
      (match best with | some a => some (min a b) | none => some b)
    else best) none

/-- The issue slot with the fewest resident gangs, the lowest-numbered on a tie (R210). -/
def pickIslot (s : State) (core : Nat) : Nat :=
  let n := fun k => (s.gangs.filter fun g => g.core == core && g.islot == k).length
  (List.range 4).foldl (fun b k => if n k < n b then k else b) 0

/-! ## Loading a record (R59, R193, R370) -/

/-- A fibre of a fibre block's entry: its lane, its number, its state. -/
def fibreEntry (b : List Byte) : Nat × Nat × Fibre :=
  let w := fun o n => bytesToNat ((b.drop o).take n)
  (fld (w 28 4) 6 5, fld (w 28 4) 4 2,
   ⟨bitOf (w 28 4) 0, BitVec.ofNat 64 (w 0 8), BitVec.ofNat 64 (w 8 8), BitVec.ofNat 32 (w 16 4), BitVec.ofNat 32 (w 20 4),
    BitVec.ofNat 32 (w 24 4), bitOf (w 28 4) 1⟩)

/-- The fibres of a lane that a record's fibre block holds. -/
def loadFibres (s : State) (m : RecMeta) (lane : Nat) : List Fibre :=
  match m.fibre with
  | none => List.replicate 8 Fibre.closed
  | some (a, n) =>
    ((List.range (n / 32)).map fun i => fibreEntry (poolBytes s (a + 32 * i) 32)).foldl (fun fs e =>
      if e.1 = lane then fs.set e.2.1 e.2.2 else fs) (List.replicate 8 Fibre.closed)

/-- One lane as its record holds it: the e registers where LIVEE says so (R59, log entry 58); those and the predicates of a record
altered while held are any values (R168). -/
def loadLane (s : State) (m : RecMeta) (r : RecImage) (k : Nat) : Lane :=
  let x := fun j =>
    if r.xptr = 0 || !r.livee then 0#32
    else if m.tampered then freeWord s (2 ^ 41 + 4 * k + j)
    else BitVec.ofNat 32 (bytesToNat (recBytes s m (r.xOff + 16 * j + 4 * k) 4))
  let e := m.exp.getD k (false, false, false)
  { preds := if m.tampered then (freeWord s (2 ^ 42 + k)).setWidth 7 else BitVec.ofNat 7 (r.preds k), fpstat := BitVec.ofNat 5 (r.fp k), rstate := BitVec.ofNat 32 (r.rstate k),
    e0 := x 0, e1 := x 1, e2 := x 2, e3 := x 3, xbound := e.1, xitem := e.2.1, xgave := e.2.2,
    fibres := loadFibres s m k, fence := m.fences.getD k FenceMark.none }

/-- The slice that a record holds. -/
def loadSlice (s : State) (m : RecMeta) (pos sub : Nat) : Slice :=
  let r := readHead s m
  { pos := pos, pc := r.hdr, active := BitVec.ofNat 4 r.active, live := BitVec.ofNat 4 r.live, tokens := r.tokens,
    flags := List.replicate 12 0,
    bind := (List.range 4).map fun k => if 8 ≤ r.bindNib k && r.bindNib k < 12 then some (r.bindNib k % 4) else none,
    prio := r.prio, lids := m.lids, number := r.number, index := r.index, restart := r.restart, stuck := m.stuck,
    xsave := if r.xptr = 0 then none else some r.xptr, lanes := (List.range 4).map (loadLane s m r), merr := m.merr,
    retry := m.marks, walked := some m.rid, bypass := m.bypass, st := .run sub }

/-- Words of the register file for a position of a gang: saved values below LIVEV, else 0; a record altered while
held gives any values (R168). -/
def loadRegs (s : State) (g : Gang) (m : RecMeta) (pos : Nat) : State :=
  let r := readHead s m
  { s with
    rf := (List.range g.vbud).foldl (fun rf j => (List.range 4).foldl (fun rf k =>
      tabPut 0 rf (vKey g pos k j)
        (if m.tampered then freeWord s (vKey g pos k j)
         else if j < r.livev then BitVec.ofNat 32 (bytesToNat (recBytes s m (128 + 16 * j + 4 * k) 4))
         else 0)) rf) s.rf }

/-- g0–g7 of a record, and zeros (R59, R171). -/
def loadG (s : State) (m : RecMeta) : List W32 :=
  let r := readHead s m
  (List.range 64).map fun j =>
    if r.liveg && decide (j < 8) then
      (if m.tampered then freeWord s (2 ^ 40 + j) else BitVec.ofNat 32 (bytesToNat (recBytes s m (r.gOff + 4 * j) 4)))
    else 0

/-! ## Records that cannot drain (R167, R420) -/

/-- The part cannot read the header. -/
def headerBad (s : State) (m : RecMeta) : Bool := m.body.isNone && lineBad s m.pa 128

/-- The images of spilled slots that a record's handles bind (R351). -/
def spilledOf (s : State) (m : RecMeta) : List Nat :=
  let r := readHead s m
  distinct ((List.range 4).filterMap fun k => if 12 ≤ r.bindNib k && m.images.getD k 0 ≠ 0 then some (m.images.getD k 0) else none)

/-- What the drain of a record reads beside its header: body, fibre block, expansion block, spilled images. -/
def drainBlocks (s : State) (m : RecMeta) : List (Nat × Nat) :=
  let r := readHead s m
  (if m.body.isNone then [(m.pa + 128, m.size - 128)] else []) ++ m.fibre.toList ++
  (if r.xptr != 0 && isOwn s r.xptr && (expAnywhere s r.xptr).isNone then [(poolKey s r.xptr, 128)] else []) ++
  (spilledOf s m).map fun a => (a, 163840)

/-- The header can be read, another block cannot: the first such block. -/
def badBlock (s : State) (m : RecMeta) : Option (Nat × Nat) := (drainBlocks s m).find? fun b => lineBad s b.1 b.2
def blockBad (s : State) (m : RecMeta) : Bool := (badBlock s m).isSome

/-- The lines of a record that is read are corrected where they can be (R314). -/
def scrubRecord (s : State) (m : RecMeta) : State :=
  (drainBlocks s m).foldl (fun s b => scrub s b.1 b.2) (if m.body.isNone then scrub s m.pa 128 else s)

/-- The threads of a record with an unreadable header end, and a LOST entry names it. -/
def lostRecord (s : State) (m : RecMeta) : State :=
  let s := noteUncorrectable s m.pa
  let rep : Report := { cause := causeCode .memerr, kind := 6, ctx := m.ctx, addr := ownPa s m.pa, loc := corelocOf s m.core }
  killRecord (report (report s (some m.ctx) (m.core / 64) none none rep) none (m.core / 64) none none rep) m.rid

/-- A record is delivered as a trap under R411 where it stands: moved to a place with room for its trap block; none
when no tier has room. -/
def trapRecord (s : State) (m : RecMeta) (cause : Cause) : Option State :=
  let r := readHead s m
  let size := grain m.size
  let fib := match m.fibre with | some f => poolBytes s f.1 f.2 | none => []
  (recordRoom s m.core (size + 128) fib.length).map fun a =>
    let x := loadSlice s m 0 0
    let l := lowLane (if r.active = 0 then BitVec.ofNat 4 r.live else BitVec.ofNat 4 r.active)
    let t := { trapInfo m.rid ⟨r.hdr, r.word, 0, 0⟩ (hitAt 0 l cause) with dest := m.dest, dregs := m.dregs, waitAt := m.waitAt }
    let s := unbin s m.rid
    let s := if s.regs.snapMask.getLsbD (causeCode cause) then fireSnapshot s 3 (causeCode cause) 0 m.core t.pc else s
    let s := recPut s m 8 (natToBytes 8 (kindCode .trap * 2 ^ 60))
    let s := recPut s m 0x10 (natToBytes 8 (r.w 2 % 2 ^ 58 + causeCode cause * 2 ^ 58))
    let bytes := match s.rec? m.rid with | some m => recBytes s m 0 m.size | none => []
    let s := if m.body.isNone then poolFree s m.pa else s
    let s := match m.fibre with | some f => poolFree s f.1 | none => s
    let nested := m.handler.isSome
    let s := if nested then s else readHandler s m.core m.ctx
    let formed := if nested then none else formHandler s m.core m.ctx (ownPa s a) (ownPa s (a + size))
    let s := formed.getD s
    let rep := trapReport s (recGang m) x t (if nested then 1 else 0) (!nested && formed.isNone) r.hdr
    let seq := nextSeq s (some m.ctx)
    let s := report s (some m.ctx) (m.core / 64) (some m.rid) none rep
    let s := if nested || formed.isNone then report s none (m.core / 64) none none rep else s
    let s := storeRecord s m.ctx a bytes (trapBlock x t seq) fib
    s.updRec m.rid fun q => { q with
      fibre := if fib.isEmpty then none else some (a + size + 128, fib.length)
      pa := a, body := none, st := .held, trap := some t, copy := bytes, fibCopy := fib, nested := if nested then q.handler else none }

/-- A record that may not drain is lost or delivered, once the handler's entry can be read; others are untouched. -/
def rejectRecord (s : State) (m : RecMeta) : State :=
  if headerBad s m then lostRecord s m
  else match (if m.handler.isSome then none else handlerLine s m.core m.ctx), badBlock s m with
  | some pa, _ => askLine s (m.core / 64) (.core m.core) (s.core m.core).pts pa false
  | none, some b => (trapRecord (noteUncorrectable s b.1) m .engerr).getD s
  | none, none => if recordOk (readHead s m) then s else (trapRecord s m .ill).getD s

def rejected (s : State) (m : RecMeta) : Bool := headerBad s m || blockBad s m || !recordOk (readHead s m)

/-! ## Spilled accumulator slots (R351) -/

/-- The group of a record. -/
def groupOf (s : State) (gid : Option Nat) : Option Group := gid.bind fun id => s.groups.find? fun g => g.gid == id

/-- A CTL word whose BIND nibble of each handle is replaced (R166, R350). -/
def mapBind (f : Nat → Nat → Nat) (w : Nat) : Nat :=
  (List.range 4).foldl (fun w k =>
    let n := fld w (44 + 4 * k) (41 + 4 * k)
    w - n * 2 ^ (41 + 4 * k) + f k n * 2 ^ (41 + 4 * k)) w

/-- The part rewrites BIND of a record, and of the copy that it keeps of a held one (R414). -/
def rebind (f : Nat → Nat → Nat) (s : State) (m : RecMeta) : State :=
  let w := (readHead s m).w 2
  if mapBind f w = w then s
  else (recPut s m 0x10 (natToBytes 8 (mapBind f w))).updRec m.rid fun r => { r with
    copy := if r.copy.isEmpty then [] else patch r.copy 0x10 (natToBytes 8 (mapBind f (bytesToNat ((r.copy.drop 0x10).take 8)))) }

/-- Reload one image of a group into a free slot of its core; none when no slot is free. -/
def reloadSlot (s : State) (g : Group) (a : Nat) : Option State :=
  ((s.core g.core).slots.findIdx? fun b => !b).map fun new =>
    let s := { s with mem := tabPuts 0#8 s.mem (windowBase g.core + 0x400000 + new * 0x28000) (poolBytes s a 163840) }
    let s := (s.recs.filter fun m => m.group == some g.gid).foldl (fun s m =>
      (rebind (fun k n => if 12 ≤ n && m.images.getD k 0 = a then 8 + new else n) s m).updRec m.rid fun r => { r with
        images := r.images.map fun b => if b = a then 0 else b }) (poolFree s a)
    let s := s.setCore g.core fun k => { k with slots := k.slots.set new true }
    { s with groups := updWhere (fun q => q.gid == g.gid) (fun q => { q with spills := q.spills.filter fun b => b != a }) s.groups }

/-- Reload every spilled slot that a record binds. -/
def reloadFor (s : State) (m : RecMeta) : Option State :=
  (spilledOf s m).foldl (fun (r : Option State) a => r.bind fun s =>
    match groupOf s m.group with
    | some g => reloadSlot s g a
    | none => none) (some s)

/-! ## The choice of the bin unit (R170, R208) -/

/-- What can be chosen. -/
inductive Pick where
  | bin (b cls : Nat)
  | gang
  deriving DecidableEq, Repr

/-- A candidate: its priority, class, age and number, and the units of register space it needs. -/
structure Cand where
  prio : Nat
  cls : Nat
  age : Nat
  num : Nat
  vbud : Nat
  pick : Pick
  deriving DecidableEq, Repr

/-- A record's expansion can be held: none, or in a slot of the core already, or its state stands in its save area
and a slot is free (R194). -/
def expReady (s : State) (core save : Nat) : Bool :=
  save = 0 || (expAt s core save).isSome || expSlotFree s core && (expAnywhere s save).isNone &&
    (isOwn s save || (saveMissing s (core / 64) save).isEmpty)

def anyFull (s : State) (core : Nat) : Bool := (s.core core).bins.any fun b => 8 ≤ b.length

/-- The class of a bin: 0 full, 1 past its timeout, 3 only because the core holds no full bin. -/
def binClass (s : State) (core : Nat) (b : List Nat) (m : RecMeta) : Option Nat :=
  if 8 ≤ b.length then some 0
  else if m.since + 3400 ≤ s.clk then some 1
  else if anyFull s core then none else some 3

/-- The records of a bin that a choice of this clk may take: those that became runnable before it (R209). -/
def drainOf (s : State) (b : List Nat) : List RecMeta := (b.filterMap s.rec?).filter fun m => m.readyAt < s.clk

/-- The PRIO with which a record is judged: a rise by aging in this clk does not count yet (R209). -/
def judgedPrio (s : State) (m : RecMeta) : Nat :=
  (readHead s m).prio - (if m.raised == s.clk then m.raisedN else 0)

def binCand (s : State) (core n : Nat) (b : List Nat) : Option Cand :=
  match drainOf s b with
  | [] => none
  | m :: ms =>
    let r := readHead s m
    if !rejected s m && (!expReady s core r.xptr || (reloadFor s m).isNone) then none
    else (binClass s core b m).map fun c => ⟨((m :: ms).map (judgedPrio s)).foldl max 0, c, m.since, n, r.vbud, .bin n c⟩

/-- Gangs of a group that hold a created thread (R200). -/
def gangsOf (l : Launch) (gi : Nat) : Nat :=
  let e := extents (wordAt l.words 1)
  let per := e.getD 2 1
  let n := fld (wordAt l.words 2) 58 32
  ((List.range (e.getD 3 1)).filter fun j => decide (((gi * e.getD 3 1 + j) * per) * 4 < n)).length

/-- The group whose next gang a core may create, with its launch. -/
def gangNext (s : State) (core : Nat) : Option (Group × Launch) :=
  match groupOf s (s.core core).group with
  | some g =>
    match s.launches.find? fun l => l.lid == g.lid with
    | some l => if g.st = .placed && g.held = 0 && g.nextGang < gangsOf l g.gi then some (g, l) else none
    | none => none
  | none => none

def gangCand (s : State) (core : Nat) : Option Cand :=
  (gangNext s core).map fun e =>
    let c := wordAt e.2.words 0
    ⟨fld c 51 47, 2, e.2.activeAt, 64, 8 * fld c 39 35, .gang⟩

/-- Candidate a comes before b. -/
def Cand.before (a b : Cand) : Bool :=
  a.prio > b.prio || a.prio == b.prio && (a.cls < b.cls || a.cls == b.cls && (a.age < b.age || a.age == b.age && decide (a.num < b.num)))

def candidates (s : State) (core : Nat) : List Cand :=
  ((s.core core).bins.zipIdx.filterMap fun e => binCand s core e.2 e.1) ++ (gangCand s core).toList

/-- The first candidate whose register space is free, when a gang slot is free (R208). A rise by aging that is due comes first (R212). -/
def choice208 (s : State) (core : Nat) : Option Cand :=
  if (freeSlot s core).isNone || (s.core core).gated || s.recs.any (fun m => m.core == core && recordAged s m) then none
  else (candidates s core).foldl (fun best c =>
    if (freeRun s core c.vbud).isNone then best
    else match best with
      | none => some c
      | some b => if c.before b then some c else some b) none

/-! ## Draining (R171) -/

/-- The records from the front that drain together: as many of the first 8 as can hold their expansions. -/
def drainable (s : State) (core : Nat) : Nat → List Nat → List RecMeta
  | 0, _ => []
  | _, [] => []
  | n + 1, rid :: t =>
    match s.rec? rid with
    | none => []
    | some m =>
      let save := (readHead s m).xptr
      if !expReady s core save || (reloadFor s m).isNone then []
      else
        let s := (reloadFor s m).getD s
        let s := if save = 0 || (expAt s core save).isSome then s else placeExp s core (loadExpansion s (core / 64) save)
        m :: drainable s core n t

/-- Load a record into a position of a gang, and free its place. -/
def drainOne (core slot : Nat) (s : State) (e : RecMeta × Nat) : State :=
  match s.rec? e.1.rid, s.gang core slot with
  | some m, some g =>
    let s := scrubRecord s m
    let s := (reloadFor s m).getD s
    let save := (readHead s m).xptr
    let s := if save = 0 || (expAt s core save).isSome then s else placeExp s core (loadExpansion s (core / 64) save)
    let x := loadSlice s m e.2 ((g.subs.map fun u => u.id).headD 0)
    let s := (loadRegs s g m e.2).updGang core slot fun g => { g with slices := g.slices ++ [x] }
    let s := s.setCore core fun k => { k with pts := max k.pts (m.pts + 1) }
    dropRecord s m.rid
  | _, _ => s

/-- A gang is formed from records (R171). -/
def formGang (s : State) (core slot base : Nat) (ms : List RecMeta) : State :=
  match ms with
  | [] => s
  | m :: _ =>
    let r := readHead s m
    let u := s.nextId
    let g : Gang :=
      { core := core, slot := slot, base := base, vbud := r.vbud, gbud := r.gbud, ctx := r.ctx, role := m.role, group := m.group,
        handler := m.handler, fw := m.fw, g := loadG s m, h := List.replicate 16 0, islot := pickIslot s core,
        departed := false, slices := [], subs := [⟨u, r.word, none, 0, 0, none⟩] }
    let s := { s.bump with gangs := s.gangs ++ [g] }
    (ms.zipIdx).foldl (drainOne core slot) s

/-- The chosen bin drains: its bad records leave it, and the others form a gang. -/
def drainBin (s : State) (core bin vbud : Nat) : State :=
  let front := ((drainOf s ((s.core core).bins.getD bin [])).take 8).map fun m => m.rid
  let s := { s with fresh := s.fresh + 1 }
  let bad := front.filter fun rid => match s.rec? rid with | some m => rejected s m | none => false
  let s := (bad.filterMap s.rec?).foldl rejectRecord s
  let ms := drainable s core 8 (front.filter fun rid => !bad.contains rid)
  match freeSlot s core, freeRun s core vbud with
  | some slot, some base => tidyGang (formGang s core slot base ms) core slot
  | _, _ => s

/-- The front record of a bin that a choice may take. -/
def binFront (s : State) (core bin : Nat) : Option RecMeta := (drainOf s ((s.core core).bins.getD bin [])).head?

/-- The front record of a bin is bound to an expansion that stands in no slot of the core. -/
def frontLoads (s : State) (core bin : Nat) : Bool :=
  let save := match binFront s core bin with
    | some m => (readHead s m).xptr
    | none => 0
  save != 0 && (expAt s core save).isNone

/-- The bin is the choice, in one of the given classes, its front record's expansion standing in a slot or not. -/
def drainStep (core bin : Nat) (cls : Nat → Bool) (load : Bool) (s : State) : Host.Outcome State Fault Refusal :=
  match choice208 s core with
  | some c =>
    match c.pick with
    | .bin b k =>
      if b = bin && (if load then frontLoads s core bin else !frontLoads s core bin && cls k) then .next (drainBin s core bin c.vbud)
      else .next s
    | .gang => .next s
  | none => .next s

/-- BIN_DRAIN: a full bin, or one drainable because the core holds no full bin. -/
def execBinDrain (core bin : Nat) (s : State) : Host.Outcome State Fault Refusal := drainStep core bin (· != 1) false s

/-- BIN_TIMEOUT: a partial bin whose front record has waited 4 µs. -/
def execBinTimeout (core bin : Nat) (s : State) : Host.Outcome State Fault Refusal := drainStep core bin (· == 1) false s

/-- The lines of another module's save area that the front record of a bin still needs (R452). -/
def frontMissing (s : State) (core bin : Nat) : List Nat :=
  match binFront s core bin with
  | some m =>
    let a := (readHead s m).xptr
    if a = 0 || isOwn s a || (expAnywhere s a).isSome then [] else saveMissing s (core / 64) a
  | none => []

/-- EXP_SLOT_LOAD: the front record's expansion is loaded into a slot. -/
def execExpSlotLoad (core bin : Nat) (s : State) : Host.Outcome State Fault Refusal :=
  match frontMissing s core bin with
  | l :: _ =>
    .next ((askLine s (core / 64) (expUnit core) (s.core core).pts l false).setCore core fun k => k)
  | [] => drainStep core bin (fun _ => true) true s

/-! ## Creating a gang (R19, R207) -/

/-- The role of logical gang j (R199). -/
def roleOf (l : Launch) (j : Nat) : Role :=
  if !bitOf (wordAt l.words 0) 45 then .general
  else match fld (wordAt l.words 3) (2 * j + 1) (2 * j) with
    | 1 => .feed
    | 2 => .matrix
    | 3 => .vector
    | _ => .general

/-- A slice of a launch as R19 sets it. -/
def launchSlice (l : Launch) (pos index sub : Nat) : Slice :=
  let n := fld (wordAt l.words 2) 58 32
  let live := ((List.range 4).filter fun k => decide (4 * index + k < n)).foldl (fun m k => m ||| laneBit k) 0#4
  { pos := pos, pc := l.entryAddr, active := live, live := live, tokens := [], flags := List.replicate 12 0,
    bind := List.replicate 4 none, prio := fld (wordAt l.words 0) 51 47, lids := List.replicate 4 l.lid, number := l.number,
    index := index, restart := none, stuck := false, xsave := none,
    lanes := (List.range 4).map fun k => { Lane.start with rstate := BitVec.ofNat 32 (4 * index + k) ^^^ 0x9e3779b9#32 },
    merr := [], retry := [], walked := none, bypass := false, st := .run sub }

/-- GANG_CREATE: the next logical gang of the core's group, whole. -/
def createGang (s : State) (core : Nat) (g : Group) (l : Launch) (slot base : Nat) : State :=
  let c := wordAt l.words 0
  let e := extents (wordAt l.words 1)
  let n := fld (wordAt l.words 2) 58 32
  let first := (g.gi * e.getD 3 1 + g.nextGang) * e.getD 2 1
  let u := s.nextId
  let xs := ((List.range (e.getD 2 1)).filter fun k => decide (4 * (first + k) < n)).map fun k => launchSlice l k (first + k) u
  let p := wordAt l.words 4
  let q : Gang :=
    { core := core, slot := slot, base := base, vbud := 8 * fld c 39 35, gbud := 8 * fld c 29 26, ctx := l.ctx,
      role := roleOf l g.nextGang, group := some g.gid, handler := none, fw := l.fw,
      g := [BitVec.ofNat 32 p, BitVec.ofNat 32 (p / 2 ^ 32)] ++ List.replicate 62 0, h := List.replicate 16 0,
      islot := pickIslot s core, departed := false, slices := xs, subs := [⟨u, 0, none, 0, 0, none⟩] }
  let s := { s.bump with
    gangs := s.gangs ++ [q]
    groups := updWhere (fun x => x.gid == g.gid) (fun x => { x with nextGang := x.nextGang + 1 }) s.groups
    rf := (List.range q.vbud).foldl (fun rf j => xs.foldl (fun rf (x : Slice) => (List.range 4).foldl (fun rf k =>
      tabPut 0 rf (vKey q x.pos k j) 0) rf) rf) s.rf }
  s.link core

def execGangCreate (core : Nat) (s : State) : Host.Outcome State Fault Refusal :=
  match choice208 s core with
  | some c =>
    match c.pick, gangNext s core, freeSlot s core, freeRun s core c.vbud with
    | .gang, some (g, l), some slot, some base => .next (createGang s core g l slot base)
    | _, _, _, _ => .next s
  | none => .next s

/-! ## Aging (R212) -/

/-- AGING_STEP: PRIO of every affected slice rises by one, to at most 22. -/
def execAgingStep (who : AgeRef) (s : State) : Host.Outcome State Fault Refusal :=
  match who with
  | .record rid =>
    match s.rec? rid with
    | some m =>
      if !recordAged s m then .next s
      else
        let w := (readHead s m).w 2
        let p := fld w 21 17
        let t := recPut s m 0x10 (natToBytes 8 (w - p * 2 ^ 17 + raisePrio p * 2 ^ 17))
        .next (t.updRec rid fun r => { r with
          riseAt := nextRise s (m.core / 64) r.riseAt
          raised := if raisePrio p = p then r.raised else s.clk
          raisedN := if raisePrio p = p then r.raisedN else if r.raised = s.clk then r.raisedN + 1 else 1 })
    | none => .next s
  | .subgang core slot sub =>
    match s.gang core slot with
    | none => .next s
    | some g =>
      match g.sub sub with
      | none => .next s
      | some u =>
        if !subAged s core u then .next s
        else .next (s.updGang core slot fun g => { g with
          slices := g.slices.map fun x => if x.st == .run sub then { x with prio := raisePrio x.prio } else x,
          subs := updWhere (fun v => v.id == sub) (fun v => { v with riseAt := nextRise s (core / 64) v.riseAt }) g.subs })

/-! ## The balancer (R214) -/

/-- A record that the balancer may move. -/
def movable (s : State) (m : RecMeta) : Bool :=
  let r := readHead s m
  m.group.isNone && m.handler.isNone && r.waits == 0 && r.xptr == 0 && !m.pre

/-- The full bin of movable records that a core's last choice passed over, of highest priority. -/
def sourceBin (s : State) (core : Nat) : Option (Nat × Nat × Nat) :=
  ((s.core core).bins.zipIdx).foldl (fun best e =>
    let ok := 8 ≤ e.1.length && (e.1.take 8).all (fun rid => match s.rec? rid with | some m => movable s m | none => false)
    match (if ok then (e.1.head?).bind s.rec? else none) with
    | none => best
    | some m =>
      let v := (readHead s m).vbud
      if (freeSlot s core).isSome && (freeRun s core v).isSome then best
      else
        let p := binPrio s e.1
        match best with
        | some (q, _, _) => if q < p then some (p, e.2, v) else best
        | none => some (p, e.2, v)) none

def freeSlots (s : State) (core : Nat) : Nat := 32 - (s.gangs.filter fun g => g.core == core).length

/-- A core that may receive records of a budget. -/
def targetFor (s : State) (v core : Nat) : Bool :=
  s.coreOn core && (freeSlot s core).isSome && (freeRun s core v).isSome &&
  ((s.core core).bins.zipIdx.filterMap fun e => binCand s core e.2 e.1).isEmpty

/-- The target with the most free gang slots, the lowest-numbered on a tie, among those not taken yet. -/
def bestTarget (s : State) (v : Nat) (cores : List Nat) : Option Nat :=
  (cores.filter (targetFor s v)).foldl (fun b c =>
    match b with
    | none => some c
    | some d => if freeSlots s d < freeSlots s c then some c else b) none

/-- A record goes to another core's bins with its ages. -/
def moveRecord (core : Nat) (s : State) (rid : Nat) : State :=
  binRecord ((unbin s rid).updRec rid fun r => { r with core := core, pts := max r.pts (s.latest + 1) }) rid

/-- Pair the sources, in order of priority, with targets. -/
def balance : List (Nat × Nat × Nat × Nat) → List Nat → State → State
  | [], _, s => s
  | (_, core, bin, v) :: rest, cores, s =>
    match bestTarget s v cores with
    | none => balance rest cores s
    | some t => balance rest (cores.filter fun c => c != t) ((((s.core core).bins.getD bin []).take 8).foldl (moveRecord t) s)

def dieCores (die : Nat) : List Nat := (List.range 64).map fun k => die * 64 + k

/-- Sources of a die, highest priority first. R214 gives no order among sources, or among full bins of one core, of equal
priority: the lowest core number and the lowest bin number come first (DESIGN CHOICE, log entry 119). -/
def sources (s : State) (die : Nat) : List (Nat × Nat × Nat × Nat) :=
  sortBy (fun a b => decide (b.1 ≤ a.1)) ((dieCores die).filterMap fun c => (sourceBin s c).map fun e => (e.1, c, e.2.1, e.2.2))

/-- BALANCER_PERIOD. -/
def execBalancerPeriod (die : Nat) (s : State) : Host.Outcome State Fault Refusal :=
  if s.clk < (s.dieRegs die).balNext then .next s
  else
    let src := sources s die
    let s := balance src ((dieCores die).filter fun c => !(src.any fun e => e.2.1 == c)) s
    .next (s.setDie die fun d => { d with balNext := s.clk + d.balper * 850 })

end Sys2Proof.Machine
end

