-- ==== Sys2Proof/Machine/MemSys.lean ====
section
/-! DEFINITION. Full-empty accesses, atomics, waits on a word, fences, maintenance, transposing loads and queue
ports (R317–R334, R316). -/

namespace Sys2Proof.Machine

/-! ## Full-empty loads and stores (R321–R323) -/

/-- Targets of full-empty accesses: a scratchpad window of this module, below its core's pool region. -/
def feTarget (s : State) (t : Xlt) : Option Cause :=
  match ownPlace s t with
  | some p => if p.region == .scratch && decide (p.off < spBase s p.core) then none else some .resv
  | none => some .resv

/-- The place of an access in the plain view. -/
def plainOf (s : State) (pa : Nat) : Place := placeOf s (localOf pa)

/-- Local address of a scratchpad byte in the plain view. -/
def plainLa (p : Place) : Nat := windowBase p.core + 0x80000 + p.off

/-- How far the lanes of LDFE have come. -/
structure FeLoads where
  s : State
  writes : List VlWrite
  waits : List Acc
  failed : List (Nat × Nat × Nat)

/-- One lane's test, read and clear (R321). -/
def feLoad (c : Ctx) (r : FeLoads) (a : Acc) : FeLoads :=
  let p := plainOf r.s a.pa
  let k := p.off / 16
  if lineBad r.s (localOf a.pa) a.bytes || lineBad r.s (feKey p.core k) 1 then
    { r with failed := r.failed ++ [(a.pos, a.lane, a.va)] }
  else if !feBit r.s p.core k then { r with waits := r.waits ++ [a] }
  else
    let v := loadImage c.ty (rawBytes r.s (localOf a.pa) a.bytes)
    let s := touchLine r.s c.g.core (localOf a.pa) (c.f.minor.getLsbD 2)
    let s := s.sees c.g.core c.g.slot a.pos a.lane (signOps s a.pa 1)
    { r with
      s := if c.f.minor.getLsbD 2 then setFe s p.core k false else s,
      writes := if c.f.d.toNat = 240 then r.writes else r.writes ++ [⟨a.pos, a.lane, c.f.d.toNat, v⟩] }

/-- The lanes of one slice that wait on empty granules end its segment. -/
def feWait (c : Ctx) (waits : List Acc) (s : State) (pos : Nat) : State :=
  match waits.filter fun a => a.pos == pos with
  | [] => s
  | a :: r =>
    let la := fun (a : Acc) => plainLa (plainOf s a.pa)
    waitSlice s c pos .fe (ownPa s (la a) / 16 % 2 ^ 50) c.f.d.toNat (c.regs .d)
      ((a :: r).map fun a => (a.lane, .fe (localOf a.pa) (c.f.minor.getLsbD 2) c.ty a.bytes))

/-- What keeps the accesses of a full-empty instruction or LDT back. -/
def feBusy (s : State) (c : Ctx) (rs : List (Want × Xlt)) : Bool :=
  accBusy s c.g c.guarded || portBusy s c.g.core (rs.map fun r => r.2.pa)

/-- The lanes of LDFE, in THREADIX order: full granules are read, the lanes of empty ones wait. -/
def feLoaded (c : Ctx) (s : State) (rs : List (Want × Xlt)) : State :=
  let r := (rs.map fun r => accOf r.1 r.2 (.load c.ty c.f.d.toNat)).foldl (feLoad c) ⟨s, [], [], []⟩
  let own := c.guarded.filter fun p => r.writes.any (fun w => w.pos == p) || r.failed.any fun e => e.1 == p
  let lost := if c.f.d.toNat = 240 then [] else
    r.failed.map fun e => (⟨e.1, e.2.1, c.f.d.toNat, List.replicate (c.regs .d) 0⟩ : VlWrite)
  let s := if own.isEmpty then r.s
    else issueLater r.s c (c.f.d.toNat != 240) own { writes := r.writes ++ lost, failed := r.failed }
  c.guarded.foldl (feWait c r.waits) s

def execLdfe (f : Fields) (s : State) : Host.Outcome State Fault Refusal :=
  issue (.ldfe f) s fun c =>
    withAccess c.s c feTarget (c.wants 4) fun s rs =>
      if feBusy s c rs then .stall s else .done (feLoaded c s rs)

/-- The granule's line or its word of full-empty bits cannot be read (R315). -/
def feBad (s : State) (pa n : Nat) : Bool :=
  let p := plainOf s pa
  lineBad s (localOf pa) n || lineBad s (feKey p.core (p.off / 16)) 1

/-- Lanes of an instruction whose array words cannot be read. -/
def feFailed (c : Ctx) (s : State) (bad : List (Want × Xlt)) : State :=
  if bad.isEmpty then s
  else issueLater s c false (distinct (bad.map fun r => r.1.x.pos))
    { failed := bad.map fun r => (r.1.x.pos, r.1.lane, r.1.va) }

/-- The lanes of STFE, in THREADIX order: each writes its bytes and marks the granule full (R322). -/
def feStored (c : Ctx) (s : State) (rs : List (Want × Xlt)) : State :=
  let s' := (rs.filter fun r => !feBad s r.2.pa r.1.bytes).foldl (fun s r =>
    let p := plainOf s r.2.pa
    let s := writeAt s c.g.core c.g.ctx r.2.pa (storeImage c.ty (c.stData r.1.x r.1.lane))
    feChange s p.core (p.off / 16) true) s
  feFailed c s' (rs.filter fun r => feBad s r.2.pa r.1.bytes)

def execStfe (f : Fields) (s : State) : Host.Outcome State Fault Refusal :=
  issue (.stfe f) s fun c =>
    withAccess c.s c feTarget (c.wants 8) fun s rs =>
      withStores s c rs fun s =>
        if feBusy s c rs then .stall s else .done (feStored c s rs)

/-- The pieces of a range inside 64 KiB pages: offset and bytes. -/
def pageParts (a n : Nat) : List (Nat × Nat) :=
  if n = 0 then []
  else (List.range ((a + n - 1) / 0x10000 + 1 - a / 0x10000)).map fun i =>
    let lo := max a ((a / 0x10000 + i) * 0x10000)
    let hi := min (a + n) ((a / 0x10000 + i + 1) * 0x10000)
    (lo - a, hi - lo)

/-- The core whose scratchpad an address lies in. -/
def scratchCore (c : Ctx) (s : State) (va : Nat) : Option Nat :=
  match (translate s (c.g.core / 64) (some c.g.core) c.g.ctx va).2 with
  | .ok t => (ownPlace s t).map fun p => p.core
  | _ => none

/-- The last byte of a piece lies where FESET may act. -/
def pieceEnds (c : Ctx) (s : State) (va : Nat) : Option Cause :=
  match (translate s (c.g.core / 64) (some c.g.core) c.g.ctx va).2 with
  | .ok t => feTarget s t
  | _ => none

/-- FESET: every page of a lane's range. A range that leaves the window of one core, or reaches that core's pool region,
comes last in R22's order. -/
def fesetWants (c : Ctx) : List Want :=
  c.lanes.flatMap fun e =>
    let a := c.src e.1 e.2 c.f.a.toNat 2 8
    let n := c.src e.1 e.2 c.f.b.toNat 1 7
    let odd := a % 16 != 0 || n % 16 != 0
    (if n = 0 && odd then [{ x := e.1, lane := e.2, va := a, bytes := 0, align := 1, need := 8, first := true }] else []) ++
    (pageParts a n).map fun q =>
      { x := e.1, lane := e.2, va := a + q.1, bytes := q.2, align := 1, need := 8, first := odd,
        also := fun s =>
          if 0x80000 < n || scratchCore c s (a + q.1) != scratchCore c s a then some .resv
          else pieceEnds c s (a + q.1 + q.2 - 1) }

/-- The granules of a piece change, in increasing order, each with a place in S. -/
def fesetRange (core : Nat) (v : Bool) (s : State) (r : Want × Xlt) : State :=
  (List.range (r.1.bytes / 16)).foldl (fun s i =>
    let q := plainOf s (r.2.pa + 16 * i)
    feChange (touchLine s core (localOf (r.2.pa + 16 * i)) true) q.core (q.off / 16) v) s

/-- A word of full-empty bits under a piece cannot be read. -/
def pieceBad (s : State) (r : Want × Xlt) : Bool :=
  (List.range (r.1.bytes / 16)).any fun i =>
    let q := plainOf s (r.2.pa + 16 * i)
    lineBad s (feKey q.core (q.off / 16)) 1

/-- The lanes whose words can be read change them; the others fail. -/
def fesetDone (c : Ctx) (v : Bool) (s : State) (rs : List (Want × Xlt)) : State :=
  let bad := rs.filter (pieceBad s)
  let lost := fun (r : Want × Xlt) => bad.any fun b => b.1.x.pos == r.1.x.pos && b.1.lane == r.1.lane
  feFailed c ((rs.filter fun r => !lost r).foldl (fesetRange c.g.core v) s) bad

def feset (c : Ctx) (v : Bool) : Body :=
  withAccess c.s c feTarget (fesetWants c) fun s rs =>
    withStores s c rs fun s =>
      if feBusy s c rs then .stall s else .done (fesetDone c v s rs)

def execFesetEmpty (f : Fields) (s : State) : Host.Outcome State Fault Refusal :=
  issue (.fesetEmpty f) s fun c => feset c false

def execFesetFull (f : Fields) (s : State) : Host.Outcome State Fault Refusal :=
  issue (.fesetFull f) s fun c => feset c true

/-! ## Atomics (R324–R326) -/

/-- The accesses of an atomic at the addresses `ea`. -/
def atomWants (c : Ctx) (ea : Slice → Nat → Nat) : List Want :=
  c.lanes.map fun e =>
    { x := e.1, lane := e.2, va := ea e.1 e.2, bytes := atomBytes c.ty, align := atomBytes c.ty, need := 12 }

/-- An atomic: one element per address, its lanes' operands B and C. A scope of module or narrower lets the die perform it (R307). -/
def atomic (c : Ctx) (op code : Nat) (ea : Slice → Nat → Nat) (b d : Slice → Nat → Nat) : Body :=
  withAccess c.s c atomTarget (atomWants c ea) fun s rs =>
    let near := decide (c.f.aux.toNat ≤ 6)
    let kind := fun (w : Want) => AccKind.rmw op c.ty c.f.rm.toNat (b w.x w.lane) (d w.x w.lane) code
    let writes := if code = 240 then [] else
      rs.map fun r => ⟨r.1.x.pos, r.1.lane, code, List.replicate (if atomBytes c.ty = 8 then 2 else 1) 0⟩
    withStores s c rs fun s => makeAccesses s c (code != 240) (rs.map fun r => accOf r.1 r.2 (kind r.1) near) writes

def execAtom (f : Fields) (s : State) : Host.Outcome State Fault Refusal :=
  issue (.atom f) s fun c =>
    atomic c c.f.minor.toNat c.f.d.toNat c.eaPlain (fun x l => c.opnd x l .b % 2 ^ c.w) fun _ _ => 0

def execRed (f : Fields) (s : State) : Host.Outcome State Fault Refusal :=
  issue (.red f) s fun c =>
    atomic c c.f.minor.toNat 240 c.eaPlain (fun x l => c.opnd x l .b % 2 ^ c.w) fun _ _ => 0

/-- The address of CAS (R319): the base, with off24 in a long form. -/
def Ctx.eaCas (c : Ctx) (x : Slice) (l : Nat) : Nat :=
  (c.src x l c.f.a.toNat 2 8 + (if c.f.long then signExt 24 c.f.off24.toNat else 0)) % 2 ^ 64

def execCas (f : Fields) (s : State) : Host.Outcome State Fault Refusal :=
  issue (.cas f) s fun c =>
    atomic c 12 c.f.d.toNat c.eaCas (fun x l => c.opnd x l .b % 2 ^ c.w) fun x l => c.opnd x l .c % 2 ^ c.w

/-- ARRIVE.REMOTE (R235): RED.ADD.N64 of 1, after every earlier access. -/
def arriveWants (c : Ctx) : List Want :=
  c.lanes.map fun e => { x := e.1, lane := e.2, va := c.src e.1 e.2 c.f.a.toNat 2 8, bytes := 8, align := 8, need := 12 }
def arriveAccs (rs : List (Want × Xlt)) : List Acc := rs.map fun r => accOf r.1 r.2 (.rmw 0 8 0 1 0 240)

def execArriveRemote (f : Fields) (s : State) : Host.Outcome State Fault Refusal :=
  issue (.arriveRemote f) s fun c =>
    if c.mustWait then .stall c.s
    else
      withAccess c.s c atomTarget (arriveWants c) fun s rs => withStores s c rs fun s => makeAccesses s c false (arriveAccs rs) []

/-! ## Waiting on a word (R327, R237) -/

/-- A monitor to be registered for a lane. -/
structure Watch where
  pos : Nat
  lane : Nat
  va : Nat
  pa : Nat
  wide : Bool
  signed : Bool
  cond : Nat
  cmp : Nat

/-- Register a monitor at the home of its word, which reads the word (R284, R310). A line that cannot be read, or
a home that cannot be reached, fails the lane (R315, R446). -/
def registerMon (s : State) (core ctx rid : Nat) (w : Watch) : State :=
  let who := ReqFor.monitor rid w.lane
  if isOwn s w.pa then
    let la := localOf w.pa
    if lineBad s la 8 then failWait (noteUncorrectable s la) rid w.lane w.va
    else if lineFailed s (.core core) w.pa then failWait s rid w.lane (lineOf w.pa)
    else
      addMonitor (touchLine s core la false) ⟨la, w.wide, w.signed, w.cond, w.cmp, .lane rid w.lane, s.nextId, none, false, ctx⟩
  else if !reachable s (nodeOf w.pa) then failWait s rid w.lane (lineOf w.pa)
  else
    let m := { mkMsg s (core / 64) who (nodeOf w.pa) s.nextId (s.core core).pts w.pa with
      sunit := core % 64, arg := w.cond + 8 * b2n w.wide + 16 * b2n w.signed, val := BitVec.ofNat 64 w.cmp }
    { s with nextId := s.nextId + 1, reqs := s.reqs ++ [⟨s.nextId, core / 64, who, 5, nodeOf w.pa, w.pa, none, none, m, false, 0⟩] }

/-- Some word's line is owned outside this module and must be recalled first (R310). -/
def watchMissing (s : State) (core : Nat) (ws : List Watch) : Option Nat :=
  (ws.find? fun w => isOwn s w.pa && !lineHere s (core / 64) (s.core core).pts w.pa true && !lineFailed s (.core core) w.pa).map
    fun w => w.pa

/-- Every slice ends its segment with MON, one monitor per lane. -/
def watched (c : Ctx) (s : State) (d dregs : Nat) (ws : List Watch) : State :=
  let s := c.guarded.foldl (fun s p =>
    match ws.filter fun w => w.pos == p with
    | [] => s
    | w :: r =>
      let rid := s.nextId
      let s := waitSlice s c p .mon (w.pa / 128 % 2 ^ 47) d dregs ((w :: r).map fun w => (w.lane, .mon))
      (w :: r).foldl (fun s w => registerMon s c.g.core c.g.ctx rid w) s) s
  clearFailed s (.core c.g.core) (ws.map fun w => w.pa)

/-- Once the earlier accesses are made and every own word's line is here. -/
def watchAll (c : Ctx) (s : State) (d dregs : Nat) (ws : List Watch) : Body :=
  if c.mustWait then .stall s
  else match watchMissing s c.g.core ws with
    | some pa => .stall (askLine s (c.g.core / 64) (.core c.g.core) (s.core c.g.core).pts pa true)
    | none => .done (watched c s d dregs ws)

/-- WAITC compares the word with operand B under its condition. -/
def waitcWants (c : Ctx) : List Want :=
  c.lanes.map fun e =>
    { x := e.1, lane := e.2, va := c.eaPlain e.1 e.2, bytes := typeBytes c.ty, align := typeBytes c.ty, need := 4 }
def waitcWatches (c : Ctx) (rs : List (Want × Xlt)) : List Watch :=
  rs.map fun r => ⟨r.1.x.pos, r.1.lane, r.1.va, r.2.pa, typeBytes c.ty == 8, tySigned c.ty, c.f.minor.toNat,
    c.opnd r.1.x r.1.lane .b % 2 ^ (8 * typeBytes c.ty)⟩

def execWaitc (f : Fields) (s : State) : Host.Outcome State Fault Refusal :=
  issue (.waitc f) s fun c =>
    withAccess c.s c hbmTarget (waitcWants c) fun s rs => watchAll c s c.f.d.toNat (c.regs .d) (waitcWatches c rs)

/-- BWAIT.REMOTE waits until the counter reaches (phase + 1) times the arrivals of a phase. -/
def bwaitWants (c : Ctx) : List Want :=
  c.lanes.map fun e =>
    { x := e.1, lane := e.2, va := c.src e.1 e.2 c.f.a.toNat 2 8, bytes := 8, align := 8, need := 4,
      also := fun _ => if c.src e.1 e.2 c.f.c.toNat 1 7 = 0 then some .resv else none }
def bwaitWatches (c : Ctx) (rs : List (Want × Xlt)) : List Watch :=
  rs.map fun r => ⟨r.1.x.pos, r.1.lane, r.1.va, r.2.pa, true, false, 5,
    (c.src r.1.x r.1.lane c.f.b.toNat 1 7 + 1) * c.src r.1.x r.1.lane c.f.c.toNat 1 7⟩

def execBwaitRemote (f : Fields) (s : State) : Host.Outcome State Fault Refusal :=
  issue (.bwaitRemote f) s fun c =>
    withAccess c.s c hbmTarget (bwaitWants c) fun s rs => watchAll c s 240 0 (bwaitWatches c rs)

/-! ## Fences (R279, R328) -/

/-- The combining buffers that hold stores of the guard-true active threads are written. -/
def fenceWrites (c : Ctx) : State := wcWriteOf c.s c.g.core c.g.slot (c.lanes.map fun e => (e.1.pos, e.2))

/-- The slices' next access, arrival or engine issue is held until their earlier accesses are performed: `strict` holds their
next instruction too; `fenced` are the threads of a full FENCE, whose stores have then been fenced (R282). Buffers that their pending
stores enter meanwhile are written when these have been performed. -/
def fenceHeld (c : Ctx) (s : State) (strict : Bool) (fenced : List (Nat × Nat × Nat × Nat)) : State :=
  if c.lanes.isEmpty then s
  else if tabGet 0 s.acks c.g.core = 0 && !accBusy s c.g c.guarded then { s with typed := s.typed.filter fun t => !fenced.contains t.thread }
  else issueLater s c false c.guarded { hold := true, strict := strict, fenced := fenced, wcOut := c.lanes.map fun e => (e.1.pos, e.2) }

/-- FENCE: the buffer writes and every access of its threads come before what follows (R279). -/
def execFence (f : Fields) (s : State) : Host.Outcome State Fault Refusal :=
  issue (.fence f) s fun c =>
    .done (fenceHeld c (fenceWrites c) false (c.lanes.map fun e => threadKey c.g e.1.pos e.2))

/-- FENCE.WC: the same for the writes of buffers, those under way included. -/
def execFenceWc (f : Fields) (s : State) : Host.Outcome State Fault Refusal :=
  issue (.fenceWc f) s fun c =>
    .done (fenceHeld c (fenceWrites c) false [])

/-! ## Maintenance (R329, R330, R316) -/

/-- A lane's range: address, bytes. -/
def Ctx.range (c : Ctx) (x : Slice) (l : Nat) : Nat × Nat := (c.src x l c.f.a.toNat 2 8, c.src x l c.f.b.toNat 1 7)

/-- The pages of every lane's range. -/
def maintWants (c : Ctx) (need : Nat) (whole : Bool) : List Want :=
  c.lanes.flatMap fun e =>
    let (a, n) := c.range e.1 e.2
    (pageParts a n).map fun q =>
      { x := e.1, lane := e.2, va := a + q.1, bytes := q.2, align := 1, need := need,
        first := whole && (a % 128 != 0 || n % 128 != 0) }

/-- The lines that overlap a piece. -/
def linesOf (pa n : Nat) : List Nat :=
  if n = 0 then [] else (List.range ((pa + n - 1) / 128 + 1 - pa / 128)).map fun i => (pa / 128 + i) * 128

/-- Maintenance of every line of the checked ranges, after the earlier accesses: `eff` acts for a thread on a line. The slice's
next instruction then waits until the acknowledgements are in (R330). -/
def maintain (c : Ctx) (need : Nat) (whole : Bool) (eff : State → Src → Nat → State) : Body :=
  withAccess c.s c hbmTarget (maintWants c need whole) fun s rs =>
    if c.mustWait then .stall s
    else
      let s := rs.foldl (fun s r => (linesOf r.2.pa r.1.bytes).foldl (fun s l => eff s ⟨c.g.slot, r.1.x.pos, r.1.lane, c.here⟩ l) s) s
      .done (fenceHeld c s true [])

/-- IINV: clauses fetched from now on find the line as it is. -/
def invalidateLine (s : State) (l : Nat) : State :=
  { s with
    stale := s.stale.filter fun e => lineOf e.1 != lineOf (codeKey s l)
    copies := s.copies.filter fun c => c.pa != lineOf l || c.owned }

def execCmaintIinv (f : Fields) (s : State) : Host.Outcome State Fault Refusal :=
  issue (.cmaintIinv f) s fun c => maintain c 16 false fun s _ l => invalidateLine s l

/-- A die's dirty copy goes back to its home with its times (R306). The copy stays shared, or is dropped; one that cannot be read stays
as it is (R315). -/
def writeBack (s : State) (die : Nat) (who : ReqFor) (line : Nat) (drop : Bool) (src : List Src := []) : State :=
  match copyAt s die line with
  | none => s
  | some c =>
    if !c.owned then (if drop then dropCopy s die line else s)
    else if c.bad then s
    else
      let m := { mkMsg s die who (nodeOf line) 0 c.wts line with
        arg := if drop then 2 else 3, rts := max c.rts (l1Rts s line), data := c.data }
      let s := if drop then dropCopy s die line
        else l1Settle (updCopy s die line fun x => { x with excl := false, owned := false }) none line false
      postMsg s who 2 m src

/-- WB and WBINV of a line: dirty copies of the issuing core and its die. A modified L1 copy of an own line holds what
memory does. -/
def cleanLine (core : Nat) (drop : Bool) (s : State) (t : Src) (l : Nat) : State :=
  if isOwn s l then
    (if drop then { s with l1 := s.l1.filter fun c => !(c.line == lineOf l && (c.st == .m || c.st == .o) && c.core / 64 == core / 64) }
     else { s with l1 := updWhere (fun c => c.line == lineOf l && c.st == .m && c.core / 64 == core / 64) (fun c => { c with st := .e }) s.l1 })
  else if ownsCopy s (core / 64) l && badAt s (core / 64) l 128 then failThread core l (noteBad s (core / 64) l) t
  else writeBack s (core / 64) (.core core) l drop [t]

def execCmaintWb (f : Fields) (s : State) : Host.Outcome State Fault Refusal :=
  issue (.cmaintWb f) s fun c => maintain c 4 false (cleanLine c.g.core false)

def execCmaintWbinv (f : Fields) (s : State) : Host.Outcome State Fault Refusal :=
  issue (.cmaintWbinv f) s fun c => maintain c 4 false (cleanLine c.g.core true)

/-- MSIDE of a line at its home (R295, R308): setting it drops every L1 copy; LEASE keeps the largest lease end. -/
def setMside (s : State) (la : Nat) (v : Bool) : State :=
  let t := lineRts s la
  let s := dropL1 s (ownPa s la) fun _ => true
  let b := brassOf s la
  let base := b.toNat - b2n (b.getLsbD 29) * 2 ^ 29
  let s := setBrass s la (BitVec.ofNat 32 (base + b2n v * 2 ^ 29))
  if v then storeTime s la t else s

/-- MSSET and MSCLR at the line's home, in turn with the line's other requests (R330): an ATM message with an operation of its
own, since R441 names no kind for it. -/
def msLine (core : Nat) (v : Bool) (s : State) (t : Src) (l : Nat) : State :=
  let m := { mkMsg s (core / 64) (.core core) (nodeOf l) 0 (s.core core).pts l with arg := if v then 14 else 15 }
  postMsg s (.core core) 4 m [t]

def execCmaintMsset (f : Fields) (s : State) : Host.Outcome State Fault Refusal :=
  issue (.cmaintMsset f) s fun c => maintain c 8 true (msLine c.g.core true)

def execCmaintMsclr (f : Fields) (s : State) : Host.Outcome State Fault Refusal :=
  issue (.cmaintMsclr f) s fun c => maintain c 8 true (msLine c.g.core false)

/-- The repair write of a line at its home, its owners gone (R316): the data is new, STATE is I and LEASE 0x3FFF. -/
def repairLine (s : State) (la : Nat) (bs : List Byte) : State :=
  let s := dropL1 s (ownPa s la) fun _ => true
  let s := { s with
    l2 := s.l2.filter fun l => l.line != lineOf la
    leased := s.leased.filter fun l => l != lineOf la
    copies := s.copies.filter fun c => c.pa != lineOf (ownPa s la)
    poisoned := s.poisoned.filter fun l => l != la / 128
    correctable := s.correctable.filter fun l => l != la / 128 }
  let b := setLease (withOwner (brassOf s la) 0 0 0) 0x3fff
  writeBytes (setBrass s la (BitVec.ofNat 32 (b.toNat % 2 ^ 30))) (lineOf la) bs

/-- One line of a repair goes to its home, for a thread. -/
def repairAt (core : Nat) (t : Src) (s : State) (l : Nat) (bs : List Byte) : State :=
  let m := { mkMsg s (core / 64) (.core core) (nodeOf l) 0 (s.core core).pts l with arg := 1, data := bs }
  postMsg s (.core core) 2 m [t]

/-- The source pages of a lane's repair: any target will do. -/
def repairSources (c : Ctx) : List Want :=
  c.lanes.flatMap fun e =>
    let (_, n) := c.range e.1 e.2
    let d := c.src e.1 e.2 c.f.d.toNat 2 8
    (pageParts d n).map fun q => { x := e.1, lane := e.2, va := d + q.1, bytes := q.2, align := 1, need := 4, any := true }

/-- Checked pieces of one lane, in order. -/
def piecesOf (rs : List (Want × Xlt)) (e : Slice × Nat) : List (Want × Xlt) :=
  rs.filter fun r => r.1.x.pos == e.1.pos && r.1.lane == e.2

/-- The loads that read the piece of a source, line by line. -/
def sourceAccs (r : Want × Xlt) : List Acc :=
  (linesOf r.2.pa r.1.bytes).map fun l =>
    let lo := max l r.2.pa
    ⟨r.1.x.pos, r.1.lane, r.1.va + (lo - r.2.pa), lo, min (l + 128) (r.2.pa + r.1.bytes) - lo, memTypeOf r.2, .load 7 240, none, false, 0, []⟩

/-- A load of a repair's source cannot be made. -/
def sourceBad (s : State) (core : Nat) (a : Acc) : Bool :=
  lineFailed s (.core core) a.pa || accBad s core a

/-- The bytes of a source, read in order. -/
def readSource (g : Gang) (s : State) (as : List Acc) : State × List Byte :=
  as.foldl (fun r a => let q := coreRead r.1 g a; (q.1, r.2 ++ q.2)) (s, [])

/-- One lane reads its source, and its lines go to their homes. -/
def repairLane (c : Ctx) (to_ from_ : List (Want × Xlt)) (s : State) (e : Slice × Nat) : State :=
  let r := readSource c.g s ((piecesOf from_ e).flatMap sourceAccs)
  (((piecesOf to_ e).flatMap fun q => linesOf q.2.pa q.1.bytes).zipIdx).foldl (fun s q =>
    repairAt c.g.core ⟨c.g.slot, e.1.pos, e.2, c.here⟩ s q.1 ((r.2.drop (128 * q.2)).take 128)) r.1

/-- Each lane whose source can be read writes it, line by line, to its range; the others fail. Lines of pages that are not
normal are used once (R262). -/
def repaired (c : Ctx) (s : State) (to_ from_ : List (Want × Xlt)) : State :=
  let core := c.g.core
  let bad := fun (e : Slice × Nat) => ((piecesOf from_ e).flatMap sourceAccs).any (sourceBad s core)
  let failed := c.lanes.filter bad
  let t := (c.lanes.filter fun e => !bad e).foldl (repairLane c to_ from_) s
  let as := from_.flatMap sourceAccs
  let t := (distinct ((as.filter (accBad s core)).map fun a => lineOf a.pa)).foldl (fun s l => noteBad s (core / 64) l) t
  let t := clearFailed t (.core core) (as.map fun a => a.pa)
  let once := as.filter fun a => a.memType != 0 && !isOwn s a.pa
  let t := dropWindows { t with copies := t.copies.filter fun x => x.owned || !(x.die == core / 64 && once.any fun a => lineOf a.pa == x.pa) } (core / 64)
  if failed.isEmpty then t
  else issueLater t c false (distinct (failed.map fun e => e.1.pos))
    { failed := failed.map fun e => (e.1.pos, e.2, c.src e.1 e.2 c.f.d.toNat 2 8) }

def execCmaintRepair (f : Fields) (s : State) : Host.Outcome State Fault Refusal :=
  issue (.cmaintRepair f) s fun c =>
    withAccess c.s c hbmTarget (maintWants c 8 true ++ repairSources c) fun s rs =>
      let to_ := rs.filter fun r => !r.1.any
      let from_ := rs.filter fun r => r.1.any
      let core := c.g.core
      let die := core / 64
      if c.mustWait || portBusy s core ((from_.flatMap sourceAccs).map fun a => a.pa) then .stall s
      else match (from_.flatMap sourceAccs).find? fun a => !sourceBad s core a && !lineHere s die (s.core core).pts a.pa false with
        | some a => .stall (askLine s die (.core core) (s.core core).pts a.pa false)
        | none => .done (fenceHeld c (repaired c s to_ from_) true [])

/-! ## Transposing fragment load (R331) -/

/-- Targets of LDT: the issuing core's scratchpad, below its pool region. -/
def ldtTarget (core : Nat) (s : State) (t : Xlt) : Option Cause :=
  match ownPlace s t with
  | some p => if p.region == .scratch && p.core == core && decide (p.off < spBase s core) then none else some .resv
  | none => some .resv

def Ctx.tiles (c : Ctx) : Nat := 2 ^ (c.f.minor.toNat % 4)

/-- Element (row, column) of tile k; an absent row is zero, a row that could not be read is unknown. -/
def tileElem (rows : List (Nat × List Byte)) (k row col : Nat) : Nat :=
  match rows.find? fun r => r.1 == 8 * k + row with
  | some r => bytesToNat ((r.2.drop (2 * col)).take 2)
  | none => 0

/-- The fragment register of thread t for tile k. -/
def fragment (rows : List (Nat × List Byte)) (transposed : Bool) (k t : Nat) : Nat :=
  let p := 2 * (t / 8)
  if transposed then tileElem rows k p (t % 8) + tileElem rows k (p + 1) (t % 8) * 2 ^ 16
  else tileElem rows k (t % 8) p + tileElem rows k (t % 8) (p + 1) * 2 ^ 16

/-- The rows that the supplying lanes address, and what every guard-true lane is to receive of them. -/
def ldtWants (c : Ctx) : List Want :=
  (c.lanes.filter fun e => decide (threadIx e.1 e.2 < 8 * c.tiles)).map fun e =>
    { x := e.1, lane := e.2, va := c.ea e.1 e.2, bytes := 16, align := 16, need := 4 }
def ldtLoaded (c : Ctx) (s : State) (rs : List (Want × Xlt)) : State :=
  let bad := rs.filter fun r => lineBad s (localOf r.2.pa) 16
  let t := rs.foldl (fun s r => touchLine s c.g.core (localOf r.2.pa) false) s
  let rows := rs.map fun (r : Want × Xlt) => (threadIx r.1.x r.1.lane,
    if lineBad s (localOf r.2.pa) 16 then (List.range 16).map fun i => (freeWord s i).setWidth 8
    else rawBytes s (localOf r.2.pa) 16)
  let d := c.f.d.toNat
  let writes := if d = 240 then [] else c.lanes.map fun e =>
    (⟨e.1.pos, e.2, d, (List.range c.tiles).map fun k =>
      BitVec.ofNat 32 (fragment rows (c.f.minor.getLsbD 2) k (threadIx e.1 e.2))⟩ : VlWrite)
  let failed := bad.map fun r => (r.1.x.pos, r.1.lane, r.1.va)
  if d = 240 && failed.isEmpty || c.lanes.isEmpty then t
  else issueLater t c (d != 240) c.guarded { writes := writes, failed := failed }

def execLdt (f : Fields) (s : State) : Host.Outcome State Fault Refusal :=
  issue (.ldt f) s fun c =>
    withAccess c.s c (ldtTarget c.g.core) (ldtWants c) fun s rs =>
      if feBusy s c rs then .stall s else .done (ldtLoaded c s rs)

/-! ## Queue ports (R332, R333, R375) -/

def Ctx.port (c : Ctx) (code : Nat) : Port := (c.s.core c.g.core).ports.getD (code - 232) Port.unbound

/-- Every lane that waits for an entry of a port gets its answer. -/
def portFire (s : State) (core port : Nat) (v : W32) : State :=
  (s.waits.filter fun w => w.kind == .extq core port).foldl (fun s w => fireWait s w.rid w.lane [v]) s

/-- The pushed entry: each participant's word at its THREADIX. -/
def Ctx.entry (c : Ctx) : List W32 :=
  (List.range 32).map fun t =>
    match c.lanes.find? fun e => threadIx e.1 e.2 == t with
    | some e => BitVec.ofNat 32 (c.opnd e.1 e.2 .a)
    | none => 0

def Ctx.entryMask (c : Ctx) : W32 := BitVec.ofNat 32 ((c.lanes.map fun e => 2 ^ threadIx e.1 e.2).foldl (· + ·) 0)

/-- Push an entry: none when the binding has no free entry. Whether a fabric send queue has one is not stated and
so is free (log entry 14). -/
def pushEntry (c : Ctx) (port : Nat) : Option State :=
  let core := c.g.core
  let p := (c.s.core core).ports.getD port Port.unbound
  if p.kind = 4 then
    if 16 ≤ p.count then none
    else
      let la := windowBase core + 0x80000 + p.queue + 128 * ((p.head + p.count) % 16)
      let s := writeBytes (touchLine c.s core la true) la (c.entry.flatMap fun w => natToBytes 4 w.toNat)
      let s := s.setCore core fun k => { k with ports := updAt port (fun p => { p with count := p.count + 1, masks := p.masks ++ [c.entryMask] }) k.ports }
      some (portFire s core port 1)
  else if (Config.freeBits c.s.fresh (2 ^ 63)).getLsbD 0 then
    some (c.s.setCore core fun k => { k with ports := updAt port (fun p => { p with sent := p.sent ++ [c.entry ++ [c.entryMask]] }) k.ports })
  else none

def execQpush (f : Fields) (s : State) : Host.Outcome State Fault Refusal :=
  issue (.qpush f) s fun c =>
    let p := c.port c.f.c.toNat
    if c.lanes.isEmpty then .done c.s
    else if c.isTask then trapFirst c .resv
    else if p.kind != 3 && p.kind != 4 then trapFirst c .qproto
    else if c.mustWait || p.kind = 4 && portBusy c.s c.g.core [ownPa c.s (windowBase c.g.core + 0x80000 + p.queue)] then .stall c.s
    else match pushEntry c (c.f.c.toNat - 232) with
      | some s => .done (giveAll s c 1)
      | none => if c.f.d.toNat = 240 then trapFirst c .qproto else .done (giveAll c.s c 0)

/-- QWAIT tests its port, and waits only in its blocking form. DESIGN CHOICE (log entry 155): a local FIFO has no queue number for
SUBJECT (R333, R375); its SUBJECT holds the low 16 bits of the offset that stands in its binding. -/
def qwait (c : Ctx) (blocking : Bool) : Body :=
  let code := c.f.a.toNat
  let p := c.port code
  if c.lanes.isEmpty then .done c.s
  else if c.isTask then trapFirst c .resv
  else if p.kind != 1 && p.kind != 2 && p.kind != 4 then trapFirst c .qproto
  else if headOf c.s c.g.core code != .none then .done (giveAll (c.s.link c.g.core) c 1)
  else if !blocking || p.kind = 1 && (c.s.stream p.queue).shut then .done (giveAll c.s c 0)
  else .done (c.guarded.foldl (fun s q =>
    waitSlice s c q .extq (p.queue % 2 ^ 16) c.f.d.toNat 1
      ((c.lanes.filter fun e => e.1.pos == q).map fun e => (e.2, .extq c.g.core (code - 232)))) c.s)

def execQwait (f : Fields) (s : State) : Host.Outcome State Fault Refusal := issue (.qwait f) s fun c => qwait c true
def execQwaitNb (f : Fields) (s : State) : Host.Outcome State Fault Refusal := issue (.qwaitNb f) s fun c => qwait c false

end Sys2Proof.Machine
end

