-- ==== Sys2Proof/Machine/Parallel.lean ====
section
/-! DEFINITION. Cross-thread operations, tokens, segment ends, spawning and barriers (R216–R238, R155, R158,
R177–R182). -/

namespace Sys2Proof.Machine

/-! ## Shuffle, vote, match, elect (R218–R222) -/

/-- Results of the participants, and a predicate of each when aux names one. -/
def withAux (c : Ctx) (val : Slice → Nat → Nat × Bool) : Body :=
  let s := putAll c.s c.g.core c.g.slot (c.lanes.map fun e => c.put e.1 e.2 (val e.1 e.2).1)
  .done (if c.f.aux.toNat = 7 then s
    else putAll s c.g.core c.g.slot (c.lanes.map fun e =>
      ⟨e.1.pos, e.2, 192 + c.f.aux.toNat, [if (val e.1 e.2).2 then 1 else 0]⟩))

/-- The thread that XLANE reads for thread i (R219). -/
def xlaneSource (minor w i b : Nat) : Int :=
  let base := i - i % w
  match minor with
  | 0 => (base + b % w : Nat)
  | 1 => (base + (i - base + b) % w : Nat)
  | 2 => (i : Int) + sext 32 b
  | _ => (i ^^^ (b % w) : Nat)

def execXlane (f : Fields) (s : State) : Host.Outcome State Fault Refusal :=
  issue (.xlane f) s fun c =>
    let w := 2 ^ (c.f.c.toNat % 8)
    withAux c fun x l =>
      let i := threadIx x l
      let base := i - i % w
      let j := xlaneSource c.f.minor.toNat w i (c.src x l c.f.b.toNat 1 7)
      match (if (base : Int) ≤ j && j < (base + w : Nat) then c.lanes.find? fun e => ((threadIx e.1 e.2 : Nat) : Int) == j else none) with
      | some e => (c.opnd e.1 e.2 .a, true)
      | none => (c.opnd x l .a, false)

/-- THREADIX of the participants that meet p. -/
def Ctx.having (c : Ctx) (p : Slice × Nat → Bool) : List Nat := (c.lanes.filter p).map fun e => threadIx e.1 e.2

/-- The sum of 2^THREADIX. -/
def maskSum (ts : List Nat) : Nat := (ts.map fun t => 2 ^ t).foldl (· + ·) 0

def execPqry (f : Fields) (s : State) : Host.Outcome State Fault Refusal :=
  issue (.pqry f) s fun c =>
    let on := c.having fun e => c.opnd e.1 e.2 .a == 1
    let n := c.lanes.length
    let r := match c.f.minor.toNat with
      | 0 => b2n (on.length == n)
      | 1 => b2n (!on.isEmpty)
      | 2 => b2n (on.length == n || on.isEmpty)
      | 3 => maskSum on
      | 4 => on.length
      | _ => on.headD 0xffffffff
    .done (giveAll c.s c r)

/-- key_eq of R221. -/
def keyEq (t a b : Nat) : Bool :=
  if t = 9 || t = 10 then
    match unpackF (fmtOf t) a, unpackF (fmtOf t) b with
    | .nan _, .nan _ => true
    | .zero _, .zero _ => true
    | _, _ => a == b
  else a == b

def execKgrp (f : Fields) (s : State) : Host.Outcome State Fault Refusal :=
  issue (.kgrp f) s fun c =>
    let key := fun (e : Slice × Nat) => c.opnd e.1 e.2 .a
    let same := fun x l => c.having fun e => keyEq c.ty (key e) (key (x, l))
    let all := c.lanes.all fun e => c.lanes.all fun e' => keyEq c.ty (key e) (key e')
    withAux c fun x l =>
      let i := threadIx x l
      match c.f.minor.toNat with
      | 0 => (maskSum (same x l), (same x l).headD i == i)
      | 1 => (if all then maskSum (c.having fun _ => true) else 0, all)
      | _ =>
        let k := ((same x l).filter fun t => decide (t < i)).length
        (k, k == 0)

def execLead (f : Fields) (s : State) : Host.Outcome State Fault Refusal :=
  issue (.lead f) s fun c =>
    let ts := c.having fun _ => true
    let lead := if c.f.minor.toNat = 1 then ts.getLastD 0 else ts.headD 0
    perLane c fun x l => if 192 ≤ c.f.d.toNat && c.f.d.toNat < 200 then b2n (threadIx x l == lead) else lead

/-! ## Reduction and scan (R223–R225) -/

/-- The identity of an operation. -/
def redIdentity (op t : Nat) : Nat :=
  match op with
  | 1 => wrap (typeBits t) (tyMax t)
  | 2 => wrap (typeBits t) (tyMin t)
  | 3 => 2 ^ typeBits t - 1
  | 7 => infCode (fmtOf t) false
  | 8 => infCode (fmtOf t) true
  | _ => 0

/-- FMIN or FMAX over a list of codes (R121). -/
def minMaxSet (isMax : Bool) (f : Fmt) : List Nat → Nat
  | [] => canonNan f
  | [v] => if (unpackF f v).isNan then canonNan f else v
  | v :: t =>
    let r := minMaxSet isMax f t
    match (minMaxPick isMax (unpackF f v) (unpackF f r)).1 with
    | none => canonNan f
    | some false => v
    | some true => r

/-- The combination of a set of values, with the flags of its rounding (R224). -/
def combineSet (op t : Nat) (rm : RMode) (sat : Bool) (vs : List Nat) : Nat × Flags :=
  let w := typeBits t
  if vs.isEmpty then (redIdentity op t, 0)
  else match op with
    | 0 => (fin87 t sat ((vs.map (intOf t)).foldl (· + ·) 0), 0)
    | 1 => (wrap w ((vs.map (intOf t)).foldl min (tyMax t)), 0)
    | 2 => (wrap w ((vs.map (intOf t)).foldl max (tyMin t)), 0)
    | 3 => (vs.foldl (· &&& ·) (2 ^ w - 1), 0)
    | 4 => (vs.foldl (· ||| ·) 0, 0)
    | 5 => (vs.foldl (· ^^^ ·) 0, 0)
    | 6 => rounded (fmtOf t) rm false (sumSet rm (vs.map (unpackF (fmtOf t))))
    | 7 => (minMaxSet false (fmtOf t) vs, 0)
    | _ => (minMaxSet true (fmtOf t) vs, 0)

/-- GRED and SCAN: each participant's result from the values it combines. -/
def reduce (c : Ctx) (part : Slice → Nat → List (Slice × Nat)) : Body :=
  let v := fun (e : Slice × Nat) => c.opnd e.1 e.2 .a % 2 ^ c.w
  let r := fun x l => combineSet c.f.minor.toNat c.ty c.rm c.f.sat ((part x l).map v)
  let sig := fun (e : Slice × Nat) => if 6 ≤ c.f.minor.toNat && (unpackF c.fmt (v e)).isSig then fNV else 0
  perLaneF c fun x l => ((r x l).1, (r x l).2 ||| sig (x, l))

def execGred (f : Fields) (s : State) : Host.Outcome State Fault Refusal :=
  issue (.gred f) s fun c => reduce c fun _ _ => c.lanes

/-- The participants of thread i's segment up to and with i. -/
def Ctx.segment (c : Ctx) (i : Nat) : List (Slice × Nat) :=
  (c.lanes.filter fun e => decide (threadIx e.1 e.2 ≤ i)).foldl (fun acc e =>
    if c.f.c.toNat != 0 && c.opnd e.1 e.2 .c == 1 then [e] else acc ++ [e]) []

def execScan (f : Fields) (s : State) : Host.Outcome State Fault Refusal :=
  issue (.scan f) s fun c => reduce c fun x l =>
    let v := c.segment (threadIx x l)
    if c.f.aux.getLsbD 0 then v.dropLast else v

/-! ## Tokens and regang (R226–R228) -/

/-- The target of RCV (R226). -/
def Ctx.rcvTarget (c : Ctx) : Nat := c.relTarget

/-- RCV: every slice with an active lane pushes, unless one cannot. -/
def rcv (c : Ctx) (kind : TokenKind) : Body :=
  let t := c.rcvTarget
  let r := (c.slices.filter fun x => x.active != 0).map fun x =>
    if 2 ^ 56 ≤ t then Sum.inl (hitAt x.pos (lowLane x.active) .pcOvf)
    else match x.push ⟨kind, x.active, 0, t⟩ with
      | some y => Sum.inr y
      | none => Sum.inl (hitAt x.pos (lowLane x.active) .ill)
  match r.filterMap Sum.getLeft? with
  | [] => .done (applySlices c.s c (r.filterMap Sum.getRight?))
  | hits => .trap c.s hits

def execRcvJ (f : Fields) (s : State) : Host.Outcome State Fault Refusal := issue (.rcvJ f) s fun c => rcv c .join
def execRcvB (f : Fields) (s : State) : Host.Outcome State Fault Refusal := issue (.rcvB f) s fun c => rcv c .brk

/-- The slices with a guard-true active lane, and those lanes. -/
def Ctx.acting (c : Ctx) : List (Slice × BitVec 4) :=
  (c.slices.map fun x => (x, guardMask c.s c.g c.f x)).filter fun e => e.2 != 0

def execJoin (f : Fields) (s : State) : Host.Outcome State Fault Refusal :=
  issue (.join f) s fun c => .done (applySlices c.s c (c.acting.map fun e => e.1.joinLanes e.2))

def execBrkj (f : Fields) (s : State) : Host.Outcome State Fault Refusal :=
  issue (.brkj f) s fun c => .done (applySlices c.s c (c.acting.map fun e => e.1.breakLanes e.2))

/-- Slices end their segments waiting on nothing, resuming at N; their records become runnable together (R246). -/
def plainLeave (c : Ctx) (s : State) (poss : List Nat) : State :=
  let mates := (List.range poss.length).map fun i => s.nextId + i
  poss.foldl (fun s pos =>
    endSegment s.bump c.g.core c.g.slot pos { plainEnd s.nextId c.next c.resume with mates := mates }) s

/-- REGANG: a slice whose gang a sibling has left ends its segment; the others park (R158). -/
def execRegang (f : Fields) (s : State) : Host.Outcome State Fault Refusal :=
  issue (.regang f) s fun c =>
    let park := fun (s : State) (e : Slice × BitVec 4) =>
      s.updSlice c.g.core c.g.slot e.1.pos fun x => { x with st := .parked c.next c.resume, pc := c.next }
    let s := if c.g.departed then plainLeave c c.s (c.acting.map fun e => e.1.pos) else c.acting.foldl park c.s
    .done (reform s c.g.core c.g.slot)

/-! ## Ending and forwarding (R229, R230) -/

def execCont (f : Fields) (s : State) : Host.Outcome State Fault Refusal :=
  issue (.cont f) s fun c => .done (plainLeave c c.s (c.acting.map fun e => e.1.pos))

/-- Runnable records of a core. -/
def runnableCount (s : State) (core : Nat) : Nat :=
  ((s.core core).bins.map List.length).foldl (· + ·) 0 + (s.core core).unbinned.length

/-- The enabled core of a die with the fewest runnable records, the lowest-numbered on a tie (R215). -/
def feedCore (s : State) (die : Nat) : Option Nat :=
  ((List.range 64).map (fun k => die * 64 + k)).foldl (fun best k =>
    if !s.coreOn k then best
    else match best with
      | none => some k
      | some b => if runnableCount s k < runnableCount s b then some k else some b) none

/-- Where a location of FWD leads: to a core of this module, to another module, or nowhere (RESV). Whether the
context is resident on another module, and which of its cores are enabled, is outside this one and so free (log entry 15). -/
def fwdDest (s : State) (loc : Nat) : Option W32 :=
  let node := fld loc 25 16
  let die := fld loc 9 8
  if fld loc 30 26 != 0 || fld loc 15 10 != 0 || fld loc 7 6 != 0 then none
  else if node != s.node % 1024 then
    (if s.regs.featacc.getLsbD 1 && (Config.freeBits s.fresh (2 ^ 64 + node)).getLsbD 0 &&
        (bitOf loc 31 || (Config.freeBits 0 (2 ^ 73 + node * 256 + die * 64 + fld loc 5 0)).getLsbD 0) then some (BitVec.ofNat 32 loc)
     else none)
  else if bitOf loc 31 then (feedCore s die).map fun k => BitVec.ofNat 32 (node * 2 ^ 16 + k / 64 * 256 + k % 64)
  else if s.coreOn (die * 64 + fld loc 5 0) then some (BitVec.ofNat 32 loc) else none

/-- FWD: every slice is checked before any is forwarded; a location that names the issuing core acts as CONT. -/
def execFwd (f : Fields) (s : State) : Host.Outcome State Fault Refusal :=
  issue (.fwd f) s fun c =>
    let plan := c.acting.map fun e =>
      let l := lowLane e.2
      (e.1.pos, l, if c.g.group.isSome then none else fwdDest c.s (c.src e.1 l c.f.a.toNat 1 7))
    match plan.filter fun p => p.2.2.isNone with
    | [] =>
      let stays := fun (p : Nat × Nat × Option W32) => (p.2.2.getD 0).toNat == corelocOf c.s c.g.core
      let s := plainLeave c c.s ((plan.filter stays).map fun p => p.1)
      .done ((plan.filter fun p => !stays p).foldl (fun s p =>
        endSegment s.bump c.g.core c.g.slot p.1 { plainEnd s.nextId c.next c.resume with kind := .fwd, fwd := p.2.2 }) s)
    | bad => .trap c.s (bad.map fun p => hitAt p.1 p.2.1 .resv)

/-! ## Spawning (R181, R231) -/

/-- Capacity of a die's task queue. -/
def taskRoom : Nat := 16384

/-- Some slice waits for room. -/
def taskWaiting (s : State) (die : Nat) : Bool := s.waits.any fun w => w.kind == .taskq die && w.fired.isNone

/-- Place tasks at the end of a die's queue; each counts toward its launch. -/
def placeTasks (s : State) (die : Nat) (ts : List Task) : State :=
  ts.foldl (fun s t =>
    { s with
      nextId := s.nextId + 1
      tasks := updAt die (fun q => q ++ [{ t with ord := s.nextId, since := s.clk }]) s.tasks
      launches := updWhere (fun l => l.lid == t.lid) (fun l => { l with live := l.live + 1 }) s.launches }) s

/-- The entry that a lane of SPAWN names. -/
def Ctx.spawnee (c : Ctx) (x : Slice) (l : Nat) : Entry :=
  lookupEntry c.s (c.g.core / 64) (c.s.core c.g.core).pts c.g.ctx (c.src x l c.f.a.toNat 1 7)

/-- The task of one lane. -/
def Ctx.taskOf (c : Ctx) (x : Slice) (l : Nat) : Task :=
  let b := c.f.b.toNat
  { ord := 0, ctx := c.g.ctx, entry := (c.spawnee x l).addr, vbud := (c.spawnee x l).vbud, lid := x.lids.getD l 0,
    prio := x.prio, since := 0,
    args := (List.range 4).map fun k => if b = 240 then 0 else BitVec.ofNat 64 (c.src x l (b + 2 * k) 2 8),
    rstate := (x.lane l).rstate ^^^ 0x85ebca6b#32 }

/-- Write a slice's predicate. -/
def givePred (c : Ctx) (s : State) (x : Slice) (m : BitVec 4) (v : Bool) : State :=
  putAll s c.g.core c.g.slot ((lanesOf m).map fun l => c.put x l (b2n v))

/-- SPAWN, slice by slice, after every lookup. -/
def spawnTasks (c : Ctx) (nb : Bool) : Body :=
  let die := c.g.core / 64
  let gone := c.lanes.findSome? fun e => match c.spawnee e.1 e.2 with | .missing pa => some pa | _ => none
  let none? := c.lanes.filterMap fun e => match c.spawnee e.1 e.2 with
    | .empty => some (e.1, e.2, Cause.xnp, 0)
    | .bad _ => some (e.1, e.2, Cause.memerr, 0)
    | _ => none
  if c.mustWait then .stall c.s
  else match gone with
    | some pa => .stall (askLine c.s die (.core c.g.core) (c.s.core c.g.core).pts pa false)
    | none =>
      if !none?.isEmpty then trapLanes (c.entriesRead c.spawnee) none?
      else .done (c.acting.foldl (fun s e =>
        let ts := (lanesOf e.2).map fun l => c.taskOf e.1 l
        if (s.tasks.getD die []).length + ts.length ≤ taskRoom && !taskWaiting s die then
          let s := placeTasks s die ts
          if nb then givePred c s e.1 e.2 true else s
        else if nb then givePred c s e.1 e.2 false
        else
          (waitSlice s c e.1.pos .taskq die 240 0 ((lanesOf e.2).map fun l => (l, .taskq die))).updSlice c.g.core c.g.slot e.1.pos
            fun x => match x.st with
              | .ending i => { x with st := .ending { i with tasks := ts } }
              | _ => x) (c.entriesRead c.spawnee))

def execSpawn (f : Fields) (s : State) : Host.Outcome State Fault Refusal := issue (.spawn f) s fun c => spawnTasks c false
def execSpawnNb (f : Fields) (s : State) : Host.Outcome State Fault Refusal := issue (.spawnNb f) s fun c => spawnTasks c true

/-! ## Barriers (R176–R178, R233–R236) -/

def State.barrier (s : State) (core b : Nat) : Barrier := (s.core core).barriers.getD b ⟨0, 0, 0⟩
def State.setBarrier (s : State) (core b : Nat) (h : Barrier → Barrier) : State :=
  s.setCore core fun k => { k with barriers := updAt b h k.barriers }

/-- Some record waits on the barrier. -/
def barrierWaiting (s : State) (core b : Nat) : Bool :=
  s.waits.any fun w => w.fired.isNone && match w.kind with
    | .bar k j _ => k == core && j == b
    | _ => false

def execBari (f : Fields) (s : State) : Host.Outcome State Fault Refusal :=
  issue (.bari f) s fun c =>
    match c.first with
    | none => .done c.s
    | some e =>
      let b := c.f.c.toNat
      let n := c.src e.1 e.2 c.f.a.toNat 1 7
      if c.isTask || n = 0 || 1024 < n || (c.s.barrier c.g.core b).count != 0 || barrierWaiting c.s c.g.core b then
        trapFirst c .resv
      else if c.mustWait then .stall c.s
      else .done (c.s.setBarrier c.g.core b fun r => { r with expect := n, count := 0 })

/-- Phase n of a barrier has completed: its waiters' events fire. -/
def barrierFire (s : State) (core b phase : Nat) : State :=
  (s.waits.filter fun w => w.kind == .bar core b phase).foldl (fun s w => fireWait s w.rid w.lane []) s

/-- One arrival (R177): the state, and the phase returned. -/
def arriveOne (s : State) (core b : Nat) : State × Nat :=
  let r := s.barrier core b
  if r.count + 1 = r.expect then
    (barrierFire (s.setBarrier core b fun r => { r with count := 0, phase := (r.phase + 1) % 2 ^ 16 }) core b r.phase, r.phase)
  else (s.setBarrier core b fun r => { r with count := r.count + 1 }, r.phase)

/-- Arrivals of n threads, with the phases they return. -/
def arriveMany (core b : Nat) : Nat → State → State × List Nat
  | 0, s => (s, [])
  | n + 1, s =>
    let r := arriveOne s core b
    let q := arriveMany core b n r.1
    (q.1, r.2 :: q.2)

/-- The threads use a barrier that is not theirs to use, or that no BARI has set: every slice of them traps (R182,
R233, R411). -/
def noBarrier (c : Ctx) : Body := .trap c.s (c.guarded.map fun p => hitAt p ((c.lanes.find? fun e => e.1.pos == p).map (·.2) |>.getD 0) .resv)

/-- ARRIVE; the plain form waits for the threads' earlier accesses. -/
def arrive (c : Ctx) (plain : Bool) : Body :=
  let core := c.g.core
  let b := c.f.c.toNat
  if c.lanes.isEmpty then .done c.s
  else if c.isTask || (c.s.barrier core b).expect = 0 then noBarrier c
  else if plain && c.mustWait then .stall c.s
  else
    let r := arriveMany core b c.lanes.length c.s
    .done (putAll r.1 core c.g.slot ((c.lanes.zip r.2).map fun e => c.put e.1.1 e.1.2 e.2))

def execArrive (f : Fields) (s : State) : Host.Outcome State Fault Refusal := issue (.arrive f) s fun c => arrive c true
def execArriveRlx (f : Fields) (s : State) : Host.Outcome State Fault Refusal := issue (.arriveRlx f) s fun c => arrive c false

/-- A phase has passed (R178). -/
def phasePassed (phase n : Nat) : Bool :=
  let d := (phase + 2 ^ 16 - n % 2 ^ 16) % 2 ^ 16
  1 ≤ d && d ≤ 32767

def execBwait (f : Fields) (s : State) : Host.Outcome State Fault Refusal :=
  issue (.bwait f) s fun c =>
    let core := c.g.core
    let b := c.f.c.toNat
    if c.lanes.isEmpty then .done c.s
    else if c.isTask || (c.s.barrier core b).expect = 0 then noBarrier c
    else
      let n := fun (e : Slice × Nat) => c.src e.1 e.2 c.f.a.toNat 1 7 % 2 ^ 16
      let waits := c.lanes.filter fun e => !phasePassed (c.s.barrier core b).phase (n e)
      let s := if waits.length < c.lanes.length then c.s.link core else c.s
      .done (c.guarded.foldl (fun s p =>
        match waits.filter fun e => e.1.pos == p with
        | [] => s
        | e :: r => waitSlice s c p .bar (b * 2 ^ 16 + n e) 240 0 ((e :: r).map fun e => (e.2, .bar core b (n e)))) s)

end Sys2Proof.Machine
end

