-- ==== Sys2Proof/Machine/TaskFeed.lean ====
section
/-! DEFINITION. The die task queue: room for waiting spawns (R181) and the slices it forms (R19, R182, R215). -/

namespace Sys2Proof.Machine

/-- The tasks that a slice holds back under a record's number, before or after its record is written (R181). -/
def pendingTasks (s : State) (rid : Nat) : List Task :=
  match s.rec? rid with
  | some m => m.tasks
  | none =>
    (s.gangs.findSome? fun g => g.slices.findSome? fun x =>
      match x.st with
      | .ending e => if e.rid = rid then some e.tasks else none
      | .trapping t => if t.rid = rid then some t.tasks else none
      | _ => none).getD []

/-- The tasks held back under a number have been placed. -/
def dropPending (s : State) (rid : Nat) : State :=
  let s := s.updRec rid fun m => { m with tasks := [] }
  { s with gangs := s.gangs.map fun (g : Gang) => { g with slices := g.slices.map fun (x : Slice) =>
      match x.st with
      | .ending e => if e.rid = rid then { x with st := .ending { e with tasks := [] } } else x
      | .trapping t => if t.rid = rid then { x with st := .trapping { t with tasks := [] } } else x
      | _ => x } }

/-- The slice that has waited longest for room in a die's queue. -/
def firstWaiting (s : State) (die : Nat) : Option Nat :=
  ((s.waits.filter fun w => w.kind == .taskq die && w.fired.isNone).foldl (fun (b : Option Wait) w =>
    match b with
    | none => some w
    | some q => if w.ord < q.ord then some w else some q) none).map fun w => w.rid

/-- TASKQ_ROOM_PLACE: the tasks of a waiting slice are placed together, in the order slices began to wait. -/
def execTaskqRoomPlace (die : Nat) (s : State) : Host.Outcome State Fault Refusal :=
  match firstWaiting s die with
  | none => .next s
  | some rid =>
    let ts := pendingTasks s rid
    if taskRoom < (s.tasks.getD die []).length + ts.length then .next s
    else
      let s := dropPending (placeTasks s die ts) rid
      .next ((s.waits.filter fun w => w.rid == rid && w.kind == .taskq die).foldl (fun s w => fireWait s rid w.lane []) s)

/-- A pair of R215: context, entry address and budget. -/
def Task.pair (t : Task) : Nat × Nat × Nat := (t.ctx, t.entry, t.vbud)

/-- The tasks of a task's pair, oldest first. -/
def samePair (q : List Task) (t : Task) : List Task := q.filter fun u => u.pair == t.pair

/-- A slice of a task's pair can be formed: four tasks, or an oldest that has waited 2 µs. -/
def formable (s : State) (q : List Task) (t : Task) : Bool :=
  let l := samePair q t
  4 ≤ l.length || (match l with | o :: _ => decide (o.since + 1700 ≤ s.clk) | [] => false)

/-- The oldest task among the pairs of which a slice can be formed now. DESIGN CHOICE (log entry 151): while a context's
task slices are held (R426, R428), its queued tasks form none; R215 does not say. -/
def nextPair (s : State) (die : Nat) : Option Task :=
  let q := s.tasks.getD die []
  q.find? fun t => formable s q t && !(s.dieRegs die).heldCtx.contains t.ctx

/-- The record of a slice of tasks: task k in lane k. -/
def taskRecord (s : State) (core : Nat) (ts : List Task) : RecMeta :=
  let t := ts.headD ⟨0, 0, 0, 0, 0, 0, [], 0, 0⟩
  let live := (List.range ts.length).foldl (fun m k => m ||| laneBit k) 0#4
  let number := ((s.launches.find? fun l => l.lid == t.lid).map fun l => l.number).getD 0
  let words := ts.map fun t => t.args.flatMap fun a => [BitVec.ofNat 32 a.toNat, BitVec.ofNat 32 (a.toNat / 2 ^ 32)]
  let rstate := ts.zipIdx.map fun e => e.1.rstate ^^^ BitVec.ofNat 32 e.2
  let body := newBody t.ctx ((ts.map fun t => t.prio).foldl max 0) number 0xffffff t.vbud t.entry live rstate words
  { bareRecord s s.nextId core t.ctx ((List.range 4).map fun k => ((ts[k]?).map fun t => t.lid).getD 0) none body with
    fw := ts.all fun t => s.launches.any fun l => l.lid == t.lid && l.fw }

/-- Form a slice of a pair and hand it to the core with the fewest runnable records. -/
def formTaskSlice (s : State) (die : Nat) (t : Task) : State :=
  match feedCore s die with
  | none => s
  | some core =>
    let ts := (samePair (s.tasks.getD die []) t).take 4
    let m := { taskRecord s core ts with pts := s.latest + 1 }
    let s := { s.bump with
      tasks := updAt die (fun q => q.filter fun u => !ts.any fun v => v.ord == u.ord) s.tasks
      recs := s.recs ++ [m] }
    makeRunnable s m.rid

/-- The next pair in order of age is the given one. -/
def formStep (die ctx entry : Nat) (late : Bool) (s : State) : Host.Outcome State Fault Refusal :=
  match nextPair s die with
  | some t =>
    if t.ctx = ctx && t.entry = entry && (decide ((samePair (s.tasks.getD die []) t).length < 4) == late) then
      .next (formTaskSlice s die t)
    else .next s
  | none => .next s

/-- TASK_SLICE_FORM: four tasks of one pair. -/
def execTaskSliceForm (die ctx entry : Nat) (s : State) : Host.Outcome State Fault Refusal := formStep die ctx entry false s

/-- TASK_AGE_TIMEOUT: a short slice of a pair whose oldest task has waited 2 µs. -/
def execTaskAgeTimeout (die ctx entry : Nat) (s : State) : Host.Outcome State Fault Refusal := formStep die ctx entry true s

end Sys2Proof.Machine
end

