-- ==== Sys2Proof/Machine/Walks.lean ====
section
/-! DEFINITION. The page walkers (R267, R271, R436), TLB retention (R272), shootdowns (R421–R423), combining buffers
(R263), logical clocks (R303), snapshots (R148, R434, R435), fault-queue entries (R416), and the reads and writes
that the front end and firmware make at physical addresses. -/

namespace Sys2Proof.Machine

/-! ## Reads and writes of the front end -/

/-- A read or write at a physical address: done, waiting for its line, or failed (R315, R446). -/
inductive PhysRead where
  | ok (s : State) (bs : List Byte)
  | wait (s : State)
  | failed (s : State)

inductive PhysWrite where
  | done (s : State)
  | wait (s : State)
  | failed (s : State)

/-- Read n bytes of one line, at the largest time of the module (log entry 12). -/
def physRead (s : State) (die : Nat) (who : ReqFor) (pa n : Nat) : PhysRead :=
  if lineFailed s who pa then .failed (clearFailed s who [pa])
  else if badAt s die pa n then .failed (noteBad s die pa)
  else if !lineHere s die s.latest pa false then .wait (askLine s die who s.latest pa false)
  else
    let r := readStamp s die s.latest pa
    .ok { r.1 with frontPts := max r.1.frontPts r.2 } (lineBytes s die pa n)

/-- Write bytes of one line, at the largest time of the module. -/
def physWrite (s : State) (die : Nat) (who : ReqFor) (pa : Nat) (bs : List Byte) : PhysWrite :=
  if isOwn s pa then
    if lineFailed s who pa then .failed (clearFailed s who [pa])
    else if lineBad s (localOf pa) 1 then .failed (noteUncorrectable s (localOf pa))
    else if !lineHere s die s.latest pa true then .wait (askLine s die who s.latest pa true)
    else
      let r := touchBy s s.latest (localOf pa) true
      .done (writeBytes { r.1 with frontPts := max r.1.frontPts r.2 } (localOf pa) bs)
  else if !reachable s (nodeOf pa) then .failed s
  else .done (postMsg s who 2 (maskedWrite (mkMsg s die who (nodeOf pa) 0 s.latest pa) pa bs))

/-! ## Walks (R271, R436) -/

/-- How a walk ends: its leaf with the lines it read; no leaf or an entry it could not read, with its cause code,
the line to drop and the lines read; or a line it waits for. -/
inductive WalkResult where
  | leaf (pte pa size : Nat) (lines : List Nat)
  | fail (code line : Nat) (lines : List Nat)
  | wait (pa : Nat)
  deriving DecidableEq, Repr

/-- The clock of a walk's walker (R299). -/
def walkerKey (w : Walk) : Nat := w.die % 4 * 64 + w.walker
def walkerPts (s : State) (w : Walk) : Nat := s.walkPts.getD (walkerKey w) 0

/-- An agent's clock after it has read a line at pa (R300). -/
def readTime (s : State) (die pts pa : Nat) : Nat :=
  match heldCopy s die pa with
  | some c => max pts (c.wts + 1)
  | none => if isOwn s pa then max pts (lineWts s (localOf pa) + 1) else pts

/-- Walk from a table at a level: every entry is read from memory, by a walker whose clock is pts. -/
def walkFrom (s : State) (w : Walk) (va : Nat) : Nat → Nat → List Nat → Nat → WalkResult
  | 0, _, lines, _ => .fail 6 0 lines
  | level + 1, base, lines, pts =>
    let pa := entryPa base (level + 1) va
    if lineFailed s (.walk w.id) pa || badAt s w.die pa 8 then .fail 14 (lineOf pa) lines
    else match memoryEntry s w.die pts pa with
      | none => .wait pa
      | some e =>
        match entryKind s (level + 1) e with
        | .invalid => .fail 6 (lineOf pa) (lines ++ [lineOf pa])
        | .leaf size => .leaf e pa size (lines ++ [lineOf pa])
        | .table b => walkFrom s w va level b (lines ++ [lineOf pa]) (readTime s w.die pts pa)

def walkResult (s : State) (w : Walk) : WalkResult := walkFrom s w (w.vpn * 0x10000) 3 (rootOf s w.ctx) [] (walkerPts s w)

/-- The reads of a walk take their timestamps, and its walker's clock advances (R300, R301). -/
def stampWalk (s : State) (w : Walk) (lines : List Nat) : State :=
  let r := lines.foldl (fun r l => readStamp r.1 w.die r.2 l) (s, walkerPts s w)
  { r.1 with walkPts := updAt (walkerKey w) (fun _ => r.2) r.1.walkPts }

/-- The line as the walk cache will hold it. -/
def cacheLine (s : State) (w : Walk) (line : Nat) : WalkLine :=
  ⟨w.die, w.ctx, line, (List.range 16).map fun i => BitVec.ofNat 64 (bytesToNat (lineBytes s w.die (line + 8 * i) 8))⟩

/-- A line goes into the die's walk cache, of 1,024 lines (R270). -/
def fillCache (w : Walk) (s : State) (line : Nat) : State :=
  let others := s.walkLines.filter fun l => !(l.die == w.die && l.ctx == w.ctx && l.line == line)
  { s with
    fresh := s.fresh + 1
    walkLines := makeRoom s (fun (l : WalkLine) => l.die == w.die) (fun _ => false) 1024 others ++ [cacheLine s w line] }

/-- The walk's end serves a page: a 512 MiB leaf serves every page it covers. -/
def servedBy (w : Walk) (size : Nat) (die ctx vpn : Nat) : Bool :=
  die == w.die && ctx == w.ctx && (vpn == w.vpn || size == 0x20000000 && vpn / 0x2000 == w.vpn / 0x2000)

/-- The lanes that wait on a page. -/
def walkWaits (s : State) (p : Nat → Nat → Nat → Bool) : List Wait :=
  s.waits.filter fun q => q.fired.isNone && match q.kind with
    | .walk die ctx vpn => p die ctx vpn
    | _ => false

/-- WALK_COMPLETE: the leaf goes to the die TLB, its lines to the walk cache, A is set, the waiting lanes' events
fire and waiting operations go on. -/
def finishWalk (s : State) (w : Walk) (pte pa size : Nat) (lines : List Nat) : State :=
  let ws := walkWaits s (servedBy w size)
  let s := lines.foldl (fillCache w) (stampWalk s w lines)
  let s := placeLeaf s w.die (.walk w.id) w.ctx (w.vpn * 0x10000) pte pa size (distinct (ws.map fun q => q.rid))
  let s := ws.foldl (fun s q => fireWait s q.rid q.lane []) s
  { s with
    walks := s.walks.filter fun x => !servedBy w size x.die x.ctx x.vpn
    ops := s.ops.map fun (o : EngineOp) => match o.waitPage with
      | some v => if servedBy w size o.die o.ctx v then { o with waitPage := none } else o
      | none => o }

def execWalkComplete (id : Nat) (s : State) : Host.Outcome State Fault Refusal :=
  match s.walks.find? fun w => w.id == id with
  | some w =>
    if !w.running then .next s
    else match walkResult s w with
      | .leaf pte pa size lines => .next (finishWalk s w pte pa size lines)
      | .wait pa => .next (askLine s w.die (.walk w.id) (walkerPts s w) pa false)
      | .fail _ _ _ => .next s
  | none => .next s

/-- WALK_FAIL: no translation is placed, the line read last leaves the walk cache, and the events fire marked. The reads it made
took their timestamps (R301). -/
def failWalk (s : State) (w : Walk) (code line : Nat) (lines : List Nat) : State :=
  let s := stampWalk s w lines
  let ws := walkWaits s fun d c v => d == w.die && c == w.ctx && v == w.vpn
  let s := ws.foldl (fun s q => failWait s q.rid q.lane code) s
  let s := if code = 14 && !lineFailed s (.walk w.id) line then noteBad s w.die line else s
  let s := clearFailed s (.walk w.id) [line]
  { s with
    walkLines := s.walkLines.filter fun l => !(l.die == w.die && l.ctx == w.ctx && l.line == line)
    walks := s.walks.filter fun x => x.id != w.id
    frontMarks := if w.front then s.frontMarks ++ [(w.die, w.ctx, w.vpn, code)] else s.frontMarks
    ops := s.ops.map fun (o : EngineOp) =>
      if o.die == w.die && o.ctx == w.ctx && o.waitPage == some w.vpn then
        { o with waitPage := none, mark := some (code + 64 * w.vpn) } else o }

def execWalkFail (id : Nat) (s : State) : Host.Outcome State Fault Refusal :=
  match s.walks.find? fun w => w.id == id with
  | some w =>
    if !w.running then .next s
    else match walkResult s w with
      | .fail code line lines => .next (failWalk s w code line lines)
      | _ => .next s
  | none => .next s

/-- The walk request that has waited longest for a walker of a die, while one of its 64 is free. -/
def nextWalk (s : State) (die : Nat) : Option Walk :=
  if 64 ≤ (s.walks.filter fun w => w.die == die && w.running).length then none
  else (s.walks.filter fun w => w.die == die && !w.running).foldl (fun (b : Option Walk) w =>
    match b with
    | none => some w
    | some q => if w.ord < q.ord then some w else some q) none

/-- The lowest walker of a die that makes no walk. -/
def freeWalker (s : State) (die : Nat) : Nat :=
  ((List.range 64).find? fun k => !(s.walks.any fun w => w.die == die && w.running && w.walker == k)).getD 0

/-- WALK_START: the walk follows what the records that wait for it have done, a handler's writes among it (R302, R437; log
entry 12). -/
def execWalkStart (die : Nat) (s : State) : Host.Outcome State Fault Refusal :=
  match nextWalk s die with
  | some w =>
    let k := freeWalker s die
    .next { s with
      walks := updWhere (fun x => x.id == w.id) (fun x => { x with running := true, walker := k }) s.walks
      walkPts := updAt (die % 4 * 64 + k) (fun t => max t s.latest) s.walkPts }
  | none => .next s

/-- The front end's failed walk of a page, as signal updates take it. -/
def frontMark (s : State) (die ctx va : Nat) : Option Nat :=
  (s.frontMarks.find? fun e => e.1 == die && e.2.1 == ctx && e.2.2.1 == va / 0x10000).map fun e => e.2.2.2 + 64 * e.2.2.1

def clearFront (s : State) (die ctx va : Nat) : State :=
  { s with frontMarks := s.frontMarks.filter fun e => !(e.1 == die && e.2.1 == ctx && e.2.2.1 == va / 0x10000) }

/-- TLB_RETENTION_EXPIRY: 100 µs after an entry was placed, or held on to, nothing keeps it; whether another
translation replaces it is free. -/
def execTlbRetentionExpiry (id : Nat) (s : State) : Host.Outcome State Fault Refusal :=
  match s.tlbs.find? fun e => e.id == id with
  | some e =>
    if s.clk < e.since + 85000 then .next s
    else
      let s := { s with fresh := s.fresh + 1 }
      if (Config.freeBits s.fresh id).getLsbD 0 then .next { s with tlbs := s.tlbs.filter fun x => x.id != id }
      else .next { s with tlbs := updWhere (fun x => x.id == id) (fun x => { x with retained := [], since := s.clk }) s.tlbs }
  | none => .next s

/-! ## Combining buffers and clocks (R263, R303) -/

/-- WC_BUFFER_WRITE: 2 µs after the first store into the buffer. -/
def execWcBufferWrite (id : Nat) (s : State) : Host.Outcome State Fault Refusal :=
  match s.wcbufs.find? fun b => b.id == id with
  | some b => if s.clk < b.since + 1700 then .next s else .next (wcWrite s b)
  | none => .next s

/-- LOGICAL_CLOCK_TICK. -/
def execLogicalClockTick (core : Nat) (s : State) : Host.Outcome State Fault Refusal :=
  .next (s.setCore core fun k => { k with pts := k.pts + 1 })

/-! ## Shootdowns (R421–R423) -/

/-- The range of the shootdown touches n pages of a context from vpn on. -/
def inShootdown (s : State) (ctx vpn n : Nat) (global : Bool) : Bool :=
  let r := s.regs
  let first := fld r.sdva.toNat 55 16
  (r.sdall || ctx == r.sdctx || global) && (r.sdglobal || !global) &&
  (r.sdpages == 0 || vpn < first + r.sdpages && first < vpn + n)

def shotEntry (s : State) (e : TlbEntry) : Bool := inShootdown s e.ctx e.vpn e.pages (bitOf e.pte.toNat 7)

/-- SHOOTDOWN_GO: it begins; which entries are gone before its completion is free. -/
def execShootdownGo (s : State) : Host.Outcome State Fault Refusal :=
  if s.regs.sdbusy then .next s
  else
    let s := { s with fresh := s.fresh + 1, nextId := s.nextId + 1, regs := { s.regs with sdbusy := true, sdsince := s.nextId } }
    .next { s with tlbs := s.tlbs.filter fun e => !(shotEntry s e && (Config.freeBits s.fresh e.id).getLsbD 0) }

/-- An access that may have used a translation of the range is still to be performed: one of a thread in the range, whenever it was
made (an entry may serve until it is removed), a combined or posted store, an engine operation's reads under way, or the store of a
handle that waits (log entry 141). -/
def shotUse (s : State) : Bool :=
  let ctxOf := fun core slot => ((s.gang core slot).map fun g => g.ctx).getD 0
  let mine := fun (ctx : Nat) => s.regs.sdall || ctx == s.regs.sdctx || s.regs.sdglobal
  (s.pend.any fun q => q.accs.any fun a =>
    inShootdown s (ctxOf q.core q.slot) (a.va / 0x10000) 1 false || inShootdown s (ctxOf q.core q.slot) (a.va / 0x10000) 1 true) ||
  !s.wcbufs.isEmpty ||
  (s.posts.any fun p => !p.src.isEmpty || match p.who with | .engine _ => true | .monitor _ _ => true | _ => false) ||
  (s.ops.any fun o => mine o.ctx && !o.asked.isEmpty) ||
  s.waits.any fun w => w.fired.isNone && match w.kind with
    | .futStore _ _ _ _ => match s.rec? w.rid with | some m => mine m.ctx | none => true
    | _ => false

/-- SHOOTDOWN_COMPLETE: every entry of the range is gone from every die, and SDDONE rises. -/
def execShootdownComplete (s : State) : Host.Outcome State Fault Refusal :=
  if !s.regs.sdbusy || shotUse s then .next s
  else .next { s with
    tlbs := s.tlbs.filter fun e => !shotEntry s e
    walkLines := s.walkLines.filter fun l => !(s.regs.sdall || s.regs.sdglobal || l.ctx == s.regs.sdctx)
    regs := { s.regs with sdbusy := false, sddone := s.regs.sddone + 1 } }

/-! ## Snapshots (R148, R434, R435) -/

/-- The image that a core latches. -/
def snapImage (s : State) (c : Nat) : List Byte :=
  let k := s.core c
  let gang := fun i => s.gang c i
  natToBytes 8 s.clk ++ natToBytes 8 (2 ^ 63 + k.instret % 2 ^ 32) ++
  ((List.range 32).flatMap fun i => natToBytes 8 (gangWord s c i)) ++
  ((List.range 32).flatMap fun i => natToBytes 8 (match gang i with
    | some g => min 15 g.subs.length * 2 ^ 60 + (((g.slice 0).map fun x => x.pc).getD 0) % 2 ^ 56
    | none => 0)) ++
  (k.bins.flatMap fun b => natToBytes 4 (b.length % 65536 * 65536 + binPrio s b)) ++
  ([k.terms, k.tlclk, k.syncidle, k.skippack, k.skipblk].flatMap (natToBytes 8)) ++
  (k.barriers.flatMap fun b => natToBytes 2 b.count) ++ (k.busy.flatMap (natToBytes 2))

/-- SNAPSHOT_LATCH: a block that the trigger reaches latches its state. -/
def execSnapshotLatch (block : Nat) (s : State) : Host.Outcome State Fault Refusal :=
  if !s.snapDue.contains block then .next s
  else
    let s := { s with snapDue := s.snapDue.filter fun b => b != block }
    if block < 256 then .next (s.setCore block fun k => { k with snap := snapImage s block })
    else if block < 260 then
      let d := block - 256
      let image := [(s.tasks.getD d []).length, (s.walks.filter fun w => w.die == d && w.running).length, (usedFuts s d).length]
      .next { s with dieSnap := s.dieSnap.set d image }
    else
      let h := s.regs.homes.getD (block - 260) ⟨0, 0, 0, 0, 0, false⟩
      .next { s with dieSnap := s.dieSnap.set (block - 256) [h.hclk, h.epoch] }

/-- SNAPCTL_TRIG: a debugger's trigger. -/
def execSnapctlTrig (s : State) : Host.Outcome State Fault Refusal := .next (fireSnapshot s 2 0 0 0 0)

/-- SNAPCTL_REL: every block releases its image. -/
def execSnapctlRel (s : State) : Host.Outcome State Fault Refusal :=
  .next { s with
    regs := { s.regs with snapLatched := false, snapSrc := 0, snapCause := 0, snapMissed := 0, snapTag := 0, snapOrigin := 0, snapPc := 0 }
    snapDue := []
    dieSnap := List.replicate 20 []
    cores := s.cores.map fun (k : CoreSt) => { k with snap := [] } }

/-! ## Fault queues (R416) -/

/-- The number under which a fault queue goes: its context's, or 65,536 for firmware's. -/
def queueKey (q : Option Nat) : Nat := q.getD 65536

/-- The entry of a queue reported first. -/
def firstFault (s : State) (queue : Nat) : Option FaultEntry := s.faults.find? fun e => queueKey e.queue == queue

/-- The list without the first entry of a queue. -/
def dropFault (queue : Nat) : List FaultEntry → List FaultEntry
  | [] => []
  | e :: t => if queueKey e.queue == queue then t else e :: dropFault queue t

/-- The entry first in a queue is written: the blocks kept for it are free, unless another entry waits for the same record. -/
def faultWritten (s : State) (queue : Nat) (e : FaultEntry) : State :=
  let s := { s with faults := dropFault queue s.faults }
  let same := fun (x : FaultEntry) => e.rid.isSome && x.rid == e.rid
  if s.faults.any same then { s with faults := updWhere same (fun x => { x with frees := x.frees ++ e.frees }) s.faults }
  else e.frees.foldl poolFree s

/-- FAULT_ENTRY_WRITE: the entry, then PROD; an interrupt message for firmware's queue (R461). A full queue, or a
queue that cannot be reached, keeps its entries. -/
def execFaultEntryWrite (queue : Nat) (s : State) : Host.Outcome State Fault Refusal :=
  match firstFault s queue with
  | none => .next s
  | some e =>
    match physRead s e.die .front e.base 16 with
    | .wait s => .next s
    | .failed s => .next s
    | .ok s bs =>
      let prod := bytesToNat (bs.take 8)
      let cons := bytesToNat (bs.drop 8)
      let n := 2 ^ e.log2
      if (prod + 2 ^ 64 - cons) % 2 ^ 64 = n then .next s
      else
        match physWrite s e.die .front (e.base + 0x40 + 64 * (prod % n)) (e.words.flatMap fun w => natToBytes 8 w.toNat) with
        | .done s =>
          match physWrite s e.die .front e.base (natToBytes 8 ((prod + 1) % 2 ^ 64)) with
          | .done s => .next { faultWritten s queue e with interrupts := s.interrupts + (if e.queue.isNone then 1 else 0) }
          | .wait s => .next s
          | .failed s => .next s
        | .wait s => .next s
        | .failed s => .next s

end Sys2Proof.Machine
end

