-- ==== Sys2Proof/Machine/Launches.lean ====
section
/-! DEFINITION. Launches: the journal (R476, R477), the checks at the head of a queue (R199–R201), dependences (R203),
activation and placement (R200, R205, R206, R253, R375), and completion (R202, R204). -/

namespace Sys2Proof.Machine

/-! ## Writes that cannot wait -/

/-- The first of the module's own lines that another module holds. -/
def missingLine (s : State) (pas : List Nat) : Option Nat := pas.find? fun pa => isOwn s pa && !lineHere s 0 0 pa true

/-- Go on once every line is the module's own; else ask for the first that is not. -/
def withLines (s : State) (pas : List Nat) (k : State) : Host.Outcome State Fault Refusal :=
  match missingLine s pas with
  | some pa => .next (askLine s 0 .front s.latest pa true)
  | none => .next k

/-- A write of the front end, of bytes of one line that is here. -/
def frontPut (s : State) (pa : Nat) (bs : List Byte) : State :=
  match physWrite s 0 .front pa bs with
  | .done s => s
  | .wait s => s
  | .failed s => s

/-- The front end has read a line: its timestamp (R300). -/
def frontStamp (s : State) (pa : Nat) : State :=
  let r := readStamp s 0 s.latest pa
  { r.1 with frontPts := max r.1.frontPts r.2 }

/-! ## The journal (R476, R477) -/

/-- Where the entry of a sequence number lies. -/
def journalPa (s : State) (seq : Nat) : Nat := s.regs.jbase.toNat % 2 ^ 54 + 32 * (seq % 65536)

/-- Write an entry: 1 accepted, 2 started, 3 completed, 4 failed. -/
def journal (s : State) (seq type ctx queue state : Nat) (digest : W64) (late : Bool) : State :=
  frontPut s (journalPa s seq)
    (natToBytes 8 seq ++
     natToBytes 8 (state * 2 ^ 60 + type % 16 * 2 ^ 56 + b2n late * 2 ^ 55 + ctx % 65536 * 2 ^ 32 + queue % 65536) ++
     natToBytes 8 digest.toNat ++ natToBytes 8 (s.regs.devtime % 2 ^ 64))

def journalLaunch (s : State) (l : Launch) (state : Nat) : State := journal s l.seq 1 l.ctx l.queue state l.digest l.late

/-! ## Queues as launches leave them -/

def State.hwq (s : State) (q : Nat) : Option HwQueue := s.queues.find? fun x => x.q == q
def State.updQ (s : State) (q : Nat) (h : HwQueue → HwQueue) : State :=
  { s with queues := updWhere (fun x => x.q == q) h s.queues }
def State.launch? (s : State) (lid : Nat) : Option Launch := s.launches.find? fun l => l.lid == lid
def State.updLaunch (s : State) (lid : Nat) (h : Launch → Launch) : State :=
  { s with launches := updWhere (fun l => l.lid == lid) h s.launches }

/-- Address of a queue's descriptor (R464). -/
def queueDesc (s : State) (q : Nat) : Nat := s.regs.qdtbase.toNat % 2 ^ 54 + 64 * q

/-- The packet the parser holds has left the queue: CONS goes past it and is written back (R464, R466). -/
def advance (s : State) (q : Nat) : State :=
  match s.hwq q with
  | none => s
  | some x =>
    let c := (x.cons + 1) % 2 ^ 32
    let s := { s with peers := s.peers.filter fun e => e != (q, x.cons) }
    frontPut (s.updQ q fun x => { x with cons := c, pkt := none }) (queueDesc s q + 0x14) (natToBytes 4 c)

/-- The launch leaves the head of its queue. -/
def leaveHead (s : State) (l : Launch) : State :=
  match s.hwq l.queue with
  | some x => if (x.pkt.map fun p => p.lid) == some l.lid then advance s l.queue else s
  | none => s

/-! ## Completion (R202, R204) -/

/-- A launch whose state is final and whose signal is settled is forgotten. -/
def forgetLaunch (s : State) (l : Launch) : State :=
  { s with
    launches := s.launches.filter fun x => x.lid != l.lid
    groups := s.groups.filter fun g => g.lid != l.lid
    cores := s.cores.map fun (k : CoreSt) => if k.reserved == some l.lid then { k with reserved := none } else k
    queues := s.queues.map fun (x : HwQueue) => { x with earlier := x.earlier.filter fun i => i != l.lid } }

/-- Every write that the front end has sent to another home is acknowledged. -/
def frontQuiet (s : State) : Bool := tabGet 0 s.acks (whoKey .front) == 0

/-- The signal of a launch in its final state, through its context (R204, R500), after its journal entry has been written (R477). -/
def signalLaunch (s : State) (l : Launch) : State :=
  let va := wordAt l.words 5
  if !frontQuiet s then s
  else if l.words.isEmpty || va = 0 || va % 8 != 0 then forgetLaunch s l
  else match signalUpdate s 0 l.ctx l.fw .front (s.latest + 1) (frontMark s 0 l.ctx va) va (wordAt l.words 6) (l.st == .failed) 0 with
    | .done s => forgetLaunch (clearFront s 0 l.ctx va) l
    | .walk s _ => s
    | .ask s => s

/-- A launch goes to FAILED: its journal entry, then its signal; its monitors are removed. -/
def failLaunch (s : State) (l : Launch) : State :=
  let s := journalLaunch (leaveHead s l) l 4
  let s := { s with mons := s.mons.filter fun m => match m.who with | .dep i _ => i != l.lid | _ => true }
  let s := s.updLaunch l.lid fun x => { x with st := .failed, fail := true }
  signalLaunch s { l with st := .failed }

/-- Every access of the launch's threads has been performed (R202). -/
def performed (s : State) (lid : Nat) : Bool :=
  !(s.ops.any fun o => o.lid == lid) && !(s.wcbufs.any fun b => b.lids.contains lid) && s.due.isEmpty &&
  s.acks.all (fun e => 2 ^ 39 ≤ e.1) &&
  !(s.gangs.any fun g => g.slices.any fun x => x.lids.contains lid && (x.st == .dead || !drained s g.core g.slot x.pos))

/-- A PART message (R453, R456): 0 RESERVE, 1 COMMIT, 2 ROLLBACK, 3 REPORT, 4 ABORT, about a launch of a coordinator. -/
def partMsg (s : State) (node arg key : Nat) : Msg := { mkMsg s 0 .front node s.nextId s.latest key with arg := arg }

/-! ## Shape and placement (R200, R205) -/

def launchExt (l : Launch) (k : Nat) : Nat :=
  let shape := wordAt l.words 1
  if bitOf (fld shape 55 48) k then (extents shape).getD k 1 else 1

def launchThreads (l : Launch) : Nat := fld (wordAt l.words 2) 58 32
def launchGroups (l : Launch) : Nat := launchExt l 4 * launchExt l 5 * launchExt l 6 * launchExt l 7
def perGroup (l : Launch) : Nat := launchExt l 3 * launchExt l 2
def declared (l : Launch) (k : Nat) : Bool := bitOf (fld (wordAt l.words 1) 55 48) k

/-- Created threads of a group. -/
def groupThreads (l : Launch) (gi : Nat) : Nat := min (4 * perGroup l) (launchThreads l - gi * perGroup l * 4)

/-- A launch that spans modules (R455). -/
def spanning (l : Launch) : Bool := declared l 7 && 1 < launchExt l 7

/-- Enabled cores of a range, in increasing order. -/
def enabledIn (s : State) (lo n : Nat) : List Nat := ((List.range n).map fun k => lo + k).filter fun c => s.coreOn c

/-- Groups that wait for a core of a die. -/
def waitingOn (s : State) (die : Nat) : Nat := (s.groups.filter fun g => g.st == .waiting && g.lo / 64 == die).length

def eligible (l : Launch) (die : Nat) : Bool :=
  let m := fld (wordAt l.words 0) 43 40
  m = 0 || bitOf m die

/-- The die of a group: its virtual die, or the eligible one with the fewest waiting groups; the groups of one cluster unit
stay together. -/
def dieFor (s : State) (l : Launch) (gi : Nat) : Nat :=
  if declared l 5 then gi / (launchExt l 4 * launchExt l 5) % launchExt l 6
  else match s.groups.find? fun g => g.lid == l.lid && g.gi / launchExt l 4 == gi / launchExt l 4 with
    | some g => g.lo / 64
    | none => (((List.range 4).filter (eligible l)).foldl (fun (b : Option Nat) d =>
      match b with
      | none => some d
      | some e => if waitingOn s d < waitingOn s e then some d else some e) none).getD 0

/-- The cores of a die that may host a group: one core by its rank in its cluster, or the first of its cluster or die to fall
free. -/
def coresOn (s : State) (l : Launch) (gi die : Nat) : Nat × Nat :=
  let cluster := die * 64 + 4 * (gi / launchExt l 4 % launchExt l 5)
  if declared l 4 then
    let cs := enabledIn s cluster 4
    (cs.getD (gi % launchExt l 4 % cs.length) cluster, 1)
  else if declared l 5 then (cluster, 4)
  else (die * 64, 64)

/-- The cores that may host a group. -/
def coresFor (s : State) (l : Launch) (gi : Nat) : Nat × Nat := coresOn s l gi (dieFor s l gi)

/-- The grade can hold the extents: every cluster and die that the launch may use has an enabled core. -/
def holds (s : State) (l : Launch) : Bool :=
  let dies := if declared l 5 then List.range (launchExt l 6) else (List.range 4).filter (eligible l)
  if declared l 4 || declared l 5 then
    dies.all fun d => (List.range (launchExt l 5)).all fun c => !(enabledIn s (d * 64 + 4 * c) 4).isEmpty
  else dies.all fun d => !(enabledIn s (d * 64) 64).isEmpty

/-- The scratchpad below the pool region, on the dies the launch may use. -/
def scratchRoom (s : State) (l : Launch) : Nat :=
  let dies := if declared l 5 then List.range (launchExt l 6) else (List.range 4).filter (eligible l)
  (dies.map fun d => spBase s (d * 64)).foldl min 0x80000

/-! ## The checks of R201 -/

/-- Dependence i of a launch: its condition word and its value. -/
def depOf (l : Launch) (i : Nat) : Nat × Nat := (wordAt l.words (8 + 2 * i), wordAt l.words (9 + 2 * i))
def depUsed (l : Launch) (i : Nat) : Bool := fld (depOf l i).1 2 0 != 0

def addrOk (a : Nat) : Bool := a < 2 ^ 56 && a % 8 == 0

/-- Entries of the module list of a context (R471). -/
def moduleCount (s : State) (ctx : Nat) : Nat := fld (ctxWord s ctx 6) 63 54 + 1

/-- Everything but the entry. -/
def recordFieldsOk (s : State) (l : Launch) : Bool :=
  let c := wordAt l.words 0
  let sh := wordAt l.words 1
  let sz := wordAt l.words 2
  let decl := fld sh 55 48
  let ext := [fld sh 24 22, fld sh 29 25, fld sh 31 30, fld sh 35 32, fld sh 37 36, fld sh 47 38]
  let acc := s.regs.featacc.toNat
  fld c 63 56 == 0 && fld c 25 24 == 0 && fld sh 63 56 == 0 && fld sh 21 0 == 0 && fld sz 63 59 == 0 && fld sz 31 19 == 0 &&
  fld c 55 52 == 1 && (ext.zipIdx.all fun e => bitOf decl (e.2 + 2) || e.1 == 0) && fld decl 3 0 == 15 &&
  1 ≤ fld c 39 35 && fld c 39 35 ≤ 16 && fld c 39 35 ≤ fld c 34 30 && fld c 34 30 ≤ 16 && 1 ≤ fld c 29 26 && fld c 29 26 ≤ 8 &&
  launchGroups l * perGroup l ≤ 2 ^ 24 && 1 ≤ launchThreads l && launchThreads l ≤ 4 * (launchGroups l * perGroup l) &&
  fld sz 18 0 ≤ scratchRoom s l && fld sz 18 0 % 128 == 0 &&
  fld c 51 47 ≤ 23 && (fld c 51 47 != 23 || l.fw && !l.peer) &&
  (wordAt l.words 7).land (2 ^ 64 - 1 - acc) == 0 &&
  (List.range 4).all (fun i =>
    let d := depOf l i
    fld d.1 2 0 ≤ 5 && (fld d.1 2 0 != 0 || d.2 == 0) && (fld d.1 2 0 == 0 || addrOk (d.1 / 8 * 8))) &&
  addrOk (wordAt l.words 5) && addrOk (wordAt l.words 4) &&
  (!declared l 7 || bitOf acc 1) && (!spanning l || launchExt l 7 ≤ moduleCount s l.ctx) && holds s l

/-- The entry is usable for the launch. -/
def entryOk (l : Launch) (e : Nat × Nat × Bool × Nat) : Bool := e.2.1 ≤ 8 * fld (wordAt l.words 0) 34 30

/-- The entry that a launch names, as the indirection table holds it. -/
def entryFor (s : State) (l : Launch) : Entry := lookupEntry s 0 s.latest l.ctx (fld (wordAt l.words 0) 23 0)

/-! ## Activation -/

/-- The groups of a module unit enter the waiting list of their cores. -/
def addGroup (l : Launch) (s : State) (gi : Nat) : State :=
  let n := groupThreads l gi
  if n = 0 then s
  else
    let c := match l.claim.find? fun e => e.1 == gi with
      | some e => (e.2, 1)
      | none => coresFor s l gi
    let g : Group := {
      gid := s.nextId, lid := l.lid, gi := gi, lo := c.1, num := c.2, core := c.1, st := .waiting, nextGang := 0
      live := n, image := none, spills := [], held := 0 }
    { s with nextId := s.nextId + 1, groups := s.groups ++ [g] }

/-- The grid indexes of the module unit a launch runs here. -/
def unitGroups (l : Launch) : List Nat :=
  let n := launchExt l 4 * launchExt l 5 * launchExt l 6
  (List.range n).map fun i => l.virt * n + i

/-- The launch becomes ACTIVE here: its threads count, and its groups wait for their cores. -/
def beginGroups (s : State) (l : Launch) : State :=
  let gs := unitGroups l
  let n := (gs.map (groupThreads l)).foldl (· + ·) 0
  let s := s.updLaunch l.lid fun x => { x with st := if n = 0 then .ending else .active, live := n, activeAt := s.clk }
  gs.foldl (addGroup l) s

/-- Entries of a context's module list; none when its line is not here. -/
def moduleAt (s : State) (ctx i : Nat) : Option Nat :=
  (peek s 0 s.latest (ctxWord s ctx 6 % 2 ^ 54 + 2 * i) 2).map fun b => bytesToNat b % 1024

/-- The parts of a spanning launch (R455); none while the list cannot be read. -/
def partList (s : State) (l : Launch) : Option (List PartSt) :=
  (List.range (launchExt l 7)).foldr (fun i (r : Option (List PartSt)) => r.bind fun ps =>
    (moduleAt s l.ctx i).map fun n => ⟨n, none, false, s.clk⟩ :: ps) (some [])

/-- The first place of the module list that cannot be read yet. -/
def missingPart (s : State) (l : Launch) : Nat :=
  ctxWord s l.ctx 6 % 2 ^ 54 + 2 * (((List.range (launchExt l 7)).find? fun i => (moduleAt s l.ctx i).isNone).getD 0)

/-- What RESERVE carries of a launch: its record, its entry, its number. -/
def reserveData (l : Launch) : List Byte :=
  (l.words.flatMap fun w => natToBytes 8 w.toNat) ++ natToBytes 8 l.entryAddr ++ natToBytes 8 l.entryVbud ++
  natToBytes 8 (b2n l.entryIdem) ++ natToBytes 8 l.drain ++ natToBytes 8 l.number ++ natToBytes 8 (b2n l.fw)

/-- A launch as RESERVE describes it to part i of a coordinator. -/
def partLaunch (s : State) (node key ctx i : Nat) (data : List Byte) : Launch :=
  let w := fun k => bytesToNat ((data.drop (8 * k)).take 8)
  { lid := s.nextId, queue := 65536, ctx := ctx, number := w 20, seq := 0, tag := 0, digest := 0, fw := w 21 == 1,
    words := (List.range 16).map fun k => BitVec.ofNat 64 (w k), entryAddr := w 16, entryVbud := w 17, entryIdem := w 18 == 1,
    drain := w 19, st := .reserving, latched := 0, live := 0, activeAt := 0, late := false, parts := [], owner := some (node, key),
    virt := i, since := s.clk, signalled := false, fail := false, away := [] }

/-- The cores that the groups of a part map to, each with its group: a group without a core of its own takes the first free one
left. The state counts the groups taken so far. -/
def claimCores (l : Launch) : List Nat → State → List (Nat × Nat) → Option (List (Nat × Nat))
  | [], _, taken => some taken
  | gi :: t, s, taken =>
    if groupThreads l gi = 0 then claimCores l t s taken
    else
      let c := coresFor s l gi
      let s := addGroup l s gi
      let free := (enabledIn s c.1 c.2).filter fun k =>
        !(taken.any fun e => e.2 == k) && (s.core k).group.isNone && ((s.core k).reserved.isNone || (s.core k).reserved == some l.lid)
      let mine := (enabledIn s c.1 c.2).filter fun k => taken.any fun e => e.2 == k
      match (if c.2 = 1 then mine else []) ++ free with
      | k :: _ => claimCores l t s (taken ++ [(gi, k)])
      | [] => none

/-- A part answers a reservation: the state, and YES or NO (R457). -/
def reserveHere (s : State) (node key ctx i : Nat) (data : List Byte) : State × Bool :=
  let l := partLaunch s node key ctx i data
  match claimCores l (unitGroups l) s [] with
  | some cs =>
    ({ cs.foldl (fun s c => s.setCore c.2 fun k => { k with reserved := some l.lid }) s with
       nextId := s.nextId + 1, launches := s.launches ++ [{ l with claim := cs }] }, true)
  | none => (s, false)

/-- A part's launch by its coordinator and key. -/
def partOf (s : State) (node key : Nat) : Option Launch := s.launches.find? fun l => l.owner == some (node, key)

/-- A reservation is released. -/
def releasePart (s : State) (l : Launch) : State :=
  { s with
    launches := s.launches.filter fun x => x.lid != l.lid
    cores := s.cores.map fun (k : CoreSt) => if k.reserved == some l.lid then { k with reserved := none } else k }

/-- Tell a part of a launch something: here at once, or by a PART message that is answered. -/
def tellPart (l : Launch) (arg : Nat) (s : State) (e : PartSt × Nat) : State :=
  let node := e.1.node
  if node = s.node % 1024 then
    if arg = 0 then
      let r := reserveHere s node l.lid l.ctx e.2 (reserveData l)
      r.1.updLaunch l.lid fun x => { x with
        parts := x.parts.zipIdx.map fun p => if p.2 = e.2 then { p.1 with answer := some r.2, heard := s.clk } else p.1 }
    else match partOf s node l.lid with
      | none => s
      | some p =>
        if arg = 1 then s.updLaunch p.lid fun x => { x with st := .backoff, since := s.regs.devtime + 5000 }
        else if arg = 4 && p.st == .active then s.updLaunch p.lid fun x => { x with fail := true }
        else (releasePart s p).updLaunch l.lid fun x => { x with
          parts := updAll (fun q => q.node == node) (fun q => { q with reported := true }) x.parts }
  else
    let m := { partMsg s node arg l.lid with
      val := if arg = 1 then BitVec.ofNat 64 (s.regs.devtime + 5000) else BitVec.ofNat 64 l.ctx, val2 := BitVec.ofNat 64 e.2,
      data := if arg = 0 then reserveData l else [] }
    postMsg { s with nextId := s.nextId + 1 } .front 9 m

/-- RESERVING begins: RESERVE goes to every part (R456). -/
def startReserve (s : State) (l : Launch) (ps : List PartSt) : State :=
  let s := s.updLaunch l.lid fun x => { x with st := .reserving, since := s.clk, parts := ps.map fun p => { p with answer := none, heard := s.clk } }
  (ps.zipIdx).foldl (tellPart l 0) s

/-- The answers to a reservation decide (R456): COMMIT to every part, or ROLLBACK and a pause. With an answer still
missing it goes on only when `late`. -/
def reserveProgress (s : State) (lid : Nat) (late : Bool) : State :=
  match s.launch? lid with
  | none => s
  | some l =>
    if l.st != .reserving || l.owner.isSome || l.parts.isEmpty then s
    else if l.parts.all fun p => p.answer == some true then
      match missingLine s [journalPa s l.seq, queueDesc s l.queue] with
      | some pa => askLine s 0 .front s.latest pa true
      | none =>
        let s := (journalLaunch (leaveHead s l) l 2).updLaunch lid fun x => { x with st := .active, activeAt := s.clk }
        (l.parts.zipIdx).foldl (tellPart l 1) s
    else if late || l.parts.any fun p => p.answer == some false then
      let s := (l.parts.zipIdx).foldl (tellPart l 2) s
      s.updLaunch lid fun x => { x with st := .backoff, since := s.clk, parts := x.parts.map fun p => { p with reported := false } }
    else s

/-- Every dependence of a launch is latched: it becomes ACTIVE, or its parts are reserved. -/
def activate (s : State) (l : Launch) : State :=
  if spanning l then
    match (if l.parts.isEmpty then partList s l else some l.parts) with
    | some ps => reserveProgress (startReserve s l ps) l.lid false
    | none => askLine s 0 .front s.latest (missingPart s l) false
  else beginGroups (journalLaunch (leaveHead s l) l 2) l

/-- Every used dependence is latched. -/
def allLatched (l : Launch) : Bool := (List.range 4).all fun i => !depUsed l i || l.latched.getLsbD i

/-! ## Dependences (R203) -/

/-- Condition code of WAITC for a comparison of R199. -/
def depCond (c : Nat) : Nat :=
  match c with
  | 1 => 0
  | 2 => 1
  | 3 => 5
  | 4 => 2
  | _ => 6

/-- The translations of the used dependences: ready with their addresses, waiting, or failed. -/
inductive DepPlan where
  | ready (s : State) (pas : List (Nat × Nat))
  | wait (s : State)
  | failed (s : State) (cause : Cause) (va : Nat)

def planDeps (l : Launch) : List Nat → State → DepPlan
  | [], s => .ready s []
  | i :: t, s =>
    if !depUsed l i then planDeps l t s
    else
      let va := (depOf l i).1 / 8 * 8
      match frontMark s 0 l.ctx va with
      | some m => .failed (clearFront s 0 l.ctx va) (causeOf m) va
      | none =>
        match translate s 0 none l.ctx va with
        | (s, .xnp) => .failed s .xnp va
        | (s, .walk) => .wait (askWalk s 0 l.ctx (va / 0x10000) l.fw true)
        | (s, .ok x) =>
          if !permitted x.pte l.fw 4 || (hbmTarget s x).isSome then .failed s .xperm va
          else if lineFailed s (.dep l.lid i) x.pa then .failed (clearFailed s (.dep l.lid i) [x.pa]) .memerr va
          else if isOwn s x.pa && lineBad s (localOf x.pa) 8 then .failed (noteUncorrectable s (localOf x.pa)) .memerr va
          else if isOwn s x.pa && !lineHere s 0 0 x.pa true then .wait (askLine s 0 (.dep l.lid i) s.latest x.pa true)
          else if !isOwn s x.pa && !reachable s (nodeOf x.pa) then .failed s .memerr va
          else match planDeps l t s with
            | .ready s ps => .ready s ((i, x.pa) :: ps)
            | r => r

/-- Register the monitor of one dependence at the home of its word (R310). -/
def registerDep (l : Launch) (s : State) (e : Nat × Nat) : State :=
  let d := depOf l e.1
  let cond := depCond (fld d.1 2 0)
  if isOwn s e.2 then
    addMonitor (frontStamp s e.2) ⟨localOf e.2, true, false, cond, d.2, .dep l.lid e.1, s.nextId, none, false, l.ctx⟩
  else
    let who := ReqFor.dep l.lid e.1
    let m := { mkMsg s 0 who (nodeOf e.2) s.nextId s.latest e.2 with arg := cond + 8, val := BitVec.ofNat 64 d.2 }
    { s with nextId := s.nextId + 1, reqs := s.reqs ++ [⟨s.nextId, 0, who, 5, nodeOf e.2, e.2, none, none, m, false, 0⟩] }

/-- DEPENDENCE_LATCH: a satisfied dependence stays latched, in the saved descriptor too while the queue is unmapped
(R425); with the last one the launch of a mapped queue becomes ACTIVE. -/
def execDependenceLatch (lid dep : Nat) (s : State) : Host.Outcome State Fault Refusal :=
  match s.launch? lid with
  | none => .next s
  | some l =>
    if l.st != .waitdep then .next s
    else if s.failedPa.any fun e => e.1 == whoKey (.dep lid dep) then
      -- the home of the word has refused the registration, or has not answered (R446)
      withLines s [journalPa s l.seq, queueDesc s l.queue]
        (failLaunch (report { s with failedPa := s.failedPa.filter fun e => e.1 != whoKey (.dep lid dep) } (some l.ctx) 0 none none
          { cause := causeCode .memerr, kind := 2, ctx := l.ctx, addr := (depOf l dep).1 / 8 * 8 }) l)
    else
      let hit := fun (m : Monitor) => m.who == .dep lid dep && m.hit.isSome
      let l' := if s.mons.any hit then { l with latched := l.latched ||| laneBit dep } else l
      let s' := { s.updLaunch lid (fun _ => l') with mons := s.mons.filter fun m => !hit m }
      let away : Bool := match s.hwq l.queue with
        | some x => x.st == .unmapped
        | none => false
      withLines s [journalPa s l.seq, queueDesc s l.queue]
        (if away then frontPut s' (queueDesc s l.queue + 0x20) (natToBytes 8 (l'.latched.toNat + 2 * 16))
         else if allLatched l' then activate s' l' else s')

/-! ## The head of a queue (R201, R202) -/

/-- ORDER = 1: every earlier launch of the queue is over. -/
def orderReady (s : State) (l : Launch) : Bool :=
  !bitOf (wordAt l.words 0) 44 ||
  match s.hwq l.queue with
  | some q => q.earlier.all fun i => i == l.lid || launchOver s i
  | none => true

/-- The checks have passed: the monitors are registered, and a launch without dependences goes on at once. -/
def waitdepEntered (s : State) (l : Launch) (ps : List (Nat × Nat)) : State :=
  let l := { l with st := .waitdep }
  let s := ps.foldl (registerDep l) (s.updLaunch l.lid fun _ => l)
  if allLatched l then activate s l else s

def enterWaitdep (s : State) (l : Launch) : Host.Outcome State Fault Refusal :=
  match planDeps l (List.range 4) s with
  | .wait s => .next s
  | .failed s cause va =>
    let s := report s (some l.ctx) 0 none none { cause := causeCode cause, kind := 2, ctx := l.ctx, addr := va }
    .next (failLaunch s l)
  | .ready s ps =>
    .next (waitdepEntered s l ps)

/-- LAUNCH_HEAD_CHECK. -/
def execLaunchHeadCheck (queue : Nat) (s : State) : Host.Outcome State Fault Refusal :=
  match (s.hwq queue).bind (fun q => if q.st == .unmapped then none else q.pkt) with
  | none => .next s
  | some p =>
    match s.launch? p.lid with
    | none => .next s
    | some l =>
      if l.st != .queued || !orderReady s l then .next s
      else match missingLine s [journalPa s l.seq, queueDesc s queue] with
        | some pa => .next (askLine s 0 .front s.latest pa true)
        | none =>
          if !recordFieldsOk s l then .next (failLaunch s l)
          else
            let go := fun (e : Nat × Nat × Bool × Nat) =>
              if !entryOk l e then Host.Outcome.next (failLaunch s l)
              else
                let l := { l with entryAddr := e.1, entryVbud := e.2.1, entryIdem := e.2.2.1, drain := e.2.2.2 }
                enterWaitdep (s.updLaunch l.lid fun _ => l) l
            match p.entry with
            | some e => go e
            | none =>
              match entryFor s l with
              | .missing pa => .next (askLine s 0 .front s.latest pa false)
              | .bad pa => .next (failLaunch (noteBad s 0 pa) l)
              | .empty => .next (failLaunch s l)
              | .code a v i d => go (a, v, i, d)

/-! ## Placing a group (R206, R253, R375) -/

/-- The binding of a port of a group of a context. -/
def bindPort (s : State) (ctx k : Nat) : Port :=
  let w := ctxWord s ctx (8 + k)
  let kind := fld w 63 60
  let q := fld w 55 0
  let own := kind != 1 || s.regs.featacc.getLsbD 0 && (let t := s.stream (q % 256)
    t.words.isEmpty || fld (wordAt t.words 0) 15 0 == ctx)
  ⟨if own then kind else 0, q, [], [], 0, 0, [], 0⟩

/-- The group's scratchpad is zeroed and its full-empty bits emptied. -/
def clearScratch (s : State) (core n : Nat) : State :=
  let lo := windowBase core + 0x80000
  let fe := windowBase core + 0x100000
  { s with mem := s.mem.filter fun e => !(decide (lo ≤ e.1) && decide (e.1 < lo + n) || decide (fe ≤ e.1) && decide (e.1 < fe + n / 128)) }

/-- Another waiting group of the launch has this core claimed: the core stays reserved for it (R457). -/
def claimedAgain (s : State) (g : Group) (l : Launch) (core : Nat) : Bool :=
  s.groups.any fun x => x.lid == l.lid && x.gid != g.gid && x.st == .waiting && l.claim.contains (x.gi, core)

/-- A group takes a core. -/
def placeGroup (s : State) (g : Group) (l : Launch) (core : Nat) : State :=
  let s := clearScratch s core (fld (wordAt l.words 2) 18 0)
  let s := s.setCore core fun k => { k with
    group := some g.gid
    reserved := if k.reserved == some l.lid && !claimedAgain s g l core then none else k.reserved
    barriers := List.replicate 32 ⟨0, 0, 0⟩
    rings := List.replicate 8 Ring.none
    queues := List.replicate 8 []
    ports := (List.range 8).map (bindPort s l.ctx)
    gexp := List.replicate 4 none
    compact := ⟨none, 0, []⟩ }
  { s with groups := updWhere (fun x => x.gid == g.gid) (fun x => { x with core := core, st := .placed, nextGang := 0 }) s.groups }

/-- A core may take a group: it hosts none, and is not reserved for another launch. A gated core wakes for it (R496). -/
def coreFree (s : State) (core lid : Nat) : Bool :=
  let k := s.core core
  s.coreOn core && !s.regs.standby && k.group.isNone && (k.reserved.isNone || k.reserved == some lid)

/-- The first free core that a group may take. -/
def firstCore (s : State) (g : Group) : Option Nat := (enabledIn s g.lo g.num).find? fun c => coreFree s c g.lid

/-- Order of groups that wait for a core: launch priority, ACTIVE time, grid index. -/
def groupBefore (s : State) (a b : Group) : Bool :=
  let key := fun (g : Group) => match s.launch? g.lid with
    | some l => (23 - fld (wordAt l.words 0) 51 47, l.activeAt, g.gi, g.gid)
    | none => (24, 0, 0, 0)
  let x := key a
  let y := key b
  x.1 < y.1 || x.1 == y.1 && (x.2.1 < y.2.1 || x.2.1 == y.2.1 && (x.2.2.1 < y.2.2.1 || x.2.2.1 == y.2.2.1 && decide (x.2.2.2 < y.2.2.2)))

/-- The group that a core takes next. -/
def nextGroup (s : State) (core : Nat) : Option Group :=
  (s.groups.filter fun g => g.st == .waiting && firstCore s g == some core).foldl (fun (b : Option Group) g =>
    match b with
    | none => some g
    | some h => if groupBefore s g h then some g else some h) none

end Sys2Proof.Machine
end

