-- ==== Sys2Proof/Machine/Queues.lean ====
section
/-! DEFINITION. Hardware queues and their packets (R463–R469, R473, R477): wakes, the parser, batches, REPLACE and
SIGNAL. -/

namespace Sys2Proof.Machine

/-! ## Wakes (R425, R465) -/

/-- Fields of a queue descriptor's word +0x08. -/
def descLog2 (w : Nat) : Nat := fld w 20 16
def descCtx (w : Nat) : Nat := fld w 15 0

/-- A word of a queue's descriptor in memory. -/
def descWord (s : State) (q off : Nat) : Nat :=
  ((peek s 0 s.latest (queueDesc s q + off) 8).map bytesToNat).getD 0

/-- PWAKE is set in the saved descriptor. -/
def setPwake (s : State) (q : Nat) : State :=
  let w := descWord s q 8
  frontPut s (queueDesc s q + 8) (natToBytes 8 (if bitOf w 61 then w else w + 2 ^ 61))

/-- A wake of a queue: one that is being unmapped or is unmapped keeps it. -/
def wakeQueue (s : State) (q : Nat) : State :=
  match s.hwq q with
  | some x =>
    match x.st with
    | .mapped => s
    | .unmapping => s.updQ q fun x => { x with pwake := true }
    | .unmapped => setPwake s q
  | none => setPwake s q

/-- The marks of peer packets that are still between CONS and PROD. -/
def keepPeers (s : State) (q cons prod : Nat) : State :=
  { s with peers := s.peers.filter fun e => e.1 != q || decide ((e.2 + 2 ^ 32 - cons) % 2 ^ 32 < (prod + 2 ^ 32 - cons) % 2 ^ 32) }

/-- A new producer index, as the part or the saved descriptor holds it, and a wake. -/
def storeProd (s : State) (q prod : Nat) : State :=
  match s.hwq q with
  | some x =>
    if x.st == .unmapped then setPwake (frontPut s (queueDesc s q + 0x10) (natToBytes 4 prod)) q
    else wakeQueue (s.updQ q fun x => { x with prod := prod }) q
  | none => setPwake (frontPut s (queueDesc s q + 0x10) (natToBytes 4 prod)) q

/-- Context, consumer index, producer index, log2 size and ring of a queue: as the part holds them, or as saved. -/
def queueNow (s : State) (q : Nat) : Nat × Nat × Nat × Nat × Nat :=
  let saved :=
    let w := descWord s q 8
    let i := descWord s q 0x10
    (descCtx w, fld i 63 32, fld i 31 0, descLog2 w, descWord s q 0 % 2 ^ 54)
  match s.hwq q with
  | some x => if x.st == .unmapped then saved else (x.ctx, x.cons, x.prod, x.log2n, x.ring)
  | none => saved

/-- QWAKE_WRITE. -/
def execQwakeWrite (queue : Nat) (value : W64) (s : State) : Host.Outcome State Fault Refusal :=
  withLines s [queueDesc s queue] (
    let (ctx, cons, _, log2n, _) := queueNow s queue
    if fld value.toNat 63 32 != 0 || 2 ^ log2n < (value.toNat % 2 ^ 32 + 2 ^ 32 - cons) % 2 ^ 32 then
      report s none 0 none none { cause := causeCode .qproto, kind := 2, ctx := ctx, addr := value.toNat, loc := queue }
    else storeProd (keepPeers s queue cons (value.toNat % 2 ^ 32)) queue (value.toNat % 2 ^ 32))

/-- The context of a queue, in whose name its wake word is read. -/
def queueCtx (s : State) (q : Nat) : Nat := ((s.hwq q).map fun x => x.ctx).getD 65537

/-- Watch the wake word for a value other than the one last seen. A word whose line is owned outside is registered at its home
once the line is recalled (R310). -/
def watchWake (s : State) (q pa last : Nat) : State :=
  if pa = 0 then s
  else if isOwn s pa && heldOutside s (localOf pa) then
    let m := { mkMsg s 0 (.wake q) (nodeOf pa) q s.latest pa with arg := 1 + 8, val := BitVec.ofNat 64 last }
    let s := askLine s (localOf pa / 2 ^ 38 % 4) (.home (localOf pa / 2 ^ 36 % 16)) s.latest pa true
    { s with nextId := s.nextId + 1, homeQ := s.homeQ ++ [⟨s.nextId, lineOf pa, 5, m, false, s.clk⟩] }
  else if isOwn s pa then
    if lineBad s (localOf pa) 8 then noteUncorrectable s (localOf pa)
    else addMonitor (frontStamp s pa) ⟨localOf pa, true, false, 1, last, .wake q, s.nextId, none, false, queueCtx s q⟩
  else
    let who := ReqFor.wake q
    let m := { mkMsg s 0 who (nodeOf pa) s.nextId s.latest pa with arg := 1 + 8, val := BitVec.ofNat 64 last }
    { s with nextId := s.nextId + 1, reqs := s.reqs ++ [⟨s.nextId, 0, who, 5, nodeOf pa, pa, none, none, m, false, 0⟩] }

/-- WAKE_WORD_CHANGE. -/
def execWakeWordChange (queue : Nat) (s : State) : Host.Outcome State Fault Refusal :=
  match s.hwq queue, s.mons.find? fun m => m.who == MonFor.wake queue && m.hit.isSome with
  | some x, some m =>
    withLines s [queueDesc s queue] (
      let v := m.hit.getD 0
      let s := { s with mons := s.mons.filter fun m => !(m.who == MonFor.wake queue && m.hit.isSome) }
      watchWake (wakeQueue (s.updQ queue fun x => { x with wakeval := v }) queue) queue x.wakesig v)
  | _, _ => .next s

/-! ## Packets (R466, R467) -/

/-- What a read of one line would find. -/
inductive Look where
  | here (bs : List Byte)
  | missing (pa : Nat)
  | bad (pa : Nat)
  deriving DecidableEq, Repr

def lookAt (s : State) (pa n : Nat) : Look :=
  if lineFailed s .front pa then .bad pa
  else if isOwn s pa && lineBad s (localOf pa) n then .bad pa
  else match peek s 0 s.latest pa n with
    | some b => .here b
    | none => .missing pa

/-- The packet at an index of the ring. -/
def lookPacket (s : State) (x : HwQueue) (i : Nat) : Look := lookAt s (x.ring + 128 * (i % 2 ^ x.log2n)) 128

def packetType (ws : List W64) : Nat := fld (wordAt ws 0) 63 56
def packetSrc (ws : List W64) : Nat := fld (wordAt ws 0) 55 46

/-- Body words that a type uses. -/
def usedWords (t : Nat) : Nat :=
  match t with
  | 1 => 1
  | 2 => 1
  | 3 => 1
  | 4 => 5
  | 5 => 2
  | _ => 0

/-- A packet is malformed. -/
def badPacket (ctx : Nat) (ws : List W64) : Bool :=
  let h := wordAt ws 0
  let t := packetType ws
  let w := wordAt ws
  5 < t || ws.isEmpty || fld h 45 16 != 0 || h % 65536 != ctx ||
  ((List.range 15).drop (1 + usedWords t)).any (fun i => w i != 0) ||
  (match t with
   | 1 => w 1 % 128 != 0 || 2 ^ 56 ≤ w 1
   | 2 => w 1 == 0 || 4096 < w 1
   | 3 => w 1 == 0 || 4096 < w 1
   | 4 => 2 ^ 32 ≤ w 5 || 2 ^ 56 ≤ w 4
   | 5 => w 1 % 8 != 0 || 2 ^ 56 ≤ w 1
   | _ => false)

/-- The first 8 bytes of SHAKE256 over the packet's bytes. -/
def digestOf (ws : List W64) : W64 := (Config.shake256 (ws.flatMap fun w => natToBytes 8 w.toNat)).setWidth 64

/-- The parser accepts a packet: a journal number and an ACCEPTED entry, but for a NOP that is well formed. -/
def accept (s : State) (x : HwQueue) (ws : List W64) (inBatch : Bool) : State × Packet :=
  let bad := badPacket x.ctx ws
  let p : Packet := ⟨ws, s.regs.jnext, digestOf ws, inBatch, bad, [], none, 0, none⟩
  if packetType ws = 0 && !bad then (s, { p with seq := 0 })
  else (journal { s with
      regs := { s.regs with jnext := s.regs.jnext + 1 }, journalTags := tabPut 0 s.journalTags (p.seq % 65536) (ws.getD 15 0) } p.seq (packetType ws) x.ctx x.q 1 p.digest false, p)

/-- The packet of a queue for the step of its type: the state and the packet, or what to do first. -/
inductive Held where
  | packet (s : State) (x : HwQueue) (p : Packet)
  | other (s : State)

/-- Lines that the parser writes for one packet. -/
def parserLines (s : State) (q n : Nat) : List Nat :=
  queueDesc s q :: (List.range n).map fun i => journalPa s (s.regs.jnext + i)

/-- The parser holds the BEGIN of a batch that it has not committed. An unmap leaves the batch in the queue unstarted (R424); the
BEGIN, read once, is held through it (log entry 140). -/
def batchOpen (x : HwQueue) (p : Packet) : Bool :=
  packetType p.words == 2 && !p.bad && decide (wordAt p.words 1 + 2 ≤ 2 ^ x.log2n)

/-- The packet that the parser holds, the next of its batch, or the next of the ring. -/
def takePacket (s : State) (q : Nat) (want : Nat → Bool) : Held :=
  match s.hwq q with
  | none => .other s
  | some x =>
    -- in RECOVERY no queue is served (R490)
    if s.regs.phase == .recovery then .other s else
    let hold := fun (s : State) (p : Packet) (t : List Packet) =>
      Held.packet (s.updQ q fun x => { x with pkt := some p, members := t }) { x with pkt := some p, members := t } p
    match x.pkt, x.members with
    | some p, _ => if want (packetType p.words) && (x.st == .mapped || x.st == .unmapping && !batchOpen x p) then .packet s x p else .other s
    | none, p :: t => if want (packetType p.words) && x.st == .mapped then hold s p t else .other s
    | none, [] =>
      if x.st != .mapped || x.prod == x.cons then .other s
      else match lookPacket s x x.cons with
        | .missing pa => .other (askLine s 0 .front s.latest pa false)
        | .bad pa =>
          if !want 6 then .other s
          else match missingLine s (parserLines s q 1) with
            | some l => .other (askLine s 0 .front s.latest l true)
            | none =>
              let s := if lineFailed s .front pa then clearFailed s .front [pa] else noteUncorrectable s (localOf pa)
              let r := accept s x [] false
              hold r.1 r.2 []
        | .here bs =>
          let ws := words64 bs
          let s := frontStamp s (x.ring + 128 * (x.cons % 2 ^ x.log2n))
          if !want (packetType ws) then .other s
          else match missingLine s (parserLines s q 1) with
            | some l => .other (askLine s 0 .front s.latest l true)
            | none => let r := accept s x ws false; hold r.1 r.2 []

/-- A packet's command has been performed or has failed: its journal entry, then CONS. -/
def packetEnded (s : State) (x : HwQueue) (p : Packet) (ok : Bool) : State :=
  advance (if p.seq = 0 then s else journal s p.seq (packetType p.words) x.ctx x.q (if ok then 3 else 4) p.digest false) x.q
def endPacket (s : State) (x : HwQueue) (p : Packet) (ok : Bool) : Host.Outcome State Fault Refusal :=
  withLines s [queueDesc s x.q, journalPa s p.seq] (packetEnded s x p ok)

/-- A step of the parser for packets of one type. -/
def packetStep (s : State) (q : Nat) (want : Nat → Bool)
    (act : State → HwQueue → Packet → Host.Outcome State Fault Refusal) : Host.Outcome State Fault Refusal :=
  match takePacket s q want with
  | .other s => .next s
  | .packet s x p => if p.bad then endPacket s x p false else act s x p

/-- NOP_PACKET: a NOP leaves the queue; a packet of no type, or one that cannot be read, fails. -/
def execNopPacket (queue : Nat) (s : State) : Host.Outcome State Fault Refusal :=
  packetStep s queue (fun t => t == 0 || 6 ≤ t) fun s x p => endPacket s x p true

/-! ## LAUNCH -/

/-- A read through the queue's context, as it would go now. -/
inductive VLook where
  | here (bs : List Byte)
  | walk
  | missing (pa : Nat)
  | fault

/-- Read n bytes of one line at a virtual address (R467). -/
def lookVirt (s : State) (x : HwQueue) (va n : Nat) : State × VLook :=
  match frontMark s 0 x.ctx va with
  | some _ => (s, .fault)
  | none =>
    match translate s 0 none x.ctx va with
    | (s, .xnp) => (s, .fault)
    | (s, .walk) => (askWalk s 0 x.ctx (va / 0x10000) x.fwown true, .walk)
    | (s, .ok t) =>
      if !permitted t.pte x.fwown 4 then (s, .fault)
      else match lookAt s t.pa n with
        | .bad _ => (s, .fault)
        | .missing pa => (askLine s 0 .front s.latest pa false, .missing pa)
        | .here _ => (frontStamp s t.pa, .here (readAt s 0 x.ctx t.pa n))

/-- The launch that the packet at an index starts (R202), with the number its context gives it. -/
def newLaunch (s : State) (x : HwQueue) (p : Packet) (words : List W64) (st : LaunchSt) (index : Nat) : Launch :=
  { lid := s.nextId, queue := x.q, ctx := x.ctx, number := ((s.context x.ctx).map fun c => c.launches % 256).getD 0
    seq := p.seq, tag := p.words.getD 15 0, digest := p.digest, fw := x.fwown, words := words, entryAddr := 0, entryVbud := 0
    entryIdem := false, drain := 0, st := st, latched := 0, live := 0, activeAt := 0, late := false, parts := []
    owner := none, virt := 0, since := s.clk, signalled := false, fail := false, away := [], peer := s.peers.contains (x.q, index) }

def addLaunch (s : State) (l : Launch) : State :=
  { s with
    nextId := s.nextId + 1
    launches := s.launches ++ [l]
    queues := updWhere (fun x => x.q == l.queue) (fun x => { x with earlier := x.earlier ++ [l.lid] }) s.queues
    contexts := updWhere (fun c => c.ctx == l.ctx) (fun c => { c with launches := (c.launches + 1) % 256 }) s.contexts }

/-- LAUNCH_PACKET: the record is read, and a launch begins. All 16 words are taken as they stand at this one read, a batch
member's at its BEGIN: of a record that is changed after its submission, R199 lets each word be the old or the new one (log
entry 118). -/
def execLaunchPacket (queue : Nat) (s : State) : Host.Outcome State Fault Refusal :=
  packetStep s queue (· == 1) fun s x p =>
    if p.lid != 0 then .next s
    else
      let start := fun (s : State) (words : List W64) =>
        let l := newLaunch s x p words .queued x.cons
        Host.Outcome.next ((addLaunch s l).updQ queue fun x => { x with pkt := some { p with lid := l.lid } })
      if !p.record.isEmpty then start s p.record
      else
        let va := wordAt p.words 1
        match lookVirt s x va 128 with
        | (s, .here bs) => start s (words64 bs)
        | (s, .fault) => endPacket (clearFront s 0 x.ctx va) x p false
        | (s, _) => .next s

/-! ## Batches (R468) -/

/-- A member as read: its words, its launch record and entry where it has them, and whether its checks passed. -/
structure Member where
  words : List W64
  record : List W64
  entry : Option (Nat × Nat × Bool × Nat)
  ok : Bool

/-- The replacement rules of a REPLACE (R473). -/
def replaceOk (s : State) (ctx : Nat) (ws : List W64) : Bool :=
  wordAt ws 1 < fld (ctxWord s ctx 2) 31 0 && fld (wordAt ws 2) 62 61 == 0 && fld (wordAt ws 3) 63 33 == 0

/-- Read and check one member; none while something has to be waited for. -/
def checkMember (s : State) (x : HwQueue) (src i : Nat) (ws : List W64) : State × Option Member :=
  let t := packetType ws
  let fine := !badPacket x.ctx ws && packetSrc ws == src && (t == 1 || t == 4 || t == 5)
  if badPacket x.ctx ws || t != 1 then (s, some ⟨ws, [], none, fine && (t != 4 || replaceOk s x.ctx ws)⟩)
  else match lookVirt s x (wordAt ws 1) 128 with
    | (s, .here bs) =>
      let p : Packet := ⟨ws, 0, 0, true, false, [], none, 0, none⟩
      let l := newLaunch s x p (words64 bs) .queued i
      (match entryFor s l with
       | .missing pa => (askLine s 0 .front s.latest pa false, none)
       | .bad pa => (noteBad s 0 pa, some ⟨ws, words64 bs, none, false⟩)
       | .empty => (s, some ⟨ws, words64 bs, none, false⟩)
       | .code a v i d => (s, some ⟨ws, words64 bs, some (a, v, i, d), fine && recordFieldsOk s l && entryOk l (a, v, i, d)⟩))
    | (s, .fault) => (s, some ⟨ws, [], none, false⟩)
    | (s, _) => (s, none)

/-- Read and check every member; all that can be asked for is asked for. -/
def checkMembers (x : HwQueue) (src : Nat) : List Nat → State → State × Option (List Member)
  | [], s => (s, some [])
  | i :: t, s =>
    match lookPacket s x i with
    | .missing pa => ((checkMembers x src t (askLine s 0 .front s.latest pa false)).1, none)
    | .bad _ =>
      match checkMembers x src t s with
      | (s, some ms) => (s, some (⟨[], [], none, false⟩ :: ms))
      | r => r
    | .here bs =>
      match checkMember s x src i (words64 bs) with
      | (s, some m) =>
        (match checkMembers x src t s with
         | (s, some ms) => (s, some (m :: ms))
         | r => r)
      | (s, none) => ((checkMembers x src t s).1, none)

/-- The packets of a committed batch. -/
def acceptAll (x : HwQueue) : List Member → State → State × List Packet
  | [], s => (s, [])
  | m :: t, s =>
    let r := accept s x m.words true
    let q := acceptAll x t r.1
    (q.1, { r.2 with record := m.record, entry := m.entry } :: q.2)

/-- A member of a malformed batch: journalled FAILED; a launch whose record was read signals. -/
def failMember (x : HwQueue) (s : State) (m : Member) : State :=
  let r := accept s x m.words true
  let s := if r.2.seq = 0 then r.1 else journal r.1 r.2.seq (packetType m.words) x.ctx x.q 4 r.2.digest false
  if m.record.isEmpty then s
  else
    let l := { newLaunch s x r.2 m.record .failed x.cons with fail := true }
    signalLaunch (addLaunch s l) l

/-- The members of a batch have been checked, and cw read at the place of its COMMIT: a good batch is accepted as a whole,
a bad one fails as a whole. -/
def batchBegun (s : State) (x : HwQueue) (p : Packet) (ms : List Member) (cw : List W64) : State :=
  let m := wordAt p.words 1
  let commit := packetType cw == 3 && !badPacket x.ctx cw
  let s := (ms.map fun e => wordAt e.words 1).foldl (fun s va => clearFront s 0 x.ctx va) s
  if commit && wordAt cw 1 == m && ms.all (fun e => e.ok) then
    let r := acceptAll x (ms ++ [⟨cw, [], none, true⟩]) s
    let s := r.1.updQ x.q fun x => { x with members := r.2 }
    advance (journal s p.seq 2 x.ctx x.q 3 p.digest false) x.q
  else
    let s := ms.foldl (failMember x) s
    let s := if commit then failMember x s ⟨cw, [], none, false⟩ else s
    let s := journal s p.seq 2 x.ctx x.q 4 p.digest false
    let c := (x.cons + m + (if commit then 2 else 1)) % 2 ^ 32
    frontPut (s.updQ x.q fun x => { x with cons := c, pkt := none }) (queueDesc s x.q + 0x14) (natToBytes 4 c)

def execBeginPacket (queue : Nat) (s : State) : Host.Outcome State Fault Refusal :=
  packetStep s queue (· == 2) fun s x p =>
    let m := wordAt p.words 1
    if 2 ^ x.log2n < m + 2 then endPacket s x p false
    else if (x.prod + 2 ^ 32 - x.cons) % 2 ^ 32 < m + 2 then .next s
    else
      let at_ := fun i => (x.cons + i) % 2 ^ 32
      match checkMembers x (packetSrc p.words) ((List.range m).map fun i => at_ (i + 1)) s, lookPacket s x (at_ (m + 1)) with
      | (s, _), .missing pa => .next (askLine s 0 .front s.latest pa false)
      | (s, none), _ => .next s
      | (s, some ms), last =>
        let cw := match last with
          | .here bs => words64 bs
          | _ => []
        withLines s (journalPa s p.seq :: parserLines s queue (m + 1)) (
          batchBegun s x p ms cw)

/-- COMMIT_PACKET: outside a batch it is malformed. -/
def execCommitPacket (queue : Nat) (s : State) : Host.Outcome State Fault Refusal :=
  packetStep s queue (· == 3) fun s x p => endPacket s x p p.inBatch

/-! ## REPLACE and SIGNAL (R469, R473) -/

/-- The lines of a range, page by page; none while a walk has to be waited for. -/
def rangeLines (x : HwQueue) (va : Nat) : List (Nat × Nat) → State → State × Option (List Nat)
  | [], s => (s, some [])
  | q :: t, s =>
    let a := va + q.1
    match frontMark s 0 x.ctx a with
    | some _ => rangeLines x va t s
    | none =>
      match translate s 0 none x.ctx a with
      | (s, .xnp) => rangeLines x va t s
      | (s, .walk) => ((rangeLines x va t (askWalk s 0 x.ctx (a / 0x10000) x.fwown true)).1, none)
      | (s, .ok p) =>
        match rangeLines x va t s with
        | (s, some ls) => (s, some (linesOf p.pa q.2 ++ ls))
        | r => r

/-- REPLACE: the packet is over when its entry is an element of S, at another home once that acknowledges it (R473). Clauses fetched from now on find the lines of the range as they are, and the entry takes its new words. -/
def replaced (s : State) (x : HwQueue) (p : Packet) (ls : List Nat) : State :=
  let va := wordAt p.words 4
  let s := ls.foldl invalidateLine s
  let s := (pageParts va (wordAt p.words 5)).foldl (fun s q => clearFront s 0 x.ctx (va + q.1)) s
  let pa := ctxWord s x.ctx 1 % 2 ^ 54 + 16 * wordAt p.words 1
  match physWrite s 0 .front pa (natToBytes 8 (wordAt p.words 2) ++ natToBytes 8 (wordAt p.words 3)) with
  | .wait s => s
  | .failed s => advance (journal s p.seq 4 x.ctx x.q 4 p.digest false) x.q
  | .done s =>
    if frontQuiet s then advance (journal s p.seq 4 x.ctx x.q 3 p.digest false) x.q
    else s.updQ x.q fun x => { x with pkt := some { p with sent := some (lineOf pa) } }

/-- A packet whose write has gone to another home: it is over once that is acknowledged, or has failed. -/
def sentPacket (s : State) (x : HwQueue) (p : Packet) (line : Nat) : Host.Outcome State Fault Refusal :=
  if !frontQuiet s then .next s
  else if lineFailed s .front line then endPacket (clearFailed s .front [line]) x p false
  else endPacket s x p true

def execReplacePacket (queue : Nat) (s : State) : Host.Outcome State Fault Refusal :=
  packetStep s queue (· == 4) fun s x p =>
    match p.sent with
    | some line => sentPacket s x p line
    | none =>
    if !replaceOk s x.ctx p.words then endPacket s x p false
    else
      let va := wordAt p.words 4
      let parts := pageParts va (wordAt p.words 5)
      match rangeLines x va parts s with
      | (s, none) => .next s
      | (s, some ls) =>
        withLines s [queueDesc s queue, journalPa s p.seq] (
          replaced s x p ls)

/-- SIGNAL_PACKET: after every earlier launch of the queue is over and its signal performed, here or at its home (R469). A fault of its
address fails it, which its report tells. -/
def execSignalPacket (queue : Nat) (s : State) : Host.Outcome State Fault Refusal :=
  packetStep s queue (· == 5) fun s x p =>
    match p.sent with
    | some line => sentPacket s x p line
    | none =>
    if !x.earlier.isEmpty || !frontQuiet s then .next s
    else match missingLine s [queueDesc s queue, journalPa s p.seq] with
      | some pa => .next (askLine s 0 .front s.latest pa true)
      | none =>
        let va := wordAt p.words 1
        let told := s.faults.length
        match signalUpdate s 0 x.ctx x.fwown .front s.latest (frontMark s 0 x.ctx va) va (wordAt p.words 2) false 0 with
        | .walk s _ => .next s
        | .ask s => .next s
        | .done s =>
          let s := clearFront s 0 x.ctx va
          if frontQuiet s then endPacket s x p (s.faults.length == told)
          else .next (s.updQ queue fun x => { x with pkt := some { p with sent := some 0 } })

end Sys2Proof.Machine
end

