-- ==== Sys2Proof/Machine/Preempt.lean ====
section
/-! DEFINITION. Pre-emption (R426–R430): the choice of a method, the holding of a group and of a context's task
slices, the group's image (R351), and the restore. -/

namespace Sys2Proof.Machine

/-! ## The estimate (R427) -/

def groupOps (s : State) (gid : Nat) : List EngineOp := s.ops.filter fun o => o.group == some gid
def isMatrix (o : EngineOp) : Bool := o.kind == .mxissue || o.kind == .mxdrain

/-- clk until every matrix operation queued at the core's unit has completed. -/
def matrixClk (s : State) (core : Nat) : Nat :=
  match unitOps s core with
  | [] => 0
  | os => os.foldl (fun t o => max t (if o.started then o.due else opEnd s o t)) s.clk - s.clk + 24

/-- Bytes that a row of a job has still to move: those left to read, or those left to write where they are more. -/
def rowLeft (j : Job) (o : EngineOp) (r : Nat) : Nat :=
  max (((j.toRead o r).map fun u => u.2.2).foldl (· + ·) 0) (((j.toWrite o r).map fun u => u.2.bytes.length).foldl (· + ·) 0)

/-- Bytes that an operation has still to move. What the part takes for one whose descriptor it has not read is free (log entry
139). -/
def bytesLeft (s : State) (o : EngineOp) : Nat :=
  match o.words with
  | some ws =>
    let j := jobOf s o ws
    ((List.range (j.end_ o) ++ (if o.limit.isNone then [j.rows] else [])).map (rowLeft j o)).foldl (· + ·) 0
  | none => (Config.freeBits s.fresh (2 ^ 74 + o.id)).toNat % 2 ^ 32

def engineClk (s : State) (gid : Nat) : Nat :=
  let os := (groupOps s gid).filter fun o => !isMatrix o
  (os.map (bytesLeft s)).foldl (· + ·) 0 / 256 + 64 * (os.filter fun o => o.kind == .fetch).length

def State.group? (s : State) (gid : Nat) : Option Group := s.groups.find? fun g => g.gid == gid
def State.updGroup (s : State) (gid : Nat) (h : Group → Group) : State :=
  { s with groups := updWhere (fun g => g.gid == gid) h s.groups }

def ceilDiv (a b : Nat) : Nat := (a + b - 1) / b

/-- The allocation of a group. -/
def scratchOf (s : State) (g : Group) : Nat := groupScratch s (some g.gid)

/-- Bytes of the group state without its slots. -/
def stateBytes (s : State) (g : Group) : Nat :=
  let n := scratchOf s g
  n + n / 128 + 1024 + 128 * ((s.core g.core).queues.map List.length).foldl (· + ·) 0

/-- G. -/
def imageBytes (s : State) (g : Group) : Nat :=
  stateBytes s g + 163840 * ((s.core g.core).slots.filter fun b => b).length

/-- The gangs of a pre-empted unit: a group's, or the task slices of a context (number 0). -/
def unitGangs (s : State) (die gid : Nat) : List Gang :=
  s.gangs.filter fun g => if gid = 0 then g.group.isNone && g.core / 64 == die && g.ctx == (s.dieRegs die).preCtx else g.group == some gid

/-- The slices that still run or are parked. -/
def Gang.resident (g : Gang) : List Slice := g.slices.filter fun x => match x.st with | .run _ => true | .parked _ _ => true | _ => false

/-- The header word of a slice's restart point, where it can be fetched now. -/
def restartHeader (s : State) (g : Gang) (x : Slice) : Option (Nat × W64) :=
  match x.restart with
  | none => none
  | some r => match (fetchClause s g x r).2 with
    | .ok (h, _) => some (r, h)
    | _ => none

/-- A slice may be flushed (R429). -/
def flushable (s : State) (g : Gang) (x : Slice) : Bool :=
  (restartHeader s g x).isSome && x.xsave.isNone && !x.stuck && x.bind.all Option.isNone &&
  !(x.lanes.any fun t => t.fibres.any fun z => z.opened) && bitOf (identWord x.restart x.pc x.number x.index) 32

def flushAllowed (s : State) (gid : Nat) (gs : List Gang) : Bool :=
  (groupOps s gid).isEmpty && gs.all fun g => g.resident.all (flushable s g)

/-- Bytes of the records that save, or flush, would write. -/
def saveBytes (gs : List Gang) : Nat :=
  (gs.flatMap fun g => g.resident.map fun x => grain (128 + 16 * g.vbud + 32 + (if x.xsave.isSome then 64 else 0))).foldl (· + ·) 0

def flushBytes (s : State) (gs : List Gang) : Nat :=
  (gs.flatMap fun g => g.resident.map fun x => match restartHeader s g x with
    | some (_, h) => grain (128 + 16 * fld h.toNat 31 24 + (if h.getLsbD 23 then 32 else 0))
    | none => 0).foldl (· + ·) 0

/-- The method for a group with its cost: 0 drain, 1 save, 2 flush. -/
def chooseMethod (s : State) (g : Group) (bound : Nat) : Nat :=
  let gs := unitGangs s 0 g.gid
  let hint := ((s.launch? g.lid).map fun l => l.drain).getD 0
  let t := max (matrixClk s g.core) (engineClk s g.gid)
  let n := imageBytes s g
  let d := max hint t + ceilDiv n 256
  let v := t + ceilDiv (saveBytes gs + n) 256
  let f := t + ceilDiv (flushBytes s gs + n) 256
  let ways := [(0, d)] ++ (if flushAllowed s g.gid gs then [(2, f)] else []) ++ [(1, v)]
  let best := ways.foldl (fun (b : Option (Nat × Nat)) w =>
    if 850 * bound < w.2 then b
    else match b with
      | none => some w
      | some q => if w.2 < q.2 then some w else some q) none
  (best.map fun w => w.1).getD 1

/-! ## GO (R426–R428) -/

/-- The records of a unit are held from here on: those in bins leave them, with the time they have waited, which goes on only
when they are in a bin again (R212). -/
def holdRecord (s : State) (rid : Nat) : State :=
  match s.rec? rid with
  | none => s
  | some m =>
    let s := s.updRec rid fun r => { r with pre := true }
    if m.runnable then
      (recPut (unbin s rid) m 8 (natToBytes 8 (kindCode .pre * 2 ^ 60))).updRec rid fun r => { r with st := .held, since := s.clk - r.since }
    else s

def unitRecs (s : State) (die gid ctx : Nat) : List Nat :=
  (s.recs.filter fun m => if gid = 0 then m.group.isNone && m.core / 64 == die && m.ctx == ctx else m.group == some gid).map fun m => m.rid

def holdUnit (s : State) (die gid ctx : Nat) : State := (unitRecs s die gid ctx).foldl holdRecord s

/-- The groups that a request names. -/
def preTargets (s : State) (die : Nat) : List Group :=
  let d := s.dieRegs die
  s.groups.filter fun g =>
    g.st == .placed && g.held == 0 && g.core / 64 == die && ((s.launch? g.lid).map fun l => l.ctx) == some d.preCtx &&
    (d.preAll || g.core % 64 == d.preCore)

/-- PREEMPT_GO. -/
def preemptDie (die : Nat) (s : State) : State :=
  let d := s.dieRegs die
  if d.preBusy then s
  else
    let gs := preTargets s die
    let s := gs.foldl (fun s g =>
      holdUnit (s.updGroup g.gid fun x => { x with held := 1 + chooseMethod s g d.preBound }) die g.gid d.preCtx) s
    let s := if d.preAll then
        holdUnit (s.setDie die fun x => { x with heldCtx := x.heldCtx.filter (· != d.preCtx) ++ [d.preCtx] }) die 0 d.preCtx
      else s
    s.setDie die fun x => { x with
      preBusy := true, preMissed := false, preSince := s.clk, preClks := 0
      preLeft := gs.map (fun g => g.gid) ++ (if d.preAll then [0] else []) }

def execPreemptGo (die : Nat) (s : State) : Host.Outcome State Fault Refusal := .next (preemptDie die s)

/-! ## The methods (R428, R429) -/

/-- What a slice at a clause boundary writes under a method. -/
def preEnd (s : State) (g : Gang) (u : Sub) (x : Slice) (method rid : Nat) : EndInfo :=
  match (if method = 2 && flushable s g x then restartHeader s g x else none) with
  | some (r, h) =>
    { forcedEnd rid r 0 .pre 0 0 g x with
      forced := false, livev := fld h.toNat 31 24, liveg := h.getLsbD 23, livee := h.getLsbD 22 }
  | none => forcedEnd rid x.pc u.word .pre 0 0 g x

/-- Every sub-gang of a gang that stands at a clause boundary ends its segments. -/
def saveGang (s : State) (g : Gang) (method : Nat) : State :=
  let s := (g.subs.filter fun u => u.run.isNone).foldl (fun s u =>
    (g.slicesOf u.id).foldl (fun s x =>
      if !x.merr.isEmpty then s else endSegment s.bump g.core g.slot x.pos (preEnd s g u x method s.nextId)) s) s
  tidyGang s g.core g.slot

/-- A gang holds a slice that its method is to end now. -/
def savable (g : Gang) : Bool := g.subs.any fun u => u.run.isNone && (g.slicesOf u.id).any fun x => x.merr.isEmpty

/-! ## The group's image (R351, R428) -/

/-- Room in the HBM tier of a core's die. -/
def hbmRoom (s : State) (core n : Nat) : Option Nat := ((tiers s core).drop 1).findSome? fun t => findRoom s.pool t.1 t.2 (grain n)

/-- Spill one accumulator slot; none when there is no room. -/
def spillSlot (s : State) (g : Group) (k : Nat) : Option State :=
  (hbmRoom s g.core 163840).map fun a =>
    let s := poolTake s a 163840 65536
    let s := poolPut s a (tabGets 0#8 s.mem (windowBase g.core + 0x400000 + k * 0x28000) 163840)
    let s := (s.recs.filter fun m => m.group == some g.gid).foldl (fun s m =>
      let r := readHead s m
      (rebind (fun _ n => if n = 8 + k then 12 + k else n) s m).updRec m.rid fun q => { q with
        images := (List.range 4).map fun i => if r.bindNib i = 8 + k then a else q.images.getD i 0 }) s
    s.updGroup g.gid fun x => { x with spills := x.spills ++ [a] }

/-- Waits on things of a core are set aside with its group, or come back at another core: `f` is applied to the core's
number and `h` to the address of a granule of its scratchpad. -/
def moveWaits (s : State) (gid core : Nat) (f : Nat → Nat) (h : Nat → Nat) : State :=
  { s with waits := s.waits.map fun (w : Wait) =>
      if ((s.rec? w.rid).bind fun m => m.group) != some gid then w
      else match w.kind with
        | .bar c b p => if c = core then { w with kind := .bar (f c) b p } else w
        | .ring c r q => if c = core then { w with kind := .ring (f c) r q } else w
        | .extq c p => if c = core then { w with kind := .extq (f c) p } else w
        | .fe pa clr ty n => { w with kind := .fe (h pa) clr ty n }
        | _ => w }

/-- Numbers that stand for a core and for a granule while the group is held. -/
def awayCore (c : Nat) : Nat := c + 4096
def awayPa (core pa : Nat) : Nat :=
  if windowBase core + 0x80000 ≤ pa && pa < windowBase core + 0x200000 then pa - windowBase core + 2 ^ 60 else pa

/-- The group-scope expansions that are open on a core and bound by no resident slice are in their save areas (R194). -/
def writeOutGexp (s : State) (core : Nat) : State :=
  (s.core core).gexp.foldl (fun s e => match e with | some a => expWriteout s core a | none => s) s

/-- Write the group state and free the core; none when the pool has no room. -/
def holdGroup (s : State) (g : Group) : Option State :=
  let k := s.core g.core
  let n := scratchOf s g
  let spilled := (List.range 4).foldl (fun (r : Option State) i =>
    r.bind fun s => if k.slots.getD i false then spillSlot s g i else some s) (some s)
  spilled.bind fun s => (hbmRoom s g.core (stateBytes s g)).map fun a =>
    let w := windowBase g.core
    let im : GroupImage :=
      { scratch := tabGets 0#8 s.mem (w + 0x80000) n, fe := tabGets 0#8 s.mem (w + 0x100000) (n / 128), barriers := k.barriers
        rings := k.rings, queues := k.queues, resvs := k.resvs, gexp := k.gexp, place := a, compact := k.compact }
    let s := moveWaits (poolTake s a (stateBytes s g) 65536) g.gid g.core awayCore (awayPa g.core)
    let s := (writeOutGexp s g.core).setCore g.core fun k => { k with gexp := List.replicate 4 none }
    (freeCore s g.core).updGroup g.gid fun x => { x with st := .held, image := some im }

/-! ## PREEMPT_GROUP_DONE -/

/-- A unit's method has finished: PRESTAT. -/
def unitDone (s : State) (die gid method : Nat) : State :=
  s.setDie die fun d =>
    let left := d.preLeft.filter fun i => i != gid
    let took := s.clk - d.preSince
    { d with
      preLeft := left
      preBusy := !left.isEmpty
      lastMethod := method
      preMissed := d.preMissed || decide (850 * d.preBound < took)
      preClks := took }

/-- One step of a unit's method; none while there is nothing to do. -/
def unitStep (s : State) (die gid : Nat) : Option State :=
  let gs := unitGangs s die gid
  let method := match s.group? gid with
    | some g => g.held - 1
    | none => 1
  match (if method = 0 then none else gs.find? savable) with
  | some g => some (saveGang s g method)
  | none =>
    if !gs.isEmpty || !(groupOps s gid).isEmpty then none
    else match s.group? gid with
      | some g => if g.st == .placed then (holdGroup s g).map fun s => unitDone s die gid method else some (unitDone s die gid method)
      | none => some (unitDone s die gid (if gid = 0 then 1 else method))

/-- PREEMPT_GROUP_DONE: the units go on; one that has no slice and no operation left writes its state and frees its
core. -/
def execPreemptGroupDone (die : Nat) (s : State) : Host.Outcome State Fault Refusal :=
  if !(s.dieRegs die).preBusy then .next s
  else if (s.dieRegs die).preLeft.isEmpty then .next (s.setDie die fun d => { d with preBusy := false })
  else .next (((s.dieRegs die).preLeft.findSome? (unitStep s die)).getD s)

/-! ## Restoring (R430) -/

/-- A held record of a restored unit goes on: runnable if it waits for nothing. -/
def resumeRecord (s : State) (rid : Nat) : State :=
  match s.rec? rid with
  | none => s
  | some m =>
    let s := s.updRec rid fun r => { r with pre := false }
    if m.st == .held && m.trap.isNone then
      binRecord ((recPut s m 8 (natToBytes 8 0)).updRec rid fun r => { r with pre := false, st := .waiting, since := s.clk - r.since, readyAt := s.clk }) rid
    else s

/-- Context migration within the module: what the context holds on other dies is to be restored on this one, each group at its old
virtual position (R205), each task slice on the core that the feed would choose (log entry 84). -/
def migrateHere (s : State) (die ctx : Nat) : State :=
  let tasks := fun (m : RecMeta) => m.group.isNone && m.ctx == ctx && (s.dieRegs (m.core / 64)).heldCtx.contains ctx
  { s with
    groups := s.groups.map fun (g : Group) =>
      match s.launch? g.lid with
      | some l =>
        if g.st == .held && l.ctx == ctx then
          let c := coresOn s l g.gi die
          { g with st := .waiting, lo := c.1, num := c.2 }
        else g
      | none => g
    recs := updAll tasks (fun m => { m with core := (feedCore s die).getD (die * 64) }) s.recs
    regs := { s.regs with dies := s.regs.dies.zipIdx.map fun d =>
      { d.1 with heldCtx := if d.2 = die then (if s.recs.any tasks then ctx :: d.1.heldCtx else d.1.heldCtx) else d.1.heldCtx.filter (· != ctx) } } }

/-- PREEMPT_RESUME: the held groups of the context wait for a core again, and its task slices go on. A die that holds nothing of the
context takes what the other dies hold. -/
def resumeDie (die : Nat) (s : State) : State :=
  let ctx := (s.dieRegs die).preCtx
  let mine := fun (g : Group) => g.st == .held && g.core / 64 == die && ((s.launch? g.lid).map fun l => l.ctx) == some ctx
  let s := if s.groups.any mine || (s.dieRegs die).heldCtx.contains ctx then s else migrateHere s die ctx
  let s := { s with groups := updAll mine (fun g => { g with st := .waiting }) s.groups }
  if (s.dieRegs die).heldCtx.contains ctx then
    let s := s.setDie die fun d => { d with heldCtx := d.heldCtx.filter (· != ctx) }
    (unitRecs s die 0 ctx).foldl resumeRecord s
  else s

def execPreemptResume (die : Nat) (s : State) : Host.Outcome State Fault Refusal := .next (resumeDie die s)

/-- Operand-buffer bytes of restored reservations: their contents were not kept. -/
def spoilResvs (s : State) (core : Nat) (rs : List Resv) : State :=
  { s with opSpoilt := s.opSpoilt ++ (rs.filter fun r => r.valid).map fun r =>
      (opKey core r.base, opKey core (r.base + 128 * r.len), s.tick) }

/-- A held group comes back on a core: its image is reloaded, and its records go on there. -/
def restoreGroup (s : State) (g : Group) (im : GroupImage) (core : Nat) : State :=
  let w := windowBase core
  let s := { s with mem := tabPuts 0#8 (tabPuts 0#8 s.mem (w + 0x80000) im.scratch) (w + 0x100000) im.fe }
  let s := s.setCore core fun k => { k with
    barriers := im.barriers, rings := im.rings, queues := im.queues, resvs := im.resvs, gexp := im.gexp, compact := im.compact }
  let s := spoilResvs (poolFree s im.place) core im.resvs
  let s := moveWaits s g.gid (awayCore g.core) (fun _ => core) fun pa => if 2 ^ 60 ≤ pa then pa - 2 ^ 60 + w else pa
  let s := { s with recs := updAll (fun m => m.group == some g.gid) (fun m => { m with core := core }) s.recs }
  let s := s.updGroup g.gid fun x => { x with core := core, st := .placed, nextGang := g.nextGang, image := none, held := 0 }
  ((s.recs.filter fun m => m.group == some g.gid).map fun m => m.rid).foldl resumeRecord s

/-- GROUP_PLACE (R206, R430). -/
def execGroupPlace (core : Nat) (s : State) : Host.Outcome State Fault Refusal :=
  match nextGroup s core with
  | some g =>
    match s.launch? g.lid, g.image with
    | some l, some im => .next (restoreGroup (placeGroup s g l core) g im core)
    | some l, none => .next (placeGroup s g l core)
    | none, _ => .next s
  | none => .next s

end Sys2Proof.Machine
end

