-- ==== Sys2Proof/Machine/Abort.lean ====
section
/-! DEFINITION. Settling the items of an aborted launch or of a context that is torn down (R419). -/

namespace Sys2Proof.Machine

/-- A slice is inside a clause. -/
def inClause (g : Gang) (x : Slice) : Bool :=
  match x.st with
  | .run u => ((g.sub u).bind fun u => u.run).isSome
  | _ => false

/-- The live lanes of a slice or record whose threads are meant: those of a launch, or all of a context. -/
def meantLanes (who : Option Nat) (lids : List Nat) (live : BitVec 4) : BitVec 4 :=
  match who with
  | none => live
  | some lid => ((lanesOf live).filter fun k => lids.getD k 0 == lid).foldl (fun m k => m ||| laneBit k) 0#4

/-- Waits and monitors of lanes are gone. -/
def dropLaneWaits (s : State) (rid : Nat) (m : BitVec 4) : State :=
  { s with
    waits := s.waits.filter fun w => !(w.rid == rid && hasLane m w.lane)
    mons := s.mons.filter fun q => match q.who with | .lane r l => !(r == rid && hasLane m l) | _ => true }

/-- A slice that is ending its segment, without some of its lanes and their tasks. -/
def trimEnd (e : EndInfo) (who : Option Nat) (m : BitVec 4) : EndInfo :=
  let w := e.waits &&& ~~~m
  { e with
    waits := w
    kind := if e.waits != 0 && w == 0 then .run else e.kind
    tasks := e.tasks.filter fun t => match who with | some lid => t.lid != lid | none => false }

/-- Threads of a resident slice end; the items it discards beside itself. -/
def settleSlice (who : Option Nat) (s : State) (e : Nat × Nat × Nat) : State :=
  let (core, slot, pos) := e
  match (s.gang core slot).bind fun g => g.slice pos with
  | none => s
  | some x =>
    let m := meantLanes who x.lids x.live
    if m = 0 then s
    else
      let s := match x.st with
        | .ending i => (dropLaneWaits s i.rid m).updSlice core slot pos fun x => { x with st := .ending (trimEnd i who m) }
        | .trapping t => dropLaneWaits s t.rid m
        | _ => s
      releaseMates (tidyGang (endLanes s core slot pos m) core slot)

/-- A record loses some of its threads and keeps others; with none of its bound lanes left its binding ends (R187, R189). -/
def trimRecord (s : State) (m : RecMeta) (gone : BitVec 4) : State :=
  let r := readHead s m
  let x := (loadSlice s m 0 0).loseLanes gone
  let waits := BitVec.ofNat 4 r.waits &&& ~~~gone
  let was := m.runnable
  let s := if was then unbin s m.rid else s
  let lanes := r.w 3 % 2 ^ 60 / 2 ^ 12 * 2 ^ 12 + waits.toNat * 2 ^ 60 + x.tokens.length % 16 * 2 ^ 8 + x.live.toNat * 2 ^ 4 + x.active.toNat
  let toks := (List.range 8).flatMap fun i => natToBytes 8 (match x.tokens[i]? with | some t => tokenWord t | none => 0)
  let s := if x.pc = r.hdr then s
    else recPut (recPut s m 0 (natToBytes 8 (resumeWord x.pc 0))) m 0x20 (natToBytes 8 (identWord r.restart x.pc r.number r.index))
  let s := recPut (recPut s m 0x18 (natToBytes 8 lanes)) m 0x40 toks
  let exp := m.exp.zipIdx.map fun e => if hasLane gone e.2 then (false, false, false) else e.1
  let s := if r.xptr = 0 || exp.any (fun e => e.1) then s else expUnbind (recPut s m 0x28 (natToBytes 8 0)) m.core r.xptr
  let s := dropLaneWaits s m.rid gone
  let s := (lidsOf m.lids (gone &&& BitVec.ofNat 4 r.live)).foldl threadEnded s
  let s := groupEnded s m.group (lanesOf (gone &&& BitVec.ofNat 4 r.live)).length
  let s := s.updRec m.rid fun q => { q with
    exp := exp
    copy := if q.copy.isEmpty then [] else recBytes s m 0 m.size }
  if was then binRecord s m.rid
  else if m.st == .waiting && r.waits != 0 && waits == 0 then makeRunnable s m.rid
  else s

/-- Threads of a record end. -/
def settleRecord (who : Option Nat) (s : State) (rid : Nat) : State :=
  match s.rec? rid with
  | none => s
  | some m =>
    let live := BitVec.ofNat 4 (readHead s m).live
    let gone := meantLanes who m.lids live
    let s := s.updRec rid fun q => { q with
      tasks := q.tasks.filter fun t => match who with | some lid => t.lid != lid | none => false }
    if gone = live then killRecord s rid else if gone = 0 then s else trimRecord s m gone

/-- A group is over before its time: its core and its images are freed. -/
def settleGroup (s : State) (g : Group) : State :=
  let s := if g.st == .placed then freeCore s g.core else s
  let s := match g.image with
    | some im => poolFree s im.place
    | none => s
  let s := g.spills.foldl poolFree s
  s.updGroup g.gid fun x => { x with st := .done, live := 0, image := none, spills := [], held := 0 }

/-- The gang slots of every slice that meets p. -/
def slicesWhere (s : State) (p : Gang → Slice → Bool) : List (Nat × Nat × Nat) :=
  s.gangs.flatMap fun g => (g.slices.filter (p g)).map fun x => (g.core, g.slot, x.pos)

/-- The records that meet p. -/
def recsWhere (s : State) (p : RecMeta → Bool) : List Nat := (s.recs.filter p).map fun m => m.rid

/-- No slice of the meant is inside a clause. -/
def atBoundary (s : State) (p : Gang → Slice → Bool) : Bool := s.gangs.all fun g => g.slices.all fun x => !(p g x && inClause g x)

/-- The tasks, in the queues and held back, that meet p. -/
def tasksWhere (s : State) (p : Task → Bool) : Nat :=
  ((s.tasks.flatMap fun q => q.filter p) ++ (s.recs.flatMap fun m => m.tasks.filter p) ++
   (s.gangs.flatMap fun g => g.slices.flatMap fun x => match x.st with
    | .ending e => e.tasks.filter p
    | .trapping t => t.tasks.filter p
    | _ => [])).length

/-- Operations that meet p are cancelled; those of the matrix unit run on. -/
def cancelOps (s : State) (p : EngineOp → Bool) : State :=
  { s with ops := updAll (fun o => p o && !isMatrix o) (fun o => { o with cancel := true }) s.ops }

/-- Tasks of the queues that meet p are discarded. -/
def dropTasks (s : State) (p : Task → Bool) : State :=
  let gone := s.tasks.flatMap fun q => q.filter p
  (gone.map fun t => t.lid).foldl threadEnded { s with tasks := s.tasks.map fun q => q.filter fun t => !p t }

/-- The threads of a slice or record that a launch counts. -/
def ofLaunch (lid : Nat) (lids : List Nat) (live : Nat) : Bool := meantLanes (some lid) lids (BitVec.ofNat 4 live) != 0

/-- An ACTIVE launch that fails is settled once none of its slices is inside a clause: everything of it ends (`signalled` says
so), and it goes on to FAILED when its operations have completed. -/
def settleLaunch (s : State) (l : Launch) : State :=
  let mine := fun (_ : Gang) (x : Slice) => ofLaunch l.lid x.lids x.live.toNat
  if !atBoundary s mine then s
  else
    let slices := slicesWhere s mine
    let recs := recsWhere s fun m => ofLaunch l.lid m.lids (readHead s m).live
    let n := slices.length + recs.length + tasksWhere s fun t => t.lid == l.lid
    let s := cancelOps s fun o => o.lid == l.lid
    let s := dropTasks (recs.foldl (settleRecord (some l.lid)) (slices.foldl (settleSlice (some l.lid)) s)) fun t => t.lid == l.lid
    let s := (s.groups.filter fun g => g.lid == l.lid && g.st != .done).foldl settleGroup s
    let s := s.updLaunch l.lid fun x => { x with live := x.gone, signalled := true }
    if l.owner.isSome then s else report s (some l.ctx) 0 none none { cause := 0, kind := 5, ctx := l.ctx, loc := n }

/-- A launch that has not begun fails, with its ABORT entry (R418). -/
def dropLaunch (s : State) (l : Launch) : State :=
  failLaunch (report s (some l.ctx) 0 none none { cause := 0, kind := 5, ctx := l.ctx, loc := 0 }) l

/-- A part ends here before its time: its coordinator hears that it has, and that it failed. -/
def endPart (s : State) (l : Launch) : State :=
  match l.owner with
  | none => s
  | some (node, key) =>
    let s := releasePart s l
    if node = s.node % 1024 then
      s.updLaunch key fun c => { c with
        fail := c.fail || c.st == .active
        parts := updAll (fun p => p.node == node) (fun p => { p with reported := true, answer := some false }) c.parts }
    else postMsg s .front 9 { partMsg s node 3 key with val := 2 }

/-- A launch is aborted: one that has not begun fails at once, an ACTIVE one when it is settled; parts elsewhere are told. One
that is ENDING completes (R202), unless it spans modules (R456). -/
def abortLaunch (s : State) (l : Launch) : State :=
  let tell := fun (s : State) (arg : Nat) => (l.parts.zipIdx).foldl (tellPart l arg) s
  let s := l.away.foldl (fun s n => postMsg s .front 9 (partMsg s n 4 l.lid)) s
  match l.st with
  | .queued => dropLaunch s l
  | .waitdep => dropLaunch s l
  | .reserving => if l.owner.isSome then endPart s l else dropLaunch (tell s 2) l
  | .backoff => if l.owner.isSome then endPart s l else dropLaunch s l
  | .active => tell (s.updLaunch l.lid fun x => { x with fail := true }) 4
  | .ending =>
    if l.parts.isEmpty || l.fail then s
    else report (s.updLaunch l.lid fun x => { x with fail := true }) (some l.ctx) 0 none none { cause := 0, kind := 5, ctx := l.ctx, loc := 0 }
  | _ => s

/-- The items of a context that belong to no launch: its handlers, and whatever its launches have left. -/
def settleContext (s : State) (ctx : Nat) : State :=
  let mine := fun (g : Gang) (_ : Slice) => g.ctx == ctx
  if !atBoundary s mine then s
  else
    let slices := slicesWhere s fun g x => g.ctx == ctx && x.live != 0
    let recs := recsWhere s fun m => m.ctx == ctx
    let s := cancelOps s fun o => o.ctx == ctx
    dropTasks (recs.foldl (settleRecord none) (slices.foldl (settleSlice none) s)) fun t => t.ctx == ctx

/-! ## Completion (R202, R204) -/

/-- Every access of the launch here has been performed: the journal, then the signal; a part of another module's launch
reports instead (R453). -/
def finishLaunch (s : State) (l : Launch) : Host.Outcome State Fault Refusal :=
  match l.owner with
  | some (node, key) =>
    if node = s.node % 1024 then
      let s := forgetLaunch s l
      .next (s.updLaunch key fun c => { c with
        late := c.late || l.late
        fail := c.fail || l.fail
        parts := updAll (fun p => p.node == node) (fun p => { p with reported := true }) c.parts })
    else
      let m := if l.queue = 65537 then { partMsg s node 5 key with val := BitVec.ofNat 64 l.seq }
        else { partMsg s node 3 key with val := BitVec.ofNat 64 (b2n l.late + 2 * b2n l.fail) }
      .next (forgetLaunch (postMsg s .front 9 m) l)
  | none =>
    withLines s [journalPa s l.seq]
      (if l.fail then failLaunch s l
       else signalLaunch ((journalLaunch s l 3).updLaunch l.lid fun x => { x with st := .complete }) { l with st := .complete })

/-- LAUNCH_COMPLETE: an ENDING launch completes; a failed one is settled, and fails once all of it is over; a spanning one
ends when every part has reported. -/
def execLaunchComplete (lid : Nat) (s : State) : Host.Outcome State Fault Refusal :=
  match s.launch? lid with
  | none => .next s
  | some l =>
    match l.st with
    | .ending => if performed s lid then finishLaunch s l else .next s
    | .active =>
      if l.fail && !l.signalled then .next (settleLaunch s l)
      else if !l.parts.all (fun p => p.reported) then .next s
      else if l.fail then (if l.live == 0 && performed s lid then finishLaunch s l else .next s)
      else if !l.parts.isEmpty then .next (s.updLaunch lid fun x => { x with st := .ending })
      else .next s
    | .complete => .next (signalLaunch s l)
    | .failed => .next (signalLaunch s l)
    | _ => .next s

end Sys2Proof.Machine
end

