-- ==== Sys2Proof/Machine/Firmware.lean ====
section
/-! DEFINITION. The mailbox commands (R419, R424, R471, R474, R492, R496) and the unmapping of a queue. A command
runs from the write that starts it (mbBusy) until DONE rises. -/

namespace Sys2Proof.Machine

/-- The command that runs is this one. -/
def mbRuns (s : State) (op arg : Nat) : Bool := s.regs.mbBusy == some (op, arg)

/-- DONE rises, with ERR for a refused command; the control node is told (R461). -/
def mbAnswer (s : State) (err : Bool) : State :=
  { s with interrupts := s.interrupts + 1,
           regs := { s.regs with mbBusy := none, mbDone := true, mbErr := err, mbStatus := 0 } }

/-! ## Contexts (R471) -/

/-- Address of a context's descriptor. -/
def contextDesc (s : State) (ctx : Nat) : Nat := s.regs.ctxbase.toNat % 2 ^ 54 + 128 * ctx

/-- The checks of a descriptor. -/
def contextOk (ws : List W64) : Bool :=
  let w := wordAt ws
  fld (w 0) 63 54 == 0 && w 0 % 2 ^ 17 == 0 && fld (w 1) 63 54 == 0 && w 1 % 16 == 0 && fld (w 3) 63 54 == 0 && w 3 % 64 == 0 &&
  6 ≤ w 4 && w 4 ≤ 16 && fld (w 5) 63 4 == 0 && !bitOf (w 5) 0 && w 7 == 0 &&
  (List.range 8).all fun k => fld (w (8 + k)) 59 56 == 0 && fld (w (8 + k)) 63 60 ≤ 4 &&
    (fld (w (8 + k)) 63 60 != 1 || fld (w (8 + k)) 55 0 ≤ 255)

/-- CTXNEW. In STANDBY it is refused: HBM is not reached, and the cores are unpowered (log entry 144). -/
def execCtxnew (ctx : Nat) (s : State) : Host.Outcome State Fault Refusal :=
  if !mbRuns s 1 ctx then .next s
  else if 65536 ≤ ctx || (s.context ctx).isSome || s.regs.standby then .next (mbAnswer s true)
  else match lookAt s (contextDesc s ctx) 128 with
    | .missing pa => .next (askLine s 0 .front s.latest pa false)
    | .bad pa => .next (mbAnswer (clearFailed s .front [pa]) true)
    | .here bs =>
      let ws := words64 bs
      if contextOk ws then .next (mbAnswer { s with contexts := s.contexts ++ [⟨ctx, ws, 0, 0⟩] } false)
      else .next (mbAnswer s true)

/-- Nothing of a context is left in the module. -/
def contextGone (s : State) (ctx : Nat) : Bool :=
  s.launches.all (fun l => l.ctx != ctx) && s.gangs.all (fun g => g.ctx != ctx) && s.recs.all (fun m => m.ctx != ctx) &&
  s.ops.all (fun o => o.ctx != ctx) && s.tasks.all (fun q => q.all fun t => t.ctx != ctx) &&
  s.queues.all fun x => x.ctx != ctx || x.st == .unmapped

/-- The launches of a context that can be aborted now. -/
def liveLaunches (s : State) (ctx : Nat) : List Launch :=
  s.launches.filter fun l => l.ctx == ctx && !l.fail && l.st != .complete && l.st != .failed

/-- Unmapping begins: the descriptor says so (R464). -/
def unmapStarts (s : State) (q : Nat) : State :=
  frontPut s (queueDesc s q + 8) (natToBytes 8 (descWord s q 8 % 2 ^ 62 + 2 ^ 62))

/-- The queues of a context that are mapped. -/
def mappedQueues (s : State) (ctx : Nat) : List Nat := (s.queues.filter fun x => x.ctx == ctx && x.st == .mapped).map fun x => x.q

/-- Unmapping begins for every queue of a context; what its parser has not taken is left. -/
def unmapAll (s : State) (ctx : Nat) : State :=
  let s := (mappedQueues s ctx).foldl unmapStarts s
  { s with queues := updAll (fun x => x.ctx == ctx && x.st == .mapped) (fun x => { x with st := .unmapping, members := [] }) s.queues }

/-- The context and its translations go. -/
def removeContext (s : State) (ctx : Nat) : State :=
  { s with
    contexts := s.contexts.filter fun c => c.ctx != ctx
    queues := s.queues.filter fun x => x.ctx != ctx
    mons := s.mons.filter fun m => match m.who with | .wake q => !(s.queues.any fun x => x.q == q && x.ctx == ctx) | _ => true
    tlbs := s.tlbs.filter fun e => e.ctx != ctx
    walkLines := s.walkLines.filter fun l => l.ctx != ctx
    walks := s.walks.filter fun w => w.ctx != ctx
    frontMarks := s.frontMarks.filter fun e => e.2.1 != ctx }

/-- CTXDEL: its launches are aborted, its queues unmapped, everything of it settled; then it is gone. -/
def execCtxdel (ctx : Nat) (s : State) : Host.Outcome State Fault Refusal :=
  if !mbRuns s 2 ctx then .next s
  else if (s.context ctx).isNone then .next (mbAnswer s true)
  else if contextGone s ctx then .next (mbAnswer (removeContext s ctx) false)
  else match liveLaunches s ctx with
    | l :: _ =>
      withLines s (queueDesc s l.queue :: journalPa s l.seq :: (mappedQueues s ctx).map (queueDesc s)) (abortLaunch (unmapAll s ctx) l)
    | [] =>
      withLines s ((mappedQueues s ctx).map (queueDesc s))
        (if s.launches.any fun l => l.ctx == ctx then unmapAll s ctx else settleContext (unmapAll s ctx) ctx)

/-! ## Queues (R424, R425, R464) -/

/-- A descriptor as MAPQ finds it. -/
def queueOk (s : State) (w : Nat → Nat) : Bool :=
  fld (w 0) 63 54 == 0 && w 0 % 128 == 0 && fld (w 1) 59 21 == 0 && 4 ≤ descLog2 (w 1) && descLog2 (w 1) ≤ 16 &&
  fld (w 3) 63 54 == 0 && w 5 == 0 && w 6 == 0 && w 7 == 0 && (s.context (descCtx (w 1))).isSome

/-- A queue is mapped from its descriptor; a head launch and a committed batch kept through an unmap go on. -/
def mapQueue (s : State) (q last : Nat) (w : Nat → Nat) : State :=
  let old := s.hwq q
  let x : HwQueue :=
    { q := q, st := .mapped, prod := fld (w 2) 31 0, cons := fld (w 2) 63 32, pwake := false, fwown := bitOf (w 1) 60
      log2n := descLog2 (w 1), ctx := descCtx (w 1), ring := w 0 % 2 ^ 54, wakesig := w 3 % 2 ^ 54, wakeval := last
      pkt := old.bind fun o => o.pkt, members := (old.map fun o => o.members).getD []
      earlier := (old.map fun o => o.earlier).getD [] }
  let s := { s with
    queues := (s.queues.filter fun o => o.q != q) ++ [x]
    mons := s.mons.filter fun m => m.who != MonFor.wake q }
  let s := frontPut s (queueDesc s q + 8) (natToBytes 8 (w 1 % 2 ^ 61))
  watchWake s q x.wakesig last

/-- MAPQ. -/
def execMapq (queue : Nat) (s : State) : Host.Outcome State Fault Refusal :=
  if !mbRuns s 3 queue then .next s
  else if 65536 ≤ queue || (s.hwq queue).any (fun x => x.st != .unmapped) then .next (mbAnswer s true)
  else match missingLine s [queueDesc s queue] with
    | some pa => .next (askLine s 0 .front s.latest pa true)
    | none =>
      let w := fun i => descWord s queue (8 * i)
      if !queueOk s w then .next (mbAnswer s true)
      else if w 3 % 2 ^ 54 = 0 then .next (mbAnswer (mapQueue s queue 0 w) false)
      else match lookAt s (w 3 % 2 ^ 54) 8 with
        | .missing pa => .next (askLine s 0 .front s.latest pa false)
        | .bad pa => .next (mbAnswer (clearFailed s .front [pa]) true)
        | .here bs => .next (mbAnswer (mapQueue s queue (bytesToNat bs) w) false)

/-- UNMAPQ: it begins; DONE rises when the queue is UNMAPPED. -/
def execUnmapq (queue : Nat) (s : State) : Host.Outcome State Fault Refusal :=
  if !mbRuns s 4 queue then .next s
  else match s.hwq queue with
    | some x =>
      match x.st with
      | .mapped => withLines s [queueDesc s queue] ((unmapStarts s queue).updQ queue fun x => { x with st := .unmapping })
      | .unmapping => .next s
      | .unmapped => .next (mbAnswer s false)
    | none => .next (mbAnswer s true)

/-- The launch state that the saved descriptor holds: 0 none, 1 QUEUED, 2 WAITDEP. -/
def headCode (s : State) (x : HwQueue) : Option Nat :=
  match x.pkt with
  | none => some 0
  | some p =>
    match s.launch? p.lid with
    | some l =>
      (match l.st with
       | .queued => some 16
       | .waitdep => some (32 + l.latched.toNat)
       | _ => none)
    | none => if batchOpen x p then some 0 else none

/-- QUEUE_UNMAP_COMPLETE: the saved descriptor is written, and the queue is UNMAPPED. -/
def execQueueUnmapComplete (queue : Nat) (s : State) : Host.Outcome State Fault Refusal :=
  match s.hwq queue with
  | some x =>
    match x.st, headCode s x with
    | .unmapping, some head =>
      withLines s [queueDesc s queue] (
        let d := queueDesc s queue
        let w := descWord s queue 8 % 2 ^ 61
        let s := frontPut s (d + 8) (natToBytes 8 (w + 2 ^ 63 + b2n x.pwake * 2 ^ 61) ++ natToBytes 4 x.prod ++ natToBytes 4 x.cons)
        let s := frontPut s (d + 0x20) (natToBytes 8 head)
        s.updQ queue fun x => { x with st := .unmapped, pwake := false })
    | _, _ => .next s
  | none => .next s

/-! ## Aborts and pre-emption (R419, R426) -/

/-- An abort is over once its launch is. -/
def abortOver (s : State) (seq : Nat) : Bool := s.launches.all fun l => l.owner.isSome || l.seq != seq || launchOver s l.lid

/-- ABORT: the launch of a journal number; DONE rises when it is over. -/
def execAbortCmd (seq : Nat) (s : State) : Host.Outcome State Fault Refusal :=
  if mbRuns s (5 + 256) seq then .next (if abortOver s seq then mbAnswer s false else s)
  else if !mbRuns s 5 seq then .next s
  else match s.launches.find? fun l => l.owner.isNone && l.seq == seq && !launchOver s l.lid with
    | none => .next (mbAnswer s true)
    | some l =>
      match missingLine s [queueDesc s l.queue, journalPa s l.seq] with
        | some pa => .next (askLine s 0 .front s.latest pa true)
        | none => .next (abortLaunch { s with regs := { s.regs with mbBusy := some (5 + 256, seq) } } l)

/-- Every die is idle as to pre-emption. -/
def preIdle (s : State) : Bool := s.regs.dies.all fun d => !d.preBusy

/-- PRECTL of every die as a command sets it. -/
def setPrectl (s : State) (ctx bound : Nat) (resume : Bool) : State :=
  { s with regs := { s.regs with dies := s.regs.dies.map fun (d : DieRegs) =>
      { d with preAll := true, preResume := resume, preCtx := ctx, preCore := 0, preBound := bound } } }

/-- A command for every die. -/
def onDies (f : Nat → State → State) (s : State) : State := (List.range 4).foldl (fun s d => f d s) s

/-- PREEMPT: GO on every die; DONE when none is BUSY. -/
def execPreemptCmd (arg : BitVec 56) (s : State) : Host.Outcome State Fault Refusal :=
  if mbRuns s (6 + 256) arg.toNat then .next (if preIdle s then mbAnswer s false else s)
  else if !mbRuns s 6 arg.toNat || !preIdle s then .next s
  else
    let s := setPrectl s (fld arg.toNat 47 32) (fld arg.toNat 25 0) false
    .next (onDies preemptDie { s with regs := { s.regs with mbBusy := some (6 + 256, arg.toNat) } })

/-- The pre-empted work of a context goes on, on every die. -/
def restoreContext (ctx : Nat) (s : State) : Host.Outcome State Fault Refusal :=
  if 65536 ≤ ctx then .next (mbAnswer s true)
  else if !preIdle s then .next s
  else .next (mbAnswer (onDies resumeDie (setPrectl s ctx 0 true)) false)

/-- RESTORE, of the context that the running command's ARG gives. -/
def execRestoreCmd (s : State) : Host.Outcome State Fault Refusal :=
  match s.regs.mbBusy with
  | some (7, ctx) => restoreContext ctx s
  | _ => .next s

/-! ## ATTEST and STANDBY (R492, R496) -/

/-- The report without nonce and signature. -/
def reportHead (s : State) : List Byte :=
  natToBytes 8 0x504154544c440001 ++ natToBytes 8 (readReg s 0) ++ natToBytes 8 (readReg s 8) ++
  natToBytes 8 (s.regs.fwver.toNat + s.imageSvn.toNat * 2 ^ 32 + s.regs.svnFuse.toNat * 2 ^ 40) ++
  ((List.range 4).flatMap fun d => natToBytes 8 (readReg s (0x10 + 8 * d))) ++
  natToBytes 8 s.regs.featpub.toNat ++ natToBytes 8 s.regs.featacc.toNat ++ natToBytes 64 (Config.shake256 s.image).toNat

/-- The pieces of the report: offset and bytes. -/
def reportPieces (s : State) (nonce : List Byte) : List (Nat × List Byte) :=
  let body := reportHead s ++ nonce
  let sig := (Config.signReport body).take 1280
  [(0, body), (0xb0, natToBytes 8 sig.length ++ sig), (0x600, (List.range 1793).map fun i => Config.identityKey.getD i 0)]

/-- Bytes cut at line boundaries. -/
def linePieces (a : Nat) (bs : List Byte) : List (Nat × List Byte) :=
  (linesOf a bs.length).map fun l =>
    let lo := max a l
    (lo, (bs.drop (lo - a)).take (min (a + bs.length) (l + 128) - lo))

/-- The report is made for the buffer of the running command. -/
def attestBuffer (buffer : Nat) (s : State) : Host.Outcome State Fault Refusal :=
  if buffer % 4096 != 0 || 2 ^ 54 ≤ buffer || !isHbm buffer then .next (mbAnswer s true)
  else match lookAt s (buffer + 0x90) 32, missingLine s ((List.range 32).map fun i => buffer + 128 * i) with
    | .missing pa, _ => .next (askLine s 0 .front s.latest pa false)
    | .bad pa, _ => .next (mbAnswer (clearFailed s .front [pa]) true)
    | _, some pa => .next (askLine s 0 .front s.latest pa true)
    | .here nonce, none =>
      let ps := (reportPieces s nonce).flatMap fun e => linePieces (buffer + e.1) e.2
      .next (mbAnswer (ps.foldl (fun s e => frontPut s e.1 e.2) s) false)

/-- ATTEST, into the buffer that the running command's ARG gives. -/
def execAttest (s : State) : Host.Outcome State Fault Refusal :=
  match s.regs.mbBusy with
  | some (8, buffer) => attestBuffer buffer s
  | _ => .next s

/-- MODE.MAINT of every enabled core. -/
def setMaint (s : State) (v : Bool) : State :=
  { s with cores := s.cores.zipIdx.map fun (e : CoreSt × Nat) => if s.coreOn e.2 then { e.1 with maint := v } else e.1 }

/-- The cores lose their state, their L1s among it. -/
def unpowerCores (s : State) : State :=
  { s with
    l1 := []
    cores := List.replicate 256 CoreSt.reset
    mem := s.mem.filter fun e => e.1 < 0x10000000000
    rf := [], opStamp := [], opLogic := [], opSpoilt := [], rfLate := [], gangs := [], pend := [], wcbufs := [], seeks := [] }

/-- STANDBY_ENTER. -/
def execStandbyEnter (s : State) : Host.Outcome State Fault Refusal :=
  if !mbRuns s 9 0 then .next s
  else if !s.contexts.isEmpty || s.regs.standby then .next (mbAnswer s true)
  else .next (mbAnswer (unpowerCores { s with regs := { s.regs with standby := true } }) false)

/-- STANDBY_LEAVE: SELFTEST runs again. -/
def execStandbyLeave (s : State) : Host.Outcome State Fault Refusal :=
  if !mbRuns s 9 1 then .next s
  else if !s.regs.standby then .next (mbAnswer s true)
  else .next (mbAnswer (setMaint { s with regs := { s.regs with standby := false, warm := true, phase := .selftest } } true) false)

end Sys2Proof.Machine
end

