-- ==== Sys2Proof/Machine/Registers.lean ====
section
/-! DEFINITION. Writes of device registers (R4, R7, R213, R259, R304, R421, R426, R434, R447, R448, R462, R463, R474–R476,
R480, R481, R493), FEATACC (R475) and POOLCFG (R259). -/

namespace Sys2Proof.Machine

/-- The 64-bit value of a register after the written bytes have replaced `old`'s. -/
def mergeWrite (w : RegWrite) (old : Nat) : Nat :=
  let at_ := 8 * (w.addr % 8)
  let n := min (8 * w.size) (64 - at_)
  old - fld old (at_ + n - 1) at_ * 2 ^ at_ + w.value.toNat % 2 ^ n * 2 ^ at_

/-- The bits that a write sets to 1. -/
def onesOf (w : RegWrite) : Nat := mergeWrite w 0

/-- The write covers the highest byte of its register. -/
def coversTop (w : RegWrite) : Bool := 8 ≤ w.addr % 8 + w.size

/-- A device register of one block per die, at 0x1000 each, or per home. -/
def inBlock (off lo n : Nat) : Bool := lo ≤ off && off < lo + n

/-- DSCHED (R213). Under a new bound the next rise of what waits is at the next multiple of it (R212). -/
def putDsched (s : State) (die v : Nat) : State :=
  let t := s.setDie die fun d => { d with starve := max 100 (fld v 23 8), balper := max 1 (fld v 7 4) }
  if (s.dieRegs die).starve = max 100 (fld v 23 8) then t
  else { t with
    recs := updWhere (fun m => m.core / 64 == die) (fun m => { m with riseAt := max m.riseAt (if m.st == .held then m.since else s.clk - m.since) }) s.recs
    gangs := updWhere (fun g => g.core / 64 == die) (fun g => { g with subs := g.subs.map fun (u : Sub) => { u with riseAt := max u.riseAt u.waited } }) s.gangs }

/-- POOLCFG (R259): the value that will apply. DESIGN CHOICE (log entry 154): a write with an HBASE of another die keeps the applied
HBASE, also where an earlier write with a valid one still waits; that one is dropped. -/
def poolcfgValue (s : State) (die v : Nat) : W64 :=
  let hbase := if fld v 43 42 = die then fld v 43 24 else fld (s.dieRegs die).poolcfg.toNat 43 24
  BitVec.ofNat 64 (hbase * 2 ^ 24 + max 1 (fld v 23 12) * 2 ^ 12 + min 32 (fld v 11 6) * 2 ^ 6 + min 16 (max 1 (fld v 5 0)))

/-- A home's registers (R304): MEMERRS by firmware, MEMUE.VALID by a 1. -/
def putHome (s : State) (fw : Bool) (k reg : Nat) (w : RegWrite) : State :=
  let put := fun f => { s with regs := { s.regs with homes := updAt k f s.regs.homes } }
  if reg = 8 && fw then
    put fun h =>
      let v := mergeWrite w (h.uecnt % 2 ^ 32 * 2 ^ 32 + h.cecnt % 2 ^ 32)
      { h with uecnt := fld v 63 32, cecnt := fld v 31 0 }
  else if reg = 0x10 && bitOf (onesOf w) 0 then put fun h => { h with ueValid := false }
  else s

/-- PRECTL (R426). -/
def putPrectl (s : State) (die : Nat) (w : RegWrite) : State :=
  let v := mergeWrite w (readReg s (0x50000 + 0x1000 * die))
  let busy := (s.dieRegs die).preBusy
  let s := s.setDie die fun d => { d with
    preAll := bitOf v 61, preResume := bitOf v 60, preCtx := fld v 47 32, preCore := fld v 31 26, preBound := fld v 25 0 }
  if bitOf (onesOf w) 63 && !busy then { s with due := s.due ++ [if bitOf v 60 then .preemptResume die else .preemptGo die] }
  else s

/-- SDVA and SDCTL (R421). -/
def putShootdown (s : State) (off : Nat) (w : RegWrite) : State :=
  let v := mergeWrite w (readReg s off)
  if off = 0x40000 then { s with regs := { s.regs with sdva := BitVec.ofNat 64 (fld v 55 16 * 2 ^ 16) } }
  else if off = 0x40008 then
    let busy := s.regs.sdbusy
    let s := { s with regs := { s.regs with
      sdctx := fld v 47 32, sdall := bitOf v 31, sdglobal := bitOf v 30, sdpages := fld v 19 0 } }
    if bitOf (onesOf w) 63 && !busy then { s with due := s.due ++ [.shootdownGo] } else s
  else s

/-- SNAPCTL and SNAPMASK (R434): REL, then TRIG. -/
def putSnap (s : State) (off : Nat) (w : RegWrite) : State :=
  if off = 0x60000 then
    let v := onesOf w
    { s with due := s.due ++ (if bitOf v 62 then [.snapctlRel] else []) ++ (if bitOf v 63 then [.snapctlTrig] else []) }
  else if off = 0x60008 then { s with regs := { s.regs with snapMask := BitVec.ofNat 64 (mergeWrite w s.regs.snapMask.toNat) } }
  else s

/-- MBREQ and MBRESP (R474): a write that includes the OP byte starts a command; an unknown one is refused. -/
def putMailbox (s : State) (off : Nat) (w : RegWrite) : State :=
  if off = 0xe0000 then
    if s.regs.mbBusy.isSome then s
    else
      let v := mergeWrite w s.regs.mbreq.toNat
      let op := fld v 63 56
      let arg := fld v 55 0
      let s := { s with regs := { s.regs with mbreq := BitVec.ofNat 64 v } }
      if !coversTop w then s
      else if op = 0 || 9 < op || (op = 9 && 1 < arg) then mbAnswer s true
      else { s with regs := { s.regs with mbBusy := some (op, arg) } }
  else if off = 0xe0008 && bitOf (onesOf w) 63 then { s with regs := { s.regs with mbDone := false } }
  else s

/-- SCTL (R481); without the ingest feature nothing is written (R475). -/
def putStream (s : State) (off : Nat) (w : RegWrite) : State :=
  if off % 16 != 0 || !s.regs.featacc.getLsbD 0 then s
  else
    let i := (off - 0xc0000) / 16
    let v := onesOf w
    let s := s.setStream i fun t => { t with desc := mergeWrite w t.desc % 2 ^ 54 }
    { s with due := s.due ++ (if bitOf v 63 then [.sctlOpen i] else []) ++ (if bitOf v 62 then [.sctlClose i] else []) }

/-- Whether issue is withheld under a limit, a power and a temperature (R494), with the clk at which it last ended (R493). -/
def reThrottle (s : State) (r : Regs) : Regs :=
  let now := decide (r.pcap < r.pwr) || decide (1600 ≤ r.tj)
  { r with throt := now, throtAt := if r.throt && !now then some s.clk else r.throtAt }

/-- Registers that firmware alone writes. -/
def putByFirmware (s : State) (off : Nat) (w : RegWrite) : State :=
  let put := fun (f : Nat → Regs) => { s with regs := f (mergeWrite w (readReg s off)) }
  let r := s.regs
  if inBlock off 0x10000 0x4000 && off % 0x1000 = 0 then putDsched s ((off - 0x10000) / 0x1000) (mergeWrite w (readReg s off))
  else if inBlock off 0x20000 0x4000 && off % 0x1000 = 0 then
    let die := (off - 0x20000) / 0x1000
    s.setDie die fun d => { d with poolNext := some (poolcfgValue s die (mergeWrite w (d.poolNext.getD d.poolcfg).toNat)) }
  else if inBlock off 0x40000 0x18 then putShootdown s off w
  else if inBlock off 0x50000 0x4000 && off % 0x1000 = 0 then putPrectl s ((off - 0x50000) / 0x1000) w
  else if inBlock off 0x70000 0x2000 then
    put fun v =>
      let e := BitVec.ofNat 64 (fld v 63 60 * 2 ^ 60 + fld v 31 0)
      { r with acl := tabPut 0#64 r.acl ((off - 0x70000) / 8) e }
  else if inBlock off 0x80000 0x2000 then
    put fun v =>
      let e := BitVec.ofNat 64 (fld v 63 63 * 2 ^ 63 + fld v 17 0)
      { r with route := tabPut 0#64 r.route ((off - 0x80000) / 8) e }
  else if off = 0x90000 then put fun v => { r with qdtbase := BitVec.ofNat 64 (v % 2 ^ 54) }
  else if off = 0x90008 then put fun v => { r with ctxbase := BitVec.ofNat 64 (v % 2 ^ 54) }
  else if off = 0x90010 then put fun v => { r with fwfq := BitVec.ofNat 64 v }
  else if off = 0xb0000 then put fun v => { r with jbase := BitVec.ofNat 64 v }
  else if off = 0xd0008 then put fun v => { r with ptpoff := BitVec.ofNat 64 v }
  else s

/-- A write of a register by the control node or firmware. -/
def putRegister (s : State) (w : RegWrite) : State :=
  let off := (w.addr - 0xc0000000000) / 8 * 8
  let fw := w.agent == .firmware
  let v := mergeWrite w (readReg s off)
  if inBlock off 0x30000 0x1000 then putHome s fw ((off - 0x30000) / 256) (off % 256) w
  else if inBlock off 0x60000 0x18 then putSnap s off w
  else if inBlock off 0xc0000 0x1000 then putStream s off w
  else if off = 0xd0010 then { s with regs := { s.regs with trim := BitVec.ofNat 32 v } }
  else if inBlock off 0xe0000 0x10 then putMailbox s off w
  else if off = 0xf0000 then { s with regs := reThrottle s { s.regs with pcap := min 4400 (max 1000 (v % 65536)) } }
  else if fw then putByFirmware s off w
  else s

/-- The Bersy port accepts traffic (R489, R490). -/
def accepting (s : State) : Bool := s.regs.phase == .ready && s.regs.booted

/-- REGISTER_WRITE: a program's is ignored (R462), and the control node's until READY (R490). -/
def execRegisterWrite (w : RegWrite) (s : State) : Host.Outcome State Fault Refusal :=
  match w.agent with
  | .program _ => .next s
  | .controlNode => .next (if accepting s then putRegister s w else s)
  | .firmware => .next (putRegister s w)

/-- FEATACC_WRITE. -/
def execFeataccWrite (value : W64) (s : State) : Host.Outcome State Fault Refusal :=
  .next (if s.contexts.isEmpty then { s with regs := { s.regs with featacc := value &&& s.regs.featpub } } else s)

/-- The die holds no record, save area or placed group. -/
def poolEmpty (s : State) (die : Nat) : Bool :=
  let here := fun (k : Nat) => (k < 0x10000000000 && k / 2 ^ 38 == die) ||
    (windowBase (die * 64) ≤ k && k < windowBase (die * 64) + 2 ^ 36)
  s.recs.all (fun m => m.core / 64 != die) && s.pool.all (fun e => !here e.1) &&
  (dieCores die).all fun c => (s.core c).group.isNone

/-- POOLCFG_APPLY. -/
def execPoolcfgApply (die : Nat) (s : State) : Host.Outcome State Fault Refusal :=
  match (s.dieRegs die).poolNext with
  | some v => .next (if poolEmpty s die then s.setDie die fun d => { d with poolcfg := v, poolNext := none } else s)
  | none => .next s

end Sys2Proof.Machine
end

