-- ==== Sys2Proof/Machine/Homes.lean ====
section
/-! DEFINITION. Requests of other modules as this module receives them (R305, R306, R441, R447–R451): the check of
the sender, the homes of this module's lines, the owner's side of a forward, and peer launch packets. A response
of kind 16 is DATA, 17 ACK, 18 MSAT, 19 NACK. The payload fields a message carries are named in log entry 7. -/

namespace Sys2Proof.Machine

/-! ## Answers and the sender's rights -/

/-- The response to a message, routed back by what it copies (R439), by the port of its line unless it has none (R460). The
module's own requests at its homes are answered at once. -/
def respond (s : State) (kind : Nat) (m : Msg) (h : Msg → Msg) (bare : Bool := false) : State :=
  let r := h { m with snode := s.node % 1024, dnode := m.snode, time := 0, rts := 0, arg := 0, val := 0, val2 := 0, mask := [], data := [] }
  if m.snode = s.node % 1024 then
    match s.posts.find? fun p => postTag p.id == m.tag with
    | some p => if kind = 19 then failPost s p else ackPost s p r.time
    | none => s
  else s.send kind r bare
/-- NACK with its reason (R441): 0 refused, 1 an absent address (R248), 2 a line that cannot be read (R315), 3 an owner or a line out of
reach (R446), 4 no room, 5 no such place or context. The codes are the model's (log entry 136). -/
def nack (s : State) (m : Msg) (bare : Bool := false) (reason : Nat := 0) : State :=
  respond s 19 m (fun r => { r with arg := reason }) bare

/-- DATA carries at most 0xFF_FFFF of a lease (R439). -/
def capLease (m : Msg) : Msg := { m with rts := m.time + min (m.rts - m.time) 0xffffff }
def dataTo (s : State) (m : Msg) (h : Msg → Msg) : State := respond s 16 m fun r => capLease (h r)
def ack (s : State) (m : Msg) (arg : Nat := 0) (time : Nat := 0) (bare : Bool := false) : State :=
  respond s 17 m (fun r => { r with arg := arg, time := time }) bare

/-- A message is this module's, and one of another module. -/
def forUs (s : State) (m : Msg) : Bool := m.dnode == s.node % 1024 && m.snode != m.dnode

/-- The access-control word of a node (R447). -/
def aclWord (s : State) (node : Nat) : Nat := (tabGet 0#64 s.regs.acl node).toNat

/-- Queue number that a peer submission window belongs to (R450). -/
def peerBase : Nat := 0xc0000800000
def peerQueue (pa : Nat) : Nat := (localOf pa - peerBase) / 128
def inPeerWindow (pa : Nat) : Bool := peerBase ≤ localOf pa && localOf pa < peerBase + 128 * 65536

/-- The part acts on a request of this kind from its sender (R449). -/
def allowed (s : State) (kind : Nat) (m : Msg) : Bool :=
  let w := aclWord s m.snode
  if kind ≤ 5 then bitOf w 63 && bitOf w 62 && localOf m.addr < 0xc0000000000
  else if kind = 7 then
    bitOf w 63 && bitOf w 60 && inPeerWindow m.addr && fld w 15 0 ≤ peerQueue m.addr && peerQueue m.addr ≤ fld w 31 16
  else if kind = 8 then bitOf w 63 && bitOf w 61
  else if kind = 9 then bitOf w 63 && bitOf w 60
  else true

/-- The context in whose name another module's requests are made: it owns no pool space. -/
def peerCtx : Nat := 65537

/-! ## Writes and atomics at the home -/

/-- Runs of enabled bytes of a masked write: offset and bytes. -/
def maskRuns (mask : List Bool) (data : List Byte) : List (Nat × List Byte) :=
  ((mask.zip data).zipIdx).foldr (fun e acc =>
    if !e.1.1 then acc
    else match acc with
      | (o, bs) :: t => if o = e.2 + 1 then (e.2, e.1.2 :: bs) :: t else (e.2, [e.1.2]) :: acc
      | [] => [(e.2, [e.1.2])]) []

/-- What a write message stores: its runs, laid over one span of an HBM line so that it is one write there. -/
def writeSpans (s : State) (m : Msg) : List (Nat × List Byte) :=
  let la := localOf m.addr
  if m.mask.isEmpty then [(la, m.data)]
  else
    let runs := maskRuns m.mask m.data
    if (placeOf s la).region != .hbm then runs.map fun r => (la + r.1, r.2)
    else match runs, runs.getLast? with
      | r :: _, some q =>
        let n := q.1 + q.2.length - r.1
        let old := accRead s peerCtx (la + r.1) n
        [(la + r.1, runs.foldl (fun bs e => patch bs (e.1 - r.1) e.2) old)]
      | _, _ => []

/-- A write takes its timestamp and is performed, a core's as a thread's (R289). -/
def homeWrite (s : State) (m : Msg) : State × Nat :=
  (writeSpans s m).foldl (fun r e =>
    let t := touchBy r.1 m.time e.1 true
    (accWrite t.1 peerCtx e.1 e.2 (decide (m.sunit < 0x40)), max r.2 t.2)) (s, m.time)

/-- One lane of an atomic message: the value before it, its flags. -/
structure AtmRun where
  val : Nat
  wrote : Bool
  olds : List Byte
  flags : List Byte

/-- Operation, type and rounding mode of an atomic message. Operation 13 adds and sets bit 63 (R204). -/
def atmOp (m : Msg) : Nat := m.arg % 32
def atmType (m : Msg) : Nat := m.arg / 32 % 32

def atmLane (m : Msg) (r : AtmRun) (k : Nat) : AtmRun :=
  let b := bytesToNat ((m.data.drop (16 * k)).take 8)
  let c := bytesToNat ((m.data.drop (16 * k + 8)).take 8)
  let q := if atmOp m = 13 then (((r.val + b) % 2 ^ 64) ||| 2 ^ 63, 0#5) else atomNew (atmOp m) (atmType m) (m.arg / 1024) r.val b c
  let w := atomWrites (atmOp m) r.val b
  ⟨if w then q.1 else r.val, r.wrote || w, r.olds ++ natToBytes 8 r.val, r.flags ++ natToBytes 1 q.2.toNat⟩

/-- The lanes of an atomic in order at one element, then one write (R307, R309). -/
def homeAtomic (s : State) (m : Msg) : State :=
  let la := localOf m.addr
  let n := atomBytes (atmType m)
  let r := (List.range (m.data.length / 16)).foldl (atmLane m) ⟨bytesToNat (mixFree s (ownPa s la) (accRead s peerCtx la n)), false, [], []⟩
  let q := touchBy s m.time la r.wrote
  let s := if r.wrote then accWrite q.1 peerCtx la (natToBytes n r.val) (decide (m.sunit < 0x40)) else q.1
  respond s 17 m fun m => { m with time := q.2, data := r.olds ++ r.flags }

/-! ## The home of a line (R305, R310) -/

/-- What serving a request comes to: done; sent on to the line's owner; or waiting for a line. -/
inductive Served where
  | done (s : State)
  | sent (s : State) (item : HomeItem)
  | wait (s : State) (line : Nat)

/-- Tags of the forwards that a home sends on another module's behalf. -/
def itemTag (id : Nat) : Nat := 2 ^ 52 + id
def stackOf (la : Nat) : Nat := la / 2 ^ 36 % 16

/-- The line is owned outside this module. -/
def ownedOutside (s : State) (la : Nat) : Bool := (placeOf s la).region == .hbm && heldOutside s la

/-- The home recalls a line for its own use. -/
def callBack (s : State) (m : Msg) : Served :=
  let la := localOf m.addr
  let who := ReqFor.home (stackOf la)
  if lineFailed s who m.addr then .done (nack (clearFailed s who [m.addr]) m false 3)
  else
    let s := requestLine s (stackOf la / 4) who s.latest m.addr true
    if lineFailed s who m.addr then .done (nack (clearFailed s who [m.addr]) m false 3) else .wait s (lineOf m.addr)

/-- The home forwards a request to the owner: mode 0 for a shared copy, 1 to hand the line over. -/
def forward (s : State) (kind mode : Nat) (m : Msg) : Served :=
  let b := brassOf s (localOf m.addr)
  if !reachable s (brassNode b) then .done (nack s m false 3)
  else
    let f := { m with
      snode := s.node % 1024, dnode := brassNode b, tag := itemTag s.nextId, arg := mode + 4 * brassDie b
      val := BitVec.ofNat 64 m.snode, val2 := BitVec.ofNat 64 m.tag }
    .sent ({ s with nextId := s.nextId + 1 }.send 6 f) ⟨s.nextId, lineOf m.addr, kind, m, true, s.clk⟩

/-- The owner on record is the requester itself: it keeps its data and takes the lease or the ownership. -/
def ownerAsks (s : State) (m : Msg) : Bool :=
  let b := brassOf s (localOf m.addr)
  brassNode b == m.snode && brassDie b == m.sdie

/-- Bytes of pool space are closed to other modules, but for the expand units that hold expansions from
here (R261, R452). -/
def fromExpand (m : Msg) : Bool := m.arg == 4 && 0x40 ≤ m.sunit && m.sunit < 0x60
def closedTo (s : State) (m : Msg) : Bool := inPool s (placeOf s (localOf m.addr)) && !fromExpand m
def lineFor (s : State) (m : Msg) (la : Nat) : List Byte := if closedTo s m then List.replicate 128 0 else readBytes s la 128

/-- RD and RDX at the home (R300, R305, R306, R308). DATA carries the line's write time and the lease end granted, and says: 0 a
copy, 1 to be used once, 2 no ownership is granted, 3 keep your data. -/
def serveRead (s : State) (excl : Bool) (m : Msg) : Served :=
  let la := localOf (lineOf m.addr)
  let s := scrub s la 1
  let wts := lineWts s la
  let rts := lineRts s la
  let lease := max rts (max (m.time + 64) (wts + 65))
  let data := fun (s : State) (arg wts rts : Nat) =>
    dataTo s m fun r => { r with arg := arg, time := wts, rts := rts, data := lineFor s m la }
  if lineBad s la 128 then .done (nack (noteUncorrectable s la) m false 2)
  else if (placeOf s la).region != .hbm then
    let t := touchBy s m.time la false
    .done (dataTo t.1 m fun r => { r with arg := 1, time := t.2 - 1, rts := 2 ^ 63, data := if fromExpand m then readBytes t.1 la 128 else accRead t.1 peerCtx la 128 })
  else if ownedOutside s la then
    if ownerAsks s m then
      .done (dataTo (setBrass s la (withOwner (brassOf s la) 3 m.snode m.sdie)) m fun r => { r with arg := 3, time := wts, rts := rts })
    else if excl && (msideOf s la || monitored s la) then callBack s m
    else forward s (b2n excl) (b2n excl) m
  else if msideOf s la then
    let t := touchBy s m.time la false
    .done (data t.1 2 (t.2 - 1) t.2)
  else if excl then
    if monitored s la || closedTo s m then .done (data s 2 wts rts)
    else
      let s := dropL2 (l1Settle s none (lineOf m.addr) true) la
      .done (data (setBrass s la (withOwner (brassOf s la) 3 m.snode m.sdie)) 0 wts rts)
  else
    let s := setL2 (l1Settle s none (lineOf m.addr) false) la wts lease
    let s := storeTime (setBrass s la (withOwner (brassOf s la) 1 0 0)) la lease
    .done (data { s with leased := if s.leased.contains la then s.leased else s.leased ++ [la] } 0 wts lease)

/-- A monitor at its word's home, of another module or of a queue's wake word here: registered, with its first evaluation
(R310, R311). -/
def serveMonitor (s : State) (m : Msg) : State :=
  let la := localOf m.addr
  let own := m.snode == s.node % 1024
  addMonitor (touchBy s m.time la false).1
    ⟨la, bitOf m.arg 3, bitOf m.arg 4, m.arg % 8, m.val.toNat, if own then .wake m.tag else .remote m, s.nextId, none, false,
     if own then queueCtx s m.tag else peerCtx⟩

/-- The line is whole here again, from an owner's copy with its times: STATE I, or S where a leased copy may remain (R306). -/
def putBack (s : State) (la : Nat) (data : List Byte) (rts : Nat) (shared : Bool) : State :=
  let b := brassOf s la
  let kept := shared || brassState b = 4 || s.leased.contains la
  let t := max (lineRts s la) rts
  let s := dropCopy (setBrass s la (withOwner b (if kept then 1 else 0) 0 0)) (la / 2 ^ 38 % 4) (ownPa s la)
  let s := { s with
    mem := tabPuts 0#8 s.mem la data
    stale := s.stale ++ staleWords s (tabPuts 0#8 s.mem la data) la 128
    leased := if kept && !s.leased.contains la then s.leased ++ [la] else s.leased }
  storeTime s la t

/-- A write-back of the owner (R306). -/
def takeBack (s : State) (m : Msg) : State :=
  let la := localOf (lineOf m.addr)
  if !ownerAsks s m || !ownedOutside s la then s else putBack s la m.data m.rts (m.arg = 3)

/-- An expand unit of another module writes a save area, and frees it with a DESC that is not open. -/
def saveWrite (s : State) (m : Msg) : State :=
  let key := memKey (placeOf s (localOf m.addr))
  if !s.pool.any fun e => decide (e.1 ≤ key) && decide (key < e.1 + e.2.1) then s
  else
    let s := (maskRuns m.mask m.data).foldl (fun s r => poolPut s (key + r.1) r.2) s
    if s.pool.any (fun e => e.1 == key) && !bitOf (bytesToNat (m.data.take 8)) 0 then poolFree s key else s

/-! ### Repair (R316, R330) -/

/-- Recalls of a line that a repair has sent and that are not answered. -/
def recalling (s : State) (line : Nat) : Bool := s.posts.any fun p => p.kind == 6 && p.addr == line

/-- The home of a line under repair sends its recall to every module that it can reach; the repair waits for their answers. -/
def serveRepair (s : State) (m : Msg) : Served :=
  let line := lineOf m.addr
  let who := ReqFor.home (stackOf (localOf m.addr))
  let id := s.nextId
  let nodes := (List.range 1024).filter fun n => n != s.node % 1024 && reachable s n
  let s := nodes.foldl (fun s n =>
    postMsg s who 6 { mkMsg s (stackOf (localOf m.addr) / 4) who n 0 m.time line with arg := 2 }) s.bump
  if nodes.isEmpty then .done (ack (repairLine s (localOf line) m.data) m)
  else .sent s ⟨id, line, 2, m, true, s.clk⟩

/-- One request of kinds 0 to 5 at its home, of another module or of this one. Writes, atomics and monitors come after any owner outside has handed
the line back (R307, R310). -/
def serve (kind : Nat) (m : Msg) (s : State) : Served :=
  let la := localOf m.addr
  let n := if kind = 2 then 128 else if kind = 4 then 8 else max 1 m.data.length
  match kind with
  | 0 => serveRead s false m
  | 1 => serveRead s true m
  | _ =>
    if kind = 2 && (m.arg = 2 || m.arg = 3) then
      .done (if lineBad s la 128 then nack (noteUncorrectable s la) m false 2 else ack (takeBack s m) m)
    else if kind = 2 && fromExpand m then
      .done (if lineBad s la 128 then nack (noteUncorrectable s la) m false 2 else ack (saveWrite s m) m)
    else if kind = 2 && m.arg = 5 then .done (ack (expUnbind s 0 m.addr) m)
    else if kind = 2 && m.arg = 1 then serveRepair s m
    else if ownedOutside s la then callBack s m
    else if lineBad s la n then .done (nack (noteUncorrectable s la) m false 2)
    else if kind = 5 then .done (serveMonitor s m)
    else if kind = 4 && (atmOp m = 14 || atmOp m = 15) then .done (ack (setMside s la (atmOp m = 14)) m)
    else if kind = 4 then .done (homeAtomic s m)
    else
      let r := homeWrite s m
      .done (ack r.1 m 0 r.2)

/-! ## Peer launch packets (R450, R451) -/

/-- A peer's packet is appended at the producer index with SRC := SNODE, and wakes the queue. -/
def servePeer (m : Msg) (s : State) : Served :=
  let q := peerQueue m.addr
  let who := ReqFor.home 0
  let desc := queueDesc s q
  let ask := fun (s : State) (pa : Nat) =>
    if lineFailed s who pa then Served.done (nack (clearFailed s who [pa]) m true 3)
    else
      let s := askLine s 0 who s.latest pa true
      if lineFailed s who pa then Served.done (nack (clearFailed s who [pa]) m true 3) else .wait s (lineOf pa)
  match missingLine s [desc] with
  | some pa => ask s pa
  | none =>
    let (_, cons, prod, log2n, ring) := queueNow s q
    let size := 2 ^ log2n
    let pa := ring + 128 * (prod % size)
    if log2n < 4 || 16 < log2n || size ≤ (prod + 2 ^ 32 - cons) % 2 ^ 32 then .done (nack s m true 4)
    else if !isOwn s pa && !reachable s (nodeOf pa) then .done (nack s m true 3)
    else match missingLine s [pa] with
      | some pa => ask s pa
      | none =>
        let head := bytesToNat (m.data.take 8)
        let head := head - fld head 55 46 * 2 ^ 46 + m.snode % 1024 * 2 ^ 46
        let s := frontPut s pa (natToBytes 8 head ++ m.data.drop 8)
        let s := { s with peers := s.peers ++ [(q, prod)] }
        .done (ack (storeProd s q ((prod + 1) % 2 ^ 32)) m 0 0 true)

/-! ## Requests to one line, in the order they reach its home -/

/-- Another request for the line is being answered by an owner. -/
def homeBusy (s : State) (line : Nat) : Bool :=
  s.homeQ.any (fun i => i.line == line) || s.reqs.any fun r => r.kind == 6 && r.pa == line

def serveAny (kind : Nat) (m : Msg) (s : State) : Served := if kind = 7 then servePeer m s else serve kind m s

/-- Put a request at the end of the requests that wait. -/
def holdItem (s : State) (line kind : Nat) (m : Msg) : State :=
  { s with nextId := s.nextId + 1, homeQ := s.homeQ ++ [⟨s.nextId, line, kind, m, false, s.clk⟩] }

/-- Requests that waited for a line are served in order, until one needs an owner again. -/
def pump (line : Nat) : Nat → State → State
  | 0, s => s
  | n + 1, s =>
    match s.homeQ.find? fun i => i.line == line with
    | none => s
    | some i =>
      if i.sent || s.reqs.any (fun r => r.kind == 6 && r.pa == line) then s
      else
        let rest := s.homeQ.filter fun x => x.id != i.id
        match serveAny i.kind i.msg { s with homeQ := rest } with
        | .done s => pump line n s
        | .sent s j => { s with homeQ := j :: s.homeQ }
        | .wait s l => { s with homeQ := { i with line := l } :: s.homeQ }

def pumpLine (s : State) (line : Nat) : State := pump line (s.homeQ.length + 1) s

/-- A request arrives at its home. A write-back passes the requests that wait for the owner (R305). -/
def arriveHome (kind : Nat) (m : Msg) (s : State) : State :=
  let line := lineOf m.addr
  let back := kind = 2 && (m.arg = 2 || m.arg = 3)
  if kind ≤ 5 && !back && homeBusy s line then holdItem s line kind m
  else match serveAny kind m s with
    | .done s => s
    | .sent s i => { s with homeQ := s.homeQ ++ [i] }
    | .wait s l => holdItem s l kind m

/-- The address of a request of kinds 0 to 5 is absent here (R248). -/
def absentHere (s : State) (kind : Nat) (m : Msg) : Bool := kind ≤ 5 && (placeOf s (localOf m.addr)).region == .absent

/-- A request of one kind: refused, or taken. -/
def receive (kind : Nat) (m : Msg) (s : State) : Host.Outcome State Fault Refusal :=
  if !forUs s m then .next s
  else if !allowed s kind m then .next (nack s m (lineless kind))
  else if absentHere s kind m then .next (nack s m false 1)
  else .next (arriveHome kind m s)

def execRdMsg (m : Msg) (s : State) : Host.Outcome State Fault Refusal := receive 0 m s
def execRdxMsg (m : Msg) (s : State) : Host.Outcome State Fault Refusal := receive 1 m s
def execWrMsg (m : Msg) (s : State) : Host.Outcome State Fault Refusal := receive 2 m s
def execWrpMsg (m : Msg) (s : State) : Host.Outcome State Fault Refusal := receive 3 m s
def execAtmMsg (m : Msg) (s : State) : Host.Outcome State Fault Refusal := receive 4 m s
def execMonMsg (m : Msg) (s : State) : Host.Outcome State Fault Refusal := receive 5 m s
def execLaunchMsg (m : Msg) (s : State) : Host.Outcome State Fault Refusal := receive 7 m s

/-! ## The owner of another module's line (R305, R316) -/

/-- The response to the requester that a forward names. -/
def supply (s : State) (m : Msg) (h : Msg → Msg) : State :=
  s.send 16 (capLease (h { m with
    snode := s.node % 1024, dnode := m.val.toNat, tag := m.val2.toNat, time := 0, rts := 0, arg := 0, val := 0, val2 := 0, mask := []
    data := [] }))

/-- FWQ: a shared request is supplied, and O kept or, of a line that is still as the home granted it, S taken; an exclusive one takes
the line; a repair discards it; a copy that cannot be read fails the request (R315). What the home hears: 1 shared, 2 handed over, 3
no copy here, 4 S taken; of a line that it asked for itself it hears by DATA alone. -/
def execFwqMsg (m : Msg) (s : State) : Host.Outcome State Fault Refusal :=
  if !forUs s m then .next s
  else
    let line := lineOf m.addr
    let die := m.arg / 4 % 4
    let forHome := m.val.toNat = m.snode
    if m.arg % 4 = 2 then .next (ack ((List.range 4).foldl (fun s d => dropCopy s d line) s) m)
    else match s.copies.find? fun c => c.die == die && c.pa == line && c.owned with
      | none => .next (ack s m 3)
      | some c =>
        let rts := max c.rts (l1Rts s line)
        if c.bad then .next (nack (noteBad s die line) m false 2)
        else if m.arg % 4 = 0 then
          let rts := max rts (max (m.time + 64) (c.wts + 65))
          let arg := if c.clean && c.excl then 4 else 1
          let s := updCopy (l1Settle s none line false) die line fun x => { x with excl := false, owned := arg == 1, rts := rts }
          let s := supply s m fun r => { r with arg := if forHome && arg = 4 then 4 else 0, time := c.wts, rts := rts, data := c.data }
          .next (if forHome then s else respond s 17 m fun r => { r with arg := arg, rts := rts })
        else
          let s := supply (dropCopy s die line) m fun r => { r with time := c.wts, rts := rts, data := c.data }
          .next (if forHome then s else respond s 17 m fun r => { r with arg := 2, rts := rts })

/-- An owner's reply reaches the home, which writes the new metadata and goes on to the next request (R305). -/
def ownerReply (s : State) (i : HomeItem) (m : Msg) : State :=
  let la := localOf i.line
  let rest := s.homeQ.filter fun x => x.id != i.id
  let t := max (lineRts s la) m.rts
  let b := brassOf s la
  if m.arg = 3 then pumpLine { s with homeQ := updWhere (fun x => x.id == i.id) (fun x => { x with sent := false }) s.homeQ } i.line
  else
    let s := { s with homeQ := rest }
    let s := if m.arg = 1 then
        storeTime { setBrass s la (withOwner b 4 (brassNode b) (brassDie b)) with leased := if s.leased.contains la then s.leased else s.leased ++ [la] } la t
      else if m.arg = 4 then
        storeTime { setBrass s la (withOwner b 1 0 0) with leased := if s.leased.contains la then s.leased else s.leased ++ [la] } la t
      else if m.arg = 2 then storeTime (setBrass s la (withOwner b 3 i.msg.snode i.msg.sdie)) la t
      else nack s i.msg false 3
    pumpLine s i.line

/-- The last recall of a repair has been answered: the line is written, and what waited goes on. -/
def repairDone (s : State) (line : Nat) : State :=
  if recalling s line then s
  else match s.homeQ.find? fun i => i.line == line && i.kind == 2 && i.msg.arg == 1 && i.sent with
    | some i =>
      let s := { s with homeQ := s.homeQ.filter fun x => x.id != i.id }
      pumpLine (ack (repairLine s (localOf line) i.msg.data) i.msg) line
    | none => s

/-- DIRTY_EVICT_WRITEBACK: a die's L2 writes a copy back to its home and drops it (R306). -/
def execDirtyEvictWriteback (die line : Nat) (s : State) : Host.Outcome State Fault Refusal :=
  .next (writeBack s die .front (lineOf line) true)

/-- A line of the L2s that the part may give up: not one of the pool's pinned part (R259). -/
def pinned (s : State) (la : Nat) : Bool :=
  let die := la / 2 ^ 38 % 4
  let t := hbmTier s die
  let pin := min t.2 (fld (s.dieRegs die).poolcfg.toNat 11 6 * 2 ^ 20)
  (placeOf s la).region == .hbm && t.1 ≤ la && decide (la < t.1 + pin)

/-- An L2 evicts a line: L1 copies in state M, O or E are recalled, what they hold is in the L2 already; the times of an own line
go to LEASE (R297, R299), but a memory-side line's, which the base die keeps, and whose LEASE is the time of its last write (R308). A copy of another module's line that is owned is written back. -/
def evictLine (s : State) (pa : Nat) : State :=
  let s := l1Settle s none pa true
  if isOwn s pa then (if pinned s (localOf pa) || msideOf s (localOf pa) then s else dropL2 s (localOf pa))
  else (List.range 4).foldl (fun s d => writeBack s d .front (lineOf pa) true) s

/-- L2_EVICT_RECALL. -/
def execL2EvictRecall (line : Nat) (s : State) : Host.Outcome State Fault Refusal := .next (evictLine s line)

end Sys2Proof.Machine
end

