-- ==== Sys2Proof/Machine/Fabric.lean ====
section
/-! DEFINITION. What this module asks of others and what comes back (R440–R446), records on their way (R230, R260,
R452, R453), launches across modules (R455–R458), and the links (R439, R440). -/

namespace Sys2Proof.Machine

/-! ## Injection (R443, R444) -/

/-- Slots that a requester's requests take from: 8 of a core for a node, 32 of a die for the rest. -/
def slotsUsed (s : State) (r : Req) : List Nat :=
  (s.reqs.filter fun q => q.node == r.node && (match r.who, q.who with
    | .core a, .core b => a == b
    | .core _, _ => false
    | _, .core _ => false
    | _, _ => q.die == r.die)).filterMap fun q => q.slot

/-- Kinds of request that take a response slot. -/
def takesSlot (r : Req) : Bool := r.kind == 0 || r.kind == 1 || r.kind == 4

def slotFor (s : State) (r : Req) : Option Nat :=
  let used := slotsUsed s r
  let n := match r.who with | .core _ => 8 | _ => 32
  let buffered : Bool := match r.who with
    | .core _ => decide ((s.reqs.filter fun q => q.who == r.who && q.slot.isSome).length < 64)
    | _ => true
  if buffered then (List.range n).find? fun k => !used.contains k else none

/-- An earlier request of the same requester to the same node, or of the same instruction to any, is still to be injected. -/
def behind (s : State) (r : Req) : Bool :=
  (s.reqs.takeWhile fun q => q.id != r.id).any fun q =>
    q.injected.isNone && q.who == r.who && (q.node == r.node || r.by_ != 0 && q.by_ == r.by_)

/-- The request can be injected now: its slot, if it takes one; an event entry for a monitor. -/
def injectable (s : State) (r : Req) : Bool :=
  r.injected.isNone && !behind s r &&
  (if takesSlot r then (slotFor s r).isSome
   else if r.kind = 5 then decide ((s.reqs.filter fun q => q.kind == 5 && q.die == r.die && q.injected.isSome).length < 8192)
   else true)

/-! ## Failure (R446) -/

def dropReq (s : State) (id : Nat) : State := { s with reqs := s.reqs.filter fun r => r.id != id }

/-- Accesses of pending instructions that wait for the answer to one request. -/
def mapSent (s : State) (id : Nat) (h : Pend → List Acc → Pend) : State :=
  { s with pend := s.pend.map fun (p : Pend) =>
      let mine := p.accs.filter fun a => a.sent == some id
      if mine.isEmpty then p else h { p with accs := p.accs.filter fun a => a.sent != some id } mine }

/-- A record whose REC failed takes a trap RESV at its core of origin; with no room it stays until there is. -/
def failForward (s : State) (rid : Nat) : State :=
  match s.rec? rid with
  | none => s
  | some m => (trapRecord s m .resv).getD (s.updRec rid fun r => { r with st := .travelling (2 ^ 40) })

/-- The lanes of accesses fail, with the line's address. -/
def failAccs (line : Nat) (p : Pend) (as : List Acc) : Pend := { p with failed := p.failed ++ as.map fun a => (a.pos, a.lane, line) }

/-- An operation's own read, or its atomic on a list, has failed. -/
def failAsk (s : State) (op req : Nat) : State :=
  match s.op? op with
  | none => s
  | some o =>
    match o.asked.find? fun a => a.req == req with
    | none => s
    | some a =>
      let s := s.updOp op fun o => { o with asked := o.asked.filter fun a => a.req != req }
      if a.off = 2 ^ 20 then tokenFail s o 3 .engerr a.pa
      else s.updOp op fun o => o.faultAt a.row 3 .engerr a.va

/-- The item that made a request fails; of an atomic no further element is performed (R326). -/
def failReq (s : State) (r : Req) : State :=
  let s := dropReq s r.id
  let line := lineOf r.pa
  match r.who, r.direct with
  | .engine op, true => failAsk s op r.id
  | .core k, true =>
    let s := if s.seeks.any fun q => q.req == r.id then { s with failedPa := s.failedPa ++ [(whoKey (.core k), line)] } else s
    mapSent s r.id (failAccs line)
  | _, true => s
  | _, false =>
  match r.kind with
  | 4 => mapSent s r.id fun p as => { failAccs line p (as ++ p.accs) with accs := [] }
  | 5 =>
    match r.who with
    | .monitor rid lane => failWait s rid lane line
    | .wake q => match s.hwq q with
      | some x => watchWake s q r.pa x.wakeval
      | none => s
    | w => { s with failedPa := s.failedPa ++ [(whoKey w, line)] }
  | 8 => match r.who with
    | .record rid => failForward s rid
    | _ => s
  | _ =>
    let s := { s with failedPa := s.failedPa ++ [(whoKey r.who, line)] }
    if r.kind = 6 then pumpLine s line else s

/-- REQUEST_INJECT: a request to a node that cannot be reached fails at once (R448); one of the module's own that waits at a home
here is served when its turn has come (R305). -/
def execRequestInject (id : Nat) (s : State) : Host.Outcome State Fault Refusal :=
  match s.reqs.find? fun r => r.id == id with
  | none =>
    match s.homeQ.find? fun i => i.id == id && !i.sent with
    | some i => .next (pumpLine s i.line)
    | none => .next s
  | some r =>
    if r.injected.isSome then .next s
    else if !reachable s r.node then .next (failReq s r)
    else if !injectable s r then .next s
    else
      let slot := if takesSlot r then slotFor s r else none
      let n := match r.who with | .core _ => slot.getD 0 | _ => 0
      let unit := match r.who, slot with
        | .engine _, some k => 0x40 + k % 32
        | .walk _, some k => 0x40 + k % 32
        | _, _ => r.msg.sunit
      let s := { s with reqs := updWhere (fun q => q.id == id) (fun q => { q with slot := slot, injected := some s.clk }) s.reqs }
      .next (s.send r.kind { r.msg with slot := n, sunit := unit })

/-- A request at the head of those that wait for a line here, with no forward of the line under way. -/
def canServe (s : State) (i : HomeItem) : Bool :=
  !i.sent && (s.homeQ.find? fun x => x.line == i.line).map (fun x => x.id) == some i.id && !(s.reqs.any fun r => r.kind == 6 && r.pa == i.line)

/-- Clk of 100 µs. -/
def clk100us : Nat := 85000

/-- A request that has waited 100 µs for its response (R446), a monitor's for its MSAT among them. -/
def reqLate (s : State) (r : Req) : Bool :=
  match r.injected with
  | some t => decide (t + clk100us ≤ s.clk)
  | none => false

/-- A request without a slot that has waited 100 µs, or whose node cannot be reached (R446, R448). -/
def postLate (s : State) (p : Post) : Bool :=
  p.node != s.node % 1024 && p.held.isNone && (decide (p.since + clk100us ≤ s.clk) || !reachable s p.node)

/-- A forward that the owner has not answered in 100 µs; a repair waits for its own requests. -/
def forwardLate (s : State) (i : HomeItem) : Bool :=
  i.sent && !(i.kind == 2 && i.msg.arg == 1) && decide (i.since + clk100us ≤ s.clk)

/-- A part's answer to RESERVE: 17 YES, 16 NO (R456). -/
def partAnswer (s : State) (m : Msg) (key : Nat) : State :=
  let heard := fun (p : PartSt) => { p with answer := if 16 ≤ m.arg then some (m.arg == 17) else p.answer, heard := s.clk }
  let s := s.updLaunch key fun l => { l with parts := updAll (fun p => p.node == m.snode) heard l.parts }
  if 16 ≤ m.arg then reserveProgress s key false else s

/-- A part has not answered COMMIT or ABORT: it counts as unreachable, and the launch fails (R456; log entry 142). -/
def partLost (s : State) (p : Post) : State :=
  let mine := fun (l : Launch) => l.lid == p.addr && l.st == .active && l.parts.any fun q => q.node == p.node && !q.reported
  match s.launches.find? mine with
  | none => s
  | some l =>
    let s := s.updLaunch l.lid fun x => { x with parts := updAll (fun q => q.node == p.node) (fun q => { q with reported := true }) x.parts }
    if l.fail then s else abortLaunch s { l with parts := l.parts.filter fun q => q.node != p.node }

/-- A request without a slot is acknowledged, with its message, or fails: a launch part's answer counts, and the last answer to the
recalls of a repair lets it write. -/
def settlePost (s : State) (p : Post) (m : Option Msg) : State :=
  let s := match m with
    | some m => ackPost s p m.time
    | none => failPost s p
  match p.kind, m with
  | 6, _ => repairDone s p.addr
  | 9, some m => if p.arg = 3 || p.arg = 5 then s else partAnswer s m p.addr
  | 9, none => if p.arg = 1 || p.arg = 4 then partLost s p else s
  | _, _ => s

/-- REQUEST_TIMEOUT. -/
def execRequestTimeout (id : Nat) (s : State) : Host.Outcome State Fault Refusal :=
  match s.reqs.find? fun r => r.id == id && reqLate s r with
  | some r => .next (failReq s r)
  | none =>
    match s.posts.find? fun p => p.id == id && postLate s p with
    | some p => .next (settlePost s p none)
    | none =>
      match s.homeQ.find? fun i => i.id == id && forwardLate s i with
      | some i => .next (pumpLine { s with homeQ := s.homeQ.filter fun x => x.id != id } i.line)
      | none => .next s

/-! ## Responses (R298, R300, R459) -/

/-- The request that a response answers. -/
def answered (s : State) (m : Msg) (p : Nat → Bool) : Option Req :=
  s.reqs.find? fun r => r.id == m.tag && r.injected.isSome && p r.kind

/-- A line reaches a die's L2. -/
def takeLine (s : State) (r : Req) (m : Msg) : State :=
  let line := lineOf r.pa
  let excl := r.kind = 1
  let others := s.copies.filter fun c => !(c.die == r.die && c.pa == line)
  match m.arg with
  | 3 =>
    let up := fun (c : LineCopy) => { c with rts := max c.rts m.rts, excl := c.excl || (excl && c.owned) }
    updCopy s r.die line up
  | a =>
    let bar := a = 2
    { s with
      copies := if bar && excl then others else others ++ [⟨r.die, line, excl, excl, m.time, m.rts, m.data, excl, false⟩]
      uncached := if bar && !s.uncached.contains (r.die, line) then s.uncached ++ [(r.die, line)] else s.uncached }

/-- The home has an answer from the owner of its line: a leased copy for its L2, the owner keeping the line as O; the word that the
owner took S, the data in memory being current; or the line itself, and the data is current again (R305, R306). What waited goes on. -/
def lineBack (s : State) (r : Req) (m : Msg) : State :=
  let la := localOf r.pa
  let die := la / 2 ^ 38 % 4
  if r.msg.arg % 4 = 0 && m.arg = 4 then
    let s := { s with leased := if s.leased.contains la then s.leased else s.leased ++ [la] }
    pumpLine (storeTime (setBrass s la (withOwner (brassOf s la) 1 0 0)) la (max (lineRts s la) m.rts)) r.pa
  else if r.msg.arg % 4 = 0 then
    let b := brassOf s la
    let t := max (lineRts s la) m.rts
    let s := { s with copies := (s.copies.filter fun c => !(c.die == die && c.pa == r.pa)) ++ [⟨die, r.pa, false, false, m.time, m.rts, m.data, false, false⟩] }
    pumpLine (storeTime (setBrass s la (withOwner b 4 (brassNode b) (brassDie b))) la t) r.pa
  else pumpLine (if lineBad s la 128 then noteUncorrectable s la else putBack s la m.data m.rts false) r.pa

/-- The bytes that a read of its own brings to a load. -/
def directFill (s : State) (m : Msg) (p : Pend) (as : List Acc) : Pend :=
  as.foldl (fun p a => match a.kind with
    | .load t code =>
      let bs := (m.data.drop (a.pa % 128)).take a.bytes
      { p with writes := fillWrites p.writes a code (loadImage t (wcMerge a (mixFree s a.pa bs))) }
    | _ => p) p

/-- What the threads of accesses that one request answers observe (R288). -/
def sentSees (s : State) (id : Nat) : State :=
  (s.pend.flatMap fun p => (p.accs.filter fun a => a.sent == some id).map fun a => (p.core, p.slot, a)).foldl (fun s e =>
    s.sees e.1 e.2.1 e.2.2.pos e.2.2.lane (signOps s e.2.2.pa e.2.2.bytes)) s

/-- A read of its own reaches its access, or its operation, which it leads to the time of the line (R262, R300). -/
def directData (s : State) (r : Req) (m : Msg) : State :=
  match r.who with
  | .core k =>
    let s := (sentSees s r.id).setCore k fun c => { c with pts := max c.pts (m.time + 1) }
    let s := { s with seeks := updWhere (fun q => q.req == r.id) (fun q => { q with
      word := some (bytesToNat ((mixFree s q.pa ((m.data.drop (q.pa % 128)).take 4)).zipIdx.map fun e =>
        ((q.merged.find? fun b => b.1 == q.pa + e.2).map fun b => b.2).getD e.1)) }) s.seeks }
    mapSent s r.id (directFill s m)
  | .engine op =>
    match s.op? op with
    | none => s
    | some o =>
      match o.asked.find? fun a => a.req == r.id with
      | none => s
      | some a =>
        let s := takeRead s o a.row a.off a.pa (mixFree s a.pa ((m.data.drop (a.pa % 128)).take a.bytes)) (m.time + 1)
        s.updOp op fun o => { o with asked := o.asked.filter fun a => a.req != r.id }
  | _ => s

/-- The instructions of a die that waited for a line, or for one read of their own, go on in the step that brings it: their lanes'
destinations are written, or their loads made, in the same clk (R459). -/
def sunk (p : Pend → Bool) (s0 s : State) : State :=
  ((s0.pend.filter p).map fun q => q.id).foldl (fun s id =>
    match s.pend.find? fun q => q.id == id with
    | some q => if pendReady s q then advancePend s q else s
    | none => s) s
def awaits (r : Req) (p : Pend) : Bool :=
  p.core / 64 == r.die && p.accs.any fun a => if r.direct then a.sent == some r.id else a.sent.isNone && lineOf a.pa == lineOf r.pa

/-- DATA: the line is taken and its slot is free; a late one is discarded (R446). -/
def execDataMsg (m : Msg) (s : State) : Host.Outcome State Fault Refusal :=
  if !forUs s m then .next s
  else match answered s m fun k => k == 0 || k == 1 || k == 6 with
    | none => .next s
    | some r =>
      let s := (dropReq s r.id).hear m.time
      .next (sunk (awaits r) s (if r.kind = 6 then lineBack s r m else if r.direct then directData s r m else takeLine s r m))

/-- The values of an atomic reach their lanes: 8 bytes for each, then a byte of flags for each. -/
def atmValues (m : Msg) (p : Pend) (as : List Acc) : Pend :=
  let n := as.length
  as.zipIdx.foldl (fun p e =>
    let v := bytesToNat ((m.data.drop (8 * e.2)).take 8)
    let f := bytesToNat ((m.data.drop (8 * n + e.2)).take 1)
    match e.1.kind with
    | .rmw _ _ _ _ _ code =>
      { p with
        writes := fillWrites p.writes e.1 code (wordsOf ((e.1.bytes + 3) / 4) v)
        fp := p.fp ++ [(e.1.pos, e.1.lane, BitVec.ofNat 5 f)] }
    | _ => p) p

/-- The answer of an atomic: its values reach their lanes, or the count of a bypass list its operation. -/
def atomAnswer (s : State) (r : Req) (m : Msg) : State :=
  match r.who with
  | .engine op =>
    s.updOp op fun o => { o with
      asked := o.asked.filter fun a => a.req != r.id, count := some (bytesToNat (m.data.take 8)), pts := max o.pts m.time }
  | .core k => mapSent ((sentSees s r.id).setCore k fun c => { c with pts := max c.pts m.time }) r.id (atmValues m)
  | _ => s

/-- One thread of a launch has left for a node. A launch of this module counts it on; a thread of another module's launch counts
where it arrives, and that module hears of the node (R453). -/
def threadLeaves (node : Nat) (s : State) (lid : Nat) : State :=
  match s.launch? lid with
  | none => s
  | some l =>
    match (if l.queue = 65537 then l.owner else none) with
    | none => s.updLaunch lid fun x => { x with gone := x.gone + 1, away := if x.away.contains node then x.away else x.away ++ [node] }
    | some (home, key) =>
      let s := s.updLaunch lid fun x => { x with
        live := x.live - 1, seq := x.seq - 1, st := if x.live = 1 && x.st = .active then .ending else x.st }
      if home = node then s else postMsg s .front 9 { partMsg s home 5 key with val2 := BitVec.ofNat 64 (node + 1) }

/-- A forwarded record has been taken: it leaves this module. -/
def recordLeaves (s : State) (rid node : Nat) : State :=
  match s.rec? rid with
  | none => s
  | some m => dropRecord ((lidsOf m.lids (BitVec.ofNat 4 (readHead s m).live)).foldl (threadLeaves node) s) rid

/-- ACK. An owner that has no copy any more has written the line back, and whoever asked for it here looks again (R305). -/
def execAckMsg (m : Msg) (s : State) : Host.Outcome State Fault Refusal :=
  if !forUs s m then .next s
  else match s.homeQ.find? fun i => itemTag i.id == m.tag && i.sent with
    | some i => .next (ownerReply s i m)
    | none =>
      match s.posts.find? fun p => postTag p.id == m.tag with
      | some p => .next (settlePost s p (some m))
      | none =>
        match answered s m fun k => k == 4 || k == 6 || k == 8 with
        | none => .next s
        | some r =>
          let s := (dropReq s r.id).hear m.time
          match r.who, r.kind with
          | .record rid, _ => .next (recordLeaves s rid m.snode)
          | _, 6 => .next (pumpLine s (lineOf r.pa))
          | _, _ => .next (atomAnswer s r m)

/-- A monitor at another module's home was satisfied: the lane's event fires, or the value is kept for the step of the
dependence or the wake word. Its time reaches the agent that waited (R302, R311). -/
def execMsat (m : Msg) (s : State) : Host.Outcome State Fault Refusal :=
  if !forUs s m then .next s
  else match answered s m fun k => k == 5 with
    | none => .next s
    | some r =>
      let s := (dropReq s r.id).hear m.time
      let kept := fun (who : MonFor) =>
        let q : Monitor :=
          ⟨2 ^ 60, bitOf r.msg.arg 3, false, r.msg.arg % 8, r.msg.val.toNat, who, s.nextId, some m.val.toNat, false, peerCtx⟩
        Host.Outcome.next { s with nextId := s.nextId + 1, mons := s.mons ++ [q], frontPts := max s.frontPts (m.time + 1) }
      match r.who with
      | .monitor rid lane => .next (fireWait s rid lane (splitWord (bitOf r.msg.arg 3) m.val.toNat))
      | .dep lid dep => kept (.dep lid dep)
      | .wake q => kept (.wake q)
      | _ => .next s

/-- NACK. -/
def execNackMsg (m : Msg) (s : State) : Host.Outcome State Fault Refusal :=
  if !forUs s m then .next s
  else match s.homeQ.find? fun i => itemTag i.id == m.tag && i.sent with
    | some i => .next (ownerReply s i { m with arg := 0 })
    | none =>
      match s.posts.find? fun p => postTag p.id == m.tag with
      | some p => .next (settlePost s p none)
      | none =>
        match answered s m fun _ => true with
        | some r => .next (failReq s r)
        | none => .next s

/-! ## Records on their way (R230, R260, R452, R453) -/

def roleCode (r : Role) : Nat := match r with | .feed => 0 | .matrix => 1 | .vector => 2 | .general => 3
def roleFrom (n : Nat) : Role := match n with | 0 => .feed | 1 => .matrix | 2 => .vector | _ => .general

/-- What travels beside a record's bytes: sizes, waiting time, marks, and of each lane's launch its module and key there, its number
and words. -/
def recTail (s : State) (m : RecMeta) : List Byte :=
  let exp := (m.exp.zipIdx.map fun e => (b2n e.1.1 + 2 * b2n e.1.2.1 + 4 * b2n e.1.2.2) * 8 ^ e.2).foldl (· + ·) 0
  let head := [m.size, (m.fibre.map fun f => f.2).getD 0, s.clk - m.since, b2n m.stuck, roleCode m.role, b2n m.fw, exp, m.riseAt]
  let launch := fun (lid : Nat) => match s.launch? lid with
    | some l =>
      let o := match (if l.queue = 65537 then l.owner else none) with | some o => o | none => (s.node % 1024, lid)
      (o.2 % 2 ^ 48 + 2 ^ 48 * o.1) :: l.number :: (List.range 16).map (wordAt l.words)
    | none => lid :: 0 :: List.replicate 16 0
  (head ++ (List.range 4).flatMap fun k => launch (m.lids.getD k 0)).flatMap (natToBytes 8)

/-- The REC message of a record, its bytes laid end to end (R452). -/
def recMessage (s : State) (m : RecMeta) (w : Nat) : Msg :=
  let node := fld w 25 16
  let base := mkMsg s (m.core / 64) (.record m.rid) node s.nextId (max m.pts (s.core m.core).pts) m.size
  let fib := match m.fibre with | some f => poolBytes s f.1 f.2 | none => []
  { base with sunit := m.core % 64, arg := w, val := BitVec.ofNat 64 m.ctx, data := recTail s m ++ recBytes s m 0 m.size ++ fib }

/-- A record reaches a core of this module: kind RUN, its age kept, and binned (R169). -/
def arriveRecord (s : State) (rid core : Nat) : State :=
  match s.rec? rid with
  | none => s
  | some m =>
    let s := recPut s m 8 (natToBytes 8 0)
    let s := s.bump.updRec rid fun r => { r with core := core, ord := s.nextId, pts := max r.pts (s.latest + 1) }
    binRecord s rid

/-- Move a record's bytes, with its fibre block after them (R370), to another place in the pool. -/
def relocate (s : State) (m : RecMeta) (a : Nat) : State :=
  let bytes := poolBytes s m.pa m.size
  let fib := match m.fibre with | some f => poolBytes s f.1 f.2 | none => []
  let s := match m.fibre with | some f => poolFree s f.1 | none => s
  (storeRecord (poolFree s m.pa) m.ctx a bytes [] fib).updRec m.rid fun r => { r with
    pa := a, fibre := if fib.isEmpty then none else some (a + grain m.size, fib.length) }

/-- RECORD_MOVE: a forwarded record goes to its core, or to another module as one REC; any other record of the pool
may be moved to a free place (R260), one that a trap holds may not (R411). -/
def execRecordMove (rid dest : Nat) (s : State) : Host.Outcome State Fault Refusal :=
  match s.rec? rid with
  | none => .next s
  | some m =>
    match m.st with
    | .travelling w =>
      if w = 2 ^ 40 then .next (failForward s rid)
      else
        let node := fld w 25 16
        if node = s.node % 1024 then .next (arriveRecord s rid (fld w 9 8 * 64 + fld w 5 0))
        else if !reachable s node then .next (failForward s rid)
        else
          let r : Req := ⟨s.nextId, m.core / 64, .record rid, 8, node, ownPa s 0, none, none, recMessage s m w, false, 0⟩
          .next { s.updRec rid (fun r => { r with st := .sent node }) with nextId := s.nextId + 1, reqs := s.reqs ++ [r] }
    | .sent _ => .next s
    | _ =>
      let n := grain m.size + ((m.fibre.map fun f => f.2).getD 0)
      let fits := (tiers s m.core).any fun t => t.1 ≤ dest && dest + n ≤ t.1 + t.2
      let free := s.pool.all fun e => decide (dest + n ≤ e.1) || decide (e.1 + e.2.1 ≤ dest)
      if m.trap.isSome || m.body.isSome || dest % 128 != 0 || !fits || !free || headerBad s m || blockBad s m then .next s
      else .next (relocate s m dest)

/-- The launch here that stands for another module's, of which n threads more run here (R453). A thread that comes home counts
here as before. -/
def proxyFor (s : State) (ctx n : Nat) (fw : Bool) (ws : List Nat) : State × Nat :=
  let key := ws.headD 0 % 2 ^ 48
  let node := ws.headD 0 / 2 ^ 48
  if node = s.node % 1024 then (s.updLaunch key fun l => { l with gone := l.gone - n }, key)
  else match s.launches.find? fun l => l.owner == some (node, key) && l.queue == 65537 && l.st == .active with
  | some l => (s.updLaunch l.lid fun l => { l with live := l.live + n, seq := l.seq + n }, l.lid)
  | none =>
    let l : Launch := {
      lid := s.nextId, queue := 65537, ctx := ctx, number := ws.getD 1 0, seq := n, tag := 0, digest := 0, fw := fw
      words := ((ws.drop 2).take 16).map (BitVec.ofNat 64), entryAddr := 0, entryVbud := 0, entryIdem := false, drain := 0
      st := .active, latched := 0, live := n, activeAt := s.clk, late := false, parts := [], owner := some (node, key), virt := 0
      since := s.clk, signalled := false, fail := false, away := [] }
    ({ s with nextId := s.nextId + 1, launches := s.launches ++ [l] }, l.lid)

/-- The launches of the live lanes of an arriving record. -/
def proxies (ctx live : Nat) (fw : Bool) (tail : List Nat) (s : State) : State × List Nat :=
  (List.range 4).foldl (fun (r : State × List Nat) k =>
    let ws := (tail.drop (8 + 18 * k)).take 18
    if ws.headD 0 = 0 || !bitOf live k then (r.1, r.2 ++ [0])
    else
      let q := proxyFor r.1 ctx 1 fw ws
      (q.1, r.2 ++ [q.2])) (s, [])

/-- The words that travel before a forwarded record's bytes; its bytes; its fibre block (log entry 92). -/
def msgTail (m : Msg) : List Nat := (List.range 80).map fun i => bytesToNat ((m.data.drop (8 * i)).take 8)
def msgBytes (m : Msg) : List Byte := (m.data.drop 640).take ((msgTail m).headD 0)
def msgFibres (m : Msg) : List Byte := (m.data.drop (640 + (msgTail m).headD 0)).take ((msgTail m).getD 1 0)

/-- A forwarded record is acknowledged, stored at a place of the pool, and reaches its core (R230, R453). -/
def takeRecord (s : State) (m : Msg) (core a : Nat) : State :=
  let tail := msgTail m
  let ctx := m.val.toNat
  let size := tail.headD 0
  let s := ack s m 0 0 true
  let p := proxies ctx (fld (bytesToNat (((msgBytes m).drop 0x18).take 8)) 7 4) (tail.getD 5 0 == 1) tail s
  let s := storeRecord p.1 ctx a (msgBytes m) [] (msgFibres m)
  let rid := s.nextId
  let r : RecMeta := {
    rid := rid, pa := a, size := size, core := core, ctx := ctx, role := roleFrom (tail.getD 4 0), group := none, lids := p.2
    handler := none, fw := tail.getD 5 0 == 1, st := .waiting, pre := (preMethod s (core / 64) none ctx).isSome
    pts := max m.time (s.latest + 1), since := s.clk - tail.getD 2 0, ord := 0, riseAt := tail.getD 7 0, readyAt := s.clk, dest := 240, dregs := 0
    merr := [], waitAt := ⟨0, 0, 0⟩, marks := [], bypass := false
    fibre := if (msgFibres m).isEmpty then none else some (a + grain size, (msgFibres m).length)
    exp := (List.range 4).map fun k => let e := tail.getD 6 0 / 8 ^ k; (bitOf e 0, bitOf e 1, bitOf e 2)
    fences := List.replicate 4 FenceMark.none, stuck := tail.getD 3 0 == 1, copy := [], tampered := false, trap := none, nested := none
    tasks := [], body := none }
  arriveRecord { s.bump with recs := s.recs ++ [r] } rid core

/-- REC: the record is stored, acknowledged and binned with kind RUN, its PRIO and waiting time kept. One that finds
no room, or whose core is not enabled, is refused. -/
def execRecMsg (m : Msg) (s : State) : Host.Outcome State Fault Refusal :=
  if !forUs s m then .next s
  else
    let ctx := m.val.toNat
    let die := fld m.arg 9 8
    let to_ : Option Nat := if bitOf m.arg 31 then feedCore s die
      else if s.coreOn (die * 64 + fld m.arg 5 0) then some (die * 64 + fld m.arg 5 0) else none
    match (if allowed s 8 m && (s.context ctx).isSome then to_ else none) with
    | none => .next (nack s m true)
    | some core =>
      match recordRoom s core ((msgTail m).headD 0) (msgFibres m).length with
      | none => .next (nack s m true)
      | some a => .next (takeRecord s m core a)

/-! ## Launches across modules (R455–R458) -/

/-- PART RESERVE: a part answers YES with the cores that its groups need, or NO. -/
def execPartReserve (m : Msg) (s : State) : Host.Outcome State Fault Refusal :=
  if !forUs s m || m.arg != 0 then .next s
  else if !allowed s 9 m then .next (nack s m true)
  else
    let ctx := m.val.toNat
    let s := s.hear m.time
    let r := if (s.context ctx).isSome && (partOf s m.snode m.addr).isNone then
        reserveHere s m.snode m.addr ctx m.val2.toNat m.data
      else (s, false)
    .next (ack r.1 m (if r.2 then 17 else 16) 0 true)

/-- PART COMMIT carries Ts. -/
def execPartCommit (m : Msg) (s : State) : Host.Outcome State Fault Refusal :=
  if !forUs s m || m.arg != 1 then .next s
  else if !allowed s 9 m then .next (nack s m true)
  else
    let s := s.hear m.time
    let s := match partOf s m.snode m.addr with
      | some l => if l.st == .reserving then
          s.updLaunch l.lid fun x => { x with st := .backoff, since := m.val.toNat, late := decide (m.val.toNat < s.regs.devtime) }
        else s
      | none => s
    .next (ack s m 0 0 true)

/-- PART ROLLBACK, and ABORT of a launch whose groups or slices run here (R419, R456, R457). -/
def execPartRollback (m : Msg) (s : State) : Host.Outcome State Fault Refusal :=
  if !forUs s m || (m.arg != 2 && m.arg != 4) then .next s
  else if !allowed s 9 m then .next (nack s m true)
  else
    let s := match partOf s m.snode m.addr with
      | some l => if l.st == .reserving || l.st == .backoff then releasePart s l else s
      | none => s
    let s := if m.arg = 4 then
        { s with launches := updAll (fun l => l.owner == some (m.snode, m.addr) && l.st == .active) (fun l => { l with fail := true }) s.launches }
      else s
    .next (ack s m 0 0 true)

/-- Threads of a launch have ended elsewhere; val2 names a node, plus 1, to which some have gone on, which hears of an abort. -/
def awayReport (s : State) (m : Msg) : State :=
  let n := m.val.toNat
  let on := m.val2.toNat
  let s := (List.replicate n m.addr).foldl threadEnded (s.updLaunch m.addr fun l => { l with gone := l.gone - n })
  match s.launch? m.addr with
  | none => s
  | some l =>
    if on = 0 || l.away.contains (on - 1) then s
    else
      let s := s.updLaunch l.lid fun x => { x with away := x.away ++ [on - 1] }
      if l.fail then postMsg s .front 9 (partMsg s (on - 1) 4 l.lid) else s

/-- A part of a spanning launch has ended; one that failed fails the launch (R456). -/
def partEnded (s : State) (m : Msg) : State :=
  let s := s.updLaunch m.addr fun l => { l with
    late := l.late || m.val.getLsbD 0
    parts := updAll (fun p => p.node == m.snode) (fun p => { p with reported := true }) l.parts }
  match s.launch? m.addr with
  | none => s
  | some l => if m.val.getLsbD 1 && !l.fail && l.st == .active then abortLaunch s l else s

/-- PART REPORT: a part has ended (arg 3), or slices forwarded there have (arg 5). -/
def execPartReport (m : Msg) (s : State) : Host.Outcome State Fault Refusal :=
  if !forUs s m || (m.arg != 3 && m.arg != 5) then .next s
  else if !allowed s 9 m then .next (nack s m true)
  else
    let s := s.hear m.time
    .next (ack (if m.arg = 5 then awayReport s m else partEnded s m) m 0 0 true)

/-- RESERVING_TIMEOUT: 100 µs without every answer. -/
def execReservingTimeout (lid : Nat) (s : State) : Host.Outcome State Fault Refusal :=
  match s.launch? lid with
  | some l => if l.since + clk100us ≤ s.clk then .next (reserveProgress s lid true) else .next s
  | none => .next s

/-- BACKOFF_EXPIRY: 50 µs have passed. -/
def execBackoffExpiry (lid : Nat) (s : State) : Host.Outcome State Fault Refusal :=
  match s.launch? lid with
  | some l =>
    if l.st == .backoff && l.owner.isNone && l.since + 42500 ≤ s.clk then
      .next (reserveProgress (startReserve s l l.parts) lid false)
    else .next s
  | none => .next s

/-- PART_RESERVE_EXPIRY: no COMMIT within 1 ms. -/
def execPartReserveExpiry (key : Nat) (s : State) : Host.Outcome State Fault Refusal :=
  match s.launch? key with
  | some l =>
    if l.st == .reserving && l.owner.isSome && l.since + 850000 ≤ s.clk then .next (releasePart s l) else .next s
  | none => .next s

/-- PART_START: the first clk whose DEVTIME is at least Ts. -/
def execPartStart (key : Nat) (s : State) : Host.Outcome State Fault Refusal :=
  match s.launch? key with
  | some l =>
    if l.st == .backoff && l.owner.isSome && l.since ≤ s.regs.devtime then .next (beginGroups s l) else .next s
  | none => .next s

/-- A part of this launch has been unreachable for 100 µs. -/
def lostParts (s : State) (l : Launch) : List Nat :=
  if l.fail && l.st != .active then [] else
  (l.parts.filter fun p => p.node != s.node % 1024 && (!p.reported || l.st != .active) && !reachable s p.node && decide (p.heard + clk100us ≤ s.clk)).map fun p => p.node

/-- PART_UNREACHABLE: the launch fails and every part aborts. -/
def execPartUnreachable (lid : Nat) (s : State) : Host.Outcome State Fault Refusal :=
  match s.launch? lid with
  | some l =>
    let lost := lostParts s l
    if lost.isEmpty then .next s
    else
      let s := s.updLaunch lid fun x => { x with parts := updAll (fun p => lost.contains p.node) (fun p => { p with reported := true }) x.parts }
      withLines s [journalPa s l.seq, queueDesc s l.queue] (match s.launch? lid with | some l => abortLaunch s l | none => s)
  | none => .next s

/-! ## Fabric receive ports (R375) -/

/-- FABRIC_RECEIVE_ENTRY: 128 bytes arrive at a port of the core's group. -/
def execFabricReceiveEntry (core port : Nat) (words : List W32) (s : State) : Host.Outcome State Fault Refusal :=
  if ((s.core core).ports.getD port Port.unbound).kind != 2 then .next s
  else
    let e := (List.range 32).map fun i => words.getD i 0
    let s := s.setCore core fun k => { k with ports := updAt port (fun p => { p with entries := p.entries ++ [e] }) k.ports }
    .next (portFire s core port 1)

/-! ## Links (R439–R441) -/

/-- One bit of CRC-32C, reflected: the polynomial 0x82F63B78 (log entry 18). -/
def crcBit (c : Nat) : Nat := if c % 2 = 1 then Nat.xor (c / 2) 0x82f63b78 else c / 2
def crcByte (c : Nat) (b : Byte) : Nat := (List.range 8).foldl (fun c _ => crcBit c) (Nat.xor c b.toNat)
def crc32c (bs : List Byte) : Nat := Nat.xor (bs.foldl crcByte 0xffffffff) 0xffffffff

/-- Kinds that R441 names. -/
def kindNamed (k : Nat) : Bool := k ≤ 9 || 16 ≤ k && k ≤ 19

/-- FLIT_RECEIVE: a flit whose CRC fails or that is out of turn is dropped, and a replay asked for from the LSEQ expected; one of a
reserved kind is counted and discarded. A message's own step follows from its last flit. -/
def execFlitReceive (port : Nat) (f : Flit) (s : State) : Host.Outcome State Fault Refusal :=
  let c := f.ctl.toNat
  let good := fld c 127 96 == crc32c (natToBytes 12 c ++ f.payload) && f.payload.length == 64
  if !s.ports.getD port false then .next s
  else if !good || fld c 95 84 != s.linkSeq.getD port 0 then
    .next { s with linkAsk := updAt port (fun _ => some (s.linkSeq.getD port 0)) s.linkAsk }
  else
    let s := { s with
      linkSeq := updAt port (fun n => (n + 1) % 4096) s.linkSeq, linkAsk := updAt port (fun _ => none) s.linkAsk }
    if !kindNamed (fld c 82 78) then .next { s with linkErrors := s.linkErrors + 1 }
    else .next { s with linkRx := updAt port (fun l => if bitOf c 44 then [] else l ++ [f]) s.linkRx }

/-- LINK_TAKEDOWN: routing goes on over the other ports. -/
def execLinkTakedown (port : Nat) (s : State) : Host.Outcome State Fault Refusal :=
  .next { s with ports := updAt port (fun _ => false) s.ports }

end Sys2Proof.Machine
end

