-- ==== Sys2Proof/Machine/Ingest.lean ====
section
/-! DEFINITION. Stream ingest (R290, R481–R485): opening and closing a stream, packets, frames and their closure. -/

namespace Sys2Proof.Machine

/-! ## The stream descriptor (R482, R483) -/

def streamKind (t : Stream) : Nat := fld (wordAt t.words 0) 17 16
def streamCtx (t : Stream) : Nat := fld (wordAt t.words 0) 15 0
def slotBytes (t : Stream) : Nat := fld (wordAt t.words 4) 31 0
def slotCount (t : Stream) : Nat := fld (wordAt t.words 4) 39 32
def geom (t : Stream) : Nat := wordAt t.words 5
def height (t : Stream) : Nat := fld (geom t) 31 16
def stride (t : Stream) : Nat := fld (geom t) 63 40
def grp (t : Stream) : Nat := fld (wordAt t.words 6) 15 0
def timeoutClk (t : Stream) : Nat := fld (wordAt t.words 6) 47 32 * 850

/-- Bytes and pixels of a pixel group. -/
def pixelGroup (pg : Nat) : Nat × Nat :=
  match pg with
  | 0 => (4, 2)
  | 1 => (5, 2)
  | 2 => (3, 1)
  | _ => (15, 4)

/-- Bytes of a video line, and of an audio packet. -/
def videoLineBytes (t : Stream) : Nat :=
  let p := pixelGroup (fld (geom t) 35 32)
  (fld (geom t) 15 0 + p.2 - 1) / p.2 * p.1
def audioBytes (t : Stream) : Nat := fld (geom t) 7 0 * (if bitOf (geom t) 8 then 3 else 2) * fld (geom t) 31 16

/-- A descriptor that meets R482. -/
def descriptorOk (t : Stream) : Bool :=
  let w := wordAt t.words
  let g := geom t
  fld (w 0) 63 32 == 0 && fld (w 0) 19 18 == 0 && fld (w 1) 63 48 == 0 && fld (w 2) 63 32 == 0 && fld (w 3) 63 56 == 0 &&
  fld (w 4) 63 40 == 0 && fld (w 6) 63 48 == 0 && fld (w 6) 31 16 == 0 && fld (w 7) 63 56 == 0 &&
  2 ≤ slotCount t && slotCount t ≤ 64 && slotBytes t % 128 == 0 && w 3 % 128 == 0 && timeoutClk t != 0 &&
  (match streamKind t with
   | 0 =>
     1 ≤ height t && height t ≤ 4320 && fld g 39 36 == 0 && fld g 35 32 ≤ 3 && stride t % 128 == 0 && videoLineBytes t ≤ stride t &&
     stride t * height t ≤ slotBytes t
   | 1 =>
     1 ≤ fld g 7 0 && fld g 7 0 ≤ 64 && fld g 15 9 == 0 && fld g 63 32 == 0 && 1 ≤ grp t && grp t ≤ 4096
   | 2 => g == 0 && grp t == 0
   | _ => false)

/-! ## Frames -/

/-- The groups of a frame: lines or packets of each, and how many there are. -/
def groupSize (t : Stream) (f : Frame) : Nat :=
  match streamKind t with
  | 0 => if grp t = 0 then height t else grp t
  | 1 => grp t
  | _ => f.seqs.length
def groupTotal (t : Stream) : Nat := if streamKind t = 0 && grp t != 0 then (height t + grp t - 1) / grp t else 1

/-- First line of a group, and its lines. -/
def groupLine0 (t : Stream) (f : Frame) (g : Nat) : Nat := g * groupSize t f
def groupLines (t : Stream) (f : Frame) (g : Nat) : Nat :=
  if streamKind t = 0 then min (groupSize t f) (height t - groupLine0 t f g) else groupSize t f

/-- A line or an audio packet that has been wholly received. -/
def lineWhole (t : Stream) (f : Frame) (i : Nat) : Bool :=
  let got := ((f.lines.filter fun e => e.1 == i).map fun e => e.2).foldl (· + ·) 0
  (f.lines.any fun e => e.1 == i) && decide ((if streamKind t = 0 then videoLineBytes t else audioBytes t) ≤ got)

def groupWhole (t : Stream) (f : Frame) (g : Nat) : Bool :=
  streamKind t != 2 && (List.range (groupLines t f g)).all fun i => lineWhole t f (groupLine0 t f g + i)

/-- The packet with the marker has been placed, and every earlier one of the frame. -/
def markerDone (f : Frame) : Bool :=
  match f.marker with
  | some q => (List.range (q + 1 - f.minSeq)).all fun i => f.seqs.contains (f.minSeq + i)
  | none => false

/-- How a group of a frame closes now, if it does: 1 complete, 2 by timeout, 3 by a new timestamp (R484). -/
def closeReason (t : Stream) (f : Frame) (g : Nat) : Option Nat :=
  if f.dropped then none
  else if f.closing != 0 then some (if groupWhole t f g then 1 else f.closing)
  else if groupWhole t f g || markerDone f then some 1 else none

/-- The first group that closes now and has not been written, with its reason. -/
def nextClose (t : Stream) (f : Frame) : Option (Nat × Nat) :=
  (List.range (groupTotal t)).findSome? fun g =>
    if g < f.groups || f.ready.any (fun e => e.1 == g) then none else (closeReason t f g).map fun r => (g, r)

/-- A group that has closed, or that closes now that all its lines or packets have come, takes nothing more. -/
def groupClosed (t : Stream) (f : Frame) (g : Nat) : Bool :=
  decide (g < f.groups) || f.ready.any (fun e => e.1 == g) || f.wrote.any (fun e => e.1 == g) || groupWhole t f g

/-! ## Opening and closing (R481) -/

/-- Lanes that wait for an entry of a stream. -/
def streamFire (s : State) (i : Nat) (v : W32) : State :=
  (List.range 256).foldl (fun s core =>
    ((s.core core).ports.zipIdx.filter fun p => p.1.kind == 1 && p.1.queue % 256 == i).foldl (fun s p => portFire s core p.2 v) s) s

/-- A closed stream without frames closes its queue. -/
def shutQueue (s : State) (i : Nat) : State :=
  let t := s.stream i
  if t.state != 1 && t.frames.isEmpty && !t.shut then streamFire (s.setStream i fun t => { t with shut := true }) i 0 else s

def execSctlOpen (stream : Nat) (s : State) : Host.Outcome State Fault Refusal :=
  let t := s.stream stream
  if t.state != 0 || !t.shut then .next s
  else match lookAt s t.desc 64 with
    | .missing pa => .next (askLine s 0 .front s.latest pa false)
    | .bad pa =>
      let s := if isOwn s pa && lineBad s (localOf pa) 64 then noteUncorrectable s (localOf pa) else clearFailed s .front [pa]
      .next (s.setStream stream fun t => { t with state := 2, overrun := 0, timeout := 0, late := 0, bad := 0 })
    | .here bs =>
      let o : Stream := { Stream.reset with desc := t.desc, words := words64 bs, entries := t.entries, held := t.held }
      let good := t.desc % 64 == 0 && descriptorOk o
      .next (s.setStream stream fun _ => if good then { o with state := 1, shut := false } else { o with state := 2 })

def execSctlClose (stream : Nat) (s : State) : Host.Outcome State Fault Refusal :=
  let t := s.stream stream
  let frames := (t.frames.filter fun f => !f.dropped).map fun (f : Frame) => if f.closing = 0 then { f with closing := 2 } else f
  .next (shutQueue (s.setStream stream fun t => { t with state := 0, frames := frames }) stream)

/-! ## Packets (R482–R484) -/

/-- The stream is open, and the packet is sent to it: destination, source, port. -/
def forStream (t : Stream) (p : StreamPacket) : Bool :=
  let w := wordAt t.words
  t.state == 1 && fld (w 1) 31 0 == p.dstIp.toNat && fld (w 1) 47 32 == p.udp.toNat &&
  (fld (w 2) 31 0 == 0 || fld (w 2) 31 0 == p.srcIp.toNat) && bitOf (fld (w 0) 23 20) p.port

/-- The packet is refused: payload type, header, interlaced. -/
def packetBad (t : Stream) (p : StreamPacket) : Bool :=
  fld (wordAt t.words 0) 31 24 != p.pt.toNat ||
  (match p.essence, streamKind t with
   | .video rows, 0 => rows.any fun r => r.2.2.1 || decide (height t ≤ r.1) || decide (videoLineBytes t < r.2.1 + r.2.2.2.length)
   | .audio _, 1 => false
   | .ancillary _, 2 => false
   | _, _ => true)

/-- Number of the audio group a sequence number falls in. -/
def audioIndex (t : Stream) (seq : Nat) : Nat := (seq - t.base.getD seq) / grp t

/-- The name by which packets find their frame: the timestamp, or the audio group. -/
def frameName (t : Stream) (p : StreamPacket) : Nat := if streamKind t = 1 then audioIndex t p.seq else p.rtpTs.toNat
def Frame.name (t : Stream) (f : Frame) : Nat := if streamKind t = 1 then f.index else f.rtpTs.toNat

/-- The lowest free slot of a stream. -/
def freeStreamSlot (t : Stream) : Option Nat :=
  (List.range (slotCount t)).find? fun k =>
    !(t.frames.any fun f => f.slot == k && !f.dropped) && !(t.held.any fun h => h.1 == k && h.2 != 0)

/-- PTP time (R480): the stamp of what arrives now. -/
def ptpNow (s : State) : Nat := (s.regs.devtime + s.regs.ptpoff.toNat) % 2 ^ 64

/-- More names are closed. One that lies 2^30 or more from the latest, counted modulo 2^32, has come round and may name a new frame. -/
def closeNames (names old : List Nat) : List Nat :=
  names.foldl (fun l n => n :: l.filter fun c => decide ((n + 2 ^ 32 - c % 2 ^ 32) % 2 ^ 32 < 2 ^ 30) || decide ((c + 2 ^ 32 - n % 2 ^ 32) % 2 ^ 32 < 2 ^ 30)) old

/-- The first packet of a frame: it takes a slot, or the whole frame is dropped. -/
def startFrame (s : State) (t : Stream) (p : StreamPacket) : Stream :=
  let slot := freeStreamSlot t
  let now := ptpNow s
  let f : Frame := {
    slot := slot.getD 0, seq := t.count, index := if streamKind t = 1 then audioIndex t p.seq else 0, rtpTs := p.rtpTs
    first := now, last := now, lastClk := s.clk, minSeq := p.seq, seqs := [], marker := none, lines := []
    data := [], fill := 0, closing := 0, groups := 0, dropped := slot.isNone, wrote := none, ready := [] }
  let past := fun (g : Frame) => g.dropped && streamKind t != 1
  { t with
    count := t.count + 1
    closed := closeNames ((t.frames.filter past).map fun g => g.name t) t.closed
    overrun := if slot.isNone then min 65535 (t.overrun + 1) else t.overrun
    -- a new timestamp closes the frames before it; a dropped one is over
    frames := ((t.frames.filter fun g => !past g).map fun (g : Frame) =>
      if streamKind t != 1 && g.closing = 0 then { g with closing := 3 } else g) ++ [f] }

/-- What a packet adds to its frame: places in the slot with their bytes, lines with the bytes received, the next
place of ancillary data. -/
def essenceOf (t : Stream) (f : Frame) (p : StreamPacket) : List (Nat × List Byte) × List (Nat × Nat) × Nat :=
  match p.essence with
  | .video rows =>
    let rows := rows.filter fun r => !groupClosed t f (r.1 / groupSize t f)
    (rows.map fun r => (r.1 * stride t + r.2.1, r.2.2.2), rows.map fun r => (r.1, r.2.2.2.length), f.fill)
  | .audio bs =>
    let i := (p.seq - t.base.getD p.seq) % grp t
    ([(i * audioBytes t, bs.take (audioBytes t))], [(i, bs.length)], f.fill)
  | .ancillary bs =>
    let n := (bs.length + 3) / 4 * 4
    ([(f.fill, natToBytes 4 bs.length ++ bs ++ List.replicate (n - bs.length) 0)], [], f.fill + 4 + n)

/-- A line whose group is closed already takes nothing more. -/
def groupShut (t : Stream) (f : Frame) (p : StreamPacket) : Bool :=
  f.closing != 0 ||
  match p.essence with
  | .video rows => !rows.isEmpty && rows.all fun r => groupClosed t f (r.1 / groupSize t f)
  | _ => groupClosed t f 0

/-- A packet enters its frame. -/
def addPacket (s : State) (p : StreamPacket) (t : Stream) (f : Frame) : Frame :=
  let e := essenceOf t f p
  { f with
    last := ptpNow s, lastClk := s.clk, minSeq := min f.minSeq p.seq, seqs := f.seqs ++ [p.seq]
    marker := if p.marker then some p.seq else f.marker, lines := f.lines ++ e.2.1, data := f.data ++ e.1, fill := e.2.2 }

/-- One packet at one stream. -/
def takeStreamPacket (s : State) (p : StreamPacket) (t : Stream) : Stream :=
  if !forStream t p then t
  else if packetBad t p then { t with bad := (t.bad + 1) % 65536 }
  else
    let t := { t with base := some (t.base.getD p.seq) }
    let late := { t with late := (t.late + 1) % 65536 }
    if streamKind t = 1 && p.seq < t.base.getD 0 then late
    else if t.closed.contains (frameName t p) then late
    else
      let mine := fun (f : Frame) => f.name t == frameName t p
      let t := if t.frames.any mine then t else startFrame s t p
      match t.frames.find? mine with
      | none => t
      | some f =>
        if f.dropped then t
        else if f.seqs.contains p.seq || groupShut t f p then { t with late := (t.late + 1) % 65536 }
        else { t with frames := updWhere mine (addPacket s p t) t.frames }

/-- INGEST_PACKET. -/
def execIngestPacket (p : StreamPacket) (s : State) : Host.Outcome State Fault Refusal :=
  if !s.regs.featacc.getLsbD 0 then .next s else .next { s with streams := s.streams.map (takeStreamPacket s p) }

/-! ## Closure (R484, R485) -/

/-- Missing lines or packets of a group, as their places in it. -/
def missingIn (t : Stream) (f : Frame) (g : Nat) : List Nat :=
  if streamKind t = 2 then []
  else (List.range (groupLines t f g)).filter fun i => !lineWhole t f (groupLine0 t f g + i)

/-- Sequence numbers of an ancillary frame that did not come. -/
def seqGaps (f : Frame) : Nat := f.seqs.foldl max f.minSeq + 1 - f.minSeq - f.seqs.length

/-- VA of a slot's essence and of its record. -/
def slotVa (t : Stream) (k : Nat) : Nat := wordAt t.words 3 + k * slotBytes t
def recordVa (t : Stream) (k : Nat) : Nat := wordAt t.words 7 + 1024 * k

/-- The 128 bytes of a frame record. The length field of an audio record is not stated and free. -/
def frameRecord (s : State) (t : Stream) (i : Nat) (f : Frame) (g reason : Nat) : List Byte :=
  let kind := streamKind t
  let info := (if markerDone f && reason = 1 then 2 ^ 19 else 0) + (if reason = 3 then 2 ^ 18 else 0) + (if reason = 2 then 2 ^ 17 else 0) +
    (if reason = 1 then 2 ^ 16 else 0) + kind * 2 ^ 8 + i
  let lines := groupLines t f g
  let len := match kind with
    | 0 => lines * stride t
    | 1 => (Config.freeBits s.fresh (2 ^ 72)).toNat % 2 ^ 32
    | _ => min f.fill (slotBytes t)
  let ess := slotVa t f.slot + (if kind = 0 then groupLine0 t f g * stride t else 0)
  natToBytes 4 info ++ natToBytes 4 f.seq ++ natToBytes 4 f.rtpTs.toNat ++ natToBytes 4 lines ++ natToBytes 8 f.first ++
  natToBytes 8 f.last ++ natToBytes 8 ess ++ natToBytes 4 len ++ natToBytes 4 (groupLine0 t f g) ++
  natToBytes 4 (if kind = 2 then seqGaps f else (missingIn t f g).length) ++ natToBytes 4 0 ++
  natToBytes 8 (if kind = 2 then 0 else recordVa t f.slot + 128) ++ List.replicate 64 0

/-- The missing bitmap of a group. -/
def missingMap (t : Stream) (f : Frame) (g : Nat) : List Byte :=
  if streamKind t = 2 then []
  else
    let m := missingIn t f g
    (List.range ((groupLines t f g + 7) / 8)).map fun b =>
      BitVec.ofNat 8 (((List.range 8).filter fun k => m.contains (8 * b + k)).map fun k => 2 ^ k).sum

/-- The essence of a group as (address, bytes): what was received, and zeros for missing audio packets; nothing past
the slot. -/
def groupEssence (t : Stream) (f : Frame) (g : Nat) : List (Nat × List Byte) :=
  let mine : List (Nat × List Byte) := match streamKind t with
    | 0 => f.data.filter fun e => decide (e.1 / stride t / groupSize t f = g)
    | 1 => ((missingIn t f g).map fun i => (i * audioBytes t, List.replicate (audioBytes t) 0)) ++
        f.data.filter fun e => lineWhole t f (e.1 / max 1 (audioBytes t))
    | _ => f.data
  mine.map fun e => (slotVa t f.slot + e.1, e.2.take (slotBytes t - e.1))

/-- Pieces of writes inside lines of 128 bytes. -/
def pieces128 (w : Nat × List Byte) : List (Nat × List Byte) :=
  if w.2.isEmpty then []
  else (List.range ((w.1 + w.2.length - 1) / 128 + 1 - w.1 / 128)).map fun i =>
    let lo := max w.1 (128 * (w.1 / 128 + i))
    let hi := min (w.1 + w.2.length) (128 * (w.1 / 128 + i + 1))
    (lo, (w.2.drop (lo - w.1)).take (hi - lo))

/-- Writes checked before any is made: ready with their addresses, waiting, or faulting. -/
inductive IngestPlan where
  | ready (s : State) (ws : List (Nat × Nat × List Byte × Xlt))
  | wait (s : State)
  | fault (s : State) (cause : Cause) (va : Nat)

/-- The ingest engine of a stream, as a requester of its own. -/
def ingestWho (i : Nat) : ReqFor := .engine (2 ^ 21 + i)

def planWrites (i ctx : Nat) : List (Nat × List Byte) → State → IngestPlan
  | [], s => .ready s []
  | (va, bs) :: r, s =>
    match frontMark s 0 ctx va with
    | some m => .fault (clearFront s 0 ctx va) (causeOf m) va
    | none =>
      match translate s 0 none ctx va with
      | (s, .xnp) => .fault s .xnp va
      | (s, .walk) => .wait (askWalk s 0 ctx (va / 0x10000) false true)
      | (s, .ok x) =>
        if !permitted x.pte false 8 then .fault s .xperm va
        else if lineFailed s (ingestWho i) x.pa then .fault (clearFailed s (ingestWho i) [x.pa]) .engerr va
        else if isOwn s x.pa && lineBad s (localOf x.pa) bs.length then .fault (noteUncorrectable s (localOf x.pa)) .engerr va
        else if isOwn s x.pa && !lineHere s 0 s.latest x.pa true then .wait (askLine s 0 (ingestWho i) s.latest x.pa true)
        else match dirtyFor s 0 (ingestWho i) va x with
          | (s, .fail) => .fault s .engerr va
          | (s, .wait) => .wait s
          | (s, .ok) =>
            match planWrites i ctx r s with
            | .ready s ws => .ready s ((va, x.pa, bs, x) :: ws)
            | q => q

/-- One write of the ingest engine. -/
def ingestWrite (i ctx : Nat) (s : State) (w : Nat × Nat × List Byte × Xlt) : State :=
  if isOwn s w.2.1 then accWrite (touchBy s s.latest (localOf w.2.1) true).1 ctx (localOf w.2.1) w.2.2.1
  else postMsg s (ingestWho i) 2 (maskedWrite (mkMsg s 0 (ingestWho i) (nodeOf w.2.1) 0 s.latest w.2.1) w.2.1 w.2.2.1)

/-- A frame is over: its name is closed. -/
def endFrame (s : State) (i : Nat) (f : Frame) : State :=
  shutQueue (s.setStream i fun t => { t with
    frames := t.frames.filter fun g => g.seq != f.seq, closed := closeNames [f.name t] t.closed }) i

/-- The entry of a frame's next group is pushed; with the last group the frame is over. -/
def pushEntryOf (s : State) (i : Nat) (f : Frame) (ws : List W32) : State :=
  let t := s.stream i
  let held := match t.held.find? fun h => h.1 == f.slot with
    | some h => updWhere (fun x => x.1 == f.slot) (fun x => (x.1, h.2 + 1)) t.held
    | none => t.held ++ [(f.slot, 1)]
  let s := s.setStream i fun t => { t with
    entries := t.entries ++ [(f.slot, ws)], held := held
    frames := updWhere (fun g => g.seq == f.seq) (fun g => { g with groups := g.groups + 1, ready := g.ready.filter fun e => e.1 != f.groups }) t.frames }
  let s := streamFire s i 1
  if f.groups + 1 < groupTotal t then s else endFrame s i f

/-- Entries are pushed in line order: the next group's, where it has been written. -/
def pushReady (i seq : Nat) (s : State) (_ : Nat × List W32) : State :=
  match (s.stream i).frames.find? fun f => f.seq == seq with
  | some f => match f.ready.find? fun e => e.1 == f.groups with
    | some e => pushEntryOf s i f e.2
    | none => s
  | none => s

/-- A frame that could not be stored is dropped, and reported. -/
def dropFrame (s : State) (i : Nat) (f : Frame) (cause : Cause) (va : Nat) : State :=
  let ctx := streamCtx (s.stream i)
  let s := report s (some ctx) 0 none none { cause := causeCode cause, kind := 2, ctx := ctx, addr := va }
  endFrame (s.setStream i fun t => { t with overrun := min 65535 (t.overrun + 1) }) i f

/-- A write of the stream, or a D bit that it needs, has failed at another home (R446). -/
def ingestFailed (s : State) (i : Nat) : Bool := s.failedPa.any fun e => e.1 == whoKey (ingestWho i)
def clearIngest (s : State) (i : Nat) : State := { s with failedPa := s.failedPa.filter fun e => e.1 != whoKey (ingestWho i) }

/-- A group of a frame closes: its essence, record and bitmap are written, and once every write is performed its
entry arrives (R290). A fault drops the frame. -/
def closeGroup (s : State) (i : Nat) (f : Frame) : State :=
  let t := s.stream i
  match f.wrote with
  | some e =>
    if tabGet 0 s.acks (whoKey (ingestWho i)) != 0 then s
    else if ingestFailed s i then dropFrame (clearIngest s i) i f .engerr (slotVa t f.slot)
    else
      let s := s.setStream i fun t => { t with
        frames := updWhere (fun g => g.seq == f.seq) (fun g => { g with wrote := none, ready := g.ready ++ [e] }) t.frames }
      (f.ready ++ [e]).foldl (pushReady i f.seq) s
  | none =>
    match nextClose t f with
    | none => s
    | some (g, reason) =>
      let s := { s with fresh := s.fresh + 1 }
      let record := frameRecord s t i f g reason
      let writes := (groupEssence t f g ++
        [(recordVa t f.slot + 128, missingMap t f g), (recordVa t f.slot, record)]).flatMap pieces128
      match planWrites i (streamCtx t) writes s with
      | .wait s => s
      | .fault s cause va => dropFrame s i f cause va
      | .ready s ws =>
        let s := ws.foldl (ingestWrite i (streamCtx t)) s
        let words := (List.range 32).map fun k => BitVec.ofNat 32 (bytesToNat ((record.drop (4 * k)).take 4))
        s.setStream i fun t => { t with
          timeout := if f.closing = 2 && f.groups + f.ready.length + 1 = groupTotal t then (t.timeout + 1) % 65536 else t.timeout
          frames := updWhere (fun g => g.seq == f.seq) (fun x => { x with wrote := some (g, words) }) t.frames }

def frameAt (s : State) (stream slot : Nat) : Option Frame :=
  (s.stream stream).frames.find? fun f => f.slot == slot && !f.dropped

/-- FRAME_CLOSE. -/
def execFrameClose (stream slot : Nat) (s : State) : Host.Outcome State Fault Refusal :=
  match frameAt s stream slot with
  | some f => .next (closeGroup s stream f)
  | none => .next s

/-- The frame has had no packet for TO µs. -/
def frameLate (s : State) (t : Stream) (f : Frame) : Bool :=
  !f.dropped && f.closing == 0 && decide (f.lastClk + timeoutClk t ≤ s.clk)

/-- FRAME_TIMEOUT. -/
def execFrameTimeout (stream slot : Nat) (s : State) : Host.Outcome State Fault Refusal :=
  match frameAt s stream slot with
  | some f =>
    if !frameLate s (s.stream stream) f then .next s
    else .next (s.setStream stream fun t => { t with
      frames := updWhere (fun g => g.seq == f.seq) (fun g => { g with closing := 2 }) t.frames })
  | none => .next s

end Sys2Proof.Machine
end

