-- ==== Sys2Proof/Machine/Device.lean ====
section
/-! DEFINITION. The module as a device (R461, R480, R486–R496): reset, the boot phases, power, the control node's port. -/

namespace Sys2Proof.Machine

/-! ## Reset (R488) -/

/-- The staging area: the first 16 MiB of stack 0. -/
def stagingBytes : Nat := 0x1000000

/-- A module reset: fuses keep their values, the outside keeps its own, `keep` says which memory stays. -/
def moduleReset (s : State) (keep : Bool) : State :=
  let r := s.regs
  { State.reset with
    tick := s.tick
    fresh := s.fresh
    nextId := s.nextId
    inputs := s.inputs
    mem := if keep then s.mem.filter fun c => decide (c.1 < stagingBytes) else []
    poisoned := if keep then s.poisoned.filter fun l => decide (l < stagingBytes / 128) else []
    bersy := s.bersy
    interrupts := s.interrupts
    answers := s.answers
    flash := s.flash
    regs := { Regs.reset with
      step := r.step, grade := r.grade, serial := r.serial, enabled := r.enabled, svnFuse := r.svnFuse } }

/-- MRESET: any other value is ignored, and so is a write while the port refuses it (R490). -/
def execMreset (value : W64) (s : State) : Host.Outcome State Fault Refusal :=
  if value.toNat = 0x0d145e7a * 2 ^ 32 + 1 && (accepting s || s.regs.phase == .rom || s.regs.phase == .recovery) then .next (moduleReset s true) else .next s

def execPowerOnReset (s : State) : Host.Outcome State Fault Refusal := .next (moduleReset s false)

/-- THERMAL_TRIP at 110 °C: work and memory are lost; the management registers stay. -/
def execThermalTrip (s : State) : Host.Outcome State Fault Refusal :=
  if s.regs.tj < 1760 then .next s
  else
    let t := moduleReset s false
    .next { t with
      interrupts := t.interrupts + 1
      image := s.image
      tcm := s.tcm
      regs := { t.regs with
        phase := .recovery, bootError := 5, fwver := s.regs.fwver, tj := s.regs.tj, pwr := s.regs.pwr, tin := s.regs.tin } }

/-! ## Boot (R489–R491) -/

/-- BOOTSTAT changes, and the control node is told (R488). -/
def setPhase (s : State) (p : Phase) (err : Nat) : State :=
  { s with interrupts := s.interrupts + 1, regs := { s.regs with phase := p, bootError := err } }

/-- A field of an image's header, whose fields lie one after another (log entry 143): magic, length of the code, FWVER, SVN, COMMIT. -/
def imageField (img : List Byte) (at_ n : Nat) : Nat := bytesToNat ((img.drop at_).take n)
def imageLength (img : List Byte) : Nat := imageField img 4 4

/-- The image that begins in a memory of bytes: its header names it, and its code fits the 256 KiB memory. Header, code, and at most
1,280 bytes of signature (R491). -/
def imageIn (bytes : Nat → List Byte) : Option (List Byte) :=
  let head := bytes 64
  if imageField head 0 4 = 0x53464c44 && imageLength head ≤ 0x40000 then some (bytes (64 + imageLength head + 1280)) else none

/-- What the ROM reads: the image of the staging area, or else, `staged` being false, that of the flash (R489). -/
def bootImage (s : State) (staged : Bool) : Option (List Byte) :=
  match imageIn (readBytes s 0) with
  | some img => if staged then some img else none
  | none => if staged then none else imageIn fun n => s.flash.take n

/-- ROM: the image is read. -/
def execBootRomPhase (staged : Bool) (s : State) : Host.Outcome State Fault Refusal :=
  if s.regs.phase != .rom then .next s
  else match bootImage s staged with
    | some img => .next { setPhase s .verify 0 with image := img }
    | none => .next s

/-- What the ROM's check answers of the image's signature over its header and code. -/
def signatureOk (s : State) : Bool :=
  let n := 64 + imageLength s.image
  Config.vendorAccepts (s.image.take n) (s.image.drop n)

/-- VERIFY: the signature, whose check answers v, then the security version; the code goes into its memory. -/
def execVerifyPhase (v : Bool) (s : State) : Host.Outcome State Fault Refusal :=
  let n := 64 + imageLength s.image
  let svn := imageField s.image 12 1
  if s.regs.phase != .verify || v != signatureOk s then .next s
  else if !v then .next (setPhase s .recovery 1)
  else if svn < s.regs.svnFuse.toNat then .next (setPhase s .recovery 2)
  else
    let s := setPhase s .hbminit 0
    .next { s with
      imageSvn := BitVec.ofNat 8 svn, imageCommit := imageField s.image 13 1 != 0, tcm := (s.image.take n).drop 64
      regs := { s.regs with fwver := BitVec.ofNat 32 (imageField s.image 8 4) } }

/-- HBMINIT: every HBM line is zero, with brass bits 0. -/
def execHbminitPhase (ok : Bool) (s : State) : Host.Outcome State Fault Refusal :=
  if s.regs.phase != .hbminit then .next s
  else if !ok then .next (setPhase s .recovery 3)
  else
    let s := setMaint (setPhase s .selftest 0) true
    .next { s with
      mem := s.mem.filter fun c => decide (0x10000000000 ≤ c.1), brass := [], stale := []
      poisoned := s.poisoned.filter fun l => decide (0x10000000000 / 128 ≤ l) }

/-- SELFTEST, also on leaving STANDBY (R496). -/
def execSelftestPhase (ok : Bool) (s : State) : Host.Outcome State Fault Refusal :=
  if s.regs.phase != .selftest then .next s
  else if !ok then .next (setPhase s .recovery 4)
  else
    let s := setMaint (setPhase s .ready 0) false
    .next { s with regs := { s.regs with warm := false } }

/-- READY: the fields marked fw take their values; a committed image of a higher version burns SVNFUSE (R491). -/
def execReadyPhase (v : FirmwareValues) (s : State) : Host.Outcome State Fault Refusal :=
  if s.regs.phase != .ready || s.regs.booted then .next s
  else
    let fuse := if s.imageCommit && s.regs.svnFuse.toNat < s.imageSvn.toNat then s.imageSvn else s.regs.svnFuse
    let dies := s.regs.dies.zipIdx.map fun (e : DieRegs × Nat) =>
      { e.1 with poolcfg := BitVec.ofNat 64 ((v.hbase.getD e.2 0#20).toNat * 2 ^ 24 + e.1.poolcfg.toNat % 2 ^ 24) }
    .next { s with
      node := v.node.toNat
      regs := { s.regs with
        booted := true, svnFuse := fuse, dies := dies, featpub := v.features &&& 0xf, 
        qdtbase := BitVec.ofNat 64 (v.qdtbase.toNat % 2 ^ 54), ctxbase := BitVec.ofNat 64 (v.ctxbase.toNat % 2 ^ 54)
        fwfq := v.fwfq, jbase := v.jbase } }

/-! ## Power (R493–R496) -/

/-- THROTTLE: the sensors' values; issue is withheld above the limit or from 100 °C on, and at 110 °C the part trips at once
(R495). -/
def execThrottle (pwr tj tin : BitVec 16) (s : State) : Host.Outcome State Fault Refusal :=
  .next { s with
    due := if 1760 ≤ tj.toNat then .thermalTrip :: s.due else s.due
    regs := reThrottle s { s.regs with pwr := pwr.toNat, tj := tj.toNat, tin := tin.toNat } }

/-- A core holds a resident gang or a runnable record. -/
def coreBusy (s : State) (core : Nat) : Bool :=
  s.gangs.any (fun g => g.core == core) || s.recs.any (fun m => m.core == core && m.runnable) || (gangNext s core).isSome

/-- CLOCK_GATE: no work for 10 µs. -/
def execClockGate (core : Nat) (s : State) : Host.Outcome State Fault Refusal :=
  if coreBusy s core || s.clk < (s.core core).idle + 8500 then .next s
  else .next (s.setCore core fun k => { k with gated := true })

/-- CORE_WAKE: work has reached a gated core. -/
def execCoreWake (core : Nat) (s : State) : Host.Outcome State Fault Refusal :=
  if !(s.core core).gated || s.regs.standby then .next s
  else .next (s.setCore core fun k => { k with gated := false, idle := s.clk })

/-! ## The Bersy port (R461, R462, R490) -/

/-- Registers of device operation: management and power. -/
def ownChapter (la : Nat) : Bool :=
  0xc0000000000 ≤ la && la < 0xc0000000040 || 0xc00000f0000 ≤ la && la < 0xc00000f0010

/-- A read of the control node is let through, and a write. -/
def readOpen (s : State) (la : Nat) : Bool :=
  if accepting s then !s.regs.standby || decide (0xc0000000000 ≤ la) else ownChapter la
def writeOpen (s : State) (la n : Nat) : Bool :=
  if accepting s then !s.regs.standby || decide (0xc0000000000 ≤ la)
  else (s.regs.phase == .rom || s.regs.phase == .recovery) && (la + n ≤ stagingBytes || la == 0xc0000000038)

/-- Lines of this module that an access of the control node needs and another module owns. -/
def bersyMissing (s : State) (la n : Nat) : Option Nat :=
  (linesOf la n).find? fun l => (placeOf s l).region == .hbm && !lineHere s 0 0 (ownPa s l) true && !lineFailed s .front (ownPa s l)

/-- BERSY_ACCESS: one access of up to 8 bytes. A refused read returns 0, a refused write has no effect. -/
def execBersyAccess (a : BersyAccess) (s : State) : Host.Outcome State Fault Refusal :=
  if s.bersy.all (fun up => !up) then .next s
  else match a with
    | .read la size =>
      let n := min size 8
      let answer := fun (s : State) (v : Nat) => Host.Outcome.next { s with answers := s.answers ++ [BitVec.ofNat 64 v] }
      if !readOpen s la then answer s 0
      else match bersyMissing s la n with
        | some l => .next (askLine s 0 .front s.latest (ownPa s l) true)
        | none =>
          if lineBad s la n then answer (noteUncorrectable s la) 0
          else answer (touchBy s s.latest la false).1 (readNat s la n)
    | .write la size value =>
      let n := min size 8
      if !writeOpen s la n then .next s
      else match bersyMissing s la n with
        | some l => .next (askLine s 0 .front s.latest (ownPa s l) true)
        | none =>
          let bs := natToBytes n value.toNat
          if (placeOf s la).region = .dev then .next (deviceWrite s .controlNode la bs)
          else if lineBad s la n then .next (noteUncorrectable s la)
          else .next (writeBytes (touchBy s s.latest la true).1 la bs)

/-- BERSY_LANE_FAIL: with both lanes gone, what the control node had pending is discarded and a LOST entry written. -/
def execBersyLaneFail (lane : Nat) (s : State) : Host.Outcome State Fault Refusal :=
  let s := { s with bersy := updAt lane (fun _ => false) s.bersy }
  if s.bersy.any id then .next s
  else
    let left := s.inputs.filter fun i => match i with | .bersyAccess _ => false | _ => true
    .next (report { s with inputs := left } none 0 none none { cause := 0, kind := 6 })

/-- PTP_EVENT_MESSAGE: its time stamp goes to firmware, which alone sets OFF and TRIM (R480). -/
def execPtpEventMessage (_port : Nat) (s : State) : Host.Outcome State Fault Refusal := .next s

end Sys2Proof.Machine
end

