-- ==== Sys2Proof/Machine/Expand.lean ====
section
/-! DEFINITION. The instructions of the expand unit (R185–R198, R239–R243). -/

namespace Sys2Proof.Machine

/-! ## Owners and items -/

/-- The owner of flattened index f (R188). -/
def Expansion.ownerOf (e : Expansion) (f : Nat) : Nat :=
  (e.owners.findIdx? fun o => decide (o.pre ≤ f) && decide (f < o.pre + o.len)).getD 0

/-- The registers of a lane dealt index f (R189). -/
def Expansion.deal (e : Expansion) (f : Nat) (t : Lane) : Lane :=
  let w := fun (v : Nat) => BitVec.ofNat 32 v
  if f < e.total then
    let o := e.ownerOf f
    let r := e.owners.getD o ⟨0, 0, 0, 0, false, 0, 0⟩
    { t with e0 := w o, e1 := w (f - r.pre), e2 := w (r.start + (f - r.pre)), e3 := w f, xbound := true, xitem := true, xgave := false }
  else
    { t with e0 := w 0xffffffff, e1 := 0, e2 := 0, e3 := w (if e.group then 0xffffffff else f), xbound := true,
             xitem := false, xgave := false }

/-- A lane leaves its binding. -/
def Lane.unbind (t : Lane) : Lane := { t with e0 := 0, e1 := 0, e2 := 0, e3 := 0, xbound := false, xitem := false, xgave := false }

/-- Bytes of a result. -/
def Expansion.resBytes (e : Expansion) : Nat := typeBytes e.type

/-- The identity of the reduction (R190). -/
def Expansion.identity (e : Expansion) : Nat := redIdentity (e.op - 1) e.type

/-- An owner before any item (R195): FADD's accumulator is 0, any other holds the identity. DESIGN CHOICE (log entry 150):
R195 does not say what the accumulator of an integer owner holds before its first item. -/
def newOwner (op type start len pre : Nat) : Owner :=
  ⟨start, len, pre, 0, false, 0, if op = 0 || op = 7 then 0 else ((redIdentity (op - 1) type : Nat) : Int)⟩

/-- A finite F32 value in units of 2^−149. -/
def unitsF32 (v : Val) : Int :=
  match v with
  | .fin n m e => scaledInt n m e (-149)
  | _ => 0

/-- FADD's accumulator takes a value (R191). A NaN that comes of +Inf with −Inf leaves 1 in the accumulator (log
entry 16). DESIGN CHOICE (log entry 128): R191 does not say whether an owner that receives a NaN and also both +Inf and −Inf
raises NV for the infinities; a NaN contribution leaves no such mark, whatever the order of arrival. -/
def Owner.addF (o : Owner) (v : Nat) : Owner :=
  let x := unpackF (fmtOf 10) v
  let z := (o.done == 0 || o.zsign) && x == .zero true
  match x with
  | .nan _ => { o with cls := 3, acc := 0, zsign := z }
  | .inf n =>
    if o.cls = 3 then { o with zsign := z }
    else if o.cls = 0 || o.cls = (if n then 2 else 1) then { o with cls := if n then 2 else 1, zsign := z }
    else { o with cls := 3, acc := 1, zsign := z }
  | x => if o.cls = 3 then { o with zsign := z } else { o with acc := o.acc + unitsF32 x, zsign := z }

/-- An owner takes one item's value (R191). DESIGN CHOICE (log entry 150): a 32-bit integer accumulator, a signed one too, is
zero-extended to the 64 bits that R195 gives it in the save area. -/
def Owner.take (op type : Nat) (o : Owner) (v : Nat) : Owner :=
  let o' := if op = 0 then o
    else if op = 7 then o.addF v
    else
      let vs := if o.done = 0 then [v] else [o.acc.toNat, v]
      { o with acc := (((combineSet (op - 1) type .rn false vs).1 : Nat) : Int) }
  { o' with done := o.done + 1 }

/-- The result of an owner with the flags of forming it (R192). -/
def Owner.result (op type : Nat) (o : Owner) : Nat × Flags :=
  if op = 7 then
    let f := fmtOf 10
    match o.cls with
    | 1 => (infCode f false, 0)
    | 2 => (infCode f true, 0)
    | 3 => (canonNan f, if o.acc = 1 then fNV else 0)
    | _ => if o.acc = 0 then (signBit f o.zsign, 0) else deliver f .rn false (.num (o.acc < 0) o.acc.natAbs (-149) false)
  else (o.acc.toNat % 2 ^ typeBits type, 0)

/-- One item that an instruction contributes or passes: its lane, its expansion, its owner and its value. -/
structure Item where
  x : Slice
  lane : Nat
  save : Nat
  own : Nat
  val : Nat
  deriving Repr

/-- The bound expansion of a slice in a slot of its core. -/
def boundTo (s : State) (core : Nat) (x : Slice) : Option Expansion :=
  match x.xsave with
  | some a => (expAt s core a).map fun e => e.2
  | none => none

/-- The item of a lane: its owner is in e0. -/
def itemOf (x : Slice) (l save v : Nat) : Item := ⟨x, l, save, (x.lane l).e0.toNat, v⟩

/-- The completing items: those that raise DONE of their owner to LEN, in THREADIX order (R192). -/
def completing (s : State) (core : Nat) (items : List Item) : List Item :=
  (items.zipIdx.filter fun q =>
    let i := q.1
    match expAt s core i.save with
    | some (_, e) =>
      let o := e.owners.getD i.own ⟨0, 0, 0, 0, false, 0, 0⟩
      let before := (items.take (q.2 + 1)).filter fun j => j.save == i.save && j.own == i.own
      e.op != 0 && o.done + before.length == o.len
    | none => false).map fun q => q.1

/-- The store of a completed owner. -/
def resultWant (s : State) (core : Nat) (i : Item) : Option Want :=
  (expAt s core i.save).map fun q =>
    { x := i.x, lane := i.lane, va := q.2.rb + i.own * q.2.resBytes, bytes := q.2.resBytes, align := q.2.resBytes, need := 8 }

/-- An item enters its owner's accumulator. -/
def takeItem (core : Nat) (s : State) (i : Item) : State :=
  setExp s core i.save fun e => { e with owners := updAt i.own (fun o => o.take e.op e.type i.val) e.owners }

/-- The result of an item's owner once the items up to it are taken. -/
def resultAt (s : State) (core : Nat) (items : List Item) (i : Item) : Nat × Flags :=
  let upTo := items.takeWhile (fun j => !(j.x.pos == i.x.pos && j.lane == i.lane)) ++ [i]
  match expAt (upTo.foldl (takeItem core) s) core i.save with
  | some (_, e) => (e.owners.getD i.own ⟨0, 0, 0, 0, false, 0, 0⟩).result e.op e.type
  | none => (0, 0)

/-- Positions of the slices whose accesses fail at once. -/
def failingAt (s : State) (core : Nat) (as : List Acc) : List Nat :=
  distinct ((as.filter fun a => accState s core a == .failed).map fun a => a.pos)

/-- The stores that the completing ones among the items make. -/
def itemWants (c : Ctx) (items : List Item) : List Want :=
  (completing c.s c.g.core items).filterMap (resultWant c.s c.g.core)

/-- The result that a checked store takes, with the flags of forming it. -/
def itemResult (s : State) (c : Ctx) (items : List Item) (r : Want × Xlt) : Nat × Flags :=
  match (completing c.s c.g.core items).find? fun i => i.x.pos == r.1.x.pos && i.lane == r.1.lane with
  | some i => resultAt s c.g.core items i
  | none => (0, 0)

def itemStores (s : State) (c : Ctx) (items : List Item) (rs : List (Want × Xlt)) : List Acc :=
  rs.map fun r => accOf r.1 r.2 (.store (natToBytes r.1.bytes (itemResult s c items r).1))

/-- What follows the stores, made in state t: the items enter their accumulators and the flags of the results are
raised. -/
def itemsTaken (s t : State) (c : Ctx) (items : List Item) (rs : List (Want × Xlt)) : State :=
  raiseAll (items.foldl (takeItem c.g.core) t) c.g.core c.g.slot
    (rs.map fun r => (r.1.x.pos, r.1.lane, (itemResult s c items r).2))

/-- Take items after the check of the stores that they complete, and go on with the rest of the instruction for
the slices that did not fail (R192). -/
def withItems (c : Ctx) (items : List Item) (go : State → List Nat → State) : Body :=
  withAccess c.s c anyTarget (itemWants c items) fun s rs =>
    match withStores s c rs (fun s => makeAccesses s c false (itemStores s c items rs) []) with
    | .done t => .done (go (itemsTaken s t c items rs) (failingAt s c.g.core (itemStores s c items rs)))
    | b => b

/-! ## EXPB (R185, R186, R239) -/

/-- Addresses of the rows of a checked table. -/
def tableRows (rs : List (Want × Xlt)) : List Nat := rs.flatMap fun r => (List.range (r.1.bytes / 8)).map fun i => r.2.pa + 8 * i

/-- The row lies in the group's allocation. -/
def rowInGroup (s : State) (g : Gang) (pa : Nat) : Bool :=
  isOwn s pa && (let p := plainOf s pa
    p.region == .scratch && p.core == g.core && decide (p.off + 8 ≤ groupScratch s g.group))

/-- Owners from (start, length) pairs. -/
def ownersOf (op type : Nat) (ps : List (Nat × Nat)) : List Owner :=
  (ps.foldl (fun (a : List Owner × Nat) p => (a.1 ++ [newOwner op type p.1 p.2 a.2], a.2 + p.2)) ([], 0)).1

/-- Traps of slices already bound, beside those of `hits`. -/
def Ctx.alreadyBound (c : Ctx) (hits : List Hit) : List Hit :=
  hits ++ c.acting.filterMap fun e =>
    if e.1.xsave.isSome && hits.all (fun h => h.pos != e.1.pos) then some (hitAt e.1.pos (lowLane e.2) .resv) else none

/-- The lanes of gang scope are bound and get their first items. -/
def bindGang (c : Ctx) (e : Expansion) (s : State) : State :=
  let s := c.acting.foldl (fun s q => s.updSlice c.g.core c.g.slot q.1.pos fun x => { x with xsave := some e.save }) s
  c.lanes.zipIdx.foldl (fun s q => s.updLane c.g.core c.g.slot q.1.1.pos q.1.2 (e.deal q.2)) s

/-- The zero-length owners' places, in which the first lane stores their identity results. -/
def zeroWants (c : Ctx) (first : Slice × Nat) (rb : Nat) (owners : List Owner) : List Want :=
  let n := typeBytes c.f.type.toNat
  (if c.f.minor.toNat = 0 then [] else (owners.zipIdx.filter fun q => q.1.len == 0).map fun q => q.2).map fun o =>
    { x := first.1, lane := first.2, va := rb + o * n, bytes := n, align := n, need := 8 }

def zeroStores (c : Ctx) (rs : List (Want × Xlt)) : List Acc :=
  rs.map fun r => accOf r.1 r.2 (.store (natToBytes (typeBytes c.f.type.toNat) (redIdentity (c.f.minor.toNat - 1) c.f.type.toNat)))

/-- The items of all owners. -/
def totalOf (owners : List Owner) : Nat := (owners.map fun o => o.len).foldl (· + ·) 0

/-- The new expansion, its save area at a. -/
def newExpansion (c : Ctx) (s : State) (grp : Bool) (rb a : Nat) (owners : List Owner) : Expansion :=
  { save := ownPa s a, n := owners.length, w := if grp then 0 else c.lanes.length, type := c.f.type.toNat, op := c.f.minor.toNat,
    gidx := if grp then c.f.aux.toNat % 4 else 0, core := c.g.core, group := grp, rb := rb, total := totalOf owners, cursor := 0,
    bound := if grp then 0 else c.acting.length, owners := owners }

/-- The expansion is opened in state s: the save area is taken and written; at gang scope the lanes are bound and dealt
to, those of the slices named in `bad` without a result. -/
def openedExp (c : Ctx) (s : State) (grp : Bool) (rb a : Nat) (owners : List Owner) (bad : List Nat) : State :=
  let core := c.g.core
  let e := newExpansion c s grp rb a owners
  let s := poolPut (poolTake s a (saveSize owners.length) c.g.ctx) a e.bytes
  let s := placeExp s core e
  if grp then s.setCore core fun q => { q with gexp := updAt (c.f.aux.toNat % 4) (fun _ => some e.save) q.gexp }
  else
    putAll (bindGang c e s) core c.g.slot ((c.lanes.zipIdx.filter fun q => !bad.contains q.1.1.pos).map fun q =>
      c.put q.1.1 q.1.2 (b2n (q.2 < totalOf owners)))

/-- Open an expansion over its owners, after the checks: the identity results of the zero-length owners are
stored, the save area is taken, the lanes of gang scope are dealt to. -/
def openExp (c : Ctx) (s : State) (first : Slice × Nat) (grp : Bool) (rb : Nat) (owners : List Owner) : Body :=
  let core := c.g.core
  withAccess s c anyTarget (zeroWants c first rb owners) fun s rs =>
    let one := fun cause => [hitAt first.1.pos first.2 cause]
    let taken := ((s.core core).gexp.getD (c.f.aux.toNat % 4) none).isSome
    let bound := c.alreadyBound []
    let hits := if grp && (c.isTask || taken) && bound.all (fun h => h.pos != first.1.pos) then one .resv ++ bound else bound
    if !hits.isEmpty then .trap s hits
    else match (if totalOf owners ≤ 0xffffffff && expSlotFree s core then poolAlloc s core (saveSize owners.length) else none) with
      | none => .trap s (one .expovf)
      | some a =>
        match withStores s c rs (fun s => makeAccesses s c false (zeroStores c rs) []) with
        | .done t => .done (openedExp c t grp rb a owners (failingAt s core (zeroStores c rs)))
        | b => b

/-- Where EXPB stores results: nowhere for operation 0. -/
def Ctx.resultBase (c : Ctx) (e : Slice × Nat) : Nat := if c.f.minor.toNat = 0 then 0 else c.src e.1 e.2 c.f.c.toNat 2 8

/-- The pieces of a group-scope table. -/
def tableWants (c : Ctx) (e : Slice × Nat) : List Want :=
  let a := c.opnd e.1 e.2 .a
  (pageParts a (8 * min (c.opnd e.1 e.2 .b) 1025)).map fun q =>
    { x := e.1, lane := e.2, va := a + q.1, bytes := q.2, align := 1, need := 4 }

/-- The owners that a checked table names, and those that the lanes of a gang name. -/
def tableOwners (c : Ctx) (s : State) (rs : List (Want × Xlt)) : List Owner :=
  ownersOf c.f.minor.toNat c.f.type.toNat ((tableRows rs).map fun pa =>
    (bytesToNat (rawBytes s (localOf pa) 4), bytesToNat (rawBytes s (localOf pa + 4) 4)))
def laneOwners (c : Ctx) : List Owner :=
  ownersOf c.f.minor.toNat c.f.type.toNat (c.lanes.map fun q => (c.opnd q.1 q.2 .a, c.opnd q.1 q.2 .b))

def execExpb (f : Fields) (s : State) : Host.Outcome State Fault Refusal :=
  issue (.expb f) s fun c =>
    match c.first with
    | none => .done c.s
    | some e =>
      let rb := c.resultBase e
      let alignTrap := fun a => Body.trap c.s (c.alreadyBound [hitAt e.1.pos e.2 .align a])
      if c.f.minor.toNat != 0 && rb % typeBytes c.f.type.toNat != 0 then alignTrap rb
      else if c.f.aux.getLsbD 2 then
        let a := c.opnd e.1 e.2 .a
        let n := c.opnd e.1 e.2 .b
        if a % 8 != 0 then alignTrap a
        else
          withAccess c.s c anyTarget (tableWants c e) fun s rs =>
            if n = 0 || 1024 < n || !(tableRows rs).all (rowInGroup s c.g) then
              .trap s (c.alreadyBound [hitAt e.1.pos e.2 .resv])
            else if c.mustWait || portBusy s c.g.core (tableRows rs) then .stall s
            else openExp c s e true rb (tableOwners c s rs)
      else openExp c c.s e false rb (laneOwners c)

/-! ## EXPN, EXPE, SEGR (R187–R192, R240–R242) -/

/-- The items that the guard-true lanes hold and have not contributed: they pass with the identity (R191). -/
def passedItems (c : Ctx) : List Item :=
  c.lanes.filterMap fun e =>
    let t := e.1.lane e.2
    match boundTo c.s c.g.core e.1 with
    | some x => if t.xbound && t.xitem && !t.xgave then some (itemOf e.1 e.2 x.save x.identity) else none
    | none => none

/-- A lane that no longer holds an item stays exhausted (R189). -/
def Lane.exhausted (t : Lane) : Bool := t.xbound && !t.xitem

/-- The index a lane is dealt next: its own plus W, or the group's cursor. -/
def dealLane (c : Ctx) (s : State) (q : Slice × Nat) (save : Nat) : State :=
  let core := c.g.core
  match expAt s core save with
  | none => s
  | some (_, e) =>
    let t := q.1.lane q.2
    if t.exhausted then s
    else if e.group then
      let s := if e.cursor < e.total then setExp s core save fun e => { e with cursor := e.cursor + 1 } else s
      s.updLane core c.g.slot q.1.pos q.2 (e.deal e.cursor)
    else s.updLane core c.g.slot q.1.pos q.2 (e.deal (t.e3.toNat + e.w))

/-- The predicate of a lane after its deal. -/
def holdsItem (s : State) (g : Gang) (pos l : Nat) : Bool :=
  match s.gang g.core g.slot with
  | some g => match g.slice pos with | some x => (x.lane l).xitem | none => false
  | none => false

/-- Deal to every guard-true lane, `saveOf` giving its expansion, and write the predicates. -/
def dealAll (c : Ctx) (saveOf : Slice → Nat) (s : State) (bad : List Nat) : State :=
  let s := c.lanes.foldl (fun s q => dealLane c s q (saveOf q.1)) s
  putAll s c.g.core c.g.slot ((c.lanes.filter fun q => !bad.contains q.1.pos).map fun q =>
    c.put q.1 q.2 (b2n (holdsItem s c.g q.1.pos q.2)))

/-- A lane of a slice that is not bound. -/
def Ctx.loose (c : Ctx) : List (Slice × Nat × Cause × Nat) :=
  (c.lanes.filter fun e => !(e.1.lane e.2).xbound).map fun e => (e.1, e.2, Cause.resv, 0)

/-- EXPN of group index k: slices of the group bind to it at their first one. DESIGN CHOICE (log entry 129): neither R161 nor
R194 says what an unbound slice does whose expansion's state stands in its save area while no slot of the core is free; it
stalls, its gang resident. -/
def expnGroup (c : Ctx) (k : Nat) : Body :=
  let core := c.g.core
  match (if c.isTask then none else (c.s.core core).gexp.getD k none) with
  | none => trapLanes c.s (c.lanes.map fun e => (e.1, e.2, Cause.resv, 0))
  | some a =>
    let other := c.lanes.filter fun e => match e.1.xsave with | some b => b != a | none => false
    if !other.isEmpty then trapLanes c.s (other.map fun e => (e.1, e.2, Cause.resv, 0))
    else if (expAt c.s core a).isNone && !expSlotFree c.s core then .stall c.s
    else withItems c (passedItems c) fun s bad =>
      let s := if (expAt s core a).isNone then placeExp s core (loadExpansion s (c.g.core / 64) a) else s
      let fresh := c.acting.filter fun e => e.1.xsave.isNone
      let s := setExp s core a fun e => { e with bound := e.bound + fresh.length }
      let s := fresh.foldl (fun s e => s.updSlice core c.g.slot e.1.pos fun x => { x with xsave := some a }) s
      dealAll c (fun _ => a) s bad

def execExpn (f : Fields) (s : State) : Host.Outcome State Fault Refusal :=
  issue (.expn f) s fun c =>
    if c.lanes.isEmpty then .done c.s
    else if c.f.aux.getLsbD 2 then expnGroup c (c.f.aux.toNat % 4)
    else if !c.loose.isEmpty then trapLanes c.s c.loose
    else withItems c (passedItems c) (dealAll c fun x => x.xsave.getD 0)

/-- The guard-true lanes leave their bindings; a slice with no bound lane left releases its own. -/
def unbindAll (c : Ctx) (s : State) : State :=
  c.acting.foldl (fun s e =>
    let y := (lanesOf e.2).foldl (fun y l => y.updLane l Lane.unbind) e.1
    let freed := !(y.lanes.any fun t => t.xbound)
    let s := (lanesOf e.2).foldl (fun s l => s.updLane c.g.core c.g.slot e.1.pos l Lane.unbind) s
    match e.1.xsave with
    | some a =>
      if freed then expUnbind (s.updSlice c.g.core c.g.slot e.1.pos fun x => { x with xsave := none }) c.g.core a else s
    | none => s) s

def execExpe (f : Fields) (s : State) : Host.Outcome State Fault Refusal :=
  issue (.expe f) s fun c =>
    if !c.loose.isEmpty then trapLanes c.s c.loose
    else withItems c (passedItems c) fun s _ => unbindAll c s

/-- Lanes that may not contribute (R242). -/
def segrBad (c : Ctx) : List (Slice × Nat × Cause × Nat) :=
  (c.lanes.filter fun e =>
    let t := e.1.lane e.2
    match boundTo c.s c.g.core e.1 with
    | some x => !t.xbound || x.op == 0 || x.type != c.f.type.toNat || t.xitem && t.xgave
    | none => true).map fun e => (e.1, e.2, Cause.resv, 0)

def execSegr (f : Fields) (s : State) : Host.Outcome State Fault Refusal :=
  issue (.segr f) s fun c =>
    if !(segrBad c).isEmpty then trapLanes c.s (segrBad c)
    else
      let give := c.lanes.filter fun e => (e.1.lane e.2).xitem
      let v := fun (e : Slice × Nat) => c.opnd e.1 e.2 .a % 2 ^ c.w
      withItems c (give.map fun e => itemOf e.1 e.2 (e.1.xsave.getD 0) (v e)) fun s _ =>
        let s := give.foldl (fun s e => s.updLane c.g.core c.g.slot e.1.pos e.2 fun t => { t with xgave := true }) s
        raiseAll s c.g.core c.g.slot (give.map fun e =>
          (e.1.pos, e.2, if c.ty = 10 && (unpackF (fmtOf 10) (v e)).isSig then fNV else 0))

end Sys2Proof.Machine
end

