-- ==== Sys2Proof/Machine/Dispatch.lean ====
section
/-! DEFINITION. One arm per constructor of `Instr`: each calls the meaning of its instruction or step. -/

namespace Sys2Proof.Machine

def exec (i : Instr) (s : State) : Host.Outcome State Fault Refusal :=
  match i with
  | .clauseStart core slot sub => Sys2Proof.Machine.execClauseStart core slot sub s
  | .pairWord h1 h2 => Sys2Proof.Machine.execPairWord h1 h2 s
  | .vlResultWrite id => Sys2Proof.Machine.execVlResultWrite id s
  | .untrackedResultWrite id => Sys2Proof.Machine.execUntrackedResultWrite id s
  | .add f => Sys2Proof.Machine.execAdd f s
  | .sub f => Sys2Proof.Machine.execSub f s
  | .mul f => Sys2Proof.Machine.execMul f s
  | .mulh f => Sys2Proof.Machine.execMulh f s
  | .mad f => Sys2Proof.Machine.execMad f s
  | .madWide f => Sys2Proof.Machine.execMadWide f s
  | .div f => Sys2Proof.Machine.execDiv f s
  | .rem f => Sys2Proof.Machine.execRem f s
  | .min f => Sys2Proof.Machine.execMin f s
  | .max f => Sys2Proof.Machine.execMax f s
  | .abs f => Sys2Proof.Machine.execAbs f s
  | .neg f => Sys2Proof.Machine.execNeg f s
  | .dot4 f => Sys2Proof.Machine.execDot4 f s
  | .addc f => Sys2Proof.Machine.execAddc f s
  | .subb f => Sys2Proof.Machine.execSubb f s
  | .madc f => Sys2Proof.Machine.execMadc f s
  | .and f => Sys2Proof.Machine.execAnd f s
  | .or f => Sys2Proof.Machine.execOr f s
  | .xor f => Sys2Proof.Machine.execXor f s
  | .andn f => Sys2Proof.Machine.execAndn f s
  | .not f => Sys2Proof.Machine.execNot f s
  | .lut3 f => Sys2Proof.Machine.execLut3 f s
  | .shl f => Sys2Proof.Machine.execShl f s
  | .shr f => Sys2Proof.Machine.execShr f s
  | .sra f => Sys2Proof.Machine.execSra f s
  | .rot f => Sys2Proof.Machine.execRot f s
  | .fsh f => Sys2Proof.Machine.execFsh f s
  | .bfx f => Sys2Proof.Machine.execBfx f s
  | .bfi f => Sys2Proof.Machine.execBfi f s
  | .popc f => Sys2Proof.Machine.execPopc f s
  | .clz f => Sys2Proof.Machine.execClz f s
  | .ctz f => Sys2Proof.Machine.execCtz f s
  | .brev f => Sys2Proof.Machine.execBrev f s
  | .bsel f => Sys2Proof.Machine.execBsel f s
  | .mov f => Sys2Proof.Machine.execMov f s
  | .movi f => Sys2Proof.Machine.execMovi f s
  | .sel f => Sys2Proof.Machine.execSel f s
  | .cmp f => Sys2Proof.Machine.execCmp f s
  | .pset f => Sys2Proof.Machine.execPset f s
  | .lea f => Sys2Proof.Machine.execLea f s
  | .cvti f => Sys2Proof.Machine.execCvti f s
  | .ld f => Sys2Proof.Machine.execLd f s
  | .st f => Sys2Proof.Machine.execSt f s
  | .pref f => Sys2Proof.Machine.execPref f s
  | .fadd f => Sys2Proof.Machine.execFadd f s
  | .fsub f => Sys2Proof.Machine.execFsub f s
  | .fmul f => Sys2Proof.Machine.execFmul f s
  | .ffma f => Sys2Proof.Machine.execFfma f s
  | .fmin f => Sys2Proof.Machine.execFmin f s
  | .fmax f => Sys2Proof.Machine.execFmax f s
  | .fcmp f => Sys2Proof.Machine.execFcmp f s
  | .fclass f => Sys2Proof.Machine.execFclass f s
  | .frnd f => Sys2Proof.Machine.execFrnd f s
  | .fdiv f => Sys2Proof.Machine.execFdiv f s
  | .fsqrt f => Sys2Proof.Machine.execFsqrt f s
  | .frcp f => Sys2Proof.Machine.execFrcp f s
  | .frsq f => Sys2Proof.Machine.execFrsq f s
  | .fex2 f => Sys2Proof.Machine.execFex2 f s
  | .flg2 f => Sys2Proof.Machine.execFlg2 f s
  | .fsin f => Sys2Proof.Machine.execFsin f s
  | .fcos f => Sys2Proof.Machine.execFcos f s
  | .ftanh f => Sys2Proof.Machine.execFtanh f s
  | .hadd2 f => Sys2Proof.Machine.execHadd2 f s
  | .hmul2 f => Sys2Proof.Machine.execHmul2 f s
  | .hfma2 f => Sys2Proof.Machine.execHfma2 f s
  | .cvtf f => Sys2Proof.Machine.execCvtf f s
  | .cvtfi f => Sys2Proof.Machine.execCvtfi f s
  | .cvtif f => Sys2Proof.Machine.execCvtif f s
  | .fscale f => Sys2Proof.Machine.execFscale f s
  | .nop f => Sys2Proof.Machine.execNop f s
  | .bra f => Sys2Proof.Machine.execBra f s
  | .brx f => Sys2Proof.Machine.execBrx f s
  | .call f => Sys2Proof.Machine.execCall f s
  | .callx f => Sys2Proof.Machine.execCallx f s
  | .ret f => Sys2Proof.Machine.execRet f s
  | .exit f => Sys2Proof.Machine.execExit f s
  | .endThread f => Sys2Proof.Machine.execEndThread f s
  | .trap f => Sys2Proof.Machine.execTrap f s
  | .bpt f => Sys2Proof.Machine.execBpt f s
  | .yield f => Sys2Proof.Machine.execYield f s
  | .xlane f => Sys2Proof.Machine.execXlane f s
  | .pqry f => Sys2Proof.Machine.execPqry f s
  | .gred f => Sys2Proof.Machine.execGred f s
  | .scan f => Sys2Proof.Machine.execScan f s
  | .kgrp f => Sys2Proof.Machine.execKgrp f s
  | .lead f => Sys2Proof.Machine.execLead f s
  | .rcvJ f => Sys2Proof.Machine.execRcvJ f s
  | .rcvB f => Sys2Proof.Machine.execRcvB f s
  | .join f => Sys2Proof.Machine.execJoin f s
  | .brkj f => Sys2Proof.Machine.execBrkj f s
  | .regang f => Sys2Proof.Machine.execRegang f s
  | .cont f => Sys2Proof.Machine.execCont f s
  | .fwd f => Sys2Proof.Machine.execFwd f s
  | .spawn f => Sys2Proof.Machine.execSpawn f s
  | .spawnNb f => Sys2Proof.Machine.execSpawnNb f s
  | .bari f => Sys2Proof.Machine.execBari f s
  | .arrive f => Sys2Proof.Machine.execArrive f s
  | .arriveRlx f => Sys2Proof.Machine.execArriveRlx f s
  | .arriveRemote f => Sys2Proof.Machine.execArriveRemote f s
  | .bwait f => Sys2Proof.Machine.execBwait f s
  | .bwaitRemote f => Sys2Proof.Machine.execBwaitRemote f s
  | .expb f => Sys2Proof.Machine.execExpb f s
  | .expn f => Sys2Proof.Machine.execExpn f s
  | .expe f => Sys2Proof.Machine.execExpe f s
  | .segr f => Sys2Proof.Machine.execSegr f s
  | .ldfe f => Sys2Proof.Machine.execLdfe f s
  | .stfe f => Sys2Proof.Machine.execStfe f s
  | .fesetEmpty f => Sys2Proof.Machine.execFesetEmpty f s
  | .fesetFull f => Sys2Proof.Machine.execFesetFull f s
  | .atom f => Sys2Proof.Machine.execAtom f s
  | .red f => Sys2Proof.Machine.execRed f s
  | .cas f => Sys2Proof.Machine.execCas f s
  | .waitc f => Sys2Proof.Machine.execWaitc f s
  | .fence f => Sys2Proof.Machine.execFence f s
  | .fenceWc f => Sys2Proof.Machine.execFenceWc f s
  | .cmaintIinv f => Sys2Proof.Machine.execCmaintIinv f s
  | .cmaintWb f => Sys2Proof.Machine.execCmaintWb f s
  | .cmaintWbinv f => Sys2Proof.Machine.execCmaintWbinv f s
  | .cmaintMsset f => Sys2Proof.Machine.execCmaintMsset f s
  | .cmaintMsclr f => Sys2Proof.Machine.execCmaintMsclr f s
  | .cmaintRepair f => Sys2Proof.Machine.execCmaintRepair f s
  | .ldt f => Sys2Proof.Machine.execLdt f s
  | .qpush f => Sys2Proof.Machine.execQpush f s
  | .qwait f => Sys2Proof.Machine.execQwait f s
  | .qwaitNb f => Sys2Proof.Machine.execQwaitNb f s
  | .mxresX f => Sys2Proof.Machine.execMxresX f s
  | .mxresW f => Sys2Proof.Machine.execMxresW f s
  | .mxrel f => Sys2Proof.Machine.execMxrel f s
  | .mxfence f => Sys2Proof.Machine.execMxfence f s
  | .mxissue f => Sys2Proof.Machine.execMxissue f s
  | .mxdrain f => Sys2Proof.Machine.execMxdrain f s
  | .mxdrainRaw f => Sys2Proof.Machine.execMxdrainRaw f s
  | .mxdrainMx f => Sys2Proof.Machine.execMxdrainMx f s
  | .talloc f => Sys2Proof.Machine.execTalloc f s
  | .tfree f => Sys2Proof.Machine.execTfree f s
  | .qnt f => Sys2Proof.Machine.execQnt f s
  | .dqnt f => Sys2Proof.Machine.execDqnt f s
  | .cpy f => Sys2Proof.Machine.execCpy f s
  | .fetch f => Sys2Proof.Machine.execFetch f s
  | .ixwalk f => Sys2Proof.Machine.execIxwalk f s
  | .zopen f => Sys2Proof.Machine.execZopen f s
  | .zadv f => Sys2Proof.Machine.execZadv f s
  | .zadvSeek f => Sys2Proof.Machine.execZadvSeek f s
  | .zend f => Sys2Proof.Machine.execZend f s
  | .zclose f => Sys2Proof.Machine.execZclose f s
  | .zval f => Sys2Proof.Machine.execZval f s
  | .cpact f => Sys2Proof.Machine.execCpact f s
  | .cpfl f => Sys2Proof.Machine.execCpfl f s
  | .racqP f => Sys2Proof.Machine.execRacqP f s
  | .racqC f => Sys2Proof.Machine.execRacqC f s
  | .rrelP f => Sys2Proof.Machine.execRrelP f s
  | .rrelC f => Sys2Proof.Machine.execRrelC f s
  | .fwait f => Sys2Proof.Machine.execFwait f s
  | .ftest f => Sys2Proof.Machine.execFtest f s
  | .fcancel f => Sys2Proof.Machine.execFcancel f s
  | .rinit f => Sys2Proof.Machine.execRinit f s
  | .gets f => Sys2Proof.Machine.execGets f s
  | .sets f => Sys2Proof.Machine.execSets f s
  | .tretRetry f => Sys2Proof.Machine.execTretRetry f s
  | .tretSkip f => Sys2Proof.Machine.execTretSkip f s
  | .tretKill f => Sys2Proof.Machine.execTretKill f s
  | .snap f => Sys2Proof.Machine.execSnap f s
  | .udf f => Sys2Proof.Machine.execUdf f s
  | .snapshotLatch block => Sys2Proof.Machine.execSnapshotLatch block s
  | .trapDelivery core slot pos => Sys2Proof.Machine.execTrapDelivery core slot pos s
  | .completionStageTrap core slot pos => Sys2Proof.Machine.execCompletionStageTrap core slot pos s
  | .segmentEnd core slot pos => Sys2Proof.Machine.execSegmentEnd core slot pos s
  | .poolSpaceGrant core slot pos => Sys2Proof.Machine.execPoolSpaceGrant core slot pos s
  | .recordMove rid dest => Sys2Proof.Machine.execRecordMove rid dest s
  | .laneEventFire rid lane => Sys2Proof.Machine.execLaneEventFire rid lane s
  | .binDrain core bin => Sys2Proof.Machine.execBinDrain core bin s
  | .expSlotLoad core bin => Sys2Proof.Machine.execExpSlotLoad core bin s
  | .gangCreate core => Sys2Proof.Machine.execGangCreate core s
  | .agingStep who => Sys2Proof.Machine.execAgingStep who s
  | .balancerPeriod die => Sys2Proof.Machine.execBalancerPeriod die s
  | .taskSliceForm die ctx entry => Sys2Proof.Machine.execTaskSliceForm die ctx entry s
  | .taskAgeTimeout die ctx entry => Sys2Proof.Machine.execTaskAgeTimeout die ctx entry s
  | .taskqRoomPlace die => Sys2Proof.Machine.execTaskqRoomPlace die s
  | .launchHeadCheck queue => Sys2Proof.Machine.execLaunchHeadCheck queue s
  | .dependenceLatch lid dep => Sys2Proof.Machine.execDependenceLatch lid dep s
  | .launchComplete lid => Sys2Proof.Machine.execLaunchComplete lid s
  | .groupPlace core => Sys2Proof.Machine.execGroupPlace core s
  | .walkComplete id => Sys2Proof.Machine.execWalkComplete id s
  | .walkFail id => Sys2Proof.Machine.execWalkFail id s
  | .walkStart die => Sys2Proof.Machine.execWalkStart die s
  | .tlbRetentionExpiry id => Sys2Proof.Machine.execTlbRetentionExpiry id s
  | .wcBufferWrite id => Sys2Proof.Machine.execWcBufferWrite id s
  | .logicalClockTick core => Sys2Proof.Machine.execLogicalClockTick core s
  | .dirtyEvictWriteback die line => Sys2Proof.Machine.execDirtyEvictWriteback die line s
  | .requestInject id => Sys2Proof.Machine.execRequestInject id s
  | .requestTimeout id => Sys2Proof.Machine.execRequestTimeout id s
  | .reservingTimeout lid => Sys2Proof.Machine.execReservingTimeout lid s
  | .backoffExpiry lid => Sys2Proof.Machine.execBackoffExpiry lid s
  | .partReserveExpiry key => Sys2Proof.Machine.execPartReserveExpiry key s
  | .partStart key => Sys2Proof.Machine.execPartStart key s
  | .engineUnitAccess op => Sys2Proof.Machine.execEngineUnitAccess op s
  | .cpyCompletion op => Sys2Proof.Machine.execCpyCompletion op s
  | .fetchReserve core queue => Sys2Proof.Machine.execFetchReserve core queue s
  | .fetchCompletion op => Sys2Proof.Machine.execFetchCompletion op s
  | .ixwalkRangeComplete op => Sys2Proof.Machine.execIxwalkRangeComplete op s
  | .ixwalkCompletion op => Sys2Proof.Machine.execIxwalkCompletion op s
  | .cpactTileFill core => Sys2Proof.Machine.execCpactTileFill core s
  | .cpactCompletion op => Sys2Proof.Machine.execCpactCompletion op s
  | .matrixOpStart core => Sys2Proof.Machine.execMatrixOpStart core s
  | .matrixOpComplete op => Sys2Proof.Machine.execMatrixOpComplete op s
  | .mxdrainCompletion op => Sys2Proof.Machine.execMxdrainCompletion op s
  | .qntCompletion op => Sys2Proof.Machine.execQntCompletion op s
  | .dqntCompletion op => Sys2Proof.Machine.execDqntCompletion op s
  | .cancelSafePoint op => Sys2Proof.Machine.execCancelSafePoint op s
  | .faultEntryWrite queue => Sys2Proof.Machine.execFaultEntryWrite queue s
  | .preemptGo die => Sys2Proof.Machine.execPreemptGo die s
  | .preemptGroupDone die => Sys2Proof.Machine.execPreemptGroupDone die s
  | .preemptResume die => Sys2Proof.Machine.execPreemptResume die s
  | .qwakeWrite queue value => Sys2Proof.Machine.execQwakeWrite queue value s
  | .wakeWordChange queue => Sys2Proof.Machine.execWakeWordChange queue s
  | .nopPacket queue => Sys2Proof.Machine.execNopPacket queue s
  | .launchPacket queue => Sys2Proof.Machine.execLaunchPacket queue s
  | .beginPacket queue => Sys2Proof.Machine.execBeginPacket queue s
  | .commitPacket queue => Sys2Proof.Machine.execCommitPacket queue s
  | .replacePacket queue => Sys2Proof.Machine.execReplacePacket queue s
  | .signalPacket queue => Sys2Proof.Machine.execSignalPacket queue s
  | .ctxnew ctx => Sys2Proof.Machine.execCtxnew ctx s
  | .ctxdel ctx => Sys2Proof.Machine.execCtxdel ctx s
  | .mapq queue => Sys2Proof.Machine.execMapq queue s
  | .unmapq queue => Sys2Proof.Machine.execUnmapq queue s
  | .queueUnmapComplete queue => Sys2Proof.Machine.execQueueUnmapComplete queue s
  | .abortCmd seq => Sys2Proof.Machine.execAbortCmd seq s
  | .preemptCmd arg => Sys2Proof.Machine.execPreemptCmd arg s
  | .binTimeout core bin => Sys2Proof.Machine.execBinTimeout core bin s
  | .feataccWrite value => Sys2Proof.Machine.execFeataccWrite value s
  | .poolcfgApply die => Sys2Proof.Machine.execPoolcfgApply die s
  | .registerWrite w => Sys2Proof.Machine.execRegisterWrite w s
  | .sctlOpen stream => Sys2Proof.Machine.execSctlOpen stream s
  | .sctlClose stream => Sys2Proof.Machine.execSctlClose stream s
  | .frameClose stream slot => Sys2Proof.Machine.execFrameClose stream slot s
  | .frameTimeout stream slot => Sys2Proof.Machine.execFrameTimeout stream slot s
  | .mreset value => Sys2Proof.Machine.execMreset value s
  | .clockGate core => Sys2Proof.Machine.execClockGate core s
  | .coreWake core => Sys2Proof.Machine.execCoreWake core s
  | .partUnreachable lid => Sys2Proof.Machine.execPartUnreachable lid s
  | .launchMsg m => Sys2Proof.Machine.execLaunchMsg m s
  | .recMsg m => Sys2Proof.Machine.execRecMsg m s
  | .partReserve m => Sys2Proof.Machine.execPartReserve m s
  | .partCommit m => Sys2Proof.Machine.execPartCommit m s
  | .partRollback m => Sys2Proof.Machine.execPartRollback m s
  | .partReport m => Sys2Proof.Machine.execPartReport m s
  | .rdMsg m => Sys2Proof.Machine.execRdMsg m s
  | .rdxMsg m => Sys2Proof.Machine.execRdxMsg m s
  | .wrMsg m => Sys2Proof.Machine.execWrMsg m s
  | .wrpMsg m => Sys2Proof.Machine.execWrpMsg m s
  | .atmMsg m => Sys2Proof.Machine.execAtmMsg m s
  | .monMsg m => Sys2Proof.Machine.execMonMsg m s
  | .fwqMsg m => Sys2Proof.Machine.execFwqMsg m s
  | .dataMsg m => Sys2Proof.Machine.execDataMsg m s
  | .ackMsg m => Sys2Proof.Machine.execAckMsg m s
  | .msat m => Sys2Proof.Machine.execMsat m s
  | .nackMsg m => Sys2Proof.Machine.execNackMsg m s
  | .flitReceive port f => Sys2Proof.Machine.execFlitReceive port f s
  | .linkTakedown port => Sys2Proof.Machine.execLinkTakedown port s
  | .bersyAccess x => Sys2Proof.Machine.execBersyAccess x s
  | .bersyLaneFail lane => Sys2Proof.Machine.execBersyLaneFail lane s
  | .ptpEventMessage port => Sys2Proof.Machine.execPtpEventMessage port s
  | .ingestPacket p => Sys2Proof.Machine.execIngestPacket p s
  | .bootRomPhase staged => Sys2Proof.Machine.execBootRomPhase staged s
  | .verifyPhase v => Sys2Proof.Machine.execVerifyPhase v s
  | .hbminitPhase ok => Sys2Proof.Machine.execHbminitPhase ok s
  | .selftestPhase ok => Sys2Proof.Machine.execSelftestPhase ok s
  | .readyPhase fw => Sys2Proof.Machine.execReadyPhase fw s
  | .throttle pwr tj tin => Sys2Proof.Machine.execThrottle pwr tj tin s
  | .fabricReceiveEntry core port words => Sys2Proof.Machine.execFabricReceiveEntry core port words s
  | .l2EvictRecall line => Sys2Proof.Machine.execL2EvictRecall line s
  | .attest => Sys2Proof.Machine.execAttest s
  | .restoreCmd => Sys2Proof.Machine.execRestoreCmd s
  | .shootdownGo => Sys2Proof.Machine.execShootdownGo s
  | .shootdownComplete => Sys2Proof.Machine.execShootdownComplete s
  | .snapctlTrig => Sys2Proof.Machine.execSnapctlTrig s
  | .snapctlRel => Sys2Proof.Machine.execSnapctlRel s
  | .standbyEnter => Sys2Proof.Machine.execStandbyEnter s
  | .standbyLeave => Sys2Proof.Machine.execStandbyLeave s
  | .powerOnReset => Sys2Proof.Machine.execPowerOnReset s
  | .thermalTrip => Sys2Proof.Machine.execThermalTrip s

end Sys2Proof.Machine
end

