-- ==== Sys2Proof/Machine/Moves.lean ====
section
/-! DEFINITION. What can happen next: the word that a clause has come to, the part's own steps that are due, and
what the outside brings. Several moves can be open at once; R198, R238, R406 and R499 leave their order free. -/

namespace Sys2Proof.Machine

/-! ## The next word of a clause -/

/-- The counted word that a running sub-gang has come to, decoded with the word after it. -/
def nextInstr (r : Run) : Except DecodeError Instr :=
  decodeWord (r.words.getD r.ix 0) (r.words.getD (r.ix + 1) 0)

/-- A word that is no instruction traps ILL in every slice with an active lane (R72). -/
def badWord (s : State) (g : Gang) (sub : Nat) (r : Run) : State :=
  let n := wordCount (r.words.getD r.ix 0)
  let xs := (g.slicesOf sub).filter fun x => x.active != 0
  if xs.isEmpty then
    retire s ⟨s, g, sub, .nop noFields, instrDesc (.nop noFields), noFields, r, [], 0⟩ n
  else trapSlices s g sub ⟨r.hdr, r.ix + 1, r.words.length, n⟩ (xs.map fun x => hitAt x.pos (lowLane x.active) .ill)

/-- Every sub-gang inside a clause. -/
def runningSubs (s : State) : List Cur :=
  s.gangs.flatMap fun g => (g.subs.filter fun u => u.run.isSome).map fun u => ⟨g.core, g.slot, u.id⟩

/-! ## The cores -/

/-- A sub-gang may start a clause but for a line of code that another module holds. -/
def subAsks (s : State) (g : Gang) (u : Sub) : Bool :=
  subFree s g u && match (nextFetch s g u).2 with
    | .ask _ => true
    | _ => false

/-- The clauses that can start: the choice of each free issue slot, and fetches that must ask for a line. -/
def startMoves (s : State) : List Instr :=
  s.gangs.flatMap fun g =>
    if slotBusy s g.core g.islot then []
    else (g.subs.filter fun u => slotChoice s g.core g.islot == some (g.slot, u.id) || subAsks s g u).map fun u =>
      .clauseStart g.core g.slot u.id

/-- The step of one slice that is ending, trapping, or has a failure to take. -/
def sliceMoves (s : State) (g : Gang) (x : Slice) : List Instr :=
  let late := if !x.merr.isEmpty then [Instr.completionStageTrap g.core g.slot x.pos] else []
  match x.st with
  | .run u => if (g.sub u).any fun v => v.run.isSome || v.word != 0 then [] else late
  | .parked _ _ => late
  | .ending e =>
    if e.full then [.poolSpaceGrant g.core g.slot x.pos]
    else if !x.merr.isEmpty then late
    else if drained s g.core g.slot x.pos then [.segmentEnd g.core g.slot x.pos] else []
  | .trapping t =>
    if t.full then [.poolSpaceGrant g.core g.slot x.pos]
    else if drained s g.core g.slot x.pos then [.trapDelivery g.core g.slot x.pos] else []
  | .dead => []

def gangMoves (s : State) : List Instr :=
  (s.gangs.flatMap fun g => g.slices.flatMap (sliceMoves s g)) ++
  (s.gangs.flatMap fun g => (g.subs.filter (subAged s g.core)).map fun u => .agingStep (.subgang g.core g.slot u.id))

/-- Results that can be written and accesses that can be performed. -/
def pendMoves (s : State) : List Instr :=
  (s.pend.filter (pendReady s)).map fun q => if q.flag.isSome then .vlResultWrite q.id else .untrackedResultWrite q.id

/-- The choice of a core's bin unit. -/
def pickMove (s : State) (core : Nat) : List Instr :=
  match choice208 s core with
  | none => []
  | some c =>
    match c.pick with
    | .gang => [.gangCreate core]
    | .bin b k =>
      let save := match binFront s core b with
        | some m => (readHead s m).xptr
        | none => 0
      if save != 0 && (expAt s core save).isNone then [.expSlotLoad core b]
      else if k = 1 then [.binTimeout core b] else [.binDrain core b]

/-- Cores with something to resume or to create. -/
def busyCores (s : State) : List Nat :=
  distinct ((s.recs.filter fun m => m.runnable).map (fun m => m.core) ++ (s.groups.filter fun g => g.st == .placed).map fun g => g.core)

/-- The bins whose front record needs lines of another module's save area. -/
def loadMoves (s : State) : List Instr :=
  s.recs.flatMap fun m => match m.st with
    | .binned b => if (frontMissing s m.core b).isEmpty then [] else [.expSlotLoad m.core b]
    | _ => []

/-- Steps of one record. -/
def recMoves (s : State) (m : RecMeta) : List Instr :=
  (match m.st with
   | .travelling w => [Instr.recordMove m.rid w]
   | _ => []) ++
  (if recordAged s m then [.agingStep (.record m.rid)] else [])

/-- An event of a lane has fired and the lane still waits for it. -/
def stillWaits (s : State) (w : Wait) : Bool :=
  match s.rec? w.rid with
  | some m => w.fired.isSome && bitOf (readHead s m).waits w.lane
  | none => false

def recordMoves (s : State) : List Instr :=
  ((busyCores s).flatMap (pickMove s)) ++ loadMoves s ++ s.recs.flatMap (recMoves s) ++
  (s.waits.filter (stillWaits s)).map fun w => .laneEventFire w.rid w.lane

/-! ## The dies -/

def taskMoves (s : State) (die : Nat) : List Instr :=
  (match nextPair s die with
   | some t =>
     if (feedCore s die).isNone then []
     else if (samePair (s.tasks.getD die []) t).length < 4 then [Instr.taskAgeTimeout die t.ctx t.entry]
     else [.taskSliceForm die t.ctx t.entry]
   | none => []) ++
  (match firstWaiting s die with
   | some rid => if taskRoom < (s.tasks.getD die []).length + (pendingTasks s rid).length then [] else [.taskqRoomPlace die]
   | none => [])

def dieMoves (s : State) (die : Nat) : List Instr :=
  let d := s.dieRegs die
  taskMoves s die ++
  (if s.recs.any (fun m => m.core / 64 == die) && decide (d.balNext ≤ s.clk) then [Instr.balancerPeriod die] else []) ++
  (if (nextWalk s die).isSome then [.walkStart die] else []) ++
  (if d.preBusy then [.preemptGroupDone die] else []) ++
  (if d.poolNext.isSome && poolEmpty s die then [.poolcfgApply die] else [])

/-- A walk goes on unless it waits for a line. -/
def walkMoves (s : State) : List Instr :=
  (s.walks.filter fun w => w.running && !(s.reqs.any fun r => r.who == .walk w.id)).map fun w =>
    match walkResult s w with
    | .fail .. => .walkFail w.id
    | _ => .walkComplete w.id

def timerMoves (s : State) : List Instr :=
  ((s.tlbs.filter fun e => decide (e.since + 85000 ≤ s.clk)).map fun e => Instr.tlbRetentionExpiry e.id) ++
  ((s.wcbufs.filter fun b => decide (b.since + 1700 ≤ s.clk)).map fun b => Instr.wcBufferWrite b.id) ++
  (s.copies.flatMap fun c =>
    Instr.dirtyEvictWriteback c.die c.pa :: (distinct ((s.gangs.filter fun g => g.core / 64 == c.die).map fun g => g.core)).map fun k =>
      .logicalClockTick k) ++
  (if s.clk < 8500 then [] else ((List.range 256).filter fun c => s.coreOn c && !(s.core c).gated && !s.regs.standby &&
    !coreBusy s c && decide ((s.core c).idle + 8500 ≤ s.clk)).map fun c => Instr.clockGate c) ++
  (((List.range 256).filter fun c => (s.core c).gated && !s.regs.standby && (coreBusy s c ||
    s.groups.any fun g => g.st == .waiting && (enabledIn s g.lo g.num).contains c)).map fun c => Instr.coreWake c) ++
  (s.snapDue.map fun b => Instr.snapshotLatch b) ++
  (if s.regs.sdbusy && !shotUse s then [.shootdownComplete] else [])

/-! ## Launches and queues -/

def launchMoves (s : State) (l : Launch) : List Instr :=
  let held := match s.hwq l.queue with
    | some x => (x.pkt.map fun p => p.lid) == some l.lid && x.st != .unmapped
    | none => false
  let lost := if (lostParts s l).isEmpty then [] else [Instr.partUnreachable l.lid]
  match l.st with
  | .queued => if held && orderReady s l then [.launchHeadCheck l.queue] else []
  | .waitdep =>
    ((List.range 4).filter fun d => s.mons.any (fun m => m.who == .dep l.lid d && m.hit.isSome) ||
      s.failedPa.any (fun e => e.1 == whoKey (.dep l.lid d)) || d == 0 && allLatched l && held).map fun d => .dependenceLatch l.lid d
  | .reserving =>
    if l.owner.isSome then (if l.since + 850000 ≤ s.clk then [.partReserveExpiry l.lid] else [])
    else (if l.since + clk100us ≤ s.clk then [.reservingTimeout l.lid] else []) ++ lost
  | .backoff =>
    if l.owner.isSome then (if l.since ≤ s.regs.devtime then [.partStart l.lid] else [])
    else (if l.since + 42500 ≤ s.clk then [.backoffExpiry l.lid] else []) ++ lost
  | .active =>
    (if l.fail && !l.signalled || l.parts.all (fun p => p.reported) && (!l.parts.isEmpty && !l.fail || l.fail && l.live == 0 && performed s l.lid)
     then [Instr.launchComplete l.lid] else []) ++ lost
  | .ending => (if performed s l.lid then [.launchComplete l.lid] else []) ++ lost
  | _ => [.launchComplete l.lid]

/-- The parser's step for a packet of a type. -/
def packetMove (q t : Nat) : Instr :=
  match t with
  | 1 => .launchPacket q
  | 2 => .beginPacket q
  | 3 => .commitPacket q
  | 4 => .replacePacket q
  | 5 => .signalPacket q
  | _ => .nopPacket q

def queueMoves (s : State) (x : HwQueue) : List Instr :=
  (match x.pkt, x.members with
   | some p, _ => if p.lid != 0 || x.st == .unmapped || x.st == .unmapping && batchOpen x p then [] else [packetMove x.q (packetType p.words)]
   | none, p :: _ => if x.st == .mapped then [packetMove x.q (packetType p.words)] else []
   | none, [] =>
     if x.st != .mapped || x.prod == x.cons then []
     else match lookPacket s x x.cons with
       | .here bs => [packetMove x.q (packetType (words64 bs))]
       | _ => [.nopPacket x.q]) ++
  (if x.st == .unmapping && (headCode s x).isSome then [.queueUnmapComplete x.q] else []) ++
  (if s.mons.any fun m => m.who == .wake x.q && m.hit.isSome then [.wakeWordChange x.q] else [])

/-- Cores on which a waiting group can be placed. -/
def placeMoves (s : State) : List Instr :=
  (distinct ((s.groups.filter fun g => g.st == .waiting).filterMap (firstCore s))).map fun c => .groupPlace c

/-- The mailbox command that runs. -/
def mailboxMoves (s : State) : List Instr :=
  match (if s.regs.phase == .recovery then none else s.regs.mbBusy) with
  | none => []
  | some (op, arg) =>
    match op with
    | 1 => [.ctxnew arg]
    | 2 => [.ctxdel arg]
    | 3 => [.mapq arg]
    | 4 => [.unmapq arg]
    | 5 => [.abortCmd arg]
    | 6 => [.preemptCmd (BitVec.ofNat 56 arg)]
    | 7 => [.restoreCmd]
    | 8 => [.attest]
    | 9 => if arg = 0 then [.standbyEnter] else [.standbyLeave]
    | 261 => [.abortCmd arg]
    | 262 => [.preemptCmd (BitVec.ofNat 56 arg)]
    | _ => []

def frontMoves (s : State) : List Instr :=
  s.launches.flatMap (launchMoves s) ++ s.queues.flatMap (queueMoves s) ++ placeMoves s ++ mailboxMoves s ++
  (distinct (s.faults.map fun e => queueKey e.queue)).map (fun q => Instr.faultEntryWrite q)

/-! ## Engines -/

/-- The completion step of an operation that has come to its end. -/
def endMove (s : State) (o : EngineOp) : List Instr :=
  match o.kind with
  | .cpy => if workOver s (withFailures s o) then [.cpyCompletion o.id] else []
  | .mxdrain => if workOver s (withFailures s o) then [.mxdrainCompletion o.id] else []
  | .qnt => if workOver s (withFailures s o) then [.qntCompletion o.id] else []
  | .dqnt => if workOver s (withFailures s o) then [.dqntCompletion o.id] else []
  | .fetch =>
    if o.waitPage.isNone && o.reserved && (match o.words with
      | none => o.fail.isSome || o.limit.isSome
      | some ws => o.limit.isSome || (o.started && (jobOf s o ws).allDone o)) then [.fetchCompletion o.id] else []
  | .ixwalk => match o.words with
    | none => if o.fail.isSome && o.waitPage.isNone then [.ixwalkCompletion o.id] else []
    | some ws =>
      let j := jobOf s o ws
      if !o.started || o.waitPage.isSome || !opAcked s o then []
      else if j.end_ o ≤ o.progress then [.ixwalkCompletion o.id]
      else if j.rowDone o o.progress then [.ixwalkRangeComplete o.id] else []
  | .cpact | .cpfl => if o.started && tilesReleased s o then [.cpactCompletion o.id] else []
  | .mxissue => if mxDone s o then [.matrixOpComplete o.id] else []
  | .tile => [.cpactTileFill o.core]

/-- Steps of one operation: its completion, or else a unit of its work; its cancellation. -/
def opMoves (s : State) (o : EngineOp) : List Instr :=
  (match endMove s o with
   | [] => if o.kind == .mxissue || o.waitPage.isSome then [] else [Instr.engineUnitAccess o.id]
   | l => if o.kind == .tile || o.kind == .cpact then .engineUnitAccess o.id :: l else l) ++
  (if o.cancel && o.limit.isNone then [.cancelSafePoint o.id] else []) ++
  (if o.kind == .fetch && !o.reserved && queueRoom s o then [.fetchReserve o.core o.queue] else [])

def engineMoves (s : State) : List Instr :=
  s.ops.flatMap (opMoves s) ++
  (distinct ((s.ops.filter fun o => o.kind == .mxissue && !o.started).map fun o => o.core)).map (fun c => Instr.matrixOpStart c) ++
  (distinct ((s.ops.filter fun o => o.kind == .cpact || o.kind == .cpfl).map fun o => o.core)).filterMap (fun c =>
    if (s.core c).compact.tile.length < 128 || (tileOp s c).isSome then none else some (Instr.cpactTileFill c))

/-! ## Requests and streams -/

def fabricMoves (s : State) : List Instr :=
  ((s.reqs.filter fun r => r.injected.isNone && (!reachable s r.node || injectable s r)).map fun r => Instr.requestInject r.id) ++
  ((s.reqs.filter (reqLate s)).map fun r => Instr.requestTimeout r.id) ++
  ((s.posts.filter (postLate s)).map fun p => Instr.requestTimeout p.id) ++
  ((s.homeQ.filter (forwardLate s)).map fun i => Instr.requestTimeout i.id) ++
  ((s.homeQ.filter (canServe s)).map fun i => Instr.requestInject i.id)

def streamMoves (s : State) : List Instr :=
  s.streams.zipIdx.flatMap fun e => e.1.frames.flatMap fun f =>
    (if !f.dropped && ((nextClose e.1 f).isSome || f.wrote.isSome) then [Instr.frameClose e.2 f.slot] else []) ++
    (if frameLate s e.1 f then [.frameTimeout e.2 f.slot] else [])

/-! ## Steps that a write has set off, and inputs -/

/-- A step set off by a write that must wait for a line of its descriptor, or for a queue that is being closed. -/
def dueWaits (s : State) (i : Instr) : Bool :=
  match i with
  | .qwakeWrite q _ => (missingLine s [queueDesc s q]).isSome
  | .sctlOpen k =>
    (s.stream k).state == 0 && (!(s.stream k).shut || match lookAt s (s.stream k).desc 64 with
      | .missing _ => true
      | _ => false)
  | _ => false

/-- Steps that come from outside the module; anything else is not taken as an input. -/
def fromOutside (i : Instr) : Bool :=
  match i with
  | .launchMsg _ | .recMsg _ | .partReserve _ | .partCommit _ | .partRollback _ | .partReport _ | .rdMsg _ | .rdxMsg _ | .wrMsg _ |
    .wrpMsg _ | .atmMsg _ | .monMsg _ | .fwqMsg _ | .dataMsg _ | .ackMsg _ | .msat _ | .nackMsg _ | .flitReceive _ _ |
    .linkTakedown _ | .bersyAccess _ | .bersyLaneFail _ | .ptpEventMessage _ | .ingestPacket _ | .bootRomPhase _ | .verifyPhase _ |
    .hbminitPhase _ | .selftestPhase _ | .readyPhase _ | .throttle _ _ _ | .fabricReceiveEntry _ _ _ | .l2EvictRecall _ |
    .powerOnReset | .thermalTrip | .registerWrite _ | .mreset _ => true
  | _ => false

/-- An access of the control node to a line that another module owns waits for it. -/
def inputWaits (s : State) (i : Instr) : Bool :=
  match i with
  | .bersyAccess (.read la n) => readOpen s la && (bersyMissing s la (min n 8)).isSome
  | .bersyAccess (.write la n _) => writeOpen s la (min n 8) && (bersyMissing s la (min n 8)).isSome
  | _ => false

/-! ## All of them -/

/-- Every move that is open, when no step set off by a write comes first. -/
def moves (s : State) : List Move :=
  (match s.inputs with | [] => [] | _ :: _ => [Move.input]) ++
  (match s.due with | [] => [] | i :: _ => [Move.own i]) ++
  (runningSubs s).map Move.word ++
  (startMoves s ++ gangMoves s ++ pendMoves s ++ recordMoves s ++ (List.range 4).flatMap (dieMoves s) ++ walkMoves s ++
    timerMoves s ++ frontMoves s ++ engineMoves s ++ fabricMoves s ++ streamMoves s).map Move.own

/-- A move that need not come about: an eviction, and a tick of a logical clock beyond those of R303. -/
def Move.optional (m : Move) : Bool :=
  match m with
  | .own (.dirtyEvictWriteback _ _) | .own (.logicalClockTick _) => true
  | _ => false

/-- The step since which a move has been open. -/
def openSince (s : State) (m : Move) : Nat := ((s.openMoves.find? fun e => e.1 == m).map (·.2)).getD s.tick

/-- The move that has been open for longest, once it has been for long enough: it is made next, so that whatever stays
open is made in finite time (R183). -/
def overdue (s : State) (l : List Move) : Option Move :=
  (l.filter fun m => !m.optional && decide (openSince s m + Config.patience < s.tick)).foldl (fun b m =>
    match b with
    | none => some m
    | some n => if openSince s m < openSince s n then some m else some n) none

/-- The move that is made: a step set off by a write first; else the one that is overdue, or one of the open moves, freely
chosen (log entry 3). -/
def nextMove (s : State) : Option Move :=
  match s.due with
  | i :: _ => if dueWaits s i then pick (moves s) else some .due
  | [] => pick (moves s)
where
  pick : List Move → Option Move
    | [] => none
    | [m] => some m
    | l => (overdue s l).or l[Config.choice s.tick % l.length]?

/-! ## Time -/

/-- The clk for which a clause has held each issue slot (R435). -/
def addBusy (s : State) (dt : Nat) : List CoreSt :=
  (runningSubs s).foldl (fun cs c => match s.gang c.core c.slot with
    | some g => updAt c.core (fun (k : CoreSt) => { k with busy := updAt g.islot (fun n => (n + dt) % 65536) k.busy }) cs
    | none => cs) s.cores

/-- Ready sub-gangs that are not issued wait (R212). -/
def addWaited (s : State) (dt : Nat) : List Gang :=
  let age := fun (g : Gang) (u : Sub) => if subReady s g u then { u with waited := u.waited + dt } else u
  s.gangs.map fun (g : Gang) => { g with subs := g.subs.map (age g) }

/-- Parts of spanning launches that can be reached now (R456). -/
def addHeard (s : State) : List Launch :=
  let hear := fun (p : PartSt) => if reachable s p.node then { p with heard := s.clk } else p
  s.launches.map fun (l : Launch) => { l with parts := l.parts.map hear }

/-- The clk that may pass before a combining buffer must have been written (R263, R280). -/
def bufferSlack (s : State) (dt : Nat) : Nat := s.wcbufs.foldl (fun n b => min n (b.since + 1700 - s.clk)) dt

/-- Bytes of an array change under an error: no write, which nothing observes as one. -/
def rawPut (s : State) (la : Nat) (bs : List Byte) : State :=
  let p := placeOf s la
  match p.region with
  | .rf => { s with rf := bs.zipIdx.foldl (fun rf e => rfPutByte rf (p.core * (4 * rfWords) + p.off + e.2) e.1) s.rf }
  | .hbm | .scratch | .fe | .opbuf | .acc =>
    { s with mem := bs.zipIdx.foldl (fun m e => tabPut 0#8 m (memKey (placeOf s (la + e.2))) e.1) s.mem }
  | _ => s

/-- An error strikes a line of an array, of a core's L1 or of a die's L2 (R313). A copy in state M or O, and the home's L2 line, are
the line as it is. -/
def strike (s : State) (u : Upset) : State :=
  let pa := u.line * 128
  match u.place, u.error with
  | .array, .corrected => { s with correctable := distinct (s.correctable ++ [u.line]) }
  | .array, .uncorrectable => { s with poisoned := distinct (s.poisoned ++ [u.line]) }
  | .array, .wrong bs => { rawPut s pa (bs.take 128) with correctable := distinct (s.correctable ++ [u.line]) }
  | .l1 core, .uncorrectable =>
    { s with l1 := updAll (fun (c : L1Copy) => c.core == core && c.line == pa) (fun c => { c with bad := true }) s.l1 }
  | .l1 core, .wrong bs =>
    let dirty := s.l1.any fun c => c.core == core && c.line == pa && (c.st == .m || c.st == .o)
    let s := { s with l1 := updAll (fun (c : L1Copy) => c.core == core && c.line == pa) (fun c => { c with data := patch c.data 0 (bs.take 128) }) s.l1 }
    if !dirty then s
    else if isOwn s pa then rawPut s (localOf pa) (bs.take 128)
    else updCopy s (core / 64) pa fun c => { c with data := patch c.data 0 (bs.take 128) }
  | .l2 die, .uncorrectable =>
    let s := updCopy s die pa fun c => { c with bad := true }
    if isOwn s pa then { s with l2 := updWhere (fun (l : L2Line) => l.line == localOf pa) (fun l => { l with bad := true }) s.l2 } else s
  | .l2 die, .wrong bs =>
    let s := updCopy s die pa fun c => { c with data := patch c.data 0 (bs.take 128) }
    if isOwn s pa && (l2Of s (localOf pa)).isSome then rawPut s (localOf pa) (bs.take 128) else s
  | _, .corrected => s

/-- The errors that have come about by now. -/
def strikeDue (s : State) : State :=
  (s.upsets.filter fun u => decide (u.clk ≤ s.clk)).foldl strike { s with upsets := s.upsets.filter fun u => decide (s.clk < u.clk) }

/-- The moves that are open now, each with the step since which it has been; the one that was overdue has been made. -/
def noteOpen (s : State) : State :=
  let made := overdue s (s.openMoves.map (·.1))
  let s := { s with openMoves := s.openMoves.filter fun e => some e.1 != made }
  { s with openMoves := (moves s).map fun m => (m, openSince s m) }

/-- A step is over: time passes, at least one clk when nothing could happen, and never past a combining buffer's limit.
Every core's logical clock rises with each 64 clk (R303). -/
def passTime (s : State) (idle : Bool) : State :=
  let dt := bufferSlack s (Config.elapsed s.tick + b2n (idle || s.tick % (Config.patience + 1) == Config.patience))
  let ticks := (s.clk + dt) / 64 - s.clk / 64
  let t := strikeDue { s with
    clk := s.clk + dt
    cur := none
    cores := (addBusy s dt).map fun (k : CoreSt) => { k with pts := k.pts + ticks }
    gangs := addWaited s dt
    launches := addHeard s
    regs := { s.regs with devtime := s.regs.devtime + Config.elapsedNs s.tick + b2n idle } }
  { noteOpen t with tick := s.tick + 1 }

/-! ## Making a move -/

/-- The word that a running sub-gang has come to is executed, or is no instruction. -/
def runWord (s : State) (c : Cur) (run : Instr → State → Host.Outcome State Fault Refusal) : Host.Outcome State Fault Refusal :=
  match issuer { s with cur := some c } with
  | none => .next s
  | some (g, sub, r) =>
    match nextInstr r with
    | .ok i => run i { s with cur := some c }
    | .error _ => .next (badWord s g sub r)

/-- A step of the part's own; a word is none, and is executed only where a clause has come to it. -/
def ownStep (run : Instr → State → Host.Outcome State Fault Refusal) (i : Instr) (s : State) : Host.Outcome State Fault Refusal :=
  if i.isWord then .next s else run i s

/-- Carry out a move, `run` being the meanings of the instructions. -/
def perform (run : Instr → State → Host.Outcome State Fault Refusal) (s : State) (m : Move) : Host.Outcome State Fault Refusal :=
  match m with
  | .word c => runWord s c run
  | .own i => ownStep run i s
  | .due =>
    match s.due with
    | i :: r => ownStep run i { s with due := r }
    | [] => .next s
  | .input =>
    match s.inputs with
    | i :: r =>
      if !fromOutside i then .next { s with inputs := r }
      else ownStep run i (if inputWaits s i then s else { s with inputs := r })
    | [] => .next s

/-- Time passes after a step. -/
def settle (idle : Bool) (o : Host.Outcome State Fault Refusal) : Host.Outcome State Fault Refusal :=
  match o with
  | .next s => .next (passTime s idle)
  | .fault f => .fault f
  | .refused r => .refused r

end Sys2Proof.Machine
end

