-- ==== Sys2Proof/Machine/Step.lean ====
section
/-! DEFINITION. One step of the module, and how an instruction is placed where the next step executes it. -/

namespace Sys2Proof.Machine

/-- One step: the next move is made, and time passes; with no move open only time passes. -/
def step (s : State) : Host.Outcome State Fault Refusal :=
  match nextMove s with
  | some m => settle false (perform exec s m)
  | none => .next (passTime s true)

/-- Nothing of the module is under way: what could be chosen instead of an instruction is gone. -/
def State.quiet (s : State) : State :=
  { s with
    openMoves := [], inputs := [], due := [], gangs := [], pend := [], recs := [], waits := [], mons := [], walks := [], tlbs := [], wcbufs := []
    ops := [], launches := [], groups := [], queues := [], faults := [], snapDue := [], copies := [], reqs := [], posts := []
    homeQ := []
    tasks := List.replicate 4 []
    streams := List.replicate 256 Stream.reset
    cores := s.cores.map fun (k : CoreSt) => { k with gated := false, idle := s.clk, group := none }
    regs := { s.regs with phase := .ready, booted := true, mbBusy := none, sdbusy := false, dies := List.replicate 4 DieRegs.reset } }

/-- A slice of one thread inside a clause. -/
def fetchSlice : Slice :=
  { pos := 0, pc := 0x10010, active := 1, live := 1, tokens := [], flags := List.replicate 12 0, bind := List.replicate 4 none,
    prio := 0, lids := List.replicate 4 0, number := 0, index := 0, restart := none, stuck := false, xsave := none,
    lanes := List.replicate 4 Lane.start, merr := [], retry := [], walked := none, bypass := false, st := .run 0 }

/-- The clause that holds a first word and, for a long form, its extension. -/
def fetchRun (w : Nat) : Run :=
  let a : W64 := BitVec.ofNat 64 w
  let ws := if wordCount a = 2 then [a, BitVec.ofNat 64 (w / 2 ^ 64)] else [a]
  ⟨0x10000, BitVec.ofNat 64 (3 * 2 ^ 62 + 15 * 2 ^ 46 + 15 * 2 ^ 42 + ws.length * 2 ^ 36), ws, 0, [], false⟩

def fetchGang (w : Nat) : Gang :=
  { core := 0, slot := 0, base := 0, vbud := 128, gbud := 64, ctx := 1, role := .general, group := none, handler := none, fw := false,
    g := List.replicate 64 0, h := List.replicate 16 0, islot := 0, departed := false, slices := [fetchSlice],
    subs := [⟨0, 0, some (fetchRun w), 0, 0, none⟩] }

/-- A module in which one thread of core 0 stands at a clause of exactly that instruction (log entry 17). -/
def State.withFetchWord (s : State) (nbits w : Nat) : State :=
  { s.quiet with gangs := [fetchGang (w % 2 ^ nbits)] }

end Sys2Proof.Machine
end

