-- ==== Sys2Proof/Laws/Encoding.lean ====
section
/-! SUPPORT. Packing an instruction's fields into its words and reading them back: the general lemma of
the round trip of encode and decodeWords, from which Laws/PerInstr.lean takes one lemma per
instruction. -/

namespace Sys2Proof

theorem extract_high {m k : Nat} (x : BitVec m) (y : BitVec k) (lo n : Nat) (h : k ≤ lo) :
    BitVec.extractLsb' lo n (x ++ y) = BitVec.extractLsb' (lo - k) n x := by
  ext i hi
  simp only [BitVec.getElem_extractLsb', BitVec.getLsbD_append]
  rw [if_neg (by omega)]; congr 1; omega

theorem extract_low {m k : Nat} (x : BitVec m) (y : BitVec k) (lo n : Nat) (h : lo + n ≤ k) :
    BitVec.extractLsb' lo n (x ++ y) = BitVec.extractLsb' lo n y := by
  ext i hi
  simp only [BitVec.getElem_extractLsb', BitVec.getLsbD_append]
  rw [if_pos (by omega)]

theorem extract_all {n : Nat} (x : BitVec n) : BitVec.extractLsb' 0 n x = x := BitVec.extractLsb'_eq_self

theorem packWord_form (op : Nat) (f : Fields) : bitsAt (packWord op f) 62 2 = if f.long then 2#2 else 1#2 := by
  unfold bitsAt packWord
  repeat rw [extract_high _ _ _ _ (by decide)]
  exact extract_all _

theorem packWord_fsel (op : Nat) (f : Fields) : bitsAt (packWord op f) 61 1 = if f.fsel then 1#1 else 0#1 := by
  unfold bitsAt packWord
  repeat rw [extract_high _ _ _ _ (by decide)]
  rw [extract_low _ _ _ _ (by decide)]
  exact extract_all _

theorem packWord_zero (op : Nat) (f : Fields) : bitsAt (packWord op f) 60 1 = 0#1 := by
  unfold bitsAt packWord
  repeat rw [extract_high _ _ _ _ (by decide)]
  rw [extract_low _ _ _ _ (by decide)]
  exact extract_all _

theorem packWord_guard (op : Nat) (f : Fields) : bitsAt (packWord op f) 57 3 = f.guard := by
  unfold bitsAt packWord
  repeat rw [extract_high _ _ _ _ (by decide)]
  rw [extract_low _ _ _ _ (by decide)]
  exact extract_all _

theorem packWord_gneg (op : Nat) (f : Fields) : bitsAt (packWord op f) 56 1 = if f.gneg then 1#1 else 0#1 := by
  unfold bitsAt packWord
  repeat rw [extract_high _ _ _ _ (by decide)]
  rw [extract_low _ _ _ _ (by decide)]
  exact extract_all _

theorem packWord_op (op : Nat) (f : Fields) : bitsAt (packWord op f) 48 8 = BitVec.ofNat 8 op := by
  unfold bitsAt packWord
  repeat rw [extract_high _ _ _ _ (by decide)]
  rw [extract_low _ _ _ _ (by decide)]
  exact extract_all _

theorem packWord_d (op : Nat) (f : Fields) : bitsAt (packWord op f) 40 8 = f.d := by
  unfold bitsAt packWord
  repeat rw [extract_high _ _ _ _ (by decide)]
  rw [extract_low _ _ _ _ (by decide)]
  exact extract_all _

theorem packWord_a (op : Nat) (f : Fields) : bitsAt (packWord op f) 32 8 = f.a := by
  unfold bitsAt packWord
  repeat rw [extract_high _ _ _ _ (by decide)]
  rw [extract_low _ _ _ _ (by decide)]
  exact extract_all _

theorem packWord_b (op : Nat) (f : Fields) : bitsAt (packWord op f) 24 8 = f.b := by
  unfold bitsAt packWord
  repeat rw [extract_high _ _ _ _ (by decide)]
  rw [extract_low _ _ _ _ (by decide)]
  exact extract_all _

theorem packWord_c (op : Nat) (f : Fields) : bitsAt (packWord op f) 16 8 = f.c := by
  unfold bitsAt packWord
  repeat rw [extract_high _ _ _ _ (by decide)]
  rw [extract_low _ _ _ _ (by decide)]
  exact extract_all _

theorem packWord_minor (op : Nat) (f : Fields) : bitsAt (packWord op f) 12 4 = f.minor := by
  unfold bitsAt packWord
  repeat rw [extract_high _ _ _ _ (by decide)]
  rw [extract_low _ _ _ _ (by decide)]
  exact extract_all _

theorem packWord_type (op : Nat) (f : Fields) : bitsAt (packWord op f) 7 5 = f.type := by
  unfold bitsAt packWord
  repeat rw [extract_high _ _ _ _ (by decide)]
  rw [extract_low _ _ _ _ (by decide)]
  exact extract_all _

theorem packWord_rm (op : Nat) (f : Fields) : bitsAt (packWord op f) 4 3 = f.rm := by
  unfold bitsAt packWord
  repeat rw [extract_high _ _ _ _ (by decide)]
  rw [extract_low _ _ _ _ (by decide)]
  exact extract_all _

theorem packWord_sat (op : Nat) (f : Fields) : bitsAt (packWord op f) 3 1 = if f.sat then 1#1 else 0#1 := by
  unfold bitsAt packWord
  repeat rw [extract_high _ _ _ _ (by decide)]
  rw [extract_low _ _ _ _ (by decide)]
  exact extract_all _

theorem packWord_aux (op : Nat) (f : Fields) : bitsAt (packWord op f) 0 3 = f.aux := by
  unfold bitsAt packWord
  rw [extract_low _ _ _ _ (by decide)]
  exact extract_all _

theorem packExt_lit (f : Fields) : bitsAt (packExt f) 32 32 = f.lit := by
  unfold bitsAt packExt
  repeat rw [extract_high _ _ _ _ (by decide)]
  exact extract_all _

theorem packExt_xd (f : Fields) : bitsAt (packExt f) 24 8 = f.xd := by
  unfold bitsAt packExt
  repeat rw [extract_high _ _ _ _ (by decide)]
  rw [extract_low _ _ _ _ (by decide)]
  exact extract_all _

theorem packExt_off24 (f : Fields) : bitsAt (packExt f) 0 24 = f.off24 := by
  unfold bitsAt packExt
  rw [extract_low _ _ _ _ (by decide)]
  exact extract_all _

/-- Reading back the fields of a full word whose extension fields are 0. -/
theorem unpack_pack_short (op : Nat) (f : Fields) (x : W64) (h : f.long = false) (h1 : f.lit = 0#32)
    (h2 : f.xd = 0#8) (h3 : f.off24 = 0#24) : unpackFields false (packWord op f) x = f := by
  unfold unpackFields
  rw [packWord_fsel, packWord_guard, packWord_gneg, packWord_d, packWord_a, packWord_b, packWord_c,
    packWord_minor, packWord_type, packWord_rm, packWord_sat, packWord_aux]
  rcases f with ⟨long, fsel, guard, gneg, d, a, b, c, minor, type, rm, sat, aux, lit, xd, off24⟩
  simp only at h h1 h2 h3
  subst h h1 h2 h3
  cases fsel <;> cases gneg <;> cases sat <;> rfl

/-- Reading back the fields of a long form. -/
theorem unpack_pack_long (op : Nat) (f : Fields) (h : f.long = true) :
    unpackFields true (packWord op f) (packExt f) = f := by
  unfold unpackFields
  rw [packWord_fsel, packWord_guard, packWord_gneg, packWord_d, packWord_a, packWord_b, packWord_c,
    packWord_minor, packWord_type, packWord_rm, packWord_sat, packWord_aux, packExt_lit, packExt_xd,
    packExt_off24]
  rcases f with ⟨long, fsel, guard, gneg, d, a, b, c, minor, type, rm, sat, aux, lit, xd, off24⟩
  simp only at h
  subst h
  cases fsel <;> cases gneg <;> cases sat <;> rfl

theorem packWord_op_nat (op : Nat) (f : Fields) (h : op < 256) : (bitsAt (packWord op f) 48 8).toNat = op := by
  rw [packWord_op, BitVec.toNat_ofNat]; omega

theorem packWord_form_nat (op : Nat) (f : Fields) :
    (bitsAt (packWord op f) 62 2).toNat = if f.long then 2 else 1 := by
  rw [packWord_form]; cases f.long <;> rfl

/-- A word with a row in an encoding table decodes to itself, if its fields pass the row's checks and its
minor opcode selects it. -/
theorem decode_encode_fields {i : Instr} {D : Desc} {f : Fields} (hd : descOf i = some D)
    (hop : D.op < 256) (hi : f.minor.toNat ∈ D.minors → instrOf D.op f = some i)
    (hw : i.wf = true)
    (he : encode i = if f.long then [packWord D.op f, packExt f] else [packWord D.op f])
    (hf : i.wf = fieldsOk D f) : decodeWords (encode i) = .ok (i, []) := by
  rw [hf] at hw
  simp only [fieldsOk, Bool.and_eq_true] at hw
  obtain ⟨⟨⟨⟨⟨⟨⟨⟨⟨hm, hform⟩, -⟩, -⟩, -⟩, -⟩, -⟩, -⟩, -⟩, -⟩ := hw
  have hm' : f.minor.toNat ∈ D.minors := by simpa using hm
  rw [he]
  have hF := packWord_form_nat D.op f
  cases hl : f.long
  · simp only [formOk, hl, Bool.false_eq_true, if_false, Bool.and_eq_true, beq_iff_eq] at hform
    obtain ⟨⟨h1, h2⟩, h3⟩ := hform
    have hu := unpack_pack_short D.op f 0 hl h1 h2 h3
    simp only [hl, Bool.false_eq_true, if_false] at hF
    simp only [Bool.false_eq_true, if_false, decodeWords, decodeWord, hF, decodeFull, packWord_zero,
      ne_eq, not_true_eq_false, packWord_op_nat D.op f hop, hu, hi hm', hd, hm', if_true, Except.map]
  · have hu := unpack_pack_long D.op f hl
    simp only [hl, if_true] at hF
    simp only [if_true, decodeWords, decodeWord, hF, decodeFull, packWord_zero,
      ne_eq, not_true_eq_false, packWord_op_nat D.op f hop, hu, hi hm', hd, hm', if_true, if_false,
      Except.map, wordCount]

/-- The 30 bits of a half read back (R67: the last bit is 0). -/
theorem unpack_packHalf (h : Half) : unpackHalf (packHalf h) = h := by
  have e1 : BitVec.extractLsb' 23 7 (packHalf h) = h.pop := by
    unfold packHalf
    repeat rw [extract_high _ _ _ _ (by decide)]
    exact extract_all _
  have e2 : BitVec.extractLsb' 16 7 (packHalf h) = h.dx := by
    unfold packHalf
    repeat rw [extract_high _ _ _ _ (by decide)]
    rw [extract_low _ _ _ _ (by decide)]; exact extract_all _
  have e3 : BitVec.extractLsb' 9 7 (packHalf h) = h.sy := by
    unfold packHalf
    repeat rw [extract_high _ _ _ _ (by decide)]
    rw [extract_low _ _ _ _ (by decide)]; exact extract_all _
  have e4 : BitVec.extractLsb' 1 8 (packHalf h) = h.imm := by
    unfold packHalf
    repeat rw [extract_high _ _ _ _ (by decide)]
    rw [extract_low _ _ _ _ (by decide)]; exact extract_all _
  unfold unpackHalf
  rw [e1, e2, e3, e4]

theorem packHalf_bit0 (h : Half) : BitVec.extractLsb' 0 1 (packHalf h) = 0#1 := by
  unfold packHalf
  rw [extract_low _ _ _ _ (by decide)]; exact extract_all _


theorem decode_encode_pair (h1 h2 : Half) : decodeWords (encode (.pairWord h1 h2)) = .ok (.pairWord h1 h2, []) := by
  have a1 : bitsAt ((0#4 : BitVec 4) ++ packHalf h1 ++ packHalf h2 : BitVec 64) 62 2 = 0#2 := by
    unfold bitsAt
    repeat rw [extract_high _ _ _ _ (by decide)]
    decide
  have a2 : bitsAt ((0#4 : BitVec 4) ++ packHalf h1 ++ packHalf h2 : BitVec 64) 60 2 = 0#2 := by
    unfold bitsAt
    repeat rw [extract_high _ _ _ _ (by decide)]
    decide
  have a3 : bitsAt ((0#4 : BitVec 4) ++ packHalf h1 ++ packHalf h2 : BitVec 64) 30 30 = packHalf h1 := by
    unfold bitsAt
    rw [extract_high _ _ _ _ (by decide), extract_low _ _ _ _ (by decide)]; exact extract_all _
  have a4 : bitsAt ((0#4 : BitVec 4) ++ packHalf h1 ++ packHalf h2 : BitVec 64) 0 30 = packHalf h2 := by
    unfold bitsAt
    rw [extract_low _ _ _ _ (by decide)]; exact extract_all _
  have a5 : bitsAt ((0#4 : BitVec 4) ++ packHalf h1 ++ packHalf h2 : BitVec 64) 30 1 = 0#1 := by
    unfold bitsAt
    rw [extract_high _ _ _ _ (by decide), extract_low _ _ _ _ (by decide)]; exact packHalf_bit0 h1
  have a6 : bitsAt ((0#4 : BitVec 4) ++ packHalf h1 ++ packHalf h2 : BitVec 64) 0 1 = 0#1 := by
    unfold bitsAt
    rw [extract_low _ _ _ _ (by decide)]; exact packHalf_bit0 h2
  have a1' := congrArg BitVec.toNat a1
  simp only [encode, decodeWords, decodeWord]
  rw [a1']
  simp only [BitVec.toNat_ofNat, Nat.zero_mod, a2, a3, a4, a5, a6, unpack_packHalf]
  rfl

end Sys2Proof
end

