-- ==== Sys2Proof/Laws/PerInstr.lean ====
section
/-! SUPPORT. The family Encoding: what holds of every instruction as syntax, one lemma per constructor. -/

namespace Sys2Proof.Laws.Encoding

open Sys2Proof

/-- A well-formed instruction word is read back from the words it encodes to, with nothing left over; a step of the
part's own has no word. -/
def Statement (i : Instr) : Prop :=
  (i.isWord = true → i.wf = true → decodeWords (encode i) = .ok (i, [])) ∧
  (i.isWord = false → encode i = [])

theorem instrOf_04 (f : Fields) : instrOf 0x04 f = (match f.minor.toNat with
    | 0 => some (.mad f)
    | 1 => some (.madWide f)
    | _ => none) := rfl

theorem instrOf_96 (f : Fields) : instrOf 0x96 f = (match f.minor.toNat with
    | 0 => some (.rcvJ f)
    | 1 => some (.rcvB f)
    | _ => none) := rfl

theorem instrOf_9c (f : Fields) : instrOf 0x9c f = (match f.minor.toNat with
    | 0 => some (.spawn f)
    | 1 => some (.spawnNb f)
    | _ => none) := rfl

theorem instrOf_9e (f : Fields) : instrOf 0x9e f = (match f.minor.toNat with
    | 0 => some (.arrive f)
    | 1 => some (.arriveRlx f)
    | 2 => some (.arriveRemote f)
    | _ => none) := rfl

theorem instrOf_9f (f : Fields) : instrOf 0x9f f = (match f.minor.toNat with
    | 0 => some (.bwait f)
    | 1 => some (.bwaitRemote f)
    | _ => none) := rfl

theorem instrOf_b2 (f : Fields) : instrOf 0xb2 f = (match f.minor.toNat with
    | 0 => some (.fesetEmpty f)
    | 1 => some (.fesetFull f)
    | _ => none) := rfl

theorem instrOf_b7 (f : Fields) : instrOf 0xb7 f = (match f.minor.toNat with
    | 0 => some (.fence f)
    | 1 => some (.fenceWc f)
    | _ => none) := rfl

theorem instrOf_b8 (f : Fields) : instrOf 0xb8 f = (match f.minor.toNat with
    | 0 => some (.cmaintIinv f)
    | 1 => some (.cmaintWb f)
    | 2 => some (.cmaintWbinv f)
    | 3 => some (.cmaintMsset f)
    | 4 => some (.cmaintMsclr f)
    | 5 => some (.cmaintRepair f)
    | _ => none) := rfl

theorem instrOf_bb (f : Fields) : instrOf 0xbb f = (match f.minor.toNat with
    | 0 => some (.qwait f)
    | 1 => some (.qwaitNb f)
    | _ => none) := rfl

theorem instrOf_c0 (f : Fields) : instrOf 0xc0 f = (match f.minor.toNat with
    | 0 => some (.mxresX f)
    | 1 => some (.mxresW f)
    | _ => none) := rfl

theorem instrOf_c4 (f : Fields) : instrOf 0xc4 f = (match f.minor.toNat with
    | 0 => some (.mxdrain f)
    | 1 => some (.mxdrainRaw f)
    | 2 => some (.mxdrainMx f)
    | _ => none) := rfl

theorem instrOf_cd (f : Fields) : instrOf 0xcd f = (match f.minor.toNat with
    | 0 => some (.zadv f)
    | 1 => some (.zadvSeek f)
    | _ => none) := rfl

theorem instrOf_d3 (f : Fields) : instrOf 0xd3 f = (match f.minor.toNat with
    | 0 => some (.racqP f)
    | 1 => some (.racqC f)
    | _ => none) := rfl

theorem instrOf_d4 (f : Fields) : instrOf 0xd4 f = (match f.minor.toNat with
    | 0 => some (.rrelP f)
    | 1 => some (.rrelC f)
    | _ => none) := rfl

theorem instrOf_e2 (f : Fields) : instrOf 0xe2 f = (match f.minor.toNat with
    | 0 => some (.tretRetry f)
    | 1 => some (.tretSkip f)
    | 2 => some (.tretKill f)
    | _ => none) := rfl

theorem clauseStart (core slot sub : Nat) : Statement (.clauseStart core slot sub) :=
  ⟨fun h => (nomatch h), fun _ => rfl⟩

theorem pairWord (h1 h2 : Half) : Statement (.pairWord h1 h2) :=
  ⟨fun _ _ => decode_encode_pair h1 h2, fun h => (nomatch h)⟩

theorem vlResultWrite (id : Nat) : Statement (.vlResultWrite id) :=
  ⟨fun h => (nomatch h), fun _ => rfl⟩

theorem untrackedResultWrite (id : Nat) : Statement (.untrackedResultWrite id) :=
  ⟨fun h => (nomatch h), fun _ => rfl⟩

theorem add (f : Fields) : Statement (.add f) :=
  ⟨fun _ h => decode_encode_fields rfl (by decide) (fun _ => rfl) h rfl rfl, fun h => (nomatch h)⟩

theorem sub (f : Fields) : Statement (.sub f) :=
  ⟨fun _ h => decode_encode_fields rfl (by decide) (fun _ => rfl) h rfl rfl, fun h => (nomatch h)⟩

theorem mul (f : Fields) : Statement (.mul f) :=
  ⟨fun _ h => decode_encode_fields rfl (by decide) (fun _ => rfl) h rfl rfl, fun h => (nomatch h)⟩

theorem mulh (f : Fields) : Statement (.mulh f) :=
  ⟨fun _ h => decode_encode_fields rfl (by decide) (fun _ => rfl) h rfl rfl, fun h => (nomatch h)⟩

theorem mad (f : Fields) : Statement (.mad f) :=
  ⟨fun _ h => decode_encode_fields rfl (by decide) (fun hm => by rw [instrOf_04, List.mem_singleton.1 hm]; rfl) h rfl rfl, fun h => (nomatch h)⟩

theorem madWide (f : Fields) : Statement (.madWide f) :=
  ⟨fun _ h => decode_encode_fields rfl (by decide) (fun hm => by rw [instrOf_04, List.mem_singleton.1 hm]; rfl) h rfl rfl, fun h => (nomatch h)⟩

theorem div (f : Fields) : Statement (.div f) :=
  ⟨fun _ h => decode_encode_fields rfl (by decide) (fun _ => rfl) h rfl rfl, fun h => (nomatch h)⟩

theorem rem (f : Fields) : Statement (.rem f) :=
  ⟨fun _ h => decode_encode_fields rfl (by decide) (fun _ => rfl) h rfl rfl, fun h => (nomatch h)⟩

theorem min (f : Fields) : Statement (.min f) :=
  ⟨fun _ h => decode_encode_fields rfl (by decide) (fun _ => rfl) h rfl rfl, fun h => (nomatch h)⟩

theorem max (f : Fields) : Statement (.max f) :=
  ⟨fun _ h => decode_encode_fields rfl (by decide) (fun _ => rfl) h rfl rfl, fun h => (nomatch h)⟩

theorem abs (f : Fields) : Statement (.abs f) :=
  ⟨fun _ h => decode_encode_fields rfl (by decide) (fun _ => rfl) h rfl rfl, fun h => (nomatch h)⟩

theorem neg (f : Fields) : Statement (.neg f) :=
  ⟨fun _ h => decode_encode_fields rfl (by decide) (fun _ => rfl) h rfl rfl, fun h => (nomatch h)⟩

theorem dot4 (f : Fields) : Statement (.dot4 f) :=
  ⟨fun _ h => decode_encode_fields rfl (by decide) (fun _ => rfl) h rfl rfl, fun h => (nomatch h)⟩

theorem addc (f : Fields) : Statement (.addc f) :=
  ⟨fun _ h => decode_encode_fields rfl (by decide) (fun _ => rfl) h rfl rfl, fun h => (nomatch h)⟩

theorem subb (f : Fields) : Statement (.subb f) :=
  ⟨fun _ h => decode_encode_fields rfl (by decide) (fun _ => rfl) h rfl rfl, fun h => (nomatch h)⟩

theorem madc (f : Fields) : Statement (.madc f) :=
  ⟨fun _ h => decode_encode_fields rfl (by decide) (fun _ => rfl) h rfl rfl, fun h => (nomatch h)⟩

theorem and (f : Fields) : Statement (.and f) :=
  ⟨fun _ h => decode_encode_fields rfl (by decide) (fun _ => rfl) h rfl rfl, fun h => (nomatch h)⟩

theorem or (f : Fields) : Statement (.or f) :=
  ⟨fun _ h => decode_encode_fields rfl (by decide) (fun _ => rfl) h rfl rfl, fun h => (nomatch h)⟩

theorem xor (f : Fields) : Statement (.xor f) :=
  ⟨fun _ h => decode_encode_fields rfl (by decide) (fun _ => rfl) h rfl rfl, fun h => (nomatch h)⟩

theorem andn (f : Fields) : Statement (.andn f) :=
  ⟨fun _ h => decode_encode_fields rfl (by decide) (fun _ => rfl) h rfl rfl, fun h => (nomatch h)⟩

theorem not (f : Fields) : Statement (.not f) :=
  ⟨fun _ h => decode_encode_fields rfl (by decide) (fun _ => rfl) h rfl rfl, fun h => (nomatch h)⟩

theorem lut3 (f : Fields) : Statement (.lut3 f) :=
  ⟨fun _ h => decode_encode_fields rfl (by decide) (fun _ => rfl) h rfl rfl, fun h => (nomatch h)⟩

theorem shl (f : Fields) : Statement (.shl f) :=
  ⟨fun _ h => decode_encode_fields rfl (by decide) (fun _ => rfl) h rfl rfl, fun h => (nomatch h)⟩

theorem shr (f : Fields) : Statement (.shr f) :=
  ⟨fun _ h => decode_encode_fields rfl (by decide) (fun _ => rfl) h rfl rfl, fun h => (nomatch h)⟩

theorem sra (f : Fields) : Statement (.sra f) :=
  ⟨fun _ h => decode_encode_fields rfl (by decide) (fun _ => rfl) h rfl rfl, fun h => (nomatch h)⟩

theorem rot (f : Fields) : Statement (.rot f) :=
  ⟨fun _ h => decode_encode_fields rfl (by decide) (fun _ => rfl) h rfl rfl, fun h => (nomatch h)⟩

theorem fsh (f : Fields) : Statement (.fsh f) :=
  ⟨fun _ h => decode_encode_fields rfl (by decide) (fun _ => rfl) h rfl rfl, fun h => (nomatch h)⟩

theorem bfx (f : Fields) : Statement (.bfx f) :=
  ⟨fun _ h => decode_encode_fields rfl (by decide) (fun _ => rfl) h rfl rfl, fun h => (nomatch h)⟩

theorem bfi (f : Fields) : Statement (.bfi f) :=
  ⟨fun _ h => decode_encode_fields rfl (by decide) (fun _ => rfl) h rfl rfl, fun h => (nomatch h)⟩

theorem popc (f : Fields) : Statement (.popc f) :=
  ⟨fun _ h => decode_encode_fields rfl (by decide) (fun _ => rfl) h rfl rfl, fun h => (nomatch h)⟩

theorem clz (f : Fields) : Statement (.clz f) :=
  ⟨fun _ h => decode_encode_fields rfl (by decide) (fun _ => rfl) h rfl rfl, fun h => (nomatch h)⟩

theorem ctz (f : Fields) : Statement (.ctz f) :=
  ⟨fun _ h => decode_encode_fields rfl (by decide) (fun _ => rfl) h rfl rfl, fun h => (nomatch h)⟩

theorem brev (f : Fields) : Statement (.brev f) :=
  ⟨fun _ h => decode_encode_fields rfl (by decide) (fun _ => rfl) h rfl rfl, fun h => (nomatch h)⟩

theorem bsel (f : Fields) : Statement (.bsel f) :=
  ⟨fun _ h => decode_encode_fields rfl (by decide) (fun _ => rfl) h rfl rfl, fun h => (nomatch h)⟩

theorem mov (f : Fields) : Statement (.mov f) :=
  ⟨fun _ h => decode_encode_fields rfl (by decide) (fun _ => rfl) h rfl rfl, fun h => (nomatch h)⟩

theorem movi (f : Fields) : Statement (.movi f) :=
  ⟨fun _ h => decode_encode_fields rfl (by decide) (fun _ => rfl) h rfl rfl, fun h => (nomatch h)⟩

theorem sel (f : Fields) : Statement (.sel f) :=
  ⟨fun _ h => decode_encode_fields rfl (by decide) (fun _ => rfl) h rfl rfl, fun h => (nomatch h)⟩

theorem cmp (f : Fields) : Statement (.cmp f) :=
  ⟨fun _ h => decode_encode_fields rfl (by decide) (fun _ => rfl) h rfl rfl, fun h => (nomatch h)⟩

theorem pset (f : Fields) : Statement (.pset f) :=
  ⟨fun _ h => decode_encode_fields rfl (by decide) (fun _ => rfl) h rfl rfl, fun h => (nomatch h)⟩

theorem lea (f : Fields) : Statement (.lea f) :=
  ⟨fun _ h => decode_encode_fields rfl (by decide) (fun _ => rfl) h rfl rfl, fun h => (nomatch h)⟩

theorem cvti (f : Fields) : Statement (.cvti f) :=
  ⟨fun _ h => decode_encode_fields rfl (by decide) (fun _ => rfl) h rfl rfl, fun h => (nomatch h)⟩

theorem ld (f : Fields) : Statement (.ld f) :=
  ⟨fun _ h => decode_encode_fields rfl (by decide) (fun _ => rfl) h rfl rfl, fun h => (nomatch h)⟩

theorem st (f : Fields) : Statement (.st f) :=
  ⟨fun _ h => decode_encode_fields rfl (by decide) (fun _ => rfl) h rfl rfl, fun h => (nomatch h)⟩

theorem pref (f : Fields) : Statement (.pref f) :=
  ⟨fun _ h => decode_encode_fields rfl (by decide) (fun _ => rfl) h rfl rfl, fun h => (nomatch h)⟩

theorem fadd (f : Fields) : Statement (.fadd f) :=
  ⟨fun _ h => decode_encode_fields rfl (by decide) (fun _ => rfl) h rfl rfl, fun h => (nomatch h)⟩

theorem fsub (f : Fields) : Statement (.fsub f) :=
  ⟨fun _ h => decode_encode_fields rfl (by decide) (fun _ => rfl) h rfl rfl, fun h => (nomatch h)⟩

theorem fmul (f : Fields) : Statement (.fmul f) :=
  ⟨fun _ h => decode_encode_fields rfl (by decide) (fun _ => rfl) h rfl rfl, fun h => (nomatch h)⟩

theorem ffma (f : Fields) : Statement (.ffma f) :=
  ⟨fun _ h => decode_encode_fields rfl (by decide) (fun _ => rfl) h rfl rfl, fun h => (nomatch h)⟩

theorem fmin (f : Fields) : Statement (.fmin f) :=
  ⟨fun _ h => decode_encode_fields rfl (by decide) (fun _ => rfl) h rfl rfl, fun h => (nomatch h)⟩

theorem fmax (f : Fields) : Statement (.fmax f) :=
  ⟨fun _ h => decode_encode_fields rfl (by decide) (fun _ => rfl) h rfl rfl, fun h => (nomatch h)⟩

theorem fcmp (f : Fields) : Statement (.fcmp f) :=
  ⟨fun _ h => decode_encode_fields rfl (by decide) (fun _ => rfl) h rfl rfl, fun h => (nomatch h)⟩

theorem fclass (f : Fields) : Statement (.fclass f) :=
  ⟨fun _ h => decode_encode_fields rfl (by decide) (fun _ => rfl) h rfl rfl, fun h => (nomatch h)⟩

theorem frnd (f : Fields) : Statement (.frnd f) :=
  ⟨fun _ h => decode_encode_fields rfl (by decide) (fun _ => rfl) h rfl rfl, fun h => (nomatch h)⟩

theorem fdiv (f : Fields) : Statement (.fdiv f) :=
  ⟨fun _ h => decode_encode_fields rfl (by decide) (fun _ => rfl) h rfl rfl, fun h => (nomatch h)⟩

theorem fsqrt (f : Fields) : Statement (.fsqrt f) :=
  ⟨fun _ h => decode_encode_fields rfl (by decide) (fun _ => rfl) h rfl rfl, fun h => (nomatch h)⟩

theorem frcp (f : Fields) : Statement (.frcp f) :=
  ⟨fun _ h => decode_encode_fields rfl (by decide) (fun _ => rfl) h rfl rfl, fun h => (nomatch h)⟩

theorem frsq (f : Fields) : Statement (.frsq f) :=
  ⟨fun _ h => decode_encode_fields rfl (by decide) (fun _ => rfl) h rfl rfl, fun h => (nomatch h)⟩

theorem fex2 (f : Fields) : Statement (.fex2 f) :=
  ⟨fun _ h => decode_encode_fields rfl (by decide) (fun _ => rfl) h rfl rfl, fun h => (nomatch h)⟩

theorem flg2 (f : Fields) : Statement (.flg2 f) :=
  ⟨fun _ h => decode_encode_fields rfl (by decide) (fun _ => rfl) h rfl rfl, fun h => (nomatch h)⟩

theorem fsin (f : Fields) : Statement (.fsin f) :=
  ⟨fun _ h => decode_encode_fields rfl (by decide) (fun _ => rfl) h rfl rfl, fun h => (nomatch h)⟩

theorem fcos (f : Fields) : Statement (.fcos f) :=
  ⟨fun _ h => decode_encode_fields rfl (by decide) (fun _ => rfl) h rfl rfl, fun h => (nomatch h)⟩

theorem ftanh (f : Fields) : Statement (.ftanh f) :=
  ⟨fun _ h => decode_encode_fields rfl (by decide) (fun _ => rfl) h rfl rfl, fun h => (nomatch h)⟩

theorem hadd2 (f : Fields) : Statement (.hadd2 f) :=
  ⟨fun _ h => decode_encode_fields rfl (by decide) (fun _ => rfl) h rfl rfl, fun h => (nomatch h)⟩

theorem hmul2 (f : Fields) : Statement (.hmul2 f) :=
  ⟨fun _ h => decode_encode_fields rfl (by decide) (fun _ => rfl) h rfl rfl, fun h => (nomatch h)⟩

theorem hfma2 (f : Fields) : Statement (.hfma2 f) :=
  ⟨fun _ h => decode_encode_fields rfl (by decide) (fun _ => rfl) h rfl rfl, fun h => (nomatch h)⟩

theorem cvtf (f : Fields) : Statement (.cvtf f) :=
  ⟨fun _ h => decode_encode_fields rfl (by decide) (fun _ => rfl) h rfl rfl, fun h => (nomatch h)⟩

theorem cvtfi (f : Fields) : Statement (.cvtfi f) :=
  ⟨fun _ h => decode_encode_fields rfl (by decide) (fun _ => rfl) h rfl rfl, fun h => (nomatch h)⟩

theorem cvtif (f : Fields) : Statement (.cvtif f) :=
  ⟨fun _ h => decode_encode_fields rfl (by decide) (fun _ => rfl) h rfl rfl, fun h => (nomatch h)⟩

theorem fscale (f : Fields) : Statement (.fscale f) :=
  ⟨fun _ h => decode_encode_fields rfl (by decide) (fun _ => rfl) h rfl rfl, fun h => (nomatch h)⟩

theorem nop (f : Fields) : Statement (.nop f) :=
  ⟨fun _ h => decode_encode_fields rfl (by decide) (fun _ => rfl) h rfl rfl, fun h => (nomatch h)⟩

theorem bra (f : Fields) : Statement (.bra f) :=
  ⟨fun _ h => decode_encode_fields rfl (by decide) (fun _ => rfl) h rfl rfl, fun h => (nomatch h)⟩

theorem brx (f : Fields) : Statement (.brx f) :=
  ⟨fun _ h => decode_encode_fields rfl (by decide) (fun _ => rfl) h rfl rfl, fun h => (nomatch h)⟩

theorem call (f : Fields) : Statement (.call f) :=
  ⟨fun _ h => decode_encode_fields rfl (by decide) (fun _ => rfl) h rfl rfl, fun h => (nomatch h)⟩

theorem callx (f : Fields) : Statement (.callx f) :=
  ⟨fun _ h => decode_encode_fields rfl (by decide) (fun _ => rfl) h rfl rfl, fun h => (nomatch h)⟩

theorem ret (f : Fields) : Statement (.ret f) :=
  ⟨fun _ h => decode_encode_fields rfl (by decide) (fun _ => rfl) h rfl rfl, fun h => (nomatch h)⟩

theorem exit (f : Fields) : Statement (.exit f) :=
  ⟨fun _ h => decode_encode_fields rfl (by decide) (fun _ => rfl) h rfl rfl, fun h => (nomatch h)⟩

theorem endThread (f : Fields) : Statement (.endThread f) :=
  ⟨fun _ h => decode_encode_fields rfl (by decide) (fun _ => rfl) h rfl rfl, fun h => (nomatch h)⟩

theorem trap (f : Fields) : Statement (.trap f) :=
  ⟨fun _ h => decode_encode_fields rfl (by decide) (fun _ => rfl) h rfl rfl, fun h => (nomatch h)⟩

theorem bpt (f : Fields) : Statement (.bpt f) :=
  ⟨fun _ h => decode_encode_fields rfl (by decide) (fun _ => rfl) h rfl rfl, fun h => (nomatch h)⟩

theorem yield (f : Fields) : Statement (.yield f) :=
  ⟨fun _ h => decode_encode_fields rfl (by decide) (fun _ => rfl) h rfl rfl, fun h => (nomatch h)⟩

theorem xlane (f : Fields) : Statement (.xlane f) :=
  ⟨fun _ h => decode_encode_fields rfl (by decide) (fun _ => rfl) h rfl rfl, fun h => (nomatch h)⟩

theorem pqry (f : Fields) : Statement (.pqry f) :=
  ⟨fun _ h => decode_encode_fields rfl (by decide) (fun _ => rfl) h rfl rfl, fun h => (nomatch h)⟩

theorem gred (f : Fields) : Statement (.gred f) :=
  ⟨fun _ h => decode_encode_fields rfl (by decide) (fun _ => rfl) h rfl rfl, fun h => (nomatch h)⟩

theorem scan (f : Fields) : Statement (.scan f) :=
  ⟨fun _ h => decode_encode_fields rfl (by decide) (fun _ => rfl) h rfl rfl, fun h => (nomatch h)⟩

theorem kgrp (f : Fields) : Statement (.kgrp f) :=
  ⟨fun _ h => decode_encode_fields rfl (by decide) (fun _ => rfl) h rfl rfl, fun h => (nomatch h)⟩

theorem lead (f : Fields) : Statement (.lead f) :=
  ⟨fun _ h => decode_encode_fields rfl (by decide) (fun _ => rfl) h rfl rfl, fun h => (nomatch h)⟩

theorem rcvJ (f : Fields) : Statement (.rcvJ f) :=
  ⟨fun _ h => decode_encode_fields rfl (by decide) (fun hm => by rw [instrOf_96, List.mem_singleton.1 hm]; rfl) h rfl rfl, fun h => (nomatch h)⟩

theorem rcvB (f : Fields) : Statement (.rcvB f) :=
  ⟨fun _ h => decode_encode_fields rfl (by decide) (fun hm => by rw [instrOf_96, List.mem_singleton.1 hm]; rfl) h rfl rfl, fun h => (nomatch h)⟩

theorem join (f : Fields) : Statement (.join f) :=
  ⟨fun _ h => decode_encode_fields rfl (by decide) (fun _ => rfl) h rfl rfl, fun h => (nomatch h)⟩

theorem brkj (f : Fields) : Statement (.brkj f) :=
  ⟨fun _ h => decode_encode_fields rfl (by decide) (fun _ => rfl) h rfl rfl, fun h => (nomatch h)⟩

theorem regang (f : Fields) : Statement (.regang f) :=
  ⟨fun _ h => decode_encode_fields rfl (by decide) (fun _ => rfl) h rfl rfl, fun h => (nomatch h)⟩

theorem cont (f : Fields) : Statement (.cont f) :=
  ⟨fun _ h => decode_encode_fields rfl (by decide) (fun _ => rfl) h rfl rfl, fun h => (nomatch h)⟩

theorem fwd (f : Fields) : Statement (.fwd f) :=
  ⟨fun _ h => decode_encode_fields rfl (by decide) (fun _ => rfl) h rfl rfl, fun h => (nomatch h)⟩

theorem spawn (f : Fields) : Statement (.spawn f) :=
  ⟨fun _ h => decode_encode_fields rfl (by decide) (fun hm => by rw [instrOf_9c, List.mem_singleton.1 hm]; rfl) h rfl rfl, fun h => (nomatch h)⟩

theorem spawnNb (f : Fields) : Statement (.spawnNb f) :=
  ⟨fun _ h => decode_encode_fields rfl (by decide) (fun hm => by rw [instrOf_9c, List.mem_singleton.1 hm]; rfl) h rfl rfl, fun h => (nomatch h)⟩

theorem bari (f : Fields) : Statement (.bari f) :=
  ⟨fun _ h => decode_encode_fields rfl (by decide) (fun _ => rfl) h rfl rfl, fun h => (nomatch h)⟩

theorem arrive (f : Fields) : Statement (.arrive f) :=
  ⟨fun _ h => decode_encode_fields rfl (by decide) (fun hm => by rw [instrOf_9e, List.mem_singleton.1 hm]; rfl) h rfl rfl, fun h => (nomatch h)⟩

theorem arriveRlx (f : Fields) : Statement (.arriveRlx f) :=
  ⟨fun _ h => decode_encode_fields rfl (by decide) (fun hm => by rw [instrOf_9e, List.mem_singleton.1 hm]; rfl) h rfl rfl, fun h => (nomatch h)⟩

theorem arriveRemote (f : Fields) : Statement (.arriveRemote f) :=
  ⟨fun _ h => decode_encode_fields rfl (by decide) (fun hm => by rw [instrOf_9e, List.mem_singleton.1 hm]; rfl) h rfl rfl, fun h => (nomatch h)⟩

theorem bwait (f : Fields) : Statement (.bwait f) :=
  ⟨fun _ h => decode_encode_fields rfl (by decide) (fun hm => by rw [instrOf_9f, List.mem_singleton.1 hm]; rfl) h rfl rfl, fun h => (nomatch h)⟩

theorem bwaitRemote (f : Fields) : Statement (.bwaitRemote f) :=
  ⟨fun _ h => decode_encode_fields rfl (by decide) (fun hm => by rw [instrOf_9f, List.mem_singleton.1 hm]; rfl) h rfl rfl, fun h => (nomatch h)⟩

theorem expb (f : Fields) : Statement (.expb f) :=
  ⟨fun _ h => decode_encode_fields rfl (by decide) (fun _ => rfl) h rfl rfl, fun h => (nomatch h)⟩

theorem expn (f : Fields) : Statement (.expn f) :=
  ⟨fun _ h => decode_encode_fields rfl (by decide) (fun _ => rfl) h rfl rfl, fun h => (nomatch h)⟩

theorem expe (f : Fields) : Statement (.expe f) :=
  ⟨fun _ h => decode_encode_fields rfl (by decide) (fun _ => rfl) h rfl rfl, fun h => (nomatch h)⟩

theorem segr (f : Fields) : Statement (.segr f) :=
  ⟨fun _ h => decode_encode_fields rfl (by decide) (fun _ => rfl) h rfl rfl, fun h => (nomatch h)⟩

theorem ldfe (f : Fields) : Statement (.ldfe f) :=
  ⟨fun _ h => decode_encode_fields rfl (by decide) (fun _ => rfl) h rfl rfl, fun h => (nomatch h)⟩

theorem stfe (f : Fields) : Statement (.stfe f) :=
  ⟨fun _ h => decode_encode_fields rfl (by decide) (fun _ => rfl) h rfl rfl, fun h => (nomatch h)⟩

theorem fesetEmpty (f : Fields) : Statement (.fesetEmpty f) :=
  ⟨fun _ h => decode_encode_fields rfl (by decide) (fun hm => by rw [instrOf_b2, List.mem_singleton.1 hm]; rfl) h rfl rfl, fun h => (nomatch h)⟩

theorem fesetFull (f : Fields) : Statement (.fesetFull f) :=
  ⟨fun _ h => decode_encode_fields rfl (by decide) (fun hm => by rw [instrOf_b2, List.mem_singleton.1 hm]; rfl) h rfl rfl, fun h => (nomatch h)⟩

theorem atom (f : Fields) : Statement (.atom f) :=
  ⟨fun _ h => decode_encode_fields rfl (by decide) (fun _ => rfl) h rfl rfl, fun h => (nomatch h)⟩

theorem red (f : Fields) : Statement (.red f) :=
  ⟨fun _ h => decode_encode_fields rfl (by decide) (fun _ => rfl) h rfl rfl, fun h => (nomatch h)⟩

theorem cas (f : Fields) : Statement (.cas f) :=
  ⟨fun _ h => decode_encode_fields rfl (by decide) (fun _ => rfl) h rfl rfl, fun h => (nomatch h)⟩

theorem waitc (f : Fields) : Statement (.waitc f) :=
  ⟨fun _ h => decode_encode_fields rfl (by decide) (fun _ => rfl) h rfl rfl, fun h => (nomatch h)⟩

theorem fence (f : Fields) : Statement (.fence f) :=
  ⟨fun _ h => decode_encode_fields rfl (by decide) (fun hm => by rw [instrOf_b7, List.mem_singleton.1 hm]; rfl) h rfl rfl, fun h => (nomatch h)⟩

theorem fenceWc (f : Fields) : Statement (.fenceWc f) :=
  ⟨fun _ h => decode_encode_fields rfl (by decide) (fun hm => by rw [instrOf_b7, List.mem_singleton.1 hm]; rfl) h rfl rfl, fun h => (nomatch h)⟩

theorem cmaintIinv (f : Fields) : Statement (.cmaintIinv f) :=
  ⟨fun _ h => decode_encode_fields rfl (by decide) (fun hm => by rw [instrOf_b8, List.mem_singleton.1 hm]; rfl) h rfl rfl, fun h => (nomatch h)⟩

theorem cmaintWb (f : Fields) : Statement (.cmaintWb f) :=
  ⟨fun _ h => decode_encode_fields rfl (by decide) (fun hm => by rw [instrOf_b8, List.mem_singleton.1 hm]; rfl) h rfl rfl, fun h => (nomatch h)⟩

theorem cmaintWbinv (f : Fields) : Statement (.cmaintWbinv f) :=
  ⟨fun _ h => decode_encode_fields rfl (by decide) (fun hm => by rw [instrOf_b8, List.mem_singleton.1 hm]; rfl) h rfl rfl, fun h => (nomatch h)⟩

theorem cmaintMsset (f : Fields) : Statement (.cmaintMsset f) :=
  ⟨fun _ h => decode_encode_fields rfl (by decide) (fun hm => by rw [instrOf_b8, List.mem_singleton.1 hm]; rfl) h rfl rfl, fun h => (nomatch h)⟩

theorem cmaintMsclr (f : Fields) : Statement (.cmaintMsclr f) :=
  ⟨fun _ h => decode_encode_fields rfl (by decide) (fun hm => by rw [instrOf_b8, List.mem_singleton.1 hm]; rfl) h rfl rfl, fun h => (nomatch h)⟩

theorem cmaintRepair (f : Fields) : Statement (.cmaintRepair f) :=
  ⟨fun _ h => decode_encode_fields rfl (by decide) (fun hm => by rw [instrOf_b8, List.mem_singleton.1 hm]; rfl) h rfl rfl, fun h => (nomatch h)⟩

theorem ldt (f : Fields) : Statement (.ldt f) :=
  ⟨fun _ h => decode_encode_fields rfl (by decide) (fun _ => rfl) h rfl rfl, fun h => (nomatch h)⟩

theorem qpush (f : Fields) : Statement (.qpush f) :=
  ⟨fun _ h => decode_encode_fields rfl (by decide) (fun _ => rfl) h rfl rfl, fun h => (nomatch h)⟩

theorem qwait (f : Fields) : Statement (.qwait f) :=
  ⟨fun _ h => decode_encode_fields rfl (by decide) (fun hm => by rw [instrOf_bb, List.mem_singleton.1 hm]; rfl) h rfl rfl, fun h => (nomatch h)⟩

theorem qwaitNb (f : Fields) : Statement (.qwaitNb f) :=
  ⟨fun _ h => decode_encode_fields rfl (by decide) (fun hm => by rw [instrOf_bb, List.mem_singleton.1 hm]; rfl) h rfl rfl, fun h => (nomatch h)⟩

theorem mxresX (f : Fields) : Statement (.mxresX f) :=
  ⟨fun _ h => decode_encode_fields rfl (by decide) (fun hm => by rw [instrOf_c0, List.mem_singleton.1 hm]; rfl) h rfl rfl, fun h => (nomatch h)⟩

theorem mxresW (f : Fields) : Statement (.mxresW f) :=
  ⟨fun _ h => decode_encode_fields rfl (by decide) (fun hm => by rw [instrOf_c0, List.mem_singleton.1 hm]; rfl) h rfl rfl, fun h => (nomatch h)⟩

theorem mxrel (f : Fields) : Statement (.mxrel f) :=
  ⟨fun _ h => decode_encode_fields rfl (by decide) (fun _ => rfl) h rfl rfl, fun h => (nomatch h)⟩

theorem mxfence (f : Fields) : Statement (.mxfence f) :=
  ⟨fun _ h => decode_encode_fields rfl (by decide) (fun _ => rfl) h rfl rfl, fun h => (nomatch h)⟩

theorem mxissue (f : Fields) : Statement (.mxissue f) :=
  ⟨fun _ h => decode_encode_fields rfl (by decide) (fun _ => rfl) h rfl rfl, fun h => (nomatch h)⟩

theorem mxdrain (f : Fields) : Statement (.mxdrain f) :=
  ⟨fun _ h => decode_encode_fields rfl (by decide) (fun hm => by rw [instrOf_c4, List.mem_singleton.1 hm]; rfl) h rfl rfl, fun h => (nomatch h)⟩

theorem mxdrainRaw (f : Fields) : Statement (.mxdrainRaw f) :=
  ⟨fun _ h => decode_encode_fields rfl (by decide) (fun hm => by rw [instrOf_c4, List.mem_singleton.1 hm]; rfl) h rfl rfl, fun h => (nomatch h)⟩

theorem mxdrainMx (f : Fields) : Statement (.mxdrainMx f) :=
  ⟨fun _ h => decode_encode_fields rfl (by decide) (fun hm => by rw [instrOf_c4, List.mem_singleton.1 hm]; rfl) h rfl rfl, fun h => (nomatch h)⟩

theorem talloc (f : Fields) : Statement (.talloc f) :=
  ⟨fun _ h => decode_encode_fields rfl (by decide) (fun _ => rfl) h rfl rfl, fun h => (nomatch h)⟩

theorem tfree (f : Fields) : Statement (.tfree f) :=
  ⟨fun _ h => decode_encode_fields rfl (by decide) (fun _ => rfl) h rfl rfl, fun h => (nomatch h)⟩

theorem qnt (f : Fields) : Statement (.qnt f) :=
  ⟨fun _ h => decode_encode_fields rfl (by decide) (fun _ => rfl) h rfl rfl, fun h => (nomatch h)⟩

theorem dqnt (f : Fields) : Statement (.dqnt f) :=
  ⟨fun _ h => decode_encode_fields rfl (by decide) (fun _ => rfl) h rfl rfl, fun h => (nomatch h)⟩

theorem cpy (f : Fields) : Statement (.cpy f) :=
  ⟨fun _ h => decode_encode_fields rfl (by decide) (fun _ => rfl) h rfl rfl, fun h => (nomatch h)⟩

theorem fetch (f : Fields) : Statement (.fetch f) :=
  ⟨fun _ h => decode_encode_fields rfl (by decide) (fun _ => rfl) h rfl rfl, fun h => (nomatch h)⟩

theorem ixwalk (f : Fields) : Statement (.ixwalk f) :=
  ⟨fun _ h => decode_encode_fields rfl (by decide) (fun _ => rfl) h rfl rfl, fun h => (nomatch h)⟩

theorem zopen (f : Fields) : Statement (.zopen f) :=
  ⟨fun _ h => decode_encode_fields rfl (by decide) (fun _ => rfl) h rfl rfl, fun h => (nomatch h)⟩

theorem zadv (f : Fields) : Statement (.zadv f) :=
  ⟨fun _ h => decode_encode_fields rfl (by decide) (fun hm => by rw [instrOf_cd, List.mem_singleton.1 hm]; rfl) h rfl rfl, fun h => (nomatch h)⟩

theorem zadvSeek (f : Fields) : Statement (.zadvSeek f) :=
  ⟨fun _ h => decode_encode_fields rfl (by decide) (fun hm => by rw [instrOf_cd, List.mem_singleton.1 hm]; rfl) h rfl rfl, fun h => (nomatch h)⟩

theorem zend (f : Fields) : Statement (.zend f) :=
  ⟨fun _ h => decode_encode_fields rfl (by decide) (fun _ => rfl) h rfl rfl, fun h => (nomatch h)⟩

theorem zclose (f : Fields) : Statement (.zclose f) :=
  ⟨fun _ h => decode_encode_fields rfl (by decide) (fun _ => rfl) h rfl rfl, fun h => (nomatch h)⟩

theorem zval (f : Fields) : Statement (.zval f) :=
  ⟨fun _ h => decode_encode_fields rfl (by decide) (fun _ => rfl) h rfl rfl, fun h => (nomatch h)⟩

theorem cpact (f : Fields) : Statement (.cpact f) :=
  ⟨fun _ h => decode_encode_fields rfl (by decide) (fun _ => rfl) h rfl rfl, fun h => (nomatch h)⟩

theorem cpfl (f : Fields) : Statement (.cpfl f) :=
  ⟨fun _ h => decode_encode_fields rfl (by decide) (fun _ => rfl) h rfl rfl, fun h => (nomatch h)⟩

theorem racqP (f : Fields) : Statement (.racqP f) :=
  ⟨fun _ h => decode_encode_fields rfl (by decide) (fun hm => by rw [instrOf_d3, List.mem_singleton.1 hm]; rfl) h rfl rfl, fun h => (nomatch h)⟩

theorem racqC (f : Fields) : Statement (.racqC f) :=
  ⟨fun _ h => decode_encode_fields rfl (by decide) (fun hm => by rw [instrOf_d3, List.mem_singleton.1 hm]; rfl) h rfl rfl, fun h => (nomatch h)⟩

theorem rrelP (f : Fields) : Statement (.rrelP f) :=
  ⟨fun _ h => decode_encode_fields rfl (by decide) (fun hm => by rw [instrOf_d4, List.mem_singleton.1 hm]; rfl) h rfl rfl, fun h => (nomatch h)⟩

theorem rrelC (f : Fields) : Statement (.rrelC f) :=
  ⟨fun _ h => decode_encode_fields rfl (by decide) (fun hm => by rw [instrOf_d4, List.mem_singleton.1 hm]; rfl) h rfl rfl, fun h => (nomatch h)⟩

theorem fwait (f : Fields) : Statement (.fwait f) :=
  ⟨fun _ h => decode_encode_fields rfl (by decide) (fun _ => rfl) h rfl rfl, fun h => (nomatch h)⟩

theorem ftest (f : Fields) : Statement (.ftest f) :=
  ⟨fun _ h => decode_encode_fields rfl (by decide) (fun _ => rfl) h rfl rfl, fun h => (nomatch h)⟩

theorem fcancel (f : Fields) : Statement (.fcancel f) :=
  ⟨fun _ h => decode_encode_fields rfl (by decide) (fun _ => rfl) h rfl rfl, fun h => (nomatch h)⟩

theorem rinit (f : Fields) : Statement (.rinit f) :=
  ⟨fun _ h => decode_encode_fields rfl (by decide) (fun _ => rfl) h rfl rfl, fun h => (nomatch h)⟩

theorem gets (f : Fields) : Statement (.gets f) :=
  ⟨fun _ h => decode_encode_fields rfl (by decide) (fun _ => rfl) h rfl rfl, fun h => (nomatch h)⟩

theorem sets (f : Fields) : Statement (.sets f) :=
  ⟨fun _ h => decode_encode_fields rfl (by decide) (fun _ => rfl) h rfl rfl, fun h => (nomatch h)⟩

theorem tretRetry (f : Fields) : Statement (.tretRetry f) :=
  ⟨fun _ h => decode_encode_fields rfl (by decide) (fun hm => by rw [instrOf_e2, List.mem_singleton.1 hm]; rfl) h rfl rfl, fun h => (nomatch h)⟩

theorem tretSkip (f : Fields) : Statement (.tretSkip f) :=
  ⟨fun _ h => decode_encode_fields rfl (by decide) (fun hm => by rw [instrOf_e2, List.mem_singleton.1 hm]; rfl) h rfl rfl, fun h => (nomatch h)⟩

theorem tretKill (f : Fields) : Statement (.tretKill f) :=
  ⟨fun _ h => decode_encode_fields rfl (by decide) (fun hm => by rw [instrOf_e2, List.mem_singleton.1 hm]; rfl) h rfl rfl, fun h => (nomatch h)⟩

theorem snap (f : Fields) : Statement (.snap f) :=
  ⟨fun _ h => decode_encode_fields rfl (by decide) (fun _ => rfl) h rfl rfl, fun h => (nomatch h)⟩

theorem udf (f : Fields) : Statement (.udf f) :=
  ⟨fun _ h => (nomatch h), fun h => (nomatch h)⟩

theorem snapshotLatch (block : Nat) : Statement (.snapshotLatch block) :=
  ⟨fun h => (nomatch h), fun _ => rfl⟩

theorem trapDelivery (core slot pos : Nat) : Statement (.trapDelivery core slot pos) :=
  ⟨fun h => (nomatch h), fun _ => rfl⟩

theorem completionStageTrap (core slot pos : Nat) : Statement (.completionStageTrap core slot pos) :=
  ⟨fun h => (nomatch h), fun _ => rfl⟩

theorem segmentEnd (core slot pos : Nat) : Statement (.segmentEnd core slot pos) :=
  ⟨fun h => (nomatch h), fun _ => rfl⟩

theorem poolSpaceGrant (core slot pos : Nat) : Statement (.poolSpaceGrant core slot pos) :=
  ⟨fun h => (nomatch h), fun _ => rfl⟩

theorem recordMove (rid dest : Nat) : Statement (.recordMove rid dest) :=
  ⟨fun h => (nomatch h), fun _ => rfl⟩

theorem laneEventFire (rid lane : Nat) : Statement (.laneEventFire rid lane) :=
  ⟨fun h => (nomatch h), fun _ => rfl⟩

theorem binDrain (core bin : Nat) : Statement (.binDrain core bin) :=
  ⟨fun h => (nomatch h), fun _ => rfl⟩

theorem expSlotLoad (core bin : Nat) : Statement (.expSlotLoad core bin) :=
  ⟨fun h => (nomatch h), fun _ => rfl⟩

theorem gangCreate (core : Nat) : Statement (.gangCreate core) :=
  ⟨fun h => (nomatch h), fun _ => rfl⟩

theorem agingStep (who : AgeRef) : Statement (.agingStep who) :=
  ⟨fun h => (nomatch h), fun _ => rfl⟩

theorem balancerPeriod (die : Nat) : Statement (.balancerPeriod die) :=
  ⟨fun h => (nomatch h), fun _ => rfl⟩

theorem taskSliceForm (die ctx entry : Nat) : Statement (.taskSliceForm die ctx entry) :=
  ⟨fun h => (nomatch h), fun _ => rfl⟩

theorem taskAgeTimeout (die ctx entry : Nat) : Statement (.taskAgeTimeout die ctx entry) :=
  ⟨fun h => (nomatch h), fun _ => rfl⟩

theorem taskqRoomPlace (die : Nat) : Statement (.taskqRoomPlace die) :=
  ⟨fun h => (nomatch h), fun _ => rfl⟩

theorem launchHeadCheck (queue : Nat) : Statement (.launchHeadCheck queue) :=
  ⟨fun h => (nomatch h), fun _ => rfl⟩

theorem dependenceLatch (lid dep : Nat) : Statement (.dependenceLatch lid dep) :=
  ⟨fun h => (nomatch h), fun _ => rfl⟩

theorem launchComplete (lid : Nat) : Statement (.launchComplete lid) :=
  ⟨fun h => (nomatch h), fun _ => rfl⟩

theorem groupPlace (core : Nat) : Statement (.groupPlace core) :=
  ⟨fun h => (nomatch h), fun _ => rfl⟩

theorem walkComplete (id : Nat) : Statement (.walkComplete id) :=
  ⟨fun h => (nomatch h), fun _ => rfl⟩

theorem walkFail (id : Nat) : Statement (.walkFail id) :=
  ⟨fun h => (nomatch h), fun _ => rfl⟩

theorem walkStart (die : Nat) : Statement (.walkStart die) :=
  ⟨fun h => (nomatch h), fun _ => rfl⟩

theorem tlbRetentionExpiry (id : Nat) : Statement (.tlbRetentionExpiry id) :=
  ⟨fun h => (nomatch h), fun _ => rfl⟩

theorem wcBufferWrite (id : Nat) : Statement (.wcBufferWrite id) :=
  ⟨fun h => (nomatch h), fun _ => rfl⟩

theorem logicalClockTick (core : Nat) : Statement (.logicalClockTick core) :=
  ⟨fun h => (nomatch h), fun _ => rfl⟩

theorem dirtyEvictWriteback (die line : Nat) : Statement (.dirtyEvictWriteback die line) :=
  ⟨fun h => (nomatch h), fun _ => rfl⟩

theorem requestInject (id : Nat) : Statement (.requestInject id) :=
  ⟨fun h => (nomatch h), fun _ => rfl⟩

theorem requestTimeout (id : Nat) : Statement (.requestTimeout id) :=
  ⟨fun h => (nomatch h), fun _ => rfl⟩

theorem reservingTimeout (lid : Nat) : Statement (.reservingTimeout lid) :=
  ⟨fun h => (nomatch h), fun _ => rfl⟩

theorem backoffExpiry (lid : Nat) : Statement (.backoffExpiry lid) :=
  ⟨fun h => (nomatch h), fun _ => rfl⟩

theorem partReserveExpiry (key : Nat) : Statement (.partReserveExpiry key) :=
  ⟨fun h => (nomatch h), fun _ => rfl⟩

theorem partStart (key : Nat) : Statement (.partStart key) :=
  ⟨fun h => (nomatch h), fun _ => rfl⟩

theorem engineUnitAccess (op : Nat) : Statement (.engineUnitAccess op) :=
  ⟨fun h => (nomatch h), fun _ => rfl⟩

theorem cpyCompletion (op : Nat) : Statement (.cpyCompletion op) :=
  ⟨fun h => (nomatch h), fun _ => rfl⟩

theorem fetchReserve (core queue : Nat) : Statement (.fetchReserve core queue) :=
  ⟨fun h => (nomatch h), fun _ => rfl⟩

theorem fetchCompletion (op : Nat) : Statement (.fetchCompletion op) :=
  ⟨fun h => (nomatch h), fun _ => rfl⟩

theorem ixwalkRangeComplete (op : Nat) : Statement (.ixwalkRangeComplete op) :=
  ⟨fun h => (nomatch h), fun _ => rfl⟩

theorem ixwalkCompletion (op : Nat) : Statement (.ixwalkCompletion op) :=
  ⟨fun h => (nomatch h), fun _ => rfl⟩

theorem cpactTileFill (core : Nat) : Statement (.cpactTileFill core) :=
  ⟨fun h => (nomatch h), fun _ => rfl⟩

theorem cpactCompletion (op : Nat) : Statement (.cpactCompletion op) :=
  ⟨fun h => (nomatch h), fun _ => rfl⟩

theorem matrixOpStart (core : Nat) : Statement (.matrixOpStart core) :=
  ⟨fun h => (nomatch h), fun _ => rfl⟩

theorem matrixOpComplete (op : Nat) : Statement (.matrixOpComplete op) :=
  ⟨fun h => (nomatch h), fun _ => rfl⟩

theorem mxdrainCompletion (op : Nat) : Statement (.mxdrainCompletion op) :=
  ⟨fun h => (nomatch h), fun _ => rfl⟩

theorem qntCompletion (op : Nat) : Statement (.qntCompletion op) :=
  ⟨fun h => (nomatch h), fun _ => rfl⟩

theorem dqntCompletion (op : Nat) : Statement (.dqntCompletion op) :=
  ⟨fun h => (nomatch h), fun _ => rfl⟩

theorem cancelSafePoint (op : Nat) : Statement (.cancelSafePoint op) :=
  ⟨fun h => (nomatch h), fun _ => rfl⟩

theorem faultEntryWrite (queue : Nat) : Statement (.faultEntryWrite queue) :=
  ⟨fun h => (nomatch h), fun _ => rfl⟩

theorem preemptGo (die : Nat) : Statement (.preemptGo die) :=
  ⟨fun h => (nomatch h), fun _ => rfl⟩

theorem preemptGroupDone (die : Nat) : Statement (.preemptGroupDone die) :=
  ⟨fun h => (nomatch h), fun _ => rfl⟩

theorem preemptResume (die : Nat) : Statement (.preemptResume die) :=
  ⟨fun h => (nomatch h), fun _ => rfl⟩

theorem qwakeWrite (queue : Nat) (value : BitVec 64) : Statement (.qwakeWrite queue value) :=
  ⟨fun h => (nomatch h), fun _ => rfl⟩

theorem wakeWordChange (queue : Nat) : Statement (.wakeWordChange queue) :=
  ⟨fun h => (nomatch h), fun _ => rfl⟩

theorem nopPacket (queue : Nat) : Statement (.nopPacket queue) :=
  ⟨fun h => (nomatch h), fun _ => rfl⟩

theorem launchPacket (queue : Nat) : Statement (.launchPacket queue) :=
  ⟨fun h => (nomatch h), fun _ => rfl⟩

theorem beginPacket (queue : Nat) : Statement (.beginPacket queue) :=
  ⟨fun h => (nomatch h), fun _ => rfl⟩

theorem commitPacket (queue : Nat) : Statement (.commitPacket queue) :=
  ⟨fun h => (nomatch h), fun _ => rfl⟩

theorem replacePacket (queue : Nat) : Statement (.replacePacket queue) :=
  ⟨fun h => (nomatch h), fun _ => rfl⟩

theorem signalPacket (queue : Nat) : Statement (.signalPacket queue) :=
  ⟨fun h => (nomatch h), fun _ => rfl⟩

theorem ctxnew (ctx : Nat) : Statement (.ctxnew ctx) :=
  ⟨fun h => (nomatch h), fun _ => rfl⟩

theorem ctxdel (ctx : Nat) : Statement (.ctxdel ctx) :=
  ⟨fun h => (nomatch h), fun _ => rfl⟩

theorem mapq (queue : Nat) : Statement (.mapq queue) :=
  ⟨fun h => (nomatch h), fun _ => rfl⟩

theorem unmapq (queue : Nat) : Statement (.unmapq queue) :=
  ⟨fun h => (nomatch h), fun _ => rfl⟩

theorem queueUnmapComplete (queue : Nat) : Statement (.queueUnmapComplete queue) :=
  ⟨fun h => (nomatch h), fun _ => rfl⟩

theorem abortCmd (seq : Nat) : Statement (.abortCmd seq) :=
  ⟨fun h => (nomatch h), fun _ => rfl⟩

theorem preemptCmd (arg : BitVec 56) : Statement (.preemptCmd arg) :=
  ⟨fun h => (nomatch h), fun _ => rfl⟩

theorem binTimeout (core bin : Nat) : Statement (.binTimeout core bin) :=
  ⟨fun h => (nomatch h), fun _ => rfl⟩

theorem feataccWrite (value : BitVec 64) : Statement (.feataccWrite value) :=
  ⟨fun h => (nomatch h), fun _ => rfl⟩

theorem poolcfgApply (die : Nat) : Statement (.poolcfgApply die) :=
  ⟨fun h => (nomatch h), fun _ => rfl⟩

theorem registerWrite (w : RegWrite) : Statement (.registerWrite w) :=
  ⟨fun h => (nomatch h), fun _ => rfl⟩

theorem sctlOpen (stream : Nat) : Statement (.sctlOpen stream) :=
  ⟨fun h => (nomatch h), fun _ => rfl⟩

theorem sctlClose (stream : Nat) : Statement (.sctlClose stream) :=
  ⟨fun h => (nomatch h), fun _ => rfl⟩

theorem frameClose (stream slot : Nat) : Statement (.frameClose stream slot) :=
  ⟨fun h => (nomatch h), fun _ => rfl⟩

theorem frameTimeout (stream slot : Nat) : Statement (.frameTimeout stream slot) :=
  ⟨fun h => (nomatch h), fun _ => rfl⟩

theorem mreset (value : BitVec 64) : Statement (.mreset value) :=
  ⟨fun h => (nomatch h), fun _ => rfl⟩

theorem clockGate (core : Nat) : Statement (.clockGate core) :=
  ⟨fun h => (nomatch h), fun _ => rfl⟩

theorem coreWake (core : Nat) : Statement (.coreWake core) :=
  ⟨fun h => (nomatch h), fun _ => rfl⟩

theorem partUnreachable (lid : Nat) : Statement (.partUnreachable lid) :=
  ⟨fun h => (nomatch h), fun _ => rfl⟩

theorem launchMsg (m : Msg) : Statement (.launchMsg m) :=
  ⟨fun h => (nomatch h), fun _ => rfl⟩

theorem recMsg (m : Msg) : Statement (.recMsg m) :=
  ⟨fun h => (nomatch h), fun _ => rfl⟩

theorem partReserve (m : Msg) : Statement (.partReserve m) :=
  ⟨fun h => (nomatch h), fun _ => rfl⟩

theorem partCommit (m : Msg) : Statement (.partCommit m) :=
  ⟨fun h => (nomatch h), fun _ => rfl⟩

theorem partRollback (m : Msg) : Statement (.partRollback m) :=
  ⟨fun h => (nomatch h), fun _ => rfl⟩

theorem partReport (m : Msg) : Statement (.partReport m) :=
  ⟨fun h => (nomatch h), fun _ => rfl⟩

theorem rdMsg (m : Msg) : Statement (.rdMsg m) :=
  ⟨fun h => (nomatch h), fun _ => rfl⟩

theorem rdxMsg (m : Msg) : Statement (.rdxMsg m) :=
  ⟨fun h => (nomatch h), fun _ => rfl⟩

theorem wrMsg (m : Msg) : Statement (.wrMsg m) :=
  ⟨fun h => (nomatch h), fun _ => rfl⟩

theorem wrpMsg (m : Msg) : Statement (.wrpMsg m) :=
  ⟨fun h => (nomatch h), fun _ => rfl⟩

theorem atmMsg (m : Msg) : Statement (.atmMsg m) :=
  ⟨fun h => (nomatch h), fun _ => rfl⟩

theorem monMsg (m : Msg) : Statement (.monMsg m) :=
  ⟨fun h => (nomatch h), fun _ => rfl⟩

theorem fwqMsg (m : Msg) : Statement (.fwqMsg m) :=
  ⟨fun h => (nomatch h), fun _ => rfl⟩

theorem dataMsg (m : Msg) : Statement (.dataMsg m) :=
  ⟨fun h => (nomatch h), fun _ => rfl⟩

theorem ackMsg (m : Msg) : Statement (.ackMsg m) :=
  ⟨fun h => (nomatch h), fun _ => rfl⟩

theorem msat (m : Msg) : Statement (.msat m) :=
  ⟨fun h => (nomatch h), fun _ => rfl⟩

theorem nackMsg (m : Msg) : Statement (.nackMsg m) :=
  ⟨fun h => (nomatch h), fun _ => rfl⟩

theorem flitReceive (port : Nat) (f : Flit) : Statement (.flitReceive port f) :=
  ⟨fun h => (nomatch h), fun _ => rfl⟩

theorem linkTakedown (port : Nat) : Statement (.linkTakedown port) :=
  ⟨fun h => (nomatch h), fun _ => rfl⟩

theorem bersyAccess (x : BersyAccess) : Statement (.bersyAccess x) :=
  ⟨fun h => (nomatch h), fun _ => rfl⟩

theorem bersyLaneFail (lane : Nat) : Statement (.bersyLaneFail lane) :=
  ⟨fun h => (nomatch h), fun _ => rfl⟩

theorem ptpEventMessage (port : Nat) : Statement (.ptpEventMessage port) :=
  ⟨fun h => (nomatch h), fun _ => rfl⟩

theorem ingestPacket (p : StreamPacket) : Statement (.ingestPacket p) :=
  ⟨fun h => (nomatch h), fun _ => rfl⟩

theorem bootRomPhase (staged : Bool) : Statement (.bootRomPhase staged) :=
  ⟨fun h => (nomatch h), fun _ => rfl⟩

theorem verifyPhase (signatureOk : Bool) : Statement (.verifyPhase signatureOk) :=
  ⟨fun h => (nomatch h), fun _ => rfl⟩

theorem hbminitPhase (ok : Bool) : Statement (.hbminitPhase ok) :=
  ⟨fun h => (nomatch h), fun _ => rfl⟩

theorem selftestPhase (ok : Bool) : Statement (.selftestPhase ok) :=
  ⟨fun h => (nomatch h), fun _ => rfl⟩

theorem readyPhase (fw : FirmwareValues) : Statement (.readyPhase fw) :=
  ⟨fun h => (nomatch h), fun _ => rfl⟩

theorem throttle (pwr tj tin : BitVec 16) : Statement (.throttle pwr tj tin) :=
  ⟨fun h => (nomatch h), fun _ => rfl⟩

theorem fabricReceiveEntry (core port : Nat) (words : List (BitVec 32)) : Statement (.fabricReceiveEntry core port words) :=
  ⟨fun h => (nomatch h), fun _ => rfl⟩

theorem l2EvictRecall (line : Nat) : Statement (.l2EvictRecall line) :=
  ⟨fun h => (nomatch h), fun _ => rfl⟩

theorem attest : Statement .attest :=
  ⟨fun h => (nomatch h), fun _ => rfl⟩

theorem restoreCmd : Statement .restoreCmd :=
  ⟨fun h => (nomatch h), fun _ => rfl⟩

theorem shootdownGo : Statement .shootdownGo :=
  ⟨fun h => (nomatch h), fun _ => rfl⟩

theorem shootdownComplete : Statement .shootdownComplete :=
  ⟨fun h => (nomatch h), fun _ => rfl⟩

theorem snapctlTrig : Statement .snapctlTrig :=
  ⟨fun h => (nomatch h), fun _ => rfl⟩

theorem snapctlRel : Statement .snapctlRel :=
  ⟨fun h => (nomatch h), fun _ => rfl⟩

theorem standbyEnter : Statement .standbyEnter :=
  ⟨fun h => (nomatch h), fun _ => rfl⟩

theorem standbyLeave : Statement .standbyLeave :=
  ⟨fun h => (nomatch h), fun _ => rfl⟩

theorem powerOnReset : Statement .powerOnReset :=
  ⟨fun h => (nomatch h), fun _ => rfl⟩

theorem thermalTrip : Statement .thermalTrip :=
  ⟨fun h => (nomatch h), fun _ => rfl⟩

end Sys2Proof.Laws.Encoding
end

