-- ==== Sys2Proof/Safety.lean ====
section
/-! DEFINITION. The terms in which claims about the machine are made: the canonical form of memory, what a safe
step is, what an instruction finds when nothing stands before its own effect, and what it then leaves. -/

namespace Sys2Proof.Machine

/-! ## Memory -/

/-- Memory is in its canonical form: addresses strictly rising, no entry equal to what an unlisted address reads as. -/
def Memory.wf (m : List Host.Cell) : Bool := tabOk 0#8 0 m

/-- The invariant that every step keeps. -/
def State.Inv (s : State) : Prop := Memory.wf s.mem = true

/-- A place whose bytes are held in the memory table and read as they were written: HBM, the scratchpads and their
full-empty bits, the accumulator slots. -/
def plainPlace (p : Place) : Bool :=
  p.region == .hbm || p.region == .scratch || p.region == .fe || p.region == .acc

/-- Every byte of memory reads after as it read before. -/
def SameMemory (s t : State) : Prop :=
  ∀ la, plainPlace (placeOf s la) = true → readByte t la = readByte s la

/-! ## Steps -/

/-- The machine goes on: no fault, no refusal. -/
def Goes (o : Host.Outcome State Fault Refusal) : Prop := ∃ t, o = .next t

/-! ## The issue of an instruction -/

/-- What an instruction's own effect is given when nothing stands before it: a sub-gang stands at it in a clause, no
check of decode or hazard stops it (R72, R432), no earlier access or full flag holds it (R54, R112), the resume header of a
segment-ending instruction is good (R58), and every queue it pops has an entry (R375). -/
def readyCtx (i : Instr) (s : State) : Option Ctx :=
  match issuer s with
  | none => none
  | some (g, sub, run) =>
    match gate i s.freshen g sub run with
    | .go _ c false => some c
    | _ => none

/-- The instruction runs: `exec` answers the state that its own effect t comes to, the word passed. -/
def Ran (i : Instr) (s : State) (c : Ctx) (t : State) : Prop := exec i s = .next (retire t c c.ilen)

/-- Whenever nothing stands before it, the instruction runs, with this effect. -/
def Runs (i : Instr) (effect : Ctx → State) : Prop := ∀ s c, readyCtx i s = some c → Ran i s c (effect c)

/-- The same where the instruction's own conditions hold. -/
def RunsIf (i : Instr) (cond : Ctx → Prop) (effect : Ctx → State) : Prop :=
  ∀ s c, readyCtx i s = some c → cond c → Ran i s c (effect c)

/-- The instruction does not run: the slices named trap with these causes, and nothing of its effect happens. -/
def Traps (i : Instr) (s : State) (c : Ctx) (hits : List Hit) : Prop :=
  ∃ g sub run s0, issuer s = some (g, sub, run) ∧ gate i s.freshen g sub run = .go s0 c false ∧
    exec i s = .next (trapSlices (unpopped s0 c.s) c.g c.sub c.spot hits)

/-! ## Effects that many instructions share -/

/-- Every guard-true active lane's destination takes its value. -/
def wrote (val : Ctx → Slice → Nat → Nat) (c : Ctx) : State :=
  putAll c.s c.g.core c.g.slot (c.lanes.map fun e => c.put e.1 e.2 (val c e.1 e.2))

/-- The same, and each lane's flags are raised in its FPSTAT. -/
def wroteF (val : Ctx → Slice → Nat → Nat × Flags) (c : Ctx) : State :=
  raiseAll (wrote (fun c x l => (val c x l).1) c) c.g.core c.g.slot (c.lanes.map fun e => (e.1.pos, e.2, (val c e.1 e.2).2))

/-- Results and flags that a later step writes. -/
def willWrite (val : Ctx → Slice → Nat → Nat × Flags) (c : Ctx) : State :=
  if c.lanes.isEmpty then c.s
  else issueLater c.s c true c.guarded
    { writes := c.lanes.map fun e => c.vlPut e.1 e.2 (val c e.1 e.2).1
      fp := c.lanes.map fun e => (e.1.pos, e.2, (val c e.1 e.2).2) }

/-- Results of every guard-true active lane, and a predicate of each when aux names one. -/
def wroteAux (val : Ctx → Slice → Nat → Nat × Bool) (c : Ctx) : State :=
  let s := wrote (fun c x l => (val c x l).1) c
  if c.f.aux.toNat = 7 then s
  else putAll s c.g.core c.g.slot (c.lanes.map fun e => ⟨e.1.pos, e.2, 192 + c.f.aux.toNat, [if (val c e.1 e.2).2 then 1 else 0]⟩)

/-- A 32-bit sum of every guard-true active lane, and its carry to the predicate that aux names. -/
def wroteCarry (val : Ctx → Slice → Nat → Int) (c : Ctx) : State :=
  wroteAux (fun c x l => (wrap 32 (val c x l), decide (val c x l < 0 || 2 ^ 32 ≤ val c x l))) c

/-- Fixed-latency instructions whose whole effect is a destination of each guard-true active lane. -/
def plainWrites (i : Instr) : Bool :=
  match i with
  | .add _ | .sub _ | .mul _ | .mulh _ | .mad _ | .madWide _ | .min _ | .max _ | .abs _ | .neg _ | .dot4 _ | .and _ | .or _ | .xor _ |
    .andn _ | .not _ | .lut3 _ | .shl _ | .shr _ | .sra _ | .rot _ | .fsh _ | .bfx _ | .bfi _ | .popc _ | .clz _ | .ctz _ | .brev _ |
    .bsel _ | .movi _ | .sel _ | .cmp _ | .pset _ | .lea _ | .cvti _ | .fclass _ | .lead _ | .pqry _ => true
  | _ => false

/-- The same with flags raised in FPSTAT. -/
def flagWrites (i : Instr) : Bool :=
  match i with
  | .fadd _ | .fsub _ | .fmul _ | .ffma _ | .fmin _ | .fmax _ | .fcmp _ | .frnd _ | .fscale _ | .hadd2 _ | .hmul2 _ | .hfma2 _ |
    .cvtfi _ | .cvtif _ | .gred _ | .scan _ => true
  | _ => false

/-- The same with the predicate that aux names written besides. -/
def auxWrites (i : Instr) : Bool :=
  match i with
  | .addc _ | .subb _ | .madc _ | .xlane _ | .kgrp _ => true
  | _ => false

/-! ## Accesses -/

/-- The accesses of an instruction pass every check: the state after it and the translations. -/
def checked (s : State) (c : Ctx) (target : State → Xlt → Option Cause) (ws : List Want) : Option (State × List (Want × Xlt)) :=
  let r := checkWants c.g target ws s
  let q := deciders (c.slices.map fun x => x.pos) r.2
  if q.1.isEmpty && q.2.isEmpty then
    some (r.1, r.2.filterMap fun e => match e.2 with | .ok t => some (e.1, t) | _ => none)
  else none

/-- Checked accesses can be made now: nothing of R112, R267, R334 and R443 stands in the way, no atomic's line is bad (R326),
and no line is missing (R444). -/
def accFree (s : State) (c : Ctx) (as : List Acc) : Bool :=
  let as := as.map (withBuffer s c.g)
  !accWaits s c as && !atomsFail s c.g.core as && !(as.any fun a => accState s c.g.core a == .missing)

/-- What the accesses come to, each with the bytes that it takes from its core's combining buffers (R111). -/
def accsMade (s : State) (c : Ctx) (vl : Bool) (as : List Acc) (writes : List VlWrite) : State :=
  accMade s c vl (as.map (withBuffer s c.g)) writes

/-- The loads of the checked wants of LD, and the destinations that they fill. -/
def loads (c : Ctx) (rs : List (Want × Xlt)) : List Acc :=
  rs.map fun r => hinted c (accOf r.1 r.2 (.load c.ty c.f.d.toNat))
def loadSlots (c : Ctx) (rs : List (Want × Xlt)) : List VlWrite :=
  if c.f.d.toNat = 240 then [] else rs.map fun r => ⟨r.1.x.pos, r.1.lane, c.f.d.toNat, List.replicate (c.regs .d) 0⟩

/-- The stores of the checked wants of ST. -/
def stores (c : Ctx) (rs : List (Want × Xlt)) : List Acc :=
  rs.map fun r => hinted c (accOf r.1 r.2 (.store (storeImage c.ty (c.stData r.1.x r.1.lane))))

/-- ST has been made: a slice with a store to a page that is not normal is not clean any more (R429). -/
def storesMade (s : State) (c : Ctx) (rs : List (Want × Xlt)) : State :=
  notClean (accsMade s c false (stores c rs) []) c.g.core c.g.slot ((rs.filter fun r => memTypeOf r.2 != 0).map fun r => r.1.x.pos)

/-- The elements of an atomic with operation `op`, operands b and d, and destination `code`; and what it fills. -/
def atoms (c : Ctx) (op code : Nat) (b d : Slice → Nat → Nat) (rs : List (Want × Xlt)) : List Acc :=
  rs.map fun r => accOf r.1 r.2 (.rmw op c.ty c.f.rm.toNat (b r.1.x r.1.lane) (d r.1.x r.1.lane) code) (decide (c.f.aux.toNat ≤ 6))
def atomSlots (c : Ctx) (code : Nat) (rs : List (Want × Xlt)) : List VlWrite :=
  if code = 240 then [] else
    rs.map fun r => ⟨r.1.x.pos, r.1.lane, code, List.replicate (if atomBytes c.ty = 8 then 2 else 1) 0⟩

/-- An atomic runs: its addresses, its operands, its destination. -/
def AtomRuns (i : Instr) (op : Ctx → Nat) (code : Ctx → Nat) (ea : Ctx → Slice → Nat → Nat) (b d : Ctx → Slice → Nat → Nat) : Prop :=
  ∀ s c s1 rs, readyCtx i s = some c → checked c.s c atomTarget (atomWants c (ea c)) = some (s1, rs) →
    leafStops s1 rs = false → accFree (dirtyAll s1 c rs) c (atoms c (op c) (code c) (b c) (d c) rs) = true →
    Ran i s c (accsMade (dirtyAll s1 c rs) c (code c != 240) (atoms c (op c) (code c) (b c) (d c) rs) (atomSlots c (code c) rs))

/-- An instruction whose checked accesses have an effect of their own. -/
def CheckedRuns (i : Instr) (target : Ctx → State → Xlt → Option Cause) (wants : Ctx → List Want)
    (cond : Ctx → State → List (Want × Xlt) → Prop) (effect : Ctx → State → List (Want × Xlt) → State) : Prop :=
  ∀ s c s1 rs, readyCtx i s = some c → checked c.s c (target c) (wants c) = some (s1, rs) → cond c s1 rs →
    Ran i s c (effect c s1 rs)

/-- Instructions of the expand unit that take items: the results that the items complete are stored, the items are taken,
and the rest follows for the slices whose stores did not fail. -/
def ItemsRun (i : Instr) (cond : Ctx → Prop) (items : Ctx → List Item) (go : Ctx → State → List Nat → State) : Prop :=
  ∀ s c s1 rs, readyCtx i s = some c → cond c → checked c.s c anyTarget (itemWants c (items c)) = some (s1, rs) →
    let as := itemStores s1 c (items c) rs
    let t := dirtyAll s1 c rs
    leafStops s1 rs = false → accFree t c as = true → Ran i s c (go c (itemsTaken s1 (accsMade t c false as []) c (items c) rs) (failingAt s1 c.g.core as))

/-- An engine operation is issued: the first guard-true thread has its descriptor at a good address, nothing earlier is
waited for, and a future is free. -/
def DescRuns (i : Instr) (cond : Ctx → Slice × Nat → Nat → Prop) (pre : Ctx → Slice × Nat → State)
    (op : Ctx → Slice × Nat → Nat → EngineOp) (post : State → State) : Prop :=
  ∀ s c e entry, readyCtx i s = some c → c.first = some e → c.mustWait = false →
    let a := c.src e.1 e.2 c.f.a.toNat 2 8
    a < 2 ^ 56 → a % 64 = 0 → cond c e a → futEntry (pre c e) (c.g.core / 64) = some entry →
    Ran i s c (post (startedOp c (pre c e) (op c e a) entry))

end Sys2Proof.Machine
end

