-- ==== Sys2Proof/Certificates/Slice0/Obligations.lean ====
section
/-! DEFINITION. The statements for the provers. -/

open Sys2Proof Sys2Proof.Machine

/-! ## Thread instructions: what each does where nothing stands before it -/

/-- R87, R88, R90: the exact result of integer arithmetic, wrapped or clamped to the type as R87 says (`fin`), goes to
the destination of every guard-true active lane; MULH takes the upper half, MIN and MAX one of the operands. -/
def Obligations.IntegerArithmeticCompletes : Prop := ∀ f : Fields,
  Runs (.add f) (wrote fun c x l => c.fin (c.int x l .a + c.int x l .b)) ∧
  Runs (.sub f) (wrote fun c x l => c.fin (c.int x l .a - c.int x l .b)) ∧
  Runs (.mul f) (wrote fun c x l => c.fin (c.int x l .a * c.int x l .b)) ∧
  Runs (.mulh f) (wrote fun c x l => wrap c.w (c.int x l .a * c.int x l .b / (2 ^ c.w : Nat))) ∧
  Runs (.mad f) (wrote fun c x l => c.fin (c.int x l .a * c.int x l .b + c.int x l .c)) ∧
  Runs (.madWide f) (wrote fun c x l => fin87 (wideType c.ty) c.f.sat
    (c.int x l .a * c.int x l .b + intOf (wideType c.ty) (c.src x l c.f.c.toNat 2 (wideType c.ty)))) ∧
  Runs (.min f) (wrote fun c x l => wrap c.w (min (c.int x l .a) (c.int x l .b))) ∧
  Runs (.max f) (wrote fun c x l => wrap c.w (max (c.int x l .a) (c.int x l .b))) ∧
  Runs (.abs f) (wrote fun c x l => c.fin (c.int x l .a).natAbs) ∧
  Runs (.neg f) (wrote fun c x l => c.fin (-(c.int x l .a))) ∧
  Runs (.dot4 f) (wrote fun c x l =>
    let ta := c.ty
    let tb := if c.f.minor.toNat = 1 then (if ta = 1 then 5 else 1) else ta
    let t := if ta = 5 && c.f.minor.toNat = 0 then 7 else 3
    fin87 t c.f.sat (dot4Sum ta tb (c.opnd x l .a) (c.opnd x l .b) + intOf t (c.opnd x l .c)))

/-- R89 with R54: DIV and REM hand the quotient and the remainder to a later step, and raise no flag. -/
def Obligations.DivisionCompletes : Prop := ∀ f : Fields,
  Runs (.div f) (willWrite fun c x l => (wrap c.w (quotRem c.ty (c.int x l .a) (c.int x l .b)).1, 0)) ∧
  Runs (.rem f) (willWrite fun c x l => (wrap c.w (quotRem c.ty (c.int x l .a) (c.int x l .b)).2, 0))

/-- R91: the 32-bit sum, and its carry to the predicate that aux names. -/
def Obligations.CarryArithmeticCompletes : Prop := ∀ f : Fields,
  Runs (.addc f) (wroteCarry fun c x l => ((c.opnd x l .a + c.opnd x l .b + c.carryIn x l : Nat) : Int)) ∧
  Runs (.subb f) (wroteCarry fun c x l => (c.opnd x l .a : Int) - (c.opnd x l .b : Int) - (c.carryIn x l : Int)) ∧
  Runs (.madc f) (wroteCarry fun c x l =>
    let p := c.opnd x l .a * c.opnd x l .b
    (((if c.f.minor.toNat = 0 then p % 2 ^ 32 else p / 2 ^ 32) + c.opnd x l .c + c.carryIn x l : Nat) : Int))

/-- R92 to R94, R98, R99: bitwise functions, shifts, counts and byte selection over the w bits of a. -/
def Obligations.BitwiseAndShiftsComplete : Prop := ∀ f : Fields,
  Runs (.and f) (wrote fun c x l => c.nat x l .a &&& c.nat x l .b) ∧
  Runs (.or f) (wrote fun c x l => c.nat x l .a ||| c.nat x l .b) ∧
  Runs (.xor f) (wrote fun c x l => c.nat x l .a ^^^ c.nat x l .b) ∧
  Runs (.andn f) (wrote fun c x l => c.nat x l .a &&& compl c.w (c.nat x l .b)) ∧
  Runs (.not f) (wrote fun c x l => compl c.w (c.nat x l .a)) ∧
  Runs (.lut3 f) (wrote fun c x l =>
    lut3 (c.f.minor.toNat * 16 + c.f.type.toNat / 2) (c.opnd x l .a) (c.opnd x l .b) (c.opnd x l .c)) ∧
  Runs (.shl f) (wrote fun c x l => c.nat x l .a * 2 ^ c.count x l % 2 ^ c.w) ∧
  Runs (.shr f) (wrote fun c x l => c.nat x l .a / 2 ^ c.count x l) ∧
  Runs (.sra f) (wrote fun c x l => wrap c.w (sext c.w (c.nat x l .a) / (2 ^ c.count x l : Nat))) ∧
  Runs (.rot f) (wrote fun c x l =>
    rotl c.w (c.nat x l .a) (if c.f.minor.getLsbD 1 then (c.w - c.count x l) % c.w else c.count x l)) ∧
  Runs (.bfx f) (wrote fun c x l => bfx (tySigned c.ty) c.w (c.nat x l .a) (c.opnd x l .b)) ∧
  Runs (.bfi f) (wrote fun c x l => bfi c.w (c.nat x l .a) (c.nat x l .b) (c.opnd x l .c)) ∧
  Runs (.popc f) (wrote fun c x l => popCount c.w (c.nat x l .a)) ∧
  Runs (.clz f) (wrote fun c x l => leadingZeros c.w (c.nat x l .a)) ∧
  Runs (.ctz f) (wrote fun c x l => trailingZeros c.w (c.nat x l .a)) ∧
  Runs (.brev f) (wrote fun c x l => ofBits ((List.range c.w).map fun i => bitOf (c.nat x l .a) (c.w - 1 - i))) ∧
  Runs (.bsel f) (wrote fun c x l => bsel c.f.minor.toNat (c.opnd x l .a) (c.opnd x l .b) (c.opnd x l .c))

/-- R95: FSH returns bits 63:32 of the concatenation b:a shifted left by the count modulo 32, FSH.R bits 31:0 of it shifted
right; the count is c, or the imm8 in c when minor bit 0 is 1. -/
def Obligations.FunnelShiftReturnsAWord : Prop := ∀ f : Fields,
  Runs (.fsh f) (wrote fun c x l =>
    let v : BitVec 64 := BitVec.ofNat 32 (c.opnd x l .b) ++ BitVec.ofNat 32 (c.opnd x l .a)
    let n := (if c.f.minor.getLsbD 0 then c.f.c.toNat else c.opnd x l .c) % 32
    if c.f.minor.getLsbD 1 then (BitVec.extractLsb' 0 32 (v >>> n)).toNat else (BitVec.extractLsb' 32 32 (v <<< n)).toNat)

/-- R100 to R106: MOVI, SEL, the compares, PSET, LEA and CVTI write every guard-true active lane. -/
def Obligations.SelectsAndComparesComplete : Prop := ∀ f : Fields,
  Runs (.movi f) (wrote fun c x l => if c.f.long then c.opnd x l .c else wrap c.w (sext 8 c.f.c.toNat)) ∧
  Runs (.sel f) (wrote fun c x l => if c.opnd x l .c = 1 then c.nat x l .a else c.nat x l .b) ∧
  Runs (.cmp f) (wrote fun c x l => b2n (combine c.f.aux.toNat (intCond (cmpCode c.f) (c.int x l .a) (c.int x l .b))
    (c.f.aux.toNat != 0 && c.opnd x l .c == 1))) ∧
  Runs (.pset f) (wrote fun c x l => b2n (psetOp c.f.minor.toNat (c.opnd x l .a == 1) (c.opnd x l .b == 1))) ∧
  Runs (.lea f) (wrote fun c x l => c.ea x l) ∧
  Runs (.cvti f) (wrote fun c x l => cvti c.f.c.toNat c.ty c.f.sat (c.opnd x l .a))

/-- R100 with R58 and R358: MOV copies a register at width w; it copies the handle of a future that is not RUNNING; and it ends the segments of the slices that read a RUNNING one, which wait for it. -/
def Obligations.MoveCompletes : Prop := ∀ (f : Fields),
  RunsIf (.mov f) (fun c => ¬ (200 ≤ c.f.a.toNat ∧ c.f.a.toNat < 216)) (wrote fun c x l => c.nat x l .a) ∧
  RunsIf (.mov f) (fun c => 200 ≤ c.f.a.toNat ∧ c.f.a.toNat < 216 ∧
      handleRunning c.s c.g.ctx (c.g.h.getD (c.f.a.toNat - 200) 0).toNat = false)
    (fun c =>
      let h := (c.g.h.getD (c.f.a.toNat - 200) 0).toNat
      let s := wrote (fun _ _ _ => h) c
      if c.lanes.isEmpty then s else s.link c.g.core) ∧
  RunsIf (.mov f) (fun c => 200 ≤ c.f.a.toNat ∧ c.f.a.toNat < 216 ∧
      handleRunning c.s c.g.ctx (c.g.h.getD (c.f.a.toNat - 200) 0).toNat = true)
    (fun c =>
      let h := (c.g.h.getD (c.f.a.toNat - 200) 0).toNat
      c.guarded.foldl (fun s p => waitSlice s c p .fut h c.f.d.toNat 1
        ((c.lanes.filter fun e => e.1.pos == p).map fun e => (e.2, .fut h))) c.s)

/-- R117, R120 to R125, R129 to R132: a fixed-latency floating-point instruction writes the rounded result of every
guard-true active lane and raises its flags in FPSTAT. -/
def Obligations.FloatingPointCompletes : Prop := ∀ f : Fields,
  Runs (.fadd f) (wroteF fun c x l => c.rnd (addE c.rm (c.flt x l .a) (c.flt x l .b))) ∧
  Runs (.fsub f) (wroteF fun c x l => c.rnd (subE c.rm (c.flt x l .a) (c.flt x l .b))) ∧
  Runs (.fmul f) (wroteF fun c x l => c.rnd (mulE (c.flt x l .a) (c.flt x l .b))) ∧
  Runs (.ffma f) (wroteF fun c x l => c.rnd (fmaE c.rm (c.flt x l .a) (c.flt x l .b) (c.flt x l .c))) ∧
  Runs (.fmin f) (wroteF fun c x l => minMax false c.fmt (c.opnd x l .a) (c.opnd x l .b)) ∧
  Runs (.fmax f) (wroteF fun c x l => minMax true c.fmt (c.opnd x l .a) (c.opnd x l .b)) ∧
  Runs (.fcmp f) (wroteF fun c x l =>
    let r := fltCond (cmpCode c.f) (c.flt x l .a) (c.flt x l .b)
    (b2n (combine c.f.aux.toNat r.1 (c.f.aux.toNat != 0 && c.opnd x l .c == 1)), r.2)) ∧
  Runs (.fclass f) (wrote fun c x l => 2 ^ classBit c.fmt (c.flt x l .a)) ∧
  Runs (.frnd f) (wroteF fun c x l =>
    let r := rndE c.rm (c.flt x l .a)
    ((deliver c.fmt .rn false r.1).1, r.2.1 ||| (if c.f.minor.toNat = 1 && !r.2.2 then fNX else 0))) ∧
  Runs (.fscale f) (wroteF fun c x l => c.rnd (scaleE (c.flt x l .a) (sext 32 (c.opnd x l .b)))) ∧
  Runs (.hadd2 f) (wroteF fun c x l => packed fun k =>
    c.rnd (addE c.rm (unpackF c.fmt (halfOf k (c.opnd x l .a))) (unpackF c.fmt (halfOf k (c.opnd x l .b))))) ∧
  Runs (.hmul2 f) (wroteF fun c x l => packed fun k =>
    c.rnd (mulE (unpackF c.fmt (halfOf k (c.opnd x l .a))) (unpackF c.fmt (halfOf k (c.opnd x l .b))))) ∧
  Runs (.hfma2 f) (wroteF fun c x l => packed fun k =>
    c.rnd (fmaE c.rm (unpackF c.fmt (halfOf k (c.opnd x l .a))) (unpackF c.fmt (halfOf k (c.opnd x l .b)))
      (unpackF c.fmt (halfOf k (c.opnd x l .c))))) ∧
  Runs (.cvtf f) (fun c => c.lanes.foldl (fun (s : State) e =>
      s.updLane c.g.core c.g.slot e.1.pos e.2 fun t => { t with rstate := (c.cvtLane e.1 e.2).2.2 })
    (wroteF (fun c x l => ((c.cvtLane x l).1, (c.cvtLane x l).2.1)) c)) ∧
  Runs (.cvtfi f) (wroteF fun c x l =>
    let r := toIntE c.ty c.rm (unpackF (fmtOf c.f.c.toNat) (c.opnd x l .a))
    (extendInt c.ty r.1, r.2)) ∧
  Runs (.cvtif f) (wroteF fun c x l => rounded c.fmt c.rm c.f.sat (ofIntE (intOf c.f.c.toNat (c.opnd x l .a)), 0))

/-- R126, R127 with R54: division, roots and the transcendental functions hand their rounded results and flags to a later
step. -/
def Obligations.LongFloatingPointCompletes : Prop := ∀ f : Fields,
  Runs (.fdiv f) (willWrite fun c x l => c.rnd (divE (c.flt x l .a) (c.flt x l .b))) ∧
  Runs (.fsqrt f) (willWrite fun c x l => c.rnd (sqrtE (c.flt x l .a))) ∧
  Runs (.frcp f) (willWrite fun c x l => c.rnd (divE (.fin false 1 0) (c.flt x l .a))) ∧
  Runs (.frsq f) (willWrite fun c x l => c.rnd (rsqrtE (c.flt x l .a))) ∧
  Runs (.fex2 f) (willWrite fun c => c.special ex2) ∧
  Runs (.flg2 f) (willWrite fun c => c.special lg2) ∧
  Runs (.fsin f) (willWrite fun c => c.special sinPi) ∧
  Runs (.fcos f) (willWrite fun c => c.special cosPi) ∧
  Runs (.ftanh f) (willWrite fun c => c.special tanhV)

/-- R68: both halves of a pair word read the state before the pair; both destinations are written, the second half's
last, and the flags of both are raised. -/
def Obligations.PairWordCompletes : Prop := ∀ h1 h2 : Half,
  Runs (.pairWord h1 h2) fun c =>
    let o := c.halfOuts h1
    let q := c.halfOuts h2
    raiseAll (putAll (putAll c.s c.g.core c.g.slot (o.map fun e => e.1)) c.g.core c.g.slot (q.map fun e => e.1)) c.g.core c.g.slot
      ((o ++ q).map fun e => (e.1.pos, e.1.lane, e.2))

/-- R114, R133, R140: NOP, YIELD and PREF change no register, no flag and no memory: the state after NOP and PREF is the
state that the instruction finds, with the word passed; YIELD of a guard-true lane notes besides that its clause yields. -/
def Obligations.EmptyInstructionsComplete : Prop := ∀ f : Fields,
  Runs (.nop f) (fun c => c.s) ∧ Runs (.yield f) (fun c => if c.lanes.isEmpty then c.s else noteYield c.s c.g c.sub) ∧
  Runs (.pref f) (fun c => c.s)

/-- R134 to R137: where no guard-true target is out of range and the token stack has room, a transfer settles every
slice (`plan`), and a call writes its link pairs first. CALLX needs an entry for every lane, within the callers' limits; a
callee that needs no more registers than the gang has is entered at once; the lines of its entries have been read. -/
def Obligations.TransfersComplete : Prop := ∀ (f : Fields) (s : State) (c : Ctx) (xs : List Slice),
  (readyCtx (.bra f) s = some c → c.plan (some c.next) (fun _ _ => c.relTarget) = .go xs →
    Ran (.bra f) s c (applySlices c.s c xs)) ∧
  (readyCtx (.brx f) s = some c → c.plan none (fun x l => c.src x l c.f.a.toNat 2 8) = .go xs →
    Ran (.brx f) s c (applySlices c.s c xs)) ∧
  (readyCtx (.ret f) s = some c → c.plan none (fun x l => c.src x l c.f.a.toNat 2 8) = .go xs →
    Ran (.ret f) s c (applySlices c.s c xs)) ∧
  (readyCtx (.call f) s = some c → c.plan (some c.next) (fun _ _ => c.relTarget) = .go xs →
    Ran (.call f) s c (applySlices (putAll c.s c.g.core c.g.slot c.links) c xs)) ∧
  (readyCtx (.callx f) s = some c → (∀ e ∈ c.lanes, ∃ a v i d, c.callee e.1 e.2 = .code a v i d) →
    (∀ x ∈ c.slices, c.callBudget x ≤ c.callLimit x ∧ c.callBudget x ≤ c.g.vbud) →
    c.plan none (fun x l => (c.callee x l).addr) = .go xs →
    Ran (.callx f) s c (applySlices (putAll (c.entriesRead c.callee) c.g.core c.g.slot c.links) c xs))

/-- R20, R138: EXIT ends the guard-true threads of every slice; END does so where the token stack of every slice with such a
thread is empty, and traps ILL in the slices where it is not, in which case no thread ends. -/
def Obligations.ThreadEndsComplete : Prop := ∀ f : Fields,
  let ended := fun (c : Ctx) => c.slices.foldl (fun s x =>
    if guardMask c.s c.g c.f x = 0 then s else endLanes s c.g.core c.g.slot x.pos (guardMask c.s c.g c.f x)) c.s
  let full := fun (c : Ctx) => c.slices.filter fun x => guardMask c.s c.g c.f x != 0 && !x.tokens.isEmpty
  Runs (.exit f) ended ∧ RunsIf (.endThread f) (fun c => full c = []) ended ∧
  ∀ s c, readyCtx (.endThread f) s = some c → full c ≠ [] →
    Traps (.endThread f) s c ((full c).map fun x => hitAt x.pos (lowLane (guardMask c.s c.g c.f x)) .ill)

/-- R139: TRAP n and BPT trap every slice with a guard-true active lane, precisely at the instruction, with those lanes as
the trapping lanes and n or the tag beside the cause; where there is none they have no effect. -/
def Obligations.ExplicitTrapsAreTaken : Prop := ∀ (f : Fields) (s : State) (c : Ctx),
  (readyCtx (.trap f) s = some c →
    let hits := (c.slices.filter fun x => guardMask c.s c.g c.f x != 0).map fun x =>
      (⟨x.pos, .swtrap, guardMask c.s c.g c.f x, c.f.c.toNat, [0, 0, 0, 0]⟩ : Hit)
    if hits = [] then Ran (.trap f) s c c.s else Traps (.trap f) s c hits) ∧
  (readyCtx (.bpt f) s = some c →
    let hits := (c.slices.filter fun x => guardMask c.s c.g c.f x != 0).map fun x =>
      (⟨x.pos, .bpt, guardMask c.s c.g c.f x, c.f.c.toNat, [0, 0, 0, 0]⟩ : Hit)
    if hits = [] then Ran (.bpt f) s c c.s else Traps (.bpt f) s c hits)

/-- R71: UDF always traps ILL, in every slice of the sub-gang with an active lane, at the lowest of them. -/
def Obligations.UdfTrapsIll : Prop := ∀ (f : Fields) (s : State) (g : Gang) (sub : Nat) (r : Run),
  issuer s = some (g, sub, r) → (∃ x ∈ g.slicesOf sub, x.active ≠ 0) →
    exec (.udf f) s = .next (trapSlices s.freshen g sub ⟨r.hdr, r.ix + 1, r.words.length, ilenOf f⟩
      (((g.slicesOf sub).filter fun x => x.active != 0).map fun x => hitAt x.pos (lowLane x.active) .ill))

/-- R141 to R145, R148: GETS of a counter is written later, of any other special register at once; SETS writes FPSTAT or
RSTATE of every guard-true active lane, or PRIO of a slice whose lanes agree on a priority in reach; SNAP fires the
snapshot trigger with its tag if some lane is guard-true. -/
def Obligations.SpecialRegistersComplete : Prop := ∀ f : Fields,
  RunsIf (.gets f) (fun c => sregCounter c.f.c.toNat = false) (wrote fun c x l => sregRead c x l c.f.c.toNat % 2 ^ c.w) ∧
  RunsIf (.gets f) (fun c => sregCounter c.f.c.toNat = true) (willWrite fun c x l => (sregRead c x l c.f.c.toNat % 2 ^ c.w, 0)) ∧
  RunsIf (.sets f) (fun c => c.f.c.toNat = 0) (fun c => c.lanes.foldl (fun (s : State) e =>
    s.updLane c.g.core c.g.slot e.1.pos e.2 fun t => { t with fpstat := BitVec.ofNat 5 (c.opnd e.1 e.2 .a) }) c.s) ∧
  RunsIf (.sets f) (fun c => c.f.c.toNat = 1) (fun c => c.lanes.foldl (fun (s : State) e =>
    s.updLane c.g.core c.g.slot e.1.pos e.2 fun t => { t with rstate := BitVec.ofNat 32 (c.opnd e.1 e.2 .a) }) c.s) ∧
  RunsIf (.sets f) (fun c => 2 ≤ c.f.c.toNat ∧ ∀ x ∈ c.slices, prioHit c x = none) (fun c => c.slices.foldl (fun (s : State) x =>
    match c.sliceValue x with
    | some e => s.updSlice c.g.core c.g.slot x.pos fun y => { y with prio := e.2 }
    | none => s) c.s) ∧
  Runs (.snap f) (fun c => if c.lanes.isEmpty then c.s else fireSnapshot c.s 1 0 c.f.c.toNat c.g.core c.pc)

/-- R147, R414: in a handler, TRET.RETRY, TRET.SKIP and TRET.KILL release the held record at their operand as their name
says, once the gang's buffered stores are written and its accesses performed, where the record's protected part is as
the part keeps it, and for SKIP its resume point too, and its own fault entry has been written (R416). -/
def Obligations.TrapReturnsComplete : Prop := ∀ (f : Fields) (s : State) (c : Ctx) (e : Slice × Nat) (m : RecMeta),
  let pa := c.src e.1 e.2 c.f.a.toNat 2 8
  let mine := c.g.slices.map fun x => x.pos
  let t := mine.foldl (fun s p => wcWriteSlice s c.g.core c.g.slot p) c.s
  c.first = some e → c.g.handler.isSome = true → pa % 128 = 0 → accBusy t c.g mine = false → tabGet 0 t.acks c.g.core = 0 →
  heldRecord t c.g pa = some m → fieldsKept t m = true → (∀ e ∈ t.faults, e.rid ≠ some m.rid) →
    (readyCtx (.tretRetry f) s = some c → Ran (.tretRetry f) s c (releaseRecord t m .retry)) ∧
    (readyCtx (.tretSkip f) s = some c → (readHead t m).w 0 = bytesToNat (m.copy.take 8) →
      Ran (.tretSkip f) s c (releaseRecord t m .skip)) ∧
    (readyCtx (.tretKill f) s = some c → Ran (.tretKill f) s c (releaseRecord t m .kill))

/-- R219 to R221, R223 to R225: the cross-lane instructions give every guard-true active lane its value over the
participants, which are those lanes; XLANE and KGRP write the predicate of aux besides. -/
def Obligations.CrossLaneCompletes : Prop := ∀ f : Fields,
  Runs (.xlane f) (wroteAux fun c x l =>
    let w := 2 ^ (c.f.c.toNat % 8)
    let i := threadIx x l
    let base := i - i % w
    let j := xlaneSource c.f.minor.toNat w i (c.src x l c.f.b.toNat 1 7)
    match (if (base : Int) ≤ j && j < (base + w : Nat) then c.lanes.find? fun e => ((threadIx e.1 e.2 : Nat) : Int) == j else none) with
    | some e => (c.opnd e.1 e.2 .a, true)
    | none => (c.opnd x l .a, false)) ∧
  Runs (.pqry f) (wrote fun c _ _ =>
    let on := c.having fun e => c.opnd e.1 e.2 .a == 1
    let n := c.lanes.length
    match c.f.minor.toNat with
    | 0 => b2n (on.length == n)
    | 1 => b2n (!on.isEmpty)
    | 2 => b2n (on.length == n || on.isEmpty)
    | 3 => maskSum on
    | 4 => on.length
    | _ => on.headD 0xffffffff) ∧
  Runs (.kgrp f) (wroteAux fun c x l =>
    let key := fun (e : Slice × Nat) => c.opnd e.1 e.2 .a
    let same := c.having fun e => keyEq c.ty (key e) (key (x, l))
    let all := c.lanes.all fun e => c.lanes.all fun e' => keyEq c.ty (key e) (key e')
    let i := threadIx x l
    match c.f.minor.toNat with
    | 0 => (maskSum same, same.headD i == i)
    | 1 => (if all then maskSum (c.having fun _ => true) else 0, all)
    | _ => ((same.filter fun t => decide (t < i)).length, (same.filter fun t => decide (t < i)).length == 0)) ∧
  Runs (.gred f) (wroteF fun c x l =>
    let v := fun (e : Slice × Nat) => c.opnd e.1 e.2 .a % 2 ^ c.w
    let r := combineSet c.f.minor.toNat c.ty c.rm c.f.sat (c.lanes.map v)
    (r.1, r.2 ||| (if 6 ≤ c.f.minor.toNat && (unpackF c.fmt (v (x, l))).isSig then fNV else 0))) ∧
  Runs (.scan f) (wroteF fun c x l =>
    let v := fun (e : Slice × Nat) => c.opnd e.1 e.2 .a % 2 ^ c.w
    let part := c.segment (threadIx x l)
    let r := combineSet c.f.minor.toNat c.ty c.rm c.f.sat ((if c.f.aux.getLsbD 0 then part.dropLast else part).map v)
    (r.1, r.2 ||| (if 6 ≤ c.f.minor.toNat && (unpackF c.fmt (v (x, l))).isSig then fNV else 0)))

/-- R222: LEAD writes 1 to the predicate of the leader and 0 to every other participant's, or the leader's THREADIX to
the register of every participant; the leader is the participant with the lowest THREADIX, or the highest under minor 1. -/
def Obligations.LeadElectsOne : Prop := ∀ f : Fields,
  Runs (.lead f) (wrote fun c x l =>
    let ts := c.having fun _ => true
    let lead := if c.f.minor.toNat = 1 then ts.getLastD 0 else ts.headD 0
    if 192 ≤ c.f.d.toNat && c.f.d.toNat < 200 then b2n (threadIx x l == lead) else lead)

/-- R155, R158, R226, R227, R229, R230: RCV pushes an entry with the active lanes on the stack of every slice that has any,
where its target is below 2^56 and every such stack has room; JOIN and BRKJ park the guard-true lanes; CONT ends the
segments of the slices with a guard-true lane; REGANG parks them, or ends their segments once a sibling has left; FWD sends
them to the core or node that each one's lowest guard-true lane names, and acts as CONT for the core they stand on. -/
def Obligations.TokensAndSegmentEndsComplete : Prop := ∀ f : Fields,
  RunsIf (.rcvJ f) (fun c => c.rcvTarget < 2 ^ 56 ∧ ∀ x ∈ c.slices, x.active ≠ 0 → x.tokens.length < 8)
    (fun c => applySlices c.s c ((c.slices.filter fun x => x.active != 0).map fun x =>
      { x with tokens := x.tokens ++ [⟨.join, x.active, 0, c.rcvTarget⟩] })) ∧
  RunsIf (.rcvB f) (fun c => c.rcvTarget < 2 ^ 56 ∧ ∀ x ∈ c.slices, x.active ≠ 0 → x.tokens.length < 8)
    (fun c => applySlices c.s c ((c.slices.filter fun x => x.active != 0).map fun x =>
      { x with tokens := x.tokens ++ [⟨.brk, x.active, 0, c.rcvTarget⟩] })) ∧
  Runs (.join f) (fun c => applySlices c.s c (c.acting.map fun e => e.1.joinLanes e.2)) ∧
  Runs (.brkj f) (fun c => applySlices c.s c (c.acting.map fun e => e.1.breakLanes e.2)) ∧
  RunsIf (.regang f) (fun c => c.g.departed = false) (fun c => reform (c.acting.foldl (fun s e =>
    s.updSlice c.g.core c.g.slot e.1.pos fun x => { x with st := .parked c.next c.resume, pc := c.next }) c.s) c.g.core c.g.slot) ∧
  RunsIf (.regang f) (fun c => c.g.departed = true) (fun c =>
    reform (plainLeave c c.s (c.acting.map fun e => e.1.pos)) c.g.core c.g.slot) ∧
  Runs (.cont f) (fun c => plainLeave c c.s (c.acting.map fun e => e.1.pos)) ∧
  (∀ dest : Slice → W32, RunsIf (.fwd f)
    (fun c => c.g.group = none ∧ ∀ e ∈ c.acting, fwdDest c.s (c.src e.1 (lowLane e.2) c.f.a.toNat 1 7) = some (dest e.1))
    (fun c =>
      let stays := fun (e : Slice × BitVec 4) => (dest e.1).toNat == corelocOf c.s c.g.core
      (c.acting.filter fun e => !stays e).foldl (fun s e => endSegment s.bump c.g.core c.g.slot e.1.pos
          { plainEnd s.nextId c.next c.resume with kind := .fwd, fwd := some (dest e.1) })
        (plainLeave c c.s ((c.acting.filter stays).map fun e => e.1.pos))))

/-- R181, R231: where every guard-true lane names an entry and the earlier accesses are performed, SPAWN places the tasks
of each slice in the die's queue while there is room, and a slice without room waits; SPAWN.NB writes 1 or 0 instead. -/
def Obligations.SpawningCompletes : Prop := ∀ (f : Fields) (s : State) (c : Ctx),
  let die := c.g.core / 64
  let tasks := fun (e : Slice × BitVec 4) => (lanesOf e.2).map fun l => c.taskOf e.1 l
  let room := fun (s : State) (e : Slice × BitVec 4) =>
    decide ((s.tasks.getD die []).length + (tasks e).length ≤ taskRoom) && !taskWaiting s die
  c.mustWait = false → (∀ e ∈ c.lanes, ∃ a v i d, c.spawnee e.1 e.2 = .code a v i d) →
    (readyCtx (.spawnNb f) s = some c → Ran (.spawnNb f) s c (c.acting.foldl (fun s e =>
      if room s e then givePred c (placeTasks s die (tasks e)) e.1 e.2 true else givePred c s e.1 e.2 false) (c.entriesRead c.spawnee))) ∧
    (readyCtx (.spawn f) s = some c → Ran (.spawn f) s c (c.acting.foldl (fun s e =>
      if room s e then placeTasks s die (tasks e)
      else (waitSlice s c e.1.pos .taskq die 240 0 ((lanesOf e.2).map fun l => (l, .taskq die))).updSlice c.g.core c.g.slot e.1.pos
        fun x => match x.st with
          | .ending i => { x with st := .ending { i with tasks := tasks e } }
          | _ => x) (c.entriesRead c.spawnee)))

/-- R176 to R178, R233, R234, R236: in a group, BARI gives a barrier nobody uses its EXPECT; ARRIVE and ARRIVE.RLX count
every guard-true lane in and return the phases; BWAIT lets the lanes pass whose phase has passed and the slices of the
others wait. -/
def Obligations.BarriersComplete : Prop := ∀ f : Fields,
  RunsIf (.bari f) (fun c => c.isTask = false ∧ c.mustWait = false ∧ (c.s.barrier c.g.core c.f.c.toNat).count = 0 ∧
      barrierWaiting c.s c.g.core c.f.c.toNat = false ∧
      ∀ e, c.first = some e → 1 ≤ c.src e.1 e.2 c.f.a.toNat 1 7 ∧ c.src e.1 e.2 c.f.a.toNat 1 7 ≤ 1024)
    (fun c => match c.first with
      | none => c.s
      | some e => c.s.setBarrier c.g.core c.f.c.toNat fun r => { r with expect := c.src e.1 e.2 c.f.a.toNat 1 7, count := 0 }) ∧
  RunsIf (.arrive f) (fun c => c.isTask = false ∧ c.mustWait = false ∧ (c.s.barrier c.g.core c.f.c.toNat).expect ≠ 0)
    (fun c => if c.lanes.isEmpty then c.s else
      let r := arriveMany c.g.core c.f.c.toNat c.lanes.length c.s
      putAll r.1 c.g.core c.g.slot ((c.lanes.zip r.2).map fun e => c.put e.1.1 e.1.2 e.2)) ∧
  RunsIf (.arriveRlx f) (fun c => c.isTask = false ∧ (c.s.barrier c.g.core c.f.c.toNat).expect ≠ 0)
    (fun c => if c.lanes.isEmpty then c.s else
      let r := arriveMany c.g.core c.f.c.toNat c.lanes.length c.s
      putAll r.1 c.g.core c.g.slot ((c.lanes.zip r.2).map fun e => c.put e.1.1 e.1.2 e.2)) ∧
  RunsIf (.bwait f) (fun c => c.isTask = false ∧ (c.s.barrier c.g.core c.f.c.toNat).expect ≠ 0)
    (fun c =>
      let core := c.g.core
      let b := c.f.c.toNat
      let n := fun (e : Slice × Nat) => c.src e.1 e.2 c.f.a.toNat 1 7 % 2 ^ 16
      let waits := c.lanes.filter fun e => !phasePassed (c.s.barrier core b).phase (n e)
      let s := if waits.length < c.lanes.length then c.s.link core else c.s
      if c.lanes.isEmpty then c.s
      else c.guarded.foldl (fun s p =>
        match waits.filter fun e => e.1.pos == p with
        | [] => s
        | e :: r => waitSlice s c p .bar (b * 2 ^ 16 + n e) 240 0 ((e :: r).map fun e => (e.2, .bar core b (n e)))) s)

/-- R185, R186, R239: EXPB without a guard-true lane does nothing; in gang scope the lanes' own ranges, in group scope the
rows of a table in the group's allocation, become owners; where the total fits, a slot is free and the pool has room, the
zero-length owners' results are stored, the save area is taken and the lanes of gang scope are bound and dealt to. -/
def Obligations.ExpansionsOpen : Prop := ∀ (f : Fields) (s : State) (c : Ctx), readyCtx (.expb f) s = some c →
  (c.first = none → Ran (.expb f) s c c.s) ∧
  ∀ e, c.first = some e → (c.f.minor.toNat = 0 ∨ c.resultBase e % typeBytes c.f.type.toNat = 0) → c.alreadyBound [] = [] →
    (∀ s1 rs a, c.f.aux.getLsbD 2 = false → checked c.s c anyTarget (zeroWants c e (c.resultBase e) (laneOwners c)) = some (s1, rs) →
      totalOf (laneOwners c) ≤ 0xffffffff → expSlotFree s1 c.g.core = true →
      poolAlloc s1 c.g.core (saveSize (laneOwners c).length) = some a →
      leafStops s1 rs = false → accFree (dirtyAll s1 c rs) c (zeroStores c rs) = true →
      Ran (.expb f) s c (openedExp c (accsMade (dirtyAll s1 c rs) c false (zeroStores c rs) []) false (c.resultBase e) a (laneOwners c)
        (failingAt s1 c.g.core (zeroStores c rs)))) ∧
    (∀ s0 ts s1 rs a, c.f.aux.getLsbD 2 = true → c.opnd e.1 e.2 .a % 8 = 0 → 1 ≤ c.opnd e.1 e.2 .b → c.opnd e.1 e.2 .b ≤ 1024 →
      checked c.s c anyTarget (tableWants c e) = some (s0, ts) → (tableRows ts).all (rowInGroup s0 c.g) = true →
      c.mustWait = false → portBusy s0 c.g.core (tableRows ts) = false → c.isTask = false →
      checked s0 c anyTarget (zeroWants c e (c.resultBase e) (tableOwners c s0 ts)) = some (s1, rs) →
      (s1.core c.g.core).gexp.getD (c.f.aux.toNat % 4) none = none →
      totalOf (tableOwners c s0 ts) ≤ 0xffffffff → expSlotFree s1 c.g.core = true →
      poolAlloc s1 c.g.core (saveSize (tableOwners c s0 ts).length) = some a →
      leafStops s1 rs = false → accFree (dirtyAll s1 c rs) c (zeroStores c rs) = true →
      Ran (.expb f) s c (openedExp c (accsMade (dirtyAll s1 c rs) c false (zeroStores c rs) []) true (c.resultBase e) a
        (tableOwners c s0 ts) (failingAt s1 c.g.core (zeroStores c rs))))

/-- R187 to R192, R240 to R242: bound lanes pass their items and are dealt the next ones (EXPN) or leave the binding
(EXPE); lanes that hold items of the instruction's type contribute a value once (SEGR). EXPN of a group's expansion whose
save area is in a slot of the core binds the slices that are not bound yet. -/
def Obligations.ExpansionItemsComplete : Prop := ∀ f : Fields,
  ItemsRun (.expn f) (fun c => c.lanes.isEmpty = false ∧ c.f.aux.getLsbD 2 = false ∧ c.loose = [])
    passedItems (fun c => dealAll c fun x => x.xsave.getD 0) ∧
  (∀ a, ItemsRun (.expn f) (fun c => c.lanes.isEmpty = false ∧ c.f.aux.getLsbD 2 = true ∧ c.isTask = false ∧
      (c.s.core c.g.core).gexp.getD (c.f.aux.toNat % 4) none = some a ∧
      (∀ e ∈ c.lanes, e.1.xsave = none ∨ e.1.xsave = some a) ∧ ((expAt c.s c.g.core a).isSome ∨ expSlotFree c.s c.g.core = true))
    passedItems (fun c t bad =>
      let core := c.g.core
      let t := if (expAt t core a).isNone then placeExp t core (loadExpansion t (core / 64) a) else t
      let fresh := c.acting.filter fun e => e.1.xsave.isNone
      let t := setExp t core a fun e => { e with bound := e.bound + fresh.length }
      dealAll c (fun _ => a)
        (fresh.foldl (fun t e => t.updSlice core c.g.slot e.1.pos fun x => { x with xsave := some a }) t) bad)) ∧
  ItemsRun (.expe f) (fun c => c.loose = []) passedItems (fun c t _ => unbindAll c t) ∧
  ItemsRun (.segr f) (fun c => segrBad c = [])
    (fun c => (c.lanes.filter fun e => (e.1.lane e.2).xitem).map fun e =>
      itemOf e.1 e.2 (e.1.xsave.getD 0) (c.opnd e.1 e.2 .a % 2 ^ c.w))
    (fun c t _ =>
      let give := c.lanes.filter fun e => (e.1.lane e.2).xitem
      raiseAll (give.foldl (fun t e => t.updLane c.g.core c.g.slot e.1.pos e.2 fun x => { x with xgave := true }) t) c.g.core c.g.slot
        (give.map fun e => (e.1.pos, e.2, if c.ty = 10 && (unpackF (fmtOf 10) (c.opnd e.1 e.2 .a % 2 ^ c.w)).isSig then fNV else 0)))

/-- R107 to R112, R235, R324, R325: where every access of the guard-true lanes passes its checks and can be made, LD takes what it
reads to its destination, ST writes the image of its data, ATOM and RED combine each word with operand b, CAS replaces it
with c where it equals b, and ARRIVE.REMOTE adds 1. A store of the handle of a RUNNING future (R58) ends the segments of the
slices that make it; they wait for the future, and the store is made as it completes. A load or store in the window of a
fabric receive port's head entry goes to the entry. A slice that stores to a page that is not normal, or to such an entry, can be
flushed no more (R429). -/
def Obligations.MemoryAccessesComplete : Prop := ∀ f : Fields,
  let odd := fun (rs : List (Want × Xlt)) => (rs.filter fun r => memTypeOf r.2 != 0).map fun r => r.1.x.pos
  CheckedRuns (.ld f) (fun _ => anyTarget) (fun c => c.wants 4)
    (fun c s1 rs => c.received = none ∧ accFree s1 c (loads c rs) = true)
    (fun c s1 rs => accsMade s1 c (c.f.d.toNat != 240) (loads c rs) (loadSlots c rs)) ∧
  CheckedRuns (.st f) (fun _ => anyTarget) (fun c => c.wants 8)
    (fun c s1 rs => c.received = none ∧ c.lateHandle = none ∧ leafStops s1 rs = false ∧ accFree (dirtyAll s1 c rs) c (stores c rs) = true)
    (fun c s1 rs => storesMade (dirtyAll s1 c rs) c rs) ∧
  AtomRuns (.atom f) (fun c => c.f.minor.toNat) (fun c => c.f.d.toNat) Ctx.eaPlain
    (fun c x l => c.opnd x l .b % 2 ^ c.w) (fun _ _ _ => 0) ∧
  AtomRuns (.red f) (fun c => c.f.minor.toNat) (fun _ => 240) Ctx.eaPlain
    (fun c x l => c.opnd x l .b % 2 ^ c.w) (fun _ _ _ => 0) ∧
  AtomRuns (.cas f) (fun _ => 12) (fun c => c.f.d.toNat) Ctx.eaCas
    (fun c x l => c.opnd x l .b % 2 ^ c.w) (fun c x l => c.opnd x l .c % 2 ^ c.w) ∧
  CheckedRuns (.arriveRemote f) (fun _ => atomTarget) arriveWants
    (fun c s1 rs => c.mustWait = false ∧ leafStops s1 rs = false ∧ accFree (dirtyAll s1 c rs) c (arriveAccs rs) = true)
    (fun c s1 rs => accsMade (dirtyAll s1 c rs) c false (arriveAccs rs) []) ∧
  (∀ h, CheckedRuns (.st f) (fun _ => anyTarget) (fun c => c.wants 8)
    (fun c s1 rs => c.received = none ∧ c.lateHandle = some h ∧ leafStops s1 rs = false)
    (fun c s1 rs => c.guarded.foldl (fun s p =>
      waitSlice s c p .fut h 240 0
        ((rs.filter fun r => r.1.x.pos == p).map fun r => (r.1.lane, .futStore h r.2.pa r.1.va (memTypeOf r.2))))
      (notClean (dirtyAll s1 c rs) c.g.core c.g.slot (odd rs)))) ∧
  (∀ entry, RunsIf (.ld f) (fun c => c.received = some entry ∧ c.barred = []) (fun c =>
    if c.f.d.toNat = 240 || c.lanes.isEmpty then c.s
    else issueLater c.s c true c.guarded
      { writes := c.lanes.map fun e => ⟨e.1.pos, e.2, c.f.d.toNat, loadImage c.ty (c.entryBytes entry e)⟩ })) ∧
  (∀ entry, RunsIf (.st f) (fun c => c.received = some entry ∧ c.barred = [] ∧ c.lateHandle = none) (fun c =>
    (notClean c.s c.g.core c.g.slot c.guarded).setCore c.g.core fun k => { k with
      ports := updAt (c.f.a.toNat - 232) (fun p => { p with
        entries := c.patched entry (fun e => storeImage c.ty (c.stData e.1 e.2)) :: p.entries.tail }) k.ports })) ∧
  (∀ entry h, RunsIf (.st f) (fun c => c.received = some entry ∧ c.barred = [] ∧ c.lateHandle = some h) (fun c =>
    c.guarded.foldl (fun s p => waitSlice s c p .fut h 240 0
      ((c.lanes.filter fun e => e.1.pos == p).map fun e => (e.2, .futPort h c.g.core (c.f.a.toNat - 232)
        ((c.s.core c.g.core).ports.getD (c.f.a.toNat - 232) Port.unbound).popped ((c.inWindow e).getD 128))))
      (notClean c.s c.g.core c.g.slot c.guarded)))

/-- R321 to R323, R331: full-empty loads and stores, FESET and the transposing load, once the earlier accesses of their
slices are made. -/
def Obligations.ScratchpadAccessesComplete : Prop := ∀ f : Fields,
  let free := fun (c : Ctx) (s1 : State) (rs : List (Want × Xlt)) => feBusy s1 c rs = false
  let dirty := fun (c : Ctx) (s1 : State) (rs : List (Want × Xlt)) => leafStops s1 rs = false ∧ feBusy (dirtyAll s1 c rs) c rs = false
  CheckedRuns (.ldfe f) (fun _ => feTarget) (fun c => c.wants 4) free feLoaded ∧
  CheckedRuns (.stfe f) (fun _ => feTarget) (fun c => c.wants 8) dirty (fun c s1 rs => feStored c (dirtyAll s1 c rs) rs) ∧
  CheckedRuns (.fesetEmpty f) (fun _ => feTarget) fesetWants dirty (fun c s1 rs => fesetDone c false (dirtyAll s1 c rs) rs) ∧
  CheckedRuns (.fesetFull f) (fun _ => feTarget) fesetWants dirty (fun c s1 rs => fesetDone c true (dirtyAll s1 c rs) rs) ∧
  CheckedRuns (.ldt f) (fun c => ldtTarget c.g.core) ldtWants free ldtLoaded

/-- R237, R327: once the earlier accesses are made and no own word's line is owned outside the module, WAITC and
BWAIT.REMOTE end the segments of their slices, one monitor for each lane. -/
def Obligations.WordWaitsComplete : Prop := ∀ f : Fields,
  CheckedRuns (.waitc f) (fun _ => hbmTarget) waitcWants
    (fun c s1 rs => c.mustWait = false ∧ watchMissing s1 c.g.core (waitcWatches c rs) = none)
    (fun c s1 rs => watched c s1 c.f.d.toNat (c.regs .d) (waitcWatches c rs)) ∧
  CheckedRuns (.bwaitRemote f) (fun _ => hbmTarget) bwaitWants
    (fun c s1 rs => c.mustWait = false ∧ watchMissing s1 c.g.core (bwaitWatches c rs) = none)
    (fun c s1 rs => watched c s1 240 0 (bwaitWatches c rs))

/-- R279, R280, R328: a fence writes the combining buffers that hold stores of its threads; it then holds the accesses, arrivals
and engine issues of its slices until the earlier accesses are made and every write of the core is acknowledged; FENCE orders besides
the stores of its threads through the other memory type. That a fence retires and holds what follows is the model's reading, log entry 32. -/
def Obligations.FencesComplete : Prop := ∀ f : Fields,
  Runs (.fence f) (fun c => fenceHeld c (fenceWrites c) false (c.lanes.map fun e => threadKey c.g e.1.pos e.2)) ∧
  Runs (.fenceWc f) (fun c => fenceHeld c (fenceWrites c) false [])

/-- R316, R329, R330: maintenance of every line of the checked ranges, once the earlier accesses are made; REPAIR, of the
lanes whose source lines are good and here. The slices are held until it is complete everywhere. -/
def Obligations.MaintenanceCompletes : Prop := ∀ f : Fields,
  let ready := fun (c : Ctx) (_ : State) (_ : List (Want × Xlt)) => c.mustWait = false
  let done := fun (eff : Ctx → State → Src → Nat → State) (c : Ctx) (s1 : State) (rs : List (Want × Xlt)) =>
    fenceHeld c (rs.foldl (fun s r =>
      (linesOf r.2.pa r.1.bytes).foldl (fun s l => eff c s ⟨c.g.slot, r.1.x.pos, r.1.lane, c.here⟩ l) s) s1) true []
  CheckedRuns (.cmaintIinv f) (fun _ => hbmTarget) (fun c => maintWants c 16 false) ready (done fun _ s _ l => invalidateLine s l) ∧
  CheckedRuns (.cmaintWb f) (fun _ => hbmTarget) (fun c => maintWants c 4 false) ready (done fun c => cleanLine c.g.core false) ∧
  CheckedRuns (.cmaintWbinv f) (fun _ => hbmTarget) (fun c => maintWants c 4 false) ready (done fun c => cleanLine c.g.core true) ∧
  CheckedRuns (.cmaintMsset f) (fun _ => hbmTarget) (fun c => maintWants c 8 true) ready (done fun c => msLine c.g.core true) ∧
  CheckedRuns (.cmaintMsclr f) (fun _ => hbmTarget) (fun c => maintWants c 8 true) ready (done fun c => msLine c.g.core false) ∧
  CheckedRuns (.cmaintRepair f) (fun _ => hbmTarget) (fun c => maintWants c 8 true ++ repairSources c)
    (fun c s1 rs => c.mustWait = false ∧ portBusy s1 c.g.core (((rs.filter fun r => r.1.any).flatMap sourceAccs).map fun a => a.pa) = false ∧
      ∀ a ∈ (rs.filter fun r => r.1.any).flatMap sourceAccs,
      sourceBad s1 c.g.core a = true ∨ lineHere s1 (c.g.core / 64) (s1.core c.g.core).pts a.pa false = true)
    (fun c s1 rs => fenceHeld c (repaired c s1 (rs.filter fun r => !r.1.any) (rs.filter fun r => r.1.any)) true [])

/-- R332, R333, R375: in a group, QPUSH enters its entry where the binding has room and writes 1, and writes 0 where it has
none and d takes the answer; QWAIT writes 1 where an entry stands at the head; where none does, QWAIT.NB writes 0, and QWAIT
ends the segments of its slices unless its stream is closed and will have no more. -/
def Obligations.QueuePortsComplete : Prop := ∀ f : Fields,
  let pushes := fun (c : Ctx) => c.lanes.isEmpty = false ∧ c.isTask = false ∧ c.mustWait = false ∧
    ((c.port c.f.c.toNat).kind = 3 ∨ (c.port c.f.c.toNat).kind = 4 ∧
      portBusy c.s c.g.core [ownPa c.s (windowBase c.g.core + 0x80000 + (c.port c.f.c.toNat).queue)] = false)
  let takes := fun (c : Ctx) => c.lanes.isEmpty = false ∧ c.isTask = false ∧
    ((c.port c.f.a.toNat).kind = 1 ∨ (c.port c.f.a.toNat).kind = 2 ∨ (c.port c.f.a.toNat).kind = 4)
  (∀ t : Ctx → State, RunsIf (.qpush f) (fun c => pushes c ∧ pushEntry c (c.f.c.toNat - 232) = some (t c)) (fun c => giveAll (t c) c 1)) ∧
  RunsIf (.qpush f) (fun c => pushes c ∧ pushEntry c (c.f.c.toNat - 232) = none ∧ c.f.d.toNat ≠ 240) (fun c => giveAll c.s c 0) ∧
  RunsIf (.qwait f) (fun c => takes c ∧ (headOf c.s c.g.core c.f.a.toNat != .none) = true) (fun c => giveAll (c.s.link c.g.core) c 1) ∧
  RunsIf (.qwaitNb f) (fun c => takes c ∧ (headOf c.s c.g.core c.f.a.toNat != .none) = true) (fun c => giveAll (c.s.link c.g.core) c 1) ∧
  RunsIf (.qwaitNb f) (fun c => takes c ∧ (headOf c.s c.g.core c.f.a.toNat != .none) = false) (fun c => giveAll c.s c 0) ∧
  RunsIf (.qwait f) (fun c => takes c ∧ (headOf c.s c.g.core c.f.a.toNat != .none) = false ∧
      ¬ ((c.port c.f.a.toNat).kind = 1 ∧ (c.s.stream (c.port c.f.a.toNat).queue).shut = true))
    (fun c => c.guarded.foldl (fun s q =>
      waitSlice s c q .extq ((c.port c.f.a.toNat).queue % 2 ^ 16) c.f.d.toNat 1
        ((c.lanes.filter fun e => e.1.pos == q).map fun e => (e.2, .extq c.g.core (c.f.a.toNat - 232)))) c.s)

/-- R373, R374, R403 to R405: in a group, a valid ring's stage is acquired where the next one of the side is ready and no
earlier record waits, its offset given to every lane; a held stage is released to the other side; RINIT makes a ring that
nobody holds or waits on. -/
def Obligations.RingsComplete : Prop := ∀ f : Fields,
  let acq := fun (consumer : Bool) (t : Ctx → State × Nat) (c : Ctx) => c.lanes.isEmpty = false ∧ c.isTask = false ∧
    (c.s.ring c.g.core c.f.c.toNat).valid = true ∧ ringWaiters c.s c.g.core c.f.c.toNat consumer = [] ∧
    ringAcquire c.s c.g.core c.f.c.toNat consumer = some (t c)
  let got := fun (consumer : Bool) (t : Ctx → State × Nat) (c : Ctx) =>
    let seen := if consumer then c.lanes.foldl (fun s e =>
        s.sees c.g.core c.g.slot e.1.pos e.2 (ringOps c.s c.g.core c.f.c.toNat (t c).2)) (t c).1
      else (t c).1
    giveAll (seen.link c.g.core) c ((c.s.ring c.g.core c.f.c.toNat).base + (t c).2 * (c.s.ring c.g.core c.f.c.toNat).ssz)
  let rel := fun (consumer : Bool) (e : Ctx → Slice × Nat) (t : Ctx → State) (c : Ctx) =>
    let r := c.s.ring c.g.core c.f.c.toNat
    let a := c.src (e c).1 (e c).2 c.f.a.toNat 1 7
    c.first = some (e c) ∧ c.isTask = false ∧ c.mustWait = false ∧ r.valid = true ∧ r.base ≤ a ∧ (a - r.base) % r.ssz = 0 ∧
    ringRelease c.s c.g.core c.f.c.toNat consumer ((a - r.base) / r.ssz) none = some (t c)
  (∀ t, RunsIf (.racqP f) (acq false t) (got false t)) ∧ (∀ t, RunsIf (.racqC f) (acq true t) (got true t)) ∧
  (∀ e t, RunsIf (.rrelP f) (rel false e t) t) ∧ (∀ e t, RunsIf (.rrelC f) (rel true e t) t) ∧
  (∀ e : Ctx → Slice × Nat, RunsIf (.rinit f) (fun c =>
      let base := c.src (e c).1 (e c).2 c.f.a.toNat 1 7
      let ssz := c.src (e c).1 (e c).2 c.f.b.toNat 1 7
      c.first = some (e c) ∧ c.isTask = false ∧ c.mustWait = false ∧ base % 128 = 0 ∧ ssz % 128 = 0 ∧ ssz ≠ 0 ∧
      ((c.s.ring c.g.core c.f.c.toNat).valid = false ∨ (∀ h ∈ (c.s.ring c.g.core c.f.c.toNat).held, h = false) ∧
        ∀ w ∈ c.s.waits, ∀ consumer, w.kind ≠ .ring c.g.core c.f.c.toNat consumer) ∧
      base + (c.f.minor.toNat + 1) * ssz ≤ groupScratch c.s c.g.group)
    (fun c => c.s.setRing c.g.core c.f.c.toNat fun _ =>
      ⟨true, c.src (e c).1 (e c).2 c.f.a.toNat 1 7, c.src (e c).1 (e c).2 c.f.b.toNat 1 7, c.f.minor.toNat + 1,
       List.replicate (c.f.minor.toNat + 1) false, List.replicate (c.f.minor.toNat + 1) false, 0, 0, []⟩))

/-- R380 to R382: where no guard-true lane names a RUNNING future, FWAIT gives each its status; FTEST writes whether each is
no longer RUNNING; both note that the live ones have been observed. FCANCEL asks the operations of the RUNNING ones to stop. -/
def Obligations.FuturesComplete : Prop := ∀ f : Fields,
  let seen := fun (c : Ctx) (done : List (Slice × Nat)) (s : State) =>
    let t := done.foldl (seeHandle c) s
    if done.isEmpty then t else t.link c.g.core
  RunsIf (.fwait f) (fun c => ∀ e ∈ c.lanes, handleRunning c.s c.g.ctx (c.handle e.1 e.2) = false)
    (fun c => seen c c.lanes (wrote (fun c x l => handleStatus c.s c.g.ctx (c.handle x l)) c)) ∧
  Runs (.ftest f) (fun c => seen c (c.lanes.filter fun e => !handleRunning c.s c.g.ctx (c.handle e.1 e.2))
    (wrote (fun c x l => b2n (!handleRunning c.s c.g.ctx (c.handle x l))) c)) ∧
  Runs (.fcancel f) (fun c =>
    let hs := (c.lanes.map fun e => c.handle e.1 e.2).filter fun h => handleRunning c.s c.g.ctx h
    { c.s with ops := updAll (fun o => hs.contains o.handle) (fun o => { o with cancel := true }) c.s.ops })

/-- R383 to R387: in a group with nothing earlier to wait for, MXRES takes a record from a good specification and clears the
image of a term side; MXREL gives it up, at the end of the operations that read it if there are any; MXFENCE notes the point
for each lane; TALLOC binds a free accumulator slot, every element of it cleared, and TFREE unbinds it. -/
def Obligations.MatrixStateCompletes : Prop := ∀ f : Fields,
  let ready := fun (c : Ctx) => c.lanes.isEmpty = false ∧ c.isTask = false ∧ c.mustWait = false
  let made := fun (wside : Bool) (e : Ctx → Slice × Nat) (c : Ctx) =>
    resvOf wside (c.src (e c).1 (e c).2 c.f.a.toNat 2 8) (c.src (e c).1 (e c).2 c.f.b.toNat 1 7)
  let good := fun (wside : Bool) (e : Ctx → Slice × Nat) (c : Ctx) => ready c ∧ c.first = some (e c) ∧
    resvOk c.s c.g.core (c.f.c.toNat % 16) (c.src (e c).1 (e c).2 c.f.a.toNat 2 8) (made wside e c) = true
  let held := fun (c : Ctx) => (c.s.resv c.g.core (c.f.c.toNat % 16)).valid = true ∧ (c.s.resv c.g.core (c.f.c.toNat % 16)).releasing = false
  (∀ e, RunsIf (.mxresX f) (good false e) fun c =>
    c.s.setResv c.g.core (c.f.c.toNat % 16) fun _ => { made false e c with stamp := c.s.tick }) ∧
  (∀ e, RunsIf (.mxresW f) (good true e) fun c =>
    (clearImage c.s c.g.core (made true e c)).setResv c.g.core (c.f.c.toNat % 16) fun _ =>
      { made true e c with stamp := (clearImage c.s c.g.core (made true e c)).tick }) ∧
  RunsIf (.mxrel f) (fun c => ready c ∧ held c ∧ opsReading c.s c.g.core (c.f.c.toNat % 16) = [])
    (fun c => c.s.setResv c.g.core (c.f.c.toNat % 16) fun _ => Resv.none) ∧
  RunsIf (.mxrel f) (fun c => ready c ∧ held c ∧ opsReading c.s c.g.core (c.f.c.toNat % 16) ≠ [])
    (fun c => c.s.setResv c.g.core (c.f.c.toNat % 16) fun r => { r with releasing := true }) ∧
  RunsIf (.mxfence f) (fun c => c.isTask = false ∧ c.mustWait = false)
    (fun c => c.lanes.foldl (fun s e => s.updLane c.g.core c.g.slot e.1.pos e.2 fun t =>
      { t with fence := { t.fence with stamp := some s.tick, fenced := t.fence.seen } }) c.s) ∧
  (∀ k, RunsIf (.talloc f) (fun c => ready c ∧ (∀ x ∈ c.slices, x.bind.getD (c.f.c.toNat % 4) none = none) ∧
      ((List.range 4).find? fun k => !(c.s.core c.g.core).slots.getD k false) = some k)
    (fun c => bindAll ((clearSlot c.s c.g.core k).setCore c.g.core fun q => { q with slots := q.slots.set k true }) c
      (c.f.c.toNat % 4) (some k))) ∧
  RunsIf (.tfree f) (fun c => ready c ∧ ∀ x ∈ c.slices, (x.bind.getD (c.f.c.toNat % 4) none).isSome = true)
    (fun c => sweepSlots (bindAll c.s c (c.f.c.toNat % 4) none) c.g.core)

/-- R377, R379, R388 to R399: the issue of an engine or matrix operation takes a future, gives its handle to d and leaves
the operation to steps of the part's own. -/
def Obligations.EngineOperationsStart : Prop := ∀ f : Fields,
  let any := fun (_ : Ctx) (_ : Slice × Nat) (_ : Nat) => True
  let grp := fun (c : Ctx) (_ : Slice × Nat) (_ : Nat) => c.isTask = false
  let as_ := fun (c : Ctx) (_ : Slice × Nat) => c.s
  DescRuns (.cpy f) any as_ (fun c e a => newOp c e .cpy a []) id ∧
  DescRuns (.ixwalk f) any as_ (fun c e a => newOp c e .ixwalk a []) id ∧
  DescRuns (.dqnt f) any as_ (fun c e a => newOp c e .dqnt a []) id ∧
  DescRuns (.qnt f) any seeded (fun c e a => withSeed c e (newOp c e .qnt a [])) id ∧
  DescRuns (.fetch f) grp as_ (fun c e a => newOp c e .fetch a (fetchArgs c e)) reserveNow ∧
  DescRuns (.cpact f) (fun c _ a => c.isTask = false ∧ unsettled c.s c.g.core a = false ∧
      ((compactAhead c.s c.g.core).2 % 128 = 0 ∨ (compactAhead c.s c.g.core).1 = some a))
    as_ (fun c e a => { newOp c e .cpact a [] with toks := tokensOf c }) id ∧
  (∀ s c e entry, readyCtx (.cpfl f) s = some c → c.first = some e → c.isTask = false → c.mustWait = false →
    futEntry c.s (c.g.core / 64) = some entry → Ran (.cpfl f) s c (startedOp c c.s (newOp c e .cpfl 0 []) entry)) ∧
  (∀ s c e entry, readyCtx (.mxissue f) s = some c → c.first = some e → c.isTask = false → c.mustWait = false →
    issueOk c.s c.g.core e.1 (c.src e.1 e.2 c.f.a.toNat 2 8) = true → futEntry c.s (c.g.core / 64) = some entry →
    Ran (.mxissue f) s c (startedOp c c.s (mxOp c e (c.src e.1 e.2 c.f.a.toNat 2 8)) entry)) ∧
  (∀ slot, let bound := fun (c : Ctx) (e : Slice × Nat) (_ : Nat) => c.isTask = false ∧ e.1.bind.getD (c.f.aux.toNat % 4) none = some slot
    let op := fun (c : Ctx) (e : Slice × Nat) (a : Nat) => withSeed c e { newOp c e .mxdrain a [] with slot := slot }
    DescRuns (.mxdrain f) bound seeded op id ∧ DescRuns (.mxdrainRaw f) bound seeded op id ∧ DescRuns (.mxdrainMx f) bound seeded op id)

/-- R369, R400 to R402: ZOPEN with aligned bases below 2^56 places the fibre before its first element, ZCLOSE closes it,
ZEND says whether it is at its end; ZADV advances it, once the earlier accesses are made and every coordinate it reads is
here; ZVAL loads the value that it stands at, and gives 0 outside the array. -/
def Obligations.FibresComplete : Prop := ∀ f : Fields,
  let wide := fun (c : Ctx) => bitOf c.f.aux.toNat 0
  let adv := fun (seek : Bool) (c : Ctx) => advanceAll c seek (fibreNo c.f.d.toNat) c.lanes c.s
  let moves := fun (seek : Bool) (c : Ctx) => c.lanes.isEmpty = false ∧ accBusy c.s c.g c.guarded = false ∧
    ∀ q ∈ (adv seek c).2, ∃ z, q.2 = .found z
  RunsIf (.zopen f) (fun c => ∀ e ∈ c.lanes,
      zopenBad (c.src e.1 e.2 c.f.a.toNat 2 8) (c.src e.1 e.2 c.f.c.toNat 2 8) (if wide c then 8 else 4) = none)
    (fun c => putFibres c.s c (fibreNo c.f.d.toNat) (c.lanes.map fun e =>
      (e.1.pos, e.2, ⟨true, BitVec.ofNat 64 (c.src e.1 e.2 c.f.a.toNat 2 8), BitVec.ofNat 64 (c.src e.1 e.2 c.f.c.toNat 2 8),
        BitVec.ofNat 32 (c.src e.1 e.2 c.f.b.toNat 1 7), 0xffffffff, 0, wide c⟩))) ∧
  Runs (.zclose f) (fun c => putFibres c.s c (fibreNo c.f.d.toNat) (c.lanes.map fun e => (e.1.pos, e.2, Fibre.closed))) ∧
  RunsIf (.zend f) (fun c => ∀ e ∈ c.lanes, fibrePending c e.1 e.2 (fibreNo c.f.a.toNat) = false)
    (wrote fun c x l => b2n (fibreOf x l (fibreNo c.f.a.toNat)).atEnd) ∧
  RunsIf (.zadv f) (moves false) (fun c => advanced c (adv false c)) ∧
  RunsIf (.zadvSeek f) (moves true) (fun c => advanced c (adv true c)) ∧
  (∀ s c, readyCtx (.zval f) s = some c →
    let r := zvalLanes c (fibreNo c.f.a.toNat) c.lanes c.s
    let accs := zvalAccs c r.2
    deciders c.guarded (r.2.map fun e => e.1) = ([], []) → accFree r.1 c accs = true →
    Ran (.zval f) s c (zvalRest c accs
      (if accs.isEmpty then r.1 else accsMade r.1 c (c.f.d.toNat != 240) accs (zvalWrites c accs))))

/-! ## The part's own steps: where each happens, and what it leaves -/

/-- R14, R21, R54, R55, R162, R260, R411: a sub-gang that is free, chosen for its slot, starts a clause, or traps or waits
for a walk in the fetch stage; an outstanding result that is ready goes on; the first noted failure is taken at the clause boundary,
in the parked state, or at the end of the segment; a drained slice ends its segment or delivers its trap, and one that waits
for pool space tries again. -/
def Obligations.ClauseAndSliceStepsAct : Prop :=
  (∀ core slot sub s g u x xs, s.gang core slot = some g → g.sub sub = some u → g.slicesOf sub = x :: xs → subFree s g u = true →
    slotBusy s core g.islot = false →
    let q := nextFetch s g u
    let t := { q.1 with fresh := q.1.fresh + 1 }
    (∀ pa, q.2 = .ask pa → exec (.clauseStart core slot sub) s = .next (askLine t (core / 64) (.core core) (s.core core).pts pa false)) ∧
    (slotChoice s core g.islot = some (slot, sub) →
      (∀ h ws, q.2 = .ok (h, ws) → exec (.clauseStart core slot sub) s = .next (beginClause t g u x.pc h ws)) ∧
      (∀ c a, q.2 = .trap c a → exec (.clauseStart core slot sub) s = .next (fetchTrap t g u x.pc c a)) ∧
      (∀ va, q.2 = .walk va → exec (.clauseStart core slot sub) s = .next (fetchWalk t g u x.pc va)) ∧
      (∀ pa, q.2 = .bad pa → exec (.clauseStart core slot sub) s = .next (fetchTrap t g u x.pc .memerr x.pc)))) ∧
  (∀ id s q, (s.pend.find? fun q => q.id == id) = some q → pendReady s q = true →
    (q.flag.isSome = true → exec (.vlResultWrite id) s = .next (advancePend s q)) ∧
    (q.flag.isSome = false → exec (.untrackedResultWrite id) s = .next (advancePend s q))) ∧
  (∀ core slot pos s g x m ms, s.gang core slot = some g → g.slice pos = some x → x.merr = m :: ms →
    let taken := fun (s : State) (t : TrapInfo) =>
      tidyGang ((takeTrap s core slot t pos).updSlice core slot pos fun x => { x with merr := ms }) core slot
    (∀ u q, x.st = .run u → g.sub u = some q → q.run = none → q.word = 0 → exec (.completionStageTrap core slot pos) s =
      .next (taken s.bump (lateTrap s.nextId x.pc 240 0 ⟨0, 0, 0⟩ [] m))) ∧
    (∀ t r, x.st = .parked t r → exec (.completionStageTrap core slot pos) s =
      .next (taken s.bump (lateTrap s.nextId t 240 0 ⟨0, 0, 0⟩ [] m))) ∧
    (∀ e, x.st = .ending e → exec (.completionStageTrap core slot pos) s =
      .next (taken s (lateTrap e.rid e.hdr e.dest e.dregs e.waitAt e.tasks m)))) ∧
  (∀ core slot pos s g x e, s.gang core slot = some g → g.slice pos = some x → x.st = .ending e → x.merr = [] →
    (e.full = false → drained s core slot pos = true → sliceBufs s core slot pos = [] → slicePosts s core slot pos = false →
      exec (.segmentEnd core slot pos) s = .next (settled s core slot pos fun s g x => finishSegment s g x e)) ∧
    (e.full = false → drained s core slot pos = true → sliceBufs s core slot pos ≠ [] →
      exec (.segmentEnd core slot pos) s = .next (wcWriteSlice s core slot pos)) ∧
    (e.full = true → exec (.poolSpaceGrant core slot pos) s = .next (finishSegment s g x e))) ∧
  (∀ core slot pos s g x t, s.gang core slot = some g → g.slice pos = some x → x.st = .trapping t →
    (t.full = false → drained s core slot pos = true → (g.handler.isSome = true ∨ handlerLine s core g.ctx = none) →
      sliceBufs s core slot pos = [] → slicePosts s core slot pos = false →
      exec (.trapDelivery core slot pos) s = .next (settled s core slot pos fun s g x => deliverTrap s g x t)) ∧
    (t.full = true → exec (.poolSpaceGrant core slot pos) s = .next (deliverTrap s g x t)))

/-- R163, R171, R194, R207, R208, R212, R214, R260: the event of a lane that still waits is delivered; the chosen bin drains, or its front
record's expansion is loaded; a gang is created; a waiting record or sub-gang rises one priority; a die balances its bins
once its period is over; a travelling record reaches its core, is handed to the fabric, or fails, and a waiting one moves to
free pool space. The lowest free slot and register space of a gang, the order of equal sources of a balancer and the layout of REC are
the model's choices (log entries 54, 119 and 92). -/
def Obligations.RecordAndBinStepsAct : Prop :=
  (∀ rid lane s m w vals, s.rec? rid = some m → (s.waits.find? fun w => w.rid == rid && w.lane == lane) = some w →
    w.fired = some vals → bitOf (readHead s m).waits lane = true →
    (w.failed = true → exec (.laneEventFire rid lane) s = .next (clearWait (markFailure s m w) m lane)) ∧
    (w.failed = false → (∀ h pa va ty, w.kind ≠ .futStore h pa va ty) → (∀ h k p n o, w.kind ≠ .futPort h k p n o) →
      exec (.laneEventFire rid lane) s = .next (clearWait (deliverValue s m lane vals) m lane)) ∧
    (∀ h k p n o, w.failed = false → w.kind = .futPort h k p n o →
      exec (.laneEventFire rid lane) s = .next (clearWait (portStore s k p n o h) m lane)) ∧
    (∀ h pa va ty t, w.failed = false → w.kind = .futStore h pa va ty →
      (handleStore s m lane h pa va ty = .done t → exec (.laneEventFire rid lane) s = .next (clearWait t m lane)) ∧
      (handleStore s m lane h pa va ty = .posted t → exec (.laneEventFire rid lane) s = .next { t with
        waits := updWhere (fun q => q.rid == rid && q.lane == lane) (fun q => { q with kind := .stored, fired := none }) t.waits }))) ∧
  (∀ core bin s c k, choice208 s core = some c → c.pick = .bin bin k →
    (frontLoads s core bin = false → k ≠ 1 → exec (.binDrain core bin) s = .next (drainBin s core bin c.vbud)) ∧
    (frontLoads s core bin = false → k = 1 → exec (.binTimeout core bin) s = .next (drainBin s core bin c.vbud)) ∧
    (frontLoads s core bin = true → frontMissing s core bin = [] → exec (.expSlotLoad core bin) s = .next (drainBin s core bin c.vbud))) ∧
  (∀ core s c g l slot base, choice208 s core = some c → c.pick = .gang → gangNext s core = some (g, l) → freeSlot s core = some slot →
    freeRun s core c.vbud = some base → exec (.gangCreate core) s = .next (createGang s core g l slot base)) ∧
  (∀ rid s m, s.rec? rid = some m → recordAged s m = true →
    let w := (readHead s m).w 2
    exec (.agingStep (.record rid)) s = .next
      ((recPut s m 0x10 (natToBytes 8 (w - fld w 21 17 * 2 ^ 17 + raisePrio (fld w 21 17) * 2 ^ 17))).updRec rid fun r =>
        { r with
          riseAt := nextRise s (m.core / 64) r.riseAt
          raised := if raisePrio (fld w 21 17) = fld w 21 17 then r.raised else s.clk
          raisedN := if raisePrio (fld w 21 17) = fld w 21 17 then r.raisedN else if r.raised = s.clk then r.raisedN + 1 else 1 })) ∧
  (∀ core slot sub s g u, s.gang core slot = some g → g.sub sub = some u → subAged s core u = true →
    exec (.agingStep (.subgang core slot sub)) s = .next (s.updGang core slot fun g => { g with
      slices := g.slices.map fun x => if x.st == .run sub then { x with prio := raisePrio x.prio } else x,
      subs := updWhere (fun v => v.id == sub) (fun v => { v with riseAt := nextRise s (core / 64) v.riseAt }) g.subs })) ∧
  (∀ die s, (s.dieRegs die).balNext ≤ s.clk →
    let t := balance (sources s die) ((dieCores die).filter fun c => !((sources s die).any fun e => e.2.1 == c)) s
    exec (.balancerPeriod die) s = .next (t.setDie die fun d => { d with balNext := t.clk + d.balper * 850 })) ∧
  (∀ rid dest s m w, s.rec? rid = some m → m.st = .travelling w →
    (w = 2 ^ 40 ∨ fld w 25 16 ≠ s.node % 1024 ∧ reachable s (fld w 25 16) = false →
      exec (.recordMove rid dest) s = .next (failForward s rid)) ∧
    (w ≠ 2 ^ 40 → fld w 25 16 = s.node % 1024 →
      exec (.recordMove rid dest) s = .next (arriveRecord s rid (fld w 9 8 * 64 + fld w 5 0))) ∧
    (w ≠ 2 ^ 40 → fld w 25 16 ≠ s.node % 1024 → reachable s (fld w 25 16) = true →
      let r : Req := ⟨s.nextId, m.core / 64, .record rid, 8, fld w 25 16, ownPa s 0, none, none, recMessage s m w, false, 0⟩
      exec (.recordMove rid dest) s = .next
        { s.updRec rid (fun r => { r with st := .sent (fld w 25 16) }) with nextId := s.nextId + 1, reqs := s.reqs ++ [r] })) ∧
  (∀ rid dest s m, s.rec? rid = some m → m.st = .waiting → m.trap = none → m.body = none → dest % 128 = 0 →
    let n := grain m.size + ((m.fibre.map fun f => f.2).getD 0)
    (∃ t ∈ tiers s m.core, t.1 ≤ dest ∧ dest + n ≤ t.1 + t.2) →
    (∀ e ∈ s.pool, dest + n ≤ e.1 ∨ e.1 + e.2.1 ≤ dest) → headerBad s m = false → blockBad s m = false →
    exec (.recordMove rid dest) s = .next (relocate s m dest))

/-- R181, R201, R203, R204, R206, R215, R456 to R458: waiting tasks are placed once there is room; task slices form; a launch at the
head of its queue is checked and waits for its dependences, goes on when they hold, and ends when its groups have; a group
is placed; a distributed launch reserves, backs off, starts and loses parts. -/
def Obligations.TaskAndLaunchStepsAct : Prop :=
  (∀ die s rid, firstWaiting s die = some rid → (s.tasks.getD die []).length + (pendingTasks s rid).length ≤ taskRoom →
    let t := dropPending (placeTasks s die (pendingTasks s rid)) rid
    exec (.taskqRoomPlace die) s = .next
      ((t.waits.filter fun w => w.rid == rid && w.kind == .taskq die).foldl (fun s w => fireWait s rid w.lane []) t)) ∧
  (∀ die s t, nextPair s die = some t →
    (4 ≤ (samePair (s.tasks.getD die []) t).length → exec (.taskSliceForm die t.ctx t.entry) s = .next (formTaskSlice s die t)) ∧
    ((samePair (s.tasks.getD die []) t).length < 4 → exec (.taskAgeTimeout die t.ctx t.entry) s = .next (formTaskSlice s die t))) ∧
  (∀ queue s x p l, s.hwq queue = some x → x.st ≠ .unmapped → x.pkt = some p → s.launch? p.lid = some l → l.st = .queued →
    orderReady s l = true → missingLine s [journalPa s l.seq, queueDesc s queue] = none →
    (recordFieldsOk s l = false → exec (.launchHeadCheck queue) s = .next (failLaunch s l)) ∧
    (∀ a v i d l' t ps, recordFieldsOk s l = true → (p.entry = some (a, v, i, d) ∨ p.entry = none ∧ entryFor s l = .code a v i d) →
      entryOk l (a, v, i, d) = true →
      l' = { l with entryAddr := a, entryVbud := v, entryIdem := i, drain := d } →
      planDeps l' (List.range 4) (s.updLaunch l.lid fun _ => l') = .ready t ps →
      exec (.launchHeadCheck queue) s = .next (waitdepEntered t l' ps))) ∧
  (∀ lid dep s l, s.launch? lid = some l → l.st = .waitdep → (∀ e ∈ s.failedPa, e.1 ≠ whoKey (.dep lid dep)) →
    (∃ m ∈ s.mons, m.who = .dep lid dep ∧ m.hit.isSome = true) → (∃ x, s.hwq l.queue = some x ∧ x.st ≠ .unmapped) →
    missingLine s [journalPa s l.seq, queueDesc s l.queue] = none →
    let l' := { l with latched := l.latched ||| laneBit dep }
    let t := { s.updLaunch lid (fun _ => l') with mons := s.mons.filter fun m => !(m.who == .dep lid dep && m.hit.isSome) }
    exec (.dependenceLatch lid dep) s = .next (if allLatched l' then activate t l' else t)) ∧
  (∀ lid s l, s.launch? lid = some l →
    (l.st = .ending → performed s lid = true → l.owner = none → l.fail = false → missingLine s [journalPa s l.seq] = none →
      exec (.launchComplete lid) s = .next
        (signalLaunch ((journalLaunch s l 3).updLaunch lid fun x => { x with st := .complete }) { l with st := .complete })) ∧
    (l.st = .ending → performed s lid = true → l.owner = none → l.fail = true → missingLine s [journalPa s l.seq] = none →
      exec (.launchComplete lid) s = .next (failLaunch s l)) ∧
    (l.st = .active → l.fail = false → l.parts ≠ [] → (∀ p ∈ l.parts, p.reported = true) →
      exec (.launchComplete lid) s = .next (s.updLaunch lid fun x => { x with st := .ending })) ∧
    ((l.st = .complete ∨ l.st = .failed) → exec (.launchComplete lid) s = .next (signalLaunch s l))) ∧
  (∀ core s g l, nextGroup s core = some g → s.launch? g.lid = some l →
    (g.image = none → exec (.groupPlace core) s = .next (placeGroup s g l core)) ∧
    (∀ im, g.image = some im → exec (.groupPlace core) s = .next (restoreGroup (placeGroup s g l core) g im core))) ∧
  (∀ lid s l, s.launch? lid = some l → l.since + clk100us ≤ s.clk →
    exec (.reservingTimeout lid) s = .next (reserveProgress s lid true)) ∧
  (∀ lid s l, s.launch? lid = some l → l.st = .backoff → l.owner = none → l.since + 42500 ≤ s.clk →
    exec (.backoffExpiry lid) s = .next (reserveProgress (startReserve s l l.parts) lid false)) ∧
  (∀ key s l, s.launch? key = some l → l.owner.isSome = true →
    (l.st = .reserving → l.since + 850000 ≤ s.clk → exec (.partReserveExpiry key) s = .next (releasePart s l)) ∧
    (l.st = .backoff → l.since ≤ s.regs.devtime → exec (.partStart key) s = .next (beginGroups s l))) ∧
  (∀ lid s l l', s.launch? lid = some l → lostParts s l ≠ [] →
    let t := s.updLaunch lid fun x =>
      { x with parts := updAll (fun p => (lostParts s l).contains p.node) (fun p => { p with reported := true }) x.parts }
    t.launch? lid = some l' → missingLine t [journalPa t l.seq, queueDesc t l.queue] = none →
    exec (.partUnreachable lid) s = .next (abortLaunch t l'))

/-- R148, R263, R271, R272, R297, R303, R306, R416, R421, R422, R434, R436: walks start, end in an entry or a failure; retained accesses and
combining buffers have their limits; logical clocks tick; copies are written back; a shootdown starts and completes; snapshots
fire, latch and are released; a fault entry is written to its ring while it has room. -/
def Obligations.TranslationStepsAct : Prop :=
  (∀ die s w, nextWalk s die = some w → exec (.walkStart die) s = .next { s with
    walks := updWhere (fun x => x.id == w.id) (fun x => { x with running := true, walker := freeWalker s die }) s.walks
    walkPts := updAt (die % 4 * 64 + freeWalker s die) (fun t => max t s.latest) s.walkPts }) ∧
  (∀ id s w, (s.walks.find? fun w => w.id == id) = some w → w.running = true →
    (∀ pte pa size lines, walkResult s w = .leaf pte pa size lines → exec (.walkComplete id) s = .next (finishWalk s w pte pa size lines)) ∧
    (∀ pa, walkResult s w = .wait pa → exec (.walkComplete id) s = .next (askLine s w.die (.walk w.id) (walkerPts s w) pa false)) ∧
    (∀ code line lines, walkResult s w = .fail code line lines → exec (.walkFail id) s = .next (failWalk s w code line lines))) ∧
  (∀ id s e, (s.tlbs.find? fun e => e.id == id) = some e → e.since + 85000 ≤ s.clk → ∃ t, exec (.tlbRetentionExpiry id) s = .next t ∧
    (t.tlbs = s.tlbs.filter (fun x => x.id != id) ∨
      t.tlbs = updWhere (fun x => x.id == id) (fun x => { x with retained := [], since := s.clk }) s.tlbs) ∧ t.mem = s.mem) ∧
  (∀ id s b, (s.wcbufs.find? fun b => b.id == id) = some b → b.since + 1700 ≤ s.clk → exec (.wcBufferWrite id) s = .next (wcWrite s b)) ∧
  (∀ core s, exec (.logicalClockTick core) s = .next (s.setCore core fun k => { k with pts := k.pts + 1 })) ∧
  (∀ die line s, exec (.dirtyEvictWriteback die line) s = .next (writeBack s die .front (lineOf line) true)) ∧
  (∀ line s, exec (.l2EvictRecall line) s = .next (evictLine s line)) ∧
  (∀ s, s.regs.sdbusy = false → ∃ t, exec .shootdownGo s = .next t ∧ t.regs.sdbusy = true ∧ t.mem = s.mem ∧
    ∀ e ∈ s.tlbs, shotEntry t e = false → e ∈ t.tlbs) ∧
  (∀ s, s.regs.sdbusy = true → shotUse s = false → exec .shootdownComplete s = .next { s with
    tlbs := s.tlbs.filter fun e => !shotEntry s e
    walkLines := s.walkLines.filter fun l => !(s.regs.sdall || s.regs.sdglobal || l.ctx == s.regs.sdctx)
    regs := { s.regs with sdbusy := false, sddone := s.regs.sddone + 1 } }) ∧
  (∀ core s, core < 256 → s.snapDue.contains core = true →
    let t := { s with snapDue := s.snapDue.filter fun b => b != core }
    exec (.snapshotLatch core) s = .next (t.setCore core fun k => { k with snap := snapImage t core })) ∧
  (∀ die s, die < 4 → s.snapDue.contains (256 + die) = true →
    exec (.snapshotLatch (256 + die)) s = .next { s with
      snapDue := s.snapDue.filter fun b => b != 256 + die
      dieSnap := s.dieSnap.set die
        [(s.tasks.getD die []).length, (s.walks.filter fun w => w.die == die && w.running).length, (usedFuts s die).length] }) ∧
  (∀ s, exec .snapctlTrig s = .next (fireSnapshot s 2 0 0 0 0)) ∧
  (∀ s, ∃ t, exec .snapctlRel s = .next t ∧ t.regs.snapLatched = false ∧ t.snapDue = [] ∧ t.mem = s.mem) ∧
  (∀ queue s e t u v bs, firstFault s queue = some e → physRead s e.die .front e.base 16 = .ok t bs →
    (bytesToNat (bs.take 8) + 2 ^ 64 - bytesToNat (bs.drop 8)) % 2 ^ 64 ≠ 2 ^ e.log2 →
    physWrite t e.die .front (e.base + 0x40 + 64 * (bytesToNat (bs.take 8) % 2 ^ e.log2)) (e.words.flatMap fun w => natToBytes 8 w.toNat) = .done u →
    physWrite u e.die .front e.base (natToBytes 8 ((bytesToNat (bs.take 8) + 1) % 2 ^ 64)) = .done v →
    exec (.faultEntryWrite queue) s = .next
      { faultWritten v queue e with interrupts := v.interrupts + (if e.queue.isNone then 1 else 0) })

/-- R424, R464, R465, R467 to R469, R473: a wake with a good value stores PROD; a watched word that has changed wakes its queue; the packet
that the parser takes is carried out, journalled and passed, or fails, REPLACE and SIGNAL once their own write is acknowledged; an unmapping
queue with nothing left in work writes PROD, CONS, PWAKE, STATE and HEAD to its descriptor, the codes of HEAD as log entry 73 has them. -/
def Obligations.QueueStepsAct : Prop :=
  (∀ queue value s, missingLine s [queueDesc s queue] = none →
    let r := queueNow s queue
    fld value.toNat 63 32 = 0 → (value.toNat % 2 ^ 32 + 2 ^ 32 - r.2.1) % 2 ^ 32 ≤ 2 ^ r.2.2.2.1 →
    exec (.qwakeWrite queue value) s =
      .next (storeProd (keepPeers s queue r.2.1 (value.toNat % 2 ^ 32)) queue (value.toNat % 2 ^ 32))) ∧
  (∀ queue s x m, s.hwq queue = some x → (s.mons.find? fun m => m.who == MonFor.wake queue && m.hit.isSome) = some m →
    missingLine s [queueDesc s queue] = none →
    let t := { s with mons := s.mons.filter fun m => !(m.who == MonFor.wake queue && m.hit.isSome) }
    exec (.wakeWordChange queue) s = .next
      (watchWake (wakeQueue (t.updQ queue fun x => { x with wakeval := m.hit.getD 0 }) queue) queue x.wakesig (m.hit.getD 0))) ∧
  (∀ queue s t x p, takePacket s queue (fun k => k == 0 || 6 ≤ k) = .packet t x p → missingLine t [queueDesc t x.q, journalPa t p.seq] = none →
    exec (.nopPacket queue) s = .next (packetEnded t x p (!p.bad))) ∧
  (∀ queue s t x p, takePacket s queue (· == 1) = .packet t x p → p.bad = false → p.lid = 0 →
    let start := fun (s : State) (words : List W64) =>
      (addLaunch s (newLaunch s x p words .queued x.cons)).updQ queue fun x =>
        { x with pkt := some { p with lid := (newLaunch s x p words .queued x.cons).lid } }
    (p.record ≠ [] → exec (.launchPacket queue) s = .next (start t p.record)) ∧
    (∀ u bs, p.record = [] → lookVirt t x (wordAt p.words 1) 128 = (u, .here bs) →
      exec (.launchPacket queue) s = .next (start u (words64 bs)))) ∧
  (∀ queue s t u x p ms cw, takePacket s queue (· == 2) = .packet t x p → p.bad = false → wordAt p.words 1 + 2 ≤ 2 ^ x.log2n →
    wordAt p.words 1 + 2 ≤ (x.prod + 2 ^ 32 - x.cons) % 2 ^ 32 →
    checkMembers x (packetSrc p.words) ((List.range (wordAt p.words 1)).map fun i => (x.cons + (i + 1)) % 2 ^ 32) t = (u, some ms) →
    (∃ bs, lookPacket t x ((x.cons + (wordAt p.words 1 + 1)) % 2 ^ 32) = .here bs ∧ cw = words64 bs) →
    missingLine u (journalPa u p.seq :: parserLines u queue (wordAt p.words 1 + 1)) = none →
    exec (.beginPacket queue) s = .next (batchBegun u x p ms cw)) ∧
  (∀ queue s t x p, takePacket s queue (· == 3) = .packet t x p → missingLine t [queueDesc t x.q, journalPa t p.seq] = none →
    exec (.commitPacket queue) s = .next (packetEnded t x p (!p.bad && p.inBatch))) ∧
  (∀ queue s t u x p ls, takePacket s queue (· == 4) = .packet t x p → p.bad = false → p.sent = none → replaceOk t x.ctx p.words = true →
    rangeLines x (wordAt p.words 4) (pageParts (wordAt p.words 4) (wordAt p.words 5)) t = (u, some ls) →
    missingLine u [queueDesc u queue, journalPa u p.seq] = none → exec (.replacePacket queue) s = .next (replaced u x p ls)) ∧
  (∀ queue s t u x p, takePacket s queue (· == 5) = .packet t x p → p.bad = false → p.sent = none → x.earlier = [] →
    frontQuiet t = true → missingLine t [queueDesc t queue, journalPa t p.seq] = none →
    signalUpdate t 0 x.ctx x.fwown .front t.latest (frontMark t 0 x.ctx (wordAt p.words 1)) (wordAt p.words 1) (wordAt p.words 2) false 0 = .done u →
    let v := clearFront u 0 x.ctx (wordAt p.words 1)
    (frontQuiet v = true → missingLine v [queueDesc v x.q, journalPa v p.seq] = none →
      exec (.signalPacket queue) s = .next (packetEnded v x p (v.faults.length == t.faults.length))) ∧
    (frontQuiet v = false → exec (.signalPacket queue) s = .next (v.updQ queue fun x => { x with pkt := some { p with sent := some 0 } }))) ∧
  (∀ queue s t x p line, p.bad = false → p.sent = some line → frontQuiet t = true → lineFailed t .front line = false →
    missingLine t [queueDesc t x.q, journalPa t p.seq] = none →
    (takePacket s queue (· == 4) = .packet t x p → exec (.replacePacket queue) s = .next (packetEnded t x p true)) ∧
    (takePacket s queue (· == 5) = .packet t x p → exec (.signalPacket queue) s = .next (packetEnded t x p true))) ∧
  (∀ queue s x head, s.hwq queue = some x → x.st = .unmapping → headCode s x = some head → missingLine s [queueDesc s queue] = none →
    let held := natToBytes 8 (descWord s queue 8 % 2 ^ 61 + 2 ^ 63 + b2n x.pwake * 2 ^ 61) ++ natToBytes 4 x.prod ++ natToBytes 4 x.cons
    exec (.queueUnmapComplete queue) s = .next ((frontPut (frontPut s (queueDesc s queue + 8) held) (queueDesc s queue + 0x20)
      (natToBytes 8 head)).updQ queue fun x => { x with st := .unmapped, pwake := false }))

/-- R419, R424, R427, R428, R430, R474, R492, R496: each mailbox command that is running is carried out and answered; pre-emption
begins on a die, goes on group by group and is undone. Which registers lose power in STANDBY is the model's choice, log entry 81. -/
def Obligations.MailboxAndPreemptStepsAct : Prop :=
  (∀ ctx s bs, mbRuns s 1 ctx = true → ctx < 65536 → s.context ctx = none → s.regs.standby = false → lookAt s (contextDesc s ctx) 128 = .here bs →
    contextOk (words64 bs) = true →
    exec (.ctxnew ctx) s = .next (mbAnswer { s with contexts := s.contexts ++ [⟨ctx, words64 bs, 0, 0⟩] } false)) ∧
  (∀ ctx s k, mbRuns s 2 ctx = true → s.context ctx = some k → contextGone s ctx = true →
    exec (.ctxdel ctx) s = .next (mbAnswer (removeContext s ctx) false)) ∧
  (∀ queue s bs, let w := fun i => descWord s queue (8 * i)
    mbRuns s 3 queue = true → queue < 65536 → s.hwq queue = none → missingLine s [queueDesc s queue] = none →
    queueOk s w = true →
    (w 3 % 2 ^ 54 = 0 → exec (.mapq queue) s = .next (mbAnswer (mapQueue s queue 0 w) false)) ∧
    (w 3 % 2 ^ 54 ≠ 0 → lookAt s (w 3 % 2 ^ 54) 8 = .here bs →
      exec (.mapq queue) s = .next (mbAnswer (mapQueue s queue (bytesToNat bs) w) false))) ∧
  (∀ queue s x, mbRuns s 4 queue = true → s.hwq queue = some x →
    (x.st = .mapped → missingLine s [queueDesc s queue] = none →
      exec (.unmapq queue) s = .next ((unmapStarts s queue).updQ queue fun x => { x with st := .unmapping })) ∧
    (x.st = .unmapped → exec (.unmapq queue) s = .next (mbAnswer s false))) ∧
  (∀ seq s l, mbRuns s (5 + 256) seq = false → mbRuns s 5 seq = true →
    (s.launches.find? fun l => l.owner.isNone && l.seq == seq && !launchOver s l.lid) = some l →
    missingLine s [queueDesc s l.queue, journalPa s l.seq] = none →
    exec (.abortCmd seq) s = .next (abortLaunch { s with regs := { s.regs with mbBusy := some (5 + 256, seq) } } l)) ∧
  (∀ seq s, mbRuns s (5 + 256) seq = true → abortOver s seq = true → exec (.abortCmd seq) s = .next (mbAnswer s false)) ∧
  (∀ (arg : BitVec 56) s, mbRuns s (6 + 256) arg.toNat = false → mbRuns s 6 arg.toNat = true → preIdle s = true →
    let t := setPrectl s (fld arg.toNat 47 32) (fld arg.toNat 25 0) false
    exec (.preemptCmd arg) s = .next (onDies preemptDie { t with regs := { t.regs with mbBusy := some (6 + 256, arg.toNat) } })) ∧
  (∀ (arg : BitVec 56) s, mbRuns s (6 + 256) arg.toNat = true → preIdle s = true → exec (.preemptCmd arg) s = .next (mbAnswer s false)) ∧
  (∀ ctx s, s.regs.mbBusy = some (7, ctx) → ctx < 65536 → preIdle s = true →
    exec .restoreCmd s = .next (mbAnswer (onDies resumeDie (setPrectl s ctx 0 true)) false)) ∧
  (∀ buffer s nonce, s.regs.mbBusy = some (8, buffer) → buffer % 4096 = 0 → buffer < 2 ^ 54 → isHbm buffer = true →
    lookAt s (buffer + 0x90) 32 = .here nonce → missingLine s ((List.range 32).map fun i => buffer + 128 * i) = none →
    exec .attest s = .next (mbAnswer (((reportPieces s nonce).flatMap fun e => linePieces (buffer + e.1) e.2).foldl
      (fun s e => frontPut s e.1 e.2) s) false)) ∧
  (∀ s, mbRuns s 9 0 = true → s.contexts = [] → s.regs.standby = false →
    exec .standbyEnter s = .next (mbAnswer (unpowerCores { s with regs := { s.regs with standby := true } }) false)) ∧
  (∀ s, mbRuns s 9 1 = true → s.regs.standby = true → exec .standbyLeave s =
    .next (mbAnswer (setMaint { s with regs := { s.regs with standby := false, warm := true, phase := .selftest } } true) false)) ∧
  (∀ die s, (s.dieRegs die).preBusy = false → exec (.preemptGo die) s = .next (preemptDie die s)) ∧
  (∀ die s, (s.dieRegs die).preBusy = true → (s.dieRegs die).preLeft = [] →
    exec (.preemptGroupDone die) s = .next (s.setDie die fun d => { d with preBusy := false })) ∧
  (∀ die s t, (s.dieRegs die).preBusy = true → (s.dieRegs die).preLeft.findSome? (unitStep s die) = some t →
    exec (.preemptGroupDone die) s = .next t) ∧
  (∀ die s, exec (.preemptResume die) s = .next (resumeDie die s))

/-- R311, R375, R440, R441, R444, R446, R452, R453, R457 to R460: a request that the fabric admits leaves by the port that R460
names, a waiting request of this module to its own home is served, and a request for an unreachable node fails; late requests and
posted writes fail; answers reach their requester; a forwarded record arrives; the parts of a distributed launch answer and
are answered; a flit with a good check code is passed, one named wrongly is counted, any other is asked for again. The parameters of the
CRC-32C (log entry 18) and what the fields of a message carry beside R441's (log entries 7, 89 and 92) are the model's choices. -/
def Obligations.FabricStepsAct : Prop :=
  (∀ id s r, (s.reqs.find? fun r => r.id == id) = some r → r.injected = none →
    (reachable s r.node = false → exec (.requestInject id) s = .next (failReq s r)) ∧
    (∀ p, reachable s r.node = true → injectable s r = true →
      portFor s r.msg.dnode (if lineless r.kind then none else some r.msg.addr) = some p →
      let slot := if takesSlot r then slotFor s r else none
      let n := match r.who with | .core _ => slot.getD 0 | _ => 0
      let unit := match r.who, slot with
        | .engine _, some k => 0x40 + k % 32
        | .walk _, some k => 0x40 + k % 32
        | _, _ => r.msg.sunit
      let m := { r.msg with slot := n, sunit := unit }
      exec (.requestInject id) s = .next { s with
        reqs := updWhere (fun q => q.id == id) (fun q => { q with slot := slot, injected := some s.clk }) s.reqs
        outbox := s.outbox ++ [(p, r.kind, m)]
        linkTx := updAt p (sendFlits s.outbox.length (flitCount r.kind m)) s.linkTx })) ∧
  (∀ id s i, (s.reqs.find? fun r => r.id == id) = none → (s.homeQ.find? fun i => i.id == id && !i.sent) = some i →
    exec (.requestInject id) s = .next (pumpLine s i.line)) ∧
  (∀ id s r, (s.reqs.find? fun r => r.id == id && reqLate s r) = some r → exec (.requestTimeout id) s = .next (failReq s r)) ∧
  (∀ id s, (s.reqs.find? fun r => r.id == id && reqLate s r) = none →
    (∀ p, (s.posts.find? fun p => p.id == id && postLate s p) = some p → exec (.requestTimeout id) s = .next (settlePost s p none)) ∧
    (∀ i, (s.posts.find? fun p => p.id == id && postLate s p) = none → (s.homeQ.find? fun i => i.id == id && forwardLate s i) = some i →
      exec (.requestTimeout id) s = .next (pumpLine { s with homeQ := s.homeQ.filter fun x => x.id != id } i.line))) ∧
  (∀ m s r, forUs s m = true → answered s m (fun k => k == 0 || k == 1 || k == 6) = some r →
    let t := (dropReq s r.id).hear m.time
    (r.kind = 6 → exec (.dataMsg m) s = .next (sunk (awaits r) t (lineBack t r m))) ∧
    (r.kind ≠ 6 → r.direct = true → exec (.dataMsg m) s = .next (sunk (awaits r) t (directData t r m))) ∧
    (r.kind ≠ 6 → r.direct = false → exec (.dataMsg m) s = .next (sunk (awaits r) t (takeLine t r m)))) ∧
  (∀ m s, forUs s m = true → (s.homeQ.find? fun i => itemTag i.id == m.tag && i.sent) = none →
    (∀ p, (s.posts.find? fun p => postTag p.id == m.tag) = some p →
      exec (.ackMsg m) s = .next (settlePost s p (some m)) ∧ exec (.nackMsg m) s = .next (settlePost s p none)) ∧
    ((s.posts.find? fun p => postTag p.id == m.tag) = none →
      (∀ r, answered s m (fun k => k == 4 || k == 6 || k == 8) = some r → (∀ rid, r.who ≠ .record rid) → r.kind ≠ 6 →
        exec (.ackMsg m) s = .next (atomAnswer ((dropReq s r.id).hear m.time) r m)) ∧
      (∀ r, answered s m (fun _ => true) = some r → exec (.nackMsg m) s = .next (failReq s r)))) ∧
  (∀ m s i, forUs s m = true → (s.homeQ.find? fun i => itemTag i.id == m.tag && i.sent) = some i →
    exec (.ackMsg m) s = .next (ownerReply s i m) ∧ exec (.nackMsg m) s = .next (ownerReply s i { m with arg := 0 })) ∧
  (∀ m s r rid lane, forUs s m = true → answered s m (fun k => k == 5) = some r → r.who = .monitor rid lane →
    exec (.msat m) s = .next (fireWait ((dropReq s r.id).hear m.time) rid lane (splitWord (bitOf r.msg.arg 3) m.val.toNat))) ∧
  (∀ m s core a, forUs s m = true → allowed s 8 m = true → (s.context m.val.toNat).isSome = true → bitOf m.arg 31 = false →
    core = fld m.arg 9 8 * 64 + fld m.arg 5 0 → s.coreOn core = true →
    recordRoom s core ((msgTail m).headD 0) (msgFibres m).length = some a →
    exec (.recMsg m) s = .next (takeRecord s m core a)) ∧
  (∀ m s, forUs s m = true → allowed s 9 m = true →
    (m.arg = 0 → (s.context m.val.toNat).isSome = true → partOf s m.snode m.addr = none → exec (.partReserve m) s =
      let r := reserveHere (s.hear m.time) m.snode m.addr m.val.toNat m.val2.toNat m.data
      .next (ack r.1 m (if r.2 then 17 else 16) 0 true)) ∧
    (∀ l, m.arg = 1 → partOf s m.snode m.addr = some l → l.st = .reserving → exec (.partCommit m) s =
      .next (ack ((s.hear m.time).updLaunch l.lid fun x =>
        { x with st := .backoff, since := m.val.toNat, late := decide (m.val.toNat < s.regs.devtime) }) m 0 0 true)) ∧
    (∀ l, m.arg = 2 → partOf s m.snode m.addr = some l → (l.st = .reserving ∨ l.st = .backoff) →
      exec (.partRollback m) s = .next (ack (releasePart s l) m 0 0 true)) ∧
    (m.arg = 3 → exec (.partReport m) s = .next (ack (partEnded (s.hear m.time) m) m 0 0 true)) ∧
    (m.arg = 5 → exec (.partReport m) s = .next (ack (awayReport (s.hear m.time) m) m 0 0 true))) ∧
  (∀ core port words s, ((s.core core).ports.getD port Port.unbound).kind = 2 →
    exec (.fabricReceiveEntry core port words) s = .next (portFire
      (s.setCore core fun k => { k with
        ports := updAt port (fun p => { p with entries := p.entries ++ [(List.range 32).map fun i => words.getD i 0] }) k.ports }) core port 1)) ∧
  (∀ port (f : Flit) s, fld f.ctl.toNat 127 96 = crc32c (natToBytes 12 f.ctl.toNat ++ f.payload) → f.payload.length = 64 →
    s.ports.getD port false = true → fld f.ctl.toNat 95 84 = s.linkSeq.getD port 0 →
    let t := { s with linkSeq := updAt port (fun n => (n + 1) % 4096) s.linkSeq, linkAsk := updAt port (fun _ => none) s.linkAsk }
    exec (.flitReceive port f) s = .next (if kindNamed (fld f.ctl.toNat 82 78)
      then { t with linkRx := updAt port (fun l => if bitOf f.ctl.toNat 44 then [] else l ++ [f]) t.linkRx }
      else { t with linkErrors := t.linkErrors + 1 })) ∧
  (∀ port (f : Flit) s, s.ports.getD port false = true →
    (fld f.ctl.toNat 127 96 ≠ crc32c (natToBytes 12 f.ctl.toNat ++ f.payload) ∨ f.payload.length ≠ 64 ∨
      fld f.ctl.toNat 95 84 ≠ s.linkSeq.getD port 0) →
    exec (.flitReceive port f) s = .next { s with linkAsk := updAt port (fun _ => some (s.linkSeq.getD port 0)) s.linkAsk }) ∧
  (∀ port s, exec (.linkTakedown port) s = .next { s with ports := updAt port (fun _ => false) s.ports })

/-- R305, R307, R310, R441, R450: a request for a line of this module is refused where the sender may not make it and reaches its home
elsewhere; an owner that is asked to share or give up a line supplies it, and answers the home; one that no longer has it says so, one
whose copy is uncorrectable refuses. The codes of what a message carries are the model's choices (log entries 7, 92, 89 and 136). -/
def Obligations.HomeMessagesAct : Prop :=
  (∀ m s, forUs s m = true →
    let at_ := fun k => Host.Outcome.next (φ := Fault) (ρ := Refusal) (if allowed s k m then (if absentHere s k m then nack s m false 1 else arriveHome k m s) else nack s m (lineless k))
    exec (.rdMsg m) s = at_ 0 ∧ exec (.rdxMsg m) s = at_ 1 ∧ exec (.wrMsg m) s = at_ 2 ∧ exec (.wrpMsg m) s = at_ 3 ∧
    exec (.atmMsg m) s = at_ 4 ∧ exec (.monMsg m) s = at_ 5 ∧ exec (.launchMsg m) s = at_ 7) ∧
  (∀ m s, forUs s m = true → m.arg % 4 = 2 →
    exec (.fwqMsg m) s = .next (ack ((List.range 4).foldl (fun s d => dropCopy s d (lineOf m.addr)) s) m)) ∧
  (∀ m s, forUs s m = true → m.arg % 4 ≠ 2 →
    (s.copies.find? fun c => c.die == m.arg / 4 % 4 && c.pa == lineOf m.addr && c.owned) = none →
    exec (.fwqMsg m) s = .next (ack s m 3)) ∧
  (∀ m s c, forUs s m = true → m.arg % 4 ≠ 2 →
    (s.copies.find? fun c => c.die == m.arg / 4 % 4 && c.pa == lineOf m.addr && c.owned) = some c → c.bad = true →
    exec (.fwqMsg m) s = .next (nack (noteBad s (m.arg / 4 % 4) (lineOf m.addr)) m false 2)) ∧
  (∀ m s c, forUs s m = true → m.arg % 4 = 0 →
    (s.copies.find? fun c => c.die == m.arg / 4 % 4 && c.pa == lineOf m.addr && c.owned) = some c → c.bad = false →
    let rts := max (max c.rts (l1Rts s (lineOf m.addr))) (max (m.time + 64) (c.wts + 65))
    let arg := if c.clean && c.excl then 4 else 1
    let t := updCopy (l1Settle s none (lineOf m.addr) false) (m.arg / 4 % 4) (lineOf m.addr) fun x =>
      { x with excl := false, owned := arg == 1, rts := rts }
    let t := supply t m fun r => { r with arg := if m.val.toNat = m.snode ∧ arg = 4 then 4 else 0, time := c.wts, rts := rts, data := c.data }
    exec (.fwqMsg m) s = .next (if m.val.toNat = m.snode then t else respond t 17 m fun r => { r with arg := arg, rts := rts })) ∧
  (∀ m s c, forUs s m = true → (m.arg % 4 = 1 ∨ m.arg % 4 = 3) →
    (s.copies.find? fun c => c.die == m.arg / 4 % 4 && c.pa == lineOf m.addr && c.owned) = some c → c.bad = false →
    let rts := max c.rts (l1Rts s (lineOf m.addr))
    let t := supply (dropCopy s (m.arg / 4 % 4) (lineOf m.addr)) m fun r => { r with time := c.wts, rts := rts, data := c.data }
    exec (.fwqMsg m) s = .next (if m.val.toNat = m.snode then t else respond t 17 m fun r => { r with arg := 2, rts := rts }))

/-- R287, R346, R360, R363, R364, R366, R368, R372, R388 to R399: an operation that waits for no page reads its descriptor, takes it up
or finds it malformed, begins, and goes on unit by unit; when its units are performed and acknowledged, its completion action is
made and its future completes; a fetch takes the tail entry of its queue; a compaction takes its tokens tile by tile; a matrix
operation starts after those before it and writes its slot at its end; a cancelled operation stops at its safe point. The PROGRESS of a
matrix operation that leaves the range and the order in which compactions are taken are the model's choices (log entries 46 and 50). -/
def Obligations.EngineStepsAct : Prop :=
  (∀ op s o, s.op? op = some o → o.waitPage = none → engineTaken s o = false →
    ((o.kind = .cpy ∨ o.kind = .qnt ∨ o.kind = .dqnt ∨ o.kind = .ixwalk ∨ o.kind = .tile ∨ o.kind = .fetch ∧ o.reserved = true ∨
        o.kind = .mxdrain ∧ slotFirst s o = true) →
      (o.words = none → o.fail = none → o.limit = none → descLeft o ≠ [] →
        exec (.engineUnitAccess op) s = .next (descUnit s o)) ∧
      (o.words = none → o.fail = none → o.limit = none → descLeft o = [] →
        let ws := words64 (rowBytes o descRow (bytesIn (descReads o)))
        (descOk s o ws = true → exec (.engineUnitAccess op) s = .next (s.updOp o.id fun o => { o with words := some ws })) ∧
        (descOk s o ws = false → exec (.engineUnitAccess op) s = .next (malformed s o))) ∧
      (∀ ws, o.words = some ws →
        (o.started = false → exec (.engineUnitAccess op) s = .next (startWork s o ws)) ∧
        (o.started = true → exec (.engineUnitAccess op) s = .next (workUnit s o ws)))) ∧
    (o.kind = .cpact → o.started = false → o.fail = none → compactFirst s o = true →
      exec (.engineUnitAccess op) s = .next (compactTurn s o)) ∧
    (∀ ws, o.kind = .cpact → o.started = true → o.words = some ws → exec (.engineUnitAccess op) s = .next (workUnit s o ws)) ∧
    (o.kind = .cpfl → o.started = false → compactFirst s o = true → exec (.engineUnitAccess op) s = .next (flushTurn s o))) ∧
  (∀ op s o, s.op? op = some o → withFailures s o = o → workOver s o = true →
    let ends := fun (i : Instr) =>
      (o.freed = false → exec i s = .next (overlapFree s o)) ∧
      (∀ t code cause addr, o.freed = true → actNow { s with fresh := s.fresh + 1 } o = .done t code cause addr →
        let u := sweepSlots (dropOp (drainClear t o) o.id) o.core
        exec i s = .next (completeFut { u with failedPa := u.failedPa.filter fun e => e.1 != whoKey (.engine o.id) } o.die o.handle code
          (outcomeOf { s with fresh := s.fresh + 1 } o).2.1 cause addr))
    (o.kind = .cpy → ends (.cpyCompletion op)) ∧ (o.kind = .mxdrain → ends (.mxdrainCompletion op)) ∧
    (o.kind = .qnt → ends (.qntCompletion op)) ∧ (o.kind = .dqnt → ends (.dqntCompletion op))) ∧
  (∀ core queue s o os, unreserved s core queue = o :: os → queueRoom s o = true →
    exec (.fetchReserve core queue) s = .next (reserveEntry s o)) ∧
  (∀ op s o ws, s.op? op = some o → o.kind = .fetch → o.waitPage = none → o.reserved = true → o.words = some ws →
    (o.limit.isSome = true ∨ o.started = true ∧ (jobOf s o ws).allDone o = true) →
    let q := outcomeOf s o
    let words := if q.1 = 0 then fetchWords32 o ws else List.replicate 32 0
    exec (.fetchCompletion op) s = .next
      (completeFut (dropOp (fillEntry s o words) op) o.die o.handle q.1 (if q.1 = 0 then 1 else 0) q.2.2.1 q.2.2.2)) ∧
  (∀ op s o ws, s.op? op = some o → o.kind = .ixwalk → o.words = some ws → o.started = true → o.waitPage = none → opAcked s o = true →
    (o.progress < (jobOf s o ws).end_ o → (jobOf s o ws).rowDone o o.progress = true → wordAt ws 7 = 0 →
      exec (.ixwalkRangeComplete op) s = .next (putHeader s o ws o.progress)) ∧
    ((jobOf s o ws).end_ o ≤ o.progress →
      let q := outcomeOf s o
      exec (.ixwalkCompletion op) s = .next
        (completeFut (dropOp s op) o.die o.handle (if q.1 = 0 && o.spoilt then 3 else q.1) q.2.1 q.2.2.1 q.2.2.2))) ∧
  (∀ core s, (tileOp s core = none → exec (.cpactTileFill core) s = .next (startTile s core)) ∧
    (∀ o ws, tileOp s core = some o → (withFailures s o).words = some ws → workOver s (withFailures s o) = true →
      (withFailures s o).fail = none → groupHere s (withFailures s o) = true →
      let o := withFailures s o
      exec (.cpactTileFill core) s = .next
        ((ringRelease (dropOp s o.id) core (compactRing ws) false (o.args.getD 0 0) none).getD (dropOp s o.id)))) ∧
  (∀ op s o, s.op? op = some o → o.kind = .cpfl → o.started = true → o.waitPage = none → (withFailures s o).fail = none →
    opAcked s (withFailures s o) = true → tilesReleased s (withFailures s o) = true →
    exec (.cpactCompletion op) s = .next (completeFut (dropOp s op) o.die o.handle 0 1)) ∧
  (∀ op s o ws, s.op? op = some o → o.kind = .cpact → o.words = some ws → o.started = true → o.waitPage = none →
    withFailures s o = o → o.fail = none → (jobOf s o ws).allDone o = true → opAcked s o = true → tilesReleased s o = true →
    exec (.cpactCompletion op) s = .next (completeFut (dropOp s op) o.die o.handle 0 o.toks.length)) ∧
  (∀ core s o, mxNext s core = some o →
    let last := ((unitOps s core).filter fun q => q.started).foldl (fun m q => max m q.due) 0
    exec (.matrixOpStart core) s = .next (s.updOp o.id fun q => { q with started := true, due := opEnd s o (max (o.since + 1) last) })) ∧
  (∀ op s o, s.op? op = some o → o.kind = .mxissue → mxDone s o = true →
    let t := { s with fresh := s.fresh + 1 }
    exec (.matrixOpComplete op) s = .next (completeFut (mxWritten t o) o.die o.handle
      (if (firstOver t o).isSome then 3 else 0) ((firstOver t o).getD (opBlocks t o)))) ∧
  (∀ op s o, s.op? op = some o → o.cancel = true → o.limit = none →
    (∀ ws, o.kind = .cpy → o.words = some ws → rowsBegun o < (jobOf s o ws).rows →
      exec (.cancelSafePoint op) s = .next (s.updOp op fun o' => { o' with limit := some (rowsBegun o) })) ∧
    (o.kind = .fetch → o.reserved = true → exec (.cancelSafePoint op) s = .next (s.updOp op fun o' => { o' with limit := some 0 })) ∧
    (∀ ws, o.kind = .ixwalk → o.words = some ws → o.progress < (jobOf s o ws).rows →
      (o.put.any fun k => k / 2 ^ 40 == o.progress) = false →
      exec (.cancelSafePoint op) s = .next (s.updOp op fun o' => { o' with limit := some o.progress })))

/-- R7, R259, R461, R475, R480, R488, R489, R491, R494 to R496: registers take the values that the control node and firmware write; MRESET,
power-on and the thermal trip restart the part, the trip without its memory and its work; the boot phases follow one another or end in
RECOVERY; a sample at the limit calls the trip; cores are gated and woken; Bersy reads and writes; a lane of it fails. The places of the
fields of an image's header (log entry 143) and that a PTP event message changes nothing (log entry 94) are the model's choices. -/
def Obligations.DeviceStepsAct : Prop :=
  (∀ (w : RegWrite) s, (w.agent = .firmware ∨ w.agent = .controlNode ∧ accepting s = true) →
    exec (.registerWrite w) s = .next (putRegister s w)) ∧
  (∀ (value : W64) s, s.contexts = [] →
    exec (.feataccWrite value) s = .next { s with regs := { s.regs with featacc := value &&& s.regs.featpub } }) ∧
  (∀ die s v, (s.dieRegs die).poolNext = some v → poolEmpty s die = true →
    exec (.poolcfgApply die) s = .next (s.setDie die fun d => { d with poolcfg := v, poolNext := none })) ∧
  (∀ s, (accepting s = true ∨ s.regs.phase = .rom ∨ s.regs.phase = .recovery) →
    exec (.mreset (BitVec.ofNat 64 (0x0d145e7a * 2 ^ 32 + 1))) s = .next (moduleReset s true)) ∧
  (∀ s, exec .powerOnReset s = .next (moduleReset s false)) ∧
  (∀ s, 1760 ≤ s.regs.tj → ∃ t, exec .thermalTrip s = .next t ∧ t.regs.phase = .recovery ∧ t.regs.bootError = 5 ∧ t.regs.tj = s.regs.tj ∧
    t.interrupts = s.interrupts + 1 ∧ t.mem = [] ∧ t.gangs = [] ∧ t.recs = [] ∧ t.pool = [] ∧ t.pend = [] ∧ t.ops = [] ∧ t.launches = [] ∧
    t.groups = [] ∧ t.queues = [] ∧ t.contexts = [] ∧ t.copies = [] ∧ t.tasks = State.reset.tasks ∧ t.cores = State.reset.cores) ∧
  (∀ staged img s, s.regs.phase = .rom → bootImage s staged = some img →
    exec (.bootRomPhase staged) s = .next { setPhase s .verify 0 with image := img }) ∧
  (∀ s, s.regs.phase = .verify →
    let svn := imageField s.image 12 1
    exec (.verifyPhase (signatureOk s)) s = .next (
      if signatureOk s = false then setPhase s .recovery 1
      else if svn < s.regs.svnFuse.toNat then setPhase s .recovery 2
      else { setPhase s .hbminit 0 with
        imageSvn := BitVec.ofNat 8 svn, imageCommit := imageField s.image 13 1 != 0
        tcm := (s.image.take (64 + imageLength s.image)).drop 64
        regs := { (setPhase s .hbminit 0).regs with fwver := BitVec.ofNat 32 (imageField s.image 8 4) } })) ∧
  (∀ s, s.regs.phase = .hbminit → exec (.hbminitPhase false) s = .next (setPhase s .recovery 3) ∧
    ∃ t, exec (.hbminitPhase true) s = .next t ∧ t.regs.phase = .selftest ∧ ∀ c ∈ t.mem, 0x10000000000 ≤ c.1) ∧
  (∀ s, s.regs.phase = .selftest → exec (.selftestPhase false) s = .next (setPhase s .recovery 4) ∧
    ∃ t, exec (.selftestPhase true) s = .next t ∧ t.regs.phase = .ready) ∧
  (∀ (v : FirmwareValues) s, s.regs.phase = .ready → s.regs.booted = false → ∃ t, exec (.readyPhase v) s = .next t ∧ t.regs.booted = true ∧
    t.node = v.node.toNat ∧ t.regs.featpub = v.features &&& 0xf ∧ t.regs.qdtbase.toNat = v.qdtbase.toNat % 2 ^ 54 ∧
    t.regs.ctxbase.toNat = v.ctxbase.toNat % 2 ^ 54) ∧
  (∀ (pwr tj tin : BitVec 16) s, ∃ t, exec (.throttle pwr tj tin) s = .next t ∧
    t.regs.pwr = pwr.toNat ∧ t.regs.tj = tj.toNat ∧ t.regs.tin = tin.toNat ∧
    t.regs.throt = (decide (s.regs.pcap < pwr.toNat) || decide (1600 ≤ tj.toNat)) ∧
    (1760 ≤ tj.toNat → t.due = .thermalTrip :: s.due) ∧ (tj.toNat < 1760 → t.due = s.due) ∧ t.mem = s.mem ∧ t.gangs = s.gangs) ∧
  (∀ core s, coreBusy s core = false → (s.core core).idle + 8500 ≤ s.clk →
    exec (.clockGate core) s = .next (s.setCore core fun k => { k with gated := true })) ∧
  (∀ core s, (s.core core).gated = true → s.regs.standby = false →
    exec (.coreWake core) s = .next (s.setCore core fun k => { k with gated := false, idle := s.clk })) ∧
  (∀ la size s, s.bersy.any id = true → readOpen s la = true → bersyMissing s la (min size 8) = none → lineBad s la (min size 8) = false →
    ∃ t, exec (.bersyAccess (.read la size)) s = .next t ∧ t.answers = s.answers ++ [BitVec.ofNat 64 (readNat s la (min size 8))]) ∧
  (∀ la size (value : W64) s, s.bersy.any id = true → writeOpen s la (min size 8) = true → bersyMissing s la (min size 8) = none →
    ((placeOf s la).region = .dev → exec (.bersyAccess (.write la size value)) s =
      .next (deviceWrite s .controlNode la (natToBytes (min size 8) value.toNat))) ∧
    ((placeOf s la).region ≠ .dev → lineBad s la (min size 8) = false → exec (.bersyAccess (.write la size value)) s =
      .next (writeBytes (touchBy s s.latest la true).1 la (natToBytes (min size 8) value.toNat)))) ∧
  (∀ lane s, (updAt lane (fun _ => false) s.bersy).any id = true →
    exec (.bersyLaneFail lane) s = .next { s with bersy := updAt lane (fun _ => false) s.bersy }) ∧
  (∀ port s, exec (.ptpEventMessage port) s = .next s)

/-- R481, R483, R484: a closed stream that has shut its queue is opened from a good descriptor and refused from a bad one; an open
one is closed; packets of enabled streams are taken; frame groups close in order and late ones are given up. -/
def Obligations.StreamStepsAct : Prop :=
  (∀ stream s bs, let t := s.stream stream
    t.state = 0 → t.shut = true → lookAt s t.desc 64 = .here bs →
    let o : Stream := { Stream.reset with desc := t.desc, words := words64 bs, entries := t.entries, held := t.held }
    exec (.sctlOpen stream) s = .next (s.setStream stream fun _ =>
      if t.desc % 64 == 0 && descriptorOk o then { o with state := 1, shut := false } else { o with state := 2 })) ∧
  (∀ stream s, let t := s.stream stream
    let frames := (t.frames.filter fun f => !f.dropped).map fun (f : Frame) => if f.closing = 0 then { f with closing := 2 } else f
    exec (.sctlClose stream) s = .next (shutQueue (s.setStream stream fun t => { t with state := 0, frames := frames }) stream)) ∧
  (∀ (p : StreamPacket) s, s.regs.featacc.getLsbD 0 = true →
    exec (.ingestPacket p) s = .next { s with streams := s.streams.map (takeStreamPacket s p) }) ∧
  (∀ stream slot s f, frameAt s stream slot = some f →
    exec (.frameClose stream slot) s = .next (closeGroup s stream f) ∧
    (frameLate s (s.stream stream) f = true → exec (.frameTimeout stream slot) s = .next (s.setStream stream fun t => { t with
      frames := updWhere (fun g => g.seq == f.seq) (fun g => { g with closing := 2 }) t.frames })))

/-! ## The whole machine -/

/-- R50 to R53, R62 to R70 with R22: for every constructor, decoding the words of a well-formed instruction gives it back,
with every operand at every value that the encoding admits; the part's own steps have no words. -/
def Obligations.EveryWordRoundTrips : Prop := ∀ i : Instr, Laws.Encoding.Statement i

/-- Words that the spec gives in its examples, or that follow from its field tables (R62 to R71) bit by bit, of every family: integer
arithmetic (R87) and a pair of it, the undefined word (R71), a load and a store (R107), floating point (R117), control and system
(R133, R140), special registers (R142), cross-lane and divergence (R219, R227), tasks (R231), expansions (R239), the memory system (R318),
engines and the matrix unit (R377, R383), rings and futures (R373, R380), fibres (R400). -/
def Obligations.SpecWordsDecode : Prop :=
  decodeTableWord 64 0x4e80000000000000 = some (.nop { noFields with guard := 7 }) ∧
  decodeTableWord 64 0x4e56c10001000510 = some (.fcmp { noFields with guard := 7, d := 193, b := 1, type := 10, rm := 1 }) ∧
  decodeTableWord 64 0x4281000000050000 = some (.bra { noFields with guard := 1, c := 5 }) ∧
  decodeTableWord 64 0x4e00020304000380 = some (.add { noFields with guard := 7, d := 2, a := 3, b := 4, type := 7 }) ∧
  decodeTableWord 64 0x4e88000000070000 = some (.trap { noFields with guard := 7, c := 7 }) ∧
  decodeTableWord 64 0x4eff000000000000 = some (.udf { noFields with guard := 7 }) ∧
  decodeTableWord 64 0x0621000280050800 = some (.pairWord ⟨0x31, 4, 0, 5⟩ ⟨0, 5, 4, 0⟩) ∧
  decodeTableWord 64 0x4e40140a12002380 = some (.ld { noFields with guard := 7, d := 20, a := 10, b := 18, minor := 2, type := 7 }) ∧
  decodeTableWord 64 0x4e41140c12002380 = some (.st { noFields with guard := 7, d := 20, a := 12, b := 18, minor := 2, type := 7 }) ∧
  decodeTableWord 64 0x4ee0010000120000 = some (.gets { noFields with guard := 7, d := 1, c := 0x12 }) ∧
  decodeTableWord 64 0x4e90040203053381 =
    some (.xlane { noFields with guard := 7, d := 4, a := 2, b := 3, c := 5, minor := 3, type := 7, aux := 1 }) ∧
  decodeTableWord 64 0x4e960000000a0000 = some (.rcvJ { noFields with guard := 7, c := 10 }) ∧
  decodeTableWord 64 0x449c000108000000 = some (.spawn { noFields with guard := 2, a := 1, b := 8 }) ∧
  decodeTableWord 64 0x4ea0c10607000000 = some (.expb { noFields with guard := 7, d := 193, a := 6, b := 7 }) ∧
  decodeTableWord 64 0x4eb3028401000387 = some (.atom { noFields with guard := 7, d := 2, a := 132, b := 1, type := 7, aux := 7 }) ∧
  decodeTableWord 64 0x4eb9180c12006300 = some (.ldt { noFields with guard := 7, d := 24, a := 12, b := 18, minor := 6, type := 6 }) ∧
  decodeTableWord 64 0x4ec9c90a00000000 = some (.cpy { noFields with guard := 7, d := 201, a := 10 }) ∧
  decodeTableWord 64 0x4ec3c90c00000000 = some (.mxissue { noFields with guard := 7, d := 201, a := 12 }) ∧
  decodeTableWord 64 0x4ed3080000011000 = some (.racqC { noFields with guard := 7, d := 8, c := 1, minor := 1 }) ∧
  decodeTableWord 64 0x4ed50f0000120000 = some (.fwait { noFields with guard := 7, d := 15, c := 0x12 }) ∧
  decodeTableWord 64 0x4ed008d800000380 = some (.zval { noFields with guard := 7, d := 8, a := 216, type := 7 })

/-- R21, R22, R71, R411: from every state, a step ends in a state: what the spec says stops a thread is a trap
that the part takes, and the machine goes on. -/
def Obligations.StepNeverStops : Prop := ∀ s : State, ∃ t, step s = .next t

/-- R5, R247: the memory table keeps its canonical form through every step, from every state that has it, so that two states
with the same bytes have equal memory. The form is the model's own, log entry 1. -/
def Obligations.StepKeepsMemoryCanonical : Prop := ∀ s t : State, s.Inv → step s = .next t → t.Inv

/-- R213, R259, R304, R336, R493: what reset leaves where the spec states it: STARVE 1,000, BALPER 2 and PARTTO 4; HSIZE
256, L2MB 8 and SPREG 8; PCAP 4,400; no reservation record valid; epochs, error counters and brass bits 0; and the memory
table in its canonical form. -/
def Obligations.ResetLeavesTheStatedValues : Prop :=
  State.reset.Inv ∧
  (∀ die < 4, readReg State.reset (0x10000 + 0x1000 * die) = 1000 * 2 ^ 8 + 2 * 2 ^ 4 + 4) ∧
  (∀ die < 4, readReg State.reset (0x20000 + 0x1000 * die) % 2 ^ 24 = 256 * 2 ^ 12 + 8 * 2 ^ 6 + 8) ∧
  readReg State.reset 0xf0000 = 4400 ∧
  (∀ core < 256, ∀ k < 16, (State.reset.resv core k).valid = false) ∧
  (∀ k < 16, readReg State.reset (0x30000 + 0x100 * k) = 0 ∧ readReg State.reset (0x30008 + 0x100 * k) = 0) ∧
  (∀ line, tabGet 0#32 State.reset.brass line = 0) ∧ State.reset.gangs = [] ∧ State.reset.recs = []

/-- R14: where the move that is made is a word of a running sub-gang, the step is `exec` of the instruction that
the bytes of the clause at that place decode to, and then time passes; a step of the part's own is `exec` of it; with no move
open, only time passes. Which of the open moves is made is the model's free choice, log entry 3. -/
def Obligations.StepRunsTheDecodedInstruction : Prop := ∀ s : State,
  (∀ c g sub r i, nextMove s = some (.word c) → issuer { s with cur := some c } = some (g, sub, r) →
    decodeWord (r.words.getD r.ix 0) (r.words.getD (r.ix + 1) 0) = .ok i →
    step s = settle false (exec i { s with cur := some c })) ∧
  (∀ i, nextMove s = some (.own i) → i.isWord = false → step s = settle false (exec i s)) ∧
  (∀ i is, nextMove s = some .due → s.due = i :: is → i.isWord = false → step s = settle false (exec i { s with due := is })) ∧
  (∀ i is, nextMove s = some .input → s.inputs = i :: is → fromOutside i = true → inputWaits s i = false → i.isWord = false →
    step s = settle false (exec i { s with inputs := is })) ∧
  (nextMove s = none → step s = .next (passTime s true)) ∧
  (∀ t, settle false (.next t) = .next (passTime t false))

/-- R5, R247: a write of bytes to HBM leaves exactly those bytes changed: each is read back as written, and every other byte
of HBM reads as before; the memory table keeps its canonical form, which is the model's own, log entry 1. -/
def Obligations.MemoryReadsAsWritten : Prop := ∀ (s : State) (la : Nat) (bs : List Byte), la + bs.length ≤ 2 ^ 40 → s.Inv →
  (writeBytes s la bs).Inv ∧
  (∀ i, i < bs.length → readByte (writeBytes s la bs) (la + i) = bs.getD i 0) ∧
  ∀ a, a < 2 ^ 40 → (a < la ∨ la + bs.length ≤ a) → readByte (writeBytes s la bs) a = readByte s a

/-- R10, R12, R13, R66: a fixed-latency instruction of the integer, logic, floating-point or cross-lane families, with nothing
before it, changes nothing but its destinations and the clause's own progress: all of memory, every device register, every record,
launch and operation, and every other gang stay; in the gang, the v registers of other lanes and codes, the g registers unless d
names one, the h registers, RSTATE, the expand registers and the fibres of every lane stay; FPSTAT stays but under a floating-point
instruction, and the predicates stay unless d or aux names one. (Window writes that wait for the clause to end, R251, are put
aside.) -/
def Obligations.RegisterInstructionsFrame : Prop := ∀ (i : Instr) (s : State) (c : Ctx),
  (plainWrites i || flagWrites i || auxWrites i) = true → readyCtx i s = some c → ∃ t, exec i s = .next t ∧
    t.mem = s.mem ∧ t.regs = s.regs ∧ t.recs = s.recs ∧ t.pool = s.pool ∧ t.launches = s.launches ∧ t.ops = s.ops ∧ t.waits = s.waits ∧
    (∀ core slot, ¬ (core = c.g.core ∧ slot = c.g.slot) → t.gang core slot = s.gang core slot) ∧
    (s.rfLate = [] → ∀ k, (∀ e ∈ c.lanes, ∀ j < c.regs .d, k ≠ vKey c.g e.1.pos e.2 (c.f.d.toNat + j)) →
      tabGet 0 t.rf k = tabGet 0 s.rf k) ∧
    (∀ g, t.gang c.g.core c.g.slot = some g → g.h = c.g.h ∧ (¬ (128 ≤ c.f.d.toNat ∧ c.f.d.toNat < 192) → g.g = c.g.g) ∧
      ∀ pos y, g.slice pos = some y → ∃ x, c.g.slice pos = some x ∧ ∀ l,
        (y.lane l).rstate = (x.lane l).rstate ∧ (y.lane l).fibres = (x.lane l).fibres ∧
        (y.lane l).e0 = (x.lane l).e0 ∧ (y.lane l).e1 = (x.lane l).e1 ∧ (y.lane l).e2 = (x.lane l).e2 ∧ (y.lane l).e3 = (x.lane l).e3 ∧
        (flagWrites i = false → (y.lane l).fpstat = (x.lane l).fpstat) ∧
        (¬ (192 ≤ c.f.d.toNat ∧ c.f.d.toNat < 199) → (auxWrites i = true → c.f.aux.toNat = 7) → (y.lane l).preds = (x.lane l).preds))

/-- R66: code 240 and p7 discard what is written, and so does every higher code; 240 reads as 0 at any width,
and p7 as 1. (Engine instructions write h registers and fibres in their own way, not through this operation.) -/
def Obligations.DiscardedDestinations : Prop :=
  (∀ s core slot pos lane code vals, (code = 240 ∨ 199 ≤ code) → putOne s core slot ⟨pos, lane, code, vals⟩ = s) ∧
  ∀ (c : Ctx) x lane regs t, c.src x lane 240 regs t = 0 ∧ c.src x lane 199 1 t = 1

/-- R107 to R112, R267: a store that passes its checks and can be made, to HBM of this module through pages that are not
write-combining, changes no byte of HBM but those that it stores, at the addresses that its translations give, and the page
table entries that the part marks accessed and dirty; a lone store to good lines outside pool space leaves the image of its data
there. A load changes none but the entries. -/
def Obligations.StoresWriteTheirBytesOnly : Prop := ∀ (f : Fields) (s : State) (c : Ctx) (s1 : State) (rs : List (Want × Xlt)),
  let apart := fun la => ∀ r ∈ rs, isOwn s r.2.ptePa = true → la < localOf r.2.ptePa ∨ localOf r.2.ptePa + 8 ≤ la
  (readyCtx (.st f) s = some c → checked c.s c anyTarget (c.wants 8) = some (s1, rs) →
    c.received = none → ¬ (200 ≤ c.f.d.toNat ∧ c.f.d.toNat < 216) → leafStops s1 rs = false →
    accFree (dirtyAll s1 c rs) c (stores c rs) = true →
    (∀ a ∈ stores c rs, isOwn s a.pa = true ∧ localOf a.pa + a.bytes ≤ 2 ^ 40 ∧ a.memType ≠ 1) →
    ∃ t, exec (.st f) s = .next t ∧
      (∀ la, la < 2 ^ 40 → (∀ a ∈ stores c rs, la < localOf a.pa ∨ localOf a.pa + a.bytes ≤ la) → apart la →
        readByte t la = readByte s la) ∧
      (∀ r, rs = [r] → (∀ a ∈ stores c rs, accState (dirtyAll s1 c rs) c.g.core a = .ready) →
        (∀ i < r.1.bytes, inPool s1 (placeOf s1 (localOf r.2.pa + i)) = false) → (∀ i < r.1.bytes, apart (localOf r.2.pa + i)) →
        ∀ i < r.1.bytes, readByte t (localOf r.2.pa + i) = (storeImage c.ty (c.stData r.1.x r.1.lane)).getD i 0)) ∧
  (readyCtx (.ld f) s = some c → c.received = none → checked c.s c anyTarget (c.wants 4) = some (s1, rs) →
    accFree s1 c (loads c rs) = true →
    ∃ t, exec (.ld f) s = .next t ∧ ∀ la, la < 2 ^ 40 → apart la → readByte t la = readByte s la)

/-- R22, R107, R113, R412: a load or a store of one lane traps ALIGN where its address is not a multiple of its size, and XNP
where it is and lies at 2^56 or above; the address goes to the lane's FADDR, nothing is loaded or stored. -/
def Obligations.BadAddressesTrap : Prop := ∀ (f : Fields) (s : State) (c : Ctx) (x : Slice) (l : Nat), c.lanes = [(x, l)] →
  (c.ea x l % c.accBytes ≠ 0 →
    (readyCtx (.ld f) s = some c → Traps (.ld f) s c [hitAt x.pos l .align (c.ea x l)]) ∧
    (readyCtx (.st f) s = some c → Traps (.st f) s c [hitAt x.pos l .align (c.ea x l)])) ∧
  (c.ea x l % c.accBytes = 0 → 2 ^ 56 ≤ c.ea x l →
    (readyCtx (.ld f) s = some c → Traps (.ld f) s c [hitAt x.pos l .xnp (c.ea x l)]) ∧
    (readyCtx (.st f) s = some c → Traps (.st f) s c [hitAt x.pos l .xnp (c.ea x l)]))

/-- R72, R142, R146, R316: GETS of TRAPREC outside handler mode, SNAP where the context may not, and CMAINT.REPAIR in work
that firmware did not issue trap PRIV at decode, in every slice of the sub-gang with an active lane. -/
def Obligations.PrivilegedFormsTrap : Prop := ∀ (i : Instr) (f : Fields) (s : State) (g : Gang) (sub : Nat) (r : Run),
  issuer s = some (g, sub, r) → i.wf = true → (∃ x ∈ g.slicesOf sub, x.active ≠ 0) →
  (i = .gets f ∧ f.c.toNat = 0x0a ∧ g.handler = none ∨ i = .snap f ∧ snapOn s.freshen g.ctx = false ∨
    i = .cmaintRepair f ∧ g.fw = false) →
  exec i s = .next (trapSlices s.freshen g sub ⟨r.hdr, r.ix + 1, r.words.length, ilenOf f⟩
    (((g.slicesOf sub).filter fun x => x.active != 0).map fun x => hitAt x.pos (lowLane x.active) .priv))

/-- R21, R411, R412: a slice that meets a cause stands trapping with its cause, its lanes and the address of the word, its
registers as they were before the word, v, g and h registers and memory too (window writes that wait for the clause to end, R251, put
aside); the trap block that its record will carry holds CAUSE, TLANES, AUX, the lengths, the
address and the four fault addresses at their places. -/
def Obligations.TrapsSaveTheirPoint : Prop :=
  (∀ s g sub p hits x h, s.gang g.core g.slot = some g → g.slice x.pos = some x → x.st = .run sub → s.rfLate = [] →
    (hits.find? fun h => h.pos == x.pos) = some h → (trapSlices s g sub p hits).rf = s.rf ∧ (trapSlices s g sub p hits).mem = s.mem ∧ ∃ t y rid,
      (trapSlices s g sub p hits).gang g.core g.slot = some t ∧ t.g = g.g ∧ t.h = g.h ∧
      t.slice x.pos = some y ∧ y.st = .trapping (trapInfo rid p h) ∧
      y.pc = x.pc ∧ y.active = x.active ∧ y.lanes = x.lanes ∧ y.tokens = x.tokens ∧
      (trapInfo rid p h).cause = h.cause ∧ (trapInfo rid p h).pc = p.pc ∧ (trapInfo rid p h).tlanes = h.lanes) ∧
  ∀ (x : Slice) (t : TrapInfo) seq, let w := fun k => bytesToNat (((trapBlock x t seq).drop (8 * k)).take 8)
    (trapBlock x t seq).length = 128 ∧ fld (w 0) 63 58 = causeCode t.cause ∧ fld (w 0) 51 48 = t.tlanes.toNat ∧
    fld (w 0) 47 40 = t.aux % 256 ∧ fld (w 0) 13 8 = t.cwords % 64 ∧ fld (w 0) 1 0 = t.ilen % 4 ∧ w 1 = t.pc % 2 ^ 56 ∧ ∀ k < 4, w (2 + k) = t.faddr.getD k 0 % 2 ^ 64

/-- R488: MRESET with GO = 1, the correct KEY and the other bits 0 discards every register, cache, pool, record and queue, and
every byte of HBM but the first 16 MiB of stack 0; any other value is ignored; a power-on reset keeps no byte. Fuses keep
their values, the flash its image, and nothing is reported of the work that is lost: the interrupts stay as they are. MRESET acts where the module
takes registers at all, in the ROM and in RECOVERY (R490). What stands outside the module, and
the counters that number free values and names, go on: these and the restart of CLOCK and DEVTIME are the model's reading, log
entry 99. -/
def Obligations.ModuleResetDiscards : Prop := ∀ (s : State) (v : W64),
  let blank := fun (t : State) => t = { State.reset with
    tick := s.tick, fresh := s.fresh, nextId := s.nextId, inputs := s.inputs, mem := t.mem, poisoned := t.poisoned, bersy := s.bersy
    interrupts := s.interrupts, answers := s.answers, flash := s.flash
    regs := { Regs.reset with step := s.regs.step, grade := s.regs.grade, serial := s.regs.serial, enabled := s.regs.enabled
                              svnFuse := s.regs.svnFuse } }
  (v.toNat = 0x0d145e7a * 2 ^ 32 + 1 → (accepting s = true ∨ s.regs.phase = .rom ∨ s.regs.phase = .recovery) → ∃ t, exec (.mreset v) s = .next t ∧ blank t ∧
    ∀ a, tabGet 0#8 t.mem a = if a < 2 ^ 24 then tabGet 0#8 s.mem a else 0#8) ∧
  (v.toNat ≠ 0x0d145e7a * 2 ^ 32 + 1 → exec (.mreset v) s = .next s) ∧
  ∃ t, exec .powerOnReset s = .next t ∧ blank t ∧ ∀ a, tabGet 0#8 t.mem a = 0#8
end

