-- ==== Sys2Proof/Laws/Issue.lean ====
section
/-! SUPPORT. What issuing an instruction does, said once. -/

namespace Sys2Proof.Machine

/-- An instruction that nothing stands before comes to its own effect. -/
theorem issue_ready {i : Instr} {s : State} {c : Ctx} (h : readyCtx i s = some c) (body : Ctx → Body) :
    ∃ g sub run s0, issuer s = some (g, sub, run) ∧ gate i s.freshen g sub run = .go s0 c false ∧
      issue i s body = finish s0 c false (body c) := by
  unfold readyCtx at h
  unfold issue
  split at h
  · cases h
  · rename_i hi
    try simp only [hi]
    split at h
    · rename_i hg
      injection h with h
      subst h
      exact ⟨_, _, _, _, rfl, hg, by simp only [hg]⟩
    · cases h

theorem issue_done {i : Instr} {s : State} {c : Ctx} {body : Ctx → Body} {t : State} (h : readyCtx i s = some c)
    (hb : body c = .done t) : issue i s body = .next (retire t c c.ilen) := by
  obtain ⟨_, _, _, s0, _, _, e⟩ := issue_ready h body
  simp [e, hb, finish]

/-- An instruction whose body traps in the state that it finds traps the slices named. -/
theorem issue_trap {i : Instr} {s : State} {c : Ctx} {body : Ctx → Body} {hits : List Hit} (he : exec i s = issue i s body)
    (h : readyCtx i s = some c) (hb : body c = .trap c.s hits) : Traps i s c hits := by
  obtain ⟨g, sub, run, s0, h1, h2, e⟩ := issue_ready h body
  exact ⟨g, sub, run, s0, h1, h2, by simp [he, e, hb, finish]⟩

theorem gateQueues_fields {i : Instr} {s : State} {g : Gang} {sub : Nat} {run : Run} {xs : List Slice} {resume : W64}
    {s0 : State} {c : Ctx} {b : Bool} (h : gateQueues i s g sub run xs resume = .go s0 c b) :
    c.i = i ∧ c.D = instrDesc i ∧ c.f = instrFields i := by
  unfold gateQueues at h
  simp only at h
  repeat' split at h
  all_goals first
    | (injection h with _ h _; subst h; exact ⟨rfl, rfl, rfl⟩)
    | cases h

theorem gate_fields {i : Instr} {s : State} {g : Gang} {sub : Nat} {run : Run} {s0 : State} {c : Ctx} {b : Bool}
    (h : gate i s g sub run = .go s0 c b) : c.i = i ∧ c.D = instrDesc i ∧ c.f = instrFields i := by
  unfold gate at h
  simp only at h
  split at h
  · cases h
  split at h
  · cases h
  split at h
  · cases h
  split at h
  · cases h
  · cases h
  · cases h
  · exact gateQueues_fields h

/-- The context names the instruction. -/
theorem readyCtx_fields {i : Instr} {s : State} {c : Ctx} (h : readyCtx i s = some c) :
    c.i = i ∧ c.D = instrDesc i ∧ c.f = instrFields i := by
  unfold readyCtx at h
  split at h
  · cases h
  · split at h
    · rename_i hg
      injection h with h
      subst h
      exact gate_fields hg
    · cases h

theorem runs_of {i : Instr} {body : Ctx → Body} {effect : Ctx → State} (he : ∀ s, exec i s = issue i s body)
    (hb : ∀ c, c.f = instrFields i → body c = .done (effect c)) : Runs i effect := by
  intro s c h
  unfold Ran
  rw [he]
  exact issue_done h (hb c (readyCtx_fields h).2.2)

theorem runsIf_of {i : Instr} {body : Ctx → Body} {cond : Ctx → Prop} {effect : Ctx → State} (he : ∀ s, exec i s = issue i s body)
    (hb : ∀ c, c.f = instrFields i → cond c → body c = .done (effect c)) : RunsIf i cond effect := by
  intro s c h hc
  unfold Ran
  rw [he]
  exact issue_done h (hb c (readyCtx_fields h).2.2 hc)

/-- Accesses that pass their checks go on. -/
theorem withAccess_checked {s s1 : State} {c : Ctx} {target : State → Xlt → Option Cause} {ws : List Want}
    {rs : List (Want × Xlt)} {go : State → List (Want × Xlt) → Body} (h : checked s c target ws = some (s1, rs)) :
    withAccess s c target ws go = go s1 rs := by
  unfold checked at h
  unfold withAccess
  simp only at h
  split at h
  · rename_i hq
    simp only [Bool.and_eq_true] at hq
    injection h with h
    injection h with h1 h2
    subst h1 h2
    simp only [hq.1, hq.2]
    try rfl
  · cases h

/-- An instruction whose checked accesses have an effect of their own, from what its body answers. -/
theorem checkedRuns_of {i : Instr} {target : Ctx → State → Xlt → Option Cause} {wants : Ctx → List Want}
    {cond : Ctx → State → List (Want × Xlt) → Prop} {effect : Ctx → State → List (Want × Xlt) → State} {body : Ctx → Body}
    (he : ∀ s, exec i s = issue i s body)
    (hb : ∀ c s1 rs, c.f = instrFields i → checked c.s c (target c) (wants c) = some (s1, rs) → cond c s1 rs → body c = .done (effect c s1 rs)) :
    CheckedRuns i target wants cond effect := by
  intro s c s1 rs h1 h2 h3
  unfold Ran
  rw [he]
  exact issue_done h1 (hb c s1 rs (readyCtx_fields h1).2.2 h2 h3)

/-- Stores whose leaves need no update elsewhere go on in the state with the D bits set. -/
theorem withStores_done {s : State} {c : Ctx} {rs : List (Want × Xlt)} {go : State → Body} (h : leafStops s rs = false) :
    withStores s c rs go = go (dirtyAll s c rs) := by
  unfold withStores
  simp only [h, Bool.false_eq_true, if_false]

/-- Accesses that can be made now are made. -/
theorem makeAccesses_free {s : State} {c : Ctx} {vl : Bool} {as : List Acc} {ws : List VlWrite} (h : accFree s c as = true) :
    makeAccesses s c vl as ws = .done (accsMade s c vl as ws) := by
  unfold accFree at h
  unfold accsMade
  simp only [Bool.and_eq_true, Bool.not_eq_true'] at h
  obtain ⟨⟨h1, h2⟩, h3⟩ := h
  simp only [accWaits, Bool.or_eq_false_iff (x := portBusy _ _ _)] at h1
  unfold makeAccesses
  simp only [h1.1, h1.2, h2, h3, Bool.not_false, Bool.true_and, Bool.or_self, Bool.false_eq_true, if_false]

/-- An access inside the window of a port that is bound to no stream lies that far from the window's base, below 2^56 (R375). -/
theorem Ctx.ea_window {c : Ctx} {p : Port} {e : Slice × Nat} (hp : c.winPort = some p) (hk : p.kind ≠ 1)
    (hw : c.displace e.1 e.2 + c.accBytes ≤ 128) (hb : 0 < c.accBytes := by omega) :
    c.ea e.1 e.2 = windowOf c.s c.g.core c.f.a.toNat + c.displace e.1 e.2 ∧ c.ea e.1 e.2 < 2 ^ 56 ∧
    windowOf c.s c.g.core c.f.a.toNat % 128 = 0 := by
  simp only [Ctx.winPort] at hp
  split at hp <;> simp only [Option.some.injEq, reduceCtorEq] at hp
  rename_i h
  simp only [Bool.and_eq_true, decide_eq_true_eq] at h
  have hwin : windowOf c.s c.g.core c.f.a.toNat ≤ (2 ^ 49 - 1) * 128 ∧ windowOf c.s c.g.core c.f.a.toNat % 128 = 0 := by
    simp only [windowOf, hp, hk, if_false]
    omega
  simp only [Ctx.ea, h.1.1, h.1.2, decide_true, Bool.and_self, if_true]
  omega

end Sys2Proof.Machine
end

