-- ==== Sys2Proof/Laws/Tables.lean ====
section
/-! SUPPORT. Tables: reading after writing, and the canonical form. -/

namespace Sys2Proof.Machine

theorem tabGet_filter {α : Type} (d : α) (q : Nat → Bool) (t : List (Nat × α)) (a : Nat) :
    tabGet d (t.filter fun c => q c.1) a = if q a then tabGet d t a else d := by
  induction t with
  | nil => simp [tabGet]
  | cons e t ih =>
    obtain ⟨k, v⟩ := e
    by_cases h : k = a
    · subst h
      by_cases hq : q k
      · simp [hq, tabGet]
      · simp [hq, ih]
    · by_cases hq : q k
      · simp only [List.filter_cons, hq, if_true, tabGet, h, if_false, ih]
      · simp only [List.filter_cons, hq, Bool.false_eq_true, if_false, tabGet, h, ih]
theorem tabGet_tabPut_other {α : Type} [DecidableEq α] {d : α} (t : List (Nat × α)) {a b : Nat} (h : b ≠ a) (v : α) :
    tabGet d (tabPut d t a v) b = tabGet d t b := by
  induction t with
  | nil => unfold tabPut; split <;> simp [tabGet, Ne.symm h]
  | cons e t ih =>
    obtain ⟨k, w⟩ := e
    unfold tabPut
    split
    · split
      · rfl
      · simp [tabGet, Ne.symm h]
    split
    · rename_i e; subst e
      split <;> simp [tabGet, Ne.symm h]
    · simp [tabGet, ih]

theorem tabOk_mono {α : Type} [DecidableEq α] {d : α} {lo lo' : Nat} (h : lo' ≤ lo) {t : List (Nat × α)} (hk : tabOk d lo t = true) :
    tabOk d lo' t = true := by
  cases t with
  | nil => rfl
  | cons e t => 
    simp only [tabOk, Bool.and_eq_true, decide_eq_true_eq] at hk ⊢
    exact ⟨⟨by omega, hk.1.2⟩, hk.2⟩
theorem tabOk_tabPut {α : Type} [DecidableEq α] {d : α} (v : α) {a : Nat} :
    ∀ {lo : Nat} {t : List (Nat × α)}, lo ≤ a → tabOk d lo t = true → tabOk d lo (tabPut d t a v) = true := by
  intro lo t
  induction t generalizing lo with
  | nil => intro h _; unfold tabPut; split <;> simp_all [tabOk]
  | cons e t ih =>
    obtain ⟨k, w⟩ := e
    intro h hk
    simp only [tabOk, Bool.and_eq_true, decide_eq_true_eq] at hk
    obtain ⟨⟨h1, h2⟩, h3⟩ := hk
    unfold tabPut
    split
    · split
      · simp [tabOk, h1, h2, h3]
      · rename_i hl hv
        simp only [tabOk, Bool.and_eq_true, decide_eq_true_eq]
        exact ⟨⟨h, hv⟩, ⟨by omega, h2⟩, h3⟩
    split
    · split
      · exact tabOk_mono (by omega) h3
      · simp_all [tabOk]
    · simp only [tabOk, Bool.and_eq_true, decide_eq_true_eq]
      exact ⟨⟨h1, h2⟩, ih (by omega) h3⟩
theorem tabGet_low {α : Type} [DecidableEq α] {d : α} {lo a : Nat} {t : List (Nat × α)} (hk : tabOk d lo t = true) (h : a < lo) :
    tabGet d t a = d := by
  induction t generalizing lo with
  | nil => rfl
  | cons e t ih =>
    simp only [tabOk, Bool.and_eq_true, decide_eq_true_eq] at hk
    simp only [tabGet]
    rw [if_neg (by omega)]
    exact ih hk.2 (by omega)
theorem tabGet_tabPut {α : Type} [DecidableEq α] {d : α} (v : α) {lo : Nat} {a b : Nat} {t : List (Nat × α)} (hk : tabOk d lo t = true) :
    tabGet d (tabPut d t a v) b = if b = a then v else tabGet d t b := by
  induction t generalizing lo with
  | nil =>
    unfold tabPut
    by_cases e : b = a
    · split <;> simp_all [tabGet]
    · split <;> simp [tabGet, Ne.symm e]
  | cons e t ih =>
    obtain ⟨k, w⟩ := e
    simp only [tabOk, Bool.and_eq_true, decide_eq_true_eq] at hk
    obtain ⟨⟨h1, h2⟩, h3⟩ := hk
    unfold tabPut
    split
    · rename_i hl
      split
      · rename_i hv
        split
        · rename_i e; subst e
          simp only [tabGet, if_neg (show ¬ k = b by omega), hv]
          exact tabGet_low h3 (by omega)
        · rfl
      · by_cases e : b = a
        · simp [tabGet, e]
        · simp [tabGet, e, Ne.symm e]
    split
    · rename_i hl e
      subst e
      split
      · rename_i hv
        by_cases e : b = a
        · subst e; simp [hv]; exact tabGet_low h3 (by omega)
        · simp [e, tabGet, Ne.symm e]
      · by_cases e : b = a
        · simp [tabGet, e]
        · simp [tabGet, e, Ne.symm e]
    · simp only [tabGet, ih h3]
      by_cases e : b = a
      · subst e; simp; intro; omega
      · simp [e]
theorem tabPuts_spec {α : Type} [DecidableEq α] {d : α} (vs : List α) : ∀ {a : Nat} {t : List (Nat × α)}, tabOk d 0 t = true →
    tabOk d 0 (tabPuts d t a vs) = true ∧ ∀ b, tabGet d (tabPuts d t a vs) b = if a ≤ b ∧ b < a + vs.length then vs.getD (b - a) d else tabGet d t b := by
  induction vs with
  | nil => intro a t h; exact ⟨h, fun b => by rw [if_neg (by simp)]; rfl⟩
  | cons v vs ih =>
    intro a t h
    have := ih (a := a + 1) (tabOk_tabPut (d := d) v (Nat.zero_le a) h)
    refine ⟨this.1, fun b => ?_⟩
    simp only [tabPuts]
    rw [this.2, tabGet_tabPut v h]
    simp only [List.length_cons]
    rcases Nat.lt_trichotomy b a with e | e | e
    · rw [if_neg (by omega), if_neg (by omega), if_neg (by omega)]
    · subst e; rw [if_neg (by omega), if_pos rfl, if_pos (by omega)]; simp
    · obtain ⟨k, rfl⟩ : ∃ k, b = a + 1 + k := ⟨b - a - 1, by omega⟩
      by_cases hk : k < vs.length
      · rw [if_pos (by omega), if_pos (by omega)]
        simp [show a + 1 + k - (a + 1) = k by omega, show a + 1 + k - a = k + 1 by omega]
      · rw [if_neg (by omega), if_neg (by omega), if_neg (by omega)]

end Sys2Proof.Machine
end

