-- ==== Sys2Proof/Laws/Frame.lean ====
section
/-! SUPPORT. What the shared operations leave unchanged: putting results, raising flags, popping queues, retiring. -/

namespace Sys2Proof.Machine

theorem find_updWhere {α : Type} {p : α → Bool} {g : α → α} (hp : ∀ x, p (g x) = p x) (l : List α) :
    (updWhere p g l).find? p = (l.find? p).map g := by
  induction l with
  | nil => rfl
  | cons x t ih =>
    by_cases h : p x
    · simp [updWhere, h, hp]
    · simp [updWhere, h, ih]

theorem find_updWhere_other {α : Type} {p q : α → Bool} {g : α → α} (hq : ∀ x, p x = true → q x = false ∧ q (g x) = false)
    (l : List α) : (updWhere p g l).find? q = l.find? q := by
  induction l with
  | nil => rfl
  | cons x t ih =>
    by_cases h : p x
    · simp [updWhere, h, hq x h]
    · simp [updWhere, h, List.find?_cons, ih]

theorem gang_updGang {s : State} {core slot : Nat} {h : Gang → Gang} (hc : ∀ g, (h g).core = g.core ∧ (h g).slot = g.slot) :
    (s.updGang core slot h).gang core slot = (s.gang core slot).map h := by
  unfold State.gang State.updGang
  exact find_updWhere (fun x => by simp only [hc]) _

theorem gang_updGang_other {s : State} {core slot core' slot' : Nat} {h : Gang → Gang} (hc : ∀ g, (h g).core = g.core ∧ (h g).slot = g.slot)
    (hne : ¬ (core' = core ∧ slot' = slot)) :
    (s.updGang core slot h).gang core' slot' = s.gang core' slot' := by
  unfold State.gang State.updGang
  refine find_updWhere_other (fun x hx => ?_) _
  simp only [Bool.and_eq_true, beq_iff_eq] at hx
  simp only [hc, Bool.and_eq_false_iff, beq_eq_false_iff_ne]
  constructor <;> (by_cases h1 : x.core = core' <;> [right; left]) <;> grind

/-- A change that stays inside one gang, its core and its registers. -/
structure Inside (core slot : Nat) (s t : State) : Prop where
  mem : t.mem = s.mem
  regs : t.regs = s.regs
  recs : t.recs = s.recs
  pool : t.pool = s.pool
  launches : t.launches = s.launches
  ops : t.ops = s.ops
  waits : t.waits = s.waits
  gangs : ∀ c' l', ¬ (c' = core ∧ l' = slot) → t.gang c' l' = s.gang c' l'

theorem Inside.refl {core slot} (s : State) : Inside core slot s s := ⟨rfl, rfl, rfl, rfl, rfl, rfl, rfl, fun _ _ _ => rfl⟩
theorem Inside.trans {core slot} {s t u : State} (h : Inside core slot s t) (k : Inside core slot t u) : Inside core slot s u :=
  ⟨k.mem.trans h.mem, k.regs.trans h.regs, k.recs.trans h.recs, k.pool.trans h.pool, k.launches.trans h.launches, k.ops.trans h.ops,
   k.waits.trans h.waits, fun c l n => (k.gangs c l n).trans (h.gangs c l n)⟩

theorem Inside.foldl {α : Type} {core slot} {f : State → α → State} (h : ∀ s a, Inside core slot s (f s a)) (l : List α) (s : State) :
    Inside core slot s (l.foldl f s) := by
  induction l generalizing s with
  | nil => exact .refl s
  | cons a t ih => exact (h s a).trans (ih _)

theorem inside_updGang {s : State} {core slot : Nat} {h : Gang → Gang} (hc : ∀ g, (h g).core = g.core ∧ (h g).slot = g.slot) :
    Inside core slot s (s.updGang core slot h) :=
  ⟨rfl, rfl, rfl, rfl, rfl, rfl, rfl, fun _ _ n => gang_updGang_other hc n⟩

theorem inside_rfPut (s : State) (g : Gang) (k : Nat) (v : W32) : Inside g.core g.slot s (rfPut s g k v) :=
  ⟨rfl, rfl, rfl, rfl, rfl, rfl, rfl, fun c l n => by
    have := gang_updGang_other (s := s) (core := g.core) (slot := g.slot) (core' := c) (slot' := l)
      (h := fun x => { x with
               subs := x.subs.map fun u => { u with
                 run := u.run.map fun r =>
                   if r.shadow.any fun e => e.1 == k then r else { r with shadow := r.shadow ++ [(k, tabGet 0 s.rf k)] } } })
      (fun _ => ⟨rfl, rfl⟩) n
    exact this⟩

theorem gang_keys {s : State} {core slot : Nat} {g : Gang} (h : s.gang core slot = some g) : g.core = core ∧ g.slot = slot := by
  have := List.find?_some h
  simpa using this

theorem inside_putOne (s : State) (core slot : Nat) (p : Put) : Inside core slot s (putOne s core slot p) := by
  unfold putOne
  split
  · exact .refl s
  · rename_i g hg
    obtain ⟨rfl, rfl⟩ := gang_keys hg
    split
    · exact Inside.foldl (fun s e => inside_rfPut s g _ _) _ _
    split
    · exact inside_updGang fun _ => ⟨rfl, rfl⟩
    split
    · exact inside_updGang fun _ => ⟨rfl, rfl⟩
    · exact .refl s

theorem inside_spoil (s : State) (core slot : Nat) (p : Put) : Inside core slot s (spoil s core slot p) :=
  inside_updGang fun _ => ⟨rfl, rfl⟩

theorem inside_putAll (s : State) (core slot : Nat) (ps : List Put) : Inside core slot s (putAll s core slot ps) :=
  Inside.foldl (fun s p => (inside_spoil s core slot p).trans (inside_putOne _ core slot p)) _ _

theorem inside_raiseAll (s : State) (core slot : Nat) (l : List (Nat × Nat × Flags)) : Inside core slot s (raiseAll s core slot l) :=
  Inside.foldl (fun s e => by
    unfold raiseOne
    split
    · exact .refl s
    · exact inside_updGang fun _ => ⟨rfl, rfl⟩) _ _

theorem inside_tidyGang (s : State) (core slot : Nat) : Inside core slot s (tidyGang s core slot) := by
  unfold tidyGang
  split
  · exact .refl s
  · rename_i g hg
    simp only
    have hs : ∀ t : State, Inside core slot s t → Inside core slot s
      (if g.slices.isEmpty then
        { t with gangs := t.gangs.filter fun (x : Gang) => !(x.core == core && x.slot == slot), cores := updAt core (fun (k : CoreSt) => { k with idle := t.clk }) t.cores }
       else t.updGang core slot fun g' => { g' with subs := g.subs.filter fun u => g.slices.any fun x => x.st == .run u.id }) := by
      intro t ht
      split
      · refine ht.trans ⟨rfl, rfl, rfl, rfl, rfl, rfl, rfl, fun c l n => ?_⟩
        unfold State.gang
        simp only [List.find?_filter]
        congr 1
        funext x
        by_cases h1 : x.core = c ∧ x.slot = l
        · obtain ⟨rfl, rfl⟩ := h1
          have : (x.core == core && x.slot == slot) = false := by
            rw [Bool.eq_false_iff]; intro h; simp at h; exact n h
          simp [this]
        · have : (x.core == c && x.slot == l) = false := by
            rw [Bool.eq_false_iff]; intro h; simp at h; exact h1 h
          simp [this]
      · exact ht.trans (inside_updGang fun _ => ⟨rfl, rfl⟩)
    apply hs
    split
    · exact .refl s
    · exact ⟨rfl, rfl, rfl, rfl, rfl, rfl, rfl, fun _ _ _ => rfl⟩

theorem inside_partSub (s : State) (core slot sub : Nat) : Inside core slot s (partSub s core slot sub) := by
  unfold partSub
  split
  · exact .refl s
  · extract_lets pcs place t
    refine .trans (t := t) (inside_updGang fun _ => ⟨rfl, rfl⟩) (Inside.foldl (fun s pc => ?_) _ _)
    have : Inside core slot s s.bump := ⟨rfl, rfl, rfl, rfl, rfl, rfl, rfl, fun _ _ _ => rfl⟩
    exact this.trans (inside_updGang fun _ => ⟨rfl, rfl⟩)

/-- Giving parts their places in the slots' order changes the cores alone. -/
theorem placeParts_cores (s : State) (core slot key sub new : Nat) (yields : Bool) :
    ∃ cs, placeParts s core slot key sub new yields = { s with cores := cs } := by
  unfold placeParts
  split
  · exact ⟨_, rfl⟩
  · rename_i g _
    have fold : ∀ (vs : List Sub) (t : State), (∃ cs, t = { s with cores := cs }) →
        ∃ cs, vs.foldl (fun s v => noteWin s g (subPrio g v) (subKey g v)) t = { s with cores := cs } := by
      intro vs
      induction vs with
      | nil => exact fun t h => h
      | cons v vs ih => rintro t ⟨cs, rfl⟩; exact ih _ ⟨_, rfl⟩
    simp only
    split
    · exact fold _ _ ⟨_, rfl⟩
    · exact ⟨_, rfl⟩

theorem inside_placeParts {core' slot' : Nat} (s : State) (core slot key sub new : Nat) (yields : Bool) :
    Inside core' slot' s (placeParts s core slot key sub new yields) := by
  obtain ⟨cs, h⟩ := placeParts_cores s core slot key sub new yields
  rw [h]
  exact ⟨rfl, rfl, rfl, rfl, rfl, rfl, rfl, fun _ _ _ => rfl⟩

theorem inside_retire (s : State) (c : Ctx) (n : Nat) : Inside c.g.core c.g.slot s (retire s c n) := by
  unfold retire
  extract_lets core slot pair t0 before dirty walked t1 upd t2 t3
  have h3 : Inside core slot s t3 := by
    have a : Inside core slot s t1 := ⟨rfl, rfl, rfl, rfl, rfl, rfl, rfl, fun _ _ _ => rfl⟩
    refine .trans (a.trans ?_) (inside_tidyGang _ _ _)
    exact inside_updGang fun _ => ⟨rfl, rfl⟩
  clear_value t3
  split
  · exact h3
  split
  · exact h3
  split
  · exact h3
  · extract_lets
    split
    · refine h3.trans ?_
      exact inside_updGang fun _ => ⟨rfl, rfl⟩
    · refine .trans (.trans (.trans (h3.trans ?_) (inside_partSub _ _ _ _)) (inside_tidyGang _ _ _)) (inside_placeParts _ _ _ _ _ _ _)
      exact inside_updGang fun _ => ⟨rfl, rfl⟩

theorem inside_popHead (s : State) (core slot core' code : Nat) : Inside core slot s (popHead s core' code) := by
  unfold popHead
  split
  · extract_lets t
    have : Inside core slot s t := by
      simp only [t]
      split
      · unfold observeFut
        split
        · exact ⟨rfl, rfl, rfl, rfl, rfl, rfl, rfl, fun _ _ _ => rfl⟩
        · exact .refl s
      · exact .refl s
    exact this.trans ⟨rfl, rfl, rfl, rfl, rfl, rfl, rfl, fun _ _ _ => rfl⟩
  · extract_lets p
    split
    · exact ⟨rfl, rfl, rfl, rfl, rfl, rfl, rfl, fun _ _ _ => rfl⟩
    · exact ⟨rfl, rfl, rfl, rfl, rfl, rfl, rfl, fun _ _ _ => rfl⟩

/-- What a lane keeps when at most its FPSTAT (fps) and its predicates may change. -/
structure LaneKeeps (fps preds : Bool) (a b : Lane) : Prop where
  fpstat : fps = false → b.fpstat = a.fpstat
  rstate : b.rstate = a.rstate
  fibres : b.fibres = a.fibres
  e0 : b.e0 = a.e0
  e1 : b.e1 = a.e1
  e2 : b.e2 = a.e2
  e3 : b.e3 = a.e3
  preds : preds = false → b.preds = a.preds

theorem LaneKeeps.refl {q p} (a : Lane) : LaneKeeps q p a a := ⟨fun _ => rfl, rfl, rfl, rfl, rfl, rfl, rfl, fun _ => rfl⟩
theorem LaneKeeps.trans {q p} {a b c : Lane} (h : LaneKeeps q p a b) (k : LaneKeeps q p b c) : LaneKeeps q p a c :=
  ⟨fun n => (k.fpstat n).trans (h.fpstat n), k.rstate.trans h.rstate, k.fibres.trans h.fibres, k.e0.trans h.e0, k.e1.trans h.e1, k.e2.trans h.e2,
   k.e3.trans h.e3, fun n => (k.preds n).trans (h.preds n)⟩

/-- What a gang keeps when at most its g registers (gs), and FPSTAT (fs) and the predicates (ps) of its lanes may change. -/
structure GangKeeps (gs fs ps : Bool) (a b : Gang) : Prop where
  h : b.h = a.h
  base : b.base = a.base
  g : gs = false → b.g = a.g
  slice : ∀ pos y, b.slice pos = some y → ∃ x, a.slice pos = some x ∧ ∀ l, LaneKeeps fs ps (x.lane l) (y.lane l)

theorem GangKeeps.refl {gs fs ps} (a : Gang) : GangKeeps gs fs ps a a := ⟨rfl, rfl, fun _ => rfl, fun _ y h => ⟨y, h, fun _ => .refl _⟩⟩
theorem GangKeeps.trans {gs fs ps} {a b c : Gang} (h : GangKeeps gs fs ps a b) (k : GangKeeps gs fs ps b c) : GangKeeps gs fs ps a c :=
  ⟨k.h.trans h.h, k.base.trans h.base, fun n => (k.g n).trans (h.g n), fun pos z hz => by
    obtain ⟨y, hy, e⟩ := k.slice pos z hz
    obtain ⟨x, hx, e'⟩ := h.slice pos y hy
    exact ⟨x, hx, fun l => (e' l).trans (e l)⟩⟩

/-- What a change inside a gang leaves of it, if the gang stays. -/
def Leaves (gs fs ps : Bool) (core slot : Nat) (s t : State) : Prop :=
  ∀ b, t.gang core slot = some b → ∃ a, s.gang core slot = some a ∧ GangKeeps gs fs ps a b

theorem Leaves.refl {gs fs ps core slot} (s : State) : Leaves gs fs ps core slot s s := fun b h => ⟨b, h, .refl b⟩
theorem Leaves.of_eq {gs fs ps core slot} {s t : State} (h : t.gangs = s.gangs) : Leaves gs fs ps core slot s t := fun b hb =>
  ⟨b, by unfold State.gang at hb ⊢; rwa [h] at hb, .refl b⟩
theorem Leaves.trans {gs fs ps core slot} {s t u : State} (h : Leaves gs fs ps core slot s t) (k : Leaves gs fs ps core slot t u) :
    Leaves gs fs ps core slot s u := fun c hc => by
  obtain ⟨b, hb, e⟩ := k c hc
  obtain ⟨a, ha, e'⟩ := h b hb
  exact ⟨a, ha, e'.trans e⟩

theorem Leaves.foldl {α : Type} {gs fs ps core slot} {f : State → α → State} {l : List α} (h : ∀ s, ∀ a ∈ l, Leaves gs fs ps core slot s (f s a))
    (s : State) : Leaves gs fs ps core slot s (l.foldl f s) := by
  induction l generalizing s with
  | nil => exact .refl s
  | cons a t ih => exact (h s a (by simp)).trans (ih (fun s b hb => h s b (by simp [hb])) _)

theorem leaves_updGang {gs fs ps core slot} {s : State} {h : Gang → Gang} (hc : ∀ g, (h g).core = g.core ∧ (h g).slot = g.slot)
    (hk : ∀ g, GangKeeps gs fs ps g (h g)) : Leaves gs fs ps core slot s (s.updGang core slot h) := fun b hb => by
  rw [gang_updGang hc] at hb
  obtain ⟨a, ha, rfl⟩ := Option.map_eq_some_iff.mp hb
  exact ⟨a, ha, hk a⟩

theorem keeps_slices {gs fs ps} {g : Gang} {h : Slice → Slice} (hp : ∀ x, (h x).pos = x.pos) (hl : ∀ x l, LaneKeeps fs ps (x.lane l) ((h x).lane l)) :
    GangKeeps gs fs ps g { g with slices := g.slices.map h } :=
  ⟨rfl, rfl, fun _ => rfl, fun pos y hy => by
    unfold Gang.slice at hy ⊢
    simp only [List.find?_map, Option.map_eq_some_iff] at hy
    obtain ⟨x, hx, rfl⟩ := hy
    refine ⟨x, ?_, hl x⟩
    rw [← hx]
    congr 1
    funext z
    simp [hp]⟩

theorem keeps_updSlice {gs fs ps pos} {g : Gang} {h : Slice → Slice} (hp : ∀ x, (h x).pos = x.pos)
    (hl : ∀ x l, LaneKeeps fs ps (x.lane l) ((h x).lane l)) : GangKeeps gs fs ps g (g.updSlice pos h) :=
  ⟨rfl, rfl, fun _ => rfl, fun p y hy => by
    unfold Gang.slice Gang.updSlice at *
    simp only at hy
    by_cases e : p = pos
    · subst e
      rw [find_updWhere (fun x => by simp only [hp])] at hy
      obtain ⟨x, hx, rfl⟩ := Option.map_eq_some_iff.mp hy
      exact ⟨x, hx, hl x⟩
    · rw [find_updWhere_other] at hy
      · exact ⟨y, hy, fun _ => .refl _⟩
      · intro x hx
        simp only [beq_iff_eq] at hx
        simp only [hp, beq_eq_false_iff_ne]
        constructor <;> (intro h; exact e (h.symm.trans hx))⟩

theorem lane_updLane (x : Slice) (l k : Nat) (h : Lane → Lane) :
    (x.updLane l h).lane k = x.lane k ∨ (x.updLane l h).lane k = h (x.lane k) := by
  unfold Slice.updLane Slice.lane updAt
  simp only [List.getD_eq_getElem?_getD, List.getElem?_modify]
  rcases hx : x.lanes[k]? with _ | v
  · simp
  · by_cases e : l = k <;> simp [e]

theorem leaves_rfPut {gs fs ps} (s : State) (g : Gang) (k : Nat) (v : W32) : Leaves gs fs ps g.core g.slot s (rfPut s g k v) := by
  intro b hb
  have := gang_updGang (s := s) (core := g.core) (slot := g.slot)
      (h := fun x => { x with
               subs := x.subs.map fun u => { u with
                 run := u.run.map fun r =>
                   if r.shadow.any fun e => e.1 == k then r else { r with shadow := r.shadow ++ [(k, tabGet 0 s.rf k)] } } })
      (fun _ => ⟨rfl, rfl⟩)
  rw [show (rfPut s g k v).gang g.core g.slot = _ from this] at hb
  obtain ⟨a, ha, rfl⟩ := Option.map_eq_some_iff.mp hb
  exact ⟨a, ha, rfl, rfl, fun _ => rfl, fun _ y h => ⟨y, h, fun _ => .refl _⟩⟩

theorem leaves_putOne (s : State) (core slot : Nat) (p : Put) :
    Leaves (decide (128 ≤ p.code ∧ p.code < 192)) false (decide (192 ≤ p.code ∧ p.code < 199)) core slot s (putOne s core slot p) := by
  unfold putOne
  split
  · exact .refl s
  · rename_i g hg
    obtain ⟨rfl, rfl⟩ := gang_keys hg
    split
    · exact Leaves.foldl (fun s e _ => leaves_rfPut s g _ _) _
    split
    · exact leaves_updGang (fun _ => ⟨rfl, rfl⟩) fun g => ⟨rfl, rfl, by grind, fun _ y h => ⟨y, h, fun _ => .refl _⟩⟩
    split
    · refine leaves_updGang (fun _ => ⟨rfl, rfl⟩) fun g => keeps_updSlice (fun _ => rfl) fun x l => ?_
      rcases lane_updLane x p.lane l _ with e | e <;> rw [e]
      · exact .refl _
      · exact ⟨fun _ => rfl, rfl, rfl, rfl, rfl, rfl, rfl, by grind⟩
    · exact .refl s

theorem leaves_spoil {gs fs ps} (s : State) (core slot : Nat) (p : Put) : Leaves gs fs ps core slot s (spoil s core slot p) :=
  leaves_updGang (fun _ => ⟨rfl, rfl⟩) fun _ => keeps_slices (fun _ => rfl) fun _ _ => .refl _

theorem leaves_putAll {gs ps} (s : State) (core slot : Nat) (ps' : List Put)
    (hg : ∀ p ∈ ps', 128 ≤ p.code ∧ p.code < 192 → gs = true) (hp : ∀ p ∈ ps', 192 ≤ p.code ∧ p.code < 199 → ps = true) :
    Leaves gs false ps core slot s (putAll s core slot ps') := by
  refine Leaves.foldl (fun s p m => ?_) _
  simp only [List.mem_reverse] at m
  refine .trans (t := spoil s core slot p) (leaves_spoil s core slot p) fun b hb => ?_
  obtain ⟨a, ha, e⟩ := leaves_putOne _ core slot p b hb
  refine ⟨a, ha, e.h, e.base, fun n => e.g ?_, fun pos y hy => ?_⟩
  · have := hg p m; grind
  · obtain ⟨x, hx, k⟩ := e.slice pos y hy
    refine ⟨x, hx, fun l => ⟨fun _ => (k l).fpstat rfl, (k l).rstate, (k l).fibres, (k l).e0, (k l).e1, (k l).e2, (k l).e3, fun n => (k l).preds ?_⟩⟩
    have := hp p m; grind

theorem leaves_raiseAll {gs ps} (s : State) (core slot : Nat) (l : List (Nat × Nat × Flags)) :
    Leaves gs true ps core slot s (raiseAll s core slot l) := by
  refine Leaves.foldl (fun s e _ => ?_) _
  unfold raiseOne
  split
  · exact .refl s
  · refine leaves_updGang (fun _ => ⟨rfl, rfl⟩) fun g => keeps_updSlice (fun _ => rfl) fun x k => ?_
    rcases lane_updLane x e.2.1 k _ with h | h <;> rw [h]
    · exact .refl _
    · exact ⟨nofun, rfl, rfl, rfl, rfl, rfl, rfl, fun _ => rfl⟩

theorem Leaves.weaken {gs fs fs' ps core slot} {s t : State} (hf : fs' = false → fs = false) (h : Leaves gs fs ps core slot s t) :
    Leaves gs fs' ps core slot s t := fun b hb => by
  obtain ⟨a, ha, e⟩ := h b hb
  refine ⟨a, ha, e.h, e.base, e.g, fun pos y hy => ?_⟩
  obtain ⟨x, hx, k⟩ := e.slice pos y hy
  exact ⟨x, hx, fun l => ⟨fun n => (k l).fpstat (hf n), (k l).rstate, (k l).fibres, (k l).e0, (k l).e1, (k l).e2, (k l).e3, (k l).preds⟩⟩

theorem leaves_tidyGang {gs fs ps} (s : State) (core slot : Nat) : Leaves gs fs ps core slot s (tidyGang s core slot) := by
  unfold tidyGang
  split
  · exact .refl s
  · rename_i g hg
    simp only
    have hs : ∀ t : State, Leaves gs fs ps core slot s t → Leaves gs fs ps core slot s
      (if g.slices.isEmpty then
        { t with gangs := t.gangs.filter fun (x : Gang) => !(x.core == core && x.slot == slot), cores := updAt core (fun (k : CoreSt) => { k with idle := t.clk }) t.cores }
       else t.updGang core slot fun g' => { g' with subs := g.subs.filter fun u => g.slices.any fun x => x.st == .run u.id }) := by
      intro t ht
      split
      · intro b hb
        have := List.mem_of_find?_eq_some hb
        have h2 := List.find?_some hb
        simp only [List.mem_filter] at this
        simp [h2] at this
      · exact ht.trans (leaves_updGang (fun _ => ⟨rfl, rfl⟩) fun _ => ⟨rfl, rfl, fun _ => rfl, fun _ y h => ⟨y, h, fun _ => .refl _⟩⟩)
    apply hs
    split
    · exact .refl s
    · exact .of_eq rfl

theorem leaves_partSub {gs fs ps} (s : State) (core slot sub : Nat) : Leaves gs fs ps core slot s (partSub s core slot sub) := by
  unfold partSub
  split
  · exact .refl s
  · extract_lets pcs place t
    refine .trans (t := t) (leaves_updGang (fun _ => ⟨rfl, rfl⟩) fun _ => ⟨rfl, rfl, fun _ => rfl, fun _ y h => ⟨y, h, fun _ => .refl _⟩⟩) ?_
    refine Leaves.foldl (fun s pc _ => ?_) _
    refine .trans (t := s.bump) (.of_eq rfl) ?_
    refine leaves_updGang (fun _ => ⟨rfl, rfl⟩) fun g => ?_
    have := keeps_slices (gs := gs) (fs := fs) (ps := ps) (g := g) (h := fun x => if x.st = .run sub && x.pc = pc then { x with st := .run s.nextId } else x)
      (fun x => by split <;> rfl) (fun x l => by split <;> exact .refl _)
    exact ⟨this.h, this.base, this.g, this.slice⟩

theorem leaves_placeParts {gs fs ps core' slot'} (s : State) (core slot key sub new : Nat) (yields : Bool) :
    Leaves gs fs ps core' slot' s (placeParts s core slot key sub new yields) := by
  obtain ⟨cs, h⟩ := placeParts_cores s core slot key sub new yields
  rw [h]
  exact .of_eq rfl

theorem leaves_retire {gs fs ps} (s : State) (c : Ctx) (n : Nat) : Leaves gs fs ps c.g.core c.g.slot s (retire s c n) := by
  unfold retire
  extract_lets core slot pair t0 before dirty walked t1 upd t2 t3
  have hsubs : ∀ {t : State} {h : Gang → List Sub}, Leaves gs fs ps core slot t (t.updGang core slot fun g => { g with subs := h g }) := fun {t h} =>
    leaves_updGang (fun _ => ⟨rfl, rfl⟩) fun _ => ⟨rfl, rfl, fun _ => rfl, fun _ y h => ⟨y, h, fun _ => .refl _⟩⟩
  have h3 : Leaves gs fs ps core slot s t3 := by
    have a : Leaves gs fs ps core slot s t1 := .of_eq rfl
    refine .trans (a.trans ?_) (leaves_tidyGang _ _ _)
    refine leaves_updGang (fun _ => ⟨rfl, rfl⟩) fun g => keeps_slices (fun x => ?_) fun x l => ?_
    · simp only [upd]; split <;> rfl
    · simp only [upd]; split <;> exact .refl _
  clear_value t3
  split
  · exact h3
  split
  · exact h3
  split
  · exact h3
  · extract_lets
    split
    · exact h3.trans hsubs
    · refine .trans (.trans (.trans (h3.trans ?_) (leaves_partSub _ _ _ _)) (leaves_tidyGang _ _ _)) (leaves_placeParts _ _ _ _ _ _ _)
      exact hsubs

theorem gangs_popHead (s : State) (core code : Nat) : (popHead s core code).gangs = s.gangs := by
  unfold popHead observeFut
  split
  · extract_lets t
    simp only [State.setCore, t]
    split
    · split <;> rfl
    · rfl
  · extract_lets p
    split <;> rfl

/-! ### The register file -/

/-- No window write waits, and the register file is the same outside keys. -/
def RfKeeps (keys : Nat → Prop) (s t : State) : Prop :=
  s.rfLate = [] → t.rfLate = [] ∧ ∀ k, ¬ keys k → tabGet 0 t.rf k = tabGet 0 s.rf k

theorem RfKeeps.refl {keys} (s : State) : RfKeeps keys s s := fun h => ⟨h, fun _ _ => rfl⟩
theorem RfKeeps.of_eq {keys} {s t : State} (h1 : t.rf = s.rf) (h2 : t.rfLate = s.rfLate) : RfKeeps keys s t := fun h => ⟨h2.trans h, fun _ _ => by rw [h1]⟩
theorem RfKeeps.trans {keys} {s t u : State} (h : RfKeeps keys s t) (k : RfKeeps keys t u) : RfKeeps keys s u := fun e => by
  obtain ⟨e1, f1⟩ := h e
  obtain ⟨e2, f2⟩ := k e1
  exact ⟨e2, fun x n => (f2 x n).trans (f1 x n)⟩
theorem RfKeeps.foldl {α : Type} {keys} {f : State → α → State} {l : List α} (h : ∀ s, ∀ a ∈ l, RfKeeps keys s (f s a)) (s : State) :
    RfKeeps keys s (l.foldl f s) := by
  induction l generalizing s with
  | nil => exact .refl s
  | cons a t ih => exact (h s a (by simp)).trans (ih (fun s b hb => h s b (by simp [hb])) _)

theorem rf_putOne {keys} (s : State) (core slot : Nat) (p : Put)
    (h : p.code < 128 → ∀ g, s.gang core slot = some g → ∀ j, j < p.vals.length → keys (vKey g p.pos p.lane (p.code + j))) :
    RfKeeps keys s (putOne s core slot p) := by
  unfold putOne
  split
  · exact .refl s
  · rename_i g hg
    split
    · rename_i hc
      refine RfKeeps.foldl (fun t e m => ?_) _
      intro hl
      refine ⟨hl, fun k hk => tabGet_tabPut_other _ (fun e' => hk ?_) _⟩
      rw [e']
      have := List.mem_zipIdx m
      exact h hc g hg _ (by omega)
    split
    · exact .of_eq rfl rfl
    split
    · exact .of_eq rfl rfl
    · exact .refl s

theorem rf_putAll {keys} (s : State) (core slot base : Nat) (ps : List Put) (hb : ∀ g, s.gang core slot = some g → g.base = base)
    (h : ∀ p ∈ ps, p.code < 128 → ∀ g : Gang, g.core = core → g.base = base → ∀ j, j < p.vals.length → keys (vKey g p.pos p.lane (p.code + j))) :
    RfKeeps keys s (putAll s core slot ps) := by
  unfold putAll
  have h' : ∀ p ∈ ps.reverse, p.code < 128 → ∀ g : Gang, g.core = core → g.base = base → ∀ j, j < p.vals.length →
      keys (vKey g p.pos p.lane (p.code + j)) := fun p m => h p (by simpa using m)
  generalize ps.reverse = l at h'
  induction l generalizing s with
  | nil => exact .refl s
  | cons p t ih =>
    have hb' : ∀ g, (spoil s core slot p).gang core slot = some g → g.base = base := fun g hg => by
      obtain ⟨a, ha, e⟩ := leaves_spoil (gs := false) (fs := false) (ps := false) s core slot p g hg
      exact e.base.trans (hb a ha)
    refine .trans (t := putOne (spoil s core slot p) core slot p) ?_ (ih _ ?_ fun q m => h' q (by simp [m]))
    · refine .trans (t := spoil s core slot p) (.of_eq rfl rfl) (rf_putOne _ _ _ _ fun hc g hg => ?_)
      exact h' p (by simp) hc g (gang_keys hg).1 (hb' g hg)
    · intro g hg
      obtain ⟨a, ha, e⟩ := leaves_putOne _ core slot p g hg
      exact e.base.trans (hb' a ha)

theorem rf_raiseAll {keys} (s : State) (core slot : Nat) (l : List (Nat × Nat × Flags)) : RfKeeps keys s (raiseAll s core slot l) :=
  RfKeeps.foldl (fun s e _ => by
    unfold raiseOne
    split
    · exact .refl s
    · exact .of_eq rfl rfl) _

theorem rf_tidyGang {keys} (s : State) (core slot : Nat) : RfKeeps keys s (tidyGang s core slot) := by
  unfold tidyGang
  split
  · exact .refl s
  · rename_i g hg
    intro hl
    have : settleLate s g = s := by unfold settleLate; simp [hl]; rw [← hl]
    simp only [this, ite_self]
    split
    · exact ⟨hl, fun _ _ => rfl⟩
    · exact ⟨hl, fun _ _ => rfl⟩

theorem rf_partSub {keys} (s : State) (core slot sub : Nat) : RfKeeps keys s (partSub s core slot sub) := by
  unfold partSub
  split
  · exact .refl s
  · extract_lets pcs place t
    refine .trans (t := t) (.of_eq rfl rfl) (RfKeeps.foldl (fun s pc _ => ?_) _)
    exact .of_eq rfl rfl

theorem rf_placeParts {keys} (s : State) (core slot key sub new : Nat) (yields : Bool) :
    RfKeeps keys s (placeParts s core slot key sub new yields) := by
  obtain ⟨cs, h⟩ := placeParts_cores s core slot key sub new yields
  rw [h]
  exact .of_eq rfl rfl

theorem rf_retire {keys} (s : State) (c : Ctx) (n : Nat) : RfKeeps keys s (retire s c n) := by
  unfold retire
  extract_lets core slot pair t0 before dirty walked t1 upd t2 t3
  have h3 : RfKeeps keys s t3 := .trans (t := t2) (.of_eq rfl rfl) (rf_tidyGang _ _ _)
  clear_value t3
  split
  · exact h3
  split
  · exact h3
  split
  · exact h3
  · simp only
    split
    · exact h3.trans (.of_eq rfl rfl)
    · refine .trans (.trans (.trans (h3.trans ?_) (rf_partSub _ _ _ _)) (rf_tidyGang _ _ _)) (rf_placeParts _ _ _ _ _ _ _)
      exact .of_eq rfl rfl

theorem rf_popHead {keys} (s : State) (core code : Nat) : RfKeeps keys s (popHead s core code) := by
  unfold popHead observeFut
  split
  · extract_lets t
    simp only [State.setCore, t]
    split
    · split <;> exact .of_eq rfl rfl
    · exact .of_eq rfl rfl
  · extract_lets p
    split <;> exact .of_eq rfl rfl

/-! ### The state that an instruction finds -/

theorem gateQueues_go {i : Instr} {s : State} {g : Gang} {sub : Nat} {run : Run} {xs : List Slice} {resume : W64} {s0 : State} {c : Ctx}
    (h : gateQueues i s g sub run xs resume = .go s0 c false) :
    c.s = (if xs.isEmpty then [] else popCodes (instrDesc i) (instrFields i)).foldl (fun s k => popHead s c.g.core k) s ∧ c.g = g := by
  unfold gateQueues at h
  simp only at h
  generalize (if xs.isEmpty then [] else popCodes (instrDesc i) (instrFields i)) = codes at h ⊢
  generalize (if xs.isEmpty then [] else windowCodes (instrDesc i) (instrFields i)) = ports at h
  split at h
  · cases h
  split at h
  · cases h
  split at h
  · cases h
  generalize hb : ((heads s g.core codes).any fun h => h.2 == Head.none) = b at h
  injection h with h1 h2 h3
  subst h3 h2
  exact ⟨rfl, rfl⟩

/-- The state that an instruction finds that does not end a segment: its queues popped, nothing else changed. -/
theorem ready_popped {i : Instr} {s : State} {c : Ctx} (hs : segEnding i = false) (h : readyCtx i s = some c) :
    ∃ codes : List Nat, c.s = codes.foldl (fun s k => popHead s c.g.core k) s.freshen ∧ s.gang c.g.core c.g.slot = some c.g := by
  unfold readyCtx at h
  split at h
  · cases h
  · rename_i g sub run hi
    have hg : s.gang g.core g.slot = some g := by
      unfold issuer at hi
      split at hi
      · cases hi
      split at hi
      · cases hi
      rename_i hg
      split at hi
      · cases hi
      · simp only [Option.map_eq_some_iff] at hi
        obtain ⟨r, _, e⟩ := hi
        injection e with e1 e2
        subst e1
        rw [(gang_keys hg).1, (gang_keys hg).2]
        exact hg
    split at h
    · rename_i hg'
      injection h with h
      subst h
      unfold gate at hg'
      simp only [resumeOf, hs] at hg'
      split at hg'
      · cases hg'
      split at hg'
      · cases hg'
      split at hg'
      · cases hg'
      exact ⟨_, (gateQueues_go hg').1, by rw [(gateQueues_go hg').2]; exact hg⟩
    · cases h

end Sys2Proof.Machine
end

