-- ==== Sys2Proof/Laws/Memory.lean ====
section
/-! SUPPORT. Every operation that writes the memory table keeps its canonical form, and reset's memory has it. -/

namespace Sys2Proof.Machine

/-! ## The table -/

theorem wf_tabPut {m : List Host.Cell} (h : Memory.wf m = true) (a : Nat) (v : Byte) : Memory.wf (tabPut 0#8 m a v) = true :=
  tabOk_tabPut v (Nat.zero_le a) h

theorem wf_tabPuts {m : List Host.Cell} (h : Memory.wf m = true) (a : Nat) (vs : List Byte) : Memory.wf (tabPuts 0#8 m a vs) = true :=
  (tabPuts_spec vs h).1

theorem tabOk_filter {α : Type} [DecidableEq α] {d : α} (p : Nat × α → Bool) :
    ∀ {lo : Nat} {t : List (Nat × α)}, tabOk d lo t = true → tabOk d lo (t.filter p) = true := by
  intro lo t
  induction t generalizing lo with
  | nil => exact id
  | cons e t ih =>
    intro h
    simp only [tabOk, Bool.and_eq_true, decide_eq_true_eq] at h
    rw [List.filter_cons]
    split
    · simp only [tabOk, Bool.and_eq_true, decide_eq_true_eq]
      exact ⟨h.1, ih h.2⟩
    · exact tabOk_mono (by omega) (ih h.2)

theorem wf_filter {m : List Host.Cell} (h : Memory.wf m = true) (p : Host.Cell → Bool) : Memory.wf (m.filter p) = true :=
  tabOk_filter p h

/-- A fold of steps that each keep a property keeps it. -/
theorem foldl_keeps {α β : Type} {P : β → Prop} {f : β → α → β} (hf : ∀ b a, P b → P (f b a)) (l : List α) {b : β} (h : P b) :
    P (l.foldl f b) := by
  induction l generalizing b with
  | nil => exact h
  | cons a t ih => exact ih (hf b a h)

theorem reset_inv : State.reset.Inv := rfl

/-! ## Full-empty bits and monitors -/

theorem setFe_inv {s : State} (h : s.Inv) (core k : Nat) (v : Bool) : (setFe s core k v).Inv := wf_tabPut h _ _

@[simp] theorem fireWait_mem (s : State) (rid lane : Nat) (vals : List W32) (seen : List Nat) : (fireWait s rid lane vals seen).mem = s.mem := rfl

theorem feServe_inv (core k : Nat) (ws : List Wait) {s : State} (h : s.Inv) : (feServe core k ws s).Inv := by
  induction ws generalizing s with
  | nil => exact h
  | cons w ws ih =>
    unfold feServe
    split
    · exact h
    split
    · dsimp only
      split
      · split
        · exact ih (setFe_inv (s := fireWait s _ _ _ _) h _ _ _)
        · exact ih (s := fireWait s _ _ _ _) h
      · exact ih h
    · exact ih h

theorem feChange_inv {s : State} (h : s.Inv) (core k : Nat) (v : Bool) : (feChange s core k v).Inv := by
  unfold feChange
  split
  · exact feServe_inv _ _ _ (setFe_inv h _ _ _)
  · exact setFe_inv h _ _ _

theorem fePutByte_inv {s : State} (h : s.Inv) (core byte : Nat) (b : Byte) : (fePutByte s core byte b).Inv :=
  foldl_keeps (P := State.Inv) (fun _ _ h => feChange_inv h _ _ _) _ h

@[simp] theorem send_mem (s : State) (kind : Nat) (m : Msg) (bare : Bool) : (s.send kind m bare).mem = s.mem := by
  unfold State.send; split <;> rfl

@[simp] theorem satisfy_mem (s : State) (m : Monitor) (v : Nat) : (satisfy s m v).mem = s.mem := by
  unfold satisfy; split <;> simp [fireWait]

@[simp] theorem tryMonitor_mem (s : State) (m : Monitor) : (tryMonitor s m).mem = s.mem := by
  unfold tryMonitor; dsimp only; split <;> split <;> simp

@[simp] theorem evalMonitors_mem (s : State) (la n : Nat) : (evalMonitors s la n).mem = s.mem :=
  foldl_keeps (P := fun t : State => t.mem = s.mem) (fun b a h => by simpa using h) _ rfl

/-! ## The operand buffer and the recoder -/

theorem recodeBlock_inv {s : State} (h : s.Inv) (core : Nat) (r : Resv) (b : Nat) : (recodeBlock s core r b).Inv := by
  unfold recodeBlock State.Inv
  dsimp only
  refine foldl_keeps (P := fun m => Memory.wf m = true) (fun m k hm => ?_) _ ?_
  · refine foldl_keeps (P := fun m => Memory.wf m = true) (fun m p hm => wf_tabPut hm _ _) _ ?_
    split
    · exact wf_tabPut hm _ _
    · exact hm
  · refine wf_tabPut (wf_tabPut ?_ _ _) _ _
    split
    · exact wf_tabPut h _ _
    · exact h

@[simp] theorem spoilOps_mem (s : State) (p : Place) : (spoilOps s p).mem = s.mem := by
  unfold spoilOps
  split
  · split
    · split <;> rfl
    · rfl
  · rfl
  · rfl

theorem opWrite_inv {s : State} (h : s.Inv) (core off : Nat) (bs : List Byte) : (opWrite s core off bs).Inv := by
  unfold opWrite
  dsimp only
  split
  · split
    · split
      · exact h
      · exact foldl_keeps (P := State.Inv) (fun _ _ h => recodeBlock_inv h _ _ _) _ (b := { s with opStamp := _, opBy := _, opLogic := _, opSpoilt := _ }) h
    · exact wf_tabPuts (m := s.mem) h _ _
  · exact wf_tabPuts (m := s.mem) h _ _

/-! ## Bytes of the local map, pool bytes, an access of a program or an engine -/

@[simp] theorem rfWindowPut_mem (s : State) (core off : Nat) (b : Byte) : (rfWindowPut s core off b).mem = s.mem := by
  unfold rfWindowPut; dsimp only; split <;> rfl

theorem writeBytes_inv {s : State} (h : s.Inv) (la : Nat) (bs : List Byte) : (writeBytes s la bs).Inv := by
  unfold writeBytes
  dsimp only
  split
  · split
    · exact h
    · unfold State.Inv
      rw [evalMonitors_mem]
      exact wf_tabPuts h _ _
  · exact foldl_keeps (P := State.Inv) (fun t e ht => by unfold State.Inv; rw [rfWindowPut_mem]; exact ht) _ h
  · exact foldl_keeps (P := State.Inv) (fun t e ht => fePutByte_inv ht _ _ _) _ h
  · exact foldl_keeps (P := fun m => Memory.wf m = true) (fun m e hm => wf_tabPut hm _ _) _ h
  · exact opWrite_inv h _ _ _
  · exact wf_tabPuts h _ _
  · exact h

@[simp] theorem noteUncorrectable_mem (s : State) (la : Nat) : (noteUncorrectable s la).mem = s.mem := rfl

theorem poolPut_inv {s : State} (h : s.Inv) (k : Nat) (bs : List Byte) : (poolPut s k bs).Inv := by
  unfold poolPut
  split
  · exact wf_tabPuts (m := s.mem) h _ _
  · refine foldl_keeps (P := State.Inv) (fun t l ht => ?_) _ h
    dsimp only
    split
    · exact ht
    · exact wf_tabPuts (m := t.mem) ht _ _

@[simp] theorem tamper_mem (s : State) (p : Place) : (tamper s p).mem = s.mem := by unfold tamper; split <;> rfl

theorem accWrite_inv {s : State} (h : s.Inv) (ctx la : Nat) (bs : List Byte) (thread : Bool) : (accWrite s ctx la bs thread).Inv := by
  unfold accWrite
  dsimp only
  split
  · refine writeBytes_inv ?_ _ _
    unfold State.Inv
    rw [tamper_mem]
    split
    · rw [spoilOps_mem]; exact h
    · exact h
  · exact h

/-! ## Operations that clear or fill a range -/

theorem clearSlot_inv {s : State} (h : s.Inv) (core slot : Nat) : (clearSlot s core slot).Inv := wf_filter h _

theorem moduleReset_inv {s : State} (h : s.Inv) (keep : Bool) : (moduleReset s keep).Inv := by
  cases keep
  · exact reset_inv
  · exact wf_filter h _

theorem unpowerCores_inv {s : State} (h : s.Inv) : (unpowerCores s).Inv := wf_filter h _

@[simp] theorem scrub_mem (s : State) (la n : Nat) : (scrub s la n).mem = s.mem :=
  foldl_keeps (P := fun t : State => t.mem = s.mem) (fun t l h => by split <;> simp [h]) _ rfl

@[simp] theorem setL2_mem (s : State) (la wts rts : Nat) : (setL2 s la wts rts).mem = s.mem := by
  unfold setL2 noteHclk; rfl

@[simp] theorem touchBy_mem (s : State) (pts la : Nat) (w : Bool) (core : Option Nat) : (touchBy s pts la w core).1.mem = s.mem := by
  unfold touchBy
  dsimp only
  split
  · split
    · split <;> simp [storeTime, l1Settle]
    · simp [l1Settle]
  all_goals simp [State.setCore]

end Sys2Proof.Machine
end

