-- ==== Sys2Proof/Laws/State.lean ====
section
/-! SUPPORT. What each named update of the state leaves: one lemma per field. -/

namespace Sys2Proof.Machine

variable (s : State)

/-! ### State.setCore -/

@[simp] theorem State.setCore_tick (c : Nat) (g : CoreSt → CoreSt) : (s.setCore c g).tick = s.tick := rfl
@[simp] theorem State.setCore_clk (c : Nat) (g : CoreSt → CoreSt) : (s.setCore c g).clk = s.clk := rfl
@[simp] theorem State.setCore_fresh (c : Nat) (g : CoreSt → CoreSt) : (s.setCore c g).fresh = s.fresh := rfl
@[simp] theorem State.setCore_nextId (c : Nat) (g : CoreSt → CoreSt) : (s.setCore c g).nextId = s.nextId := rfl
@[simp] theorem State.setCore_openMoves (c : Nat) (g : CoreSt → CoreSt) : (s.setCore c g).openMoves = s.openMoves := rfl
@[simp] theorem State.setCore_cur (c : Nat) (g : CoreSt → CoreSt) : (s.setCore c g).cur = s.cur := rfl
@[simp] theorem State.setCore_inputs (c : Nat) (g : CoreSt → CoreSt) : (s.setCore c g).inputs = s.inputs := rfl
@[simp] theorem State.setCore_due (c : Nat) (g : CoreSt → CoreSt) : (s.setCore c g).due = s.due := rfl
@[simp] theorem State.setCore_node (c : Nat) (g : CoreSt → CoreSt) : (s.setCore c g).node = s.node := rfl
@[simp] theorem State.setCore_mem (c : Nat) (g : CoreSt → CoreSt) : (s.setCore c g).mem = s.mem := rfl
@[simp] theorem State.setCore_stale (c : Nat) (g : CoreSt → CoreSt) : (s.setCore c g).stale = s.stale := rfl
@[simp] theorem State.setCore_poisoned (c : Nat) (g : CoreSt → CoreSt) : (s.setCore c g).poisoned = s.poisoned := rfl
@[simp] theorem State.setCore_correctable (c : Nat) (g : CoreSt → CoreSt) : (s.setCore c g).correctable = s.correctable := rfl
@[simp] theorem State.setCore_upsets (c : Nat) (g : CoreSt → CoreSt) : (s.setCore c g).upsets = s.upsets := rfl
@[simp] theorem State.setCore_spoiltSaves (c : Nat) (g : CoreSt → CoreSt) : (s.setCore c g).spoiltSaves = s.spoiltSaves := rfl
@[simp] theorem State.setCore_l1 (c : Nat) (g : CoreSt → CoreSt) : (s.setCore c g).l1 = s.l1 := rfl
@[simp] theorem State.setCore_l2 (c : Nat) (g : CoreSt → CoreSt) : (s.setCore c g).l2 = s.l2 := rfl
@[simp] theorem State.setCore_leased (c : Nat) (g : CoreSt → CoreSt) : (s.setCore c g).leased = s.leased := rfl
@[simp] theorem State.setCore_typed (c : Nat) (g : CoreSt → CoreSt) : (s.setCore c g).typed = s.typed := rfl
@[simp] theorem State.setCore_frontPts (c : Nat) (g : CoreSt → CoreSt) : (s.setCore c g).frontPts = s.frontPts := rfl
@[simp] theorem State.setCore_walkPts (c : Nat) (g : CoreSt → CoreSt) : (s.setCore c g).walkPts = s.walkPts := rfl
@[simp] theorem State.setCore_devPts (c : Nat) (g : CoreSt → CoreSt) : (s.setCore c g).devPts = s.devPts := rfl
@[simp] theorem State.setCore_heard (c : Nat) (g : CoreSt → CoreSt) : (s.setCore c g).heard = s.heard := rfl
@[simp] theorem State.setCore_brass (c : Nat) (g : CoreSt → CoreSt) : (s.setCore c g).brass = s.brass := rfl
@[simp] theorem State.setCore_rf (c : Nat) (g : CoreSt → CoreSt) : (s.setCore c g).rf = s.rf := rfl
@[simp] theorem State.setCore_opStamp (c : Nat) (g : CoreSt → CoreSt) : (s.setCore c g).opStamp = s.opStamp := rfl
@[simp] theorem State.setCore_opBy (c : Nat) (g : CoreSt → CoreSt) : (s.setCore c g).opBy = s.opBy := rfl
@[simp] theorem State.setCore_signs (c : Nat) (g : CoreSt → CoreSt) : (s.setCore c g).signs = s.signs := rfl
@[simp] theorem State.setCore_opLogic (c : Nat) (g : CoreSt → CoreSt) : (s.setCore c g).opLogic = s.opLogic := rfl
@[simp] theorem State.setCore_opSpoilt (c : Nat) (g : CoreSt → CoreSt) : (s.setCore c g).opSpoilt = s.opSpoilt := rfl
@[simp] theorem State.setCore_rfLate (c : Nat) (g : CoreSt → CoreSt) : (s.setCore c g).rfLate = s.rfLate := rfl
@[simp] theorem State.setCore_gangs (c : Nat) (g : CoreSt → CoreSt) : (s.setCore c g).gangs = s.gangs := rfl
@[simp] theorem State.setCore_pend (c : Nat) (g : CoreSt → CoreSt) : (s.setCore c g).pend = s.pend := rfl
@[simp] theorem State.setCore_cores (c : Nat) (g : CoreSt → CoreSt) : (s.setCore c g).cores = updAt c g s.cores := rfl
@[simp] theorem State.setCore_recs (c : Nat) (g : CoreSt → CoreSt) : (s.setCore c g).recs = s.recs := rfl
@[simp] theorem State.setCore_waits (c : Nat) (g : CoreSt → CoreSt) : (s.setCore c g).waits = s.waits := rfl
@[simp] theorem State.setCore_mons (c : Nat) (g : CoreSt → CoreSt) : (s.setCore c g).mons = s.mons := rfl
@[simp] theorem State.setCore_pool (c : Nat) (g : CoreSt → CoreSt) : (s.setCore c g).pool = s.pool := rfl
@[simp] theorem State.setCore_tasks (c : Nat) (g : CoreSt → CoreSt) : (s.setCore c g).tasks = s.tasks := rfl
@[simp] theorem State.setCore_tlbs (c : Nat) (g : CoreSt → CoreSt) : (s.setCore c g).tlbs = s.tlbs := rfl
@[simp] theorem State.setCore_walks (c : Nat) (g : CoreSt → CoreSt) : (s.setCore c g).walks = s.walks := rfl
@[simp] theorem State.setCore_frontMarks (c : Nat) (g : CoreSt → CoreSt) : (s.setCore c g).frontMarks = s.frontMarks := rfl
@[simp] theorem State.setCore_walkLines (c : Nat) (g : CoreSt → CoreSt) : (s.setCore c g).walkLines = s.walkLines := rfl
@[simp] theorem State.setCore_wcbufs (c : Nat) (g : CoreSt → CoreSt) : (s.setCore c g).wcbufs = s.wcbufs := rfl
@[simp] theorem State.setCore_seeks (c : Nat) (g : CoreSt → CoreSt) : (s.setCore c g).seeks = s.seeks := rfl
@[simp] theorem State.setCore_ops (c : Nat) (g : CoreSt → CoreSt) : (s.setCore c g).ops = s.ops := rfl
@[simp] theorem State.setCore_futs (c : Nat) (g : CoreSt → CoreSt) : (s.setCore c g).futs = s.futs := rfl
@[simp] theorem State.setCore_launches (c : Nat) (g : CoreSt → CoreSt) : (s.setCore c g).launches = s.launches := rfl
@[simp] theorem State.setCore_groups (c : Nat) (g : CoreSt → CoreSt) : (s.setCore c g).groups = s.groups := rfl
@[simp] theorem State.setCore_queues (c : Nat) (g : CoreSt → CoreSt) : (s.setCore c g).queues = s.queues := rfl
@[simp] theorem State.setCore_contexts (c : Nat) (g : CoreSt → CoreSt) : (s.setCore c g).contexts = s.contexts := rfl
@[simp] theorem State.setCore_faults (c : Nat) (g : CoreSt → CoreSt) : (s.setCore c g).faults = s.faults := rfl
@[simp] theorem State.setCore_fwFaultSeq (c : Nat) (g : CoreSt → CoreSt) : (s.setCore c g).fwFaultSeq = s.fwFaultSeq := rfl
@[simp] theorem State.setCore_peers (c : Nat) (g : CoreSt → CoreSt) : (s.setCore c g).peers = s.peers := rfl
@[simp] theorem State.setCore_streams (c : Nat) (g : CoreSt → CoreSt) : (s.setCore c g).streams = s.streams := rfl
@[simp] theorem State.setCore_regs (c : Nat) (g : CoreSt → CoreSt) : (s.setCore c g).regs = s.regs := rfl
@[simp] theorem State.setCore_snapDue (c : Nat) (g : CoreSt → CoreSt) : (s.setCore c g).snapDue = s.snapDue := rfl
@[simp] theorem State.setCore_dieSnap (c : Nat) (g : CoreSt → CoreSt) : (s.setCore c g).dieSnap = s.dieSnap := rfl
@[simp] theorem State.setCore_copies (c : Nat) (g : CoreSt → CoreSt) : (s.setCore c g).copies = s.copies := rfl
@[simp] theorem State.setCore_reqs (c : Nat) (g : CoreSt → CoreSt) : (s.setCore c g).reqs = s.reqs := rfl
@[simp] theorem State.setCore_acks (c : Nat) (g : CoreSt → CoreSt) : (s.setCore c g).acks = s.acks := rfl
@[simp] theorem State.setCore_posts (c : Nat) (g : CoreSt → CoreSt) : (s.setCore c g).posts = s.posts := rfl
@[simp] theorem State.setCore_homeQ (c : Nat) (g : CoreSt → CoreSt) : (s.setCore c g).homeQ = s.homeQ := rfl
@[simp] theorem State.setCore_failedPa (c : Nat) (g : CoreSt → CoreSt) : (s.setCore c g).failedPa = s.failedPa := rfl
@[simp] theorem State.setCore_uncached (c : Nat) (g : CoreSt → CoreSt) : (s.setCore c g).uncached = s.uncached := rfl
@[simp] theorem State.setCore_outbox (c : Nat) (g : CoreSt → CoreSt) : (s.setCore c g).outbox = s.outbox := rfl
@[simp] theorem State.setCore_ports (c : Nat) (g : CoreSt → CoreSt) : (s.setCore c g).ports = s.ports := rfl
@[simp] theorem State.setCore_linkSeq (c : Nat) (g : CoreSt → CoreSt) : (s.setCore c g).linkSeq = s.linkSeq := rfl
@[simp] theorem State.setCore_linkRx (c : Nat) (g : CoreSt → CoreSt) : (s.setCore c g).linkRx = s.linkRx := rfl
@[simp] theorem State.setCore_linkAsk (c : Nat) (g : CoreSt → CoreSt) : (s.setCore c g).linkAsk = s.linkAsk := rfl
@[simp] theorem State.setCore_linkTx (c : Nat) (g : CoreSt → CoreSt) : (s.setCore c g).linkTx = s.linkTx := rfl
@[simp] theorem State.setCore_linkErrors (c : Nat) (g : CoreSt → CoreSt) : (s.setCore c g).linkErrors = s.linkErrors := rfl
@[simp] theorem State.setCore_bersy (c : Nat) (g : CoreSt → CoreSt) : (s.setCore c g).bersy = s.bersy := rfl
@[simp] theorem State.setCore_interrupts (c : Nat) (g : CoreSt → CoreSt) : (s.setCore c g).interrupts = s.interrupts := rfl
@[simp] theorem State.setCore_answers (c : Nat) (g : CoreSt → CoreSt) : (s.setCore c g).answers = s.answers := rfl
@[simp] theorem State.setCore_imageSvn (c : Nat) (g : CoreSt → CoreSt) : (s.setCore c g).imageSvn = s.imageSvn := rfl
@[simp] theorem State.setCore_imageCommit (c : Nat) (g : CoreSt → CoreSt) : (s.setCore c g).imageCommit = s.imageCommit := rfl
@[simp] theorem State.setCore_flash (c : Nat) (g : CoreSt → CoreSt) : (s.setCore c g).flash = s.flash := rfl
@[simp] theorem State.setCore_image (c : Nat) (g : CoreSt → CoreSt) : (s.setCore c g).image = s.image := rfl
@[simp] theorem State.setCore_tcm (c : Nat) (g : CoreSt → CoreSt) : (s.setCore c g).tcm = s.tcm := rfl
@[simp] theorem State.setCore_journalTags (c : Nat) (g : CoreSt → CoreSt) : (s.setCore c g).journalTags = s.journalTags := rfl

/-! ### State.setStream -/

@[simp] theorem State.setStream_tick (i : Nat) (g : Stream → Stream) : (s.setStream i g).tick = s.tick := rfl
@[simp] theorem State.setStream_clk (i : Nat) (g : Stream → Stream) : (s.setStream i g).clk = s.clk := rfl
@[simp] theorem State.setStream_fresh (i : Nat) (g : Stream → Stream) : (s.setStream i g).fresh = s.fresh := rfl
@[simp] theorem State.setStream_nextId (i : Nat) (g : Stream → Stream) : (s.setStream i g).nextId = s.nextId := rfl
@[simp] theorem State.setStream_openMoves (i : Nat) (g : Stream → Stream) : (s.setStream i g).openMoves = s.openMoves := rfl
@[simp] theorem State.setStream_cur (i : Nat) (g : Stream → Stream) : (s.setStream i g).cur = s.cur := rfl
@[simp] theorem State.setStream_inputs (i : Nat) (g : Stream → Stream) : (s.setStream i g).inputs = s.inputs := rfl
@[simp] theorem State.setStream_due (i : Nat) (g : Stream → Stream) : (s.setStream i g).due = s.due := rfl
@[simp] theorem State.setStream_node (i : Nat) (g : Stream → Stream) : (s.setStream i g).node = s.node := rfl
@[simp] theorem State.setStream_mem (i : Nat) (g : Stream → Stream) : (s.setStream i g).mem = s.mem := rfl
@[simp] theorem State.setStream_stale (i : Nat) (g : Stream → Stream) : (s.setStream i g).stale = s.stale := rfl
@[simp] theorem State.setStream_poisoned (i : Nat) (g : Stream → Stream) : (s.setStream i g).poisoned = s.poisoned := rfl
@[simp] theorem State.setStream_correctable (i : Nat) (g : Stream → Stream) : (s.setStream i g).correctable = s.correctable := rfl
@[simp] theorem State.setStream_upsets (i : Nat) (g : Stream → Stream) : (s.setStream i g).upsets = s.upsets := rfl
@[simp] theorem State.setStream_spoiltSaves (i : Nat) (g : Stream → Stream) : (s.setStream i g).spoiltSaves = s.spoiltSaves := rfl
@[simp] theorem State.setStream_l1 (i : Nat) (g : Stream → Stream) : (s.setStream i g).l1 = s.l1 := rfl
@[simp] theorem State.setStream_l2 (i : Nat) (g : Stream → Stream) : (s.setStream i g).l2 = s.l2 := rfl
@[simp] theorem State.setStream_leased (i : Nat) (g : Stream → Stream) : (s.setStream i g).leased = s.leased := rfl
@[simp] theorem State.setStream_typed (i : Nat) (g : Stream → Stream) : (s.setStream i g).typed = s.typed := rfl
@[simp] theorem State.setStream_frontPts (i : Nat) (g : Stream → Stream) : (s.setStream i g).frontPts = s.frontPts := rfl
@[simp] theorem State.setStream_walkPts (i : Nat) (g : Stream → Stream) : (s.setStream i g).walkPts = s.walkPts := rfl
@[simp] theorem State.setStream_devPts (i : Nat) (g : Stream → Stream) : (s.setStream i g).devPts = s.devPts := rfl
@[simp] theorem State.setStream_heard (i : Nat) (g : Stream → Stream) : (s.setStream i g).heard = s.heard := rfl
@[simp] theorem State.setStream_brass (i : Nat) (g : Stream → Stream) : (s.setStream i g).brass = s.brass := rfl
@[simp] theorem State.setStream_rf (i : Nat) (g : Stream → Stream) : (s.setStream i g).rf = s.rf := rfl
@[simp] theorem State.setStream_opStamp (i : Nat) (g : Stream → Stream) : (s.setStream i g).opStamp = s.opStamp := rfl
@[simp] theorem State.setStream_opBy (i : Nat) (g : Stream → Stream) : (s.setStream i g).opBy = s.opBy := rfl
@[simp] theorem State.setStream_signs (i : Nat) (g : Stream → Stream) : (s.setStream i g).signs = s.signs := rfl
@[simp] theorem State.setStream_opLogic (i : Nat) (g : Stream → Stream) : (s.setStream i g).opLogic = s.opLogic := rfl
@[simp] theorem State.setStream_opSpoilt (i : Nat) (g : Stream → Stream) : (s.setStream i g).opSpoilt = s.opSpoilt := rfl
@[simp] theorem State.setStream_rfLate (i : Nat) (g : Stream → Stream) : (s.setStream i g).rfLate = s.rfLate := rfl
@[simp] theorem State.setStream_gangs (i : Nat) (g : Stream → Stream) : (s.setStream i g).gangs = s.gangs := rfl
@[simp] theorem State.setStream_pend (i : Nat) (g : Stream → Stream) : (s.setStream i g).pend = s.pend := rfl
@[simp] theorem State.setStream_cores (i : Nat) (g : Stream → Stream) : (s.setStream i g).cores = s.cores := rfl
@[simp] theorem State.setStream_recs (i : Nat) (g : Stream → Stream) : (s.setStream i g).recs = s.recs := rfl
@[simp] theorem State.setStream_waits (i : Nat) (g : Stream → Stream) : (s.setStream i g).waits = s.waits := rfl
@[simp] theorem State.setStream_mons (i : Nat) (g : Stream → Stream) : (s.setStream i g).mons = s.mons := rfl
@[simp] theorem State.setStream_pool (i : Nat) (g : Stream → Stream) : (s.setStream i g).pool = s.pool := rfl
@[simp] theorem State.setStream_tasks (i : Nat) (g : Stream → Stream) : (s.setStream i g).tasks = s.tasks := rfl
@[simp] theorem State.setStream_tlbs (i : Nat) (g : Stream → Stream) : (s.setStream i g).tlbs = s.tlbs := rfl
@[simp] theorem State.setStream_walks (i : Nat) (g : Stream → Stream) : (s.setStream i g).walks = s.walks := rfl
@[simp] theorem State.setStream_frontMarks (i : Nat) (g : Stream → Stream) : (s.setStream i g).frontMarks = s.frontMarks := rfl
@[simp] theorem State.setStream_walkLines (i : Nat) (g : Stream → Stream) : (s.setStream i g).walkLines = s.walkLines := rfl
@[simp] theorem State.setStream_wcbufs (i : Nat) (g : Stream → Stream) : (s.setStream i g).wcbufs = s.wcbufs := rfl
@[simp] theorem State.setStream_seeks (i : Nat) (g : Stream → Stream) : (s.setStream i g).seeks = s.seeks := rfl
@[simp] theorem State.setStream_ops (i : Nat) (g : Stream → Stream) : (s.setStream i g).ops = s.ops := rfl
@[simp] theorem State.setStream_futs (i : Nat) (g : Stream → Stream) : (s.setStream i g).futs = s.futs := rfl
@[simp] theorem State.setStream_launches (i : Nat) (g : Stream → Stream) : (s.setStream i g).launches = s.launches := rfl
@[simp] theorem State.setStream_groups (i : Nat) (g : Stream → Stream) : (s.setStream i g).groups = s.groups := rfl
@[simp] theorem State.setStream_queues (i : Nat) (g : Stream → Stream) : (s.setStream i g).queues = s.queues := rfl
@[simp] theorem State.setStream_contexts (i : Nat) (g : Stream → Stream) : (s.setStream i g).contexts = s.contexts := rfl
@[simp] theorem State.setStream_faults (i : Nat) (g : Stream → Stream) : (s.setStream i g).faults = s.faults := rfl
@[simp] theorem State.setStream_fwFaultSeq (i : Nat) (g : Stream → Stream) : (s.setStream i g).fwFaultSeq = s.fwFaultSeq := rfl
@[simp] theorem State.setStream_peers (i : Nat) (g : Stream → Stream) : (s.setStream i g).peers = s.peers := rfl
@[simp] theorem State.setStream_streams (i : Nat) (g : Stream → Stream) : (s.setStream i g).streams = updAt i g s.streams := rfl
@[simp] theorem State.setStream_regs (i : Nat) (g : Stream → Stream) : (s.setStream i g).regs = s.regs := rfl
@[simp] theorem State.setStream_snapDue (i : Nat) (g : Stream → Stream) : (s.setStream i g).snapDue = s.snapDue := rfl
@[simp] theorem State.setStream_dieSnap (i : Nat) (g : Stream → Stream) : (s.setStream i g).dieSnap = s.dieSnap := rfl
@[simp] theorem State.setStream_copies (i : Nat) (g : Stream → Stream) : (s.setStream i g).copies = s.copies := rfl
@[simp] theorem State.setStream_reqs (i : Nat) (g : Stream → Stream) : (s.setStream i g).reqs = s.reqs := rfl
@[simp] theorem State.setStream_acks (i : Nat) (g : Stream → Stream) : (s.setStream i g).acks = s.acks := rfl
@[simp] theorem State.setStream_posts (i : Nat) (g : Stream → Stream) : (s.setStream i g).posts = s.posts := rfl
@[simp] theorem State.setStream_homeQ (i : Nat) (g : Stream → Stream) : (s.setStream i g).homeQ = s.homeQ := rfl
@[simp] theorem State.setStream_failedPa (i : Nat) (g : Stream → Stream) : (s.setStream i g).failedPa = s.failedPa := rfl
@[simp] theorem State.setStream_uncached (i : Nat) (g : Stream → Stream) : (s.setStream i g).uncached = s.uncached := rfl
@[simp] theorem State.setStream_outbox (i : Nat) (g : Stream → Stream) : (s.setStream i g).outbox = s.outbox := rfl
@[simp] theorem State.setStream_ports (i : Nat) (g : Stream → Stream) : (s.setStream i g).ports = s.ports := rfl
@[simp] theorem State.setStream_linkSeq (i : Nat) (g : Stream → Stream) : (s.setStream i g).linkSeq = s.linkSeq := rfl
@[simp] theorem State.setStream_linkRx (i : Nat) (g : Stream → Stream) : (s.setStream i g).linkRx = s.linkRx := rfl
@[simp] theorem State.setStream_linkAsk (i : Nat) (g : Stream → Stream) : (s.setStream i g).linkAsk = s.linkAsk := rfl
@[simp] theorem State.setStream_linkTx (i : Nat) (g : Stream → Stream) : (s.setStream i g).linkTx = s.linkTx := rfl
@[simp] theorem State.setStream_linkErrors (i : Nat) (g : Stream → Stream) : (s.setStream i g).linkErrors = s.linkErrors := rfl
@[simp] theorem State.setStream_bersy (i : Nat) (g : Stream → Stream) : (s.setStream i g).bersy = s.bersy := rfl
@[simp] theorem State.setStream_interrupts (i : Nat) (g : Stream → Stream) : (s.setStream i g).interrupts = s.interrupts := rfl
@[simp] theorem State.setStream_answers (i : Nat) (g : Stream → Stream) : (s.setStream i g).answers = s.answers := rfl
@[simp] theorem State.setStream_imageSvn (i : Nat) (g : Stream → Stream) : (s.setStream i g).imageSvn = s.imageSvn := rfl
@[simp] theorem State.setStream_imageCommit (i : Nat) (g : Stream → Stream) : (s.setStream i g).imageCommit = s.imageCommit := rfl
@[simp] theorem State.setStream_flash (i : Nat) (g : Stream → Stream) : (s.setStream i g).flash = s.flash := rfl
@[simp] theorem State.setStream_image (i : Nat) (g : Stream → Stream) : (s.setStream i g).image = s.image := rfl
@[simp] theorem State.setStream_tcm (i : Nat) (g : Stream → Stream) : (s.setStream i g).tcm = s.tcm := rfl
@[simp] theorem State.setStream_journalTags (i : Nat) (g : Stream → Stream) : (s.setStream i g).journalTags = s.journalTags := rfl

/-! ### State.setDie -/

@[simp] theorem State.setDie_tick (d : Nat) (g : DieRegs → DieRegs) : (s.setDie d g).tick = s.tick := rfl
@[simp] theorem State.setDie_clk (d : Nat) (g : DieRegs → DieRegs) : (s.setDie d g).clk = s.clk := rfl
@[simp] theorem State.setDie_fresh (d : Nat) (g : DieRegs → DieRegs) : (s.setDie d g).fresh = s.fresh := rfl
@[simp] theorem State.setDie_nextId (d : Nat) (g : DieRegs → DieRegs) : (s.setDie d g).nextId = s.nextId := rfl
@[simp] theorem State.setDie_openMoves (d : Nat) (g : DieRegs → DieRegs) : (s.setDie d g).openMoves = s.openMoves := rfl
@[simp] theorem State.setDie_cur (d : Nat) (g : DieRegs → DieRegs) : (s.setDie d g).cur = s.cur := rfl
@[simp] theorem State.setDie_inputs (d : Nat) (g : DieRegs → DieRegs) : (s.setDie d g).inputs = s.inputs := rfl
@[simp] theorem State.setDie_due (d : Nat) (g : DieRegs → DieRegs) : (s.setDie d g).due = s.due := rfl
@[simp] theorem State.setDie_node (d : Nat) (g : DieRegs → DieRegs) : (s.setDie d g).node = s.node := rfl
@[simp] theorem State.setDie_mem (d : Nat) (g : DieRegs → DieRegs) : (s.setDie d g).mem = s.mem := rfl
@[simp] theorem State.setDie_stale (d : Nat) (g : DieRegs → DieRegs) : (s.setDie d g).stale = s.stale := rfl
@[simp] theorem State.setDie_poisoned (d : Nat) (g : DieRegs → DieRegs) : (s.setDie d g).poisoned = s.poisoned := rfl
@[simp] theorem State.setDie_correctable (d : Nat) (g : DieRegs → DieRegs) : (s.setDie d g).correctable = s.correctable := rfl
@[simp] theorem State.setDie_upsets (d : Nat) (g : DieRegs → DieRegs) : (s.setDie d g).upsets = s.upsets := rfl
@[simp] theorem State.setDie_spoiltSaves (d : Nat) (g : DieRegs → DieRegs) : (s.setDie d g).spoiltSaves = s.spoiltSaves := rfl
@[simp] theorem State.setDie_l1 (d : Nat) (g : DieRegs → DieRegs) : (s.setDie d g).l1 = s.l1 := rfl
@[simp] theorem State.setDie_l2 (d : Nat) (g : DieRegs → DieRegs) : (s.setDie d g).l2 = s.l2 := rfl
@[simp] theorem State.setDie_leased (d : Nat) (g : DieRegs → DieRegs) : (s.setDie d g).leased = s.leased := rfl
@[simp] theorem State.setDie_typed (d : Nat) (g : DieRegs → DieRegs) : (s.setDie d g).typed = s.typed := rfl
@[simp] theorem State.setDie_frontPts (d : Nat) (g : DieRegs → DieRegs) : (s.setDie d g).frontPts = s.frontPts := rfl
@[simp] theorem State.setDie_walkPts (d : Nat) (g : DieRegs → DieRegs) : (s.setDie d g).walkPts = s.walkPts := rfl
@[simp] theorem State.setDie_devPts (d : Nat) (g : DieRegs → DieRegs) : (s.setDie d g).devPts = s.devPts := rfl
@[simp] theorem State.setDie_heard (d : Nat) (g : DieRegs → DieRegs) : (s.setDie d g).heard = s.heard := rfl
@[simp] theorem State.setDie_brass (d : Nat) (g : DieRegs → DieRegs) : (s.setDie d g).brass = s.brass := rfl
@[simp] theorem State.setDie_rf (d : Nat) (g : DieRegs → DieRegs) : (s.setDie d g).rf = s.rf := rfl
@[simp] theorem State.setDie_opStamp (d : Nat) (g : DieRegs → DieRegs) : (s.setDie d g).opStamp = s.opStamp := rfl
@[simp] theorem State.setDie_opBy (d : Nat) (g : DieRegs → DieRegs) : (s.setDie d g).opBy = s.opBy := rfl
@[simp] theorem State.setDie_signs (d : Nat) (g : DieRegs → DieRegs) : (s.setDie d g).signs = s.signs := rfl
@[simp] theorem State.setDie_opLogic (d : Nat) (g : DieRegs → DieRegs) : (s.setDie d g).opLogic = s.opLogic := rfl
@[simp] theorem State.setDie_opSpoilt (d : Nat) (g : DieRegs → DieRegs) : (s.setDie d g).opSpoilt = s.opSpoilt := rfl
@[simp] theorem State.setDie_rfLate (d : Nat) (g : DieRegs → DieRegs) : (s.setDie d g).rfLate = s.rfLate := rfl
@[simp] theorem State.setDie_gangs (d : Nat) (g : DieRegs → DieRegs) : (s.setDie d g).gangs = s.gangs := rfl
@[simp] theorem State.setDie_pend (d : Nat) (g : DieRegs → DieRegs) : (s.setDie d g).pend = s.pend := rfl
@[simp] theorem State.setDie_cores (d : Nat) (g : DieRegs → DieRegs) : (s.setDie d g).cores = s.cores := rfl
@[simp] theorem State.setDie_recs (d : Nat) (g : DieRegs → DieRegs) : (s.setDie d g).recs = s.recs := rfl
@[simp] theorem State.setDie_waits (d : Nat) (g : DieRegs → DieRegs) : (s.setDie d g).waits = s.waits := rfl
@[simp] theorem State.setDie_mons (d : Nat) (g : DieRegs → DieRegs) : (s.setDie d g).mons = s.mons := rfl
@[simp] theorem State.setDie_pool (d : Nat) (g : DieRegs → DieRegs) : (s.setDie d g).pool = s.pool := rfl
@[simp] theorem State.setDie_tasks (d : Nat) (g : DieRegs → DieRegs) : (s.setDie d g).tasks = s.tasks := rfl
@[simp] theorem State.setDie_tlbs (d : Nat) (g : DieRegs → DieRegs) : (s.setDie d g).tlbs = s.tlbs := rfl
@[simp] theorem State.setDie_walks (d : Nat) (g : DieRegs → DieRegs) : (s.setDie d g).walks = s.walks := rfl
@[simp] theorem State.setDie_frontMarks (d : Nat) (g : DieRegs → DieRegs) : (s.setDie d g).frontMarks = s.frontMarks := rfl
@[simp] theorem State.setDie_walkLines (d : Nat) (g : DieRegs → DieRegs) : (s.setDie d g).walkLines = s.walkLines := rfl
@[simp] theorem State.setDie_wcbufs (d : Nat) (g : DieRegs → DieRegs) : (s.setDie d g).wcbufs = s.wcbufs := rfl
@[simp] theorem State.setDie_seeks (d : Nat) (g : DieRegs → DieRegs) : (s.setDie d g).seeks = s.seeks := rfl
@[simp] theorem State.setDie_ops (d : Nat) (g : DieRegs → DieRegs) : (s.setDie d g).ops = s.ops := rfl
@[simp] theorem State.setDie_futs (d : Nat) (g : DieRegs → DieRegs) : (s.setDie d g).futs = s.futs := rfl
@[simp] theorem State.setDie_launches (d : Nat) (g : DieRegs → DieRegs) : (s.setDie d g).launches = s.launches := rfl
@[simp] theorem State.setDie_groups (d : Nat) (g : DieRegs → DieRegs) : (s.setDie d g).groups = s.groups := rfl
@[simp] theorem State.setDie_queues (d : Nat) (g : DieRegs → DieRegs) : (s.setDie d g).queues = s.queues := rfl
@[simp] theorem State.setDie_contexts (d : Nat) (g : DieRegs → DieRegs) : (s.setDie d g).contexts = s.contexts := rfl
@[simp] theorem State.setDie_faults (d : Nat) (g : DieRegs → DieRegs) : (s.setDie d g).faults = s.faults := rfl
@[simp] theorem State.setDie_fwFaultSeq (d : Nat) (g : DieRegs → DieRegs) : (s.setDie d g).fwFaultSeq = s.fwFaultSeq := rfl
@[simp] theorem State.setDie_peers (d : Nat) (g : DieRegs → DieRegs) : (s.setDie d g).peers = s.peers := rfl
@[simp] theorem State.setDie_streams (d : Nat) (g : DieRegs → DieRegs) : (s.setDie d g).streams = s.streams := rfl
@[simp] theorem State.setDie_regs (d : Nat) (g : DieRegs → DieRegs) : (s.setDie d g).regs = { s.regs with dies := updAt d g s.regs.dies } := rfl
@[simp] theorem State.setDie_snapDue (d : Nat) (g : DieRegs → DieRegs) : (s.setDie d g).snapDue = s.snapDue := rfl
@[simp] theorem State.setDie_dieSnap (d : Nat) (g : DieRegs → DieRegs) : (s.setDie d g).dieSnap = s.dieSnap := rfl
@[simp] theorem State.setDie_copies (d : Nat) (g : DieRegs → DieRegs) : (s.setDie d g).copies = s.copies := rfl
@[simp] theorem State.setDie_reqs (d : Nat) (g : DieRegs → DieRegs) : (s.setDie d g).reqs = s.reqs := rfl
@[simp] theorem State.setDie_acks (d : Nat) (g : DieRegs → DieRegs) : (s.setDie d g).acks = s.acks := rfl
@[simp] theorem State.setDie_posts (d : Nat) (g : DieRegs → DieRegs) : (s.setDie d g).posts = s.posts := rfl
@[simp] theorem State.setDie_homeQ (d : Nat) (g : DieRegs → DieRegs) : (s.setDie d g).homeQ = s.homeQ := rfl
@[simp] theorem State.setDie_failedPa (d : Nat) (g : DieRegs → DieRegs) : (s.setDie d g).failedPa = s.failedPa := rfl
@[simp] theorem State.setDie_uncached (d : Nat) (g : DieRegs → DieRegs) : (s.setDie d g).uncached = s.uncached := rfl
@[simp] theorem State.setDie_outbox (d : Nat) (g : DieRegs → DieRegs) : (s.setDie d g).outbox = s.outbox := rfl
@[simp] theorem State.setDie_ports (d : Nat) (g : DieRegs → DieRegs) : (s.setDie d g).ports = s.ports := rfl
@[simp] theorem State.setDie_linkSeq (d : Nat) (g : DieRegs → DieRegs) : (s.setDie d g).linkSeq = s.linkSeq := rfl
@[simp] theorem State.setDie_linkRx (d : Nat) (g : DieRegs → DieRegs) : (s.setDie d g).linkRx = s.linkRx := rfl
@[simp] theorem State.setDie_linkAsk (d : Nat) (g : DieRegs → DieRegs) : (s.setDie d g).linkAsk = s.linkAsk := rfl
@[simp] theorem State.setDie_linkTx (d : Nat) (g : DieRegs → DieRegs) : (s.setDie d g).linkTx = s.linkTx := rfl
@[simp] theorem State.setDie_linkErrors (d : Nat) (g : DieRegs → DieRegs) : (s.setDie d g).linkErrors = s.linkErrors := rfl
@[simp] theorem State.setDie_bersy (d : Nat) (g : DieRegs → DieRegs) : (s.setDie d g).bersy = s.bersy := rfl
@[simp] theorem State.setDie_interrupts (d : Nat) (g : DieRegs → DieRegs) : (s.setDie d g).interrupts = s.interrupts := rfl
@[simp] theorem State.setDie_answers (d : Nat) (g : DieRegs → DieRegs) : (s.setDie d g).answers = s.answers := rfl
@[simp] theorem State.setDie_imageSvn (d : Nat) (g : DieRegs → DieRegs) : (s.setDie d g).imageSvn = s.imageSvn := rfl
@[simp] theorem State.setDie_imageCommit (d : Nat) (g : DieRegs → DieRegs) : (s.setDie d g).imageCommit = s.imageCommit := rfl
@[simp] theorem State.setDie_flash (d : Nat) (g : DieRegs → DieRegs) : (s.setDie d g).flash = s.flash := rfl
@[simp] theorem State.setDie_image (d : Nat) (g : DieRegs → DieRegs) : (s.setDie d g).image = s.image := rfl
@[simp] theorem State.setDie_tcm (d : Nat) (g : DieRegs → DieRegs) : (s.setDie d g).tcm = s.tcm := rfl
@[simp] theorem State.setDie_journalTags (d : Nat) (g : DieRegs → DieRegs) : (s.setDie d g).journalTags = s.journalTags := rfl

/-! ### State.bump -/

@[simp] theorem State.bump_tick : (s.bump).tick = s.tick := rfl
@[simp] theorem State.bump_clk : (s.bump).clk = s.clk := rfl
@[simp] theorem State.bump_fresh : (s.bump).fresh = s.fresh := rfl
@[simp] theorem State.bump_nextId : (s.bump).nextId = s.nextId + 1 := rfl
@[simp] theorem State.bump_openMoves : (s.bump).openMoves = s.openMoves := rfl
@[simp] theorem State.bump_cur : (s.bump).cur = s.cur := rfl
@[simp] theorem State.bump_inputs : (s.bump).inputs = s.inputs := rfl
@[simp] theorem State.bump_due : (s.bump).due = s.due := rfl
@[simp] theorem State.bump_node : (s.bump).node = s.node := rfl
@[simp] theorem State.bump_mem : (s.bump).mem = s.mem := rfl
@[simp] theorem State.bump_stale : (s.bump).stale = s.stale := rfl
@[simp] theorem State.bump_poisoned : (s.bump).poisoned = s.poisoned := rfl
@[simp] theorem State.bump_correctable : (s.bump).correctable = s.correctable := rfl
@[simp] theorem State.bump_upsets : (s.bump).upsets = s.upsets := rfl
@[simp] theorem State.bump_spoiltSaves : (s.bump).spoiltSaves = s.spoiltSaves := rfl
@[simp] theorem State.bump_l1 : (s.bump).l1 = s.l1 := rfl
@[simp] theorem State.bump_l2 : (s.bump).l2 = s.l2 := rfl
@[simp] theorem State.bump_leased : (s.bump).leased = s.leased := rfl
@[simp] theorem State.bump_typed : (s.bump).typed = s.typed := rfl
@[simp] theorem State.bump_frontPts : (s.bump).frontPts = s.frontPts := rfl
@[simp] theorem State.bump_walkPts : (s.bump).walkPts = s.walkPts := rfl
@[simp] theorem State.bump_devPts : (s.bump).devPts = s.devPts := rfl
@[simp] theorem State.bump_heard : (s.bump).heard = s.heard := rfl
@[simp] theorem State.bump_brass : (s.bump).brass = s.brass := rfl
@[simp] theorem State.bump_rf : (s.bump).rf = s.rf := rfl
@[simp] theorem State.bump_opStamp : (s.bump).opStamp = s.opStamp := rfl
@[simp] theorem State.bump_opBy : (s.bump).opBy = s.opBy := rfl
@[simp] theorem State.bump_signs : (s.bump).signs = s.signs := rfl
@[simp] theorem State.bump_opLogic : (s.bump).opLogic = s.opLogic := rfl
@[simp] theorem State.bump_opSpoilt : (s.bump).opSpoilt = s.opSpoilt := rfl
@[simp] theorem State.bump_rfLate : (s.bump).rfLate = s.rfLate := rfl
@[simp] theorem State.bump_gangs : (s.bump).gangs = s.gangs := rfl
@[simp] theorem State.bump_pend : (s.bump).pend = s.pend := rfl
@[simp] theorem State.bump_cores : (s.bump).cores = s.cores := rfl
@[simp] theorem State.bump_recs : (s.bump).recs = s.recs := rfl
@[simp] theorem State.bump_waits : (s.bump).waits = s.waits := rfl
@[simp] theorem State.bump_mons : (s.bump).mons = s.mons := rfl
@[simp] theorem State.bump_pool : (s.bump).pool = s.pool := rfl
@[simp] theorem State.bump_tasks : (s.bump).tasks = s.tasks := rfl
@[simp] theorem State.bump_tlbs : (s.bump).tlbs = s.tlbs := rfl
@[simp] theorem State.bump_walks : (s.bump).walks = s.walks := rfl
@[simp] theorem State.bump_frontMarks : (s.bump).frontMarks = s.frontMarks := rfl
@[simp] theorem State.bump_walkLines : (s.bump).walkLines = s.walkLines := rfl
@[simp] theorem State.bump_wcbufs : (s.bump).wcbufs = s.wcbufs := rfl
@[simp] theorem State.bump_seeks : (s.bump).seeks = s.seeks := rfl
@[simp] theorem State.bump_ops : (s.bump).ops = s.ops := rfl
@[simp] theorem State.bump_futs : (s.bump).futs = s.futs := rfl
@[simp] theorem State.bump_launches : (s.bump).launches = s.launches := rfl
@[simp] theorem State.bump_groups : (s.bump).groups = s.groups := rfl
@[simp] theorem State.bump_queues : (s.bump).queues = s.queues := rfl
@[simp] theorem State.bump_contexts : (s.bump).contexts = s.contexts := rfl
@[simp] theorem State.bump_faults : (s.bump).faults = s.faults := rfl
@[simp] theorem State.bump_fwFaultSeq : (s.bump).fwFaultSeq = s.fwFaultSeq := rfl
@[simp] theorem State.bump_peers : (s.bump).peers = s.peers := rfl
@[simp] theorem State.bump_streams : (s.bump).streams = s.streams := rfl
@[simp] theorem State.bump_regs : (s.bump).regs = s.regs := rfl
@[simp] theorem State.bump_snapDue : (s.bump).snapDue = s.snapDue := rfl
@[simp] theorem State.bump_dieSnap : (s.bump).dieSnap = s.dieSnap := rfl
@[simp] theorem State.bump_copies : (s.bump).copies = s.copies := rfl
@[simp] theorem State.bump_reqs : (s.bump).reqs = s.reqs := rfl
@[simp] theorem State.bump_acks : (s.bump).acks = s.acks := rfl
@[simp] theorem State.bump_posts : (s.bump).posts = s.posts := rfl
@[simp] theorem State.bump_homeQ : (s.bump).homeQ = s.homeQ := rfl
@[simp] theorem State.bump_failedPa : (s.bump).failedPa = s.failedPa := rfl
@[simp] theorem State.bump_uncached : (s.bump).uncached = s.uncached := rfl
@[simp] theorem State.bump_outbox : (s.bump).outbox = s.outbox := rfl
@[simp] theorem State.bump_ports : (s.bump).ports = s.ports := rfl
@[simp] theorem State.bump_linkSeq : (s.bump).linkSeq = s.linkSeq := rfl
@[simp] theorem State.bump_linkRx : (s.bump).linkRx = s.linkRx := rfl
@[simp] theorem State.bump_linkAsk : (s.bump).linkAsk = s.linkAsk := rfl
@[simp] theorem State.bump_linkTx : (s.bump).linkTx = s.linkTx := rfl
@[simp] theorem State.bump_linkErrors : (s.bump).linkErrors = s.linkErrors := rfl
@[simp] theorem State.bump_bersy : (s.bump).bersy = s.bersy := rfl
@[simp] theorem State.bump_interrupts : (s.bump).interrupts = s.interrupts := rfl
@[simp] theorem State.bump_answers : (s.bump).answers = s.answers := rfl
@[simp] theorem State.bump_imageSvn : (s.bump).imageSvn = s.imageSvn := rfl
@[simp] theorem State.bump_imageCommit : (s.bump).imageCommit = s.imageCommit := rfl
@[simp] theorem State.bump_flash : (s.bump).flash = s.flash := rfl
@[simp] theorem State.bump_image : (s.bump).image = s.image := rfl
@[simp] theorem State.bump_tcm : (s.bump).tcm = s.tcm := rfl
@[simp] theorem State.bump_journalTags : (s.bump).journalTags = s.journalTags := rfl

/-! ### State.freshen -/

@[simp] theorem State.freshen_tick : (s.freshen).tick = s.tick := rfl
@[simp] theorem State.freshen_clk : (s.freshen).clk = s.clk := rfl
@[simp] theorem State.freshen_fresh : (s.freshen).fresh = s.fresh + 1 := rfl
@[simp] theorem State.freshen_nextId : (s.freshen).nextId = s.nextId := rfl
@[simp] theorem State.freshen_openMoves : (s.freshen).openMoves = s.openMoves := rfl
@[simp] theorem State.freshen_cur : (s.freshen).cur = s.cur := rfl
@[simp] theorem State.freshen_inputs : (s.freshen).inputs = s.inputs := rfl
@[simp] theorem State.freshen_due : (s.freshen).due = s.due := rfl
@[simp] theorem State.freshen_node : (s.freshen).node = s.node := rfl
@[simp] theorem State.freshen_mem : (s.freshen).mem = s.mem := rfl
@[simp] theorem State.freshen_stale : (s.freshen).stale = s.stale := rfl
@[simp] theorem State.freshen_poisoned : (s.freshen).poisoned = s.poisoned := rfl
@[simp] theorem State.freshen_correctable : (s.freshen).correctable = s.correctable := rfl
@[simp] theorem State.freshen_upsets : (s.freshen).upsets = s.upsets := rfl
@[simp] theorem State.freshen_spoiltSaves : (s.freshen).spoiltSaves = s.spoiltSaves := rfl
@[simp] theorem State.freshen_l1 : (s.freshen).l1 = s.l1 := rfl
@[simp] theorem State.freshen_l2 : (s.freshen).l2 = s.l2 := rfl
@[simp] theorem State.freshen_leased : (s.freshen).leased = s.leased := rfl
@[simp] theorem State.freshen_typed : (s.freshen).typed = s.typed := rfl
@[simp] theorem State.freshen_frontPts : (s.freshen).frontPts = s.frontPts := rfl
@[simp] theorem State.freshen_walkPts : (s.freshen).walkPts = s.walkPts := rfl
@[simp] theorem State.freshen_devPts : (s.freshen).devPts = s.devPts := rfl
@[simp] theorem State.freshen_heard : (s.freshen).heard = s.heard := rfl
@[simp] theorem State.freshen_brass : (s.freshen).brass = s.brass := rfl
@[simp] theorem State.freshen_rf : (s.freshen).rf = s.rf := rfl
@[simp] theorem State.freshen_opStamp : (s.freshen).opStamp = s.opStamp := rfl
@[simp] theorem State.freshen_opBy : (s.freshen).opBy = s.opBy := rfl
@[simp] theorem State.freshen_signs : (s.freshen).signs = s.signs := rfl
@[simp] theorem State.freshen_opLogic : (s.freshen).opLogic = s.opLogic := rfl
@[simp] theorem State.freshen_opSpoilt : (s.freshen).opSpoilt = s.opSpoilt := rfl
@[simp] theorem State.freshen_rfLate : (s.freshen).rfLate = s.rfLate := rfl
@[simp] theorem State.freshen_gangs : (s.freshen).gangs = s.gangs := rfl
@[simp] theorem State.freshen_pend : (s.freshen).pend = s.pend := rfl
@[simp] theorem State.freshen_cores : (s.freshen).cores = s.cores := rfl
@[simp] theorem State.freshen_recs : (s.freshen).recs = s.recs := rfl
@[simp] theorem State.freshen_waits : (s.freshen).waits = s.waits := rfl
@[simp] theorem State.freshen_mons : (s.freshen).mons = s.mons := rfl
@[simp] theorem State.freshen_pool : (s.freshen).pool = s.pool := rfl
@[simp] theorem State.freshen_tasks : (s.freshen).tasks = s.tasks := rfl
@[simp] theorem State.freshen_tlbs : (s.freshen).tlbs = s.tlbs := rfl
@[simp] theorem State.freshen_walks : (s.freshen).walks = s.walks := rfl
@[simp] theorem State.freshen_frontMarks : (s.freshen).frontMarks = s.frontMarks := rfl
@[simp] theorem State.freshen_walkLines : (s.freshen).walkLines = s.walkLines := rfl
@[simp] theorem State.freshen_wcbufs : (s.freshen).wcbufs = s.wcbufs := rfl
@[simp] theorem State.freshen_seeks : (s.freshen).seeks = s.seeks := rfl
@[simp] theorem State.freshen_ops : (s.freshen).ops = s.ops := rfl
@[simp] theorem State.freshen_futs : (s.freshen).futs = s.futs := rfl
@[simp] theorem State.freshen_launches : (s.freshen).launches = s.launches := rfl
@[simp] theorem State.freshen_groups : (s.freshen).groups = s.groups := rfl
@[simp] theorem State.freshen_queues : (s.freshen).queues = s.queues := rfl
@[simp] theorem State.freshen_contexts : (s.freshen).contexts = s.contexts := rfl
@[simp] theorem State.freshen_faults : (s.freshen).faults = s.faults := rfl
@[simp] theorem State.freshen_fwFaultSeq : (s.freshen).fwFaultSeq = s.fwFaultSeq := rfl
@[simp] theorem State.freshen_peers : (s.freshen).peers = s.peers := rfl
@[simp] theorem State.freshen_streams : (s.freshen).streams = s.streams := rfl
@[simp] theorem State.freshen_regs : (s.freshen).regs = s.regs := rfl
@[simp] theorem State.freshen_snapDue : (s.freshen).snapDue = s.snapDue := rfl
@[simp] theorem State.freshen_dieSnap : (s.freshen).dieSnap = s.dieSnap := rfl
@[simp] theorem State.freshen_copies : (s.freshen).copies = s.copies := rfl
@[simp] theorem State.freshen_reqs : (s.freshen).reqs = s.reqs := rfl
@[simp] theorem State.freshen_acks : (s.freshen).acks = s.acks := rfl
@[simp] theorem State.freshen_posts : (s.freshen).posts = s.posts := rfl
@[simp] theorem State.freshen_homeQ : (s.freshen).homeQ = s.homeQ := rfl
@[simp] theorem State.freshen_failedPa : (s.freshen).failedPa = s.failedPa := rfl
@[simp] theorem State.freshen_uncached : (s.freshen).uncached = s.uncached := rfl
@[simp] theorem State.freshen_outbox : (s.freshen).outbox = s.outbox := rfl
@[simp] theorem State.freshen_ports : (s.freshen).ports = s.ports := rfl
@[simp] theorem State.freshen_linkSeq : (s.freshen).linkSeq = s.linkSeq := rfl
@[simp] theorem State.freshen_linkRx : (s.freshen).linkRx = s.linkRx := rfl
@[simp] theorem State.freshen_linkAsk : (s.freshen).linkAsk = s.linkAsk := rfl
@[simp] theorem State.freshen_linkTx : (s.freshen).linkTx = s.linkTx := rfl
@[simp] theorem State.freshen_linkErrors : (s.freshen).linkErrors = s.linkErrors := rfl
@[simp] theorem State.freshen_bersy : (s.freshen).bersy = s.bersy := rfl
@[simp] theorem State.freshen_interrupts : (s.freshen).interrupts = s.interrupts := rfl
@[simp] theorem State.freshen_answers : (s.freshen).answers = s.answers := rfl
@[simp] theorem State.freshen_imageSvn : (s.freshen).imageSvn = s.imageSvn := rfl
@[simp] theorem State.freshen_imageCommit : (s.freshen).imageCommit = s.imageCommit := rfl
@[simp] theorem State.freshen_flash : (s.freshen).flash = s.flash := rfl
@[simp] theorem State.freshen_image : (s.freshen).image = s.image := rfl
@[simp] theorem State.freshen_tcm : (s.freshen).tcm = s.tcm := rfl
@[simp] theorem State.freshen_journalTags : (s.freshen).journalTags = s.journalTags := rfl

/-! ### State.updGang -/

@[simp] theorem State.updGang_tick (core slot : Nat) (h : Gang → Gang) : (s.updGang core slot h).tick = s.tick := rfl
@[simp] theorem State.updGang_clk (core slot : Nat) (h : Gang → Gang) : (s.updGang core slot h).clk = s.clk := rfl
@[simp] theorem State.updGang_fresh (core slot : Nat) (h : Gang → Gang) : (s.updGang core slot h).fresh = s.fresh := rfl
@[simp] theorem State.updGang_nextId (core slot : Nat) (h : Gang → Gang) : (s.updGang core slot h).nextId = s.nextId := rfl
@[simp] theorem State.updGang_openMoves (core slot : Nat) (h : Gang → Gang) : (s.updGang core slot h).openMoves = s.openMoves := rfl
@[simp] theorem State.updGang_cur (core slot : Nat) (h : Gang → Gang) : (s.updGang core slot h).cur = s.cur := rfl
@[simp] theorem State.updGang_inputs (core slot : Nat) (h : Gang → Gang) : (s.updGang core slot h).inputs = s.inputs := rfl
@[simp] theorem State.updGang_due (core slot : Nat) (h : Gang → Gang) : (s.updGang core slot h).due = s.due := rfl
@[simp] theorem State.updGang_node (core slot : Nat) (h : Gang → Gang) : (s.updGang core slot h).node = s.node := rfl
@[simp] theorem State.updGang_mem (core slot : Nat) (h : Gang → Gang) : (s.updGang core slot h).mem = s.mem := rfl
@[simp] theorem State.updGang_stale (core slot : Nat) (h : Gang → Gang) : (s.updGang core slot h).stale = s.stale := rfl
@[simp] theorem State.updGang_poisoned (core slot : Nat) (h : Gang → Gang) : (s.updGang core slot h).poisoned = s.poisoned := rfl
@[simp] theorem State.updGang_correctable (core slot : Nat) (h : Gang → Gang) : (s.updGang core slot h).correctable = s.correctable := rfl
@[simp] theorem State.updGang_upsets (core slot : Nat) (h : Gang → Gang) : (s.updGang core slot h).upsets = s.upsets := rfl
@[simp] theorem State.updGang_spoiltSaves (core slot : Nat) (h : Gang → Gang) : (s.updGang core slot h).spoiltSaves = s.spoiltSaves := rfl
@[simp] theorem State.updGang_l1 (core slot : Nat) (h : Gang → Gang) : (s.updGang core slot h).l1 = s.l1 := rfl
@[simp] theorem State.updGang_l2 (core slot : Nat) (h : Gang → Gang) : (s.updGang core slot h).l2 = s.l2 := rfl
@[simp] theorem State.updGang_leased (core slot : Nat) (h : Gang → Gang) : (s.updGang core slot h).leased = s.leased := rfl
@[simp] theorem State.updGang_typed (core slot : Nat) (h : Gang → Gang) : (s.updGang core slot h).typed = s.typed := rfl
@[simp] theorem State.updGang_frontPts (core slot : Nat) (h : Gang → Gang) : (s.updGang core slot h).frontPts = s.frontPts := rfl
@[simp] theorem State.updGang_walkPts (core slot : Nat) (h : Gang → Gang) : (s.updGang core slot h).walkPts = s.walkPts := rfl
@[simp] theorem State.updGang_devPts (core slot : Nat) (h : Gang → Gang) : (s.updGang core slot h).devPts = s.devPts := rfl
@[simp] theorem State.updGang_heard (core slot : Nat) (h : Gang → Gang) : (s.updGang core slot h).heard = s.heard := rfl
@[simp] theorem State.updGang_brass (core slot : Nat) (h : Gang → Gang) : (s.updGang core slot h).brass = s.brass := rfl
@[simp] theorem State.updGang_rf (core slot : Nat) (h : Gang → Gang) : (s.updGang core slot h).rf = s.rf := rfl
@[simp] theorem State.updGang_opStamp (core slot : Nat) (h : Gang → Gang) : (s.updGang core slot h).opStamp = s.opStamp := rfl
@[simp] theorem State.updGang_opBy (core slot : Nat) (h : Gang → Gang) : (s.updGang core slot h).opBy = s.opBy := rfl
@[simp] theorem State.updGang_signs (core slot : Nat) (h : Gang → Gang) : (s.updGang core slot h).signs = s.signs := rfl
@[simp] theorem State.updGang_opLogic (core slot : Nat) (h : Gang → Gang) : (s.updGang core slot h).opLogic = s.opLogic := rfl
@[simp] theorem State.updGang_opSpoilt (core slot : Nat) (h : Gang → Gang) : (s.updGang core slot h).opSpoilt = s.opSpoilt := rfl
@[simp] theorem State.updGang_rfLate (core slot : Nat) (h : Gang → Gang) : (s.updGang core slot h).rfLate = s.rfLate := rfl
@[simp] theorem State.updGang_gangs (core slot : Nat) (h : Gang → Gang) : (s.updGang core slot h).gangs = updWhere (fun g => g.core == core && g.slot == slot) h s.gangs := rfl
@[simp] theorem State.updGang_pend (core slot : Nat) (h : Gang → Gang) : (s.updGang core slot h).pend = s.pend := rfl
@[simp] theorem State.updGang_cores (core slot : Nat) (h : Gang → Gang) : (s.updGang core slot h).cores = s.cores := rfl
@[simp] theorem State.updGang_recs (core slot : Nat) (h : Gang → Gang) : (s.updGang core slot h).recs = s.recs := rfl
@[simp] theorem State.updGang_waits (core slot : Nat) (h : Gang → Gang) : (s.updGang core slot h).waits = s.waits := rfl
@[simp] theorem State.updGang_mons (core slot : Nat) (h : Gang → Gang) : (s.updGang core slot h).mons = s.mons := rfl
@[simp] theorem State.updGang_pool (core slot : Nat) (h : Gang → Gang) : (s.updGang core slot h).pool = s.pool := rfl
@[simp] theorem State.updGang_tasks (core slot : Nat) (h : Gang → Gang) : (s.updGang core slot h).tasks = s.tasks := rfl
@[simp] theorem State.updGang_tlbs (core slot : Nat) (h : Gang → Gang) : (s.updGang core slot h).tlbs = s.tlbs := rfl
@[simp] theorem State.updGang_walks (core slot : Nat) (h : Gang → Gang) : (s.updGang core slot h).walks = s.walks := rfl
@[simp] theorem State.updGang_frontMarks (core slot : Nat) (h : Gang → Gang) : (s.updGang core slot h).frontMarks = s.frontMarks := rfl
@[simp] theorem State.updGang_walkLines (core slot : Nat) (h : Gang → Gang) : (s.updGang core slot h).walkLines = s.walkLines := rfl
@[simp] theorem State.updGang_wcbufs (core slot : Nat) (h : Gang → Gang) : (s.updGang core slot h).wcbufs = s.wcbufs := rfl
@[simp] theorem State.updGang_seeks (core slot : Nat) (h : Gang → Gang) : (s.updGang core slot h).seeks = s.seeks := rfl
@[simp] theorem State.updGang_ops (core slot : Nat) (h : Gang → Gang) : (s.updGang core slot h).ops = s.ops := rfl
@[simp] theorem State.updGang_futs (core slot : Nat) (h : Gang → Gang) : (s.updGang core slot h).futs = s.futs := rfl
@[simp] theorem State.updGang_launches (core slot : Nat) (h : Gang → Gang) : (s.updGang core slot h).launches = s.launches := rfl
@[simp] theorem State.updGang_groups (core slot : Nat) (h : Gang → Gang) : (s.updGang core slot h).groups = s.groups := rfl
@[simp] theorem State.updGang_queues (core slot : Nat) (h : Gang → Gang) : (s.updGang core slot h).queues = s.queues := rfl
@[simp] theorem State.updGang_contexts (core slot : Nat) (h : Gang → Gang) : (s.updGang core slot h).contexts = s.contexts := rfl
@[simp] theorem State.updGang_faults (core slot : Nat) (h : Gang → Gang) : (s.updGang core slot h).faults = s.faults := rfl
@[simp] theorem State.updGang_fwFaultSeq (core slot : Nat) (h : Gang → Gang) : (s.updGang core slot h).fwFaultSeq = s.fwFaultSeq := rfl
@[simp] theorem State.updGang_peers (core slot : Nat) (h : Gang → Gang) : (s.updGang core slot h).peers = s.peers := rfl
@[simp] theorem State.updGang_streams (core slot : Nat) (h : Gang → Gang) : (s.updGang core slot h).streams = s.streams := rfl
@[simp] theorem State.updGang_regs (core slot : Nat) (h : Gang → Gang) : (s.updGang core slot h).regs = s.regs := rfl
@[simp] theorem State.updGang_snapDue (core slot : Nat) (h : Gang → Gang) : (s.updGang core slot h).snapDue = s.snapDue := rfl
@[simp] theorem State.updGang_dieSnap (core slot : Nat) (h : Gang → Gang) : (s.updGang core slot h).dieSnap = s.dieSnap := rfl
@[simp] theorem State.updGang_copies (core slot : Nat) (h : Gang → Gang) : (s.updGang core slot h).copies = s.copies := rfl
@[simp] theorem State.updGang_reqs (core slot : Nat) (h : Gang → Gang) : (s.updGang core slot h).reqs = s.reqs := rfl
@[simp] theorem State.updGang_acks (core slot : Nat) (h : Gang → Gang) : (s.updGang core slot h).acks = s.acks := rfl
@[simp] theorem State.updGang_posts (core slot : Nat) (h : Gang → Gang) : (s.updGang core slot h).posts = s.posts := rfl
@[simp] theorem State.updGang_homeQ (core slot : Nat) (h : Gang → Gang) : (s.updGang core slot h).homeQ = s.homeQ := rfl
@[simp] theorem State.updGang_failedPa (core slot : Nat) (h : Gang → Gang) : (s.updGang core slot h).failedPa = s.failedPa := rfl
@[simp] theorem State.updGang_uncached (core slot : Nat) (h : Gang → Gang) : (s.updGang core slot h).uncached = s.uncached := rfl
@[simp] theorem State.updGang_outbox (core slot : Nat) (h : Gang → Gang) : (s.updGang core slot h).outbox = s.outbox := rfl
@[simp] theorem State.updGang_ports (core slot : Nat) (h : Gang → Gang) : (s.updGang core slot h).ports = s.ports := rfl
@[simp] theorem State.updGang_linkSeq (core slot : Nat) (h : Gang → Gang) : (s.updGang core slot h).linkSeq = s.linkSeq := rfl
@[simp] theorem State.updGang_linkRx (core slot : Nat) (h : Gang → Gang) : (s.updGang core slot h).linkRx = s.linkRx := rfl
@[simp] theorem State.updGang_linkAsk (core slot : Nat) (h : Gang → Gang) : (s.updGang core slot h).linkAsk = s.linkAsk := rfl
@[simp] theorem State.updGang_linkTx (core slot : Nat) (h : Gang → Gang) : (s.updGang core slot h).linkTx = s.linkTx := rfl
@[simp] theorem State.updGang_linkErrors (core slot : Nat) (h : Gang → Gang) : (s.updGang core slot h).linkErrors = s.linkErrors := rfl
@[simp] theorem State.updGang_bersy (core slot : Nat) (h : Gang → Gang) : (s.updGang core slot h).bersy = s.bersy := rfl
@[simp] theorem State.updGang_interrupts (core slot : Nat) (h : Gang → Gang) : (s.updGang core slot h).interrupts = s.interrupts := rfl
@[simp] theorem State.updGang_answers (core slot : Nat) (h : Gang → Gang) : (s.updGang core slot h).answers = s.answers := rfl
@[simp] theorem State.updGang_imageSvn (core slot : Nat) (h : Gang → Gang) : (s.updGang core slot h).imageSvn = s.imageSvn := rfl
@[simp] theorem State.updGang_imageCommit (core slot : Nat) (h : Gang → Gang) : (s.updGang core slot h).imageCommit = s.imageCommit := rfl
@[simp] theorem State.updGang_flash (core slot : Nat) (h : Gang → Gang) : (s.updGang core slot h).flash = s.flash := rfl
@[simp] theorem State.updGang_image (core slot : Nat) (h : Gang → Gang) : (s.updGang core slot h).image = s.image := rfl
@[simp] theorem State.updGang_tcm (core slot : Nat) (h : Gang → Gang) : (s.updGang core slot h).tcm = s.tcm := rfl
@[simp] theorem State.updGang_journalTags (core slot : Nat) (h : Gang → Gang) : (s.updGang core slot h).journalTags = s.journalTags := rfl

/-! ### State.updSlice -/

@[simp] theorem State.updSlice_tick (core slot pos : Nat) (h : Slice → Slice) : (s.updSlice core slot pos h).tick = s.tick := rfl
@[simp] theorem State.updSlice_clk (core slot pos : Nat) (h : Slice → Slice) : (s.updSlice core slot pos h).clk = s.clk := rfl
@[simp] theorem State.updSlice_fresh (core slot pos : Nat) (h : Slice → Slice) : (s.updSlice core slot pos h).fresh = s.fresh := rfl
@[simp] theorem State.updSlice_nextId (core slot pos : Nat) (h : Slice → Slice) : (s.updSlice core slot pos h).nextId = s.nextId := rfl
@[simp] theorem State.updSlice_openMoves (core slot pos : Nat) (h : Slice → Slice) : (s.updSlice core slot pos h).openMoves = s.openMoves := rfl
@[simp] theorem State.updSlice_cur (core slot pos : Nat) (h : Slice → Slice) : (s.updSlice core slot pos h).cur = s.cur := rfl
@[simp] theorem State.updSlice_inputs (core slot pos : Nat) (h : Slice → Slice) : (s.updSlice core slot pos h).inputs = s.inputs := rfl
@[simp] theorem State.updSlice_due (core slot pos : Nat) (h : Slice → Slice) : (s.updSlice core slot pos h).due = s.due := rfl
@[simp] theorem State.updSlice_node (core slot pos : Nat) (h : Slice → Slice) : (s.updSlice core slot pos h).node = s.node := rfl
@[simp] theorem State.updSlice_mem (core slot pos : Nat) (h : Slice → Slice) : (s.updSlice core slot pos h).mem = s.mem := rfl
@[simp] theorem State.updSlice_stale (core slot pos : Nat) (h : Slice → Slice) : (s.updSlice core slot pos h).stale = s.stale := rfl
@[simp] theorem State.updSlice_poisoned (core slot pos : Nat) (h : Slice → Slice) : (s.updSlice core slot pos h).poisoned = s.poisoned := rfl
@[simp] theorem State.updSlice_correctable (core slot pos : Nat) (h : Slice → Slice) : (s.updSlice core slot pos h).correctable = s.correctable := rfl
@[simp] theorem State.updSlice_upsets (core slot pos : Nat) (h : Slice → Slice) : (s.updSlice core slot pos h).upsets = s.upsets := rfl
@[simp] theorem State.updSlice_spoiltSaves (core slot pos : Nat) (h : Slice → Slice) : (s.updSlice core slot pos h).spoiltSaves = s.spoiltSaves := rfl
@[simp] theorem State.updSlice_l1 (core slot pos : Nat) (h : Slice → Slice) : (s.updSlice core slot pos h).l1 = s.l1 := rfl
@[simp] theorem State.updSlice_l2 (core slot pos : Nat) (h : Slice → Slice) : (s.updSlice core slot pos h).l2 = s.l2 := rfl
@[simp] theorem State.updSlice_leased (core slot pos : Nat) (h : Slice → Slice) : (s.updSlice core slot pos h).leased = s.leased := rfl
@[simp] theorem State.updSlice_typed (core slot pos : Nat) (h : Slice → Slice) : (s.updSlice core slot pos h).typed = s.typed := rfl
@[simp] theorem State.updSlice_frontPts (core slot pos : Nat) (h : Slice → Slice) : (s.updSlice core slot pos h).frontPts = s.frontPts := rfl
@[simp] theorem State.updSlice_walkPts (core slot pos : Nat) (h : Slice → Slice) : (s.updSlice core slot pos h).walkPts = s.walkPts := rfl
@[simp] theorem State.updSlice_devPts (core slot pos : Nat) (h : Slice → Slice) : (s.updSlice core slot pos h).devPts = s.devPts := rfl
@[simp] theorem State.updSlice_heard (core slot pos : Nat) (h : Slice → Slice) : (s.updSlice core slot pos h).heard = s.heard := rfl
@[simp] theorem State.updSlice_brass (core slot pos : Nat) (h : Slice → Slice) : (s.updSlice core slot pos h).brass = s.brass := rfl
@[simp] theorem State.updSlice_rf (core slot pos : Nat) (h : Slice → Slice) : (s.updSlice core slot pos h).rf = s.rf := rfl
@[simp] theorem State.updSlice_opStamp (core slot pos : Nat) (h : Slice → Slice) : (s.updSlice core slot pos h).opStamp = s.opStamp := rfl
@[simp] theorem State.updSlice_opBy (core slot pos : Nat) (h : Slice → Slice) : (s.updSlice core slot pos h).opBy = s.opBy := rfl
@[simp] theorem State.updSlice_signs (core slot pos : Nat) (h : Slice → Slice) : (s.updSlice core slot pos h).signs = s.signs := rfl
@[simp] theorem State.updSlice_opLogic (core slot pos : Nat) (h : Slice → Slice) : (s.updSlice core slot pos h).opLogic = s.opLogic := rfl
@[simp] theorem State.updSlice_opSpoilt (core slot pos : Nat) (h : Slice → Slice) : (s.updSlice core slot pos h).opSpoilt = s.opSpoilt := rfl
@[simp] theorem State.updSlice_rfLate (core slot pos : Nat) (h : Slice → Slice) : (s.updSlice core slot pos h).rfLate = s.rfLate := rfl
@[simp] theorem State.updSlice_gangs (core slot pos : Nat) (h : Slice → Slice) : (s.updSlice core slot pos h).gangs = updWhere (fun g => g.core == core && g.slot == slot) (fun g => g.updSlice pos h) s.gangs := rfl
@[simp] theorem State.updSlice_pend (core slot pos : Nat) (h : Slice → Slice) : (s.updSlice core slot pos h).pend = s.pend := rfl
@[simp] theorem State.updSlice_cores (core slot pos : Nat) (h : Slice → Slice) : (s.updSlice core slot pos h).cores = s.cores := rfl
@[simp] theorem State.updSlice_recs (core slot pos : Nat) (h : Slice → Slice) : (s.updSlice core slot pos h).recs = s.recs := rfl
@[simp] theorem State.updSlice_waits (core slot pos : Nat) (h : Slice → Slice) : (s.updSlice core slot pos h).waits = s.waits := rfl
@[simp] theorem State.updSlice_mons (core slot pos : Nat) (h : Slice → Slice) : (s.updSlice core slot pos h).mons = s.mons := rfl
@[simp] theorem State.updSlice_pool (core slot pos : Nat) (h : Slice → Slice) : (s.updSlice core slot pos h).pool = s.pool := rfl
@[simp] theorem State.updSlice_tasks (core slot pos : Nat) (h : Slice → Slice) : (s.updSlice core slot pos h).tasks = s.tasks := rfl
@[simp] theorem State.updSlice_tlbs (core slot pos : Nat) (h : Slice → Slice) : (s.updSlice core slot pos h).tlbs = s.tlbs := rfl
@[simp] theorem State.updSlice_walks (core slot pos : Nat) (h : Slice → Slice) : (s.updSlice core slot pos h).walks = s.walks := rfl
@[simp] theorem State.updSlice_frontMarks (core slot pos : Nat) (h : Slice → Slice) : (s.updSlice core slot pos h).frontMarks = s.frontMarks := rfl
@[simp] theorem State.updSlice_walkLines (core slot pos : Nat) (h : Slice → Slice) : (s.updSlice core slot pos h).walkLines = s.walkLines := rfl
@[simp] theorem State.updSlice_wcbufs (core slot pos : Nat) (h : Slice → Slice) : (s.updSlice core slot pos h).wcbufs = s.wcbufs := rfl
@[simp] theorem State.updSlice_seeks (core slot pos : Nat) (h : Slice → Slice) : (s.updSlice core slot pos h).seeks = s.seeks := rfl
@[simp] theorem State.updSlice_ops (core slot pos : Nat) (h : Slice → Slice) : (s.updSlice core slot pos h).ops = s.ops := rfl
@[simp] theorem State.updSlice_futs (core slot pos : Nat) (h : Slice → Slice) : (s.updSlice core slot pos h).futs = s.futs := rfl
@[simp] theorem State.updSlice_launches (core slot pos : Nat) (h : Slice → Slice) : (s.updSlice core slot pos h).launches = s.launches := rfl
@[simp] theorem State.updSlice_groups (core slot pos : Nat) (h : Slice → Slice) : (s.updSlice core slot pos h).groups = s.groups := rfl
@[simp] theorem State.updSlice_queues (core slot pos : Nat) (h : Slice → Slice) : (s.updSlice core slot pos h).queues = s.queues := rfl
@[simp] theorem State.updSlice_contexts (core slot pos : Nat) (h : Slice → Slice) : (s.updSlice core slot pos h).contexts = s.contexts := rfl
@[simp] theorem State.updSlice_faults (core slot pos : Nat) (h : Slice → Slice) : (s.updSlice core slot pos h).faults = s.faults := rfl
@[simp] theorem State.updSlice_fwFaultSeq (core slot pos : Nat) (h : Slice → Slice) : (s.updSlice core slot pos h).fwFaultSeq = s.fwFaultSeq := rfl
@[simp] theorem State.updSlice_peers (core slot pos : Nat) (h : Slice → Slice) : (s.updSlice core slot pos h).peers = s.peers := rfl
@[simp] theorem State.updSlice_streams (core slot pos : Nat) (h : Slice → Slice) : (s.updSlice core slot pos h).streams = s.streams := rfl
@[simp] theorem State.updSlice_regs (core slot pos : Nat) (h : Slice → Slice) : (s.updSlice core slot pos h).regs = s.regs := rfl
@[simp] theorem State.updSlice_snapDue (core slot pos : Nat) (h : Slice → Slice) : (s.updSlice core slot pos h).snapDue = s.snapDue := rfl
@[simp] theorem State.updSlice_dieSnap (core slot pos : Nat) (h : Slice → Slice) : (s.updSlice core slot pos h).dieSnap = s.dieSnap := rfl
@[simp] theorem State.updSlice_copies (core slot pos : Nat) (h : Slice → Slice) : (s.updSlice core slot pos h).copies = s.copies := rfl
@[simp] theorem State.updSlice_reqs (core slot pos : Nat) (h : Slice → Slice) : (s.updSlice core slot pos h).reqs = s.reqs := rfl
@[simp] theorem State.updSlice_acks (core slot pos : Nat) (h : Slice → Slice) : (s.updSlice core slot pos h).acks = s.acks := rfl
@[simp] theorem State.updSlice_posts (core slot pos : Nat) (h : Slice → Slice) : (s.updSlice core slot pos h).posts = s.posts := rfl
@[simp] theorem State.updSlice_homeQ (core slot pos : Nat) (h : Slice → Slice) : (s.updSlice core slot pos h).homeQ = s.homeQ := rfl
@[simp] theorem State.updSlice_failedPa (core slot pos : Nat) (h : Slice → Slice) : (s.updSlice core slot pos h).failedPa = s.failedPa := rfl
@[simp] theorem State.updSlice_uncached (core slot pos : Nat) (h : Slice → Slice) : (s.updSlice core slot pos h).uncached = s.uncached := rfl
@[simp] theorem State.updSlice_outbox (core slot pos : Nat) (h : Slice → Slice) : (s.updSlice core slot pos h).outbox = s.outbox := rfl
@[simp] theorem State.updSlice_ports (core slot pos : Nat) (h : Slice → Slice) : (s.updSlice core slot pos h).ports = s.ports := rfl
@[simp] theorem State.updSlice_linkSeq (core slot pos : Nat) (h : Slice → Slice) : (s.updSlice core slot pos h).linkSeq = s.linkSeq := rfl
@[simp] theorem State.updSlice_linkRx (core slot pos : Nat) (h : Slice → Slice) : (s.updSlice core slot pos h).linkRx = s.linkRx := rfl
@[simp] theorem State.updSlice_linkAsk (core slot pos : Nat) (h : Slice → Slice) : (s.updSlice core slot pos h).linkAsk = s.linkAsk := rfl
@[simp] theorem State.updSlice_linkTx (core slot pos : Nat) (h : Slice → Slice) : (s.updSlice core slot pos h).linkTx = s.linkTx := rfl
@[simp] theorem State.updSlice_linkErrors (core slot pos : Nat) (h : Slice → Slice) : (s.updSlice core slot pos h).linkErrors = s.linkErrors := rfl
@[simp] theorem State.updSlice_bersy (core slot pos : Nat) (h : Slice → Slice) : (s.updSlice core slot pos h).bersy = s.bersy := rfl
@[simp] theorem State.updSlice_interrupts (core slot pos : Nat) (h : Slice → Slice) : (s.updSlice core slot pos h).interrupts = s.interrupts := rfl
@[simp] theorem State.updSlice_answers (core slot pos : Nat) (h : Slice → Slice) : (s.updSlice core slot pos h).answers = s.answers := rfl
@[simp] theorem State.updSlice_imageSvn (core slot pos : Nat) (h : Slice → Slice) : (s.updSlice core slot pos h).imageSvn = s.imageSvn := rfl
@[simp] theorem State.updSlice_imageCommit (core slot pos : Nat) (h : Slice → Slice) : (s.updSlice core slot pos h).imageCommit = s.imageCommit := rfl
@[simp] theorem State.updSlice_flash (core slot pos : Nat) (h : Slice → Slice) : (s.updSlice core slot pos h).flash = s.flash := rfl
@[simp] theorem State.updSlice_image (core slot pos : Nat) (h : Slice → Slice) : (s.updSlice core slot pos h).image = s.image := rfl
@[simp] theorem State.updSlice_tcm (core slot pos : Nat) (h : Slice → Slice) : (s.updSlice core slot pos h).tcm = s.tcm := rfl
@[simp] theorem State.updSlice_journalTags (core slot pos : Nat) (h : Slice → Slice) : (s.updSlice core slot pos h).journalTags = s.journalTags := rfl

/-! ### State.updLane -/

@[simp] theorem State.updLane_tick (core slot pos l : Nat) (h : Lane → Lane) : (s.updLane core slot pos l h).tick = s.tick := rfl
@[simp] theorem State.updLane_clk (core slot pos l : Nat) (h : Lane → Lane) : (s.updLane core slot pos l h).clk = s.clk := rfl
@[simp] theorem State.updLane_fresh (core slot pos l : Nat) (h : Lane → Lane) : (s.updLane core slot pos l h).fresh = s.fresh := rfl
@[simp] theorem State.updLane_nextId (core slot pos l : Nat) (h : Lane → Lane) : (s.updLane core slot pos l h).nextId = s.nextId := rfl
@[simp] theorem State.updLane_openMoves (core slot pos l : Nat) (h : Lane → Lane) : (s.updLane core slot pos l h).openMoves = s.openMoves := rfl
@[simp] theorem State.updLane_cur (core slot pos l : Nat) (h : Lane → Lane) : (s.updLane core slot pos l h).cur = s.cur := rfl
@[simp] theorem State.updLane_inputs (core slot pos l : Nat) (h : Lane → Lane) : (s.updLane core slot pos l h).inputs = s.inputs := rfl
@[simp] theorem State.updLane_due (core slot pos l : Nat) (h : Lane → Lane) : (s.updLane core slot pos l h).due = s.due := rfl
@[simp] theorem State.updLane_node (core slot pos l : Nat) (h : Lane → Lane) : (s.updLane core slot pos l h).node = s.node := rfl
@[simp] theorem State.updLane_mem (core slot pos l : Nat) (h : Lane → Lane) : (s.updLane core slot pos l h).mem = s.mem := rfl
@[simp] theorem State.updLane_stale (core slot pos l : Nat) (h : Lane → Lane) : (s.updLane core slot pos l h).stale = s.stale := rfl
@[simp] theorem State.updLane_poisoned (core slot pos l : Nat) (h : Lane → Lane) : (s.updLane core slot pos l h).poisoned = s.poisoned := rfl
@[simp] theorem State.updLane_correctable (core slot pos l : Nat) (h : Lane → Lane) : (s.updLane core slot pos l h).correctable = s.correctable := rfl
@[simp] theorem State.updLane_upsets (core slot pos l : Nat) (h : Lane → Lane) : (s.updLane core slot pos l h).upsets = s.upsets := rfl
@[simp] theorem State.updLane_spoiltSaves (core slot pos l : Nat) (h : Lane → Lane) : (s.updLane core slot pos l h).spoiltSaves = s.spoiltSaves := rfl
@[simp] theorem State.updLane_l1 (core slot pos l : Nat) (h : Lane → Lane) : (s.updLane core slot pos l h).l1 = s.l1 := rfl
@[simp] theorem State.updLane_l2 (core slot pos l : Nat) (h : Lane → Lane) : (s.updLane core slot pos l h).l2 = s.l2 := rfl
@[simp] theorem State.updLane_leased (core slot pos l : Nat) (h : Lane → Lane) : (s.updLane core slot pos l h).leased = s.leased := rfl
@[simp] theorem State.updLane_typed (core slot pos l : Nat) (h : Lane → Lane) : (s.updLane core slot pos l h).typed = s.typed := rfl
@[simp] theorem State.updLane_frontPts (core slot pos l : Nat) (h : Lane → Lane) : (s.updLane core slot pos l h).frontPts = s.frontPts := rfl
@[simp] theorem State.updLane_walkPts (core slot pos l : Nat) (h : Lane → Lane) : (s.updLane core slot pos l h).walkPts = s.walkPts := rfl
@[simp] theorem State.updLane_devPts (core slot pos l : Nat) (h : Lane → Lane) : (s.updLane core slot pos l h).devPts = s.devPts := rfl
@[simp] theorem State.updLane_heard (core slot pos l : Nat) (h : Lane → Lane) : (s.updLane core slot pos l h).heard = s.heard := rfl
@[simp] theorem State.updLane_brass (core slot pos l : Nat) (h : Lane → Lane) : (s.updLane core slot pos l h).brass = s.brass := rfl
@[simp] theorem State.updLane_rf (core slot pos l : Nat) (h : Lane → Lane) : (s.updLane core slot pos l h).rf = s.rf := rfl
@[simp] theorem State.updLane_opStamp (core slot pos l : Nat) (h : Lane → Lane) : (s.updLane core slot pos l h).opStamp = s.opStamp := rfl
@[simp] theorem State.updLane_opBy (core slot pos l : Nat) (h : Lane → Lane) : (s.updLane core slot pos l h).opBy = s.opBy := rfl
@[simp] theorem State.updLane_signs (core slot pos l : Nat) (h : Lane → Lane) : (s.updLane core slot pos l h).signs = s.signs := rfl
@[simp] theorem State.updLane_opLogic (core slot pos l : Nat) (h : Lane → Lane) : (s.updLane core slot pos l h).opLogic = s.opLogic := rfl
@[simp] theorem State.updLane_opSpoilt (core slot pos l : Nat) (h : Lane → Lane) : (s.updLane core slot pos l h).opSpoilt = s.opSpoilt := rfl
@[simp] theorem State.updLane_rfLate (core slot pos l : Nat) (h : Lane → Lane) : (s.updLane core slot pos l h).rfLate = s.rfLate := rfl
@[simp] theorem State.updLane_gangs (core slot pos l : Nat) (h : Lane → Lane) : (s.updLane core slot pos l h).gangs = updWhere (fun g => g.core == core && g.slot == slot) (fun g => g.updSlice pos fun x => x.updLane l h) s.gangs := rfl
@[simp] theorem State.updLane_pend (core slot pos l : Nat) (h : Lane → Lane) : (s.updLane core slot pos l h).pend = s.pend := rfl
@[simp] theorem State.updLane_cores (core slot pos l : Nat) (h : Lane → Lane) : (s.updLane core slot pos l h).cores = s.cores := rfl
@[simp] theorem State.updLane_recs (core slot pos l : Nat) (h : Lane → Lane) : (s.updLane core slot pos l h).recs = s.recs := rfl
@[simp] theorem State.updLane_waits (core slot pos l : Nat) (h : Lane → Lane) : (s.updLane core slot pos l h).waits = s.waits := rfl
@[simp] theorem State.updLane_mons (core slot pos l : Nat) (h : Lane → Lane) : (s.updLane core slot pos l h).mons = s.mons := rfl
@[simp] theorem State.updLane_pool (core slot pos l : Nat) (h : Lane → Lane) : (s.updLane core slot pos l h).pool = s.pool := rfl
@[simp] theorem State.updLane_tasks (core slot pos l : Nat) (h : Lane → Lane) : (s.updLane core slot pos l h).tasks = s.tasks := rfl
@[simp] theorem State.updLane_tlbs (core slot pos l : Nat) (h : Lane → Lane) : (s.updLane core slot pos l h).tlbs = s.tlbs := rfl
@[simp] theorem State.updLane_walks (core slot pos l : Nat) (h : Lane → Lane) : (s.updLane core slot pos l h).walks = s.walks := rfl
@[simp] theorem State.updLane_frontMarks (core slot pos l : Nat) (h : Lane → Lane) : (s.updLane core slot pos l h).frontMarks = s.frontMarks := rfl
@[simp] theorem State.updLane_walkLines (core slot pos l : Nat) (h : Lane → Lane) : (s.updLane core slot pos l h).walkLines = s.walkLines := rfl
@[simp] theorem State.updLane_wcbufs (core slot pos l : Nat) (h : Lane → Lane) : (s.updLane core slot pos l h).wcbufs = s.wcbufs := rfl
@[simp] theorem State.updLane_seeks (core slot pos l : Nat) (h : Lane → Lane) : (s.updLane core slot pos l h).seeks = s.seeks := rfl
@[simp] theorem State.updLane_ops (core slot pos l : Nat) (h : Lane → Lane) : (s.updLane core slot pos l h).ops = s.ops := rfl
@[simp] theorem State.updLane_futs (core slot pos l : Nat) (h : Lane → Lane) : (s.updLane core slot pos l h).futs = s.futs := rfl
@[simp] theorem State.updLane_launches (core slot pos l : Nat) (h : Lane → Lane) : (s.updLane core slot pos l h).launches = s.launches := rfl
@[simp] theorem State.updLane_groups (core slot pos l : Nat) (h : Lane → Lane) : (s.updLane core slot pos l h).groups = s.groups := rfl
@[simp] theorem State.updLane_queues (core slot pos l : Nat) (h : Lane → Lane) : (s.updLane core slot pos l h).queues = s.queues := rfl
@[simp] theorem State.updLane_contexts (core slot pos l : Nat) (h : Lane → Lane) : (s.updLane core slot pos l h).contexts = s.contexts := rfl
@[simp] theorem State.updLane_faults (core slot pos l : Nat) (h : Lane → Lane) : (s.updLane core slot pos l h).faults = s.faults := rfl
@[simp] theorem State.updLane_fwFaultSeq (core slot pos l : Nat) (h : Lane → Lane) : (s.updLane core slot pos l h).fwFaultSeq = s.fwFaultSeq := rfl
@[simp] theorem State.updLane_peers (core slot pos l : Nat) (h : Lane → Lane) : (s.updLane core slot pos l h).peers = s.peers := rfl
@[simp] theorem State.updLane_streams (core slot pos l : Nat) (h : Lane → Lane) : (s.updLane core slot pos l h).streams = s.streams := rfl
@[simp] theorem State.updLane_regs (core slot pos l : Nat) (h : Lane → Lane) : (s.updLane core slot pos l h).regs = s.regs := rfl
@[simp] theorem State.updLane_snapDue (core slot pos l : Nat) (h : Lane → Lane) : (s.updLane core slot pos l h).snapDue = s.snapDue := rfl
@[simp] theorem State.updLane_dieSnap (core slot pos l : Nat) (h : Lane → Lane) : (s.updLane core slot pos l h).dieSnap = s.dieSnap := rfl
@[simp] theorem State.updLane_copies (core slot pos l : Nat) (h : Lane → Lane) : (s.updLane core slot pos l h).copies = s.copies := rfl
@[simp] theorem State.updLane_reqs (core slot pos l : Nat) (h : Lane → Lane) : (s.updLane core slot pos l h).reqs = s.reqs := rfl
@[simp] theorem State.updLane_acks (core slot pos l : Nat) (h : Lane → Lane) : (s.updLane core slot pos l h).acks = s.acks := rfl
@[simp] theorem State.updLane_posts (core slot pos l : Nat) (h : Lane → Lane) : (s.updLane core slot pos l h).posts = s.posts := rfl
@[simp] theorem State.updLane_homeQ (core slot pos l : Nat) (h : Lane → Lane) : (s.updLane core slot pos l h).homeQ = s.homeQ := rfl
@[simp] theorem State.updLane_failedPa (core slot pos l : Nat) (h : Lane → Lane) : (s.updLane core slot pos l h).failedPa = s.failedPa := rfl
@[simp] theorem State.updLane_uncached (core slot pos l : Nat) (h : Lane → Lane) : (s.updLane core slot pos l h).uncached = s.uncached := rfl
@[simp] theorem State.updLane_outbox (core slot pos l : Nat) (h : Lane → Lane) : (s.updLane core slot pos l h).outbox = s.outbox := rfl
@[simp] theorem State.updLane_ports (core slot pos l : Nat) (h : Lane → Lane) : (s.updLane core slot pos l h).ports = s.ports := rfl
@[simp] theorem State.updLane_linkSeq (core slot pos l : Nat) (h : Lane → Lane) : (s.updLane core slot pos l h).linkSeq = s.linkSeq := rfl
@[simp] theorem State.updLane_linkRx (core slot pos l : Nat) (h : Lane → Lane) : (s.updLane core slot pos l h).linkRx = s.linkRx := rfl
@[simp] theorem State.updLane_linkAsk (core slot pos l : Nat) (h : Lane → Lane) : (s.updLane core slot pos l h).linkAsk = s.linkAsk := rfl
@[simp] theorem State.updLane_linkTx (core slot pos l : Nat) (h : Lane → Lane) : (s.updLane core slot pos l h).linkTx = s.linkTx := rfl
@[simp] theorem State.updLane_linkErrors (core slot pos l : Nat) (h : Lane → Lane) : (s.updLane core slot pos l h).linkErrors = s.linkErrors := rfl
@[simp] theorem State.updLane_bersy (core slot pos l : Nat) (h : Lane → Lane) : (s.updLane core slot pos l h).bersy = s.bersy := rfl
@[simp] theorem State.updLane_interrupts (core slot pos l : Nat) (h : Lane → Lane) : (s.updLane core slot pos l h).interrupts = s.interrupts := rfl
@[simp] theorem State.updLane_answers (core slot pos l : Nat) (h : Lane → Lane) : (s.updLane core slot pos l h).answers = s.answers := rfl
@[simp] theorem State.updLane_imageSvn (core slot pos l : Nat) (h : Lane → Lane) : (s.updLane core slot pos l h).imageSvn = s.imageSvn := rfl
@[simp] theorem State.updLane_imageCommit (core slot pos l : Nat) (h : Lane → Lane) : (s.updLane core slot pos l h).imageCommit = s.imageCommit := rfl
@[simp] theorem State.updLane_flash (core slot pos l : Nat) (h : Lane → Lane) : (s.updLane core slot pos l h).flash = s.flash := rfl
@[simp] theorem State.updLane_image (core slot pos l : Nat) (h : Lane → Lane) : (s.updLane core slot pos l h).image = s.image := rfl
@[simp] theorem State.updLane_tcm (core slot pos l : Nat) (h : Lane → Lane) : (s.updLane core slot pos l h).tcm = s.tcm := rfl
@[simp] theorem State.updLane_journalTags (core slot pos l : Nat) (h : Lane → Lane) : (s.updLane core slot pos l h).journalTags = s.journalTags := rfl

/-! ### State.updRec -/

@[simp] theorem State.updRec_tick (rid : Nat) (h : RecMeta → RecMeta) : (s.updRec rid h).tick = s.tick := rfl
@[simp] theorem State.updRec_clk (rid : Nat) (h : RecMeta → RecMeta) : (s.updRec rid h).clk = s.clk := rfl
@[simp] theorem State.updRec_fresh (rid : Nat) (h : RecMeta → RecMeta) : (s.updRec rid h).fresh = s.fresh := rfl
@[simp] theorem State.updRec_nextId (rid : Nat) (h : RecMeta → RecMeta) : (s.updRec rid h).nextId = s.nextId := rfl
@[simp] theorem State.updRec_openMoves (rid : Nat) (h : RecMeta → RecMeta) : (s.updRec rid h).openMoves = s.openMoves := rfl
@[simp] theorem State.updRec_cur (rid : Nat) (h : RecMeta → RecMeta) : (s.updRec rid h).cur = s.cur := rfl
@[simp] theorem State.updRec_inputs (rid : Nat) (h : RecMeta → RecMeta) : (s.updRec rid h).inputs = s.inputs := rfl
@[simp] theorem State.updRec_due (rid : Nat) (h : RecMeta → RecMeta) : (s.updRec rid h).due = s.due := rfl
@[simp] theorem State.updRec_node (rid : Nat) (h : RecMeta → RecMeta) : (s.updRec rid h).node = s.node := rfl
@[simp] theorem State.updRec_mem (rid : Nat) (h : RecMeta → RecMeta) : (s.updRec rid h).mem = s.mem := rfl
@[simp] theorem State.updRec_stale (rid : Nat) (h : RecMeta → RecMeta) : (s.updRec rid h).stale = s.stale := rfl
@[simp] theorem State.updRec_poisoned (rid : Nat) (h : RecMeta → RecMeta) : (s.updRec rid h).poisoned = s.poisoned := rfl
@[simp] theorem State.updRec_correctable (rid : Nat) (h : RecMeta → RecMeta) : (s.updRec rid h).correctable = s.correctable := rfl
@[simp] theorem State.updRec_upsets (rid : Nat) (h : RecMeta → RecMeta) : (s.updRec rid h).upsets = s.upsets := rfl
@[simp] theorem State.updRec_spoiltSaves (rid : Nat) (h : RecMeta → RecMeta) : (s.updRec rid h).spoiltSaves = s.spoiltSaves := rfl
@[simp] theorem State.updRec_l1 (rid : Nat) (h : RecMeta → RecMeta) : (s.updRec rid h).l1 = s.l1 := rfl
@[simp] theorem State.updRec_l2 (rid : Nat) (h : RecMeta → RecMeta) : (s.updRec rid h).l2 = s.l2 := rfl
@[simp] theorem State.updRec_leased (rid : Nat) (h : RecMeta → RecMeta) : (s.updRec rid h).leased = s.leased := rfl
@[simp] theorem State.updRec_typed (rid : Nat) (h : RecMeta → RecMeta) : (s.updRec rid h).typed = s.typed := rfl
@[simp] theorem State.updRec_frontPts (rid : Nat) (h : RecMeta → RecMeta) : (s.updRec rid h).frontPts = s.frontPts := rfl
@[simp] theorem State.updRec_walkPts (rid : Nat) (h : RecMeta → RecMeta) : (s.updRec rid h).walkPts = s.walkPts := rfl
@[simp] theorem State.updRec_devPts (rid : Nat) (h : RecMeta → RecMeta) : (s.updRec rid h).devPts = s.devPts := rfl
@[simp] theorem State.updRec_heard (rid : Nat) (h : RecMeta → RecMeta) : (s.updRec rid h).heard = s.heard := rfl
@[simp] theorem State.updRec_brass (rid : Nat) (h : RecMeta → RecMeta) : (s.updRec rid h).brass = s.brass := rfl
@[simp] theorem State.updRec_rf (rid : Nat) (h : RecMeta → RecMeta) : (s.updRec rid h).rf = s.rf := rfl
@[simp] theorem State.updRec_opStamp (rid : Nat) (h : RecMeta → RecMeta) : (s.updRec rid h).opStamp = s.opStamp := rfl
@[simp] theorem State.updRec_opBy (rid : Nat) (h : RecMeta → RecMeta) : (s.updRec rid h).opBy = s.opBy := rfl
@[simp] theorem State.updRec_signs (rid : Nat) (h : RecMeta → RecMeta) : (s.updRec rid h).signs = s.signs := rfl
@[simp] theorem State.updRec_opLogic (rid : Nat) (h : RecMeta → RecMeta) : (s.updRec rid h).opLogic = s.opLogic := rfl
@[simp] theorem State.updRec_opSpoilt (rid : Nat) (h : RecMeta → RecMeta) : (s.updRec rid h).opSpoilt = s.opSpoilt := rfl
@[simp] theorem State.updRec_rfLate (rid : Nat) (h : RecMeta → RecMeta) : (s.updRec rid h).rfLate = s.rfLate := rfl
@[simp] theorem State.updRec_gangs (rid : Nat) (h : RecMeta → RecMeta) : (s.updRec rid h).gangs = s.gangs := rfl
@[simp] theorem State.updRec_pend (rid : Nat) (h : RecMeta → RecMeta) : (s.updRec rid h).pend = s.pend := rfl
@[simp] theorem State.updRec_cores (rid : Nat) (h : RecMeta → RecMeta) : (s.updRec rid h).cores = s.cores := rfl
@[simp] theorem State.updRec_recs (rid : Nat) (h : RecMeta → RecMeta) : (s.updRec rid h).recs = updWhere (fun r => r.rid == rid) h s.recs := rfl
@[simp] theorem State.updRec_waits (rid : Nat) (h : RecMeta → RecMeta) : (s.updRec rid h).waits = s.waits := rfl
@[simp] theorem State.updRec_mons (rid : Nat) (h : RecMeta → RecMeta) : (s.updRec rid h).mons = s.mons := rfl
@[simp] theorem State.updRec_pool (rid : Nat) (h : RecMeta → RecMeta) : (s.updRec rid h).pool = s.pool := rfl
@[simp] theorem State.updRec_tasks (rid : Nat) (h : RecMeta → RecMeta) : (s.updRec rid h).tasks = s.tasks := rfl
@[simp] theorem State.updRec_tlbs (rid : Nat) (h : RecMeta → RecMeta) : (s.updRec rid h).tlbs = s.tlbs := rfl
@[simp] theorem State.updRec_walks (rid : Nat) (h : RecMeta → RecMeta) : (s.updRec rid h).walks = s.walks := rfl
@[simp] theorem State.updRec_frontMarks (rid : Nat) (h : RecMeta → RecMeta) : (s.updRec rid h).frontMarks = s.frontMarks := rfl
@[simp] theorem State.updRec_walkLines (rid : Nat) (h : RecMeta → RecMeta) : (s.updRec rid h).walkLines = s.walkLines := rfl
@[simp] theorem State.updRec_wcbufs (rid : Nat) (h : RecMeta → RecMeta) : (s.updRec rid h).wcbufs = s.wcbufs := rfl
@[simp] theorem State.updRec_seeks (rid : Nat) (h : RecMeta → RecMeta) : (s.updRec rid h).seeks = s.seeks := rfl
@[simp] theorem State.updRec_ops (rid : Nat) (h : RecMeta → RecMeta) : (s.updRec rid h).ops = s.ops := rfl
@[simp] theorem State.updRec_futs (rid : Nat) (h : RecMeta → RecMeta) : (s.updRec rid h).futs = s.futs := rfl
@[simp] theorem State.updRec_launches (rid : Nat) (h : RecMeta → RecMeta) : (s.updRec rid h).launches = s.launches := rfl
@[simp] theorem State.updRec_groups (rid : Nat) (h : RecMeta → RecMeta) : (s.updRec rid h).groups = s.groups := rfl
@[simp] theorem State.updRec_queues (rid : Nat) (h : RecMeta → RecMeta) : (s.updRec rid h).queues = s.queues := rfl
@[simp] theorem State.updRec_contexts (rid : Nat) (h : RecMeta → RecMeta) : (s.updRec rid h).contexts = s.contexts := rfl
@[simp] theorem State.updRec_faults (rid : Nat) (h : RecMeta → RecMeta) : (s.updRec rid h).faults = s.faults := rfl
@[simp] theorem State.updRec_fwFaultSeq (rid : Nat) (h : RecMeta → RecMeta) : (s.updRec rid h).fwFaultSeq = s.fwFaultSeq := rfl
@[simp] theorem State.updRec_peers (rid : Nat) (h : RecMeta → RecMeta) : (s.updRec rid h).peers = s.peers := rfl
@[simp] theorem State.updRec_streams (rid : Nat) (h : RecMeta → RecMeta) : (s.updRec rid h).streams = s.streams := rfl
@[simp] theorem State.updRec_regs (rid : Nat) (h : RecMeta → RecMeta) : (s.updRec rid h).regs = s.regs := rfl
@[simp] theorem State.updRec_snapDue (rid : Nat) (h : RecMeta → RecMeta) : (s.updRec rid h).snapDue = s.snapDue := rfl
@[simp] theorem State.updRec_dieSnap (rid : Nat) (h : RecMeta → RecMeta) : (s.updRec rid h).dieSnap = s.dieSnap := rfl
@[simp] theorem State.updRec_copies (rid : Nat) (h : RecMeta → RecMeta) : (s.updRec rid h).copies = s.copies := rfl
@[simp] theorem State.updRec_reqs (rid : Nat) (h : RecMeta → RecMeta) : (s.updRec rid h).reqs = s.reqs := rfl
@[simp] theorem State.updRec_acks (rid : Nat) (h : RecMeta → RecMeta) : (s.updRec rid h).acks = s.acks := rfl
@[simp] theorem State.updRec_posts (rid : Nat) (h : RecMeta → RecMeta) : (s.updRec rid h).posts = s.posts := rfl
@[simp] theorem State.updRec_homeQ (rid : Nat) (h : RecMeta → RecMeta) : (s.updRec rid h).homeQ = s.homeQ := rfl
@[simp] theorem State.updRec_failedPa (rid : Nat) (h : RecMeta → RecMeta) : (s.updRec rid h).failedPa = s.failedPa := rfl
@[simp] theorem State.updRec_uncached (rid : Nat) (h : RecMeta → RecMeta) : (s.updRec rid h).uncached = s.uncached := rfl
@[simp] theorem State.updRec_outbox (rid : Nat) (h : RecMeta → RecMeta) : (s.updRec rid h).outbox = s.outbox := rfl
@[simp] theorem State.updRec_ports (rid : Nat) (h : RecMeta → RecMeta) : (s.updRec rid h).ports = s.ports := rfl
@[simp] theorem State.updRec_linkSeq (rid : Nat) (h : RecMeta → RecMeta) : (s.updRec rid h).linkSeq = s.linkSeq := rfl
@[simp] theorem State.updRec_linkRx (rid : Nat) (h : RecMeta → RecMeta) : (s.updRec rid h).linkRx = s.linkRx := rfl
@[simp] theorem State.updRec_linkAsk (rid : Nat) (h : RecMeta → RecMeta) : (s.updRec rid h).linkAsk = s.linkAsk := rfl
@[simp] theorem State.updRec_linkTx (rid : Nat) (h : RecMeta → RecMeta) : (s.updRec rid h).linkTx = s.linkTx := rfl
@[simp] theorem State.updRec_linkErrors (rid : Nat) (h : RecMeta → RecMeta) : (s.updRec rid h).linkErrors = s.linkErrors := rfl
@[simp] theorem State.updRec_bersy (rid : Nat) (h : RecMeta → RecMeta) : (s.updRec rid h).bersy = s.bersy := rfl
@[simp] theorem State.updRec_interrupts (rid : Nat) (h : RecMeta → RecMeta) : (s.updRec rid h).interrupts = s.interrupts := rfl
@[simp] theorem State.updRec_answers (rid : Nat) (h : RecMeta → RecMeta) : (s.updRec rid h).answers = s.answers := rfl
@[simp] theorem State.updRec_imageSvn (rid : Nat) (h : RecMeta → RecMeta) : (s.updRec rid h).imageSvn = s.imageSvn := rfl
@[simp] theorem State.updRec_imageCommit (rid : Nat) (h : RecMeta → RecMeta) : (s.updRec rid h).imageCommit = s.imageCommit := rfl
@[simp] theorem State.updRec_flash (rid : Nat) (h : RecMeta → RecMeta) : (s.updRec rid h).flash = s.flash := rfl
@[simp] theorem State.updRec_image (rid : Nat) (h : RecMeta → RecMeta) : (s.updRec rid h).image = s.image := rfl
@[simp] theorem State.updRec_tcm (rid : Nat) (h : RecMeta → RecMeta) : (s.updRec rid h).tcm = s.tcm := rfl
@[simp] theorem State.updRec_journalTags (rid : Nat) (h : RecMeta → RecMeta) : (s.updRec rid h).journalTags = s.journalTags := rfl

/-! ### State.updOp -/

@[simp] theorem State.updOp_tick (id : Nat) (h : EngineOp → EngineOp) : (s.updOp id h).tick = s.tick := rfl
@[simp] theorem State.updOp_clk (id : Nat) (h : EngineOp → EngineOp) : (s.updOp id h).clk = s.clk := rfl
@[simp] theorem State.updOp_fresh (id : Nat) (h : EngineOp → EngineOp) : (s.updOp id h).fresh = s.fresh := rfl
@[simp] theorem State.updOp_nextId (id : Nat) (h : EngineOp → EngineOp) : (s.updOp id h).nextId = s.nextId := rfl
@[simp] theorem State.updOp_openMoves (id : Nat) (h : EngineOp → EngineOp) : (s.updOp id h).openMoves = s.openMoves := rfl
@[simp] theorem State.updOp_cur (id : Nat) (h : EngineOp → EngineOp) : (s.updOp id h).cur = s.cur := rfl
@[simp] theorem State.updOp_inputs (id : Nat) (h : EngineOp → EngineOp) : (s.updOp id h).inputs = s.inputs := rfl
@[simp] theorem State.updOp_due (id : Nat) (h : EngineOp → EngineOp) : (s.updOp id h).due = s.due := rfl
@[simp] theorem State.updOp_node (id : Nat) (h : EngineOp → EngineOp) : (s.updOp id h).node = s.node := rfl
@[simp] theorem State.updOp_mem (id : Nat) (h : EngineOp → EngineOp) : (s.updOp id h).mem = s.mem := rfl
@[simp] theorem State.updOp_stale (id : Nat) (h : EngineOp → EngineOp) : (s.updOp id h).stale = s.stale := rfl
@[simp] theorem State.updOp_poisoned (id : Nat) (h : EngineOp → EngineOp) : (s.updOp id h).poisoned = s.poisoned := rfl
@[simp] theorem State.updOp_correctable (id : Nat) (h : EngineOp → EngineOp) : (s.updOp id h).correctable = s.correctable := rfl
@[simp] theorem State.updOp_upsets (id : Nat) (h : EngineOp → EngineOp) : (s.updOp id h).upsets = s.upsets := rfl
@[simp] theorem State.updOp_spoiltSaves (id : Nat) (h : EngineOp → EngineOp) : (s.updOp id h).spoiltSaves = s.spoiltSaves := rfl
@[simp] theorem State.updOp_l1 (id : Nat) (h : EngineOp → EngineOp) : (s.updOp id h).l1 = s.l1 := rfl
@[simp] theorem State.updOp_l2 (id : Nat) (h : EngineOp → EngineOp) : (s.updOp id h).l2 = s.l2 := rfl
@[simp] theorem State.updOp_leased (id : Nat) (h : EngineOp → EngineOp) : (s.updOp id h).leased = s.leased := rfl
@[simp] theorem State.updOp_typed (id : Nat) (h : EngineOp → EngineOp) : (s.updOp id h).typed = s.typed := rfl
@[simp] theorem State.updOp_frontPts (id : Nat) (h : EngineOp → EngineOp) : (s.updOp id h).frontPts = s.frontPts := rfl
@[simp] theorem State.updOp_walkPts (id : Nat) (h : EngineOp → EngineOp) : (s.updOp id h).walkPts = s.walkPts := rfl
@[simp] theorem State.updOp_devPts (id : Nat) (h : EngineOp → EngineOp) : (s.updOp id h).devPts = s.devPts := rfl
@[simp] theorem State.updOp_heard (id : Nat) (h : EngineOp → EngineOp) : (s.updOp id h).heard = s.heard := rfl
@[simp] theorem State.updOp_brass (id : Nat) (h : EngineOp → EngineOp) : (s.updOp id h).brass = s.brass := rfl
@[simp] theorem State.updOp_rf (id : Nat) (h : EngineOp → EngineOp) : (s.updOp id h).rf = s.rf := rfl
@[simp] theorem State.updOp_opStamp (id : Nat) (h : EngineOp → EngineOp) : (s.updOp id h).opStamp = s.opStamp := rfl
@[simp] theorem State.updOp_opBy (id : Nat) (h : EngineOp → EngineOp) : (s.updOp id h).opBy = s.opBy := rfl
@[simp] theorem State.updOp_signs (id : Nat) (h : EngineOp → EngineOp) : (s.updOp id h).signs = s.signs := rfl
@[simp] theorem State.updOp_opLogic (id : Nat) (h : EngineOp → EngineOp) : (s.updOp id h).opLogic = s.opLogic := rfl
@[simp] theorem State.updOp_opSpoilt (id : Nat) (h : EngineOp → EngineOp) : (s.updOp id h).opSpoilt = s.opSpoilt := rfl
@[simp] theorem State.updOp_rfLate (id : Nat) (h : EngineOp → EngineOp) : (s.updOp id h).rfLate = s.rfLate := rfl
@[simp] theorem State.updOp_gangs (id : Nat) (h : EngineOp → EngineOp) : (s.updOp id h).gangs = s.gangs := rfl
@[simp] theorem State.updOp_pend (id : Nat) (h : EngineOp → EngineOp) : (s.updOp id h).pend = s.pend := rfl
@[simp] theorem State.updOp_cores (id : Nat) (h : EngineOp → EngineOp) : (s.updOp id h).cores = s.cores := rfl
@[simp] theorem State.updOp_recs (id : Nat) (h : EngineOp → EngineOp) : (s.updOp id h).recs = s.recs := rfl
@[simp] theorem State.updOp_waits (id : Nat) (h : EngineOp → EngineOp) : (s.updOp id h).waits = s.waits := rfl
@[simp] theorem State.updOp_mons (id : Nat) (h : EngineOp → EngineOp) : (s.updOp id h).mons = s.mons := rfl
@[simp] theorem State.updOp_pool (id : Nat) (h : EngineOp → EngineOp) : (s.updOp id h).pool = s.pool := rfl
@[simp] theorem State.updOp_tasks (id : Nat) (h : EngineOp → EngineOp) : (s.updOp id h).tasks = s.tasks := rfl
@[simp] theorem State.updOp_tlbs (id : Nat) (h : EngineOp → EngineOp) : (s.updOp id h).tlbs = s.tlbs := rfl
@[simp] theorem State.updOp_walks (id : Nat) (h : EngineOp → EngineOp) : (s.updOp id h).walks = s.walks := rfl
@[simp] theorem State.updOp_frontMarks (id : Nat) (h : EngineOp → EngineOp) : (s.updOp id h).frontMarks = s.frontMarks := rfl
@[simp] theorem State.updOp_walkLines (id : Nat) (h : EngineOp → EngineOp) : (s.updOp id h).walkLines = s.walkLines := rfl
@[simp] theorem State.updOp_wcbufs (id : Nat) (h : EngineOp → EngineOp) : (s.updOp id h).wcbufs = s.wcbufs := rfl
@[simp] theorem State.updOp_seeks (id : Nat) (h : EngineOp → EngineOp) : (s.updOp id h).seeks = s.seeks := rfl
@[simp] theorem State.updOp_ops (id : Nat) (h : EngineOp → EngineOp) : (s.updOp id h).ops = updWhere (fun o => o.id == id) h s.ops := rfl
@[simp] theorem State.updOp_futs (id : Nat) (h : EngineOp → EngineOp) : (s.updOp id h).futs = s.futs := rfl
@[simp] theorem State.updOp_launches (id : Nat) (h : EngineOp → EngineOp) : (s.updOp id h).launches = s.launches := rfl
@[simp] theorem State.updOp_groups (id : Nat) (h : EngineOp → EngineOp) : (s.updOp id h).groups = s.groups := rfl
@[simp] theorem State.updOp_queues (id : Nat) (h : EngineOp → EngineOp) : (s.updOp id h).queues = s.queues := rfl
@[simp] theorem State.updOp_contexts (id : Nat) (h : EngineOp → EngineOp) : (s.updOp id h).contexts = s.contexts := rfl
@[simp] theorem State.updOp_faults (id : Nat) (h : EngineOp → EngineOp) : (s.updOp id h).faults = s.faults := rfl
@[simp] theorem State.updOp_fwFaultSeq (id : Nat) (h : EngineOp → EngineOp) : (s.updOp id h).fwFaultSeq = s.fwFaultSeq := rfl
@[simp] theorem State.updOp_peers (id : Nat) (h : EngineOp → EngineOp) : (s.updOp id h).peers = s.peers := rfl
@[simp] theorem State.updOp_streams (id : Nat) (h : EngineOp → EngineOp) : (s.updOp id h).streams = s.streams := rfl
@[simp] theorem State.updOp_regs (id : Nat) (h : EngineOp → EngineOp) : (s.updOp id h).regs = s.regs := rfl
@[simp] theorem State.updOp_snapDue (id : Nat) (h : EngineOp → EngineOp) : (s.updOp id h).snapDue = s.snapDue := rfl
@[simp] theorem State.updOp_dieSnap (id : Nat) (h : EngineOp → EngineOp) : (s.updOp id h).dieSnap = s.dieSnap := rfl
@[simp] theorem State.updOp_copies (id : Nat) (h : EngineOp → EngineOp) : (s.updOp id h).copies = s.copies := rfl
@[simp] theorem State.updOp_reqs (id : Nat) (h : EngineOp → EngineOp) : (s.updOp id h).reqs = s.reqs := rfl
@[simp] theorem State.updOp_acks (id : Nat) (h : EngineOp → EngineOp) : (s.updOp id h).acks = s.acks := rfl
@[simp] theorem State.updOp_posts (id : Nat) (h : EngineOp → EngineOp) : (s.updOp id h).posts = s.posts := rfl
@[simp] theorem State.updOp_homeQ (id : Nat) (h : EngineOp → EngineOp) : (s.updOp id h).homeQ = s.homeQ := rfl
@[simp] theorem State.updOp_failedPa (id : Nat) (h : EngineOp → EngineOp) : (s.updOp id h).failedPa = s.failedPa := rfl
@[simp] theorem State.updOp_uncached (id : Nat) (h : EngineOp → EngineOp) : (s.updOp id h).uncached = s.uncached := rfl
@[simp] theorem State.updOp_outbox (id : Nat) (h : EngineOp → EngineOp) : (s.updOp id h).outbox = s.outbox := rfl
@[simp] theorem State.updOp_ports (id : Nat) (h : EngineOp → EngineOp) : (s.updOp id h).ports = s.ports := rfl
@[simp] theorem State.updOp_linkSeq (id : Nat) (h : EngineOp → EngineOp) : (s.updOp id h).linkSeq = s.linkSeq := rfl
@[simp] theorem State.updOp_linkRx (id : Nat) (h : EngineOp → EngineOp) : (s.updOp id h).linkRx = s.linkRx := rfl
@[simp] theorem State.updOp_linkAsk (id : Nat) (h : EngineOp → EngineOp) : (s.updOp id h).linkAsk = s.linkAsk := rfl
@[simp] theorem State.updOp_linkTx (id : Nat) (h : EngineOp → EngineOp) : (s.updOp id h).linkTx = s.linkTx := rfl
@[simp] theorem State.updOp_linkErrors (id : Nat) (h : EngineOp → EngineOp) : (s.updOp id h).linkErrors = s.linkErrors := rfl
@[simp] theorem State.updOp_bersy (id : Nat) (h : EngineOp → EngineOp) : (s.updOp id h).bersy = s.bersy := rfl
@[simp] theorem State.updOp_interrupts (id : Nat) (h : EngineOp → EngineOp) : (s.updOp id h).interrupts = s.interrupts := rfl
@[simp] theorem State.updOp_answers (id : Nat) (h : EngineOp → EngineOp) : (s.updOp id h).answers = s.answers := rfl
@[simp] theorem State.updOp_imageSvn (id : Nat) (h : EngineOp → EngineOp) : (s.updOp id h).imageSvn = s.imageSvn := rfl
@[simp] theorem State.updOp_imageCommit (id : Nat) (h : EngineOp → EngineOp) : (s.updOp id h).imageCommit = s.imageCommit := rfl
@[simp] theorem State.updOp_flash (id : Nat) (h : EngineOp → EngineOp) : (s.updOp id h).flash = s.flash := rfl
@[simp] theorem State.updOp_image (id : Nat) (h : EngineOp → EngineOp) : (s.updOp id h).image = s.image := rfl
@[simp] theorem State.updOp_tcm (id : Nat) (h : EngineOp → EngineOp) : (s.updOp id h).tcm = s.tcm := rfl
@[simp] theorem State.updOp_journalTags (id : Nat) (h : EngineOp → EngineOp) : (s.updOp id h).journalTags = s.journalTags := rfl

/-! ### State.updQ -/

@[simp] theorem State.updQ_tick (q : Nat) (h : HwQueue → HwQueue) : (s.updQ q h).tick = s.tick := rfl
@[simp] theorem State.updQ_clk (q : Nat) (h : HwQueue → HwQueue) : (s.updQ q h).clk = s.clk := rfl
@[simp] theorem State.updQ_fresh (q : Nat) (h : HwQueue → HwQueue) : (s.updQ q h).fresh = s.fresh := rfl
@[simp] theorem State.updQ_nextId (q : Nat) (h : HwQueue → HwQueue) : (s.updQ q h).nextId = s.nextId := rfl
@[simp] theorem State.updQ_openMoves (q : Nat) (h : HwQueue → HwQueue) : (s.updQ q h).openMoves = s.openMoves := rfl
@[simp] theorem State.updQ_cur (q : Nat) (h : HwQueue → HwQueue) : (s.updQ q h).cur = s.cur := rfl
@[simp] theorem State.updQ_inputs (q : Nat) (h : HwQueue → HwQueue) : (s.updQ q h).inputs = s.inputs := rfl
@[simp] theorem State.updQ_due (q : Nat) (h : HwQueue → HwQueue) : (s.updQ q h).due = s.due := rfl
@[simp] theorem State.updQ_node (q : Nat) (h : HwQueue → HwQueue) : (s.updQ q h).node = s.node := rfl
@[simp] theorem State.updQ_mem (q : Nat) (h : HwQueue → HwQueue) : (s.updQ q h).mem = s.mem := rfl
@[simp] theorem State.updQ_stale (q : Nat) (h : HwQueue → HwQueue) : (s.updQ q h).stale = s.stale := rfl
@[simp] theorem State.updQ_poisoned (q : Nat) (h : HwQueue → HwQueue) : (s.updQ q h).poisoned = s.poisoned := rfl
@[simp] theorem State.updQ_correctable (q : Nat) (h : HwQueue → HwQueue) : (s.updQ q h).correctable = s.correctable := rfl
@[simp] theorem State.updQ_upsets (q : Nat) (h : HwQueue → HwQueue) : (s.updQ q h).upsets = s.upsets := rfl
@[simp] theorem State.updQ_spoiltSaves (q : Nat) (h : HwQueue → HwQueue) : (s.updQ q h).spoiltSaves = s.spoiltSaves := rfl
@[simp] theorem State.updQ_l1 (q : Nat) (h : HwQueue → HwQueue) : (s.updQ q h).l1 = s.l1 := rfl
@[simp] theorem State.updQ_l2 (q : Nat) (h : HwQueue → HwQueue) : (s.updQ q h).l2 = s.l2 := rfl
@[simp] theorem State.updQ_leased (q : Nat) (h : HwQueue → HwQueue) : (s.updQ q h).leased = s.leased := rfl
@[simp] theorem State.updQ_typed (q : Nat) (h : HwQueue → HwQueue) : (s.updQ q h).typed = s.typed := rfl
@[simp] theorem State.updQ_frontPts (q : Nat) (h : HwQueue → HwQueue) : (s.updQ q h).frontPts = s.frontPts := rfl
@[simp] theorem State.updQ_walkPts (q : Nat) (h : HwQueue → HwQueue) : (s.updQ q h).walkPts = s.walkPts := rfl
@[simp] theorem State.updQ_devPts (q : Nat) (h : HwQueue → HwQueue) : (s.updQ q h).devPts = s.devPts := rfl
@[simp] theorem State.updQ_heard (q : Nat) (h : HwQueue → HwQueue) : (s.updQ q h).heard = s.heard := rfl
@[simp] theorem State.updQ_brass (q : Nat) (h : HwQueue → HwQueue) : (s.updQ q h).brass = s.brass := rfl
@[simp] theorem State.updQ_rf (q : Nat) (h : HwQueue → HwQueue) : (s.updQ q h).rf = s.rf := rfl
@[simp] theorem State.updQ_opStamp (q : Nat) (h : HwQueue → HwQueue) : (s.updQ q h).opStamp = s.opStamp := rfl
@[simp] theorem State.updQ_opBy (q : Nat) (h : HwQueue → HwQueue) : (s.updQ q h).opBy = s.opBy := rfl
@[simp] theorem State.updQ_signs (q : Nat) (h : HwQueue → HwQueue) : (s.updQ q h).signs = s.signs := rfl
@[simp] theorem State.updQ_opLogic (q : Nat) (h : HwQueue → HwQueue) : (s.updQ q h).opLogic = s.opLogic := rfl
@[simp] theorem State.updQ_opSpoilt (q : Nat) (h : HwQueue → HwQueue) : (s.updQ q h).opSpoilt = s.opSpoilt := rfl
@[simp] theorem State.updQ_rfLate (q : Nat) (h : HwQueue → HwQueue) : (s.updQ q h).rfLate = s.rfLate := rfl
@[simp] theorem State.updQ_gangs (q : Nat) (h : HwQueue → HwQueue) : (s.updQ q h).gangs = s.gangs := rfl
@[simp] theorem State.updQ_pend (q : Nat) (h : HwQueue → HwQueue) : (s.updQ q h).pend = s.pend := rfl
@[simp] theorem State.updQ_cores (q : Nat) (h : HwQueue → HwQueue) : (s.updQ q h).cores = s.cores := rfl
@[simp] theorem State.updQ_recs (q : Nat) (h : HwQueue → HwQueue) : (s.updQ q h).recs = s.recs := rfl
@[simp] theorem State.updQ_waits (q : Nat) (h : HwQueue → HwQueue) : (s.updQ q h).waits = s.waits := rfl
@[simp] theorem State.updQ_mons (q : Nat) (h : HwQueue → HwQueue) : (s.updQ q h).mons = s.mons := rfl
@[simp] theorem State.updQ_pool (q : Nat) (h : HwQueue → HwQueue) : (s.updQ q h).pool = s.pool := rfl
@[simp] theorem State.updQ_tasks (q : Nat) (h : HwQueue → HwQueue) : (s.updQ q h).tasks = s.tasks := rfl
@[simp] theorem State.updQ_tlbs (q : Nat) (h : HwQueue → HwQueue) : (s.updQ q h).tlbs = s.tlbs := rfl
@[simp] theorem State.updQ_walks (q : Nat) (h : HwQueue → HwQueue) : (s.updQ q h).walks = s.walks := rfl
@[simp] theorem State.updQ_frontMarks (q : Nat) (h : HwQueue → HwQueue) : (s.updQ q h).frontMarks = s.frontMarks := rfl
@[simp] theorem State.updQ_walkLines (q : Nat) (h : HwQueue → HwQueue) : (s.updQ q h).walkLines = s.walkLines := rfl
@[simp] theorem State.updQ_wcbufs (q : Nat) (h : HwQueue → HwQueue) : (s.updQ q h).wcbufs = s.wcbufs := rfl
@[simp] theorem State.updQ_seeks (q : Nat) (h : HwQueue → HwQueue) : (s.updQ q h).seeks = s.seeks := rfl
@[simp] theorem State.updQ_ops (q : Nat) (h : HwQueue → HwQueue) : (s.updQ q h).ops = s.ops := rfl
@[simp] theorem State.updQ_futs (q : Nat) (h : HwQueue → HwQueue) : (s.updQ q h).futs = s.futs := rfl
@[simp] theorem State.updQ_launches (q : Nat) (h : HwQueue → HwQueue) : (s.updQ q h).launches = s.launches := rfl
@[simp] theorem State.updQ_groups (q : Nat) (h : HwQueue → HwQueue) : (s.updQ q h).groups = s.groups := rfl
@[simp] theorem State.updQ_queues (q : Nat) (h : HwQueue → HwQueue) : (s.updQ q h).queues = updWhere (fun x => x.q == q) h s.queues := rfl
@[simp] theorem State.updQ_contexts (q : Nat) (h : HwQueue → HwQueue) : (s.updQ q h).contexts = s.contexts := rfl
@[simp] theorem State.updQ_faults (q : Nat) (h : HwQueue → HwQueue) : (s.updQ q h).faults = s.faults := rfl
@[simp] theorem State.updQ_fwFaultSeq (q : Nat) (h : HwQueue → HwQueue) : (s.updQ q h).fwFaultSeq = s.fwFaultSeq := rfl
@[simp] theorem State.updQ_peers (q : Nat) (h : HwQueue → HwQueue) : (s.updQ q h).peers = s.peers := rfl
@[simp] theorem State.updQ_streams (q : Nat) (h : HwQueue → HwQueue) : (s.updQ q h).streams = s.streams := rfl
@[simp] theorem State.updQ_regs (q : Nat) (h : HwQueue → HwQueue) : (s.updQ q h).regs = s.regs := rfl
@[simp] theorem State.updQ_snapDue (q : Nat) (h : HwQueue → HwQueue) : (s.updQ q h).snapDue = s.snapDue := rfl
@[simp] theorem State.updQ_dieSnap (q : Nat) (h : HwQueue → HwQueue) : (s.updQ q h).dieSnap = s.dieSnap := rfl
@[simp] theorem State.updQ_copies (q : Nat) (h : HwQueue → HwQueue) : (s.updQ q h).copies = s.copies := rfl
@[simp] theorem State.updQ_reqs (q : Nat) (h : HwQueue → HwQueue) : (s.updQ q h).reqs = s.reqs := rfl
@[simp] theorem State.updQ_acks (q : Nat) (h : HwQueue → HwQueue) : (s.updQ q h).acks = s.acks := rfl
@[simp] theorem State.updQ_posts (q : Nat) (h : HwQueue → HwQueue) : (s.updQ q h).posts = s.posts := rfl
@[simp] theorem State.updQ_homeQ (q : Nat) (h : HwQueue → HwQueue) : (s.updQ q h).homeQ = s.homeQ := rfl
@[simp] theorem State.updQ_failedPa (q : Nat) (h : HwQueue → HwQueue) : (s.updQ q h).failedPa = s.failedPa := rfl
@[simp] theorem State.updQ_uncached (q : Nat) (h : HwQueue → HwQueue) : (s.updQ q h).uncached = s.uncached := rfl
@[simp] theorem State.updQ_outbox (q : Nat) (h : HwQueue → HwQueue) : (s.updQ q h).outbox = s.outbox := rfl
@[simp] theorem State.updQ_ports (q : Nat) (h : HwQueue → HwQueue) : (s.updQ q h).ports = s.ports := rfl
@[simp] theorem State.updQ_linkSeq (q : Nat) (h : HwQueue → HwQueue) : (s.updQ q h).linkSeq = s.linkSeq := rfl
@[simp] theorem State.updQ_linkRx (q : Nat) (h : HwQueue → HwQueue) : (s.updQ q h).linkRx = s.linkRx := rfl
@[simp] theorem State.updQ_linkAsk (q : Nat) (h : HwQueue → HwQueue) : (s.updQ q h).linkAsk = s.linkAsk := rfl
@[simp] theorem State.updQ_linkTx (q : Nat) (h : HwQueue → HwQueue) : (s.updQ q h).linkTx = s.linkTx := rfl
@[simp] theorem State.updQ_linkErrors (q : Nat) (h : HwQueue → HwQueue) : (s.updQ q h).linkErrors = s.linkErrors := rfl
@[simp] theorem State.updQ_bersy (q : Nat) (h : HwQueue → HwQueue) : (s.updQ q h).bersy = s.bersy := rfl
@[simp] theorem State.updQ_interrupts (q : Nat) (h : HwQueue → HwQueue) : (s.updQ q h).interrupts = s.interrupts := rfl
@[simp] theorem State.updQ_answers (q : Nat) (h : HwQueue → HwQueue) : (s.updQ q h).answers = s.answers := rfl
@[simp] theorem State.updQ_imageSvn (q : Nat) (h : HwQueue → HwQueue) : (s.updQ q h).imageSvn = s.imageSvn := rfl
@[simp] theorem State.updQ_imageCommit (q : Nat) (h : HwQueue → HwQueue) : (s.updQ q h).imageCommit = s.imageCommit := rfl
@[simp] theorem State.updQ_flash (q : Nat) (h : HwQueue → HwQueue) : (s.updQ q h).flash = s.flash := rfl
@[simp] theorem State.updQ_image (q : Nat) (h : HwQueue → HwQueue) : (s.updQ q h).image = s.image := rfl
@[simp] theorem State.updQ_tcm (q : Nat) (h : HwQueue → HwQueue) : (s.updQ q h).tcm = s.tcm := rfl
@[simp] theorem State.updQ_journalTags (q : Nat) (h : HwQueue → HwQueue) : (s.updQ q h).journalTags = s.journalTags := rfl

/-! ### State.updLaunch -/

@[simp] theorem State.updLaunch_tick (lid : Nat) (h : Launch → Launch) : (s.updLaunch lid h).tick = s.tick := rfl
@[simp] theorem State.updLaunch_clk (lid : Nat) (h : Launch → Launch) : (s.updLaunch lid h).clk = s.clk := rfl
@[simp] theorem State.updLaunch_fresh (lid : Nat) (h : Launch → Launch) : (s.updLaunch lid h).fresh = s.fresh := rfl
@[simp] theorem State.updLaunch_nextId (lid : Nat) (h : Launch → Launch) : (s.updLaunch lid h).nextId = s.nextId := rfl
@[simp] theorem State.updLaunch_openMoves (lid : Nat) (h : Launch → Launch) : (s.updLaunch lid h).openMoves = s.openMoves := rfl
@[simp] theorem State.updLaunch_cur (lid : Nat) (h : Launch → Launch) : (s.updLaunch lid h).cur = s.cur := rfl
@[simp] theorem State.updLaunch_inputs (lid : Nat) (h : Launch → Launch) : (s.updLaunch lid h).inputs = s.inputs := rfl
@[simp] theorem State.updLaunch_due (lid : Nat) (h : Launch → Launch) : (s.updLaunch lid h).due = s.due := rfl
@[simp] theorem State.updLaunch_node (lid : Nat) (h : Launch → Launch) : (s.updLaunch lid h).node = s.node := rfl
@[simp] theorem State.updLaunch_mem (lid : Nat) (h : Launch → Launch) : (s.updLaunch lid h).mem = s.mem := rfl
@[simp] theorem State.updLaunch_stale (lid : Nat) (h : Launch → Launch) : (s.updLaunch lid h).stale = s.stale := rfl
@[simp] theorem State.updLaunch_poisoned (lid : Nat) (h : Launch → Launch) : (s.updLaunch lid h).poisoned = s.poisoned := rfl
@[simp] theorem State.updLaunch_correctable (lid : Nat) (h : Launch → Launch) : (s.updLaunch lid h).correctable = s.correctable := rfl
@[simp] theorem State.updLaunch_upsets (lid : Nat) (h : Launch → Launch) : (s.updLaunch lid h).upsets = s.upsets := rfl
@[simp] theorem State.updLaunch_spoiltSaves (lid : Nat) (h : Launch → Launch) : (s.updLaunch lid h).spoiltSaves = s.spoiltSaves := rfl
@[simp] theorem State.updLaunch_l1 (lid : Nat) (h : Launch → Launch) : (s.updLaunch lid h).l1 = s.l1 := rfl
@[simp] theorem State.updLaunch_l2 (lid : Nat) (h : Launch → Launch) : (s.updLaunch lid h).l2 = s.l2 := rfl
@[simp] theorem State.updLaunch_leased (lid : Nat) (h : Launch → Launch) : (s.updLaunch lid h).leased = s.leased := rfl
@[simp] theorem State.updLaunch_typed (lid : Nat) (h : Launch → Launch) : (s.updLaunch lid h).typed = s.typed := rfl
@[simp] theorem State.updLaunch_frontPts (lid : Nat) (h : Launch → Launch) : (s.updLaunch lid h).frontPts = s.frontPts := rfl
@[simp] theorem State.updLaunch_walkPts (lid : Nat) (h : Launch → Launch) : (s.updLaunch lid h).walkPts = s.walkPts := rfl
@[simp] theorem State.updLaunch_devPts (lid : Nat) (h : Launch → Launch) : (s.updLaunch lid h).devPts = s.devPts := rfl
@[simp] theorem State.updLaunch_heard (lid : Nat) (h : Launch → Launch) : (s.updLaunch lid h).heard = s.heard := rfl
@[simp] theorem State.updLaunch_brass (lid : Nat) (h : Launch → Launch) : (s.updLaunch lid h).brass = s.brass := rfl
@[simp] theorem State.updLaunch_rf (lid : Nat) (h : Launch → Launch) : (s.updLaunch lid h).rf = s.rf := rfl
@[simp] theorem State.updLaunch_opStamp (lid : Nat) (h : Launch → Launch) : (s.updLaunch lid h).opStamp = s.opStamp := rfl
@[simp] theorem State.updLaunch_opBy (lid : Nat) (h : Launch → Launch) : (s.updLaunch lid h).opBy = s.opBy := rfl
@[simp] theorem State.updLaunch_signs (lid : Nat) (h : Launch → Launch) : (s.updLaunch lid h).signs = s.signs := rfl
@[simp] theorem State.updLaunch_opLogic (lid : Nat) (h : Launch → Launch) : (s.updLaunch lid h).opLogic = s.opLogic := rfl
@[simp] theorem State.updLaunch_opSpoilt (lid : Nat) (h : Launch → Launch) : (s.updLaunch lid h).opSpoilt = s.opSpoilt := rfl
@[simp] theorem State.updLaunch_rfLate (lid : Nat) (h : Launch → Launch) : (s.updLaunch lid h).rfLate = s.rfLate := rfl
@[simp] theorem State.updLaunch_gangs (lid : Nat) (h : Launch → Launch) : (s.updLaunch lid h).gangs = s.gangs := rfl
@[simp] theorem State.updLaunch_pend (lid : Nat) (h : Launch → Launch) : (s.updLaunch lid h).pend = s.pend := rfl
@[simp] theorem State.updLaunch_cores (lid : Nat) (h : Launch → Launch) : (s.updLaunch lid h).cores = s.cores := rfl
@[simp] theorem State.updLaunch_recs (lid : Nat) (h : Launch → Launch) : (s.updLaunch lid h).recs = s.recs := rfl
@[simp] theorem State.updLaunch_waits (lid : Nat) (h : Launch → Launch) : (s.updLaunch lid h).waits = s.waits := rfl
@[simp] theorem State.updLaunch_mons (lid : Nat) (h : Launch → Launch) : (s.updLaunch lid h).mons = s.mons := rfl
@[simp] theorem State.updLaunch_pool (lid : Nat) (h : Launch → Launch) : (s.updLaunch lid h).pool = s.pool := rfl
@[simp] theorem State.updLaunch_tasks (lid : Nat) (h : Launch → Launch) : (s.updLaunch lid h).tasks = s.tasks := rfl
@[simp] theorem State.updLaunch_tlbs (lid : Nat) (h : Launch → Launch) : (s.updLaunch lid h).tlbs = s.tlbs := rfl
@[simp] theorem State.updLaunch_walks (lid : Nat) (h : Launch → Launch) : (s.updLaunch lid h).walks = s.walks := rfl
@[simp] theorem State.updLaunch_frontMarks (lid : Nat) (h : Launch → Launch) : (s.updLaunch lid h).frontMarks = s.frontMarks := rfl
@[simp] theorem State.updLaunch_walkLines (lid : Nat) (h : Launch → Launch) : (s.updLaunch lid h).walkLines = s.walkLines := rfl
@[simp] theorem State.updLaunch_wcbufs (lid : Nat) (h : Launch → Launch) : (s.updLaunch lid h).wcbufs = s.wcbufs := rfl
@[simp] theorem State.updLaunch_seeks (lid : Nat) (h : Launch → Launch) : (s.updLaunch lid h).seeks = s.seeks := rfl
@[simp] theorem State.updLaunch_ops (lid : Nat) (h : Launch → Launch) : (s.updLaunch lid h).ops = s.ops := rfl
@[simp] theorem State.updLaunch_futs (lid : Nat) (h : Launch → Launch) : (s.updLaunch lid h).futs = s.futs := rfl
@[simp] theorem State.updLaunch_launches (lid : Nat) (h : Launch → Launch) : (s.updLaunch lid h).launches = updWhere (fun l => l.lid == lid) h s.launches := rfl
@[simp] theorem State.updLaunch_groups (lid : Nat) (h : Launch → Launch) : (s.updLaunch lid h).groups = s.groups := rfl
@[simp] theorem State.updLaunch_queues (lid : Nat) (h : Launch → Launch) : (s.updLaunch lid h).queues = s.queues := rfl
@[simp] theorem State.updLaunch_contexts (lid : Nat) (h : Launch → Launch) : (s.updLaunch lid h).contexts = s.contexts := rfl
@[simp] theorem State.updLaunch_faults (lid : Nat) (h : Launch → Launch) : (s.updLaunch lid h).faults = s.faults := rfl
@[simp] theorem State.updLaunch_fwFaultSeq (lid : Nat) (h : Launch → Launch) : (s.updLaunch lid h).fwFaultSeq = s.fwFaultSeq := rfl
@[simp] theorem State.updLaunch_peers (lid : Nat) (h : Launch → Launch) : (s.updLaunch lid h).peers = s.peers := rfl
@[simp] theorem State.updLaunch_streams (lid : Nat) (h : Launch → Launch) : (s.updLaunch lid h).streams = s.streams := rfl
@[simp] theorem State.updLaunch_regs (lid : Nat) (h : Launch → Launch) : (s.updLaunch lid h).regs = s.regs := rfl
@[simp] theorem State.updLaunch_snapDue (lid : Nat) (h : Launch → Launch) : (s.updLaunch lid h).snapDue = s.snapDue := rfl
@[simp] theorem State.updLaunch_dieSnap (lid : Nat) (h : Launch → Launch) : (s.updLaunch lid h).dieSnap = s.dieSnap := rfl
@[simp] theorem State.updLaunch_copies (lid : Nat) (h : Launch → Launch) : (s.updLaunch lid h).copies = s.copies := rfl
@[simp] theorem State.updLaunch_reqs (lid : Nat) (h : Launch → Launch) : (s.updLaunch lid h).reqs = s.reqs := rfl
@[simp] theorem State.updLaunch_acks (lid : Nat) (h : Launch → Launch) : (s.updLaunch lid h).acks = s.acks := rfl
@[simp] theorem State.updLaunch_posts (lid : Nat) (h : Launch → Launch) : (s.updLaunch lid h).posts = s.posts := rfl
@[simp] theorem State.updLaunch_homeQ (lid : Nat) (h : Launch → Launch) : (s.updLaunch lid h).homeQ = s.homeQ := rfl
@[simp] theorem State.updLaunch_failedPa (lid : Nat) (h : Launch → Launch) : (s.updLaunch lid h).failedPa = s.failedPa := rfl
@[simp] theorem State.updLaunch_uncached (lid : Nat) (h : Launch → Launch) : (s.updLaunch lid h).uncached = s.uncached := rfl
@[simp] theorem State.updLaunch_outbox (lid : Nat) (h : Launch → Launch) : (s.updLaunch lid h).outbox = s.outbox := rfl
@[simp] theorem State.updLaunch_ports (lid : Nat) (h : Launch → Launch) : (s.updLaunch lid h).ports = s.ports := rfl
@[simp] theorem State.updLaunch_linkSeq (lid : Nat) (h : Launch → Launch) : (s.updLaunch lid h).linkSeq = s.linkSeq := rfl
@[simp] theorem State.updLaunch_linkRx (lid : Nat) (h : Launch → Launch) : (s.updLaunch lid h).linkRx = s.linkRx := rfl
@[simp] theorem State.updLaunch_linkAsk (lid : Nat) (h : Launch → Launch) : (s.updLaunch lid h).linkAsk = s.linkAsk := rfl
@[simp] theorem State.updLaunch_linkTx (lid : Nat) (h : Launch → Launch) : (s.updLaunch lid h).linkTx = s.linkTx := rfl
@[simp] theorem State.updLaunch_linkErrors (lid : Nat) (h : Launch → Launch) : (s.updLaunch lid h).linkErrors = s.linkErrors := rfl
@[simp] theorem State.updLaunch_bersy (lid : Nat) (h : Launch → Launch) : (s.updLaunch lid h).bersy = s.bersy := rfl
@[simp] theorem State.updLaunch_interrupts (lid : Nat) (h : Launch → Launch) : (s.updLaunch lid h).interrupts = s.interrupts := rfl
@[simp] theorem State.updLaunch_answers (lid : Nat) (h : Launch → Launch) : (s.updLaunch lid h).answers = s.answers := rfl
@[simp] theorem State.updLaunch_imageSvn (lid : Nat) (h : Launch → Launch) : (s.updLaunch lid h).imageSvn = s.imageSvn := rfl
@[simp] theorem State.updLaunch_imageCommit (lid : Nat) (h : Launch → Launch) : (s.updLaunch lid h).imageCommit = s.imageCommit := rfl
@[simp] theorem State.updLaunch_flash (lid : Nat) (h : Launch → Launch) : (s.updLaunch lid h).flash = s.flash := rfl
@[simp] theorem State.updLaunch_image (lid : Nat) (h : Launch → Launch) : (s.updLaunch lid h).image = s.image := rfl
@[simp] theorem State.updLaunch_tcm (lid : Nat) (h : Launch → Launch) : (s.updLaunch lid h).tcm = s.tcm := rfl
@[simp] theorem State.updLaunch_journalTags (lid : Nat) (h : Launch → Launch) : (s.updLaunch lid h).journalTags = s.journalTags := rfl

/-! ### State.updGroup -/

@[simp] theorem State.updGroup_tick (gid : Nat) (h : Group → Group) : (s.updGroup gid h).tick = s.tick := rfl
@[simp] theorem State.updGroup_clk (gid : Nat) (h : Group → Group) : (s.updGroup gid h).clk = s.clk := rfl
@[simp] theorem State.updGroup_fresh (gid : Nat) (h : Group → Group) : (s.updGroup gid h).fresh = s.fresh := rfl
@[simp] theorem State.updGroup_nextId (gid : Nat) (h : Group → Group) : (s.updGroup gid h).nextId = s.nextId := rfl
@[simp] theorem State.updGroup_openMoves (gid : Nat) (h : Group → Group) : (s.updGroup gid h).openMoves = s.openMoves := rfl
@[simp] theorem State.updGroup_cur (gid : Nat) (h : Group → Group) : (s.updGroup gid h).cur = s.cur := rfl
@[simp] theorem State.updGroup_inputs (gid : Nat) (h : Group → Group) : (s.updGroup gid h).inputs = s.inputs := rfl
@[simp] theorem State.updGroup_due (gid : Nat) (h : Group → Group) : (s.updGroup gid h).due = s.due := rfl
@[simp] theorem State.updGroup_node (gid : Nat) (h : Group → Group) : (s.updGroup gid h).node = s.node := rfl
@[simp] theorem State.updGroup_mem (gid : Nat) (h : Group → Group) : (s.updGroup gid h).mem = s.mem := rfl
@[simp] theorem State.updGroup_stale (gid : Nat) (h : Group → Group) : (s.updGroup gid h).stale = s.stale := rfl
@[simp] theorem State.updGroup_poisoned (gid : Nat) (h : Group → Group) : (s.updGroup gid h).poisoned = s.poisoned := rfl
@[simp] theorem State.updGroup_correctable (gid : Nat) (h : Group → Group) : (s.updGroup gid h).correctable = s.correctable := rfl
@[simp] theorem State.updGroup_upsets (gid : Nat) (h : Group → Group) : (s.updGroup gid h).upsets = s.upsets := rfl
@[simp] theorem State.updGroup_spoiltSaves (gid : Nat) (h : Group → Group) : (s.updGroup gid h).spoiltSaves = s.spoiltSaves := rfl
@[simp] theorem State.updGroup_l1 (gid : Nat) (h : Group → Group) : (s.updGroup gid h).l1 = s.l1 := rfl
@[simp] theorem State.updGroup_l2 (gid : Nat) (h : Group → Group) : (s.updGroup gid h).l2 = s.l2 := rfl
@[simp] theorem State.updGroup_leased (gid : Nat) (h : Group → Group) : (s.updGroup gid h).leased = s.leased := rfl
@[simp] theorem State.updGroup_typed (gid : Nat) (h : Group → Group) : (s.updGroup gid h).typed = s.typed := rfl
@[simp] theorem State.updGroup_frontPts (gid : Nat) (h : Group → Group) : (s.updGroup gid h).frontPts = s.frontPts := rfl
@[simp] theorem State.updGroup_walkPts (gid : Nat) (h : Group → Group) : (s.updGroup gid h).walkPts = s.walkPts := rfl
@[simp] theorem State.updGroup_devPts (gid : Nat) (h : Group → Group) : (s.updGroup gid h).devPts = s.devPts := rfl
@[simp] theorem State.updGroup_heard (gid : Nat) (h : Group → Group) : (s.updGroup gid h).heard = s.heard := rfl
@[simp] theorem State.updGroup_brass (gid : Nat) (h : Group → Group) : (s.updGroup gid h).brass = s.brass := rfl
@[simp] theorem State.updGroup_rf (gid : Nat) (h : Group → Group) : (s.updGroup gid h).rf = s.rf := rfl
@[simp] theorem State.updGroup_opStamp (gid : Nat) (h : Group → Group) : (s.updGroup gid h).opStamp = s.opStamp := rfl
@[simp] theorem State.updGroup_opBy (gid : Nat) (h : Group → Group) : (s.updGroup gid h).opBy = s.opBy := rfl
@[simp] theorem State.updGroup_signs (gid : Nat) (h : Group → Group) : (s.updGroup gid h).signs = s.signs := rfl
@[simp] theorem State.updGroup_opLogic (gid : Nat) (h : Group → Group) : (s.updGroup gid h).opLogic = s.opLogic := rfl
@[simp] theorem State.updGroup_opSpoilt (gid : Nat) (h : Group → Group) : (s.updGroup gid h).opSpoilt = s.opSpoilt := rfl
@[simp] theorem State.updGroup_rfLate (gid : Nat) (h : Group → Group) : (s.updGroup gid h).rfLate = s.rfLate := rfl
@[simp] theorem State.updGroup_gangs (gid : Nat) (h : Group → Group) : (s.updGroup gid h).gangs = s.gangs := rfl
@[simp] theorem State.updGroup_pend (gid : Nat) (h : Group → Group) : (s.updGroup gid h).pend = s.pend := rfl
@[simp] theorem State.updGroup_cores (gid : Nat) (h : Group → Group) : (s.updGroup gid h).cores = s.cores := rfl
@[simp] theorem State.updGroup_recs (gid : Nat) (h : Group → Group) : (s.updGroup gid h).recs = s.recs := rfl
@[simp] theorem State.updGroup_waits (gid : Nat) (h : Group → Group) : (s.updGroup gid h).waits = s.waits := rfl
@[simp] theorem State.updGroup_mons (gid : Nat) (h : Group → Group) : (s.updGroup gid h).mons = s.mons := rfl
@[simp] theorem State.updGroup_pool (gid : Nat) (h : Group → Group) : (s.updGroup gid h).pool = s.pool := rfl
@[simp] theorem State.updGroup_tasks (gid : Nat) (h : Group → Group) : (s.updGroup gid h).tasks = s.tasks := rfl
@[simp] theorem State.updGroup_tlbs (gid : Nat) (h : Group → Group) : (s.updGroup gid h).tlbs = s.tlbs := rfl
@[simp] theorem State.updGroup_walks (gid : Nat) (h : Group → Group) : (s.updGroup gid h).walks = s.walks := rfl
@[simp] theorem State.updGroup_frontMarks (gid : Nat) (h : Group → Group) : (s.updGroup gid h).frontMarks = s.frontMarks := rfl
@[simp] theorem State.updGroup_walkLines (gid : Nat) (h : Group → Group) : (s.updGroup gid h).walkLines = s.walkLines := rfl
@[simp] theorem State.updGroup_wcbufs (gid : Nat) (h : Group → Group) : (s.updGroup gid h).wcbufs = s.wcbufs := rfl
@[simp] theorem State.updGroup_seeks (gid : Nat) (h : Group → Group) : (s.updGroup gid h).seeks = s.seeks := rfl
@[simp] theorem State.updGroup_ops (gid : Nat) (h : Group → Group) : (s.updGroup gid h).ops = s.ops := rfl
@[simp] theorem State.updGroup_futs (gid : Nat) (h : Group → Group) : (s.updGroup gid h).futs = s.futs := rfl
@[simp] theorem State.updGroup_launches (gid : Nat) (h : Group → Group) : (s.updGroup gid h).launches = s.launches := rfl
@[simp] theorem State.updGroup_groups (gid : Nat) (h : Group → Group) : (s.updGroup gid h).groups = updWhere (fun g => g.gid == gid) h s.groups := rfl
@[simp] theorem State.updGroup_queues (gid : Nat) (h : Group → Group) : (s.updGroup gid h).queues = s.queues := rfl
@[simp] theorem State.updGroup_contexts (gid : Nat) (h : Group → Group) : (s.updGroup gid h).contexts = s.contexts := rfl
@[simp] theorem State.updGroup_faults (gid : Nat) (h : Group → Group) : (s.updGroup gid h).faults = s.faults := rfl
@[simp] theorem State.updGroup_fwFaultSeq (gid : Nat) (h : Group → Group) : (s.updGroup gid h).fwFaultSeq = s.fwFaultSeq := rfl
@[simp] theorem State.updGroup_peers (gid : Nat) (h : Group → Group) : (s.updGroup gid h).peers = s.peers := rfl
@[simp] theorem State.updGroup_streams (gid : Nat) (h : Group → Group) : (s.updGroup gid h).streams = s.streams := rfl
@[simp] theorem State.updGroup_regs (gid : Nat) (h : Group → Group) : (s.updGroup gid h).regs = s.regs := rfl
@[simp] theorem State.updGroup_snapDue (gid : Nat) (h : Group → Group) : (s.updGroup gid h).snapDue = s.snapDue := rfl
@[simp] theorem State.updGroup_dieSnap (gid : Nat) (h : Group → Group) : (s.updGroup gid h).dieSnap = s.dieSnap := rfl
@[simp] theorem State.updGroup_copies (gid : Nat) (h : Group → Group) : (s.updGroup gid h).copies = s.copies := rfl
@[simp] theorem State.updGroup_reqs (gid : Nat) (h : Group → Group) : (s.updGroup gid h).reqs = s.reqs := rfl
@[simp] theorem State.updGroup_acks (gid : Nat) (h : Group → Group) : (s.updGroup gid h).acks = s.acks := rfl
@[simp] theorem State.updGroup_posts (gid : Nat) (h : Group → Group) : (s.updGroup gid h).posts = s.posts := rfl
@[simp] theorem State.updGroup_homeQ (gid : Nat) (h : Group → Group) : (s.updGroup gid h).homeQ = s.homeQ := rfl
@[simp] theorem State.updGroup_failedPa (gid : Nat) (h : Group → Group) : (s.updGroup gid h).failedPa = s.failedPa := rfl
@[simp] theorem State.updGroup_uncached (gid : Nat) (h : Group → Group) : (s.updGroup gid h).uncached = s.uncached := rfl
@[simp] theorem State.updGroup_outbox (gid : Nat) (h : Group → Group) : (s.updGroup gid h).outbox = s.outbox := rfl
@[simp] theorem State.updGroup_ports (gid : Nat) (h : Group → Group) : (s.updGroup gid h).ports = s.ports := rfl
@[simp] theorem State.updGroup_linkSeq (gid : Nat) (h : Group → Group) : (s.updGroup gid h).linkSeq = s.linkSeq := rfl
@[simp] theorem State.updGroup_linkRx (gid : Nat) (h : Group → Group) : (s.updGroup gid h).linkRx = s.linkRx := rfl
@[simp] theorem State.updGroup_linkAsk (gid : Nat) (h : Group → Group) : (s.updGroup gid h).linkAsk = s.linkAsk := rfl
@[simp] theorem State.updGroup_linkTx (gid : Nat) (h : Group → Group) : (s.updGroup gid h).linkTx = s.linkTx := rfl
@[simp] theorem State.updGroup_linkErrors (gid : Nat) (h : Group → Group) : (s.updGroup gid h).linkErrors = s.linkErrors := rfl
@[simp] theorem State.updGroup_bersy (gid : Nat) (h : Group → Group) : (s.updGroup gid h).bersy = s.bersy := rfl
@[simp] theorem State.updGroup_interrupts (gid : Nat) (h : Group → Group) : (s.updGroup gid h).interrupts = s.interrupts := rfl
@[simp] theorem State.updGroup_answers (gid : Nat) (h : Group → Group) : (s.updGroup gid h).answers = s.answers := rfl
@[simp] theorem State.updGroup_imageSvn (gid : Nat) (h : Group → Group) : (s.updGroup gid h).imageSvn = s.imageSvn := rfl
@[simp] theorem State.updGroup_imageCommit (gid : Nat) (h : Group → Group) : (s.updGroup gid h).imageCommit = s.imageCommit := rfl
@[simp] theorem State.updGroup_flash (gid : Nat) (h : Group → Group) : (s.updGroup gid h).flash = s.flash := rfl
@[simp] theorem State.updGroup_image (gid : Nat) (h : Group → Group) : (s.updGroup gid h).image = s.image := rfl
@[simp] theorem State.updGroup_tcm (gid : Nat) (h : Group → Group) : (s.updGroup gid h).tcm = s.tcm := rfl
@[simp] theorem State.updGroup_journalTags (gid : Nat) (h : Group → Group) : (s.updGroup gid h).journalTags = s.journalTags := rfl

end Sys2Proof.Machine
end

