-- ==== Sys2Proof/Tests/Slice0.lean ====
section
/-! SUPPORT. Tests: words of the spec, ill-formed instructions, small effects worked out by hand from the spec's rules,
and for every statement with hypotheses a state and operands that meet them. -/

namespace Sys2Proof.Tests

open Sys2Proof.Machine

set_option Elab.async false

/-! ## Small states -/

/-- A TLB entry of core 0: pages 0 to 15 of context 1 lie at 2^20, readable, writable, executable, accessed and dirty. -/
def testTlb : TlbEntry := ⟨1, 0, some 0, 1, 0, 16, 0x10031d#64, 0x80000, [], 0⟩

/-- A resume clause of one word, with v0 to v7 and the g registers live. -/
def resumeHeader : Nat := 3 * 2 ^ 62 + 15 * 2 ^ 46 + 15 * 2 ^ 42 + 2 ^ 36 + 2 ^ 35 + 8 * 2 ^ 24 + 2 ^ 23

/-- The bytes of a number at a place of memory. -/
def bytesAt (la n v : Nat) : List Host.Cell := ((natToBytes n v).zipIdx.filter fun e => e.1 != 0).map fun e => (la + e.2, e.1)

/-- One thread of core 0 at a clause of one instruction, in a group if `grp` names one; a resume clause follows. The pool lies
above both, at 4 GiB. -/
def standing (grp : Option Nat) (i : Instr) : State :=
  let s := (State.reset.withFetchWord 64 0).setDie 0 fun d => { d with poolcfg := 0x1000100208#64 }
  let ws := encode i
  { s with
    cur := some ⟨0, 0, 0⟩, tlbs := [testTlb], mem := bytesAt (0x110008 + 8 * ws.length) 8 resumeHeader
    gangs := s.gangs.map fun (g : Gang) => { g with
      group := grp
      subs := [⟨0, 0, some ⟨0x10000, BitVec.ofNat 64 (3 * 2 ^ 62 + 15 * 2 ^ 46 + 15 * 2 ^ 42 + ws.length * 2 ^ 36), ws, 0, [], false⟩, 0, 0, none⟩] } }

/-- The instruction comes to its own effect in this state, and this holds of what it finds. -/
def meets (s : State) (i : Instr) (cond : Ctx → Bool) : Bool :=
  match readyCtx i s with
  | some c => cond c
  | none => false

/-- The same for several instructions, standing alone. -/
def allMeet (grp : Option Nat) (is : List Instr) (prep : State → State := id) (cond : Ctx → Bool := fun _ => true) : Bool :=
  is.all fun i => meets (prep (standing grp i)) i cond

/-- Its checked accesses meet this. -/
def checks (target : Ctx → State → Xlt → Option Cause) (wants : Ctx → List Want) (cond : Ctx → State → List (Want × Xlt) → Bool) (c : Ctx) : Bool :=
  match checked c.s c (target c) (wants c) with
  | some (s1, rs) => cond c s1 rs
  | none => false

/-- Changes of the one gang, its one slice, core 0. -/
def withGang (h : Gang → Gang) (s : State) : State := { s with gangs := s.gangs.map h }
def withSlice (h : Slice → Slice) (s : State) : State := withGang (fun g => { g with slices := g.slices.map h }) s
def withCore (h : CoreSt → CoreSt) (s : State) : State := s.setCore 0 h
/-- v register j of the thread. -/
def withV (j v : Nat) (s : State) : State := { s with rf := tabPut 0 s.rf (32 * j) (BitVec.ofNat 32 v) }
def withBytes (la n v : Nat) (s : State) : State := { s with mem := tabPuts 0#8 s.mem la (natToBytes n v) }

/-- A RUNNING future of context 1, at entry 1 of die 0 in generation 1; its handle is 0x10001. -/
def running (s : State) : State := { s with futs := [(1, ⟨.running, 1, 1, 0, 0, false, 0, 0, 0⟩)] }
/-- Context 1: its indirection table of one entry lies at 2^21, debugging is allowed. -/
def withContext (s : State) : State :=
  { s with
    contexts := [⟨1, [0, 0x200000, 1 + 0xffffffff * 2 ^ 32, 0, 0, 2, 0, 0], 0, 0⟩], regs := { s.regs with featacc := 8 } }
/-- Entry 0 of that table: code at 0x10000 with a budget of eight registers. -/
def withEntry (s : State) : State := withBytes 0x200000 8 (2 ^ 63 + 1 * 2 ^ 56 + 0x10000) (withContext s)

def opA : Fields := { noFields with a := 8 }
def opAb : Fields := { noFields with a := 8, b := 16 }
def opAbc : Fields := { noFields with a := 8, b := 16, c := 24 }
def opG : Fields := { noFields with a := 128 }

/-! ## The hypotheses of the statements can be met: thread instructions -/

theorem witness_IntegerArithmeticCompletes : allMeet none [.add opAb, .sub opAb, .mul opAb, .mulh opAb, .mad opAbc,
    .madWide { opAbc with minor := 1 }, .min opAb, .max opAb, .abs opA, .neg opA, .dot4 opAbc] = true := by decide +kernel
theorem witness_DivisionCompletes : allMeet none [.div opAb, .rem opAb] = true := by decide +kernel
theorem witness_CarryArithmeticCompletes : allMeet none [.addc opAb, .subb opAb, .madc opAbc]
    (withCore fun k => { k with maint := true }) = true := by decide +kernel
theorem witness_BitwiseAndShiftsComplete : allMeet none [.and opAb, .or opAb, .xor opAb, .andn opAb, .not opA, .lut3 opAbc, .shl opAb,
    .shr opAb, .sra opAb, .rot opAb, .bfx opAb, .bfi opAbc, .popc opA, .clz opA, .ctz opA, .brev opA, .bsel opAbc] = true := by decide +kernel
theorem witness_FunnelShiftReturnsAWord : allMeet none [.fsh opAbc, .fsh { opAbc with minor := 1, c := 31 }, .fsh { opAbc with minor := 2 }] = true := by
  decide +kernel
theorem witness_SelectsAndComparesComplete : allMeet none [.movi { noFields with c := 5 }, .sel { opAb with c := 192 }, .cmp opAb,
    .pset { noFields with d := 192, a := 193, b := 194 }, .lea opAb, .cvti { opA with type := 3, c := 5 }] = true := by decide +kernel
theorem witness_MoveCompletes :
    allMeet none [.mov opA] (cond := fun c => decide (¬ (200 ≤ c.f.a.toNat ∧ c.f.a.toNat < 216))) = true ∧
    allMeet none [.mov { noFields with a := 201 }] (cond := fun c => !handleRunning c.s c.g.ctx (c.g.h.getD 1 0).toNat) = true ∧
    allMeet none [.mov { noFields with a := 201 }] (running ∘ withGang fun g => { g with h := g.h.set 1 0x10001 })
      (fun c => handleRunning c.s c.g.ctx (c.g.h.getD 1 0).toNat) = true := by decide +kernel
theorem witness_FloatingPointCompletes : allMeet none [.fadd opAb, .fsub opAb, .fmul opAb, .ffma opAbc, .fmin opAb, .fmax opAb, .fcmp opAb,
    .fclass opA, .frnd opA, .fscale opAb, .hadd2 opAb, .hmul2 opAb, .hfma2 opAbc, .cvtf { opA with type := 11, c := 10 },
    .cvtfi { opA with type := 3, c := 10 }, .cvtif { opA with type := 10, c := 3 }] = true := by decide +kernel
theorem witness_LongFloatingPointCompletes : allMeet none [.fdiv opAb, .fsqrt opA, .frcp opA, .frsq opA, .fex2 opA, .flg2 opA, .fsin opA,
    .fcos opA, .ftanh opA] = true := by decide +kernel
theorem witness_PairWordCompletes : allMeet none [.pairWord ⟨0, 5, 4, 0⟩ ⟨0x7f, 0, 0, 0⟩] = true := by decide +kernel
theorem witness_EmptyInstructionsComplete : allMeet none [.nop noFields, .yield noFields, .pref opAb] = true := by decide +kernel
def goes (p : Plan) : Bool := match p with | .go _ => true | _ => false
theorem witness_TransfersComplete :
    allMeet none [.bra noFields, .call noFields] (cond := fun c => goes (c.plan (some c.next) fun _ _ => c.relTarget)) = true ∧
    allMeet none [.brx opA, .ret opA] (cond := fun c => goes (c.plan none fun x l => c.src x l c.f.a.toNat 2 8)) = true ∧
    allMeet none [.callx opA] withEntry (fun c =>
      (c.lanes.all fun e => match c.callee e.1 e.2 with | .code _ _ _ _ => true | _ => false) &&
      (c.slices.all fun x => decide (c.callBudget x ≤ c.callLimit x ∧ c.callBudget x ≤ c.g.vbud)) &&
      goes (c.plan none fun x l => (c.callee x l).addr)) = true := by decide +kernel
/-- A token whose lanes rejoin at the address given. -/
def withToken (kind : TokenKind) : State → State := withSlice fun x => { x with tokens := [⟨kind, 1, 0, 0x10010⟩] }
theorem witness_ThreadEndsComplete : allMeet none [.exit noFields] = true ∧
    allMeet none [.endThread noFields] (cond := fun c => c.slices.all fun x => x.tokens.isEmpty) = true ∧
    allMeet none [.endThread noFields] (withToken .join) (fun c =>
      !(c.slices.filter fun x => guardMask c.s c.g c.f x != 0 && !x.tokens.isEmpty).isEmpty) = true := by decide +kernel
theorem witness_ExplicitTrapsAreTaken :
    allMeet none [.trap { noFields with c := 7 }, .bpt noFields] (cond := fun c => c.slices.any fun x => guardMask c.s c.g c.f x != 0) = true ∧
    allMeet none [.trap { noFields with guard := 1 }, .bpt { noFields with guard := 1 }]
      (cond := fun c => c.slices.all fun x => guardMask c.s c.g c.f x == 0) = true := by decide +kernel
theorem witness_UdfTrapsIll : (issuer (standing none (.udf noFields))).isSome = true ∧
    (match issuer (standing none (.udf noFields)) with | some (g, sub, _) => (g.slicesOf sub).any fun x => x.active != 0 | none => false) = true := by
  decide +kernel
theorem witness_SpecialRegistersComplete :
    allMeet none [.gets noFields] (cond := fun c => !sregCounter c.f.c.toNat) = true ∧
    allMeet none [.gets { noFields with type := 8, c := 0x20 }] (cond := fun c => sregCounter c.f.c.toNat) = true ∧
    allMeet none [.sets opA, .sets { opA with c := 1 }] = true ∧
    allMeet none [.sets { opA with c := 6 }] (cond := fun c => c.slices.all fun x => (prioHit c x).isNone) = true ∧
    allMeet none [.snap noFields] withContext = true := by decide +kernel

/-! ### Handlers, tokens, tasks, barriers -/

/-- A record held for a trap at the start of HBM: 128 bytes of zeros, and a copy of them. -/
def heldRec : RecMeta :=
  { bareRecord State.reset 5 0 1 [0, 0, 0, 0] none [] with
    pa := 0x300000, size := 128, st := .held, copy := List.replicate 128 0, body := none
    trap := some (trapInfo 5 ⟨0x10000, 1, 1, 1⟩ ⟨0, .swtrap, 1, 0, []⟩) }
/-- The gang handles that record, whose address stands in g0 and g1. -/
def handling (s : State) : State :=
  withGang (fun g => { g with handler := some 0x300000, g := g.g.set 0 0x300000 }) { s with recs := [heldRec] }
theorem witness_TrapReturnsComplete :
    allMeet none [.tretRetry opG, .tretSkip { opG with minor := 1 }, .tretKill { opG with minor := 2 }] handling (fun c =>
      match c.first with
      | none => false
      | some e =>
        let pa := c.src e.1 e.2 c.f.a.toNat 2 8
        let mine := c.g.slices.map fun (x : Slice) => x.pos
        let t := mine.foldl (fun (s : State) p => wcWriteSlice s c.g.core c.g.slot p) c.s
        c.g.handler.isSome && pa % 128 == 0 && !accBusy t c.g mine && tabGet 0 t.acks c.g.core == 0 &&
          match heldRecord t c.g pa with
          | some m => fieldsKept t m && (t.faults.all fun e => e.rid != some m.rid) && (readHead t m).w 0 == bytesToNat (m.copy.take 8)
          | none => false) = true := by decide +kernel

theorem witness_CrossLaneCompletes : allMeet none [.xlane opAb, .pqry { noFields with a := 193 }, .kgrp opA, .gred opA, .scan opA] = true := by
  decide +kernel
theorem witness_LeadElectsOne : allMeet none [.lead noFields, .lead { noFields with d := 192 }] = true := by decide +kernel

theorem witness_TokensAndSegmentEndsComplete :
    allMeet none [.rcvJ noFields, .rcvB { noFields with minor := 1 }]
      (cond := fun c => decide (c.rcvTarget < 2 ^ 56) && c.slices.all fun x => decide (x.tokens.length < 8)) = true ∧
    allMeet none [.join noFields] (withToken .join) = true ∧ allMeet none [.brkj { noFields with minor := 0 }] (withToken .brk) = true ∧
    allMeet none [.regang noFields, .cont noFields] (cond := fun c => !c.g.departed) = true ∧
    allMeet none [.regang noFields] (withGang fun g => { g with departed := true }) (fun c => c.g.departed) = true ∧
    allMeet none [.fwd opA] (cond := fun c => c.g.group.isNone && c.acting.all fun e =>
      (fwdDest c.s (c.src e.1 (lowLane e.2) c.f.a.toNat 1 7)).isSome) = true := by decide +kernel
theorem witness_SpawningCompletes : allMeet none [.spawn opAb, .spawnNb { opAb with minor := 1, d := 192 }] withEntry (fun c =>
    !c.mustWait && c.lanes.all fun e => match c.spawnee e.1 e.2 with | .code _ _ _ _ => true | _ => false) = true := by decide +kernel

/-- Barrier 3 of core 0 expects two arrivals; v8 holds 1. -/
def barred (s : State) : State := withV 8 1 (s.setBarrier 0 3 fun r => { r with expect := 2 })
theorem witness_BarriersComplete :
    allMeet (some 1) [.bari { opA with c := 3 }] (withV 8 1) (fun c => !c.isTask && !c.mustWait && (c.s.barrier 0 3).count == 0 &&
      !barrierWaiting c.s 0 3 && match c.first with | some e => c.src e.1 e.2 c.f.a.toNat 1 7 == 1 | none => false) = true ∧
    allMeet (some 1) [.arrive { noFields with c := 3 }, .arriveRlx { noFields with c := 3, minor := 1 }, .bwait { opA with c := 3 }] barred
      (fun c => !c.isTask && !c.mustWait && (c.s.barrier 0 3).expect != 0) = true := by decide +kernel

/-! ### The expand unit -/

/-- Beside testTlb, page 16 is the plain scratchpad window of core 0. -/
def withScratch (s : State) : State :=
  { s with tlbs := s.tlbs ++ [⟨2, 0, some 0, 1, 16, 1, 0x8000008031d#64, 0x80008, [], 0⟩] }
/-- Group 1 of launch 1 has 64 KiB of scratchpad. -/
def withGroup (s : State) : State :=
  { s with
    groups := [⟨1, 1, 0, 0, 1, 0, .placed, 0, 1, none, [], 0⟩]
    launches := [⟨1, 0, 1, 0, 1, 0, 0, false, [0, 0, 0x10000], 0, 8, false, 0, .active, 0, 1, 0, false, [], none, 0, 0, false, false, [], 0, [], false⟩] }

/-- An expansion of two items for one owner, that adds I32 to place 0x40 in HBM, in slot 0 of core 0. -/
def testExp (op : Nat) (grp : Bool) (bound : Nat) : Expansion := ⟨0x310000, 1, 1, 3, op, 0, 0, grp, 0x40, 2, 0, bound, [⟨7, 2, 0, 0, false, 0, 0⟩]⟩
/-- The thread is bound to it and holds its first item. -/
def bound (op : Nat) (s : State) : State :=
  withCore (fun k => { k with expand := k.expand.set 0 (some (testExp op false 1)) })
    (withSlice (fun x => { x with xsave := some 0x310000, lanes := x.lanes.map fun (t : Lane) => { t with xbound := true, xitem := true } }) s)
/-- The same for a group's expansion with index 0, not bound yet. -/
def openGroup (s : State) : State :=
  withCore (fun k => { k with expand := k.expand.set 0 (some (testExp 1 true 0)), gexp := k.gexp.set 0 (some 0x310000) }) s

theorem witness_ExpansionsOpen :
    allMeet none [.expb { opAb with d := 192, guard := 1 }] (cond := fun c => c.first.isNone) = true ∧
    allMeet none [.expb { opAb with d := 192 }, .expb { opAbc with d := 192, minor := 1, type := 3 }] (withV 24 0x40) (fun c => match c.first with
      | none => false
      | some e => (c.f.minor == 0 || c.resultBase e == 0x40) && (c.alreadyBound []).isEmpty && !c.f.aux.getLsbD 2 && decide (totalOf (laneOwners c) ≤ 0xffffffff) &&
        checks (fun _ => anyTarget) (fun c => zeroWants c e (c.resultBase e) (laneOwners c)) (fun c s1 rs => expSlotFree s1 c.g.core &&
          (poolAlloc s1 c.g.core (saveSize (laneOwners c).length)).isSome && !leafStops s1 rs && accFree (dirtyAll s1 c rs) c (zeroStores c rs)) c) = true ∧
    allMeet (some 1) [.expb { opAb with d := 240, aux := 4 }] (withGroup ∘ withScratch ∘ withV 16 1 ∘ withV 8 0x100000) (fun c => match c.first with
      | none => false
      | some e => (c.alreadyBound []).isEmpty && c.f.aux.getLsbD 2 && c.opnd e.1 e.2 .a % 8 == 0 && c.opnd e.1 e.2 .b == 1 && !c.mustWait && !c.isTask &&
        checks (fun _ => anyTarget) (fun c => tableWants c e) (fun c s0 ts => (tableRows ts).all (rowInGroup s0 c.g) && !portBusy s0 c.g.core (tableRows ts) &&
          (match checked s0 c anyTarget (zeroWants c e (c.resultBase e) (tableOwners c s0 ts)) with
          | some (s1, rs) => ((s1.core c.g.core).gexp.getD (c.f.aux.toNat % 4) none).isNone && decide (totalOf (tableOwners c s0 ts) ≤ 0xffffffff) &&
              expSlotFree s1 c.g.core && (poolAlloc s1 c.g.core (saveSize (tableOwners c s0 ts).length)).isSome &&
              !leafStops s1 rs && accFree (dirtyAll s1 c rs) c (zeroStores c rs)
          | none => false)) c) = true := by decide +kernel

/-- The items' stores can be made. -/
def itemsReady (items : Ctx → List Item) (c : Ctx) : Bool :=
  checks (fun _ => anyTarget) (fun c => itemWants c (items c)) (fun c s1 rs => !leafStops s1 rs && accFree (dirtyAll s1 c rs) c (itemStores s1 c (items c) rs)) c
theorem witness_ExpansionItemsComplete :
    allMeet none [.expn { noFields with d := 192 }] (bound 1) (fun c => !c.lanes.isEmpty && !c.f.aux.getLsbD 2 && c.loose.isEmpty && itemsReady passedItems c) = true ∧
    allMeet (some 1) [.expn { noFields with d := 192, aux := 4 }] openGroup (fun c => !c.lanes.isEmpty && c.f.aux.getLsbD 2 && !c.isTask &&
      (c.s.core 0).gexp.getD 0 none == some 0x310000 && (c.lanes.all fun e => e.1.xsave.isNone) && (expAt c.s 0 0x310000).isSome && itemsReady passedItems c) = true ∧
    allMeet none [.expe noFields] (bound 1) (fun c => c.loose.isEmpty && itemsReady passedItems c) = true ∧
    allMeet none [.segr { opA with type := 3 }] (bound 1) (fun c => (segrBad c).isEmpty &&
      itemsReady (fun c => (c.lanes.filter fun e => (e.1.lane e.2).xitem).map fun e =>
        itemOf e.1 e.2 (e.1.xsave.getD 0) (c.opnd e.1 e.2 .a % 2 ^ c.w)) c) = true := by decide +kernel

/-! ### Memory instructions -/

theorem witness_MemoryAccessesComplete :
    allMeet none [.ld opAb] (cond := checks (fun _ => anyTarget) (fun c => c.wants 4) fun c s1 rs =>
      c.received.isNone && accFree s1 c (loads c rs)) = true ∧
    allMeet none [.st opAb] (cond := checks (fun _ => anyTarget) (fun c => c.wants 8) fun c s1 rs =>
      c.received.isNone && c.lateHandle.isNone && !leafStops s1 rs && accFree (dirtyAll s1 c rs) c (stores c rs)) = true ∧
    allMeet none [.atom opAb] (cond := checks (fun _ => atomTarget) (fun c => atomWants c c.eaPlain) fun c s1 rs =>
      !leafStops s1 rs && accFree (dirtyAll s1 c rs) c (atoms c c.f.minor.toNat c.f.d.toNat (fun x l => c.opnd x l .b % 2 ^ c.w) (fun _ _ => 0) rs)) = true ∧
    allMeet none [.red opAb] (cond := checks (fun _ => atomTarget) (fun c => atomWants c c.eaPlain) fun c s1 rs =>
      !leafStops s1 rs && accFree (dirtyAll s1 c rs) c (atoms c c.f.minor.toNat 240 (fun x l => c.opnd x l .b % 2 ^ c.w) (fun _ _ => 0) rs)) = true ∧
    allMeet none [.cas opAbc] (cond := checks (fun _ => atomTarget) (fun c => atomWants c c.eaCas) fun c s1 rs => !leafStops s1 rs && accFree (dirtyAll s1 c rs) c
      (atoms c 12 c.f.d.toNat (fun x l => c.opnd x l .b % 2 ^ c.w) (fun x l => c.opnd x l .c % 2 ^ c.w) rs)) = true ∧
    allMeet none [.arriveRemote { opA with minor := 2, d := 240 }] (cond := checks (fun _ => atomTarget) arriveWants fun c s1 rs =>
      !c.mustWait && !leafStops s1 rs && accFree (dirtyAll s1 c rs) c (arriveAccs rs)) = true ∧
    allMeet none [.st { opAb with d := 201 }] (running ∘ withGang fun g => { g with h := g.h.set 1 0x10001 })
      (checks (fun _ => anyTarget) (fun c => c.wants 8) fun c s1 rs => c.received.isNone &&
        c.lateHandle == some 0x10001 && !leafStops s1 rs) = true := by decide +kernel

theorem barred_window {c : Ctx} {p : Port} (hp : c.winPort = some p) (h : c.accBytes = 1 ∨ c.accBytes = 4) (hw : ∀ e ∈ c.lanes, c.displace e.1 e.2 = 0)
    (hk : p.kind = 2) : c.barred = [] := by
  simp only [Ctx.barred, List.filterMap_eq_nil_iff]
  intro e he
  obtain ⟨h1, h2, h3⟩ := Ctx.ea_window hp (e := e) (by rw [hk]; decide) (by rw [hw e he]; omega) (by omega)
  rw [hw e he] at h1
  have h4 : c.ea e.1 e.2 % c.accBytes = 0 := by rcases h with h | h <;> rw [h] <;> omega
  simp [h4]
  omega

/-- Port 2 of core 0 has received an entry; a byte of it is loaded or stored. -/
def received (i : Instr) : State :=
  withCore (fun k => { k with ports := k.ports.set 2 { Port.unbound with kind := 2, entries := [List.replicate 32 7] } })
    (running (withGang (fun g => { g with h := g.h.set 1 0x10001 }) (standing (some 1) i)))
def receivers : List (Instr × Option Nat) :=
  [(.ld { opAb with a := 234, type := 1 }, none), (.st { opAb with a := 234, type := 1 }, none), (.st { opAb with d := 201, a := 234 }, some 0x10001)]
theorem witness_MemoryAccessesComplete_received : ∀ i ∈ receivers,
    ∃ c, readyCtx i.1 (received i.1) = some c ∧ c.received = some (List.replicate 32 7) ∧ c.barred = [] ∧ c.lateHandle = i.2 := by
  have h : (receivers.all fun i =>
    meets (received i.1) i.1 fun c => c.received == some (List.replicate 32 7) && c.lateHandle == i.2 && (c.accBytes == 1 || c.accBytes == 4) &&
      (c.lanes.all fun e => c.displace e.1 e.2 == 0) && (c.winPort.any fun p => p.kind == 2)) = true := by decide +kernel
  intro i hi
  have := List.all_eq_true.mp h i hi
  unfold meets at this
  split at this
  · rename_i c hc
    simp only [Bool.and_eq_true, Bool.or_eq_true, beq_iff_eq] at this
    obtain ⟨⟨⟨⟨h1, h0⟩, h2⟩, h3⟩, h4⟩ := this
    cases hp : c.winPort with
    | none => simp [hp] at h4
    | some p =>
      refine ⟨c, hc, h1, barred_window hp h2 ?_ (by simpa [hp] using h4), h0⟩
      simpa using h3
  · cases this

/-- v8 and v9 name the scratchpad window, v16 holds 32. -/
def scratched : State → State := withScratch ∘ withV 8 0x100000 ∘ withV 16 32
theorem witness_ScratchpadAccessesComplete :
    allMeet none [.ldfe { opAb with b := 24 }] scratched (checks (fun _ => feTarget) (fun c => c.wants 4) fun c s1 rs => !feBusy s1 c rs) = true ∧
    allMeet none [.stfe { opAb with b := 24 }] scratched (checks (fun _ => feTarget) (fun c => c.wants 8) fun c s1 rs => !leafStops s1 rs && !feBusy (dirtyAll s1 c rs) c rs) = true ∧
    allMeet none [.fesetEmpty opAb, .fesetFull { opAb with minor := 1 }] scratched (checks (fun _ => feTarget) fesetWants fun c s1 rs =>
      !leafStops s1 rs && !feBusy (dirtyAll s1 c rs) c rs && !rs.isEmpty) = true ∧
    allMeet none [.ldt { opAb with b := 24 }] scratched (checks (fun c => ldtTarget c.g.core) ldtWants fun c s1 rs => !feBusy s1 c rs) = true := by
  decide +kernel

theorem witness_WordWaitsComplete :
    allMeet none [.waitc opAb] (cond := checks (fun _ => hbmTarget) waitcWants fun c s1 rs =>
      !c.mustWait && (watchMissing s1 c.g.core (waitcWatches c rs)).isNone) = true ∧
    allMeet none [.bwaitRemote { opAbc with minor := 1 }] (withV 24 2) (checks (fun _ => hbmTarget) bwaitWants fun c s1 rs =>
      !c.mustWait && (watchMissing s1 c.g.core (bwaitWatches c rs)).isNone) = true := by decide +kernel
theorem witness_FencesComplete : allMeet none [.fence noFields, .fenceWc { noFields with minor := 1 }] = true := by decide +kernel

/-- v8 names VA 0, v16 holds 256. -/
def ranged : State → State := withV 16 256
theorem witness_MaintenanceCompletes :
    allMeet none [.cmaintIinv opAb] ranged (checks (fun _ => hbmTarget) (fun c => maintWants c 16 false) fun c _ _ => !c.mustWait) = true ∧
    allMeet none [.cmaintWb { opAb with minor := 1 }, .cmaintWbinv { opAb with minor := 2 }] ranged
      (checks (fun _ => hbmTarget) (fun c => maintWants c 4 false) fun c _ _ => !c.mustWait) = true ∧
    allMeet none [.cmaintMsset { opAb with minor := 3 }, .cmaintMsclr { opAb with minor := 4 }] ranged
      (checks (fun _ => hbmTarget) (fun c => maintWants c 8 true) fun c s1 rs => !c.mustWait && !rs.isEmpty &&
        (rs.flatMap fun r => linesOf r.2.pa r.1.bytes).all fun l => lineHere s1 0 (s1.core 0).pts l true) = true ∧
    allMeet none [.cmaintRepair { opAb with minor := 5, d := 24 }] (withGang (fun g => { g with fw := true }) ∘ withV 24 0x400 ∘ ranged)
      (checks (fun _ => hbmTarget) (fun c => maintWants c 8 true ++ repairSources c) fun c s1 rs => !c.mustWait &&
        let as := (rs.filter fun r => r.1.any).flatMap sourceAccs
        !as.isEmpty && !portBusy s1 0 (as.map fun a => a.pa) && as.all fun a => !sourceBad s1 0 a && lineHere s1 0 (s1.core 0).pts a.pa false) = true := by decide +kernel

/-! ### Ports, rings, futures -/

def withPort (k : Nat) (p : Port) : State → State := withCore fun q => { q with ports := q.ports.set k p }
theorem witness_QueuePortsComplete :
    allMeet (some 1) [.qpush { opA with d := 192, c := 235 }] (withPort 3 ⟨4, 0, [], [], 0, 15, [], 0⟩)
      (fun c => !c.lanes.isEmpty && !c.isTask && !c.mustWait && (c.port 235).kind == 4 && !portBusy c.s 0 [ownPa c.s (windowBase 0 + 0x80000)] && (pushEntry c 3).isSome) = true ∧
    allMeet (some 1) [.qpush { opA with d := 192, c := 235 }] (withPort 3 ⟨4, 0, [], [], 0, 16, [], 0⟩)
      (fun c => !c.lanes.isEmpty && !c.isTask && !c.mustWait && (c.port 235).kind == 4 && (pushEntry c 3).isNone) = true ∧
    allMeet (some 1) [.qwait { noFields with d := 192, a := 233 }, .qwaitNb { noFields with minor := 1, d := 192, a := 233 }] (withPort 1 ⟨4, 0, [], [], 0, 1, [], 0⟩)
      (fun c => !c.lanes.isEmpty && !c.isTask && (c.port 233).kind == 4 && headOf c.s 0 233 != .none) = true ∧
    allMeet (some 1) [.qwait { noFields with d := 192, a := 233 }, .qwaitNb { noFields with minor := 1, d := 192, a := 233 }] (withPort 1 ⟨4, 0, [], [], 0, 0, [], 0⟩)
      (fun c => !c.lanes.isEmpty && !c.isTask && (c.port 233).kind == 4 && headOf c.s 0 233 == .none) = true := by decide +kernel

/-- Ring 2 of core 0: two stages of 128 bytes from 256. -/
def withRing (full held : List Bool) : State → State := withCore fun q => { q with rings := q.rings.set 2 ⟨true, 256, 128, 2, full, held, 0, 0, []⟩ }
theorem witness_RingsComplete :
    allMeet (some 1) [.racqP { noFields with c := 2 }] (withRing [false, false] [false, false]) (fun c => !c.lanes.isEmpty && !c.isTask &&
      (c.s.ring 0 2).valid && (ringWaiters c.s 0 2 false).isEmpty && (ringAcquire c.s 0 2 false).isSome) = true ∧
    allMeet (some 1) [.racqC { noFields with c := 2, minor := 1 }] (withRing [true, false] [false, false]) (fun c => !c.lanes.isEmpty && !c.isTask &&
      (c.s.ring 0 2).valid && (ringWaiters c.s 0 2 true).isEmpty && (ringAcquire c.s 0 2 true).isSome) = true ∧
    allMeet (some 1) [.rrelP { opA with c := 2 }] (withRing [false, false] [false, true] ∘ withV 8 384) (fun c => !c.isTask && !c.mustWait &&
      match c.first with
      | some e => let a := c.src e.1 e.2 8 1 7; decide (256 ≤ a) && (a - 256) % 128 == 0 && (ringRelease c.s 0 2 false ((a - 256) / 128) none).isSome
      | none => false) = true ∧
    allMeet (some 1) [.rrelC { opA with c := 2, minor := 1 }] (withRing [true, false] [true, false] ∘ withV 8 256) (fun c => !c.isTask && !c.mustWait &&
      match c.first with
      | some e => let a := c.src e.1 e.2 8 1 7; decide (256 ≤ a) && (a - 256) % 128 == 0 && (ringRelease c.s 0 2 true ((a - 256) / 128) none).isSome
      | none => false) = true ∧
    allMeet (some 1) [.rinit { opAb with minor := 1, c := 2 }] (withGroup ∘ withV 8 0xff00 ∘ withV 16 128) (fun c => !c.isTask && !c.mustWait &&
      !(c.s.ring 0 2).valid && match c.first with
      | some e => let a := c.src e.1 e.2 8 1 7; let n := c.src e.1 e.2 16 1 7
        a % 128 == 0 && n % 128 == 0 && n != 0 && a + 2 * n == groupScratch c.s c.g.group
      | none => false) = true := by decide +kernel

theorem witness_FuturesComplete :
    allMeet none [.fwait opA] (cond := fun c => !c.lanes.isEmpty && c.lanes.all fun e => !handleRunning c.s c.g.ctx (c.handle e.1 e.2)) = true ∧
    allMeet none [.ftest { opA with d := 192 }, .fcancel opA] (running ∘ withV 8 0x10001) = true := by decide +kernel

/-! ### The matrix unit, engines, fibres -/

def startedAt (k : Nat) : State → State := withSlice fun x => { x with bind := x.bind.set 0 (some k) }
/-- v8 and v9 hold a 64-bit value. -/
def withPair (v : Nat) : State → State := withV 9 (v / 2 ^ 32) ∘ withV 8 (v % 2 ^ 32)
/-- A reservation of F16 on the X side over 64 units, and one of I8 with one term on the W side over 40. -/
def specX : Nat := 11 * 2 ^ 52 + 64 * 2 ^ 27
def specW : Nat := 2 ^ 57 + 2 ^ 52 + 40 * 2 ^ 27
/-- The specification in v8 and v9 with the offset in v16 is good for record 0. -/
def specOk (wside : Bool) (c : Ctx) : Bool := !c.lanes.isEmpty && !c.isTask && !c.mustWait && match c.first with
  | some e => resvOk c.s 0 0 (c.src e.1 e.2 8 2 8) (resvOf wside (c.src e.1 e.2 8 2 8) (c.src e.1 e.2 16 1 7))
  | none => false
/-- Records 0 and 1 are those reservations. -/
def reserved : State → State := withCore fun k => { k with resvs := (k.resvs.set 0 (resvOf false specX 8192)).set 1 (resvOf true (specW + 0x10000) 5120) }
/-- An operation of slot 0 that reads them. -/
def matrixOp (s : State) : State := { s with ops := [⟨9, .mxissue, 0, 0, 1, false, 0, some 1, 0x10001, 0, none, [0, 1, 0, 0, 32], [], 0, 0, 0, 0, false, 0,
  ⟨none, [], []⟩, false, 0, [], [], [], none, none, [], [], none, none, false, false, 0, 0, 0, 0, [], none, false⟩] }
def groupReady (c : Ctx) : Bool := !c.lanes.isEmpty && !c.isTask && !c.mustWait
theorem witness_MatrixStateCompletes :
    allMeet (some 1) [.mxresX opAb] (withV 16 8192 ∘ withPair specX) (specOk false) = true ∧
    allMeet (some 1) [.mxresW { opAb with minor := 1 }] (withV 16 5120 ∘ withPair specW) (specOk true) = true ∧
    allMeet (some 1) [.mxrel noFields] reserved (fun c => groupReady c && (c.s.resv 0 0).valid && !(c.s.resv 0 0).releasing && (opsReading c.s 0 0).isEmpty) = true ∧
    allMeet (some 1) [.mxrel noFields] (matrixOp ∘ reserved) (fun c =>
      groupReady c && (c.s.resv 0 0).valid && !(c.s.resv 0 0).releasing && !(opsReading c.s 0 0).isEmpty) = true ∧
    allMeet (some 1) [.mxfence noFields] (cond := groupReady) = true ∧
    allMeet (some 1) [.talloc noFields] (cond := fun c => groupReady c && (c.slices.all fun x => x.bind.getD 0 none == none) &&
      (List.range 4).find? (fun k => !(c.s.core 0).slots.getD k false) == some 0) = true ∧
    allMeet (some 1) [.tfree noFields] (startedAt 2) (fun c => groupReady c && c.slices.all fun x => (x.bind.getD 0 none).isSome) = true := by decide +kernel

/-- An engine operation can be issued. -/
def descMeets (cond : Ctx → Slice × Nat → Nat → Bool) (pre : Ctx → Slice × Nat → State) (c : Ctx) : Bool := match c.first with
  | some e => let a := c.src e.1 e.2 c.f.a.toNat 2 8
    !c.mustWait && decide (a < 2 ^ 56) && a % 64 == 0 && cond c e a && (futEntry (pre c e) (c.g.core / 64)).isSome
  | none => false
theorem witness_EngineOperationsStart :
    allMeet none [.cpy { opA with d := 200 }, .ixwalk { opA with d := 200 }, .dqnt { opA with d := 200 }] (cond := descMeets (fun _ _ _ => true) fun c _ => c.s) = true ∧
    allMeet none [.qnt { opA with d := 200 }] (cond := descMeets (fun _ _ _ => true) seeded) = true ∧
    allMeet (some 1) [.fetch { opAbc with d := 200 }] (cond := descMeets (fun c _ _ => !c.isTask) fun c _ => c.s) = true ∧
    allMeet (some 1) [.cpact { opAb with d := 200, c := 195 }] (cond := descMeets (fun c _ _ => !c.isTask && !unsettled c.s 0 0 && (compactAhead c.s 0).2 % 128 == 0) fun c _ => c.s) = true ∧
    allMeet (some 1) [.cpfl { noFields with d := 200 }] (cond := fun c => c.first.isSome && !c.isTask && !c.mustWait && (futEntry c.s 0).isSome) = true ∧
    allMeet (some 1) [.mxissue { opA with d := 200 }] (reserved ∘ startedAt 2 ∘ withPair (16 + 31 * 2 ^ 16)) (fun c => !c.isTask && !c.mustWait && match c.first with
      | some e => issueOk c.s 0 e.1 (c.src e.1 e.2 8 2 8) && (futEntry c.s 0).isSome
      | none => false) = true ∧
    allMeet (some 1) [.mxdrain { opA with d := 200 }, .mxdrainRaw { opA with d := 200, minor := 1 }, .mxdrainMx { opA with d := 200, minor := 2 }] (startedAt 2)
      (descMeets (fun c e _ => !c.isTask && e.1.bind.getD 0 none == some 2) seeded) = true := by decide +kernel

/-- Fibre 0 of the thread stands at its first of three elements: coordinates from VA 0x40, values from VA 0x80. -/
def fibred : State → State := withSlice fun x => { x with lanes := x.lanes.map fun (t : Lane) => { t with fibres := t.fibres.set 0 ⟨true, 0x40, 0x80, 3, 0, 0, false⟩ } }
theorem witness_FibresComplete :
    allMeet none [.zopen { opAbc with d := 216 }] (withV 8 0x40) (fun c => !c.lanes.isEmpty && c.lanes.all fun e =>
      zopenBad (c.src e.1 e.2 8 2 8) (c.src e.1 e.2 24 2 8) (if bitOf c.f.aux.toNat 0 then 8 else 4) == none) = true ∧
    allMeet none [.zclose { noFields with d := 216 }] fibred = true ∧
    allMeet none [.zend { noFields with d := 192, a := 216 }] fibred (fun c => !c.lanes.isEmpty && c.lanes.all fun e => !fibrePending c e.1 e.2 0) = true ∧
    allMeet none [.zadv { noFields with d := 216 }, .zadvSeek { noFields with minor := 1, b := 16, d := 216 }] fibred (fun c => !c.lanes.isEmpty && !accBusy c.s c.g c.guarded &&
      ((advanceAll c (c.f.minor == 1) 0 c.lanes c.s).2.all fun q => match q.2 with | .found _ => true | _ => false)) = true ∧
    allMeet none [.zval { noFields with a := 216 }] fibred (fun c =>
      let r := zvalLanes c 0 c.lanes c.s
      deciders c.guarded (r.2.map fun e => e.1) == ([], []) && !(zvalAccs c r.2).isEmpty && accFree r.1 c (zvalAccs c r.2)) = true := by decide +kernel

/-! ## The part's own steps -/

/-- Steps made one after the other. -/
def after (is : List Instr) (s : State) : State := is.foldl (fun s i => match exec i s with | .next t => t | _ => s) s
def slice0 (s : State) : Option Slice := (s.gang 0 0).bind fun g => g.slice 0

/-- The thread stands before a clause of one word at 0x10000. -/
def before (w : Nat) : State :=
  withBytes 0x110008 8 w (withBytes 0x110000 8 (3 * 2 ^ 62 + 15 * 2 ^ 46 + 15 * 2 ^ 42 + 2 ^ 36)
    (withGang (fun g => { g with slices := g.slices.map fun (x : Slice) => { x with pc := 0x10000 }, subs := [⟨0, 0, none, 0, 0, none⟩] })
      (standing none (.nop noFields))))
def fetched (s : State) : Option (Fetched (W64 × List W64)) := match s.gang 0 0, slice0 s with
  | some g, some x => match g.sub 0 with
    | some u => if subFree s g u && !slotBusy s 0 g.islot && x.pc == 0x10000 then some (nextFetch s g u).2 else none
    | none => none
  | _, _ => none
/-- The word of NOP (R133). -/
def nopW : Nat := 0x4e80000000000000
/-- A line that die 1 of node 2 holds alone. -/
def lent (la : Nat) (s : State) : State := setBrass s la (withOwner (brassOf s la) 2 2 1)
/-- An outstanding result of the thread. -/
def late (flag : Option Nat) : Pend := ⟨7, 0, 0, [0], flag, [], [], [], [], [], ⟨0x10008, 1, 1⟩, false, false, [], []⟩
/-- A failure to take, or none; and where the slice stands. -/
def standsAt (st : SliceSt) (e : List MemErr) : State → State := withSlice fun x => { x with st := st, merr := e }
def oneErr : MemErr := ⟨0x10008, 1, 1, [(0, 0x40)]⟩
def oneEnd : EndInfo := plainEnd 5 0x10010 (BitVec.ofNat 64 resumeHeader)
def oneTrap : TrapInfo := trapInfo 5 ⟨0x10000, 1, 1, 1⟩ ⟨0, .swtrap, 1, 0, [0, 0, 0, 0]⟩
/-- A combining buffer that holds a store of the thread. -/
def testBuf : WcBuf := ⟨4, 0, 0x100000, [(3, 9)], [⟨0, 0, 0, ⟨0x10008, 1, 1⟩⟩], [], 0, 1, 1⟩
def isDrained (s : State) : Bool := drained s 0 0 0

theorem witness_ClauseAndSliceStepsAct :
    (match fetched (before nopW) with | some (.ok _) => slotChoice (before nopW) 0 0 == some (0, 0) | _ => false) = true ∧
    (match fetched (withBytes 0x110000 8 0 (before nopW)) with
      | some (.trap _ _) => slotChoice (withBytes 0x110000 8 0 (before nopW)) 0 0 == some (0, 0) | _ => false) = true ∧
    (match fetched { before nopW with tlbs := [] } with | some (.walk _) => slotChoice { before nopW with tlbs := [] } 0 0 == some (0, 0) | _ => false) = true ∧
    (match fetched (lent 0x110000 (before nopW)) with | some (.ask _) => true | _ => false) = true ∧
    (let s := { before nopW with poisoned := [0x110000 / 128] }
     match fetched s with | some (.bad _) => slotChoice s 0 0 == some (0, 0) | _ => false) = true ∧
    ([some 0, none].all fun k => pendReady { before nopW with pend := [late k] } (late k)) = true ∧
    ([SliceSt.run 0, .parked 0x10010 0, .ending oneEnd].all fun st => (slice0 (standsAt st [oneErr] (before nopW))).any fun x => x.st == st && !x.merr.isEmpty) = true ∧
    ([SliceSt.ending oneEnd, .ending { oneEnd with full := true }, .trapping oneTrap, .trapping { oneTrap with full := true }].all fun st =>
      let s := standsAt st [] (before nopW)
      isDrained s && (sliceBufs s 0 0 0).isEmpty && !slicePosts s 0 0 0 && (handlerLine s 0 1).isNone && (slice0 s).any fun x => x.st == st && x.merr.isEmpty) = true ∧
    (let s := { standsAt (.ending oneEnd) [] (before nopW) with wcbufs := [testBuf] }
     isDrained s && !(sliceBufs s 0 0 0).isEmpty) = true := by decide +kernel

/-- The thread has ended its segment with CONT: its record stands in a bin. -/
def binned : State := after [.cont noFields, .segmentEnd 0 0 0] (standing none (.cont noFields))
/-- The same for the thread bound to an expansion, whose save area has been written out. -/
def binnedExp : State := after [.cont noFields, .segmentEnd 0 0 0] (bound 1 (standing none (.cont noFields)))
/-- Its record waits on the RUNNING future that FWAIT names. -/
def waiting : State := after [.fwait opA, .segmentEnd 0 0 0] (running (withV 8 0x10001 (standing none (.fwait opA))))
def oneRec (s : State) : Option RecMeta := s.recs.head?
/-- The event of the record's lane has come about, with this kind and outcome. -/
def fires (kind : WaitKind) (failed : Bool) (s : State) : State :=
  { s with waits := s.waits.map fun (w : Wait) => { w with kind := kind, fired := some [5, 0], failed := failed } }
def canFire (s : State) : Bool := match oneRec s, s.waits with
  | some m, [w] => s.rec? w.rid == some m && w.fired.isSome && bitOf (readHead s m).waits w.lane
  | _, _ => false
/-- The choice of core 0 is this bin in one of these classes. -/
def picks (ok : Nat → Nat → Bool) (s : State) : Bool := match choice208 s 0 with
  | some c => (match c.pick with | .bin b k => ok b k | .gang => false)
  | none => false
/-- Group 1 has one gang of one thread to create on core 0. -/
def creating : State :=
  withCore (fun k => { k with group := some 1 }) { withGroup State.reset with
    launches := [⟨1, 0, 1, 0, 1, 0, 0, false, [BitVec.ofNat 64 (2 ^ 35 + 2 ^ 26), 0, BitVec.ofNat 64 (2 ^ 32)], 0x10000, 8, false, 0, .active, 0, 1, 0, false, [], none, 0, 0, false, false, [], 0, [], false⟩] }
/-- The record is on its way to a place. -/
def sentTo (w : Nat) : State := { binned with recs := binned.recs.map fun (m : RecMeta) => { m with st := .travelling w } }

theorem witness_RecordAndBinStepsAct :
    canFire (fires (.fut 0x10001) false waiting) = true ∧
    canFire (fires (.fut 0x10001) true waiting) = true ∧
    canFire (fires (.futPort 0x10001 0 2 0 0) false waiting) = true ∧
    (let s := fires (.futStore 0x10001 0x40 0x40 0) false waiting
     canFire s && (oneRec s).any fun m => match handleStore s m 0 0x10001 0x40 0x40 0 with | .done _ => true | _ => false) = true ∧
    (let at_ := 5 * 2 ^ 44 + 0x40
     let s := fires (.futStore 0x10001 at_ 0x40 3) false { waiting with regs := { waiting.regs with featacc := 0xf, route := [(5, BitVec.ofNat 64 (2 ^ 63 + 1))] } }
     canFire s && (oneRec s).any fun m => match handleStore s m 0 0x10001 at_ 0x40 3 with | .posted _ => true | _ => false) = true ∧
    (let s := { binned with clk := 1 }
     picks (fun b k => !frontLoads s 0 b && k != 1) s) = true ∧
    (let s := { binned with clk := 4000, gangs := [⟨0, 1, 0, 8, 8, 1, .general, none, none, false, [], [], 0, false, [fetchSlice], [⟨0, 0, none, 0, 0, none⟩]⟩] }
     picks (fun b k => !frontLoads s 0 b && k == 1) s) = true ∧
    (let s := { binnedExp with clk := 1 }
     picks (fun b _ => frontLoads s 0 b && (frontMissing s 0 b).isEmpty) s) = true ∧
    (match choice208 creating 0 with
      | some c => c.pick == Pick.gang && (gangNext creating 0).isSome && (freeSlot creating 0).isSome && (freeRun creating 0 c.vbud).isSome
      | none => false) = true ∧
    ((oneRec binned).any fun m => recordAged { binned with clk := 850000 } m) = true ∧
    subAged (before nopW) 0 ⟨0, 0, none, 850000, 0, none⟩ = true ∧
    (State.reset.dieRegs 3).balNext ≤ State.reset.clk ∧
    ((oneRec (sentTo (2 ^ 40))).any fun m => m.st == .travelling (2 ^ 40)) = true ∧
    ((oneRec (sentTo 0x103)).any fun m => m.st == .travelling 0x103 && fld 0x103 25 16 == (sentTo 0x103).node % 1024) = true ∧
    (reachable { sentTo 0x50000 with regs := { State.reset.regs with featacc := 0xf, route := [(5, BitVec.ofNat 64 (2 ^ 63 + 1))] } } 5) = true ∧
    ((oneRec waiting).any fun m => m.st == .waiting && m.trap.isNone && m.body.isNone && !headerBad waiting m && !blockBad waiting m &&
      let dest := 2 ^ 32 + 0x8000
      let n := grain m.size + ((m.fibre.map fun f => f.2).getD 0)
      (tiers waiting m.core).any (fun t => decide (t.1 ≤ dest) && decide (dest + n ≤ t.1 + t.2)) &&
      waiting.pool.all fun e => decide (dest + n ≤ e.1) || decide (e.1 + e.2.1 ≤ dest)) = true := by decide +kernel

/-! ### Launches -/

/-- A record of one thread with a budget of eight registers: revision 1, levels 0 to 3 declared. -/
def launchWords : List W64 := [BitVec.ofNat 64 (2 ^ 52 + 2 ^ 35 + 2 ^ 30 + 2 ^ 26), BitVec.ofNat 64 (15 * 2 ^ 48), BitVec.ofNat 64 (2 ^ 32)] ++ List.replicate 13 0
/-- Launch 1 of queue 0 in a state. -/
def launchIn (st : LaunchSt) : Launch :=
  ⟨1, 0, 1, 0, 1, 0, 0, false, launchWords, 0x10000, 8, false, 0, st, 0, 1, 0, false, [], none, 0, 0, false, false, [], 0, [], false⟩
/-- Queue 0 of context 1, with 16 packets at 2^22; its parser holds the packet that started launch 1. -/
def testQueue : HwQueue := ⟨0, .mapped, 0, 0, false, false, 4, 1, 0x400000, 0, 0, some ⟨List.replicate 16 0, 1, 0, false, false, [], none, 1, none⟩, [], []⟩
def launching (h : Launch → Launch) (st : LaunchSt) : State := withEntry { State.reset with queues := [testQueue], launches := [h (launchIn st)] }
/-- One that waits for a word of 64 bits at VA 8 to equal 5. -/
def depending (l : Launch) : Launch := { l with words := (l.words.set 8 9).set 9 5 }
/-- A part of another module's launch. -/
def asPart (l : Launch) : Launch := { l with queue := 65536, owner := some (5, 9) }
/-- Tasks of launch 1 on die 0. -/
def testTask (n since : Nat) : Task := ⟨n, 1, 0x10000, 8, 1, 0, [0, 0, 0, 0], 0, since⟩
def tasked (n : Nat) : State := { launching id .active with tasks := [(List.range n).map fun k => testTask k 0, [], [], []], clk := 1700 }
/-- The slice of the thread waits for room with one task. -/
def holdingTask : State := { standing none (.nop noFields) with
  waits := [⟨5, 0, .taskq 0, 1, none, false, []⟩], recs := [{ bareRecord State.reset 5 0 1 [0, 0, 0, 0] none [] with tasks := [testTask 1 0] }] }
/-- Group 1 of launch 1 waits for core 0. -/
def grouped (im : Option GroupImage) : State :=
  { launching id .active with groups := [⟨1, 1, 0, 0, 1, 0, .waiting, 0, 1, im, [], 0⟩] }
def theLaunch (s : State) (ok : Launch → Bool) : Bool := (s.launch? 1).any ok

theorem witness_TaskAndLaunchStepsAct :
    (firstWaiting holdingTask 0 == some 5 && (pendingTasks holdingTask 5).length == 1) = true ∧
    ((nextPair (tasked 4) 0).any fun t => (samePair ((tasked 4).tasks.getD 0 []) t).length == 4) = true ∧
    ((nextPair (tasked 3) 0).any fun t => (samePair ((tasked 3).tasks.getD 0 []) t).length == 3) = true ∧
    (let s := launching id .queued
     theLaunch s fun l => orderReady s l && missingLine s [journalPa s l.seq, queueDesc s 0] == none && recordFieldsOk s l &&
       match entryFor s l with
       | .code a v i d => entryOk l (a, v, i, d) && (match planDeps l (List.range 4) s with | .ready _ ps => ps.isEmpty | _ => false)
       | _ => false) = true ∧
    (let s := launching (fun l => { l with words := l.words.set 0 0 }) .queued
     theLaunch s fun l => orderReady s l && missingLine s [journalPa s l.seq, queueDesc s 0] == none && !recordFieldsOk s l) = true ∧
    (let s := { launching depending .waitdep with mons := [⟨0x100008, true, false, 0, 5, .dep 1 0, 1, some 5, false, 65537⟩] }
     theLaunch s fun l => l.st == .waitdep && s.failedPa.isEmpty && (s.mons.any fun m => m.who == .dep 1 0 && m.hit.isSome) &&
       (s.hwq 0).any (fun x => x.st != .unmapped) && missingLine s [journalPa s l.seq, queueDesc s 0] == none) = true ∧
    ([false, true].all fun b => let s := launching (fun l => { l with fail := b }) .ending
     theLaunch s fun l => l.st == .ending && performed s 1 && l.owner.isNone && l.fail == b && missingLine s [journalPa s l.seq] == none) = true ∧
    (theLaunch (launching (fun l => { l with parts := [⟨0, some true, true, 0⟩] }) .active) fun l => l.st == .active && !l.fail && l.parts.all fun p => p.reported) = true ∧
    ([LaunchSt.complete, .failed].all fun st => theLaunch (launching id st) fun l => l.st == st) = true ∧
    ([none, some ⟨[], [], [], [], [], [], [], 0, ⟨none, 0, []⟩⟩].all fun im => (nextGroup (grouped im) 0).any fun g => g.image == im) = true ∧
    (theLaunch { launching id .reserving with clk := 85000 } fun l => decide (l.since + clk100us ≤ 85000)) = true ∧
    (theLaunch { launching id .backoff with clk := 42500 } fun l => l.st == .backoff && l.owner.isNone && decide (l.since + 42500 ≤ 42500)) = true ∧
    (theLaunch { launching asPart .reserving with clk := 850000 } fun l => l.owner.isSome && decide (l.since + 850000 ≤ 850000)) = true ∧
    (theLaunch (launching asPart .backoff) fun l => l.owner.isSome && l.st == .backoff && decide (l.since ≤ 0)) = true ∧
    (let s := { launching (fun l => { l with parts := [⟨5, none, false, 0⟩] }) .active with clk := 85000 }
     theLaunch s fun l => !(lostParts s l).isEmpty && missingLine s [journalPa s l.seq, queueDesc s l.queue] == none) = true := by decide +kernel

/-! ### Translation, timers, faults -/

/-- Context 1 with its root table at 0: entries for VA 0 lead through tables at 0x10000 and 0x20000 to a leaf. -/
def tabled : State := withBytes 0x20000 8 0x10031f (withBytes 0x10000 8 0x20001 (withBytes 0 8 0x10001 (withContext State.reset)))
def testWalk (running : Bool) : Walk := ⟨3, 0, 1, 0, running, false, false, 1, 0⟩
def walking (b : Bool) (s : State) : State := { s with walks := [testWalk b] }
def testFault : FaultEntry := ⟨some 1, 0x500000, 6, 0, List.replicate 8 5, none, none, []⟩
def shooting (b : Bool) : State := { before nopW with regs := { State.reset.regs with sdbusy := b, sdall := true, sdglobal := true } }

theorem witness_TranslationStepsAct :
    (nextWalk (walking false tabled) 0 == some (testWalk false)) = true ∧
    (match walkResult (walking true tabled) (testWalk true) with | .leaf _ _ size _ => size == 0x10000 | _ => false) = true ∧
    (match walkResult (lent 0x10000 (walking true tabled)) (testWalk true) with | .wait _ => true | _ => false) = true ∧
    (match walkResult (walking true State.reset) (testWalk true) with | .fail code _ _ => code == 6 | _ => false) = true ∧
    ({ before nopW with clk := 85000 }.tlbs.any fun e => decide (e.since + 85000 ≤ 85000)) = true ∧
    ({ State.reset with wcbufs := [testBuf], clk := 1700 }.wcbufs.any fun b => decide (b.since + 1700 ≤ 1700)) = true ∧
    ((shooting false).regs.sdbusy == false) = true ∧
    ((shooting true).regs.sdbusy && !shotUse (shooting true)) = true ∧
    ({ State.reset with snapDue := [255, 259] }.snapDue.contains 255 && { State.reset with snapDue := [255, 259] }.snapDue.contains 259) = true ∧
    (let s := { State.reset with faults := [testFault] }
     firstFault s 1 == some testFault && match physRead s 0 .front 0x500000 16 with
     | .ok t bs => bytesToNat (bs.take 8) == 0 && bytesToNat (bs.drop 8) == 0 &&
       (match physWrite t 0 .front 0x500040 (testFault.words.flatMap fun w => natToBytes 8 w.toNat) with
        | .done u => (match physWrite u 0 .front 0x500000 (natToBytes 8 1) with | .done _ => true | _ => false)
        | _ => false)
     | _ => false) = true := by decide +kernel

/-! ### Queues -/

/-- The parser of queue 0 holds a packet of a type with these body words. -/
def holds1 (ty : Nat) (body : List Nat) : Packet :=
  ⟨([ty * 2 ^ 56 + 1] ++ body ++ List.replicate (15 - body.length) 0).map (BitVec.ofNat 64), 1, 0, false, false, [], none, 0, none⟩
def dieTlb (s : State) : State := { s with tlbs := [{ testTlb with core := none }] }
def parsing (p : Packet) : State := dieTlb (withContext { State.reset with queues := [{ testQueue with pkt := some p, prod := 3 }] })
def taken (q : Nat) (want : Nat → Bool) (s : State) (ok : State → HwQueue → Packet → Bool) : Bool := match takePacket s q want with
  | .packet t x p => ok t x p
  | .other _ => false
def linesHere (t : State) (x : HwQueue) (p : Packet) : Bool := (missingLine t [queueDesc t x.q, journalPa t p.seq]).isNone
/-- A batch of one SIGNAL: the BEGIN is held, its member and the COMMIT stand in the ring. -/
def batched : State := withBytes 0x400088 8 8 (withBytes 0x400080 8 (5 * 2 ^ 56 + 1) (withBytes 0x400108 8 1 (withBytes 0x400100 8 (3 * 2 ^ 56 + 1) (parsing (holds1 2 [1])))))

theorem witness_QueueStepsAct :
    (let s := parsing (holds1 0 [])
     missingLine s [queueDesc s 0] == none && (let r := queueNow s 0; decide ((16 + 2 ^ 32 - r.2.1) % 2 ^ 32 ≤ 2 ^ r.2.2.2.1))) = true ∧
    (let s := { parsing (holds1 0 []) with mons := [⟨0x600000, true, false, 1, 0, .wake 0, 1, some 4, false, 65537⟩] }
     (s.hwq 0).isSome && (s.mons.any fun m => m.who == MonFor.wake 0 && m.hit.isSome) && missingLine s [queueDesc s 0] == none) = true ∧
    taken 0 (fun k => k == 0 || 6 ≤ k) (parsing (holds1 0 [])) linesHere = true ∧
    taken 0 (fun k => k == 0 || 6 ≤ k) (parsing { holds1 7 [] with bad := true }) linesHere = true ∧
    taken 0 (· == 1) (parsing { holds1 1 [0x80] with record := launchWords }) (fun _ _ p => !p.bad && p.lid == 0 && !p.record.isEmpty) = true ∧
    taken 0 (· == 1) (parsing (holds1 1 [0x80])) (fun t x p => !p.bad && p.lid == 0 && p.record.isEmpty &&
      match lookVirt t x (wordAt p.words 1) 128 with | (_, .here _) => true | _ => false) = true ∧
    taken 0 (· == 2) batched (fun t x p => !p.bad && wordAt p.words 1 == 1 && decide (3 ≤ 2 ^ x.log2n) && (x.prod + 2 ^ 32 - x.cons) % 2 ^ 32 == 3 &&
      match checkMembers x (packetSrc p.words) [1] t with
      | (u, some ms) => ms.length == 1 && (match lookPacket t x 2 with | .here _ => true | _ => false) &&
          (missingLine u (journalPa u p.seq :: parserLines u 0 2)).isNone
      | _ => false) = true ∧
    taken 0 (· == 3) (parsing (holds1 3 [1])) linesHere = true ∧
    taken 0 (· == 4) (parsing (holds1 4 [0, 0, 0, 0, 256])) (fun t x p => !p.bad && p.sent.isNone && replaceOk t x.ctx p.words &&
      match rangeLines x (wordAt p.words 4) (pageParts (wordAt p.words 4) (wordAt p.words 5)) t with
      | (u, some ls) => !ls.isEmpty && linesHere u x p
      | _ => false) = true ∧
    taken 0 (· == 5) (parsing (holds1 5 [8, 77])) (fun t x p => !p.bad && p.sent.isNone && x.earlier.isEmpty && frontQuiet t && linesHere t x p &&
      match signalUpdate t 0 x.ctx x.fwown .front t.latest (frontMark t 0 x.ctx 8) 8 77 false 0 with
      | .done u => frontQuiet (clearFront u 0 x.ctx 8) && linesHere (clearFront u 0 x.ctx 8) x p
      | _ => false) = true ∧
    (let s := parsing (holds1 5 [8, 77])
     let s := { s with
       tlbs := s.tlbs.map fun (e : TlbEntry) => { e with pte := BitVec.ofNat 64 (5 * 2 ^ 44 + 0x10031d) }
       regs := { s.regs with featacc := 0xf, route := [(5, BitVec.ofNat 64 (2 ^ 63 + 1))] } }
     taken 0 (· == 5) s fun t x p => !p.bad && p.sent.isNone && x.earlier.isEmpty && frontQuiet t && linesHere t x p &&
       match signalUpdate t 0 x.ctx x.fwown .front t.latest (frontMark t 0 x.ctx 8) 8 77 false 0 with
       | .done u => !frontQuiet (clearFront u 0 x.ctx 8)
       | _ => false) = true ∧
    ([4, 5].all fun k => taken 0 (· == k) (parsing { holds1 k [8, 77] with sent := some 0 }) fun t x p =>
      !p.bad && p.sent == some 0 && frontQuiet t && !lineFailed t .front 0 && linesHere t x p) = true ∧
    (let s := { parsing (holds1 0 []) with queues := [{ testQueue with pkt := none, st := .unmapping }] }
     (s.hwq 0).any fun x => x.st == .unmapping && (headCode s x).isSome && missingLine s [queueDesc s 0] == none) = true := by decide +kernel

/-! ### Mailbox, pre-emption -/

/-- A mailbox command is being carried out. -/
def commanded (op arg : Nat) (s : State) : State := { s with regs := { s.regs with mbBusy := some (op, arg) } }
def looked (l : Look) (ok : List Byte → Bool) : Bool := match l with | .here bs => ok bs | _ => false
/-- Descriptor of context 1 at 2^23, of queue 0 at 0; the latter's ring and wake word are as given. -/
def contextAt (s : State) : State := withBytes 0x8000a0 1 6 { s with regs := { s.regs with ctxbase := 0x800000 } }
def queueAt (wake : Nat) : State := withBytes 0x18 8 wake (withBytes 8 8 (4 * 2 ^ 16 + 1) (withContext State.reset))
def mapped (st : QueueSt) : State := { withContext State.reset with queues := [{ testQueue with st := st, pkt := none }] }
def abortable : State := launching id .active
/-- Die 0 is being pre-empted. -/
def preempting (left : List Nat) : State := State.reset.setDie 0 fun d => { d with preBusy := true, preCtx := 1, preLeft := left }

theorem witness_MailboxAndPreemptStepsAct :
    (let s := commanded 1 1 (contextAt State.reset)
     mbRuns s 1 1 && (s.context 1).isNone && !s.regs.standby && looked (lookAt s (contextDesc s 1) 128) fun bs => contextOk (words64 bs)) = true ∧
    (let s := commanded 2 1 (withContext State.reset)
     mbRuns s 2 1 && (s.context 1).isSome && contextGone s 1) = true ∧
    (let s := commanded 3 0 (queueAt 0)
     mbRuns s 3 0 && (s.hwq 0).isNone && missingLine s [queueDesc s 0] == none && queueOk s (fun i => descWord s 0 (8 * i)) &&
       descWord s 0 24 % 2 ^ 54 == 0) = true ∧
    (let s := commanded 3 0 (queueAt 0x900000)
     mbRuns s 3 0 && (s.hwq 0).isNone && missingLine s [queueDesc s 0] == none && queueOk s (fun i => descWord s 0 (8 * i)) &&
       descWord s 0 24 % 2 ^ 54 == 0x900000 && looked (lookAt s 0x900000 8) fun _ => true) = true ∧
    ([QueueSt.mapped, .unmapped].all fun st => let s := commanded 4 0 (mapped st)
     mbRuns s 4 0 && missingLine s [queueDesc s 0] == none && (s.hwq 0).any fun x => x.st == st) = true ∧
    (let s := commanded 5 1 abortable
     !mbRuns s 261 1 && mbRuns s 5 1 && match s.launches.find? fun l => l.owner.isNone && l.seq == 1 && !launchOver s l.lid with
       | some l => missingLine s [queueDesc s l.queue, journalPa s l.seq] == none
       | none => false) = true ∧
    (let s := commanded 261 1 State.reset
     mbRuns s 261 1 && abortOver s 1) = true ∧
    (let s := commanded 6 (2 ^ 32) State.reset
     !mbRuns s 262 (2 ^ 32) && mbRuns s 6 (2 ^ 32) && preIdle s) = true ∧
    (let s := commanded 262 (2 ^ 32) State.reset
     mbRuns s 262 (2 ^ 32) && preIdle s) = true ∧
    (let s := commanded 7 1 State.reset
     s.regs.mbBusy == some (7, 1) && preIdle s) = true ∧
    (let s := commanded 8 0x900000 State.reset
     s.regs.mbBusy == some (8, 0x900000) && isHbm 0x900000 && looked (lookAt s (0x900000 + 0x90) 32) (fun _ => true) &&
       missingLine s ((List.range 32).map fun i => 0x900000 + 128 * i) == none) = true ∧
    (let s := commanded 9 0 State.reset
     mbRuns s 9 0 && s.contexts.isEmpty && !s.regs.standby) = true ∧
    (let s := commanded 9 1 { State.reset with regs := { State.reset.regs with standby := true } }
     mbRuns s 9 1 && s.regs.standby) = true ∧
    (!(State.reset.dieRegs 0).preBusy && ((preempting []).dieRegs 0).preBusy && ((preempting []).dieRegs 0).preLeft.isEmpty) = true ∧
    (let s := preempting [0]
     (s.dieRegs 0).preBusy && ((s.dieRegs 0).preLeft.findSome? (unitStep s 0)).isSome) = true := by decide +kernel

/-! ### The fabric -/

/-- A request of core 0 to node 5, of a kind; the route there may be up. -/
def testReq (kind : Nat) (who : ReqFor) (inj : Option Nat) : Req :=
  ⟨3, 0, who, kind, 5, 5 * 2 ^ 44, none, inj, mkMsg State.reset 0 who 5 3 0 (5 * 2 ^ 44), false, 0⟩
def asking (kind : Nat) (who : ReqFor) (inj : Option Nat) (up : Bool := true) : State :=
  { State.reset with
    reqs := [testReq kind who inj], regs := { State.reset.regs with route := if up then [(5, BitVec.ofNat 64 (2 ^ 63 + 1))] else [] } }
def posted (kind since : Nat) : State := { State.reset with posts := [⟨3, kind, 5, 0, .core 0, since, [], none, none, none, 0⟩] }
def theReq (s : State) (ok : Req → Bool) : Bool := (s.reqs.find? fun r => r.id == 3).any ok
/-- A message from node 5 to this module; that node may do everything here. -/
def fromFive (tag arg : Nat) : Msg := { mkMsg State.reset 0 (.core 0) 0 tag 0 0 with snode := 5, arg := arg, val := 1 }
def trusting (s : State) : State := { s with regs := { s.regs with acl := [(5, BitVec.allOnes 64)] } }
def itemAsked : State := { State.reset with homeQ := [⟨3, 0, 0, fromFive 1 0, true, 0⟩] }
def parted (st : LaunchSt) : State := trusting (launching (fun l => { asPart l with owner := some (5, 0), st := st }) st)
def receiving : State := withCore (fun k => { k with ports := k.ports.set 2 { Port.unbound with kind := 2 } }) State.reset
/-- A flit of a kind with its check code. -/
def goodFlit (kind : Nat) : Flit :=
  let c := kind * 2 ^ 78
  ⟨BitVec.ofNat 128 (c + 2 ^ 96 * crc32c (natToBytes 12 c ++ List.replicate 64 0)), List.replicate 64 0⟩

theorem witness_FabricStepsAct :
    ([false, true].all fun up => let s := asking 0 (.core 0) none up
     theReq s fun r => r.injected.isNone && reachable s r.node == up &&
      (!up || injectable s r && (portFor s r.msg.dnode (if lineless r.kind then none else some r.msg.addr)).isSome)) = true ∧
    (let s := { itemAsked with homeQ := itemAsked.homeQ.map fun (i : HomeItem) => { i with sent := false } }
     s.reqs.isEmpty && s.homeQ.any fun i => i.id == 3 && !i.sent) = true ∧
    (let s := { asking 0 (.core 0) (some 0) with clk := 85000 }
     theReq s fun r => reqLate s r) = true ∧
    (let s := { posted 2 0 with clk := 85000 }
     s.reqs.isEmpty && s.posts.any fun p => p.id == 3 && postLate s p) = true ∧
    (let s := { itemAsked with clk := 85000 }
     s.reqs.isEmpty && s.posts.isEmpty && s.homeQ.any fun i => i.id == 3 && forwardLate s i) = true ∧
    ([0, 1, 6].all fun k => [false, true].all fun d =>
     let s := asking k (.core 0) (some 0)
     let s := { s with reqs := s.reqs.map fun (r : Req) => { r with direct := d } }
     forUs s (fromFive 3 0) && (answered s (fromFive 3 0) (fun k => k == 0 || k == 1 || k == 6)).any fun r => r.kind == k && r.direct == d) = true ∧
    ([2, 9].all fun k => let s := posted k 0
     forUs s (fromFive (postTag 3) 0) && (s.homeQ.isEmpty) && s.posts.any fun p => postTag p.id == postTag 3) = true ∧
    ([4, 8].all fun k => let s := asking k (.core 0) (some 0)
     s.homeQ.isEmpty && s.posts.isEmpty && (answered s (fromFive 3 0) (fun k => k == 4 || k == 6 || k == 8)).any (fun r => r.who == .core 0) && (answered s (fromFive 3 0) (fun _ => true)).isSome) = true ∧
    (forUs itemAsked (fromFive (itemTag 3) 1) && (itemAsked.homeQ.find? fun i => itemTag i.id == itemTag 3 && i.sent).isSome) = true ∧
    (let s := asking 5 (.monitor 2 1) (some 0)
     forUs s (fromFive 3 0) && (answered s (fromFive 3 0) (fun k => k == 5)).any fun r => r.who == .monitor 2 1) = true ∧
    (let s := trusting (withContext State.reset)
     forUs s (fromFive 3 0) && allowed s 8 (fromFive 3 0) && (s.context 1).isSome && !bitOf (fromFive 3 0).arg 31 && s.coreOn 0 &&
       (recordRoom s 0 ((msgTail (fromFive 3 0)).headD 0) (msgFibres (fromFive 3 0)).length).isSome) = true ∧
    (let s := trusting (withContext State.reset)
     forUs s (fromFive 3 0) && allowed s 9 (fromFive 3 0) && (s.context 1).isSome && (partOf s 5 0).isNone) = true ∧
    ([LaunchSt.reserving, .backoff].all fun st => (partOf (parted st) 5 0).any fun l => l.st == st) = true ∧
    ((receiving.core 0).ports.getD 2 Port.unbound).kind = 2 ∧
    ([0, 10].all fun k => let f := goodFlit k
     fld f.ctl.toNat 127 96 == crc32c (natToBytes 12 f.ctl.toNat ++ f.payload) && f.payload.length == 64 && State.reset.ports.getD 0 false &&
       fld f.ctl.toNat 95 84 == State.reset.linkSeq.getD 0 0 && kindNamed (fld f.ctl.toNat 82 78) == (k == 0)) = true ∧
    (let f := { goodFlit 0 with payload := [] }
     f.payload.length != 64) = true := by decide +kernel

/-- Die 0 owns a copy of line 0 of node 5. -/
def owning : State := { State.reset with copies := [⟨0, 0, true, true, 1, 2, List.replicate 128 0, false, false⟩] }
theorem witness_HomeMessagesAct :
    (forUs State.reset (fromFive 3 2) && (fromFive 3 2).arg % 4 == 2) = true ∧
    (owning.copies.find? fun c => c.die == 1 && c.pa == lineOf (fromFive 3 4).addr && c.owned) = none ∧
    ([0, 1, 3].all fun k => forUs owning (fromFive 3 k) && (fromFive 3 k).arg % 4 == k &&
      [false, true].all fun b => { owning with copies := owning.copies.map fun (c : LineCopy) => { c with bad := b } }.copies.any fun c =>
        c.die == k / 4 % 4 && c.pa == lineOf (fromFive 3 k).addr && c.owned && c.bad == b) = true ∧
    (allowed (trusting State.reset) 0 (fromFive 3 0) && !absentHere State.reset 0 (fromFive 3 0) && !allowed State.reset 0 (fromFive 3 0) &&
      absentHere State.reset 0 { fromFive 3 0 with addr := 2 ^ 43 - 128 }) = true := by decide +kernel

/-! ### Streams -/

/-- An ancillary stream of two slots and a time limit of 1 µs, its descriptor at 2^23. -/
def streamed (good : Bool) : State :=
  withBytes 0x800000 8 (if good then 2 * 2 ^ 16 else 0) (withBytes 0x800020 8 (2 * 2 ^ 32) (withBytes 0x800030 8 (2 ^ 32)
    (State.reset.setStream 0 fun t => { t with desc := 0x800000 })))
def testFrame : Frame := ⟨1, 0, 0, 5, 0, 0, 0, 0, [0], none, [], [], 0, 0, 0, false, none, []⟩
def framed : State := State.reset.setStream 0 fun t => { t with state := 1, frames := [testFrame] }
theorem witness_StreamStepsAct :
    ([false, true].all fun good => let s := streamed good
     let t := s.stream 0
     t.state == 0 && t.shut && looked (lookAt s t.desc 64) fun bs =>
       (t.desc % 64 == 0 && descriptorOk { Stream.reset with desc := t.desc, words := words64 bs, entries := t.entries, held := t.held }) == good) = true ∧
    ({ State.reset.regs with featacc := 1 }.featacc.getLsbD 0) = true ∧
    ((frameAt framed 0 1).any fun f => frameLate framed (framed.stream 0) f) = true := by decide +kernel

/-! ### The device -/

def inPhase (p : Phase) : State := { State.reset with regs := { State.reset.regs with phase := p } }
def booted (s : State) : State := { s with regs := { s.regs with phase := .ready, booted := true } }
theorem witness_DeviceStepsAct :
    (accepting (booted State.reset)) = true ∧
    (State.reset.regs.phase == .rom && !accepting State.reset) = true ∧
    (State.reset.contexts.isEmpty) = true ∧
    (let s := State.reset.setDie 0 fun d => { d with poolNext := some 5 }
     (s.dieRegs 0).poolNext.isSome && poolEmpty s 0) = true ∧
    (decide (1760 ≤ { State.reset with regs := { State.reset.regs with tj := 1760 } }.regs.tj)) = true ∧
    ([Phase.rom, .verify, .hbminit, .selftest, .ready].all fun p => (inPhase p).regs.phase == p && !(inPhase p).regs.booted) = true ∧
    ((bootImage (withBytes 0 4 0x53464c44 State.reset) true).isSome && (bootImage { State.reset with flash := natToBytes 4 0x53464c44 ++ List.replicate 60 0 } false).isSome) = true ∧
    (let s := { State.reset with clk := 8500 }
     !coreBusy s 0 && decide ((s.core 0).idle + 8500 ≤ s.clk)) = true ∧
    (let s := withCore (fun k => { k with gated := true }) State.reset
     (s.core 0).gated && !s.regs.standby) = true ∧
    (let s := booted State.reset
     s.bersy.any id && readOpen s 0x100 && bersyMissing s 0x100 8 == none && !lineBad s 0x100 8) = true ∧
    (let s := booted State.reset
     writeOpen s 0xc0000000038 8 && bersyMissing s 0xc0000000038 8 == none && (placeOf s 0xc0000000038).region == .dev) = true ∧
    (let s := State.reset
     writeOpen s 0x100 8 && bersyMissing s 0x100 8 == none && (placeOf s 0x100).region != .dev && !lineBad s 0x100 8) = true ∧
    ((updAt 0 (fun _ => false) State.reset.bersy).any id) = true := by decide +kernel

/-! ### Engines -/

/-- An operation of core 0 with future 0x10001. -/
def anOp (k : OpKind) : EngineOp where
  id := 9
  kind := k
  die := 0
  core := 0
  ctx := 1
  fw := false
  lid := 0
  group := none
  handle := 0x10001
  desc := 0x100000
  words := some (List.replicate 32 0)
  args := [0, 0, 0, 1]
  toks := []
  seed := 0
  minor := 0
  type := 0
  rm := 0
  sat := false
  slot := 0
  fence := ⟨none, [], []⟩
  started := true
  progress := 0
  got := []
  old := []
  put := []
  limit := none
  fail := none
  srcs := []
  dsts := []
  waitPage := none
  mark := none
  cancel := true
  spoilt := false
  due := 0
  pts := 0
  since := 0
def opsIn (h : EngineOp → EngineOp) (k : OpKind) : State := running { withContext State.reset with ops := [h (anOp k)], clk := 24 }
/-- The one operation, its words and the state. -/
def theOp (s : State) (ok : EngineOp → List W64 → Bool) : Bool := match s.op? 9 with
  | some o => ok o (o.words.getD [])
  | none => false

/-- Nothing is read of the descriptor; all 64 bytes are, zeros but for byte 48. -/
def unreadOp (o : EngineOp) : EngineOp := { o with words := none, started := false, cancel := false }
def readOp (b48 : Nat) (o : EngineOp) : EngineOp :=
  { unreadOp o with got := (List.range 64).map fun i => (rowKey descRow i, some (if i = 48 then BitVec.ofNat 8 b48 else 0)) }
def canGo (s : State) (o : EngineOp) : Bool := o.waitPage.isNone && !engineTaken s o && o.fail.isNone && o.limit.isNone

theorem witness_EngineStepsAct :
    (let s := opsIn unreadOp .cpy
     theOp s fun o _ => canGo s o && !(descLeft o).isEmpty) = true ∧
    ([0, 8].all fun b => let s := opsIn (readOp b) .cpy
     theOp s fun o _ => canGo s o && (descLeft o).isEmpty && descOk s o (words64 (rowBytes o descRow (bytesIn (descReads o)))) == (b == 0)) = true ∧
    ([OpKind.cpy, .qnt, .dqnt, .ixwalk, .tile, .mxdrain].all fun k => [false, true].all fun b => let s := opsIn (fun o => { o with started := b }) k
     theOp s fun o _ => canGo s o && o.words.isSome && o.started == b && (k != .mxdrain || slotFirst s o)) = true ∧
    (let s := opsIn unreadOp .cpact
     theOp s fun o _ => canGo s o && compactFirst s o) = true ∧
    (let s := opsIn id .cpact
     theOp s fun o _ => canGo s o && o.started && o.words.isSome) = true ∧
    (let s := opsIn unreadOp .cpfl
     theOp s fun o _ => canGo s o && compactFirst s o) = true ∧
    ([OpKind.cpy, .mxdrain, .qnt, .dqnt].all fun k => [false, true].all fun b => let s := opsIn (fun o => { o with fail := some (0, 3, .engerr, 0), words := none, freed := b }) k
     theOp s fun o _ => withFailures s o == o && workOver s o && o.freed == b && match actNow { s with fresh := s.fresh + 1 } o with | .done _ _ _ _ => true | _ => false) = true ∧
    (let s := opsIn (fun o => { o with progress := 0, words := some ((List.replicate 32 0).set 4 (BitVec.ofNat 64 (2 ^ 32))) }) .ixwalk
     theOp s fun o ws => o.cancel && o.limit.isNone && decide (o.progress < (jobOf s o ws).rows) && !(o.put.any fun k => k / 2 ^ 40 == o.progress)) = true ∧
    (let s := opsIn (fun o => { o with args := [2, 0, 0] }) .fetch
     match unreserved s 0 2 with | o :: _ => queueRoom s o | [] => false) = true ∧
    (let s := opsIn id .fetch
     theOp s fun o ws => o.waitPage.isNone && o.reserved && o.limit.isNone && o.started && (jobOf s o ws).allDone o) = true ∧
    (let s := opsIn (fun o => { o with limit := some 0 }) .fetch
     theOp s fun o _ => o.waitPage.isNone && o.reserved && o.limit.isSome) = true ∧
    (let s := opsIn id .ixwalk
     theOp s fun o ws => o.started && o.waitPage.isNone && opAcked s o && decide (o.progress < (jobOf s o ws).end_ o) &&
       (jobOf s o ws).rowDone o o.progress && wordAt ws 7 == 0) = true ∧
    (let s := opsIn (fun o => { o with progress := 1 }) .ixwalk
     theOp s fun o ws => o.started && o.waitPage.isNone && opAcked s o && decide ((jobOf s o ws).end_ o ≤ o.progress)) = true ∧
    ((tileOp State.reset 0).isNone) = true ∧
    (let s := opsIn (fun o => { o with limit := some 0 }) .tile
     match tileOp s 0 with
     | some o => (withFailures s o).words.isSome && workOver s (withFailures s o) && (withFailures s o).fail.isNone && groupHere s (withFailures s o)
     | none => false) = true ∧
    (let s := opsIn id .cpfl
     theOp s fun o _ => o.started && o.waitPage.isNone && (withFailures s o).fail.isNone && opAcked s (withFailures s o) && tilesReleased s (withFailures s o)) = true ∧
    (let s := opsIn id .cpact
     theOp s fun o ws => o.started && o.waitPage.isNone && withFailures s o == o && o.fail.isNone && (jobOf s o ws).allDone o && opAcked s o && tilesReleased s o) = true ∧
    ((mxNext (opsIn (fun o => { o with started := false }) .mxissue) 0).isSome) = true ∧
    (let s := opsIn id .mxissue
     theOp s fun o _ => o.kind == .mxissue && mxDone s o) = true ∧
    (let s := opsIn (fun o => { o with words := some (List.replicate 16 0) }) .cpy
     theOp s fun o ws => o.cancel && o.limit.isNone && decide (rowsBegun o < (jobOf s o ws).rows)) = true ∧
    (theOp (opsIn id .fetch) fun o _ => o.cancel && o.limit.isNone && o.reserved) = true := by decide +kernel

/-! ### The whole machine -/

/-- A thread stands at NOP, alone; and the same module with nothing placed in it. -/
def atNop : State := State.reset.withFetchWord 64 nopW
def still : State := State.reset.quiet

theorem witness_StepRunsTheDecodedInstruction :
    (match nextMove atNop with
     | some (.word c) => (issuer { atNop with cur := some c }).any fun q =>
         match decodeWord (q.2.2.words.getD q.2.2.ix 0) (q.2.2.words.getD (q.2.2.ix + 1) 0) with | .ok i => i == .nop noFields | .error _ => false
     | _ => false) = true ∧
    (match nextMove { still with wcbufs := [testBuf], clk := 1700 } with | some (.own i) => !i.isWord | _ => false) = true ∧
    (let s := { still with due := [.snapctlRel] }
     nextMove s == some .due && !(Instr.isWord .snapctlRel)) = true ∧
    (let s := { still with inputs := [.throttle 1 2 3] }
     nextMove s == some .input && fromOutside (.throttle 1 2 3) && !inputWaits s (.throttle 1 2 3) && !(Instr.isWord (.throttle 1 2 3))) = true ∧
    (nextMove still).isNone = true := by decide +kernel

theorem witness_MemoryReadsAsWritten : State.reset.Inv ∧ 2 ^ 40 - 2 + [5#8, 6].length ≤ 2 ^ 40 ∧ 0 + [5#8].length ≤ 2 ^ 40 :=
  ⟨by unfold State.Inv; decide, by decide, by decide⟩

theorem witness_RegisterInstructionsFrame :
    allMeet none [.add opAb, .fadd opAb, .xlane opAb, .not { opA with d := 128 }, .and { opAb with d := 192 }]
      (cond := fun c => (c.s.rfLate.isEmpty)) = true ∧
    ([Instr.add opAb, .fadd opAb, .xlane opAb, .not opA, .and opAb].all fun i => plainWrites i || flagWrites i || auxWrites i) = true := by
  decide +kernel

theorem witness_StoresWriteTheirBytesOnly :
    allMeet none [.st { opAb with d := 8, type := 7 }] (fun s => s.setDie 0 fun d => { d with poolcfg := 0 }) (cond := checks (fun _ => anyTarget) (fun c => c.wants 8) fun c s1 rs => c.received.isNone && !leafStops s1 rs &&
      decide (¬ (200 ≤ c.f.d.toNat ∧ c.f.d.toNat < 216)) && accFree (dirtyAll s1 c rs) c (stores c rs) &&
      ((stores c rs).all fun a => isOwn s1 a.pa && decide (localOf a.pa + a.bytes ≤ 2 ^ 40) && a.memType != 1 &&
        match accState (dirtyAll s1 c rs) c.g.core a with | .ready => true | _ => false) &&
      rs.length == 1 && rs.all fun r => (List.range r.1.bytes).all fun i => !inPool s1 (placeOf s1 (localOf r.2.pa + i)) &&
        (rs.all fun q => decide (localOf r.2.pa + i < localOf q.2.ptePa) || decide (localOf q.2.ptePa + 8 ≤ localOf r.2.pa + i))) = true ∧
    allMeet none [.ld opAb] (cond := checks (fun _ => anyTarget) (fun c => c.wants 4) fun c s1 rs => c.received.isNone && accFree s1 c (loads c rs)) = true := by decide +kernel

theorem witness_BadAddressesTrap :
    allMeet none [.ld opAb, .st opAb] (withV 8 2) (fun c => c.lanes.length == 1 && c.lanes.all fun e => c.ea e.1 e.2 % c.accBytes != 0) = true ∧
    allMeet none [.ld opAb, .st opAb] (withV 9 0x1000000) (fun c => c.lanes.length == 1 && c.lanes.all fun e =>
      c.ea e.1 e.2 % c.accBytes == 0 && decide (2 ^ 56 ≤ c.ea e.1 e.2)) = true := by decide +kernel

theorem witness_PrivilegedFormsTrap :
    ([Instr.gets { noFields with c := 0x0a, type := 8 }, .snap noFields, .cmaintRepair { noFields with d := 8, a := 8, b := 16, minor := 5 }].all fun i =>
      (issuer (standing none i)).any fun q => i.wf && ((q.1.slicesOf q.2.1).any fun x => x.active != 0) && q.1.handler.isNone &&
        !snapOn (standing none i).freshen q.1.ctx && !q.1.fw) = true := by decide +kernel

theorem witness_TrapsSaveTheirPoint :
    (let s := standing none (.nop noFields)
     s.rfLate.isEmpty && (s.gang 0 0).any fun g => (g.slice 0).any fun x => x.st == .run 0 && (s.gang g.core g.slot == some g) &&
       ([hitAt 0 1 .align 2].find? fun h => h.pos == x.pos).isSome) = true := by decide +kernel

theorem witness_StepKeepsMemoryCanonical : State.reset.Inv ∧ atNop.Inv := by unfold State.Inv; decide +kernel
theorem witness_ModuleResetDiscards :
    (BitVec.ofNat 64 (0x0d145e7a * 2 ^ 32 + 1)).toNat = 0x0d145e7a * 2 ^ 32 + 1 ∧ State.reset.regs.phase = .rom ∧ (0#64).toNat ≠ 0x0d145e7a * 2 ^ 32 + 1 := by decide

theorem witness_DiscardedDestinations : (199 ≤ 199) ∧ (199 ≤ 240 ∧ 240 = 240) := by decide
theorem witness_EveryWordRoundTrips :
    ([Instr.add opAb, .pairWord ⟨0x7f, 0, 0, 0⟩ ⟨0x31, 127, 0, 255⟩, .lut3 { opAbc with minor := 15, type := 30 }].all fun i => i.wf && i.isWord) = true := by
  decide +kernel

/-! ## Words that the spec writes out decode to what it says they are -/

def word (w : Nat) : Option Instr := decodeTableWord 64 w
def wordF (w : Nat) (mk : Fields → Instr) (f : Fields) : Bool := word w == some (mk f)

/-- The clause of the example after R69: a long ADD, a pair of MOVI and ADD, a guarded SUB. -/
theorem test_decode_clause_example :
    decodeTableWord 128 (0x8e000200ff000180 + 2 ^ 64 * 0x1234567800000000) =
      some (.add { noFields with long := true, d := 2, b := 255, type := 3, lit := 0x12345678 }) ∧
    word 0x0621000280050800 = some (.pairWord ⟨0x31, 4, 0, 5⟩ ⟨0, 5, 4, 0⟩) ∧
    word 0x4401060603000180 = some (.sub { noFields with guard := 2, d := 6, a := 6, b := 3, type := 3 }) := by decide +kernel
/-- Examples of the integer and memory chapter (after R110), of the floating-point chapter (R130), and of chapter 15 and 23. -/
theorem test_decode_memory_and_moves :
    wordF 0x4240080406202383 .ld { noFields with guard := 1, d := 8, a := 4, b := 6, c := 32, minor := 2, type := 7, aux := 3 } = true ∧
    wordF 0x4e40140a12002380 .ld { noFields with d := 20, a := 10, b := 18, minor := 2, type := 7 } = true ∧
    wordF 0x4e41140c12002380 .st { noFields with d := 20, a := 12, b := 18, minor := 2, type := 7 } = true ∧
    wordF 0x4eb9180c12006300 .ldt { noFields with d := 24, a := 12, b := 18, minor := 6, type := 6 } = true ∧
    wordF 0x4e16020000071000 .shl { noFields with d := 2, c := 7, minor := 1 } = true ∧
    decodeTableWord 128 (0x8e400a0402000380 + 2 ^ 64 * 0x1000) =
      some (.ld { noFields with long := true, d := 10, a := 4, b := 2, type := 7, off24 := 4096 }) := by decide +kernel
theorem test_decode_floating_point :
    wordF 0x4e650201000a0688 .cvtf { noFields with d := 2, a := 1, c := 10, type := 13, sat := true } = true ∧
    wordF 0x4e56c10001000510 .fcmp { noFields with d := 193, b := 1, type := 10, rm := 1 } = true ∧
    wordF 0x4e531c14151c0000 .ffma { noFields with d := 28, a := 20, b := 21, c := 28 } = true ∧
    decodeTableWord 128 0x8e5502e0ff000000 = some (.fmax { noFields with long := true, d := 2, a := 224, b := 255 }) := by decide +kernel
/-- Words of chapters 5, 10 and 21. -/
theorem test_decode_control :
    wordF 0x4e80000000000000 .nop noFields = true ∧ wordF 0x4281000000050000 .bra { noFields with guard := 1, c := 5 } = true ∧
    wordF 0x4381000000080000 .bra { noFields with guard := 1, gneg := true, c := 8 } = true ∧
    wordF 0x4e81000000e80000 .bra { noFields with c := 0xe8 } = true ∧
    wordF 0x4386000000000000 .exit { noFields with guard := 1, gneg := true } = true ∧
    wordF 0x42e2008200000000 .tretRetry { noFields with guard := 1, a := 130 } = true ∧
    wordF 0x43e2008200002000 .tretKill { noFields with guard := 1, gneg := true, a := 130, minor := 2 } = true ∧
    wordF 0x4ee0010000120000 .gets { noFields with d := 1, c := 0x12 } = true ∧
    wordF 0x4ee00c0000200400 .gets { noFields with d := 12, c := 0x20, type := 8 } = true := by decide +kernel
/-- Words of chapters 9 and 10. -/
theorem test_decode_cross_lane :
    wordF 0x4e90040203053381 .xlane { noFields with d := 4, a := 2, b := 3, c := 5, minor := 3, type := 7, aux := 1 } = true ∧
    wordF 0x4e92050200000180 .gred { noFields with d := 5, a := 2, type := 3 } = true ∧
    wordF 0x4e93060200000181 .scan { noFields with d := 6, a := 2, type := 3, aux := 1 } = true ∧
    wordF 0x4e9107c200003000 .pqry { noFields with d := 7, a := 194, minor := 3 } = true ∧
    wordF 0x4e94090800000503 .kgrp { noFields with d := 9, a := 8, type := 10, aux := 3 } = true := by decide +kernel
theorem test_decode_divergence :
    wordF 0x4e96000000181000 .rcvB { noFields with c := 24, minor := 1 } = true ∧ wordF 0x4e960000000a0000 .rcvJ { noFields with c := 10 } = true ∧
    wordF 0x4498000000000000 .brkj { noFields with guard := 2 } = true ∧ wordF 0x4e97000000000000 .join noFields = true ∧
    wordF 0x4e99000000000000 .regang noFields = true ∧ wordF 0x4e9a000000000000 .cont noFields = true ∧
    wordF 0x449c000108000000 .spawn { noFields with guard := 2, a := 1, b := 8 } = true ∧
    wordF 0x4e9e0e0000000000 .arrive { noFields with d := 14 } = true ∧ wordF 0x4e9f000e00000000 .bwait { noFields with a := 14 } = true ∧
    wordF 0x4e9ef08000002000 .arriveRemote { noFields with d := 240, a := 128, minor := 2 } = true ∧
    wordF 0x4e9f008006071000 .bwaitRemote { noFields with a := 128, b := 6, c := 7, minor := 1 } = true := by decide +kernel
theorem test_decode_expansions :
    wordF 0x4ea0c10607000000 .expb { noFields with d := 193, a := 6, b := 7 } = true ∧
    wordF 0x4ea0c102050a1380 .expb { noFields with d := 193, a := 2, b := 5, c := 10, minor := 1, type := 7 } = true ∧
    wordF 0x4ea1c10000000000 .expn { noFields with d := 193 } = true ∧
    wordF 0x42a3000d00000380 .segr { noFields with guard := 1, a := 13, type := 7 } = true := by decide +kernel
/-- Words of chapters 14 and 19. -/
theorem test_decode_memory_system :
    wordF 0x4eb3028401000387 .atom { noFields with d := 2, a := 132, b := 1, type := 7, aux := 7 } = true ∧
    wordF 0x4eb5058606070387 .cas { noFields with d := 5, a := 134, b := 6, c := 7, type := 7, aux := 7 } = true ∧
    wordF 0x4eb01006f0002380 .ldfe { noFields with d := 16, a := 6, b := 240, minor := 2, type := 7 } = true ∧
    wordF 0x4eb90804f0004300 .ldt { noFields with d := 8, a := 4, b := 240, minor := 4, type := 6 } = true := by decide +kernel
/-- Words of chapters 18 and 19. -/
theorem test_decode_engines :
    wordF 0x4ec0000406031000 .mxresW { noFields with a := 4, b := 6, c := 3, minor := 1 } = true ∧
    wordF 0x4ec000080a020000 .mxresX { noFields with a := 8, b := 10, c := 2 } = true ∧
    wordF 0x4ec3c90c00000000 .mxissue { noFields with d := 201, a := 12 } = true ∧
    wordF 0x4ec4cb0e00000500 .mxdrain { noFields with d := 203, a := 14, type := 10 } = true ∧
    wordF 0x4ec9c90a00000000 .cpy { noFields with d := 201, a := 10 } = true ∧
    wordF 0x4ecac90c0e0f0000 .fetch { noFields with d := 201, a := 12, b := 14, c := 15 } = true ∧
    wordF 0x4ecbc90e00000000 .ixwalk { noFields with d := 201, a := 14 } = true ∧
    wordF 0x4ed3080000011000 .racqC { noFields with d := 8, c := 1, minor := 1 } = true ∧
    wordF 0x4ed4000800020000 .rrelP { noFields with a := 8, c := 2 } = true ∧
    wordF 0x4ed50f0000120000 .fwait { noFields with d := 15, c := 0x12 } = true ∧
    wordF 0x4ed8000405002000 .rinit { noFields with a := 4, b := 5, minor := 2 } = true := by decide +kernel
/-- What R50, R62 and R67 reserve, and opcodes of no table, are refused. -/
theorem test_decode_refuses :
    word (2 ^ 60 + nopW) = none ∧ word 0xc003fc4000000000 = none ∧ word (2 ^ 60) = none ∧ word 0x4eb8000000006000 = none ∧
    word 0x4e0f000000000000 = none ∧ (word (nopW + 1)).any Instr.wf = false := by decide +kernel

/-! ## Ill-formed instructions, one for each check -/

theorem test_wf_accepts : ([Instr.add opAb, .ld opAb, .fadd { opAb with rm := 3 }, .gets noFields, .sets { opA with c := 6 }, .cvti { opA with type := 3, c := 5 },
    .pairWord ⟨0, 5, 4, 0⟩ ⟨0x7f, 0, 0, 0⟩, .expn { noFields with d := 193, aux := 4 }, .fwait { noFields with d := 15, c := 0x12 }].all Instr.wf) = true := by
  decide +kernel
theorem test_wf_minor : (Instr.add { opAb with minor := 1 }).wf = false := by decide +kernel
theorem test_wf_form : ([Instr.add { opAb with long := true, b := 255, xd := 1 }, .add { opAb with lit := 1 }, .add { opAb with long := true, lit := 1 },
    .add { opAb with long := true, b := 255, off24 := 1 }, .nop { noFields with long := true }].any Instr.wf) = false := by decide +kernel
theorem test_wf_operands : ([Instr.abs { opA with b := 1 }, .add { opAb with a := 200 }, .add { opAb with a := 245 }, .add { opAb with a := 255 },
    .add { opAb with d := 216 }, .add { opAb with a := 9, type := 8 }, .add { opAb with a := 224, type := 8 }, .mxrel { noFields with c := 16 },
    .bari { opA with c := 32 }, .xlane { opAb with c := 6 }].any Instr.wf) = false := by decide +kernel
theorem test_wf_queue_once : (Instr.add { opAb with a := 225, b := 225 }).wf = false ∧ (Instr.add { opAb with a := 225, b := 226 }).wf = true := by
  decide +kernel
theorem test_wf_group : ([Instr.ld { opAb with type := 8, minor := 2 }, .ld { opAb with type := 6, minor := 1 }, .st { opAb with d := 201, minor := 1 }].any
    Instr.wf) = false := by decide +kernel
theorem test_wf_aux : ([Instr.add { opAb with aux := 1 }, .scan { opA with aux := 2 }].any Instr.wf) = false := by decide +kernel
theorem test_wf_type : ([Instr.add { opAb with type := 10 }, .add { opAb with type := 20 }, .fadd { opAb with type := 3 }, .addc { opAb with type := 3 }].any
    Instr.wf) = false := by decide +kernel
theorem test_wf_rounding : ([Instr.fadd { opAb with rm := 5 }, .add { opAb with rm := 1 }, .mulh { opAb with sat := true }, .fadd { opAb with sat := true },
    .atom { opAb with rm := 1 }, .gred { opA with sat := true, minor := 3 }].any Instr.wf) = false := by decide +kernel
theorem test_wf_own_rules : ([Instr.cvti { opA with type := 3, c := 10 }, .gred { opA with minor := 3, type := 3 }, .atom { opAb with minor := 9, type := 7 },
    .expn { noFields with d := 193, aux := 1 }, .fwait { noFields with d := 15, c := 5 }, .gets { noFields with c := 0x18 }, .gets { noFields with type := 8 },
    .sets { opA with c := 2 }, .cvtf { opA with type := 10, c := 10, minor := 1 }].any Instr.wf) = false := by decide +kernel
theorem test_wf_flag_select : (Instr.add { opAb with fsel := true }).wf = false ∧ (Instr.div { opAb with fsel := true }).wf = true := by decide +kernel
theorem test_wf_pairs : ([Instr.pairWord ⟨5, 1, 2, 0⟩ ⟨0x7f, 0, 0, 0⟩, .pairWord ⟨0x7f, 1, 0, 0⟩ ⟨0x7f, 0, 0, 0⟩, .pairWord ⟨0, 1, 2, 3⟩ ⟨0x7f, 0, 0, 0⟩,
    .pairWord ⟨0, 1, 2, 0⟩ ⟨0, 4, 5, 0⟩, .pairWord ⟨0x31, 4, 0, 1⟩ ⟨0x31, 4, 0, 2⟩, .pairWord ⟨0x62, 1, 2, 2⟩ ⟨0x7f, 0, 0, 0⟩, .pairWord ⟨0x31, 4, 1, 1⟩ ⟨0x7f, 0, 0, 0⟩].any
    Instr.wf) = false := by decide +kernel
theorem test_wf_udf : (Instr.udf noFields).wf = false := by decide +kernel

/-! ## One step each, worked out from the spec -/

/-- Four lanes of core 0 stand at an instruction; v register j of a lane, before and after it. -/
def quad (i : Instr) : State := withSlice (fun x => { x with active := 15, live := 15 }) (standing none i)
def putV (lane j v : Nat) (s : State) : State := { s with rf := tabPut 0 s.rf (32 * j + lane) (BitVec.ofNat 32 v) }
def putVs (j : Nat) (vs : List Nat) (s : State) : State := vs.zipIdx.foldl (fun s e => putV e.2 j e.1 s) s
def getV (t : State) (lane j : Nat) : Nat := (tabGet 0 t.rf (32 * j + lane)).toNat
def doing (i : Instr) (s : State) (ok : State → Bool) : Bool := match exec i s with | .next t => ok t | _ => false
/-- With v8, v16 and v24 given, a lone lane's v0 after the instruction, or the words it will write later. -/
def gives (i : Instr) (a b c v : Nat) : Bool := doing i (putV 0 8 a (putV 0 16 b (putV 0 24 c (standing none i)))) fun t => getV t 0 0 == v
def later (t : State) : List Nat := (t.pend.flatMap fun p => p.writes).flatMap fun w => w.vals.map fun v => v.toNat
def givesLater (i : Instr) (a b v : Nat) : Bool := doing i (putV 0 8 a (putV 0 16 b (standing none i))) fun t => later t == [v]
def flagsOf (t : State) : Nat := ((slice0 t).map fun x => (x.lane 0).fpstat.toNat).getD 99
/-- The cause with which the slice stands trapping. -/
def trapped (t : State) : Option Cause := (slice0 t).bind fun x => match x.st with | .trapping q => some q.cause | _ => none
def predsOf (t : State) (lane : Nat) : Nat := ((slice0 t).map fun x => (x.lane lane).preds.toNat).getD 0

def typed (t : BitVec 5) (f : Fields) : Fields := { f with type := t }

/-- R81, R82. -/
theorem test_add_wraps : gives (.add opAb) 0xffffffff 2 0 1 = true := by decide +kernel
theorem test_add_saturates : gives (.add { opAb with sat := true }) 0x7fffffff 1 0 0x7fffffff = true ∧
    gives (.add { typed 7 opAb with sat := true }) 0xffffffff 2 0 0xffffffff = true := by decide +kernel
theorem test_sub_guard_false : doing (.sub { opAb with guard := 2 }) (putV 0 0 10 (standing none (.sub { opAb with guard := 2 }))) (fun t => getV t 0 0 == 10) = true := by
  decide +kernel
/-- The pair of the example after R69: v5 becomes 13 from the old v4. -/
theorem test_pair_reads_before : doing (.pairWord ⟨0x31, 4, 0, 5⟩ ⟨0, 5, 4, 0⟩) (putV 0 4 10 (putV 0 5 3 (standing none (.pairWord ⟨0x31, 4, 0, 5⟩ ⟨0, 5, 4, 0⟩))))
    (fun t => getV t 0 4 == 5 && getV t 0 5 == 13) = true := by decide +kernel
theorem test_mulh : gives (.mulh opAb) 0xffffffff 0xffffffff 0 0 = true ∧ gives (.mulh (typed 7 opAb)) 0xffffffff 0xffffffff 0 0xfffffffe = true := by
  decide +kernel
theorem test_mad : gives (.mad opAbc) 3 4 5 17 = true ∧ gives (.mad opAbc) 0xffffffff 4 5 1 = true := by decide +kernel
theorem test_min_max : gives (.min opAb) 0xffffffff 1 0 0xffffffff = true ∧ gives (.max (typed 7 opAb)) 0xffffffff 1 0 0xffffffff = true ∧
    gives (.max opAb) 0xffffffff 1 0 1 = true := by decide +kernel
theorem test_dot4 : gives (.dot4 opAbc) 0x04030201 0x01010101 10 20 = true := by decide +kernel
/-- The table at R90. -/
theorem test_div_rem_signed : givesLater (.div opAb) 0xfffffff9 2 0xfffffffd = true ∧ givesLater (.rem opAb) 0xfffffff9 2 0xffffffff = true := by
  decide +kernel
theorem test_div_rem_corners : givesLater (.div opAb) 0x80000000 0xffffffff 0x80000000 = true ∧ givesLater (.rem opAb) 0x80000000 0xffffffff 0 = true ∧
    givesLater (.div (typed 7 opAb)) 7 0 0xffffffff = true ∧ givesLater (.rem (typed 7 opAb)) 7 0 7 = true := by decide +kernel
theorem test_logic : gives (.andn opAb) 0xff00ff00 0x0ff00ff0 0 0xf000f000 = true ∧ gives (.not opA) 0xf 0 0 0xfffffff0 = true ∧
    gives (.xor opAb) 0xff 0x0f 0 0xf0 = true := by decide +kernel
theorem test_shifts : gives (.sra (typed 3 opAb)) 0x80000000 4 0 0xf8000000 = true ∧ gives (.shr opAb) 0x80000000 4 0 0x08000000 = true ∧
    gives (.shl { opA with minor := 1, c := 7 }) 3 0 0 0x180 = true := by decide +kernel
/-- The examples after R98. -/
theorem test_bfx : gives (.bfx (typed 3 opAb)) 0x87654321 0x0818 0 0xffffff87 = true ∧ gives (.bfx opAb) 0x87654321 0x0818 0 0x87 = true ∧
    gives (.bfx (typed 3 opAb)) 0x87654321 0x081c 0 0xfffffff8 = true := by decide +kernel
theorem test_bsel : gives (.bsel { opAbc with minor := 1 }) 0x87654321 0 0xb123 0xff436587 = true ∧ gives (.bsel opAbc) 0x87654321 0 0xb123 0x00436587 = true := by
  decide +kernel
theorem test_counts : gives (.popc opA) 0xf0f0 0 0 8 = true ∧ gives (.clz opA) 0 0 0 32 = true ∧ gives (.ctz opA) 8 0 0 3 = true ∧
    gives (.brev opA) 1 0 0 0x80000000 = true := by decide +kernel
theorem test_movi : gives (.movi { noFields with c := 0xfb }) 0 0 0 0xfffffffb = true := by decide +kernel
/-- Code 240 discards the result (R66). -/
theorem test_discard : doing (.add { opAb with d := 240 }) (putV 0 8 5 (standing none (.add { opAb with d := 240 }))) (fun t => t.rf == (putV 0 8 5 (standing none (.add { opAb with d := 240 }))).rf) = true := by
  decide +kernel
theorem test_address : doing (.lea { opAb with d := 4, c := 0xf0, aux := 3 })
    (putV 0 8 0x1000 (putV 0 16 2 (standing none (.lea { opAb with d := 4, c := 0xf0, aux := 3 })))) (fun t => getV t 0 4 == 0x1000 && getV t 0 5 == 0) = true := by
  decide +kernel

/-- 1.0 + 2.0; the comparison table at R130 and its flags. -/
theorem test_fadd : gives (.fadd opAb) 0x3f800000 0x40000000 0 0x40400000 = true ∧ gives (.fsub opAb) 0x7f800000 0x7f800000 0 0x7fc00000 = true := by decide +kernel
theorem test_fmin : gives (.fmin opAb) 0 0x80000000 0 0x80000000 = true ∧ gives (.fmin opAb) 0x7fc00000 0x40000000 0 0x40000000 = true ∧
    gives (.fmax opAb) 0x7fc00000 0x7fc00000 0 0x7fc00000 = true := by decide +kernel
def fcmpLt : Instr := .fcmp { noFields with d := 193, a := 0, b := 1, type := 10, rm := 1 }
/-- The example at R140: p1 is 1, 0, 0, 0, and lane 1 raises NV. -/
theorem test_fcmp : doing fcmpLt (putVs 0 [0x3f800000, 0x7fc00000, 0x40400000, 0x80000000] (putVs 1 [0x40000000, 0x40000000, 0x40000000, 0] (quad fcmpLt)))
    (fun t => (List.range 4).map (fun l => predsOf t l / 2 % 2) == [1, 0, 0, 0] &&
      (List.range 4).map (fun l => ((slice0 t).map fun x => (x.lane l).fpstat != 0).getD true) == [false, true, false, false]) = true := by decide +kernel
def toE4m3 (sat : Bool) : Instr := .cvtf { noFields with d := 2, a := 1, c := 10, type := 13, sat := sat }
/-- The example after R130: 470.0 saturates to 448, or overflows to NaN. -/
theorem test_cvtf : ([(true, 0x7e), (false, 0x7f)].all fun e => doing (toE4m3 e.1) (putV 0 1 0x43eb0000 (standing none (toE4m3 e.1))) fun t =>
    getV t 0 2 == e.2 && flagsOf t != 0) = true := by decide +kernel
theorem test_fdiv : givesLater (.fdiv opAb) 0x3f800000 0x80000000 0xff800000 = true ∧ givesLater (.fdiv opAb) 0 0 0x7fc00000 = true ∧
    givesLater (.fdiv opAb) 0x40c00000 0x40000000 0x40400000 = true := by decide +kernel
theorem test_fsqrt : givesLater (.fsqrt opA) 0x41100000 0 0x40400000 = true ∧ givesLater (.fsqrt opA) 0xbf800000 0 0x7fc00000 = true := by decide +kernel
theorem test_fex2 : givesLater (.fex2 opA) 0x40400000 0 0x41000000 = true ∧ givesLater (.fex2 opA) 0xff800000 0 0 = true := by decide +kernel
theorem test_conversions : gives (.cvtfi { opA with type := 3, c := 10 }) 0xc0000000 0 0 0xfffffffe = true ∧
    gives (.cvtif { opA with type := 10, c := 3 }) 3 0 0 0x40400000 = true := by decide +kernel
theorem test_packed : gives (.hadd2 opAb) 0x3c003c00 0x40003c00 0 0x42004000 = true := by decide +kernel

/-- The branch of the example at R140: the fall-through group runs, and lane 0 is deferred. -/
theorem test_branch_diverges : doing (.bra { noFields with guard := 1, c := 5 })
    (withSlice (fun x => { x with lanes := (x.lanes.zipIdx.map fun e => if e.2 = 0 then { e.1 with preds := 2 } else e.1) }) (quad (.bra { noFields with guard := 1, c := 5 })))
    (fun t => (slice0 t).any fun x => x.active == 14 && x.pc == 0x10010 && x.tokens.map (fun k => (k.mask, k.target)) == [(1, 0x10038)]) = true := by decide +kernel
theorem test_exit_ends : doing (.exit noFields) (quad (.exit noFields)) (fun t => ((slice0 t).map fun x => x.active != 0).getD false) = false := by decide +kernel
theorem test_trap_saves : doing (.trap { noFields with c := 7 }) (quad (.trap { noFields with c := 7 })) (fun t => (slice0 t).any fun x => match x.st with
    | .trapping q => q.cause == .swtrap && q.aux == 7 && q.tlanes == 15 && q.pc == 0x10008
    | _ => false) = true := by decide +kernel
theorem test_udf : doing (.udf noFields) (quad (.udf noFields)) (fun t => trapped t == some .ill) = true := by decide +kernel
theorem test_gets : doing (.gets { noFields with c := 2 }) (quad (.gets { noFields with c := 2 })) (fun t => (List.range 4).map (fun l => getV t l 0) == [0, 1, 2, 3]) = true ∧
    doing (.gets { noFields with c := 3 }) (quad (.gets { noFields with c := 3 })) (fun t => getV t 2 0 == 15) = true := by decide +kernel
theorem test_gets_privileged : doing (.gets { noFields with c := 0x0a, type := 8 }) (quad (.gets { noFields with c := 0x0a, type := 8 }))
    (fun t => trapped t == some .priv) = true := by decide +kernel

/-- The gang of the example after R225: slice 0 whole, slice 1 with lanes 0 and 2. -/
def pairOfSlices (i : Instr) : State :=
  let s := withGang (fun g => { g with slices := g.slices.flatMap fun (x : Slice) => [{ x with active := 15, live := 15 }, { x with pos := 1, index := 1, active := 5, live := 15 }] }) (standing none i)
  let p2 := [1, 0, 1, 0, 1, 1, 0, 1]
  let s := withGang (fun g => { g with slices := g.slices.map fun (x : Slice) =>
    { x with lanes := x.lanes.zipIdx.map fun e => { e.1 with preds := BitVec.ofNat 7 (4 * p2.getD (4 * x.pos + e.2) 0) } } }) s
  putVs 2 [5, 1, 7, 2, 10, 99, 3, 99] (putVs 3 (List.replicate 8 1) (putVs 8 [0, 0x80000000, 0x7fc00000, 0x7f800001, 0x3f800000, 0, 0x3f800000, 0] s))
def inThreads (i : Instr) (j : Nat) (vs : List Nat) : Bool := doing i (pairOfSlices i) fun t => [0, 1, 2, 3, 4, 6].map (fun l => getV t l j) == vs
theorem test_xlane : inThreads (.xlane { noFields with d := 4, a := 2, b := 3, c := 5, minor := 3, type := 7, aux := 1 }) 4 [1, 5, 2, 7, 10, 3] = true := by decide +kernel
theorem test_gred : inThreads (.gred { noFields with d := 5, a := 2, type := 3 }) 5 (List.replicate 6 28) = true := by decide +kernel
theorem test_scan : inThreads (.scan { noFields with d := 6, a := 2, type := 3, aux := 1 }) 6 [0, 5, 6, 13, 15, 25] = true := by decide +kernel
theorem test_pqry : inThreads (.pqry { noFields with d := 7, a := 194, minor := 3 }) 7 (List.replicate 6 0x15) = true ∧
    inThreads (.pqry { noFields with d := 10, a := 194, minor := 4 }) 10 (List.replicate 6 3) = true := by decide +kernel
theorem test_kgrp : inThreads (.kgrp { noFields with d := 9, a := 8, type := 10, aux := 3 }) 9 [3, 3, 0xc, 0xc, 0x50, 0x50] = true ∧
    inThreads (.kgrp { noFields with d := 11, a := 8, type := 10, aux := 7, minor := 2 }) 11 [0, 1, 0, 1, 0, 1] = true := by decide +kernel

/-- A load and a store at VA 0, which lies at PA 2^20 outside the pool; a misaligned one traps ALIGN, one past 2^56 XNP. -/
theorem test_load : doing (.ld opAb) (withBytes 0x100000 4 0x11223344 ((standing none (.ld opAb)).setDie 0 fun d => { d with poolcfg := 0 })) (fun t => later t == [0x11223344]) = true := by
  decide +kernel
theorem test_load_misaligned : doing (.ld opAb) (withV 8 2 (standing none (.ld opAb))) (fun t => trapped t == some .align && later t == []) = true ∧
    doing (.ld opAb) (withV 9 0x1000000 (standing none (.ld opAb))) (fun t => trapped t == some .xnp) = true := by decide +kernel
def plainSt : Instr := .st { opAb with d := 24, type := 7 }
theorem test_store : doing plainSt (withV 24 0x11223344 ((standing none plainSt).setDie 0 fun d => { d with poolcfg := 0 }))
    (fun t => (List.range 5).map (fun i => (readByte t (0x100000 + i)).toNat) == [0x44, 0x33, 0x22, 0x11, 0]) = true := by decide +kernel
/-- CAS stores where the old value is the one compared. -/
theorem test_cas : doing (.cas opAbc) (withV 16 10 (withV 24 100 (withBytes 0x100000 4 10 ((standing none (.cas opAbc)).setDie 0 fun d => { d with poolcfg := 0 }))))
    (fun t => later t == [10] && (readByte t 0x100000).toNat == 100) = true := by decide +kernel
theorem test_atom_adds : doing (.atom opAb) (withV 16 3 (withBytes 0x100000 4 10 ((standing none (.atom opAb)).setDie 0 fun d => { d with poolcfg := 0 })))
    (fun t => later t == [10] && (readByte t 0x100000).toNat == 13) = true := by decide +kernel

/-- The device: MRESET's key, the wrong key, the boot's failures. -/
theorem test_mreset : doing (.mreset (BitVec.ofNat 64 (0x0d145e7a * 2 ^ 32 + 1))) (withBytes 0x2000000 1 7 (withBytes 5 1 7 State.reset))
    (fun t => (readByte t 5).toNat == 7 && (readByte t 0x2000000).toNat == 0) = true := by decide +kernel
theorem test_thermal_trip : doing .thermalTrip { State.reset with regs := { State.reset.regs with tj := 1760 } }
    (fun t => t.regs.phase == .recovery && t.regs.bootError == 5) = true := by decide +kernel
theorem test_step_passes_the_word : (match step atNop with | .next t => (slice0 t).any fun x => x.active == 1 | _ => false) = true := by decide +kernel

end Sys2Proof.Tests
end

/-! PROOFS. Integer instructions: arithmetic, division, carries and the funnel shift (R87 to R91, R95). -/

namespace Sys2Proof.Machine

/-! ## What the shared forms of integer instructions do -/

section Forms

variable {i : Instr}

/-- R10: a fixed-latency instruction over the guard-true active lanes writes their destinations. -/
theorem runs_perLane {val : Ctx → Slice → Nat → Nat}
    (he : ∀ s, exec i s = issue i s fun c => perLane c (val c)) : Runs i (wrote val) :=
  runs_of he fun _ _ => rfl

/-- R54: a variable-latency instruction without an access hands its results and flags to a later step. -/
theorem runs_perLaneLater {val : Ctx → Slice → Nat → Nat × Flags}
    (he : ∀ s, exec i s = issue i s fun c => perLaneLater c (val c)) : Runs i (willWrite val) :=
  runs_of he fun _ _ => rfl

/-- R91: the sum goes to the destination and its carry to the predicate that aux names, if it names one. -/
theorem carryOp_done (c : Ctx) (val : Ctx → Slice → Nat → Int) :
    carryOp c (val c) = .done (wroteCarry val c) := by
  unfold carryOp wroteCarry wroteAux wrote
  simp only [Bool.decide_eq_true]

theorem runs_carryOp {val : Ctx → Slice → Nat → Int}
    (he : ∀ s, exec i s = issue i s fun c => carryOp c (val c)) : Runs i (wroteCarry val) :=
  runs_of he fun c _ => carryOp_done c val

/-- The lanes' values may be given in any way that agrees for the instruction's own description. -/
theorem Runs.congr_wrote {val val' : Ctx → Slice → Nat → Nat} (h : Runs i (wrote val))
    (hv : ∀ c, c.D = instrDesc i → val c = val' c) : Runs i (wrote val') := by
  intro s c hc
  obtain ⟨-, hD, -⟩ := readyCtx_fields hc
  have e : wrote val c = wrote val' c := by unfold wrote; rw [hv c hD]
  exact e ▸ h s c hc

end Forms

/-! ## 32-bit operands -/

/-- R65, R66: a source of one register is a word, and so is a literal of a 32-bit type. -/
theorem Ctx.src_word_lt (c : Ctx) (x : Slice) (lane code : Nat) : c.src x lane code 1 7 < 2 ^ 32 := by
  unfold Ctx.src
  split
  · exact c.f.lit.isLt
  split
  · decide
  split
  · cases c.pops.find? fun e => e.1 == code with
    | none => exact Nat.two_pow_pos 32
    | some e => exact BitVec.isLt _
  · exact BitVec.isLt _

theorem Ctx.opnd_word_lt {c : Ctx} {slot : Slot} {kinds : List Kind} (h : useOf c.D c.f slot = .op .w32 kinds)
    (x : Slice) (lane : Nat) : c.opnd x lane slot < 2 ^ 32 := by
  unfold Ctx.opnd
  rw [h]
  exact c.src_word_lt x lane _

/-! ## The funnel shift (R95) -/

section Funnel

variable {a b : Nat} (ha : a < 2 ^ 32) (hb : b < 2 ^ 32)
include ha hb

/-- The concatenation b:a of two words as a number. -/
theorem toNat_append_words : (BitVec.ofNat 32 b ++ BitVec.ofNat 32 a).toNat = b * 2 ^ 32 + a := by
  rw [BitVec.toNat_append, BitVec.toNat_ofNat, BitVec.toNat_ofNat, Nat.mod_eq_of_lt ha, Nat.mod_eq_of_lt hb,
    ← Nat.shiftLeft_add_eq_or_of_lt ha, Nat.shiftLeft_eq]

/-- Bits 31:0 of b:a shifted right. -/
theorem low_word_of_shiftRight (n : Nat) :
    (BitVec.extractLsb' 0 32 ((BitVec.ofNat 32 b ++ BitVec.ofNat 32 a) >>> n)).toNat = (b * 2 ^ 32 + a) / 2 ^ n % 2 ^ 32 := by
  rw [BitVec.extractLsb'_toNat, BitVec.toNat_ushiftRight, toNat_append_words ha hb, Nat.shiftRight_zero,
    Nat.shiftRight_eq_div_pow]

/-- Bits 63:32 of b:a shifted left: what is shifted out above bit 63 is not among them. -/
theorem high_word_of_shiftLeft (n : Nat) :
    (BitVec.extractLsb' 32 32 ((BitVec.ofNat 32 b ++ BitVec.ofNat 32 a) <<< n)).toNat = (b * 2 ^ 32 + a) * 2 ^ n / 2 ^ 32 % 2 ^ 32 := by
  rw [BitVec.extractLsb'_toNat, BitVec.toNat_shiftLeft, toNat_append_words ha hb, Nat.shiftLeft_eq,
    Nat.shiftRight_eq_div_pow, Nat.pow_add, Nat.mod_mul_right_div_self, Nat.mod_mod]

end Funnel

/-- The value that FSH gives a lane, as the model computes it on numbers. -/
def funnelValue (c : Ctx) (x : Slice) (l : Nat) : Nat :=
  let v := c.opnd x l .b * 2 ^ 32 + c.opnd x l .a
  let n := (if c.f.minor.getLsbD 0 then c.f.c.toNat else c.opnd x l .c) % 32
  if c.f.minor.getLsbD 1 then v / 2 ^ n % 2 ^ 32 else v * 2 ^ n / 2 ^ 32 % 2 ^ 32

theorem runs_fsh (f : Fields) : Runs (.fsh f) (wrote funnelValue) := runs_perLane fun _ => rfl

/-- FSH reads words from a and b. -/
theorem fsh_operands_lt {f : Fields} {c : Ctx} (hD : c.D = instrDesc (.fsh f)) (x : Slice) (l : Nat) :
    c.opnd x l .a < 2 ^ 32 ∧ c.opnd x l .b < 2 ^ 32 :=
  ⟨Ctx.opnd_word_lt (by rw [hD]; rfl) x l, Ctx.opnd_word_lt (by rw [hD]; rfl) x l⟩

/-! ## The statements -/

/-- Settles O1: each form is one value for each guard-true active lane. -/
theorem integerArithmeticCompletes : Obligations.IntegerArithmeticCompletes := by
  intro f
  refine ⟨?add, ?sub, ?mul, ?mulh, ?mad, ?madWide, ?min, ?max, ?abs, ?neg, ?dot4⟩
  all_goals exact runs_perLane fun _ => rfl

/-- Settles O2: both are variable-latency forms over the lanes. -/
theorem divisionCompletes : Obligations.DivisionCompletes := fun _ =>
  ⟨runs_perLaneLater fun _ => rfl, runs_perLaneLater fun _ => rfl⟩

/-- Settles O3: each is a sum with its carry. -/
theorem carryArithmeticCompletes : Obligations.CarryArithmeticCompletes := fun _ =>
  ⟨runs_carryOp fun _ => rfl, runs_carryOp fun _ => rfl, runs_carryOp fun _ => rfl⟩

/-- Settles O5: FSH reads a and b as words, so that its number is the concatenation b:a. -/
theorem funnelShiftReturnsAWord : Obligations.FunnelShiftReturnsAWord := by
  intro f
  refine (runs_fsh f).congr_wrote fun c hD => ?_
  funext x l
  obtain ⟨ha, hb⟩ := fsh_operands_lt hD x l
  simp only [funnelValue, low_word_of_shiftRight ha hb, high_word_of_shiftLeft ha hb]

end Sys2Proof.Machine

/-! PROOFS. Explicit traps: TRAP and BPT (R139). -/

namespace Sys2Proof.Machine

/-- R139: one hit for each slice with a guard-true active lane: those lanes, and the operand of the instruction in AUX. -/
def explicitHits (c : Ctx) (cause : Cause) : List Hit :=
  (c.slices.filter fun x => guardMask c.s c.g c.f x != 0).map fun x =>
    ⟨x.pos, cause, guardMask c.s c.g c.f x, c.f.c.toNat, [0, 0, 0, 0]⟩

/-- Without a hit the body does nothing. -/
theorem explicitTrap_done {c : Ctx} {cause : Cause} (h : explicitHits c cause = []) :
    explicitTrap c cause = .done c.s := by
  unfold explicitTrap
  split
  case h_1 => rfl
  case h_2 hne => exact absurd h hne

/-- With a hit the body traps in the state that it finds. -/
theorem explicitTrap_trap {c : Ctx} {cause : Cause} (h : explicitHits c cause ≠ []) :
    explicitTrap c cause = .trap c.s (explicitHits c cause) := by
  unfold explicitTrap
  split
  case h_1 hnil => exact absurd hnil h
  case h_2 => rfl

/-- R139: an instruction with such a body traps the slices of its hits, and where there is none it has no effect. -/
theorem ran_or_traps_of_explicitTrap {i : Instr} {cause : Cause} (he : ∀ s, exec i s = issue i s fun c => explicitTrap c cause)
    {s : State} {c : Ctx} (h : readyCtx i s = some c) :
    if explicitHits c cause = [] then Ran i s c c.s else Traps i s c (explicitHits c cause) := by
  split
  next hnil => exact (he s).trans (issue_done h (explicitTrap_done hnil))
  next hne => exact issue_trap (he s) h (explicitTrap_trap hne)

/-- Settles O14: TRAP and BPT are explicit traps that differ in the cause alone. -/
theorem explicitTrapsAreTaken : Obligations.ExplicitTrapsAreTaken := fun _ _ _ =>
  ⟨ran_or_traps_of_explicitTrap fun _ => rfl, ran_or_traps_of_explicitTrap fun _ => rfl⟩

end Sys2Proof.Machine

/-! PROOFS. Encoding: every word that is well-formed is read back from its own words (R50 to R53, R62 to R70). -/

namespace Sys2Proof.Laws.Encoding

/-- The round trip holds of every constructor, by its own lemma. -/
theorem statement_of_every_instr (i : Instr) : Statement i := by
  cases i
  exacts [
    clauseStart _ _ _, pairWord _ _, vlResultWrite _, untrackedResultWrite _, add _, sub _, mul _, mulh _, mad _, madWide _, div _, rem _,
    min _, max _, abs _, neg _, dot4 _, addc _, subb _, madc _, and _, or _, xor _, andn _, not _, lut3 _, shl _, shr _, sra _, rot _,
    fsh _, bfx _, bfi _, popc _, clz _, ctz _, brev _, bsel _, mov _, movi _, sel _, cmp _, pset _, lea _, cvti _, ld _, st _, pref _,
    fadd _, fsub _, fmul _, ffma _, fmin _, fmax _, fcmp _, fclass _, frnd _, fdiv _, fsqrt _, frcp _, frsq _, fex2 _, flg2 _, fsin _,
    fcos _, ftanh _, hadd2 _, hmul2 _, hfma2 _, cvtf _, cvtfi _, cvtif _, fscale _, nop _, bra _, brx _, call _, callx _, ret _, exit _,
    endThread _, trap _, bpt _, yield _, xlane _, pqry _, gred _, scan _, kgrp _, lead _, rcvJ _, rcvB _, join _, brkj _, regang _, cont _,
    fwd _, spawn _, spawnNb _, bari _, arrive _, arriveRlx _, arriveRemote _, bwait _, bwaitRemote _, expb _, expn _, expe _, segr _,
    ldfe _, stfe _, fesetEmpty _, fesetFull _, atom _, red _, cas _, waitc _, fence _, fenceWc _, cmaintIinv _, cmaintWb _, cmaintWbinv _,
    cmaintMsset _, cmaintMsclr _, cmaintRepair _, ldt _, qpush _, qwait _, qwaitNb _, mxresX _, mxresW _, mxrel _, mxfence _, mxissue _,
    mxdrain _, mxdrainRaw _, mxdrainMx _, talloc _, tfree _, qnt _, dqnt _, cpy _, fetch _, ixwalk _, zopen _, zadv _, zadvSeek _, zend _,
    zclose _, zval _, cpact _, cpfl _, racqP _, racqC _, rrelP _, rrelC _, fwait _, ftest _, fcancel _, rinit _, gets _, sets _,
    tretRetry _, tretSkip _, tretKill _, snap _, udf _, snapshotLatch _, trapDelivery _ _ _, completionStageTrap _ _ _, segmentEnd _ _ _,
    poolSpaceGrant _ _ _, recordMove _ _, laneEventFire _ _, binDrain _ _, expSlotLoad _ _, gangCreate _, agingStep _, balancerPeriod _,
    taskSliceForm _ _ _, taskAgeTimeout _ _ _, taskqRoomPlace _, launchHeadCheck _, dependenceLatch _ _, launchComplete _, groupPlace _,
    walkComplete _, walkFail _, walkStart _, tlbRetentionExpiry _, wcBufferWrite _, logicalClockTick _, dirtyEvictWriteback _ _,
    requestInject _, requestTimeout _, reservingTimeout _, backoffExpiry _, partReserveExpiry _, partStart _, engineUnitAccess _,
    cpyCompletion _, fetchReserve _ _, fetchCompletion _, ixwalkRangeComplete _, ixwalkCompletion _, cpactTileFill _, cpactCompletion _,
    matrixOpStart _, matrixOpComplete _, mxdrainCompletion _, qntCompletion _, dqntCompletion _, cancelSafePoint _, faultEntryWrite _,
    preemptGo _, preemptGroupDone _, preemptResume _, qwakeWrite _ _, wakeWordChange _, nopPacket _, launchPacket _, beginPacket _,
    commitPacket _, replacePacket _, signalPacket _, ctxnew _, ctxdel _, mapq _, unmapq _, queueUnmapComplete _, abortCmd _, preemptCmd _,
    binTimeout _ _, feataccWrite _, poolcfgApply _, registerWrite _, sctlOpen _, sctlClose _, frameClose _ _, frameTimeout _ _, mreset _,
    clockGate _, coreWake _, partUnreachable _, launchMsg _, recMsg _, partReserve _, partCommit _, partRollback _, partReport _, rdMsg _,
    rdxMsg _, wrMsg _, wrpMsg _, atmMsg _, monMsg _, fwqMsg _, dataMsg _, ackMsg _, msat _, nackMsg _, flitReceive _ _, linkTakedown _,
    bersyAccess _, bersyLaneFail _, ptpEventMessage _, ingestPacket _, bootRomPhase _, verifyPhase _, hbminitPhase _, selftestPhase _,
    readyPhase _, throttle _ _ _, fabricReceiveEntry _ _ _, l2EvictRecall _, attest, restoreCmd, shootdownGo, shootdownComplete,
    snapctlTrig, snapctlRel, standbyEnter, standbyLeave, powerOnReset, thermalTrip]

/-- Settles O47, one lemma for each constructor: a word is packed and read back field by field, a step of the part's own has no word. -/
theorem everyWordRoundTrips : Obligations.EveryWordRoundTrips := statement_of_every_instr

end Sys2Proof.Laws.Encoding

/-! PROOFS. Instructions whose whole effect is a value for each lane: bits, selection, floating point, cross-lane
functions, special registers (R92 to R106, R117 to R132, R141 to R145, R218 to R225), and pair words (R68). -/

namespace Sys2Proof.Machine

section Forms

variable {i : Instr}

/-- R13: a fixed-latency instruction with flags writes every guard-true active lane's destination and raises its flags. -/
theorem runs_perLaneF {val : Ctx → Slice → Nat → Nat × Flags}
    (he : ∀ s, exec i s = issue i s fun c => perLaneF c (val c)) : Runs i (wroteF val) :=
  runs_of he fun _ _ => rfl

end Forms

/-- Settles O4: each form is one value for each guard-true active lane. -/
theorem bitwiseAndShiftsComplete : Obligations.BitwiseAndShiftsComplete := by
  intro f
  refine ⟨?and, ?or, ?xor, ?andn, ?not, ?lut3, ?shl, ?shr, ?sra, ?rot, ?bfx, ?bfi, ?popc, ?clz, ?ctz, ?brev, ?bsel⟩
  all_goals exact runs_perLane fun _ => rfl

/-- Settles O6: each form is one value for each guard-true active lane. -/
theorem selectsAndComparesComplete : Obligations.SelectsAndComparesComplete := by
  intro f
  refine ⟨?movi, ?sel, ?cmp, ?pset, ?lea, ?cvti⟩
  all_goals exact runs_perLane fun _ => rfl

/-- Settles O7: an h register is read by its own rule, by whether its future runs; any other source is a value for each lane. -/
theorem moveCompletes : Obligations.MoveCompletes := by
  intro f
  refine ⟨?register, ?handle, ?running⟩
  case register =>
    refine runsIf_of (fun _ => rfl) fun c hr hc => ?_
    rw [if_neg (by simpa using hc)]
    rfl
  case handle =>
    refine runsIf_of (fun _ => rfl) fun c hr ⟨hl, hu, hn⟩ => ?_
    rw [if_pos (by simp [hl, hu]), if_neg (Bool.eq_false_iff.mp hn)]
    rfl
  case running =>
    refine runsIf_of (fun _ => rfl) fun c hr ⟨hl, hu, hn⟩ => ?_
    rw [if_pos (by simp [hl, hu]), if_pos hn]

/-- Settles O8: each form is one value with its flags for each guard-true active lane; FCLASS raises none, CVTF steps RSTATE besides. -/
theorem floatingPointCompletes : Obligations.FloatingPointCompletes := by
  intro f
  refine ⟨?fadd, ?fsub, ?fmul, ?ffma, ?fmin, ?fmax, ?fcmp, ?fclass, ?frnd, ?fscale, ?hadd2, ?hmul2, ?hfma2, ?cvtf, ?cvtfi, ?cvtif⟩
  case fclass => exact runs_perLane fun _ => rfl
  case cvtf => exact runs_of (fun _ => rfl) fun _ _ => rfl
  all_goals exact runs_perLaneF fun _ => rfl

/-- Settles O9: each is a variable-latency form over the lanes. -/
theorem longFloatingPointCompletes : Obligations.LongFloatingPointCompletes := by
  intro f
  refine ⟨?fdiv, ?fsqrt, ?frcp, ?frsq, ?fex2, ?flg2, ?fsin, ?fcos, ?ftanh⟩
  all_goals exact runs_perLaneLater fun _ => rfl

/-- Settles O10: the body of a pair word is that update. -/
theorem pairWordCompletes : Obligations.PairWordCompletes := fun _ _ =>
  runs_of (fun _ => rfl) fun _ _ => rfl

/-- Settles O11: the bodies of NOP and PREF are done in the state that they find. -/
theorem emptyInstructionsComplete : Obligations.EmptyInstructionsComplete := fun _ =>
  ⟨runs_of (fun _ => rfl) fun _ _ => rfl, runs_of (fun _ => rfl) fun _ _ => rfl, runs_of (fun _ => rfl) fun _ _ => rfl⟩

/-- Settles O18: values over the participants, which are the guard-true active lanes. -/
theorem crossLaneCompletes : Obligations.CrossLaneCompletes := by
  intro f
  refine ⟨?xlane, ?pqry, ?kgrp, ?gred, ?scan⟩
  case gred | scan => exact runs_perLaneF fun _ => rfl
  case xlane | pqry | kgrp => exact runs_of (fun _ => rfl) fun c _ => rfl

/-- Settles O19: LEAD gives every participant one value. -/
theorem leadElectsOne : Obligations.LeadElectsOne := fun _ => runs_perLane fun _ => rfl

end Sys2Proof.Machine

/-! PROOFS. Control: decode traps (R71, R72, R146), transfers (R134 to R137), thread ends (R138), special registers (R141 to
R145), trap returns (R147, R414). -/

namespace Sys2Proof.Machine

/-! ## Traps at decode -/

/-- The slices of a sub-gang with an active lane, each trapping at its lowest one. -/
def activeHits (g : Gang) (sub : Nat) (cause : Cause) : List Hit :=
  ((g.slicesOf sub).filter fun x => x.active != 0).map fun x => hitAt x.pos (lowLane x.active) cause

theorem activeHits_ne_nil {g : Gang} {sub : Nat} (h : ∃ x ∈ g.slicesOf sub, x.active ≠ 0) (cause : Cause) :
    activeHits g sub cause ≠ [] := by
  obtain ⟨x, hx, ha⟩ := h
  exact List.ne_nil_of_mem (List.mem_map_of_mem (List.mem_filter.mpr ⟨hx, by simpa using ha⟩))

/-- R72: a word that fails a check of decode traps there, and nothing of it is executed. -/
theorem issue_of_decodeHits {i : Instr} {s : State} {g : Gang} {sub : Nat} {r : Run} {hits : List Hit} (body : Ctx → Body)
    (hi : issuer s = some (g, sub, r)) (hne : hits ≠ [])
    (hd : ∀ last, decodeHits s.freshen g sub i (instrDesc i) (instrFields i) last = hits) :
    issue i s body = .next (trapSlices s.freshen g sub ⟨r.hdr, r.ix + 1, r.words.length, ilenOf (instrFields i)⟩ hits) := by
  simp only [issue, hi, gate, hd]
  simp [hne]

/-- An ill-formed word traps ILL. -/
theorem decodeHits_of_not_wf {s : State} {g : Gang} {sub : Nat} {i : Instr} {D : Desc} {f : Fields} {last : Bool} (h : i.wf = false) :
    decodeHits s g sub i D f last = activeHits g sub .ill := by
  simp only [decodeHits, h, Bool.not_false, Bool.true_or, if_true, activeHits]

/-- A well-formed word that may stand anywhere and moves no token traps PRIV where the state denies it. -/
theorem decodeHits_of_not_priv {s : State} {g : Gang} {sub : Nat} {i : Instr} {D : Desc} {f : Fields} {last : Bool} (hw : i.wf = true)
    (hm : maintOnly i = false) (hl : D.last = false) (hs : segEnding i = false) (hr : rcvOk i f = true) (ht : ∀ x, stackOk i x = true)
    (hp : privOk s g i = false) : decodeHits s g sub i D f last = activeHits g sub .priv := by
  simp [decodeHits, hw, hm, hl, hs, hr, ht, hp, activeHits]

/-- Settles O15: UDF is no well-formed word. -/
theorem udfTrapsIll : Obligations.UdfTrapsIll := fun _ _ _ _ _ hi ha =>
  issue_of_decodeHits _ hi (activeHits_ne_nil ha .ill) fun _ => decodeHits_of_not_wf rfl

/-- Settles O58: the three forms pass every earlier check of decode. -/
theorem privilegedFormsTrap : Obligations.PrivilegedFormsTrap := by
  intro i f s g sub r hi hw ha h
  have hne := activeHits_ne_nil ha .priv
  rcases h with ⟨rfl, hc, hh⟩ | ⟨rfl, hon⟩ | ⟨rfl, hfw⟩
  case inl =>
    refine issue_of_decodeHits _ hi hne fun _ => decodeHits_of_not_priv hw rfl rfl rfl rfl (fun _ => rfl) ?_
    simp [privOk, hc, hh]
  case inr.inl =>
    exact issue_of_decodeHits _ hi hne fun _ => decodeHits_of_not_priv hw rfl rfl rfl rfl (fun _ => rfl) hon
  case inr.inr =>
    exact issue_of_decodeHits _ hi hne fun _ => decodeHits_of_not_priv hw rfl rfl rfl rfl (fun _ => rfl) hfw

/-! ## Transfers -/

theorem foldl_eq_self {α β : Type} {f : β → α → β} (h : ∀ b a, f b a = b) {l : List α} {b : β} : l.foldl f b = b := by
  induction l with
  | nil => rfl
  | cons a l ih => rw [List.foldl_cons, h, ih]

theorem transfer_go {c : Ctx} {link : Bool} {atN : Option Nat} {tgt : Slice → Nat → Nat} {xs : List Slice} (h : c.plan atN tgt = .go xs) :
    transfer c link atN tgt = .done (applySlices (if link then putAll c.s c.g.core c.g.slot c.links else c.s) c xs) := by
  simp only [transfer, h]

/-- A plan that goes on: no slice has a target out of range, and every slice's stack has room. -/
theorem Ctx.plan_go {c : Ctx} {atN : Option Nat} {tgt : Slice → Nat → Nat} {xs : List Slice} (h : c.plan atN tgt = .go xs) {x : Slice}
    (hx : x ∈ c.slices) : c.badTarget tgt x = none ∧ (settleTargets x atN (c.targets tgt x)).isSome := by
  unfold Ctx.plan at h
  simp only at h
  split at h
  case h_2 => cases h
  case h_1 hnil =>
    rw [List.filterMap_map, List.filterMap_eq_nil_iff] at hnil
    have := hnil x hx
    simp only [Function.comp_apply] at this
    split at this
    · cases this
    next hb =>
      split at this
      · cases this
      next hs => exact ⟨hb, by rw [hs]; rfl⟩

/-- A lane's target in range and aligned, where its slice has no bad one. -/
theorem Ctx.target_of_badTarget {c : Ctx} {tgt : Slice → Nat → Nat} {x : Slice} (h : c.badTarget tgt x = none) {l : Nat}
    (hl : l ∈ c.lanesIn x) : tgt x l < 2 ^ 56 ∧ tgt x l % 8 = 0 := by
  simp only [Ctx.badTarget, Option.map_eq_none_iff, List.find?_eq_none, Bool.or_eq_true, decide_eq_true_eq, bne_iff_ne, not_or,
    not_le, ne_eq, not_not] at h
  exact h l hl

theorem Ctx.mem_lanes {c : Ctx} {x : Slice} {l : Nat} : (x, l) ∈ c.lanes ↔ x ∈ c.slices ∧ l ∈ c.lanesIn x := by
  simp [Ctx.lanes, Ctx.lanesIn]

/-! ## CALLX (R137) -/

section Callx

variable {c : Ctx} {xs : List Slice} (he : ∀ e ∈ c.lanes, ∃ a v i d, c.callee e.1 e.2 = .code a v i d)
  (hp : c.plan none (fun x l => (c.callee x l).addr) = .go xs)
include he hp

/-- A lane whose entry is there and whose target is in range meets no cause. -/
theorem calleeHit_none {x : Slice} (hx : x ∈ c.slices) {l : Nat} (hl : l ∈ c.lanesIn x) : c.calleeHit x l = none := by
  obtain ⟨ha, hm⟩ := Ctx.target_of_badTarget (Ctx.plan_go hp hx).1 hl
  obtain ⟨a, v, i, d, hc⟩ := he (x, l) (Ctx.mem_lanes.mpr ⟨hx, hl⟩)
  simp only at hc
  simp only [hc] at ha hm
  have he : (Entry.code a v i d == .empty) = false := rfl
  simp only [Ctx.calleeHit, hc, he, Nat.not_le.mpr ha, hm, bne_self_eq_false, Bool.false_eq_true, if_false]

/-- No slice's call meets a cause, where the budgets are within the limits. -/
theorem callHit_none {x : Slice} (hx : x ∈ c.slices) (hb : c.callBudget x ≤ c.callLimit x) : c.callHit x = none := by
  have hl : (c.lanesIn x).findSome? (c.calleeHit x) = none :=
    List.findSome?_eq_none_iff.mpr fun l h => calleeHit_none he hp hx h
  have hs := (Ctx.plan_go hp hx).2
  simp only [Ctx.callHit, hl, Option.isNone_iff_eq_none, Option.isSome_iff_ne_none.mp hs, Nat.not_lt.mpr hb, if_false, ite_self]

/-- A call whose callees need no more registers than the gang has is entered at once. -/
theorem callx_done {f : Fields} {s : State} (hr : readyCtx (.callx f) s = some c)
    (hb : ∀ x ∈ c.slices, c.callBudget x ≤ c.callLimit x ∧ c.callBudget x ≤ c.g.vbud) :
    Ran (.callx f) s c (applySlices (putAll (c.entriesRead c.callee) c.g.core c.g.slot c.links) c xs) := by
  have hits : c.slices.filterMap c.callHit = [] := List.filterMap_eq_nil_iff.mpr fun x hx => callHit_none he hp hx (hb x hx).1
  refine issue_done hr ?_
  simp only [hits, hp, List.isEmpty_nil, Bool.not_true, Bool.false_eq_true, if_false]
  split
  next pa hpa =>
    obtain ⟨e, hm, hpa⟩ := List.exists_of_findSome?_eq_some hpa
    obtain ⟨a, v, i, d, hc⟩ := he e hm
    simp [hc] at hpa
  next =>
    refine congrArg Body.done (foldl_eq_self fun t y => if_neg (Nat.not_lt.mpr ?_))
    split
    next x hx => exact (hb x (List.mem_of_find?_eq_some hx)).2
    next => exact Nat.zero_le _

end Callx

/-- Settles O12: the transfers by their plan, CALLX by the checks that its entries pass. -/
theorem transfersComplete : Obligations.TransfersComplete := by
  intro f s c xs
  refine ⟨?bra, ?brx, ?ret, ?call, fun hr he hb hp => callx_done he hp hr hb⟩
  case call => exact fun hr hp => issue_done hr (transfer_go (link := true) hp)
  all_goals exact fun hr hp => issue_done hr (transfer_go (link := false) hp)

/-! ## Thread ends, special registers -/

/-- The slices with a guard-true thread whose token stack is not empty. -/
def tokensLeft (c : Ctx) : List Slice := c.slices.filter fun x => guardMask c.s c.g c.f x != 0 && !x.tokens.isEmpty

/-- R20: END ends the threads where no slice of theirs has a token left. -/
theorem runsIf_end (f : Fields) : RunsIf (.endThread f) (fun c => tokensLeft c = []) endGuarded :=
  runsIf_of (fun _ => rfl) fun c _ h => by
    have h' : (c.slices.filter fun x => guardMask c.s c.g c.f x != 0 && !x.tokens.isEmpty) = [] := h
    simp only [h', List.map_nil]

/-- R20: and traps ILL in the slices that have one. -/
theorem traps_end {f : Fields} {s : State} {c : Ctx} (hr : readyCtx (.endThread f) s = some c) (h : tokensLeft c ≠ []) :
    Traps (.endThread f) s c ((tokensLeft c).map fun x => hitAt x.pos (lowLane (guardMask c.s c.g c.f x)) .ill) := by
  refine issue_trap rfl hr ?_
  split
  next hnil => exact absurd (List.map_eq_nil_iff.mp hnil) h
  next => rfl

/-- Settles O13: EXIT ends the threads, END by the two cases of the token stacks. -/
theorem threadEndsComplete : Obligations.ThreadEndsComplete := fun f =>
  ⟨runs_of (fun _ => rfl) fun _ _ => rfl, runsIf_end f, fun _ _ => traps_end⟩

/-- SETS of PRIO where no slice meets a cause. -/
theorem prioHits_nil {c : Ctx} (h : ∀ x ∈ c.slices, prioHit c x = none) : c.slices.filterMap (prioHit c) = [] :=
  List.filterMap_eq_nil_iff.mpr h

/-- Settles O16: the branches of GETS and SETS by their register. -/
theorem specialRegistersComplete : Obligations.SpecialRegistersComplete := by
  intro f
  refine ⟨?gets, ?counter, ?fpstat, ?rstate, ?prio, runs_of (fun _ => rfl) fun _ _ => rfl⟩
  case gets => exact runsIf_of (fun _ => rfl) fun c _ h => by simp only [h, Bool.false_eq_true, if_false]; rfl
  case counter => exact runsIf_of (fun _ => rfl) fun c _ h => by simp only [h, if_true]; rfl
  case fpstat => exact runsIf_of (fun _ => rfl) fun c _ h => by simp only [h, if_true]
  case rstate => exact runsIf_of (fun _ => rfl) fun c _ h => by simp only [h, one_ne_zero, if_false, if_true]
  case prio =>
    refine runsIf_of (fun _ => rfl) fun c _ ⟨h2, h⟩ => ?_
    have h0 : c.f.c.toNat ≠ 0 := by omega
    have h1 : c.f.c.toNat ≠ 1 := by omega
    simp only [h0, h1, if_false, prioHits_nil h] <;> rfl

/-! ## Trap returns (R147, R414) -/

/-- The gang's combining buffers are written before its handler returns. -/
def buffersWritten (c : Ctx) : State := (c.g.slices.map fun x => x.pos).foldl (fun s p => wcWriteSlice s c.g.core c.g.slot p) c.s

/-- A handler whose earlier accesses are performed releases the record that it holds. -/
theorem tret_done {c : Ctx} {how : Release} {e : Slice × Nat} {m : RecMeta} (hf : c.first = some e) (hh : c.g.handler.isSome = true)
    (ha : c.src e.1 e.2 c.f.a.toNat 2 8 % 128 = 0) (hb : accBusy (buffersWritten c) c.g (c.g.slices.map fun x => x.pos) = false)
    (hk : tabGet 0 (buffersWritten c).acks c.g.core = 0)
    (hm : heldRecord (buffersWritten c) c.g (c.src e.1 e.2 c.f.a.toNat 2 8) = some m) (hp : fieldsKept (buffersWritten c) m = true)
    (hq : ∀ e ∈ (buffersWritten c).faults, e.rid ≠ some m.rid)
    (hs : how = .skip → (readHead (buffersWritten c) m).w 0 = bytesToNat (m.copy.take 8)) :
    tret c how = .done (releaseRecord (buffersWritten c) m how) := by
  have moved : (how == .skip && (readHead (buffersWritten c) m).w 0 != bytesToNat (m.copy.take 8)) = false := by
    rw [Bool.and_eq_false_imp, beq_iff_eq]
    intro h
    simp only [hs h, bne_self_eq_false]
  have written : ((buffersWritten c).faults.any fun e => e.rid == some m.rid) = false := by
    simpa only [List.any_eq_false, beq_iff_eq] using hq
  unfold buffersWritten at *
  simp only [tret, hf, Option.isNone_eq_false_iff.mpr hh, ha, hb, hk, hm, hp, moved, written, bne_self_eq_false, Bool.or_self,
    Bool.not_true, Bool.false_eq_true, if_false]

/-- Settles O17: the three forms differ in how the record is released. -/
theorem trapReturnsComplete : Obligations.TrapReturnsComplete := by
  intro f s c e m pa mine t hf hh ha hb hk hm hp hq
  refine ⟨fun hr => issue_done hr ?_, fun hr hs => issue_done hr ?_, fun hr => issue_done hr ?_⟩
  · exact tret_done hf hh ha hb hk hm hp hq nofun
  · exact tret_done hf hh ha hb hk hm hp hq fun _ => hs
  · exact tret_done hf hh ha hb hk hm hp hq nofun

end Sys2Proof.Machine

/-! PROOFS. What the accesses of an instruction leave of the cores' expansion slots: all of them. -/

namespace Sys2Proof.Machine

/-! ## Operations that leave the cores as they are -/

@[simp] theorem fireWait_cores (s : State) (rid lane : Nat) (vals : List W32) (seen : List Nat) :
    (fireWait s rid lane vals seen).cores = s.cores := rfl

@[simp] theorem setFe_cores (s : State) (core k : Nat) (v : Bool) : (setFe s core k v).cores = s.cores := rfl

@[simp] theorem feServe_cores (core k : Nat) (ws : List Wait) (s : State) : (feServe core k ws s).cores = s.cores := by
  induction ws generalizing s with
  | nil => rfl
  | cons w ws ih =>
    unfold feServe
    split
    · rfl
    split
    · dsimp only
      split
      · rw [ih]; split <;> simp
      · exact ih s
    · exact ih s

@[simp] theorem feChange_cores (s : State) (core k : Nat) (v : Bool) : (feChange s core k v).cores = s.cores := by
  unfold feChange
  split <;> simp

@[simp] theorem fePutByte_cores (s : State) (core byte : Nat) (b : Byte) : (fePutByte s core byte b).cores = s.cores :=
  foldl_keeps (P := fun t : State => t.cores = s.cores) (fun t i h => by simpa using h) _ rfl

@[simp] theorem send_cores (s : State) (kind : Nat) (m : Msg) (bare : Bool) : (s.send kind m bare).cores = s.cores := by
  unfold State.send; split <;> rfl

@[simp] theorem satisfy_cores (s : State) (m : Monitor) (v : Nat) : (satisfy s m v).cores = s.cores := by
  unfold satisfy; split <;> simp

@[simp] theorem tryMonitor_cores (s : State) (m : Monitor) : (tryMonitor s m).cores = s.cores := by
  unfold tryMonitor; dsimp only; split <;> split <;> simp

@[simp] theorem evalMonitors_cores (s : State) (la n : Nat) : (evalMonitors s la n).cores = s.cores :=
  foldl_keeps (P := fun t : State => t.cores = s.cores) (fun t m h => by simpa using h) _ rfl

@[simp] theorem rfWindowPut_cores (s : State) (core off : Nat) (b : Byte) : (rfWindowPut s core off b).cores = s.cores := by
  unfold rfWindowPut; dsimp only; split <;> rfl

@[simp] theorem scrub_cores (s : State) (la n : Nat) : (scrub s la n).cores = s.cores :=
  foldl_keeps (P := fun t : State => t.cores = s.cores) (fun t l h => by split <;> simp [h]) _ rfl

@[simp] theorem report_cores (s : State) (q : Option Nat) (die : Nat) (rid handle : Option Nat) (r : Report) :
    (report s q die rid handle r).cores = s.cores := by
  unfold report
  split <;> rfl

@[simp] theorem noteUncorrectable_cores (s : State) (la : Nat) : (noteUncorrectable s la).cores = s.cores := by
  simp [noteUncorrectable]

@[simp] theorem askLine_cores (s : State) (die : Nat) (who : ReqFor) (pts pa : Nat) (excl : Bool) (tag : Nat) :
    (askLine s die who pts pa excl tag).cores = s.cores := by
  simp only [askLine, requestLine, apply_ite State.cores, ite_self]

@[simp] theorem postMsg_cores (s : State) (who : ReqFor) (kind : Nat) (m : Msg) (src : List Src) (sig : Option (Nat × Nat × Nat))
    (dirty : Option Nat) : (postMsg s who kind m src sig dirty).cores = s.cores := by
  simp only [postMsg, apply_ite State.cores, ite_self, send_cores, askLine_cores]

/-! ## Operations that leave the expansion slots -/

/-- The expansions of every core stand in their slots as before. -/
def SameExp (s t : State) : Prop := t.cores.map CoreSt.expand = s.cores.map CoreSt.expand

theorem SameExp.of_cores {s t : State} (h : t.cores = s.cores) : SameExp s t := by rw [SameExp, h]
theorem SameExp.trans {s t u : State} (h : SameExp s t) (k : SameExp t u) : SameExp s u := Eq.trans k h

theorem SameExp.foldl {α : Type} {f : State → α → State} (h : ∀ t a, SameExp t (f t a)) (l : List α) (s : State) :
    SameExp s (l.foldl f s) :=
  foldl_keeps (P := SameExp s) (fun t a ht => ht.trans (h t a)) l (.of_cores rfl)

theorem map_updAt {α β : Type} (p : α → β) (i : Nat) (g : α → α) (g' : β → β) (h : ∀ a, p (g a) = g' (p a)) (l : List α) :
    (updAt i g l).map p = updAt i g' (l.map p) := by
  refine List.ext_getElem? fun k => ?_
  simp only [updAt, List.getElem?_map, List.getElem?_modify]
  cases l[k]? with
  | none => rfl
  | some a => by_cases e : i = k <;> simp [e, h]

theorem sameExp_setCore (s : State) (core : Nat) {g : CoreSt → CoreSt} (h : ∀ k, (g k).expand = k.expand) : SameExp s (s.setCore core g) := by
  rw [SameExp, State.setCore_cores, map_updAt _ _ _ id h]
  exact List.modify_id _ _

theorem sameExp_opWrite (s : State) (core off : Nat) (bs : List Byte) : SameExp s (opWrite s core off bs) := by
  unfold opWrite
  dsimp only
  split
  · split
    · split
      · exact .of_cores rfl
      · refine .trans ?_ (sameExp_setCore _ _ fun _ => rfl)
        refine foldl_keeps (P := SameExp s) (fun t i h => h.trans ?_) _ ?_
        all_goals exact .of_cores rfl
    · exact .of_cores rfl
  · exact .of_cores rfl

theorem sameExp_writeBytes (s : State) (la : Nat) (bs : List Byte) : SameExp s (writeBytes s la bs) := by
  unfold writeBytes
  dsimp only
  split
  case h_1 => split <;> exact .of_cores (by simp)
  case h_2 => exact SameExp.foldl (fun t e => .of_cores (by simp)) _ _
  case h_3 => exact SameExp.foldl (fun t e => .of_cores (by simp)) _ _
  case h_5 => exact sameExp_opWrite _ _ _ _
  all_goals exact .of_cores rfl

theorem sameExp_touchBy (s : State) (pts la : Nat) (write : Bool) (core : Option Nat) : SameExp s (touchBy s pts la write core).1 := by
  unfold touchBy
  dsimp only
  split
  case h_1 =>
    split
    · split <;> exact .of_cores (by simp [storeTime, setL2, noteHclk, l1Settle])
    · exact .of_cores (by simp [setL2, noteHclk, l1Settle])
  case h_4 => exact .trans (.of_cores (scrub_cores s la 1)) (sameExp_setCore _ _ fun _ => rfl)
  all_goals exact .of_cores (by simp)

theorem sameExp_raisePts (s : State) (who : ReqFor) (t : Nat) : SameExp s (raisePts s who t) := by
  unfold raisePts
  split
  case h_1 => exact sameExp_setCore _ _ fun _ => rfl
  case h_3 => split <;> exact .of_cores rfl
  all_goals exact .of_cores rfl

theorem sameExp_orEntry (s : State) (die : Nat) (who : ReqFor) (pa mask : Nat) (src : List Src) (dirty : Option Nat) :
    SameExp s (orEntry s die who pa mask src dirty) := by
  unfold orEntry
  dsimp only
  split
  · split
    · exact .of_cores (by simp)
    · exact .trans (.trans (sameExp_touchBy _ _ _ _ _) (sameExp_raisePts _ _ _)) (sameExp_writeBytes _ _ _)
  · exact .of_cores (by simp)

theorem sameExp_markDirty (s : State) (die : Nat) (who : ReqFor) (va : Nat) (x : Xlt) (src : List Src) :
    SameExp s (markDirty s die who va x src) := by
  unfold markDirty
  split
  · exact .of_cores rfl
  split
  · exact .trans (sameExp_orEntry _ _ _ _ _ _ _) (.of_cores rfl)
  split
  · exact .of_cores (by simp)
  dsimp only
  split
  · exact .of_cores rfl
  · exact sameExp_orEntry _ _ _ _ _ _ _

theorem sameExp_dirtyAll (s : State) (c : Ctx) (rs : List (Want × Xlt)) : SameExp s (dirtyAll s c rs) :=
  SameExp.foldl (fun _ _ => sameExp_markDirty _ _ _ _ _ _) _ _

/-! ## The results of items depend on the expansion slots alone -/

theorem SameExp.expand_core {s t : State} (h : SameExp s t) (core : Nat) : (t.core core).expand = (s.core core).expand := by
  have := congrArg (fun l => l.getD core CoreSt.reset.expand) h
  simpa only [State.core, List.getD_map] using this

theorem SameExp.expAt_eq {s t : State} (h : SameExp s t) (core save : Nat) : expAt t core save = expAt s core save := by
  rw [expAt, expAt, h.expand_core]

theorem SameExp.setExp {s t : State} (h : SameExp s t) (core save : Nat) (g : Expansion → Expansion) :
    SameExp (setExp s core save g) (setExp t core save g) := by
  have step := fun u : State => map_updAt CoreSt.expand core
    (fun k : CoreSt => { k with expand := k.expand.map fun e => e.map fun x => if x.save == save then g x else x })
    (fun l => l.map fun e => e.map fun x => if x.save == save then g x else x) (fun _ => rfl) u.cores
  exact (step t).trans ((congrArg _ h).trans (step s).symm)

theorem SameExp.takeItems {s t : State} (h : SameExp s t) (core : Nat) (items : List Item) :
    SameExp (items.foldl (takeItem core) s) (items.foldl (takeItem core) t) := by
  induction items generalizing s t with
  | nil => exact h
  | cons i items ih => exact ih (h.setExp _ _ _)

theorem SameExp.resultAt_eq {s t : State} (h : SameExp s t) (core : Nat) (items : List Item) (i : Item) :
    resultAt t core items i = resultAt s core items i := by
  unfold resultAt
  simp only [(h.takeItems core _).expAt_eq]

/-- The stores of completed items are the same before and after the D bits of their pages are set. -/
theorem itemStores_dirtyAll (s : State) (c : Ctx) (items : List Item) (rs : List (Want × Xlt)) :
    itemStores (dirtyAll s c rs) c items rs = itemStores s c items rs := by
  unfold itemStores itemResult
  simp only [(sameExp_dirtyAll s c rs).resultAt_eq]

end Sys2Proof.Machine

/-! PROOFS. Cross-thread instructions: tokens and segment ends (R155, R158, R226 to R230), spawning (R181, R231), barriers
(R176 to R178), expansions (R185 to R195). -/

namespace Sys2Proof.Machine

/-! ## Tokens and segment ends -/

/-- The slice with the token of RCV on its stack. -/
def Ctx.withToken (c : Ctx) (kind : TokenKind) (x : Slice) : Slice :=
  { x with tokens := x.tokens ++ [⟨kind, x.active, 0, c.rcvTarget⟩] }

/-- RCV where its target is in range and every stack has room: a token on the stack of every slice with an active lane. -/
theorem rcv_done {c : Ctx} {kind : TokenKind} (ht : c.rcvTarget < 2 ^ 56)
    (hx : ∀ x ∈ c.slices, x.active ≠ 0 → x.tokens.length < 8) :
    rcv c kind = .done (applySlices c.s c ((c.slices.filter fun x => x.active != 0).map (c.withToken kind))) := by
  unfold rcv
  dsimp only
  rw [List.map_congr_left (g := fun x => Sum.inr (c.withToken kind x)) fun x h => ?room]
  case room =>
    obtain ⟨hm, ha⟩ := List.mem_filter.mp h
    have room := hx x hm (by simpa using ha)
    simp only [Nat.not_le.mpr ht, Slice.push, room, if_true, if_false, Ctx.withToken]
  simp [List.filterMap_map, Function.comp_def]

/-- What FWD does with a destination for every slice: those of the issuing core act as CONT, the others are forwarded. -/
theorem fwd_done {f : Fields} {s : State} {c : Ctx} {dest : Slice → W32} (hr : readyCtx (.fwd f) s = some c) (hg : c.g.group = none)
    (hd : ∀ e ∈ c.acting, fwdDest c.s (c.src e.1 (lowLane e.2) c.f.a.toNat 1 7) = some (dest e.1)) :
    Ran (.fwd f) s c ((c.acting.filter fun e => !((dest e.1).toNat == corelocOf c.s c.g.core)).foldl (fun s e =>
        endSegment s.bump c.g.core c.g.slot e.1.pos { plainEnd s.nextId c.next c.resume with kind := .fwd, fwd := some (dest e.1) })
      (plainLeave c c.s ((c.acting.filter fun e => (dest e.1).toNat == corelocOf c.s c.g.core).map fun e => e.1.pos))) := by
  refine issue_done hr ?_
  dsimp only
  rw [List.map_congr_left (g := fun e => (e.1.pos, lowLane e.2, some (dest e.1))) fun e h => by
    simp only [hg, hd e h, Option.isSome_none, Bool.false_eq_true, if_false]]
  simp [List.filter_map, Function.comp_def, List.foldl_map]

/-- Settles O20. RCV and FWD by the lemmas above; the others are updates of the acting slices. -/
theorem tokensAndSegmentEndsComplete : Obligations.TokensAndSegmentEndsComplete := by
  intro f
  refine ⟨?rcvJ, ?rcvB, ?join, ?brkj, ?park, ?leave, ?cont, ?fwd⟩
  case rcvJ | rcvB => exact runsIf_of (fun _ => rfl) fun c _ h => rcv_done h.1 h.2
  case join | brkj | cont => exact runs_of (fun _ => rfl) fun _ _ => rfl
  case park => exact runsIf_of (fun _ => rfl) fun c _ h => by simp only [h, Bool.false_eq_true, if_false]
  case leave => exact runsIf_of (fun _ => rfl) fun c _ h => by simp only [h, if_true]
  case fwd => exact fun dest s c hr h => fwd_done hr h.1 h.2

/-! ## Spawning -/

/-- What SPAWN does for one slice: its tasks are placed while there is room, else it waits; with nb it answers instead. -/
def spawnSlice (c : Ctx) (nb : Bool) (s : State) (e : Slice × BitVec 4) : State :=
  let die := c.g.core / 64
  let ts := (lanesOf e.2).map fun l => c.taskOf e.1 l
  if (s.tasks.getD die []).length + ts.length ≤ taskRoom && !taskWaiting s die then
    if nb then givePred c (placeTasks s die ts) e.1 e.2 true else placeTasks s die ts
  else if nb then givePred c s e.1 e.2 false
  else
    (waitSlice s c e.1.pos .taskq die 240 0 ((lanesOf e.2).map fun l => (l, .taskq die))).updSlice c.g.core c.g.slot e.1.pos
      fun x => match x.st with
        | .ending i => { x with st := .ending { i with tasks := ts } }
        | _ => x

/-- Where every lane names an entry, SPAWN goes on with the entries read, slice by slice. -/
theorem spawnTasks_done {c : Ctx} (nb : Bool) (hw : c.mustWait = false)
    (he : ∀ e ∈ c.lanes, ∃ a v i d, c.spawnee e.1 e.2 = .code a v i d) :
    spawnTasks c nb = .done (c.acting.foldl (spawnSlice c nb) (c.entriesRead c.spawnee)) := by
  unfold spawnTasks
  dsimp only
  rw [List.filterMap_eq_nil_iff.mpr fun e h => by
    obtain ⟨a, v, i, d, hc⟩ := he e h
    simp only [hc]]
  simp only [hw, Bool.false_eq_true, if_false]
  split
  next pa hpa =>
    obtain ⟨e, hm, hpa⟩ := List.exists_of_findSome?_eq_some hpa
    obtain ⟨a, v, i, d, hc⟩ := he e hm
    simp [hc] at hpa
  next => rfl

/-- Settles O21: both forms go slice by slice. -/
theorem spawningCompletes : Obligations.SpawningCompletes := fun _ _ _ hw he =>
  ⟨fun hr => issue_done hr (spawnTasks_done true hw he), fun hr => issue_done hr (spawnTasks_done false hw he)⟩

/-! ## Barriers -/

/-- R233: BARI gives a barrier that nobody uses its EXPECT. -/
theorem runsIf_bari (f : Fields) : RunsIf (.bari f) (fun c => c.isTask = false ∧ c.mustWait = false ∧
      (c.s.barrier c.g.core c.f.c.toNat).count = 0 ∧ barrierWaiting c.s c.g.core c.f.c.toNat = false ∧
      ∀ e, c.first = some e → 1 ≤ c.src e.1 e.2 c.f.a.toNat 1 7 ∧ c.src e.1 e.2 c.f.a.toNat 1 7 ≤ 1024)
    (fun c => match c.first with
      | none => c.s
      | some e => c.s.setBarrier c.g.core c.f.c.toNat fun r => { r with expect := c.src e.1 e.2 c.f.a.toNat 1 7, count := 0 }) := by
  refine runsIf_of (fun _ => rfl) fun c _ ⟨htask, hwait, hcount, hbusy, hn⟩ => ?_
  split
  next he => simp only [he]
  next e he =>
    obtain ⟨h1, h2⟩ := hn e he
    have h0 : c.src e.1 e.2 c.f.a.toNat 1 7 ≠ 0 := by omega
    simp only [he, htask, hwait, hcount, hbusy, h0, Nat.not_lt.mpr h2, decide_false, bne_self_eq_false, Bool.or_self,
      Bool.false_eq_true, if_false]

/-- R177: arrivals at a barrier in use, once the plain form's earlier accesses are performed. -/
theorem arrive_done {c : Ctx} {plain : Bool} (ht : c.isTask = false) (hw : plain = true → c.mustWait = false)
    (hb : (c.s.barrier c.g.core c.f.c.toNat).expect ≠ 0) :
    arrive c plain = .done (if c.lanes.isEmpty then c.s else
      let r := arriveMany c.g.core c.f.c.toNat c.lanes.length c.s
      putAll r.1 c.g.core c.g.slot ((c.lanes.zip r.2).map fun e => c.put e.1.1 e.1.2 e.2)) := by
  have wait : (plain && c.mustWait) = false := by rwa [Bool.and_eq_false_imp]
  simp only [arrive, ht, hb, wait, decide_false, Bool.or_self, Bool.false_eq_true, if_false]
  split <;> rfl

/-- R178: threads whose phase has passed go on; the slices of the others wait. -/
theorem runsIf_bwait (f : Fields) : RunsIf (.bwait f) (fun c => c.isTask = false ∧ (c.s.barrier c.g.core c.f.c.toNat).expect ≠ 0)
    (fun c =>
      let core := c.g.core
      let b := c.f.c.toNat
      let n := fun (e : Slice × Nat) => c.src e.1 e.2 c.f.a.toNat 1 7 % 2 ^ 16
      let waits := c.lanes.filter fun e => !phasePassed (c.s.barrier core b).phase (n e)
      let s := if waits.length < c.lanes.length then c.s.link core else c.s
      if c.lanes.isEmpty then c.s
      else c.guarded.foldl (fun s p =>
        match waits.filter fun e => e.1.pos == p with
        | [] => s
        | e :: r => waitSlice s c p .bar (b * 2 ^ 16 + n e) 240 0 ((e :: r).map fun e => (e.2, .bar core b (n e)))) s) := by
  refine runsIf_of (fun _ => rfl) fun c _ ⟨htask, hb⟩ => ?_
  simp only [htask, hb, decide_false, Bool.or_self, Bool.false_eq_true, if_false]
  split <;> rfl

/-- Settles O22. -/
theorem barriersComplete : Obligations.BarriersComplete := fun f =>
  ⟨runsIf_bari f, runsIf_of (fun _ => rfl) fun _ _ h => arrive_done h.1 (fun _ => h.2.1) h.2.2,
   runsIf_of (fun _ => rfl) fun _ _ h => arrive_done h.1 nofun h.2, runsIf_bwait f⟩

/-! ## Expansions -/

/-- An expansion over its owners is opened where the instruction may (at group scope: a group's thread, its index not taken), the
results of the empty owners can be stored, and slot and pool have room. -/
theorem openExp_done {c : Ctx} {s s1 : State} {e : Slice × Nat} {grp : Bool} {rb a : Nat} {owners : List Owner} {rs : List (Want × Xlt)}
    (hb : c.alreadyBound [] = [])
    (hg : grp = true → c.isTask = false ∧ (s1.core c.g.core).gexp.getD (c.f.aux.toNat % 4) none = none)
    (hk : checked s c anyTarget (zeroWants c e rb owners) = some (s1, rs)) (ht : totalOf owners ≤ 0xffffffff)
    (hs : expSlotFree s1 c.g.core = true) (hp : poolAlloc s1 c.g.core (saveSize owners.length) = some a) (hl : leafStops s1 rs = false)
    (hf : accFree (dirtyAll s1 c rs) c (zeroStores c rs) = true) :
    openExp c s e grp rb owners = .done (openedExp c (accsMade (dirtyAll s1 c rs) c false (zeroStores c rs) []) grp rb a owners
      (failingAt s1 c.g.core (zeroStores c rs))) := by
  have free : (grp && (c.isTask || ((s1.core c.g.core).gexp.getD (c.f.aux.toNat % 4) none).isSome)) = false := by
    rw [Bool.and_eq_false_imp]
    intro h
    obtain ⟨htask, hexp⟩ := hg h
    simp only [htask, hexp, Option.isSome_none, Bool.or_self]
  unfold openExp
  simp only [withAccess_checked hk, hb, free, ht, hs, hp, withStores_done hl, makeAccesses_free hf, decide_true, Bool.and_self,
    Bool.false_and, Bool.false_eq_true, if_false, if_true, List.isEmpty_nil, Bool.not_true]

/-- R186: what EXPB finds at group scope before it opens its expansion: a table of the right size in the group's allocation. -/
theorem expb_group_done {f : Fields} {s : State} {c : Ctx} {e : Slice × Nat} {s0 : State} {ts : List (Want × Xlt)} {t : State}
    (hr : readyCtx (.expb f) s = some c) (he : c.first = some e)
    (hm : c.f.minor.toNat = 0 ∨ c.resultBase e % typeBytes c.f.type.toNat = 0) (hx : c.f.aux.getLsbD 2 = true)
    (ha : c.opnd e.1 e.2 .a % 8 = 0) (h1 : 1 ≤ c.opnd e.1 e.2 .b) (h2 : c.opnd e.1 e.2 .b ≤ 1024)
    (hk : checked c.s c anyTarget (tableWants c e) = some (s0, ts)) (hrows : (tableRows ts).all (rowInGroup s0 c.g) = true)
    (hw : c.mustWait = false) (hp : portBusy s0 c.g.core (tableRows ts) = false)
    (ho : openExp c s0 e true (c.resultBase e) (tableOwners c s0 ts) = .done t) : Ran (.expb f) s c t := by
  have aligned : (c.f.minor.toNat != 0 && c.resultBase e % typeBytes c.f.type.toNat != 0) = false := by
    rcases hm with h | h <;> simp [h]
  have h0 : c.opnd e.1 e.2 .b ≠ 0 := by omega
  refine issue_done hr ?_
  simp only [he, aligned, hx, ha, withAccess_checked hk, hrows, h0, Nat.not_lt.mpr h2, hw, hp, ho, bne_self_eq_false, decide_false,
    Bool.not_true, Bool.or_self, Bool.false_eq_true, if_false, if_true]

theorem expb_gang_done {f : Fields} {s : State} {c : Ctx} {e : Slice × Nat} {t : State} (hr : readyCtx (.expb f) s = some c)
    (he : c.first = some e) (hm : c.f.minor.toNat = 0 ∨ c.resultBase e % typeBytes c.f.type.toNat = 0) (hx : c.f.aux.getLsbD 2 = false)
    (ho : openExp c c.s e false (c.resultBase e) (laneOwners c) = .done t) : Ran (.expb f) s c t := by
  have aligned : (c.f.minor.toNat != 0 && c.resultBase e % typeBytes c.f.type.toNat != 0) = false := by
    rcases hm with h | h <;> simp [h]
  refine issue_done hr ?_
  simp only [he, aligned, hx, ho, Bool.false_eq_true, if_false]

/-- Settles O23: no lane, gang scope, group scope. -/
theorem expansionsOpen : Obligations.ExpansionsOpen := by
  intro f s c hr
  refine ⟨fun he => issue_done hr (by simp only [he]), fun e he hm hb => ⟨?gang, ?group⟩⟩
  case gang =>
    intro s1 rs a hx hk ht hs hp hl hf
    exact expb_gang_done hr he hm hx (openExp_done hb nofun hk ht hs hp hl hf)
  case group =>
    intro s0 ts s1 rs a hx ha h1 h2 hkt hrows hw hbusy htask hk hg ht hs hp hl hf
    exact expb_group_done hr he hm hx ha h1 h2 hkt hrows hw hbusy (openExp_done hb (fun _ => ⟨htask, hg⟩) hk ht hs hp hl hf)

/-- Items whose results can be stored are taken, and the instruction goes on. -/
theorem withItems_done {c : Ctx} {items : List Item} {go : State → List Nat → State} {s1 : State} {rs : List (Want × Xlt)}
    (hk : checked c.s c anyTarget (itemWants c items) = some (s1, rs)) (hl : leafStops s1 rs = false)
    (hf : accFree (dirtyAll s1 c rs) c (itemStores s1 c items rs) = true) :
    withItems c items go = .done (go (itemsTaken s1 (accsMade (dirtyAll s1 c rs) c false (itemStores s1 c items rs) []) c items rs)
      (failingAt s1 c.g.core (itemStores s1 c items rs))) := by
  simp only [withItems, withAccess_checked hk, withStores_done hl, itemStores_dirtyAll, makeAccesses_free hf]

theorem itemsRun_of {i : Instr} {cond : Ctx → Prop} {items : Ctx → List Item} {go : Ctx → State → List Nat → State} {body : Ctx → Body}
    (he : ∀ s, exec i s = issue i s body) (hb : ∀ c, cond c → body c = withItems c (items c) (go c)) : ItemsRun i cond items go := by
  intro s c s1 rs hr hc hk as t hl hf
  exact (he s).trans (issue_done hr ((hb c hc).trans (withItems_done hk hl hf)))

/-- R194: slices that are bound to the expansion or to none, where it is in a slot or one is free. -/
theorem expnGroup_items {c : Ctx} {a : Nat} (ht : c.isTask = false)
    (ha : (c.s.core c.g.core).gexp.getD (c.f.aux.toNat % 4) none = some a) (hx : ∀ e ∈ c.lanes, e.1.xsave = none ∨ e.1.xsave = some a)
    (hs : (expAt c.s c.g.core a).isSome ∨ expSlotFree c.s c.g.core = true) {go : State → List Nat → State}
    (hgo : go = fun t bad =>
      let core := c.g.core
      let t := if (expAt t core a).isNone then placeExp t core (loadExpansion t (core / 64) a) else t
      let fresh := c.acting.filter fun e => e.1.xsave.isNone
      let t := setExp t core a fun e => { e with bound := e.bound + fresh.length }
      dealAll c (fun _ => a)
        (fresh.foldl (fun t e => t.updSlice core c.g.slot e.1.pos fun x => { x with xsave := some a }) t) bad) :
    expnGroup c (c.f.aux.toNat % 4) = withItems c (passedItems c) go := by
  have room : ((expAt c.s c.g.core a).isNone && !expSlotFree c.s c.g.core) = false := by
    rcases hs with h | h
    · simp [Option.isSome_iff_ne_none.mp h]
    · simp [h]
  subst hgo
  unfold expnGroup
  simp only [ht, ha, Bool.false_eq_true, if_false]
  rw [List.filter_eq_nil_iff.mpr fun e h => by rcases hx e h with h | h <;> simp [h]]
  simp only [List.isEmpty_nil, Bool.not_true, room, Bool.false_eq_true, if_false]

/-- Settles O24: each form's checks, then its items. -/
theorem expansionItemsComplete : Obligations.ExpansionItemsComplete := by
  intro f
  refine ⟨?expn, fun a => ?group, ?expe, ?segr⟩
  case expn => exact itemsRun_of (fun _ => rfl) fun c ⟨hl, hx, hb⟩ => by simp only [hl, hx, hb, Bool.false_eq_true, if_false, List.isEmpty_nil, Bool.not_true]
  case group =>
    refine itemsRun_of (fun _ => rfl) fun c ⟨hl, hx, ht, ha, hs, hr⟩ => ?_
    simp only [hl, hx, Bool.false_eq_true, if_false, if_true]
    exact expnGroup_items ht ha hs hr rfl
  case expe => exact itemsRun_of (fun _ => rfl) fun c hb => by simp [hb]
  case segr => exact itemsRun_of (fun _ => rfl) fun c hb => by simp [hb]

end Sys2Proof.Machine

/-! PROOFS. Instructions that make accesses: loads, stores and atomics (R107 to R112, R235, R324, R325). -/

namespace Sys2Proof.Machine

section Accesses

variable {c : Ctx} {s1 : State} {rs : List (Want × Xlt)}

/-- R58: the slices that store the handle of a RUNNING future wait for it. -/
theorem runs_st_late {f : Fields} (h : Nat) : CheckedRuns (.st f) (fun _ => anyTarget) (fun c => c.wants 8)
    (fun c s1 rs => c.received = none ∧ c.lateHandle = some h ∧ leafStops s1 rs = false)
    (fun c s1 rs => c.guarded.foldl (fun s p =>
      waitSlice s c p .fut h 240 0 ((rs.filter fun r => r.1.x.pos == p).map fun r => (r.1.lane, .futStore h r.2.pa r.1.va (memTypeOf r.2))))
      (notClean (dirtyAll s1 c rs) c.g.core c.g.slot ((rs.filter fun r => memTypeOf r.2 != 0).map fun r => r.1.x.pos))) :=
  checkedRuns_of (fun _ => rfl) fun c s1 rs _ hk ⟨hr, hh, hl⟩ => by
    simp only [hr, withAccess_checked hk, withStores_done hl, hh]

/-- A store of registers that can be made now. -/
theorem runs_st {f : Fields} : CheckedRuns (.st f) (fun _ => anyTarget) (fun c => c.wants 8)
    (fun c s1 rs => c.received = none ∧ c.lateHandle = none ∧ leafStops s1 rs = false ∧ accFree (dirtyAll s1 c rs) c (stores c rs) = true)
    (fun c s1 rs => storesMade (dirtyAll s1 c rs) c rs) :=
  checkedRuns_of (fun _ => rfl) fun c s1 rs _ hk ⟨hr, hh, hl, hf⟩ => by
    simp only [hr, withAccess_checked hk, withStores_done hl, hh]
    exact congrArg (Body.after · _) (makeAccesses_free hf)

theorem runs_ld {f : Fields} : CheckedRuns (.ld f) (fun _ => anyTarget) (fun c => c.wants 4)
    (fun c s1 rs => c.received = none ∧ accFree s1 c (loads c rs) = true)
    (fun c s1 rs => accsMade s1 c (c.f.d.toNat != 240) (loads c rs) (loadSlots c rs)) :=
  checkedRuns_of (fun _ => rfl) fun c s1 rs _ hk ⟨hr, hf⟩ => by
    simp only [hr, withAccess_checked hk]
    exact makeAccesses_free hf

/-- R324, R325: an atomic whose elements can be combined now. -/
theorem atomRuns_of {i : Instr} {op code : Ctx → Nat} {ea b d : Ctx → Slice → Nat → Nat}
    (he : ∀ s, exec i s = issue i s fun c => atomic c (op c) (code c) (ea c) (b c) (d c)) : AtomRuns i op code ea b d := by
  intro s c s1 rs hr hk hl hf
  refine (he s).trans (issue_done hr ?_)
  simp only [atomic, withAccess_checked hk, withStores_done hl]
  exact makeAccesses_free hf

theorem runs_arriveRemote {f : Fields} : CheckedRuns (.arriveRemote f) (fun _ => atomTarget) arriveWants
    (fun c s1 rs => c.mustWait = false ∧ leafStops s1 rs = false ∧ accFree (dirtyAll s1 c rs) c (arriveAccs rs) = true)
    (fun c s1 rs => accsMade (dirtyAll s1 c rs) c false (arriveAccs rs) []) :=
  checkedRuns_of (fun _ => rfl) fun c s1 rs _ hk ⟨hw, hl, hf⟩ => by
    simp only [hw, withAccess_checked hk, withStores_done hl, makeAccesses_free hf, Bool.false_eq_true, if_false]

/-- R375: a load from the entry in a receive port's window. -/
theorem loadReceived_done {entry : List W32} (hb : c.barred = []) : loadReceived c entry =
    .done (if c.f.d.toNat = 240 || c.lanes.isEmpty then c.s
      else issueLater c.s c true c.guarded
        { writes := c.lanes.map fun e => ⟨e.1.pos, e.2, c.f.d.toNat, loadImage c.ty (c.entryBytes entry e)⟩ }) := by
  simp only [loadReceived, hb, List.isEmpty_nil, Bool.not_true, Bool.false_eq_true, if_false]
  split <;> rfl

end Accesses

/-- Settles O25: accesses of memory by their checks and by `makeAccesses_free`, those of a receive port by their entry. -/
theorem memoryAccessesComplete : Obligations.MemoryAccessesComplete := by
  intro f
  refine ⟨runs_ld, runs_st, atomRuns_of fun _ => rfl, atomRuns_of fun _ => rfl, atomRuns_of fun _ => rfl, runs_arriveRemote, runs_st_late,
    fun entry => ?load, fun entry => ?store, fun entry h => ?late⟩
  case load => exact runsIf_of (fun _ => rfl) fun c _ ⟨hr, hb⟩ => by simp only [hr, loadReceived_done hb]
  case store =>
    exact runsIf_of (fun _ => rfl) fun c _ ⟨hr, hb, hh⟩ => by
      simp only [hr, storeReceived, hb, hh, List.isEmpty_nil, Bool.not_true, Bool.false_eq_true, if_false]
  case late =>
    exact runsIf_of (fun _ => rfl) fun c _ ⟨hr, hb, hh⟩ => by
      simp only [hr, storeReceived, hb, hh, List.isEmpty_nil, Bool.not_true, Bool.false_eq_true, if_false]

end Sys2Proof.Machine

/-! PROOFS. Memory-system instructions: the scratchpad's full-empty bits and LDT (R321 to R323, R331), waits on words (R327), fences
(R328), maintenance (R329, R330) and queue ports (R332, R333). -/

namespace Sys2Proof.Machine

section MemorySystem

variable {c : Ctx} {s1 : State} {rs : List (Want × Xlt)}

/-- R321 to R323: FESET in either direction, its array words free. -/
theorem feset_done {v : Bool} (hk : checked c.s c feTarget (fesetWants c) = some (s1, rs)) (hl : leafStops s1 rs = false)
    (hf : feBusy (dirtyAll s1 c rs) c rs = false) : feset c v = .done (fesetDone c v (dirtyAll s1 c rs) rs) := by
  simp only [feset, withAccess_checked hk, withStores_done hl, hf, Bool.false_eq_true, if_false]

/-- R237, R327: every word is here, and nothing earlier is to wait for. -/
theorem watchAll_done {d dregs : Nat} {ws : List Watch} (hw : c.mustWait = false) (hm : watchMissing s1 c.g.core ws = none) :
    watchAll c s1 d dregs ws = .done (watched c s1 d dregs ws) := by
  simp only [watchAll, hw, hm, Bool.false_eq_true, if_false]

/-- R330: maintenance of checked ranges with nothing earlier to wait for. -/
theorem maintain_done {need : Nat} {whole : Bool} {eff : State → Src → Nat → State}
    (hk : checked c.s c hbmTarget (maintWants c need whole) = some (s1, rs)) (hw : c.mustWait = false) :
    maintain c need whole eff = .done (fenceHeld c (rs.foldl (fun s r =>
      (linesOf r.2.pa r.1.bytes).foldl (fun s l => eff s ⟨c.g.slot, r.1.x.pos, r.1.lane, c.here⟩ l) s) s1) true []) := by
  simp only [maintain, withAccess_checked hk, hw, Bool.false_eq_true, if_false]

/-- Either a source cannot be read or its line is here: then no line is still to be fetched. -/
theorem find_source_none {s : State} {core : Nat} {as : List Acc}
    (h : ∀ a ∈ as, sourceBad s core a = true ∨ lineHere s (core / 64) (s.core core).pts a.pa false = true) :
    (as.find? fun a => !sourceBad s core a && !lineHere s (core / 64) (s.core core).pts a.pa false) = none :=
  List.find?_eq_none.mpr fun a ha => by rcases h a ha with h | h <;> simp [h]

/-- R332, R333: the port is one that QWAIT may test. -/
theorem takes_port {p : Port} (h : p.kind = 1 ∨ p.kind = 2 ∨ p.kind = 4) : (p.kind != 1 && p.kind != 2 && p.kind != 4) = false := by
  rcases h with h | h | h <;> simp [h]

/-- R332: the port is one that QPUSH may enter, with no line of it kept back. -/
theorem pushes_port {p : Port} {busy : Bool} (h : p.kind = 3 ∨ p.kind = 4 ∧ busy = false) :
    (p.kind != 3 && p.kind != 4) = false ∧ (decide (p.kind = 4) && busy) = false := by
  rcases h with h | ⟨h, hb⟩
  · simp [h]
  · simp [h, hb]

/-- QWAIT in a group, from an entry at the head or from an empty port. -/
theorem qwait_open {blocking : Bool} (hl : c.lanes.isEmpty = false) (ht : c.isTask = false)
    (hp : (c.port c.f.a.toNat).kind = 1 ∨ (c.port c.f.a.toNat).kind = 2 ∨ (c.port c.f.a.toNat).kind = 4) :
    qwait c blocking =
      if headOf c.s c.g.core c.f.a.toNat != .none then .done (giveAll (c.s.link c.g.core) c 1)
      else if !blocking || (c.port c.f.a.toNat).kind = 1 && (c.s.stream (c.port c.f.a.toNat).queue).shut then .done (giveAll c.s c 0)
      else .done (c.guarded.foldl (fun s q =>
        waitSlice s c q .extq ((c.port c.f.a.toNat).queue % 2 ^ 16) c.f.d.toNat 1
          ((c.lanes.filter fun e => e.1.pos == q).map fun e => (e.2, .extq c.g.core (c.f.a.toNat - 232)))) c.s) := by
  simp only [qwait, hl, ht, takes_port hp, Bool.false_eq_true, if_false]

end MemorySystem

/-- Settles O26: their checks pass and no array line is kept back. -/
theorem scratchpadAccessesComplete : Obligations.ScratchpadAccessesComplete := by
  intro f
  refine ⟨?ldfe, ?stfe, ?empty, ?full, ?ldt⟩
  case ldfe | ldt =>
    exact checkedRuns_of (fun _ => rfl) fun c s1 rs _ hk hf => by
      simp only [withAccess_checked hk, hf, Bool.false_eq_true, if_false]
  case stfe =>
    exact checkedRuns_of (fun _ => rfl) fun c s1 rs _ hk ⟨hl, hf⟩ => by
      simp only [withAccess_checked hk, withStores_done hl, hf, Bool.false_eq_true, if_false]
  case empty | full => exact checkedRuns_of (fun _ => rfl) fun c s1 rs _ hk ⟨hl, hf⟩ => feset_done hk hl hf

/-- Settles O27: both watch their words once these are here. -/
theorem wordWaitsComplete : Obligations.WordWaitsComplete := fun _ =>
  ⟨checkedRuns_of (fun _ => rfl) fun _ _ _ _ hk ⟨hw, hm⟩ => (withAccess_checked hk).trans (watchAll_done hw hm),
   checkedRuns_of (fun _ => rfl) fun _ _ _ _ hk ⟨hw, hm⟩ => (withAccess_checked hk).trans (watchAll_done hw hm)⟩

/-- Settles O28: the body of each is done at once. -/
theorem fencesComplete : Obligations.FencesComplete := fun _ =>
  ⟨runs_of (fun _ => rfl) fun _ _ => rfl, runs_of (fun _ => rfl) fun _ _ => rfl⟩

/-- Settles O29: five forms are one walk over lines; REPAIR finds no source line to fetch. -/
theorem maintenanceCompletes : Obligations.MaintenanceCompletes := by
  intro f
  refine ⟨?iinv, ?wb, ?wbinv, ?msset, ?msclr, ?repair⟩
  case repair =>
    exact checkedRuns_of (fun _ => rfl) fun c s1 rs _ hk ⟨hw, hb, hs⟩ => by
      simp only [withAccess_checked hk, hw, hb, find_source_none hs, Bool.or_self, Bool.false_eq_true, if_false]
  all_goals exact checkedRuns_of (fun _ => rfl) fun _ _ _ _ hk hw => maintain_done hk hw

/-- Settles O30: QPUSH by what its binding answers, QWAIT by what stands at the head. -/
theorem queuePortsComplete : Obligations.QueuePortsComplete := by
  intro f
  refine ⟨fun t => ?push, ?full, ?wait, ?test, ?none, ?park⟩
  case push =>
    exact runsIf_of (fun _ => rfl) fun c _ ⟨⟨hl, ht, hw, hp⟩, hq⟩ => by
      simp only [hl, ht, hw, (pushes_port hp).1, (pushes_port hp).2, hq, Bool.false_eq_true, if_false, Bool.or_self]
  case full =>
    exact runsIf_of (fun _ => rfl) fun c _ ⟨⟨hl, ht, hw, hp⟩, hq, hd⟩ => by
      simp only [hl, ht, hw, (pushes_port hp).1, (pushes_port hp).2, hq, hd, Bool.false_eq_true, if_false, Bool.or_self]
  case wait | test =>
    exact runsIf_of (fun _ => rfl) fun c _ ⟨⟨hl, ht, hp⟩, hh⟩ => by rw [qwait_open hl ht hp, if_pos hh]
  case none =>
    exact runsIf_of (fun _ => rfl) fun c _ ⟨⟨hl, ht, hp⟩, hh⟩ => by
      rw [qwait_open hl ht hp, hh, if_neg (by decide), Bool.not_false, Bool.true_or, if_pos rfl]
  case park =>
    exact runsIf_of (fun _ => rfl) fun c _ ⟨⟨hl, ht, hp⟩, hh, hs⟩ => by
      rw [qwait_open hl ht hp, hh, if_neg (by decide), if_neg (by simpa using hs)]

end Sys2Proof.Machine

/-! PROOFS. Rings, futures, the matrix unit's records and slots, the issue of operations, and fibres (R369, R373 to R405). -/

namespace Sys2Proof.Machine

section Lanes

variable {c : Ctx}

/-- An instruction of groups, in a group, comes to its own effect at its first lane. -/
theorem groupOnly_first {go : Slice × Nat → Body} {e : Slice × Nat} (hf : c.first = some e) (ht : c.isTask = false) :
    groupOnly c go = go e := by
  simp only [groupOnly, hf, ht, Bool.false_eq_true, if_false]

theorem Ctx.exists_first (h : c.lanes.isEmpty = false) : ∃ e, c.first = some e := by
  unfold Ctx.first
  cases hl : c.lanes with
  | nil => rw [hl] at h; cases h
  | cons e es => exact ⟨e, rfl⟩

/-- The same where the effect is one for all lanes. -/
theorem groupOnly_lanes {b : Body} (hl : c.lanes.isEmpty = false) (ht : c.isTask = false) : groupOnly c (fun _ => b) = b := by
  obtain ⟨e, he⟩ := Ctx.exists_first hl
  exact groupOnly_first he ht

end Lanes

/-! ## Rings (R403 to R405) -/

section Rings

variable {c : Ctx} {consumer : Bool} {t : State × Nat}

theorem racq_done (hl : c.lanes.isEmpty = false) (ht : c.isTask = false) (hv : (c.s.ring c.g.core c.f.c.toNat).valid = true)
    (hw : ringWaiters c.s c.g.core c.f.c.toNat consumer = []) (ha : ringAcquire c.s c.g.core c.f.c.toNat consumer = some t) :
    racq c consumer = .done (giveAll ((if consumer then c.lanes.foldl (fun s e =>
        s.sees c.g.core c.g.slot e.1.pos e.2 (ringOps c.s c.g.core c.f.c.toNat t.2)) t.1 else t.1).link c.g.core) c
      ((c.s.ring c.g.core c.f.c.toNat).base + t.2 * (c.s.ring c.g.core c.f.c.toNat).ssz)) := by
  simp only [racq, hl, ht, hv, hw, ha, List.isEmpty_nil, Bool.not_true, Bool.false_eq_true, if_true, if_false]

theorem rrel_done {e : Slice × Nat} {t : State} (hf : c.first = some e) (ht : c.isTask = false) (hw : c.mustWait = false)
    (hv : (c.s.ring c.g.core c.f.c.toNat).valid = true)
    (hb : (c.s.ring c.g.core c.f.c.toNat).base ≤ c.src e.1 e.2 c.f.a.toNat 1 7)
    (hs : (c.src e.1 e.2 c.f.a.toNat 1 7 - (c.s.ring c.g.core c.f.c.toNat).base) % (c.s.ring c.g.core c.f.c.toNat).ssz = 0)
    (hr : ringRelease c.s c.g.core c.f.c.toNat consumer
      ((c.src e.1 e.2 c.f.a.toNat 1 7 - (c.s.ring c.g.core c.f.c.toNat).base) / (c.s.ring c.g.core c.f.c.toNat).ssz) none = some t) :
    rrel c consumer = .done t := by
  simp only [rrel, hf, ht, hv, hw, hr, hs, Nat.not_lt.mpr hb, Bool.not_true, Bool.false_eq_true, bne_self_eq_false, Bool.or_self,
    decide_false, if_false]

end Rings

/-- Settles O31: each form by what its ring answers. -/
theorem ringsComplete : Obligations.RingsComplete := by
  intro f
  refine ⟨fun t => ?_, fun t => ?_, fun e t => ?_, fun e t => ?_, fun e => ?init⟩
  case init =>
    refine runsIf_of (fun _ => rfl) fun c _ ⟨hf, ht, hw, hb, hs, hn, hi, hg⟩ => ?_
    simp only [hf, hw, ht, hb, hs, hn, Nat.not_lt.mpr hg, bne_self_eq_false, Bool.or_self, Bool.or_false, Bool.false_or, decide_false,
      Bool.false_eq_true, if_false]
    refine if_neg fun h => ?_
    simp only [Bool.and_eq_true, Bool.or_eq_true, List.any_eq_true, id_eq] at h
    obtain ⟨hv, hbusy⟩ := h
    obtain ⟨hheld, hwait⟩ := hi.resolve_left (by simp [hv])
    rcases hbusy with ⟨h, hm, ht⟩ | ⟨w, hm, hk⟩
    · exact absurd ht (by simp [hheld h hm])
    · split at hk
      next core k consumer hw =>
        simp only [Bool.and_eq_true, beq_iff_eq] at hk
        exact hwait w hm consumer (by rw [hw, hk.1, hk.2])
      next => cases hk
  · exact runsIf_of (fun _ => rfl) fun c _ ⟨hl, ht, hv, hw, ha⟩ => racq_done hl ht hv hw ha
  · exact runsIf_of (fun _ => rfl) fun c _ ⟨hl, ht, hv, hw, ha⟩ => racq_done hl ht hv hw ha
  · exact runsIf_of (fun _ => rfl) fun c _ ⟨hf, ht, hw, hv, hb, hs, hr⟩ => rrel_done hf ht hw hv hb hs hr
  · exact runsIf_of (fun _ => rfl) fun c _ ⟨hf, ht, hw, hv, hb, hs, hr⟩ => rrel_done hf ht hw hv hb hs hr

/-! ## Futures (R380 to R382) -/

/-- Settles O32: with no RUNNING handle no slice of FWAIT has a lane that waits. -/
theorem futuresComplete : Obligations.FuturesComplete := by
  intro f
  refine ⟨runsIf_of (fun _ => rfl) fun c _ h => ?fwait, runs_of (fun _ => rfl) fun _ _ => rfl, runs_of (fun _ => rfl) fun _ _ => rfl⟩
  have hnow : (c.lanes.filter fun e => !handleRunning c.s c.g.ctx (c.handle e.1 e.2)) = c.lanes :=
    List.filter_eq_self.mpr fun e he => by simp [h e he]
  have hlate : ∀ p, (c.lanes.filter fun e => e.1.pos == p && handleRunning c.s c.g.ctx (c.handle e.1 e.2)) = [] := fun p =>
    List.filter_eq_nil_iff.mpr fun e he => by simp [h e he]
  simp only [hnow]
  exact congrArg Body.done (foldl_eq_self fun s p => by simp only [hlate])

/-! ## Matrix records and slots (R383 to R387) -/

/-- Settles O33: each form in a group with nothing earlier to wait for. -/
theorem matrixStateCompletes : Obligations.MatrixStateCompletes := by
  intro f
  refine ⟨fun e => ?resX, fun e => ?resW, ?relNow, ?relLater, ?fence, fun k => ?alloc, ?free⟩
  case resX =>
    exact runsIf_of (fun _ => rfl) fun c _ ⟨⟨_, ht, hw⟩, hf, hg⟩ => by
      simp only [mxres, groupOnly_first hf ht, hw, hg, Bool.not_true, Bool.false_eq_true, if_false]
  case resW =>
    exact runsIf_of (fun _ => rfl) fun c _ ⟨⟨_, ht, hw⟩, hf, hg⟩ => by
      simp only [mxres, groupOnly_first hf ht, hw, hg, Bool.not_true, Bool.false_eq_true, if_false, if_true]
  case relNow =>
    exact runsIf_of (fun _ => rfl) fun c _ ⟨⟨hl, ht, hw⟩, ⟨hv, hr⟩, ho⟩ => by
      simp only [groupOnly_lanes hl ht, hw, hv, hr, ho, Bool.not_true, Bool.or_self, List.isEmpty_nil, Bool.false_eq_true, if_false, if_true]
  case relLater =>
    exact runsIf_of (fun _ => rfl) fun c _ ⟨⟨hl, ht, hw⟩, ⟨hv, hr⟩, ho⟩ => by
      simp only [groupOnly_lanes hl ht, hw, hv, hr, List.isEmpty_iff, ho, Bool.not_true, Bool.or_self, Bool.false_eq_true, if_false]
  case fence =>
    refine runsIf_of (fun _ => rfl) fun c _ ⟨ht, hw⟩ => ?_
    simp only [ht, hw, Bool.false_eq_true, if_false]
    split
    next h => rw [List.isEmpty_iff.mp h]; rfl
    next => rfl
  case alloc =>
    exact runsIf_of (fun _ => rfl) fun c _ ⟨⟨hl, ht, hw⟩, hb, hk⟩ => by
      have hfree : (c.slices.any fun x => (x.bind.getD (c.f.c.toNat % 4) none).isSome) = false := by
        simpa using hb
      simp only [groupOnly_lanes hl ht, hw, hfree, hk, Bool.false_eq_true, if_false]
  case free =>
    exact runsIf_of (fun _ => rfl) fun c _ ⟨⟨hl, ht, hw⟩, hb⟩ => by
      have hbound : (c.slices.any fun x => (x.bind.getD (c.f.c.toNat % 4) none).isNone) = false := by
        simpa [Option.isSome_iff_ne_none] using hb
      simp only [groupOnly_lanes hl ht, hw, hbound, Bool.false_eq_true, if_false]

/-! ## Issue of operations (R377, R379, R388 to R399) -/

section Issue

variable {c : Ctx} {e : Slice × Nat}

theorem startOp_done {s : State} {op : EngineOp} {entry : Nat} (h : futEntry s op.die = some entry) :
    startOp c s op = .done (startedOp c s op entry) := by
  simp only [startOp, h]

theorem withDesc_ok {go : Slice × Nat → Nat → Body} (hf : c.first = some e) (hw : c.mustWait = false)
    (hx : c.src e.1 e.2 c.f.a.toNat 2 8 < 2 ^ 56) (ha : c.src e.1 e.2 c.f.a.toNat 2 8 % 64 = 0) :
    withDesc c go = go e (c.src e.1 e.2 c.f.a.toNat 2 8) := by
  simp only [withDesc, hf, hw, ha, Nat.not_le.mpr hx, bne_self_eq_false, Bool.false_eq_true, if_false]

/-- An issue with a descriptor whose own checks pass. -/
theorem descRuns_of {i : Instr} {cond : Ctx → Slice × Nat → Nat → Prop} {pre : Ctx → Slice × Nat → State}
    {op : Ctx → Slice × Nat → Nat → EngineOp} {post : State → State} {go : Ctx → Slice × Nat → Nat → Body}
    (he : ∀ s, exec i s = issue i s fun c => withDesc c (go c))
    (hg : ∀ c e a entry, c.first = some e → cond c e a → futEntry (pre c e) (c.g.core / 64) = some entry →
      go c e a = .done (post (startedOp c (pre c e) (op c e a) entry))) : DescRuns i cond pre op post := by
  intro s c e entry hr hf hw a hx ha hc hn
  exact (he s).trans (issue_done hr ((withDesc_ok hf hw hx ha).trans (hg c e a entry hf hc hn)))

/-- A drain in a group whose slot is bound, with the seed of its thread. -/
theorem mxdrain_runs {i : Instr} (slot : Nat) (he : ∀ s, exec i s = issue i s mxdrain) :
    DescRuns i (fun c e _ => c.isTask = false ∧ e.1.bind.getD (c.f.aux.toNat % 4) none = some slot) seeded
      (fun c e a => withSeed c e { newOp c e .mxdrain a [] with slot := slot }) id := by
  refine descRuns_of he fun c e a entry hf hc hn => ?_
  obtain ⟨ht, hb⟩ := hc
  simp only [groupOnly_first hf ht, hb]
  exact startOp_done hn

end Issue

/-- Settles O34: the checks of R379 pass and a future is free. -/
theorem engineOperationsStart : Obligations.EngineOperationsStart := by
  intro f
  refine ⟨?cpy, ?ixwalk, ?dqnt, ?qnt, ?fetch, ?cpact, ?cpfl, ?mxissue, fun slot => ⟨?drain, ?raw, ?mx⟩⟩
  case cpy | ixwalk | dqnt | qnt => exact descRuns_of (fun _ => rfl) fun c e a entry _ _ hn => startOp_done hn
  case fetch =>
    refine descRuns_of (fun _ => rfl) fun c e a entry hf ht hn => ?_
    rw [groupOnly_first hf ht]
    exact congrArg (Body.map · reserveNow) (startOp_done hn)
  case cpact =>
    refine descRuns_of (fun _ => rfl) fun c e a entry hf ⟨ht, hu, hk⟩ hn => ?_
    have hk : ((compactAhead c.s c.g.core).2 % 128 != 0 && (compactAhead c.s c.g.core).1 != some a) = false := by
      simpa [bne] using fun h => hk.resolve_left h
    simp only [groupOnly_first hf ht, hu, hk, Bool.false_eq_true, if_false]
    exact startOp_done hn
  case cpfl =>
    intro s c e entry hr hf ht hw hn
    refine issue_done hr ?_
    simp only [groupOnly_first hf ht, hw, Bool.false_eq_true, if_false]
    exact startOp_done hn
  case mxissue =>
    intro s c e entry hr hf ht hw hk hn
    refine issue_done hr ?_
    simp only [groupOnly_first hf ht, hw, hk, Bool.not_true, Bool.false_eq_true, if_false]
    exact startOp_done hn
  case drain | raw | mx => exact mxdrain_runs slot fun _ => rfl

/-! ## Fibres (R400 to R402) -/

section Fibres

variable {c : Ctx}

/-- No slice is decided where no lane stops. -/
theorem deciders_nil (poss : List Nat) : deciders poss [] = ([], []) := foldl_eq_self fun _ _ => rfl

/-- R401: every lane's advance comes to its end, so no lane stops the instruction or waits. -/
theorem zadv_done {seek : Bool} (hl : c.lanes.isEmpty = false) (hb : accBusy c.s c.g c.guarded = false)
    (hz : ∀ q ∈ (advanceAll c seek (fibreNo c.f.d.toNat) c.lanes c.s).2, ∃ z, q.2 = .found z) :
    zadv c seek = .done (advanced c (advanceAll c seek (fibreNo c.f.d.toNat) c.lanes c.s)) := by
  have hstops : ∀ {α : Type} {f : (Slice × Nat) × Seek → Option α}, (∀ q z, q.2 = .found z → f q = none) →
      (advanceAll c seek (fibreNo c.f.d.toNat) c.lanes c.s).2.filterMap f = [] := fun h =>
    List.filterMap_eq_nil_iff.mpr fun q hq => (hz q hq).elim fun z he => h q z he
  simp only [zadv, hl, hb, Bool.false_eq_true, if_false]
  rw [hstops (fun q z h => by rw [h]), deciders_nil]
  simp only [List.isEmpty_nil, Bool.not_true, Bool.false_eq_true, if_false]
  refine if_neg fun h => ?_
  obtain ⟨q, hq, hw⟩ := List.any_eq_true.mp h
  obtain ⟨z, he⟩ := hz q hq
  rw [he] at hw
  cases hw

/-- R400: no lane's bases are bad, so ZOPEN traps none. -/
theorem runsIf_zopen (f : Fields) : RunsIf (.zopen f) (fun c => ∀ e ∈ c.lanes,
      zopenBad (c.src e.1 e.2 c.f.a.toNat 2 8) (c.src e.1 e.2 c.f.c.toNat 2 8) (if bitOf c.f.aux.toNat 0 then 8 else 4) = none)
    (fun c => putFibres c.s c (fibreNo c.f.d.toNat) (c.lanes.map fun e =>
      (e.1.pos, e.2, ⟨true, BitVec.ofNat 64 (c.src e.1 e.2 c.f.a.toNat 2 8), BitVec.ofNat 64 (c.src e.1 e.2 c.f.c.toNat 2 8),
        BitVec.ofNat 32 (c.src e.1 e.2 c.f.b.toNat 1 7), 0xffffffff, 0, bitOf c.f.aux.toNat 0⟩))) := by
  refine runsIf_of (fun _ => rfl) fun c _ h => ?_
  have hnone : (c.lanes.filterMap fun e => (zopenBad (c.src e.1 e.2 c.f.a.toNat 2 8) (c.src e.1 e.2 c.f.c.toNat 2 8)
      (if bitOf c.f.aux.toNat 0 then 8 else 4)).map fun b => (e.1, e.2, b.1, b.2)) = [] :=
    List.filterMap_eq_nil_iff.mpr fun e he => by rw [h e he]; rfl
  simp only [hnone, List.isEmpty_nil, Bool.not_true, Bool.false_eq_true, if_false]

/-- R402: ZEND of fibres with no advance outstanding. -/
theorem runsIf_zend (f : Fields) : RunsIf (.zend f) (fun c => ∀ e ∈ c.lanes, fibrePending c e.1 e.2 (fibreNo c.f.a.toNat) = false)
    (wrote fun c x l => b2n (fibreOf x l (fibreNo c.f.a.toNat)).atEnd) := by
  refine runsIf_of (fun _ => rfl) fun c _ h => ?_
  refine congrArg (fun ws => Body.done (putAll c.s c.g.core c.g.slot ws)) (List.map_congr_left fun e he => ?_)
  simp only [h e he, Bool.false_eq_true, if_false]

end Fibres

/-- Settles O35: no lane is stopped, waits, or has an advance outstanding. -/
theorem fibresComplete : Obligations.FibresComplete := by
  intro f
  refine ⟨runsIf_zopen f, runs_of (fun _ => rfl) fun _ _ => rfl, runsIf_zend f,
    runsIf_of (fun _ => rfl) fun _ _ ⟨hl, hb, hz⟩ => zadv_done hl hb hz,
    runsIf_of (fun _ => rfl) fun _ _ ⟨hl, hb, hz⟩ => zadv_done hl hb hz, ?zval⟩
  intro s c hr r accs hd hf
  refine issue_done hr ?_
  simp only [show deciders c.guarded ((zvalLanes c (fibreNo c.f.a.toNat) c.lanes c.s).2.map fun e => e.1) = ([], []) from hd,
    List.isEmpty_nil, Bool.not_true, Bool.false_eq_true, if_false]
  rw [makeAccesses_free hf]
  split <;> rfl

end Sys2Proof.Machine

/-! PROOFS. The machine as a whole: spec words, reset values, memory reads (R5, R247), discarded destinations (R66), module reset
(R488) and the step (R14). -/

namespace Sys2Proof.Machine

/-- Settles O48: each word is decoded by evaluation. -/
theorem specWordsDecode : Obligations.SpecWordsDecode := by
  refine ⟨?_, ?_, ?_, ?_, ?_, ?_, ?_, ?_, ?_, ?_, ?_, ?_, ?_, ?_, ?_, ?_, ?_, ?_, ?_, ?_, ?_⟩
  all_goals rfl

/-! ## Reset values -/

theorem reset_core (core : Nat) : State.reset.core core = CoreSt.reset := by
  simp only [State.core, State.reset, List.getD_eq_getElem?_getD, List.getElem?_getD_replicate_default_eq]

/-- Settles O51: reset's registers and tables, read one by one. -/
theorem resetLeavesTheStatedValues : Obligations.ResetLeavesTheStatedValues := by
  refine ⟨reset_inv, by decide, by decide, by decide, fun core _ k _ => ?resv, by decide, fun _ => rfl, rfl, rfl⟩
  rw [State.resv, reset_core]
  simp only [CoreSt.reset, List.getD_eq_getElem?_getD, List.getElem?_getD_replicate_default_eq]
  rfl

/-! ## One step (R14) -/

/-- Settles O52: the step is the move's own meaning, and then time passes. -/
theorem stepRunsTheDecodedInstruction : Obligations.StepRunsTheDecodedInstruction := by
  intro s
  refine ⟨?word, ?own, ?due, ?input, ?none, fun _ => rfl⟩
  case word =>
    intro c g sub r i hn hi hd
    simp only [step, hn, perform, runWord, hi, nextInstr, hd]
  case own =>
    intro i hn hw
    simp only [step, hn, perform, ownStep, hw, Bool.false_eq_true, if_false]
  case due =>
    intro i is hn hd hw
    simp only [step, hn, perform, hd, ownStep, hw, Bool.false_eq_true, if_false]
  case input =>
    intro i is hn hq ho hwait hw
    simp only [step, hn, perform, hq, ho, hwait, ownStep, hw, Bool.not_true, Bool.false_eq_true, if_false]
  case none =>
    intro hn
    simp only [step, hn]

/-! ## Bytes of HBM (R5, R247) -/

theorem placeOf_hbm (s : State) {a : Nat} (h : a < 2 ^ 40) : placeOf s a = ⟨.hbm, 0, a⟩ := if_pos h

/-- A byte of HBM reads as the memory table holds it. -/
theorem readByte_hbm (s : State) {a : Nat} (h : a < 2 ^ 40) : readByte s a = tabGet 0#8 s.mem a := by
  simp only [readByte, placeOf_hbm s h, opUnknown, memKey, Bool.false_eq_true, if_false]

/-- The memory table after a write of HBM. -/
theorem writeBytes_hbm_mem (s : State) {la : Nat} (h : la < 2 ^ 40) (bs : List Byte) : (writeBytes s la bs).mem = tabPuts 0#8 s.mem la bs := by
  cases bs with
  | nil => simp only [writeBytes, placeOf_hbm s h, List.isEmpty_nil, if_true, tabPuts]
  | cons b bs => simp only [writeBytes, placeOf_hbm s h, List.isEmpty_cons, Bool.false_eq_true, if_false, evalMonitors_mem]

/-- A byte of HBM after a write of HBM. -/
theorem readByte_writeBytes {s : State} (hs : s.Inv) {la a : Nat} (hl : la < 2 ^ 40) (ha : a < 2 ^ 40) (bs : List Byte) :
    readByte (writeBytes s la bs) a = if la ≤ a ∧ a < la + bs.length then bs.getD (a - la) 0 else readByte s a := by
  rw [readByte_hbm _ ha, readByte_hbm _ ha, writeBytes_hbm_mem s hl]
  exact (tabPuts_spec bs hs).2 a

/-- Nothing is written past the end of HBM by a write of no bytes. -/
theorem writeBytes_nil_end (s : State) : writeBytes s (2 ^ 40) [] = s := rfl

/-- Settles O53: the memory table reads as it was written, and a byte of HBM reads as the table. -/
theorem memoryReadsAsWritten : Obligations.MemoryReadsAsWritten := by
  intro s la bs hla hs
  refine ⟨writeBytes_inv hs la bs, fun i hi => ?_, fun a ha hout => ?_⟩
  · rw [readByte_writeBytes hs (by omega) (by omega), if_pos (by omega), Nat.add_sub_cancel_left]
  · by_cases hl : la < 2 ^ 40
    · rw [readByte_writeBytes hs hl ha, if_neg (by omega)]
    · obtain rfl : la = 2 ^ 40 := by omega
      obtain rfl : bs = [] := List.eq_nil_of_length_eq_zero (by omega)
      rw [writeBytes_nil_end]

/-! ## Discarded destinations (R66) -/

/-- Settles O55: no code of these is a register that `putOne` writes. -/
theorem discardedDestinations : Obligations.DiscardedDestinations := by
  refine ⟨fun s core slot pos lane code vals h => ?put, fun c x lane regs t => ⟨rfl, ?one⟩⟩
  case put =>
    unfold putOne
    split
    · rfl
    · rw [if_neg (by simp only; omega), if_neg (by simp only; omega), if_neg (by simp only; omega)]
  case one =>
    have hbad : rfBad c.s c.g 199 = false := rfl
    simp [Ctx.src, regRead, hbad]

/-! ## Module reset (R488) -/

/-- What a reset keeps of memory. -/
theorem tabGet_moduleReset (s : State) (keep : Bool) (a : Nat) :
    tabGet 0#8 (moduleReset s keep).mem a = if keep = true ∧ a < 2 ^ 24 then tabGet 0#8 s.mem a else 0#8 := by
  cases keep with
  | false => rfl
  | true =>
    refine (tabGet_filter 0#8 (fun a => decide (a < stagingBytes)) s.mem a).trans ?_
    by_cases h : a < 2 ^ 24
    · exact (if_pos (decide_eq_true h)).trans (if_pos ⟨rfl, h⟩).symm
    · exact (if_neg fun hk => h (of_decide_eq_true hk)).trans (if_neg fun hk => h hk.2).symm

/-- Settles O60: MRESET with the key is the module reset that keeps the staging area. -/
theorem moduleResetDiscards : Obligations.ModuleResetDiscards := by
  intro s v blank
  refine ⟨fun hv ha => ⟨moduleReset s true, if_pos ?_, rfl, fun a => ?_⟩, fun hv => if_neg ?_,
    moduleReset s false, rfl, rfl, tabGet_moduleReset s false⟩
  · simpa [hv, or_assoc] using ha
  · simp only [tabGet_moduleReset, true_and]
  · rw [decide_eq_false hv, Bool.false_and]
    exact Bool.false_ne_true

end Sys2Proof.Machine

/-! PROOFS. An address that a load or store may not have (R22, R107, R412). -/

namespace Sys2Proof.Machine

/-- A lane that alone meets a cause leaves its own address. -/
theorem hitOf_single (pos lane : Nat) {cause : Cause} {va : Nat} (h : faddrFor cause va = va) :
    hitOf pos lane cause [(lane, va)] = hitAt pos lane cause va := by
  have : ∀ k, (([(lane, va)].find? fun e => e.1 == k).map fun e => faddrFor cause e.2).getD 0 = if k = lane then va else 0 := by
    intro k
    by_cases hk : k = lane
    · subst hk; simp [h]
    · simp [hk, Ne.symm hk]
  simp only [hitOf, hitAt, this]

theorem mem_distinct {a : Nat} {l : List Nat} : a ∈ distinct l ↔ a ∈ l := by
  induction l with
  | nil => rfl
  | cons b l ih =>
    simp only [distinct, List.mem_cons, List.mem_filter, ih, bne_iff_ne]
    tauto

theorem nodup_distinct (l : List Nat) : (distinct l).Nodup := by
  induction l with
  | nil => exact List.nodup_nil
  | cons b l ih => exact List.nodup_cons.mpr ⟨by simp, ih.filter _⟩

section OneLane

variable {w : Want} {cause : Cause}

/-- A step over a slice that no decided lane lies in changes nothing. -/
theorem foldl_skip {α β : Type} {f : β → α → β} {l : List α} (h : ∀ b, ∀ a ∈ l, f b a = b) (b : β) : l.foldl f b = b := by
  induction l generalizing b with
  | nil => rfl
  | cons a l ih => rw [List.foldl_cons, h b a List.mem_cons_self, ih fun b a ha => h b a (List.mem_cons_of_mem _ ha)]

/-- One lane with a cause decides its own slice, and no other. -/
theorem deciders_single {poss : List Nat} (hp : w.x.pos ∈ poss) :
    deciders poss [(w, .trap cause)] = ([hitOf w.x.pos w.lane cause [(w.lane, w.va)]], []) := by
  obtain ⟨xs, ys, hxy⟩ := List.append_of_mem (mem_distinct.mpr hp)
  have hnd := nodup_distinct poss
  rw [hxy] at hnd
  obtain ⟨hys, hxs⟩ : w.x.pos ∉ ys ∧ w.x.pos ∉ xs := by
    have h1 := (List.nodup_append.mp hnd).2
    exact ⟨(List.nodup_cons.mp h1.1).1, fun h => h1.2 _ h _ List.mem_cons_self rfl⟩
  have hskip : ∀ {l : List Nat}, w.x.pos ∉ l → ∀ q ∈ l, (w.x.pos == q) = false := fun h q hq =>
    beq_false_of_ne fun he => h (he ▸ hq)
  unfold deciders
  rw [hxy, List.foldl_append, List.foldl_cons,
    foldl_skip (l := xs) fun b q hq => by simp [decider, hskip hxs q hq],
    foldl_skip (l := ys) fun b q hq => by simp [decider, hskip hys q hq]]
  simp [decider]

/-- An access of one lane that its check refuses traps its slice. -/
theorem withAccess_single {s : State} {c : Ctx} {target : State → Xlt → Option Cause} {go : State → List (Want × Xlt) → Body}
    (hx : w.x ∈ c.slices) (hf : faddrFor cause w.va = w.va) (hw : checkWant s c.g target w = (s, .trap cause)) :
    withAccess s c target [w] go = .trap s [hitAt w.x.pos w.lane cause w.va] := by
  have hd := deciders_single (w := w) (cause := cause) (List.mem_map_of_mem (f := fun x : Slice => x.pos) hx)
  rw [hitOf_single _ _ hf] at hd
  simp only [withAccess, checkWants, hw, hd, List.isEmpty_cons, Bool.not_false, if_true]

end OneLane

section Refused

variable {c : Ctx} {x : Slice} {l : Nat}

/-- An address of 2^56 or above lies in no port's window (R375). -/
theorem fifoPa_none_of_high (hx : 2 ^ 56 ≤ c.ea x l) (h : c.ea x l % c.accBytes = 0) : c.fifoPa (x, l) = none := by
  unfold Ctx.fifoPa
  split
  next p hp =>
    split
    next hk =>
      rw [Option.map_eq_none_iff, Ctx.inWindow]
      refine if_neg fun hw => ?_
      have hpos : 0 < c.accBytes := Nat.pos_of_ne_zero fun h0 => by rw [h0, Nat.mod_zero] at h; omega
      exact absurd (Ctx.ea_window (e := (x, l)) hp (by omega) hw hpos).2.1 (Nat.not_lt.mpr hx)
    next => rfl
  next => rfl

variable {cause : Cause} (hl : c.lanes = [(x, l)])
  (hbad : c.ea x l % c.accBytes ≠ 0 ∧ cause = .align ∨ c.ea x l % c.accBytes = 0 ∧ 2 ^ 56 ≤ c.ea x l ∧ cause = .xnp)
include hl hbad

/-- In a receive port's window the lane is barred. -/
theorem trapLanes_refused : c.barred.isEmpty = false ∧ trapLanes c.s c.barred = .trap c.s [hitAt x.pos l cause (c.ea x l)] := by
  have hf : faddrFor cause (c.ea x l) = c.ea x l := by rcases hbad with ⟨_, rfl⟩ | ⟨_, _, rfl⟩ <;> rfl
  have hb : c.barred = [(x, l, cause, c.ea x l)] := by
    rcases hbad with ⟨h, rfl⟩ | ⟨h, hx, rfl⟩
    · simp only [Ctx.barred, hl, List.filterMap_cons, if_pos h, List.filterMap_nil]
    · simp only [Ctx.barred, hl, List.filterMap_cons, h, ne_eq, not_true_eq_false, if_false, if_pos hx, List.filterMap_nil]
  rw [hb]
  refine ⟨rfl, ?_⟩
  have hd : distinct [x.pos] = [x.pos] := rfl
  simp [trapLanes, hd, hitOf_single _ _ hf]

/-- Elsewhere its check refuses the lane's access. -/
theorem withAccess_refused (need : Nat) (go : State → List (Want × Xlt) → Body) :
    withAccess c.s c anyTarget (c.wants need) go = .trap c.s [hitAt x.pos l cause (c.ea x l)] := by
  have hf : faddrFor cause (c.ea x l) = c.ea x l := by rcases hbad with ⟨_, rfl⟩ | ⟨_, _, rfl⟩ <;> rfl
  have hx : x ∈ c.slices := (Ctx.mem_lanes.mp (hl ▸ List.mem_singleton_self (x, l))).1
  rw [Ctx.wants, hl]
  refine withAccess_single (w := ⟨x, l, c.ea x l, c.accBytes, c.accBytes, need, false, fun _ => none, false, c.fifoPa (x, l)⟩) hx
    hf ?_
  rcases hbad with ⟨h, rfl⟩ | ⟨h, hhigh, rfl⟩
  · simp [checkWant, h]
  · simp only [checkWant, h, fifoPa_none_of_high hhigh h, hhigh, Bool.or_self, bne_self_eq_false, Option.isSome_none, Bool.false_eq_true,
      if_true, if_false]

theorem ld_refused {f : Fields} {s : State} (hr : readyCtx (.ld f) s = some c) :
    Traps (.ld f) s c [hitAt x.pos l cause (c.ea x l)] := by
  obtain ⟨hb, ht⟩ := trapLanes_refused hl hbad
  refine issue_trap rfl hr ?_
  dsimp only
  split
  · simp only [loadReceived, hb, ht, Bool.not_false, if_true]
  · exact withAccess_refused hl hbad 4 _

theorem st_refused {f : Fields} {s : State} (hr : readyCtx (.st f) s = some c) :
    Traps (.st f) s c [hitAt x.pos l cause (c.ea x l)] := by
  obtain ⟨hb, ht⟩ := trapLanes_refused hl hbad
  refine issue_trap rfl hr ?_
  dsimp only
  split
  · simp only [storeReceived, hb, ht, Bool.not_false, if_true]
  · exact withAccess_refused hl hbad 8 _

end Refused

/-- Settles O57: the address is refused in a port's window and out of it alike. -/
theorem badAddressesTrap : Obligations.BadAddressesTrap := fun _ _ _ _ _ hl =>
  ⟨fun h => ⟨ld_refused hl (.inl ⟨h, rfl⟩), st_refused hl (.inl ⟨h, rfl⟩)⟩,
   fun h hx => ⟨ld_refused hl (.inr ⟨h, hx, rfl⟩), st_refused hl (.inr ⟨h, hx, rfl⟩)⟩⟩

end Sys2Proof.Machine

/-! PROOFS. What a trap saves (R21, R411, R412): the slice that traps keeps its state, and the trap block's fields stand at their places. -/

namespace Sys2Proof.Machine

/-! ## Numbers in bytes -/

@[simp] theorem length_natToBytes (n v : Nat) : (natToBytes n v).length = n := by
  induction n generalizing v with
  | zero => rfl
  | succ n ih => simp [natToBytes, ih]

theorem bytesToNat_natToBytes (n v : Nat) : bytesToNat (natToBytes n v) = v % 256 ^ n := by
  induction n generalizing v with
  | zero => simp [natToBytes, bytesToNat, Nat.mod_one]
  | succ n ih =>
    rw [natToBytes, bytesToNat, ih, BitVec.toNat_ofNat]
    exact (Nat.mod_mul (x := v) (a := 256) (b := 256 ^ n)).symm.trans (by rw [Nat.pow_succ'])

/-- The word at place k of words laid out one after another. -/
theorem word_at_place (ws : List Nat) (rest : List Byte) {k : Nat} (hk : k < ws.length) :
    ((ws.flatMap (natToBytes 8) ++ rest).drop (8 * k)).take 8 = natToBytes 8 (ws.getD k 0) := by
  induction ws generalizing k with
  | nil => cases hk
  | cons w ws ih =>
    rw [List.flatMap_cons, List.append_assoc]
    cases k with
    | zero => exact List.take_left' (length_natToBytes 8 w)
    | succ k =>
      rw [show 8 * (k + 1) = (natToBytes 8 w).length + 8 * k by rw [length_natToBytes]; omega, List.drop_length_add_append]
      exact ih (Nat.lt_of_succ_lt_succ hk)

/-! ## The trap block (R412) -/

theorem causeCode_lt (c : Cause) : causeCode c < 64 := by cases c <;> decide

/-- The first word of a trap block. -/
def trapHead (t : TrapInfo) : Nat :=
  causeCode t.cause * 2 ^ 58 + t.tlanes.toNat * 2 ^ 48 + t.aux % 256 * 2 ^ 40 + t.cwords % 64 * 2 ^ 8 + t.ilen % 4

/-- The words of a trap block that lie before the attribution. -/
def trapWords (t : TrapInfo) : List Nat := [trapHead t, t.pc % 2 ^ 56] ++ (List.range 4).map fun k => t.faddr.getD k 0

/-- A trap block begins with those words. -/
theorem trapBlock_eq (x : Slice) (t : TrapInfo) (seq : Nat) : ∃ rest, trapBlock x t seq = (trapWords t).flatMap (natToBytes 8) ++ rest :=
  ⟨_, by simp only [trapWords, trapHead, trapBlock, List.flatMap_append, List.flatMap_cons, List.flatMap_nil, List.flatMap_map, List.append_assoc,
    List.nil_append]; rfl⟩

/-- Three words of four bytes for a lane, bound or not. -/
theorem length_attribution (b : Bool) (p q r p' q' r' : Nat) :
    ((if b then [p, q, r] else [p', q', r']).flatMap (natToBytes 4)).length = 12 := by
  cases b <;> simp

theorem length_trapBlock (x : Slice) (t : TrapInfo) (seq : Nat) : (trapBlock x t seq).length = 128 := by
  have hr : List.range 4 = [0, 1, 2, 3] := rfl
  simp only [trapBlock, hr, List.flatMap_cons, List.flatMap_nil, List.flatMap_append, List.length_append, length_attribution, length_natToBytes,
    List.length_nil]

/-- The word at place k of a trap block. -/
theorem trapBlock_word (x : Slice) (t : TrapInfo) (seq : Nat) {k : Nat} (hk : k < 6) :
    bytesToNat (((trapBlock x t seq).drop (8 * k)).take 8) = (trapWords t).getD k 0 % 2 ^ 64 := by
  obtain ⟨rest, h⟩ := trapBlock_eq x t seq
  rw [h, word_at_place _ _ (by simpa [trapWords] using hk), bytesToNat_natToBytes]
  rfl

/-- The fields of the first word. -/
theorem trapHead_fields (t : TrapInfo) :
    fld (trapHead t % 2 ^ 64) 63 58 = causeCode t.cause ∧ fld (trapHead t % 2 ^ 64) 51 48 = t.tlanes.toNat ∧
    fld (trapHead t % 2 ^ 64) 47 40 = t.aux % 256 ∧ fld (trapHead t % 2 ^ 64) 13 8 = t.cwords % 64 ∧
    fld (trapHead t % 2 ^ 64) 1 0 = t.ilen % 4 := by
  have h1 := causeCode_lt t.cause
  have h2 := t.tlanes.isLt
  simp only [fld, trapHead]
  generalize causeCode t.cause = a at h1 ⊢
  generalize t.tlanes.toNat = b at h2 ⊢
  refine ⟨?_, ?_, ?_, ?_, ?_⟩ <;> omega

/-! ## The slice that traps (R21, R411) -/

/-- What a trapping slice keeps. -/
structure PointKept (x y : Slice) : Prop where
  pc : y.pc = x.pc
  active : y.active = x.active
  lanes : y.lanes = x.lanes
  tokens : y.tokens = x.tokens

/-- A state with the register file and memory of s, in which the gang g has its registers, and its slice at pos is as q says. -/
def GangStands (s : State) (g : Gang) (pos : Nat) (q : Slice → Prop) (u : State) : Prop :=
  u.rf = s.rf ∧ u.rfLate = s.rfLate ∧ u.mem = s.mem ∧
  ∃ t y, u.gang g.core g.slot = some t ∧ t.g = g.g ∧ t.h = g.h ∧ t.slice pos = some y ∧ q y

theorem gang_updSlice (s : State) (core slot pos : Nat) (f : Slice → Slice) :
    (s.updSlice core slot pos f).gang core slot = (s.gang core slot).map fun g => g.updSlice pos f :=
  gang_updGang fun _ => ⟨rfl, rfl⟩

theorem gang_setSubs (s : State) (core slot : Nat) (subs : List Sub) :
    (s.updGang core slot fun g => { g with subs := subs }).gang core slot = (s.gang core slot).map fun g => { g with subs := subs } :=
  gang_updGang fun _ => ⟨rfl, rfl⟩

section Stands

variable {s u : State} {g : Gang} {pos pos' : Nat} {q r : Slice → Prop}

theorem GangStands.mono (h : GangStands s g pos q u) (hq : ∀ y, q y → r y) : GangStands s g pos r u := by
  obtain ⟨hrf, hlate, hmem, t, y, ht, hg, hh, hy, hqy⟩ := h
  exact ⟨hrf, hlate, hmem, t, y, ht, hg, hh, hy, hq y hqy⟩

/-- The slice at pos changes. -/
theorem GangStands.updSlice_same {f : Slice → Slice} (h : GangStands s g pos q u) (hp : ∀ y, (f y).pos = y.pos) (hq : ∀ y, q y → r (f y)) :
    GangStands s g pos r (u.updSlice g.core g.slot pos f) := by
  obtain ⟨hrf, hlate, hmem, t, y, ht, hg, hh, hy, hqy⟩ := h
  refine ⟨hrf, hlate, hmem, t.updSlice pos f, f y, ?_, hg, hh, ?_, hq y hqy⟩
  · rw [gang_updSlice, ht]
    rfl
  · rw [Gang.slice, Gang.updSlice, find_updWhere fun z => by rw [hp], show t.slices.find? _ = some y from hy]
    rfl

/-- Another slice changes. -/
theorem GangStands.updSlice_other {f : Slice → Slice} (h : GangStands s g pos q u) (hp : ∀ y, (f y).pos = y.pos) (hne : pos' ≠ pos) :
    GangStands s g pos q (u.updSlice g.core g.slot pos' f) := by
  obtain ⟨hrf, hlate, hmem, t, y, ht, hg, hh, hy, hqy⟩ := h
  refine ⟨hrf, hlate, hmem, t.updSlice pos' f, y, ?_, hg, hh, ?_, hqy⟩
  · rw [gang_updSlice, ht]
    rfl
  · rw [Gang.slice, Gang.updSlice, find_updWhere_other, show t.slices.find? _ = some y from hy]
    intro z hz
    have hz : z.pos = pos' := by simpa using hz
    simp only [hp, hz, beq_eq_false_iff_ne.mpr hne, and_self]

/-- A snapshot trigger leaves the gang as it stands. -/
theorem GangStands.fireSnapshot (h : GangStands s g pos q u) (src cause tag core pc : Nat) :
    GangStands s g pos q (fireSnapshot u src cause tag core pc) := by
  unfold Machine.fireSnapshot
  dsimp only
  split <;> exact h

theorem GangStands.snapped (h : GangStands s g pos q u) (t : TrapInfo) :
    GangStands s g pos q (if u.regs.snapMask.getLsbD (causeCode t.cause) then
      Machine.fireSnapshot u 3 (causeCode t.cause) 0 g.core t.pc else u) := by
  split
  · exact h.fireSnapshot ..
  · exact h

/-- Tidying a gang that has a slice keeps it as it stands. -/
theorem GangStands.tidyGang (hl : s.rfLate = []) (h : GangStands s g pos q u) : GangStands s g pos q (tidyGang u g.core g.slot) := by
  obtain ⟨hrf, hlate, hmem, t, y, ht, hg, hh, hy, hqy⟩ := h
  have hsettle : settleLate u t = u := by
    unfold settleLate
    rw [hlate, hl]
    exact congrArg (fun r => { u with rfLate := r }) (hlate.trans hl).symm
  have hne : t.slices.isEmpty = false := by
    rw [Gang.slice] at hy
    cases he : t.slices with
    | nil => rw [he] at hy; cases hy
    | cons => rfl
  unfold Machine.tidyGang
  rw [ht]
  simp only [hsettle, ite_self, hne, Bool.false_eq_true, if_false]
  exact ⟨hrf, hlate, hmem, _, y, (gang_setSubs u ..).trans (congrArg (Option.map _) ht), hg, hh, hy, hqy⟩

end Stands

section Trap

variable {s : State} {g : Gang} {p : Spot} {hits : List Hit} {x : Slice} {h : Hit}

/-- What a trap does to one slice of the sub-gang. -/
def trapStep (g : Gang) (p : Spot) (hits : List Hit) (s : State) (x : Slice) : State :=
  match hits.find? fun h => h.pos == x.pos with
  | some h => takeTrap s.bump g.core g.slot (trapInfo s.nextId p h) x.pos
  | none =>
    if x.active = 0 then s
    else endSegment s.bump g.core g.slot x.pos (forcedEnd s.nextId p.hdr p.word .run 0 0 g x)

theorem trapSlices_eq (s : State) (g : Gang) (sub : Nat) (p : Spot) (hits : List Hit) :
    trapSlices s g sub p hits = tidyGang ((g.slicesOf sub).foldl (trapStep g p hits) s) g.core g.slot := rfl

/-- The slice stands trapping at the word with its cause. -/
def Trapped (p : Spot) (h : Hit) (x y : Slice) : Prop := PointKept x y ∧ ∃ rid, y.st = .trapping (trapInfo rid p h)

/-- The slice with the hit traps; it keeps its point. -/
theorem trapStep_same {u : State} (hh : (hits.find? fun h => h.pos == x.pos) = some h) (hu : GangStands s g x.pos (PointKept x) u) {y : Slice}
    (hy : y.pos = x.pos) : GangStands s g x.pos (Trapped p h x) (trapStep g p hits u y) := by
  rw [trapStep, hy, hh]
  have hb : GangStands s g x.pos (PointKept x) u.bump := hu
  exact (hb.snapped _).updSlice_same (fun _ => rfl) fun z hz => ⟨⟨hz.pc, hz.active, hz.lanes, hz.tokens⟩, _, rfl⟩

/-- Another slice's trap or end changes nothing of it. -/
theorem trapStep_other {u : State} {q : Slice → Prop} (hu : GangStands s g x.pos q u) {y : Slice} (hy : y.pos ≠ x.pos) :
    GangStands s g x.pos q (trapStep g p hits u y) := by
  have hb : GangStands s g x.pos q u.bump := hu
  unfold trapStep
  split
  · exact (hb.snapped _).updSlice_other (fun _ => rfl) hy
  · split
    · exact hu
    · exact hb.updSlice_other (fun _ => rfl) hy

/-- Whatever slices come, the one with the hit keeps its point, and once trapped stays so. -/
theorem trapSteps_kept (hh : (hits.find? fun h => h.pos == x.pos) = some h) (l : List Slice) {u : State}
    (hu : GangStands s g x.pos (PointKept x) u) : GangStands s g x.pos (PointKept x) (l.foldl (trapStep g p hits) u) :=
  foldl_keeps (fun u y hu => by
    by_cases hy : y.pos = x.pos
    · exact (trapStep_same hh hu hy).mono fun _ h => h.1
    · exact trapStep_other hu hy) l hu

theorem trapSteps_trapped (hh : (hits.find? fun h => h.pos == x.pos) = some h) (l : List Slice) {u : State}
    (hu : GangStands s g x.pos (Trapped p h x) u) : GangStands s g x.pos (Trapped p h x) (l.foldl (trapStep g p hits) u) :=
  foldl_keeps (fun u y hu => by
    by_cases hy : y.pos = x.pos
    · exact trapStep_same hh (hu.mono fun _ h => h.1) hy
    · exact trapStep_other hu hy) l hu

/-- A running slice with a hit stands trapped after all. -/
theorem trapSlices_stands {sub : Nat} (hg : s.gang g.core g.slot = some g) (hx : g.slice x.pos = some x) (hst : x.st = .run sub)
    (hl : s.rfLate = []) (hh : (hits.find? fun h => h.pos == x.pos) = some h) :
    GangStands s g x.pos (Trapped p h x) (trapSlices s g sub p hits) := by
  have h0 : GangStands s g x.pos (PointKept x) s := ⟨rfl, rfl, rfl, g, x, hg, rfl, rfl, hx, rfl, rfl, rfl, rfl⟩
  have hm : x ∈ g.slicesOf sub := List.mem_filter.mpr ⟨List.mem_of_find?_eq_some hx, by rw [hst]; exact beq_self_eq_true _⟩
  obtain ⟨xs, ys, hxy⟩ := List.append_of_mem hm
  rw [trapSlices_eq, hxy, List.foldl_append, List.foldl_cons]
  exact (trapSteps_trapped hh ys (trapStep_same hh (trapSteps_kept hh xs h0) rfl)).tidyGang hl

end Trap

/-- Settles O59: the slice that traps is traced through the gang's other slices, and the block's words lie one after another. -/
theorem trapsSaveTheirPoint : Obligations.TrapsSaveTheirPoint := by
  refine ⟨?point, ?block⟩
  case point =>
    intro s g sub p hits x h hg hx hst hl hh
    obtain ⟨hrf, _, hmem, t, y, ht, htg, hth, hy, hkept, rid, hyst⟩ := trapSlices_stands (p := p) hg hx hst hl hh
    exact ⟨hrf, hmem, t, y, rid, ht, htg, hth, hy, hyst, hkept.pc, hkept.active, hkept.lanes, hkept.tokens, rfl, rfl, rfl⟩
  case block =>
    intro x t seq w
    have hw : ∀ k < 6, w k = (trapWords t).getD k 0 % 2 ^ 64 := fun k hk => trapBlock_word x t seq hk
    have h0 : w 0 = trapHead t % 2 ^ 64 := hw 0 (by decide)
    obtain ⟨hcause, hlanes, haux, hcw, hil⟩ := trapHead_fields t
    refine ⟨length_trapBlock x t seq, h0 ▸ hcause, h0 ▸ hlanes, h0 ▸ haux, h0 ▸ hcw, h0 ▸ hil, ?pc, fun k hk => ?faddr⟩
    case pc =>
      rw [hw 1 (by decide)]
      exact Nat.mod_eq_of_lt (lt_of_lt_of_le (Nat.mod_lt _ (by decide)) (by decide))
    case faddr =>
      rw [hw (2 + k) (by omega)]
      have : (trapWords t).getD (2 + k) 0 = t.faddr.getD k 0 := by interval_cases k <;> rfl
      rw [this]

end Sys2Proof.Machine

/-! PROOFS. The frame of a fixed-latency register instruction (R10, R12, R13, R66): what it leaves as it was. -/

namespace Sys2Proof.Machine

/-- The registers of the register file that the destinations of an instruction are. -/
def destKey (c : Ctx) (k : Nat) : Prop := ∃ e ∈ c.lanes, ∃ j < c.regs .d, k = vKey c.g e.1.pos e.2 (c.f.d.toNat + j)

/-- d names a g register, or a predicate. -/
def Ctx.destG (c : Ctx) : Bool := decide (128 ≤ c.f.d.toNat ∧ c.f.d.toNat < 192)
def Ctx.destP (c : Ctx) : Bool := decide (192 ≤ c.f.d.toNat ∧ c.f.d.toNat < 199)

/-- A change that an instruction may make: to its destinations, and to FPSTAT (fs) or the predicate of aux (ax). -/
structure Framed (c : Ctx) (fs ax : Bool) (s t : State) : Prop where
  inside : Inside c.g.core c.g.slot s t
  leaves : Leaves c.destG fs (c.destP || ax) c.g.core c.g.slot s t
  rf : (∀ g, s.gang c.g.core c.g.slot = some g → g.base = c.g.base) → RfKeeps (destKey c) s t

section Framed

variable {c : Ctx} {fs ax : Bool} {s t u : State}

theorem Framed.trans (h : Framed c fs ax s t) (k : Framed c fs ax t u) : Framed c fs ax s u :=
  ⟨h.inside.trans k.inside, h.leaves.trans k.leaves, fun hb => (h.rf hb).trans (k.rf fun g hg => by
    obtain ⟨a, ha, e⟩ := h.leaves g hg
    exact e.base.trans (hb a ha))⟩

theorem Framed.foldl {α : Type} {f : State → α → State} (h : ∀ s a, Framed c fs ax s (f s a)) (l : List α) (s : State) :
    Framed c fs ax s (l.foldl f s) := by
  induction l generalizing s with
  | nil => exact ⟨.refl s, .refl s, fun _ => .refl s⟩
  | cons a l ih => exact (h s a).trans (ih _)

theorem length_wordsOf (n v : Nat) : (wordsOf n v).length = n := by simp [wordsOf]

/-- The destinations of the lanes are written. -/
theorem framed_dest (val : Slice → Nat → Nat) (s : State) :
    Framed c fs ax s (putAll s c.g.core c.g.slot (c.lanes.map fun e => c.put e.1 e.2 (val e.1 e.2))) where
  inside := inside_putAll ..
  leaves := by
    refine (leaves_putAll s _ _ _ (fun p hp h => ?_) fun p hp h => ?_).weaken fun _ => rfl
    all_goals obtain ⟨e, _, rfl⟩ := List.mem_map.mp hp
    · exact decide_eq_true h
    · exact Bool.or_eq_true_iff.mpr (.inl (decide_eq_true h))
  rf hb := by
    refine rf_putAll s _ _ c.g.base _ hb fun p hp hcode g hcore hbase j hj => ?_
    obtain ⟨e, he, rfl⟩ := List.mem_map.mp hp
    have hlow : c.f.d.toNat < 192 := Nat.lt_trans hcode (by decide)
    simp only [Ctx.put, if_pos hlow, length_wordsOf] at hj
    exact ⟨e, he, j, hj, by simp only [Ctx.put, vKey, hcore, hbase]⟩

/-- The predicate of aux is written. -/
theorem framed_aux (bit : Slice × Nat → List W32) (n : Nat) (s : State) :
    Framed c fs true s (putAll s c.g.core c.g.slot (c.lanes.map fun e => ⟨e.1.pos, e.2, 192 + n, bit e⟩)) where
  inside := inside_putAll ..
  leaves := by
    refine (leaves_putAll s _ _ _ (fun p hp h => ?_) fun _ _ _ => Bool.or_true _).weaken fun _ => rfl
    obtain ⟨e, _, rfl⟩ := List.mem_map.mp hp
    exact absurd h.2 (Nat.not_lt.mpr (Nat.le_add_right 192 n))
  rf hb := by
    refine rf_putAll s _ _ c.g.base _ hb fun p hp hcode => ?_
    obtain ⟨e, _, rfl⟩ := List.mem_map.mp hp
    exact absurd hcode (Nat.not_lt.mpr (Nat.le_trans (by decide) (Nat.le_add_right 192 n)))

theorem framed_raiseAll (l : List (Nat × Nat × Flags)) (s : State) : Framed c true ax s (raiseAll s c.g.core c.g.slot l) :=
  ⟨inside_raiseAll _ _ _ _, leaves_raiseAll _ _ _ _, fun _ => rf_raiseAll _ _ _ _⟩

theorem framed_retire (n : Nat) (s : State) : Framed c fs ax s (retire s c n) :=
  ⟨inside_retire _ _ _, leaves_retire _ _ _, fun _ => rf_retire _ _ _⟩

theorem framed_popHead (code : Nat) (s : State) : Framed c fs ax s (popHead s c.g.core code) :=
  ⟨inside_popHead _ _ _ _ _, .of_eq (gangs_popHead _ _ _), fun _ => rf_popHead _ _ _⟩

/-- The state that an instruction finds: its queues popped. -/
theorem framed_ready {i : Instr} (hs : segEnding i = false) (h : readyCtx i s = some c) : Framed c fs ax s c.s := by
  obtain ⟨codes, hc, _⟩ := ready_popped hs h
  have h0 : Framed c fs ax s s.freshen := ⟨⟨rfl, rfl, rfl, rfl, rfl, rfl, rfl, fun _ _ _ => rfl⟩, .of_eq rfl, fun _ => .of_eq rfl rfl⟩
  rw [hc]
  exact h0.trans (.foldl (fun s k => framed_popHead k s) codes _)

end Framed

/-! ## The effects of the three families -/

/-- A predicate of aux is written besides. -/
def auxNamed (i : Instr) (c : Ctx) : Bool := auxWrites i && c.f.aux.toNat != 7

/-- An instruction that changes what its family may change, and nothing else. -/
def KeepsFrame (i : Instr) : Prop :=
  segEnding i = false ∧ ∀ s c, readyCtx i s = some c → ∃ t, Ran i s c t ∧ Framed c (flagWrites i) (auxNamed i c) c.s t

section Families

variable {i : Instr}

theorem keepsFrame_wrote {val : Ctx → Slice → Nat → Nat} (hs : segEnding i = false) (h : Runs i (wrote val)) : KeepsFrame i :=
  ⟨hs, fun s c hr => ⟨_, h s c hr, framed_dest (val c) c.s⟩⟩

theorem keepsFrame_wroteF {val : Ctx → Slice → Nat → Nat × Flags} (hs : segEnding i = false) (hf : flagWrites i = true)
    (h : Runs i (wroteF val)) : KeepsFrame i := by
  refine ⟨hs, fun s c hr => ⟨_, h s c hr, ?_⟩⟩
  rw [hf]
  exact (framed_dest (fun x l => (val c x l).1) c.s).trans (framed_raiseAll ..)

theorem keepsFrame_wroteAux {val : Ctx → Slice → Nat → Nat × Bool} (hs : segEnding i = false) (ha : auxWrites i = true)
    (h : Runs i (wroteAux val)) : KeepsFrame i := by
  refine ⟨hs, fun s c hr => ⟨_, h s c hr, ?_⟩⟩
  have hd : ∀ ax, Framed c (flagWrites i) ax c.s _ := fun ax => framed_dest (fun x l => (val c x l).1) c.s
  unfold wroteAux
  dsimp only
  by_cases h7 : c.f.aux.toNat = 7
  · rw [if_pos h7]
    exact hd _
  · rw [if_neg h7, auxNamed, ha, bne_iff_ne.mpr h7]
    exact (hd true).trans (framed_aux ..)

theorem keepsFrame_of_plainWrites (h : plainWrites i = true) : KeepsFrame i := by
  unfold plainWrites at h
  split at h
  case h_39 => cases h
  case h_38 f =>
    obtain ⟨_, hpqry, _⟩ := crossLaneCompletes f
    exact keepsFrame_wrote rfl hpqry
  all_goals exact keepsFrame_wrote rfl (runs_perLane fun _ => rfl)

theorem keepsFrame_of_flagWrites (h : flagWrites i = true) : KeepsFrame i := by
  unfold flagWrites at h
  split at h
  case h_17 => cases h
  case h_15 f =>
    obtain ⟨_, _, _, hgred, _⟩ := crossLaneCompletes f
    exact keepsFrame_wroteF rfl rfl hgred
  case h_16 f =>
    obtain ⟨_, _, _, _, hscan⟩ := crossLaneCompletes f
    exact keepsFrame_wroteF rfl rfl hscan
  all_goals exact keepsFrame_wroteF rfl rfl (runs_perLaneF fun _ => rfl)

theorem keepsFrame_of_auxWrites (h : auxWrites i = true) : KeepsFrame i := by
  unfold auxWrites at h
  split at h
  case h_6 => cases h
  case h_4 f => exact keepsFrame_wroteAux rfl rfl (crossLaneCompletes f).1
  case h_5 f =>
    obtain ⟨_, _, hkgrp, _⟩ := crossLaneCompletes f
    exact keepsFrame_wroteAux rfl rfl hkgrp
  all_goals exact keepsFrame_wroteAux rfl rfl (runs_carryOp fun _ => rfl)

end Families

/-- Settles O54: every family keeps its frame, and so do the popping of queues before it and the retiring after it. -/
theorem registerInstructionsFrame : Obligations.RegisterInstructionsFrame := by
  intro i s c hfam hr
  have hk : KeepsFrame i := by
    simp only [Bool.or_eq_true] at hfam
    rcases hfam with (h | h) | h
    · exact keepsFrame_of_plainWrites h
    · exact keepsFrame_of_flagWrites h
    · exact keepsFrame_of_auxWrites h
  obtain ⟨hs, hk⟩ := hk
  obtain ⟨t, hran, ht⟩ := hk s c hr
  obtain ⟨_, _, hgang⟩ := ready_popped hs hr
  obtain ⟨hin, hleaves, hrf⟩ := ((framed_ready hs hr).trans ht).trans (framed_retire c.ilen t)
  refine ⟨_, hran, hin.mem, hin.regs, hin.recs, hin.pool, hin.launches, hin.ops, hin.waits, hin.gangs, fun hl k hkey => ?rf, fun g hg => ?gang⟩
  case rf =>
    refine (hrf (fun g hg => ?_) hl).2 k fun ⟨e, he, j, hj, hkj⟩ => hkey e he j hj hkj
    rw [hgang] at hg
    cases hg
    rfl
  case gang =>
    obtain ⟨a, ha, hkeep⟩ := hleaves g hg
    rw [hgang] at ha
    cases ha
    refine ⟨hkeep.h, fun hd => hkeep.g (decide_eq_false hd), fun pos y hy => ?_⟩
    obtain ⟨x, hx, hlane⟩ := hkeep.slice pos y hy
    refine ⟨x, hx, fun l => ⟨(hlane l).rstate, (hlane l).fibres, (hlane l).e0, (hlane l).e1, (hlane l).e2, (hlane l).e3, (hlane l).fpstat,
      fun hd ha => (hlane l).preds ?_⟩⟩
    rw [Ctx.destP, decide_eq_false hd, Bool.false_or, auxNamed, Bool.and_eq_false_imp]
    exact fun h => by rw [ha h]; rfl

end Sys2Proof.Machine

/-! PROOFS. The part's own steps. A clause of these obligations names the branch that a step takes; its proof gives the
step's definition the facts that pick the branch. -/

namespace Sys2Proof.Machine

/-! ## Clauses and slices (O36) -/

theorem laterStep_ready {id : Nat} {s : State} {q : Pend} (tracked : Bool) (hq : (s.pend.find? fun q => q.id == id) = some q)
    (hr : pendReady s q = true) (ht : q.flag.isSome = tracked) : laterStep id tracked s = .next (advancePend s q) := by
  simp only [laterStep, hq, hr, ht, beq_self_eq_true, Bool.and_self, if_true]

/-- R429: a slice with nothing in its combining buffers and no posted store goes on. -/
theorem buffersOut_clear {s : State} {core slot pos : Nat} {go : State → Host.Outcome State Fault Refusal}
    (hb : sliceBufs s core slot pos = []) (hp : slicePosts s core slot pos = false) : buffersOut s core slot pos go = go s := by
  simp only [buffersOut, hb, hp, List.isEmpty_nil, Bool.not_true, Bool.false_eq_true, if_false]

theorem buffersOut_full {s : State} {core slot pos : Nat} {go : State → Host.Outcome State Fault Refusal}
    (hb : sliceBufs s core slot pos ≠ []) : buffersOut s core slot pos go = .next (wcWriteSlice s core slot pos) := by
  simp only [buffersOut, List.isEmpty_eq_false_iff.mpr hb, Bool.not_false, if_true]

/-- Settles O36: each step is its definition at the branch that the clause's premises pick. -/
theorem clauseAndSliceStepsAct : Obligations.ClauseAndSliceStepsAct := by
  unfold Obligations.ClauseAndSliceStepsAct
  refine ⟨fun core slot sub s g u x xs hg hu hx hf hb => ?_, fun id s q hq hr => ⟨laterStep_ready true hq hr, laterStep_ready false hq hr⟩,
    fun core slot pos s g x m ms hg hx hm => ?_, fun core slot pos s g x e hg hx he hm => ?_, fun core slot pos s g x t hg hx ht => ?_⟩
  · refine ⟨fun pa hq => ?_, fun hc => ⟨fun h ws hq => ?_, fun c a hq => ?_, fun va hq => ?_, fun pa hq => ?_⟩⟩
    · show execClauseStart core slot sub s = _
      simp only [execClauseStart, hg, hu, hx, hf, hb, hq, Bool.not_true, Bool.or_self, Bool.false_eq_true, if_false]
    all_goals
      show execClauseStart core slot sub s = _
      simp only [execClauseStart, hg, hu, hx, hf, hb, hc, hq, Bool.not_true, Bool.or_self, bne_self_eq_false, Bool.false_eq_true,
        if_false]
  · refine ⟨fun u q hu hq hr hw => ?_, fun t r hp => ?_, fun e he => ?_⟩
    · show execCompletionStageTrap core slot pos s = _
      simp only [execCompletionStageTrap, hg, hx, hm, hu, hq, hr, hw, Option.isSome_none, bne_self_eq_false, Bool.or_self,
        Bool.false_eq_true, if_false]
    · show execCompletionStageTrap core slot pos s = _
      simp only [execCompletionStageTrap, hg, hx, hm, hp]
    · show execCompletionStageTrap core slot pos s = _
      simp only [execCompletionStageTrap, hg, hx, hm, he]
  · have ending (hfull : e.full = false) (hd : drained s core slot pos = true) : execSegmentEnd core slot pos s =
        buffersOut s core slot pos fun s => .next (settled s core slot pos fun s g x => finishSegment s g x e) := by
      simp only [execSegmentEnd, hg, hx, he, hm, hfull, hd, List.isEmpty_nil, Bool.not_true, Bool.or_self, Bool.false_eq_true, if_false]
    refine ⟨fun hfull hd hb hp => (ending hfull hd).trans (buffersOut_clear hb hp),
      fun hfull hd hb => (ending hfull hd).trans (buffersOut_full hb), fun hfull => ?_⟩
    show execPoolSpaceGrant core slot pos s = _
    simp only [execPoolSpaceGrant, hg, hx, he, hm, hfull, List.isEmpty_nil, Bool.not_true, Bool.false_eq_true, if_false]
  · refine ⟨fun hfull hd hl hb hp => ?_, fun hfull => ?_⟩
    · have line : (if g.handler.isSome then none else handlerLine s core g.ctx) = none := by
        rcases hl with hh | hn
        · rw [if_pos hh]
        · rw [hn, ite_self]
      show execTrapDelivery core slot pos s = _
      simp only [execTrapDelivery, hg, hx, ht, hfull, hd, line, Bool.not_true, Bool.or_self, Bool.false_eq_true, if_false]
      exact buffersOut_clear hb hp
    · show execPoolSpaceGrant core slot pos s = _
      simp only [execPoolSpaceGrant, hg, hx, ht, hfull, if_true]

end Sys2Proof.Machine

namespace Sys2Proof.Machine

/-! ## Records and bins (O37) -/

/-- R163, R208: the bin that the core has chosen drains, in the step that its class and its loading call for. -/
theorem drainStep_chosen {core bin k : Nat} {s : State} {c : Cand} {cls : Nat → Bool} {load : Bool}
    (hc : choice208 s core = some c) (hp : c.pick = .bin bin k) (hl : frontLoads s core bin = load)
    (hk : load = false → cls k = true) : drainStep core bin cls load s = .next (drainBin s core bin c.vbud) := by
  cases load with
  | true => simp only [drainStep, hc, hp, hl, decide_true, Bool.and_self, if_true]
  | false =>
    simp only [drainStep, hc, hp, hl, hk rfl, decide_true, Bool.not_false, Bool.false_eq_true, if_false, Bool.and_self, if_true]

/-- Settles O37: each step is its definition at the branch that the clause's premises pick. -/
theorem recordAndBinStepsAct : Obligations.RecordAndBinStepsAct := by
  unfold Obligations.RecordAndBinStepsAct
  refine ⟨fun rid lane s m w vals hr hw hv hb => ?_, fun core bin s c k hc hp => ?_, fun core s c g l slot base hc hp hg hs hb => ?_,
    fun rid s m hr ha => ?_, fun core slot sub s g u hg hu ha => ?_, fun die s hn => ?_, fun rid dest s m w hr hm => ?_,
    fun rid dest s m hr hm ht hbody hd => ?_⟩
  · refine ⟨fun hf => ?_, fun hf hstore hport => ?_, fun h k p n o hf hk => ?_, fun h pa va ty t hf hk => ⟨fun hd => ?_, fun hd => ?_⟩⟩ <;>
      show execLaneEventFire rid lane s = _
    · simp only [execLaneEventFire, hr, hw, hv, hb, hf, Bool.not_true, Bool.false_eq_true, if_false, if_true]
    · simp only [execLaneEventFire, hr, hw, hv, hb, hf, Bool.not_true, Bool.false_eq_true, if_false]
    · simp only [execLaneEventFire, hr, hw, hv, hb, hf, hk, Bool.not_true, Bool.false_eq_true, if_false]
    · simp only [execLaneEventFire, hr, hw, hv, hb, hf, hk, hd, Bool.not_true, Bool.false_eq_true, if_false]
    · simp only [execLaneEventFire, hr, hw, hv, hb, hf, hk, hd, Bool.not_true, Bool.false_eq_true, if_false]
  · refine ⟨fun hl hk => drainStep_chosen hc hp hl fun _ => by simp [hk], fun hl hk => drainStep_chosen hc hp hl fun _ => by simp [hk],
      fun hl hm => ?_⟩
    show execExpSlotLoad core bin s = _
    simp only [execExpSlotLoad, hm]
    exact drainStep_chosen hc hp hl fun _ => rfl
  · show execGangCreate core s = _
    simp only [execGangCreate, hc, hp, hg, hs, hb]
  · show execAgingStep (.record rid) s = _
    simp only [execAgingStep, hr, ha, Bool.not_true, Bool.false_eq_true, if_false]
  · show execAgingStep (.subgang core slot sub) s = _
    simp only [execAgingStep, hg, hu, ha, Bool.not_true, Bool.false_eq_true, if_false]
  · show execBalancerPeriod die s = _
    simp only [execBalancerPeriod, if_neg (not_lt.mpr hn)]
  · refine ⟨fun hlost => ?_, fun hw hn => ?_, fun hw hn hreach => ?_⟩ <;> show execRecordMove rid dest s = _
    · rcases hlost with hw | ⟨hn, hreach⟩
      · simp only [execRecordMove, hr, hm, if_pos hw]
      · simp only [execRecordMove, hr, hm, if_neg hn, hreach, Bool.not_false, if_true, ite_self]
    · simp only [execRecordMove, hr, hm, if_neg hw, if_pos hn]
    · simp only [execRecordMove, hr, hm, if_neg hw, if_neg hn, hreach, Bool.not_true, Bool.false_eq_true, if_false]
  · intro n hfit hfree hhead hblock
    have fits : ((tiers s m.core).any fun t => t.1 ≤ dest && dest + n ≤ t.1 + t.2) = true := by
      obtain ⟨t, ht, hlo, hhi⟩ := hfit
      exact List.any_eq_true.mpr ⟨t, ht, by simp [hlo, hhi]⟩
    have free : (s.pool.all fun e => decide (dest + n ≤ e.1) || decide (e.1 + e.2.1 ≤ dest)) = true :=
      List.all_eq_true.mpr fun e he => by simpa using hfree e he
    show execRecordMove rid dest s = _
    simp only [execRecordMove, hr, hm, ht, hbody, hd, hhead, hblock]
    rw [fits, free]
    rfl

end Sys2Proof.Machine

namespace Sys2Proof.Machine

/-! ## Tasks and launches (O38) -/

/-- What `withLines` does when every line it needs is here. -/
theorem withLines_here {s k : State} {pas : List Nat} (h : missingLine s pas = none) : withLines s pas k = .next k := by
  simp only [withLines, h]

theorem launch?_lid {s : State} {lid : Nat} {l : Launch} (h : s.launch? lid = some l) : l.lid = lid := by
  simpa using List.find?_some h

/-- R203: an entry is formed by the step that the number of its pair's tasks calls for. -/
theorem formStep_next {die : Nat} {s : State} {t : Task} {late : Bool} (h : nextPair s die = some t)
    (hn : decide ((samePair (s.tasks.getD die []) t).length < 4) = late) :
    formStep die t.ctx t.entry late s = .next (formTaskSlice s die t) := by
  simp only [formStep, h, hn, decide_true, beq_self_eq_true, Bool.and_self, if_true]

/-- R181, R204: a launch of this module that nothing keeps any more is signalled, or fails. -/
theorem finishLaunch_own {s : State} {l : Launch} (ho : l.owner = none) (hl : missingLine s [journalPa s l.seq] = none) :
    finishLaunch s l = .next (if l.fail then failLaunch s l
      else signalLaunch ((journalLaunch s l 3).updLaunch l.lid fun x => { x with st := .complete }) { l with st := .complete }) := by
  simp only [finishLaunch, ho, withLines_here hl]

theorem enterWaitdep_ready {s t : State} {l : Launch} {ps : List (Nat × Nat)} (h : planDeps l (List.range 4) s = .ready t ps) :
    enterWaitdep s l = .next (waitdepEntered t l ps) := by
  simp only [enterWaitdep, h]

/-- Settles O38: each step is its definition at the branch that the clause's premises pick. -/
theorem taskAndLaunchStepsAct : Obligations.TaskAndLaunchStepsAct := by
  unfold Obligations.TaskAndLaunchStepsAct
  refine ⟨fun die s rid hw hroom => ?_, fun die s t hn => ⟨fun h => ?_, fun h => ?_⟩, fun queue s x p l hq hst hp hl hlst ho hm => ?_,
    fun lid dep s l hl hst hf hhit hq hm => ?_, fun lid s l hl => ?_, fun core s g l hg hl => ⟨fun him => ?_, fun im him => ?_⟩,
    fun lid s l hl ht => ?_, fun lid s l hl hst ho ht => ?_, fun key s l hl ho => ⟨fun hst ht => ?_, fun hst ht => ?_⟩,
    fun lid s l l' hl hlost => ?_⟩
  · show execTaskqRoomPlace die s = _
    simp only [execTaskqRoomPlace, hw, if_neg (not_lt.mpr hroom)]
  · exact formStep_next hn (decide_eq_false (not_lt.mpr h))
  · exact formStep_next hn (decide_eq_true h)
  · have own : (s.hwq queue).bind (fun q => if q.st == .unmapped then none else q.pkt) = some p := by
      simp only [hq, Option.bind_some, beq_false_of_ne hst, Bool.false_eq_true, if_false, hp]
    have queued : (l.st != .queued) = false := by rw [hlst]; rfl
    refine ⟨fun hok => ?_, fun a v i d l' t ps hok he hen hl' hplan => ?_⟩ <;> show execLaunchHeadCheck queue s = _
    · simp only [execLaunchHeadCheck, own, hl, queued, ho, hm, hok, Bool.not_true, Bool.not_false, Bool.or_self,
        Bool.false_eq_true, if_false, if_true]
    · subst hl'
      rcases he with he | ⟨he, hc⟩
      · simp only [execLaunchHeadCheck, own, hl, queued, ho, hm, hok, he, hen, Bool.not_true, Bool.or_self,
          Bool.false_eq_true, if_false]
        exact enterWaitdep_ready hplan
      · simp only [execLaunchHeadCheck, own, hl, queued, ho, hm, hok, he, hc, hen, Bool.not_true, Bool.or_self,
          Bool.false_eq_true, if_false]
        exact enterWaitdep_ready hplan
  · have nofail : (s.failedPa.any fun e => e.1 == whoKey (.dep lid dep)) = false :=
      List.any_eq_false.mpr fun e he => by simpa using hf e he
    have hit : (s.mons.any fun m => m.who == .dep lid dep && m.hit.isSome) = true := by
      obtain ⟨m, hm, hwho, hh⟩ := hhit
      exact List.any_eq_true.mpr ⟨m, hm, by simp [hwho, hh]⟩
    obtain ⟨x, hx, hu⟩ := hq
    show execDependenceLatch lid dep s = _
    simp only [execDependenceLatch, hl, hst, nofail, hit, hx, beq_false_of_ne hu, bne_self_eq_false, Bool.false_eq_true, if_false,
      if_true]
    exact withLines_here hm
  · cases launch?_lid hl
    refine ⟨fun hst hp ho hf hm => ?_, fun hst hp ho hf hm => ?_, fun hst hf hne hall => ?_, fun hst => ?_⟩ <;>
      show execLaunchComplete l.lid s = _
    · simp only [execLaunchComplete, hl, hst, hp, if_true, finishLaunch_own ho hm, hf, Bool.false_eq_true, if_false]
    · simp only [execLaunchComplete, hl, hst, hp, if_true, finishLaunch_own ho hm, hf]
    · have reported : l.parts.all (fun p => p.reported) = true := List.all_eq_true.mpr hall
      simp only [execLaunchComplete, hl, hst, hf, reported, List.isEmpty_eq_false_iff.mpr hne, Bool.false_and, Bool.not_true,
        Bool.not_false, Bool.false_eq_true, if_false, if_true]
    · rcases hst with hst | hst <;> simp only [execLaunchComplete, hl, hst]
  · show execGroupPlace core s = _
    simp only [execGroupPlace, hg, hl, him]
  · show execGroupPlace core s = _
    simp only [execGroupPlace, hg, hl, him]
  · show execReservingTimeout lid s = _
    simp only [execReservingTimeout, hl, if_pos ht]
  · show execBackoffExpiry lid s = _
    simp only [execBackoffExpiry, hl, hst, ho, ht, Option.isNone_none, beq_self_eq_true, decide_true, Bool.and_self, if_true]
  · show execPartReserveExpiry key s = _
    simp only [execPartReserveExpiry, hl, hst, ho, ht, beq_self_eq_true, decide_true, Bool.and_self, if_true]
  · show execPartStart key s = _
    simp only [execPartStart, hl, hst, ho, ht, beq_self_eq_true, decide_true, Bool.and_self, if_true]
  · intro t hl' hm
    show execPartUnreachable lid s = _
    simp only [execPartUnreachable, hl, List.isEmpty_eq_false_iff.mpr hlost, Bool.false_eq_true, if_false]
    refine (congrArg (withLines _ _) ?_).trans (withLines_here hm)
    rw [hl']

end Sys2Proof.Machine

namespace Sys2Proof.Machine

/-! ## Translation (O39) -/

/-- Settles O39: each step is its definition at the branch that the clause's premises pick. -/
theorem translationStepsAct : Obligations.TranslationStepsAct := by
  unfold Obligations.TranslationStepsAct
  refine ⟨fun die s w hw => ?_, fun id s w hw hrun => ⟨fun pte pa size lines hr => ?_, fun pa hr => ?_, fun code line lines hr => ?_⟩,
    fun id s e he ht => ?_, fun id s b hb ht => ?_, fun core s => rfl, fun die line s => rfl, fun line s => rfl, fun s hb => ?_,
    fun s hb hu => ?_, fun core s hc hd => ?_, fun die s hdie hd => ?_, fun s => rfl, fun s => ⟨_, rfl, rfl, rfl, rfl⟩,
    fun queue s e t u v bs he hrd hroom hw hw' => ?_⟩
  · show execWalkStart die s = _
    simp only [execWalkStart, hw]
  · show execWalkComplete id s = _
    simp only [execWalkComplete, hw, hrun, hr, Bool.not_true, Bool.false_eq_true, if_false]
  · show execWalkComplete id s = _
    simp only [execWalkComplete, hw, hrun, hr, Bool.not_true, Bool.false_eq_true, if_false]
  · show execWalkFail id s = _
    simp only [execWalkFail, hw, hrun, hr, Bool.not_true, Bool.false_eq_true, if_false]
  · show ∃ t, execTlbRetentionExpiry id s = .next t ∧ _
    simp only [execTlbRetentionExpiry, he, if_neg (not_lt.mpr ht)]
    split
    · exact ⟨_, rfl, .inl rfl, rfl⟩
    · exact ⟨_, rfl, .inr rfl, rfl⟩
  · show execWcBufferWrite id s = _
    simp only [execWcBufferWrite, hb, if_neg (not_lt.mpr ht)]
  · show ∃ t, execShootdownGo s = .next t ∧ _
    simp only [execShootdownGo, hb, Bool.false_eq_true, if_false]
    refine ⟨_, rfl, rfl, rfl, fun e he hkeep => List.mem_filter.mpr ⟨he, ?_⟩⟩
    exact congrArg (fun b => !(b && (Config.freeBits (s.fresh + 1) e.id).getLsbD 0)) hkeep
  · show execShootdownComplete s = _
    simp only [execShootdownComplete, hb, hu, Bool.not_true, Bool.or_self, Bool.false_eq_true, if_false]
  · show execSnapshotLatch core s = _
    simp only [execSnapshotLatch, hd, if_pos hc, Bool.not_true, Bool.false_eq_true, if_false]
  · have hblock : ¬ 256 + die < 256 := by omega
    have hd4 : 256 + die < 260 := by omega
    show execSnapshotLatch (256 + die) s = _
    simp only [execSnapshotLatch, hd, if_neg hblock, if_pos hd4, Bool.not_true, Bool.false_eq_true, if_false, Nat.add_sub_cancel_left]
    rfl
  · show execFaultEntryWrite queue s = _
    simp only [execFaultEntryWrite, he, hrd, if_neg hroom, hw, hw']

end Sys2Proof.Machine

namespace Sys2Proof.Machine

/-! ## Queues (O40) -/

section Packets
variable {queue : Nat} {want : Nat → Bool} {act : State → HwQueue → Packet → Host.Outcome State Fault Refusal}
  {s t : State} {x : HwQueue} {p : Packet}

theorem packetStep_good (h : takePacket s queue want = .packet t x p) (hb : p.bad = false) :
    packetStep s queue want act = act t x p := by
  simp only [packetStep, h, hb, Bool.false_eq_true, if_false]

theorem endPacket_here {ok : Bool} (hm : missingLine s [queueDesc s x.q, journalPa s p.seq] = none) :
    endPacket s x p ok = .next (packetEnded s x p ok) := withLines_here hm

/-- R465: a packet whose action only ends it; a bad one ends as a failure. -/
theorem packetStep_ends {ok : HwQueue → Packet → Bool} (h : takePacket s queue want = .packet t x p)
    (hm : missingLine t [queueDesc t x.q, journalPa t p.seq] = none) :
    packetStep s queue want (fun s x p => endPacket s x p (ok x p)) = .next (packetEnded t x p (!p.bad && ok x p)) := by
  cases hb : p.bad
  · exact (packetStep_good h hb).trans (endPacket_here hm)
  · simp only [packetStep, h, hb, if_true]
    exact endPacket_here hm

/-- R467, R469: REPLACE and SIGNAL end well once their own write is acknowledged. -/
theorem sentPacket_acked {line : Nat} (hq : frontQuiet s = true) (hf : lineFailed s .front line = false)
    (hm : missingLine s [queueDesc s x.q, journalPa s p.seq] = none) : sentPacket s x p line = .next (packetEnded s x p true) := by
  simp only [sentPacket, hq, hf, Bool.not_true, Bool.false_eq_true, if_false]
  exact endPacket_here hm

end Packets

/-- Settles O40: each step is its definition at the branch that the clause's premises pick. -/
theorem queueStepsAct : Obligations.QueueStepsAct := by
  unfold Obligations.QueueStepsAct
  refine ⟨fun queue value s hm => ?_, fun queue s x m hx hm hl => ?_, fun queue s t x p ht hm => ?_,
    fun queue s t x p ht hb hlid => ⟨fun hr => ?_, fun u bs hr hlook => ?_⟩,
    fun queue s t u x p ms cw ht hb hfit hroom hc hlast hm => ?_, fun queue s t x p ht hm => packetStep_ends (ok := fun _ p => p.inBatch) ht hm,
    fun queue s t u x p ls ht hb hsent hok hr hm => ?_, fun queue s t u x p ht hb hsent hord hquiet hm hu => ?_,
    fun queue s t x p line hb hsent hquiet hf hm => ⟨fun ht => ?_, fun ht => ?_⟩, fun queue s x head hx hst hh hm => ?_⟩
  · intro r hhi hfit
    have fits : (fld value.toNat 63 32 != 0 || decide (2 ^ r.2.2.2.1 < (value.toNat % 2 ^ 32 + 2 ^ 32 - r.2.1) % 2 ^ 32)) = false := by
      rw [hhi, decide_eq_false (not_lt.mpr hfit)]
      rfl
    exact (withLines_here hm).trans (congrArg Host.Outcome.next (if_neg (by rw [Bool.not_eq_true]; exact fits)))
  · show execWakeWordChange queue s = _
    simp only [execWakeWordChange, hx, hm]
    exact withLines_here hl
  · show execNopPacket queue s = _
    rw [← Bool.and_true (!p.bad)]
    exact packetStep_ends (ok := fun _ _ => true) ht hm
  · refine (packetStep_good ht hb).trans ?_
    simp only [hlid, List.isEmpty_eq_false_iff.mpr hr, bne_self_eq_false, Bool.not_false, Bool.false_eq_true, if_false, if_true]
    rfl
  · refine (packetStep_good ht hb).trans ?_
    simp only [hlid, hr, hlook, List.isEmpty_nil, bne_self_eq_false, Bool.not_true, Bool.false_eq_true, if_false]
    rfl
  · obtain ⟨bs, hlast, rfl⟩ := hlast
    refine (packetStep_good ht hb).trans ?_
    simp only [if_neg (not_lt.mpr hfit), if_neg (not_lt.mpr hroom), hc, hlast]
    exact withLines_here hm
  · refine (packetStep_good ht hb).trans ?_
    simp only [hsent, hok, hr, Bool.not_true, Bool.false_eq_true, if_false]
    exact withLines_here hm
  · have sent : execSignalPacket queue s = if frontQuiet (clearFront u 0 x.ctx (wordAt p.words 1)) then
        endPacket (clearFront u 0 x.ctx (wordAt p.words 1)) x p
          ((clearFront u 0 x.ctx (wordAt p.words 1)).faults.length == t.faults.length)
        else .next ((clearFront u 0 x.ctx (wordAt p.words 1)).updQ queue fun x => { x with pkt := some { p with sent := some 0 } }) := by
      refine (packetStep_good ht hb).trans ?_
      simp only [hsent, hord, hquiet, hm, hu, List.isEmpty_nil, Bool.not_true, Bool.or_self, Bool.false_eq_true, if_false]
    refine ⟨fun hq hl => sent.trans ?_, fun hq => sent.trans ?_⟩
    · rw [if_pos hq, endPacket_here hl]
    · rw [hq]
      rfl
  · refine (packetStep_good ht hb).trans ?_
    simp only [hsent, sentPacket_acked hquiet hf hm]
  · refine (packetStep_good ht hb).trans ?_
    simp only [hsent, sentPacket_acked hquiet hf hm]
  · show execQueueUnmapComplete queue s = _
    simp only [execQueueUnmapComplete, hx, hst, hh]
    exact withLines_here hm

end Sys2Proof.Machine

namespace Sys2Proof.Machine

/-! ## The mailbox and pre-emption (O41) -/

/-- Settles O41: each step is its definition at the branch that the clause's premises pick. -/
theorem mailboxAndPreemptStepsAct : Obligations.MailboxAndPreemptStepsAct := by
  unfold Obligations.MailboxAndPreemptStepsAct
  refine ⟨fun ctx s bs hmb hc hnew hon hl hok => ?_, fun ctx s k hmb hk hgone => ?_, fun queue s bs => ?_,
    fun queue s x hmb hx => ⟨fun hst hm => ?_, fun hst => ?_⟩, fun seq s l hnot hmb hl hm => ?_, fun seq s hmb hover => ?_,
    fun arg s hnot hmb hidle => ?_, fun arg s hmb hidle => ?_, fun ctx s hmb hc hidle => ?_,
    fun buffer s nonce hmb hal hlt hhbm hn hm => ?_, fun s hmb hc hon => ?_, fun s hmb hon => ?_, fun die s _ => rfl,
    fun die s hbusy hleft => ?_, fun die s t hbusy hu => ?_, fun die s => rfl⟩
  · show execCtxnew ctx s = _
    simp only [execCtxnew, hmb, decide_eq_false (not_le.mpr hc), hnew, hon, hl, hok, Option.isSome_none, Bool.or_self, Bool.not_true,
      Bool.false_eq_true, if_false, if_true]
  · show execCtxdel ctx s = _
    simp only [execCtxdel, hmb, hk, hgone, Option.isNone_some, Bool.not_true, Bool.false_eq_true, if_false, if_true]
  · intro w hmb hq hnew hm hok
    refine ⟨fun hw => ?_, fun hw hl => ?_⟩ <;> show execMapq queue s = _
    · simp only [execMapq, hmb, decide_eq_false (not_le.mpr hq), hnew, hm, Option.any_none, Bool.or_self, Bool.not_true,
        Bool.false_eq_true, if_false]
      rw [if_neg (by rw [show queueOk s _ = true from hok]; decide), if_pos hw]
    · simp only [execMapq, hmb, decide_eq_false (not_le.mpr hq), hnew, hm, Option.any_none, Bool.or_self, Bool.not_true,
        Bool.false_eq_true, if_false]
      rw [if_neg (by rw [show queueOk s _ = true from hok]; decide), if_neg hw, show lookAt s _ 8 = _ from hl]
  · show execUnmapq queue s = _
    simp only [execUnmapq, hmb, hx, hst, Bool.not_true, Bool.false_eq_true, if_false]
    exact withLines_here hm
  · show execUnmapq queue s = _
    simp only [execUnmapq, hmb, hx, hst, Bool.not_true, Bool.false_eq_true, if_false]
  · show execAbortCmd seq s = _
    simp only [execAbortCmd, hnot, hmb, hl, hm, Bool.not_true, Bool.false_eq_true, if_false]
  · show execAbortCmd seq s = _
    simp only [execAbortCmd, hmb, hover, if_true]
  · show execPreemptCmd arg s = _
    simp only [execPreemptCmd, hnot, hmb, hidle, Bool.not_true, Bool.or_self, Bool.false_eq_true, if_false]
  · show execPreemptCmd arg s = _
    simp only [execPreemptCmd, hmb, hidle, if_true]
  · show execRestoreCmd s = _
    simp only [execRestoreCmd, hmb, restoreContext, if_neg (not_le.mpr hc), hidle, Bool.not_true, Bool.false_eq_true, if_false]
  · show execAttest s = _
    simp only [execAttest, hmb, attestBuffer, hal, decide_eq_false (not_le.mpr hlt), hhbm, hn, hm, bne_self_eq_false, Bool.not_true, Bool.or_self,
      Bool.false_eq_true, if_false]
  · show execStandbyEnter s = _
    simp only [execStandbyEnter, hmb, hc, hon, List.isEmpty_nil, Bool.not_true, Bool.or_self, Bool.false_eq_true, if_false]
  · show execStandbyLeave s = _
    simp only [execStandbyLeave, hmb, hon, Bool.not_true, Bool.false_eq_true, if_false]
  · show execPreemptGroupDone die s = _
    simp only [execPreemptGroupDone, hbusy, hleft, List.isEmpty_nil, Bool.not_true, Bool.false_eq_true, if_false, if_true]
  · have hleft : (s.dieRegs die).preLeft.isEmpty = false := by
      obtain ⟨l, hl, -⟩ := List.exists_of_findSome?_eq_some hu
      exact List.isEmpty_eq_false_iff.mpr (List.ne_nil_of_mem hl)
    show execPreemptGroupDone die s = _
    simp only [execPreemptGroupDone, hbusy, hleft, hu, Bool.not_true, Bool.false_eq_true, if_false, Option.getD_some]

end Sys2Proof.Machine

namespace Sys2Proof.Machine

/-! ## The fabric (O42) -/

theorem hear_context (s : State) (t c : Nat) : (s.hear t).context c = s.context c := rfl
theorem hear_partOf (s : State) (t node key : Nat) : partOf (s.hear t) node key = partOf s node key := rfl

/-- R460: a message whose port is up leaves by it. -/
theorem send_through {s : State} {k p : Nat} {m : Msg}
    (hp : portFor s m.dnode (if lineless k then none else some m.addr) = some p) :
    s.send k m = { s with
      outbox := s.outbox ++ [(p, k, m)]
      linkTx := updAt p (sendFlits s.outbox.length (flitCount k m)) s.linkTx } := by
  simp only [State.send, Bool.or_false, hp]

/-- Settles O42: each step is its definition at the branch that the clause's premises pick. -/
theorem fabricStepsAct : Obligations.FabricStepsAct := by
  unfold Obligations.FabricStepsAct
  refine ⟨fun id s r hr hi => ⟨fun hu => ?_, fun p hreach hinj hp => ?_⟩, fun id s i hr hh => ?_, fun id s r hr => ?_,
    fun id s hr => ⟨fun p hp => ?_, fun i hp hh => ?_⟩, fun m s r hu hr => ⟨fun hk => ?_, fun hk hd => ?_, fun hk hd => ?_⟩,
    fun m s hu hh => ⟨fun p hp => ⟨?_, ?_⟩, fun hp => ⟨fun r hr hwho hk => ?_, fun r hr => ?_⟩⟩,
    fun m s i hu hh => ⟨?_, ?_⟩, fun m s r rid lane hu hr hwho => ?_, fun m s core a hu hal hc hbit hcore hon ha => ?_,
    fun m s hu hal => ⟨fun harg hc hp => ?_, fun l harg hp hst => ?_, fun l harg hp hst => ?_, fun harg => ?_, fun harg => ?_⟩,
    fun core port words s hk => ?_, fun port f s hcrc hlen hport hseq => ?_, fun port f s hport hbad => ?_, fun port s => rfl⟩
  · show execRequestInject id s = _
    simp only [execRequestInject, hr, hi, hu, Option.isSome_none, Bool.not_false, Bool.false_eq_true, if_false, if_true]
  · show execRequestInject id s = _
    simp only [execRequestInject, hr, hi, hreach, hinj, Option.isSome_none, Bool.not_true, Bool.false_eq_true, if_false]
    exact congrArg Host.Outcome.next (send_through hp)
  · show execRequestInject id s = _
    simp only [execRequestInject, hr, hh]
  · show execRequestTimeout id s = _
    simp only [execRequestTimeout, hr]
  · show execRequestTimeout id s = _
    simp only [execRequestTimeout, hr, hp]
  · show execRequestTimeout id s = _
    simp only [execRequestTimeout, hr, hp, hh]
  · show execDataMsg m s = _
    simp only [execDataMsg, hu, hr, if_pos hk, Bool.not_true, Bool.false_eq_true, if_false]
  · show execDataMsg m s = _
    simp only [execDataMsg, hu, hr, if_neg hk, hd, Bool.not_true, Bool.false_eq_true, if_false, if_true]
  · show execDataMsg m s = _
    simp only [execDataMsg, hu, hr, if_neg hk, hd, Bool.not_true, Bool.false_eq_true, if_false]
  · show execAckMsg m s = _
    simp only [execAckMsg, hu, hh, hp, Bool.not_true, Bool.false_eq_true, if_false]
  · show execNackMsg m s = _
    simp only [execNackMsg, hu, hh, hp, Bool.not_true, Bool.false_eq_true, if_false]
  · show execAckMsg m s = _
    simp only [execAckMsg, hu, hh, hp, hr, Bool.not_true, Bool.false_eq_true, if_false]
  · show execNackMsg m s = _
    simp only [execNackMsg, hu, hh, hp, hr, Bool.not_true, Bool.false_eq_true, if_false]
  · show execAckMsg m s = _
    simp only [execAckMsg, hu, hh, Bool.not_true, Bool.false_eq_true, if_false]
  · show execNackMsg m s = _
    simp only [execNackMsg, hu, hh, Bool.not_true, Bool.false_eq_true, if_false]
  · show execMsat m s = _
    simp only [execMsat, hu, hr, hwho, Bool.not_true, Bool.false_eq_true, if_false]
  · subst hcore
    show execRecMsg m s = _
    simp only [execRecMsg, hu, hal, hc, hbit, hon, ha, Bool.and_self, Bool.not_true, Bool.false_eq_true, if_false, if_true]
  · show execPartReserve m s = _
    simp only [execPartReserve, hu, harg, hal, bne_self_eq_false, Bool.not_true, Bool.or_self, Bool.false_eq_true, if_false]
    simp only [hear_context, hear_partOf, hc, hp, Option.isNone_none, Bool.and_self, if_true]
  · show execPartCommit m s = _
    simp only [execPartCommit, hu, harg, hal, bne_self_eq_false, Bool.not_true, Bool.or_self, Bool.false_eq_true, if_false]
    simp only [hear_partOf, hp, hst, beq_self_eq_true, if_true]
    rfl
  · have live : (l.st == .reserving || l.st == .backoff) = true := by rcases hst with h | h <;> simp [h]
    show execPartRollback m s = _
    simp only [execPartRollback, hu, harg, hal, hp, live, bne_self_eq_false, Bool.not_true, Bool.false_and, Bool.or_self,
      Bool.false_eq_true, if_false, if_true]
    rfl
  · show execPartReport m s = _
    simp only [execPartReport, hu, harg, hal, bne_self_eq_false, Bool.not_true, Bool.false_and, Bool.or_self, Bool.false_eq_true,
      if_false]
    rfl
  · show execPartReport m s = _
    simp only [execPartReport, hu, harg, hal, bne_self_eq_false, Bool.not_true, Bool.and_false, Bool.or_self, Bool.false_eq_true,
      if_false, if_true]
  · show execFabricReceiveEntry core port words s = _
    simp only [execFabricReceiveEntry, hk, bne_self_eq_false, Bool.false_eq_true, if_false]
  · show execFlitReceive port f s = _
    simp only [execFlitReceive, hcrc, hlen, hport, hseq, beq_self_eq_true, bne_self_eq_false, Bool.and_self, Bool.not_true, Bool.or_self,
      Bool.false_eq_true, if_false]
    cases kindNamed (fld f.ctl.toNat 82 78) <;> rfl
  · have unfit : (!(fld f.ctl.toNat 127 96 == crc32c (natToBytes 12 f.ctl.toNat ++ f.payload) && f.payload.length == 64) ||
        fld f.ctl.toNat 95 84 != s.linkSeq.getD port 0) = true := by
      rcases hbad with h | h | h
      · rw [beq_false_of_ne h]
        rfl
      · rw [beq_false_of_ne h, Bool.and_false]
        rfl
      · rw [bne_iff_ne.mpr h, Bool.or_true]
    show execFlitReceive port f s = _
    simp only [execFlitReceive, hport, unfit, Bool.not_true, Bool.false_eq_true, if_false, if_true]

/-! ## Home messages (O43) -/

/-- Settles O43: each step is its definition at the branch that the clause's premises pick. -/
theorem homeMessagesAct : Obligations.HomeMessagesAct := by
  unfold Obligations.HomeMessagesAct
  refine ⟨fun m s hu => ?_, fun m s hu harg => ?_, fun m s hu harg hc => ?_, fun m s c hu harg hc hb => ?_,
    fun m s c hu harg hc hb => ?_, fun m s c hu harg hc hb => ?_⟩
  · have heard (k : Nat) : receive k m s = .next (if allowed s k m then (if absentHere s k m then nack s m false 1 else arriveHome k m s)
        else nack s m (lineless k)) := by
      unfold receive
      rw [hu]
      cases allowed s k m <;> cases absentHere s k m <;> rfl
    exact ⟨heard 0, heard 1, heard 2, heard 3, heard 4, heard 5, heard 7⟩
  · show execFwqMsg m s = _
    simp only [execFwqMsg, hu, if_pos harg, Bool.not_true, Bool.false_eq_true, if_false]
  · show execFwqMsg m s = _
    simp only [execFwqMsg, hu, if_neg harg, hc, Bool.not_true, Bool.false_eq_true, if_false]
  · show execFwqMsg m s = _
    simp only [execFwqMsg, hu, if_neg harg, hc, hb, Bool.not_true, Bool.false_eq_true, if_false, if_true]
  · have hshare : ¬ m.arg % 4 = 2 := by omega
    show execFwqMsg m s = _
    simp only [execFwqMsg, hu, if_neg hshare, if_pos harg, hc, hb, Bool.not_true, Bool.false_eq_true, if_false, Bool.and_eq_true,
      decide_eq_true_eq]
  · have hshare : ¬ m.arg % 4 = 2 := by omega
    have hkeep : ¬ m.arg % 4 = 0 := by omega
    show execFwqMsg m s = _
    simp only [execFwqMsg, hu, if_neg hshare, if_neg hkeep, hc, hb, Bool.not_true, Bool.false_eq_true, if_false]

end Sys2Proof.Machine

namespace Sys2Proof.Machine

/-! ## Engines (O44) -/

theorem EngineOp.faultAt_eq (o : EngineOp) (row code : Nat) (cause : Cause) (addr : Nat) :
    ∃ l f, o.faultAt row code cause addr = { o with limit := l, fail := f } := by
  unfold EngineOp.faultAt
  split
  · split
    · exact ⟨_, _, rfl⟩
    · exact ⟨_, _, rfl⟩
  · exact ⟨_, _, rfl⟩

/-- R262: the refused writes of an operation change its failure and where it stops, and nothing else of it. -/
theorem withFailures_eq (s : State) (o : EngineOp) : ∃ l f, withFailures s o = { o with limit := l, fail := f } := by
  suffices h : ∀ (rows : List Nat) (q : EngineOp), (∃ l f, q = { o with limit := l, fail := f }) →
      ∃ l f, rows.foldl (fun o r => o.faultAt r 3 .engerr 0) q = { o with limit := l, fail := f } from h _ o ⟨o.limit, o.fail, rfl⟩
  intro rows
  induction rows with
  | nil => exact fun q h => h
  | cons r rows ih =>
    rintro _ ⟨l, f, rfl⟩
    obtain ⟨l', f', h⟩ := EngineOp.faultAt_eq { o with limit := l, fail := f } r 3 .engerr 0
    exact ih _ ⟨l', f', h⟩

theorem withFailures_fields (s : State) (o : EngineOp) : (withFailures s o).kind = o.kind ∧ (withFailures s o).started = o.started ∧
    (withFailures s o).waitPage = o.waitPage ∧ (withFailures s o).die = o.die ∧ (withFailures s o).handle = o.handle := by
  obtain ⟨l, f, h⟩ := withFailures_eq s o
  rw [h]
  exact ⟨rfl, rfl, rfl, rfl, rfl⟩

section Work
variable {s : State} {op : Nat} {o : EngineOp}

theorem engineUnitAccess_free (ho : s.op? op = some o) (hw : o.waitPage = none) (ht : engineTaken s o = false) :
    execEngineUnitAccess op s = .next (opUnit s o) := by
  simp only [execEngineUnitAccess, ho, hw, ht, Option.isSome_none, Bool.or_self, Bool.false_eq_true, if_false]

/-- What an operation of the kinds that read a descriptor of their own does in its turn (R360). -/
theorem opUnit_reads (hk : o.kind = .cpy ∨ o.kind = .qnt ∨ o.kind = .dqnt ∨ o.kind = .ixwalk ∨ o.kind = .tile ∨
      o.kind = .fetch ∧ o.reserved = true ∨ o.kind = .mxdrain ∧ slotFirst s o = true) :
    (o.words = none → o.fail = none → o.limit = none → descLeft o ≠ [] → opUnit s o = descUnit s o) ∧
    (o.words = none → o.fail = none → o.limit = none → descLeft o = [] →
      opUnit s o = if descOk s o (words64 (rowBytes o descRow (bytesIn (descReads o)))) then
        s.updOp o.id fun o' => { o' with words := some (words64 (rowBytes o descRow (bytesIn (descReads o)))) } else malformed s o) ∧
    (∀ ws, o.words = some ws → opUnit s o = if o.started then workUnit s o ws else startWork s o ws) := by
  have reads : opUnit s o = match o.words with
      | none =>
        if o.fail.isSome || o.limit.isSome then s
        else if !(descLeft o).isEmpty then descUnit s o
        else
          let ws := words64 (rowBytes o descRow (bytesIn (descReads o)))
          if descOk s o ws then s.updOp o.id fun o => { o with words := some ws } else malformed s o
      | some ws => if o.started then workUnit s o ws else startWork s o ws := by
    rcases hk with h | h | h | h | h | ⟨h, hr⟩ | ⟨h, hr⟩ <;> unfold opUnit <;> simp only [*] <;> rfl
  refine ⟨fun hw hf hl hd => ?_, fun hw hf hl hd => ?_, fun ws hw => ?_⟩
  · rw [reads]
    simp only [hw, hf, hl, List.isEmpty_eq_false_iff.mpr hd, Option.isSome_none, Bool.or_self, Bool.not_false, Bool.false_eq_true,
      if_false, if_true]
  · rw [reads]
    simp only [hw, hf, hl, hd, List.isEmpty_nil, Option.isSome_none, Bool.or_self, Bool.not_true, Bool.false_eq_true, if_false]
  · rw [reads]
    simp only [hw]

theorem opUnit_cpact (hk : o.kind = .cpact) :
    (o.started = false → o.fail = none → compactFirst s o = true → opUnit s o = compactTurn s o) ∧
    (∀ ws, o.started = true → o.words = some ws → opUnit s o = workUnit s o ws) := by
  refine ⟨fun hst hf hc => ?_, fun ws hst hw => ?_⟩ <;> unfold opUnit
  · simp only [hk, hst, hf, hc, Option.isSome_none, Bool.false_eq_true, if_false, if_true]
  · simp only [hk, hst, hw, if_true]

theorem opUnit_cpfl (hk : o.kind = .cpfl) (hst : o.started = false) (hc : compactFirst s o = true) : opUnit s o = flushTurn s o := by
  unfold opUnit
  simp only [hk, hst, hc, Bool.not_false, Bool.and_self, if_true]

/-- R360: the completion of a copy, a conversion or a drain: first what its overlap leaves free, then its action and its future. -/
theorem completionOf_over {k : OpKind} (ho : s.op? op = some o) (hk : o.kind = k) (hf : withFailures s o = o)
    (hover : workOver s o = true) :
    (o.freed = false → completionOf k op s = .next (overlapFree s o)) ∧
    (∀ t code cause addr, o.freed = true → actNow { s with fresh := s.fresh + 1 } o = .done t code cause addr →
      completionOf k op s = .next (completeFut
        { sweepSlots (dropOp (drainClear t o) o.id) o.core with
          failedPa := (sweepSlots (dropOp (drainClear t o) o.id) o.core).failedPa.filter fun e => e.1 != whoKey (.engine o.id) }
        o.die o.handle code (outcomeOf { s with fresh := s.fresh + 1 } o).2.1 cause addr)) := by
  have finishes : completionOf k op s = .next (finishOp s o) := by
    simp only [completionOf, ho, hk, beq_self_eq_true, if_true]
  refine ⟨fun hfr => ?_, fun t code cause addr hfr hact => ?_⟩ <;> rw [finishes] <;> unfold finishOp
  · simp only [hf, hover, hfr, Bool.not_true, Bool.not_false, Bool.false_eq_true, if_false, if_true]
  · simp only [hf, hover, hfr, hact, Bool.not_true, Bool.false_eq_true, if_false]

end Work

/-- Settles O44: each step is its definition at the branch that the clause's premises pick. -/
theorem engineStepsAct : Obligations.EngineStepsAct := by
  unfold Obligations.EngineStepsAct
  refine ⟨fun op s o ho hw ht => ?_, fun op s o ho hf hover => ?_, fun core queue s o os hu hr => ?_,
    fun op s o ws ho hk hw hr hws hend => ?_, fun op s o ws ho hk hws hst hw ha => ⟨fun hp hrow hsig => ?_, fun hp => ?_⟩,
    fun core s => ⟨fun hn => ?_, fun o ws ho hws hover hfail hhere => ?_⟩, fun op s o ho hk hst hw hfail ha hrel => ?_,
    fun op s o ws ho hk hws hst hw hf hfail hdone ha hrel => ?_, fun core s o hn => ?_, fun op s o ho hk hd => ?_,
    fun op s o ho hc hl => ⟨fun ws hk hws hrow => ?_, fun hk hr => ?_, fun ws hk hws hrow hput => ?_⟩⟩
  · have turn := engineUnitAccess_free ho hw ht
    refine ⟨fun hk => ⟨fun hws hf hl hd => ?_, fun hws hf hl hd => ⟨fun hok => ?_, fun hok => ?_⟩, fun ws hws => ⟨fun hst => ?_, fun hst => ?_⟩⟩,
      fun hk hst hf hc => ?_, fun ws hk hst hws => ?_, fun hk hst hc => ?_⟩ <;> refine turn.trans (congrArg Host.Outcome.next ?_)
    · exact (opUnit_reads hk).1 hws hf hl hd
    · rw [(opUnit_reads hk).2.1 hws hf hl hd, if_pos hok]
    · rw [(opUnit_reads hk).2.1 hws hf hl hd, hok]
      rfl
    · rw [(opUnit_reads hk).2.2 ws hws, hst]
      rfl
    · rw [(opUnit_reads hk).2.2 ws hws, if_pos hst]
    · exact (opUnit_cpact hk).1 hst hf hc
    · exact (opUnit_cpact hk).2 ws hst hws
    · exact opUnit_cpfl hk hst hc
  · exact ⟨fun hk => completionOf_over ho hk hf hover, fun hk => completionOf_over ho hk hf hover,
      fun hk => completionOf_over ho hk hf hover, fun hk => completionOf_over ho hk hf hover⟩
  · show execFetchReserve core queue s = _
    simp only [execFetchReserve, hu, hr, if_true]
  · have ended : (o.limit.isSome || (o.started && (jobOf s o ws).allDone o)) = true := by
      rcases hend with hl | ⟨hst, hd⟩
      · rw [hl, Bool.true_or]
      · rw [hst, hd, Bool.and_self, Bool.or_true]
    show execFetchCompletion op s = _
    simp only [execFetchCompletion, ho, hk, hw, hr, hws, ended, bne_self_eq_false, Option.isNone_none, Bool.and_self, Bool.not_true,
      Bool.or_self, Bool.false_eq_true, if_false]
    cases (outcomeOf s o).1 <;> rfl
  · show execIxwalkRangeComplete op s = _
    simp only [execIxwalkRangeComplete, ho, hws, hk, hst, hw, hp, hrow, ha, hsig, bne_self_eq_false, Option.isSome_none, decide_true,
      Bool.not_true, Bool.or_self, Bool.false_eq_true, if_false, if_true]
  · show execIxwalkCompletion op s = _
    simp only [execIxwalkCompletion, ho, hws, hk, hst, hw, hp, ha, bne_self_eq_false, Option.isNone_none, decide_true, Bool.and_self,
      Bool.not_true, Bool.or_self, Bool.false_eq_true, if_false]
  · show execCpactTileFill core s = _
    simp only [execCpactTileFill, hn]
  · show execCpactTileFill core s = _
    simp only [execCpactTileFill, ho, hws, hover, hfail, hhere, Bool.not_true, Bool.false_eq_true, if_false, if_true]
  · obtain ⟨ek, est, ew, edie, eh⟩ := withFailures_fields s o
    show execCpactCompletion op s = _
    simp only [execCpactCompletion, ho, ek, est, ew, edie, eh, hk, hst, hw, hfail, ha, hrel]
    rfl
  · show execCpactCompletion op s = _
    simp only [execCpactCompletion, ho, hf, hk, hws, hst, hw, hfail, hdone, ha, hrel]
    rfl
  · show execMatrixOpStart core s = _
    simp only [execMatrixOpStart, hn]
  · show execMatrixOpComplete op s = _
    simp only [execMatrixOpComplete, ho, hk, hd, bne_self_eq_false, Bool.not_true, Bool.or_self, Bool.false_eq_true, if_false]
    cases firstOver { s with fresh := s.fresh + 1 } o <;> rfl
  · show execCancelSafePoint op s = _
    simp only [execCancelSafePoint, ho, hc, hl, hk, hws, if_neg (not_le.mpr hrow), Option.isSome_none, Bool.not_true, Bool.or_self,
      Bool.false_eq_true, if_false]
  · show execCancelSafePoint op s = _
    simp only [execCancelSafePoint, ho, hc, hl, hk, hr, Option.isSome_none, Bool.not_true, Bool.or_self,
      Bool.false_eq_true, if_false, if_true]
  · show execCancelSafePoint op s = _
    simp only [execCancelSafePoint, ho, hc, hl, hk, hws, hrow, hput, Option.isSome_none, Bool.not_true, Bool.not_false, Bool.or_self,
      decide_true, Bool.and_self, Bool.false_eq_true, if_false, if_true]

end Sys2Proof.Machine

namespace Sys2Proof.Machine

/-! ## The device (O45) and streams (O46) -/

theorem scrub_answers (s : State) (la n : Nat) : (scrub s la n).answers = s.answers := by
  unfold scrub
  induction lineNumbers la n generalizing s with
  | nil => rfl
  | cons l ls ih =>
    rw [List.foldl_cons, ih]
    split <;> rfl

/-- An access settles lines and clocks only; it changes no answer to Bersy. -/
theorem touchBy_answers (s : State) (pts la : Nat) (store : Bool) : (touchBy s pts la store).1.answers = s.answers := by
  refine Eq.trans ?_ (scrub_answers s la 1)
  unfold touchBy
  dsimp only
  split
  · split
    · split <;> rfl
    · rfl
  · rfl
  · rfl
  · rfl

theorem bersy_up {s : State} (h : s.bersy.any id = true) : (s.bersy.all fun up => !up) = false := by
  obtain ⟨up, hm, hu⟩ := List.any_eq_true.mp h
  exact List.all_eq_false.mpr ⟨up, hm, by simpa using hu⟩

/-- Settles O45: each step is its definition at the branch that the clause's premises pick. -/
theorem deviceStepsAct : Obligations.DeviceStepsAct := by
  unfold Obligations.DeviceStepsAct
  refine ⟨fun w s hw => ?_, fun value s hc => ?_, fun die s v hv he => ?_, fun s hs => ?_, fun s => rfl, fun s htj => ?_,
    fun staged img s hp hi => ?_, fun s hp => ?_, fun s hp => ⟨?_, ?_⟩, fun s hp => ⟨?_, ?_⟩, fun v s hp hb => ?_, fun pwr tj tin s => ?_,
    fun core s hb hi => ?_, fun core s hg hst => ?_, fun la size s hup hopen hm hbad => ?_,
    fun la size value s hup hopen hm => ⟨fun hd => ?_, fun hd hbad => ?_⟩, fun lane s hup => ?_, fun port s => rfl⟩
  · show execRegisterWrite w s = _
    rcases hw with hw | ⟨hw, ha⟩
    · simp only [execRegisterWrite, hw]
    · simp only [execRegisterWrite, hw, ha, if_true]
  · show execFeataccWrite value s = _
    simp only [execFeataccWrite, hc, List.isEmpty_nil, if_true]
  · show execPoolcfgApply die s = _
    simp only [execPoolcfgApply, hv, he, if_true]
  · have open_ : (accepting s || s.regs.phase == .rom || s.regs.phase == .recovery) = true := by
      rcases hs with h | h | h <;> simp [h]
    show execMreset _ s = _
    rw [execMreset, open_, if_pos (by decide)]
  · show ∃ t, execThermalTrip s = .next t ∧ _
    simp only [execThermalTrip, if_neg (not_lt.mpr htj)]
    exact ⟨_, rfl, rfl, rfl, rfl, rfl, rfl, rfl, rfl, rfl, rfl, rfl, rfl, rfl, rfl, rfl, rfl, rfl, rfl⟩
  · show execBootRomPhase staged s = _
    simp only [execBootRomPhase, hp, hi, bne_self_eq_false, Bool.false_eq_true, if_false]
  · show execVerifyPhase (signatureOk s) s = _
    simp only [execVerifyPhase, hp, bne_self_eq_false, Bool.or_self, Bool.false_eq_true, if_false, Bool.not_eq_true']
    split
    · rfl
    · split <;> rfl
  · show execHbminitPhase false s = _
    simp only [execHbminitPhase, hp, bne_self_eq_false, Bool.not_false, Bool.false_eq_true, if_false, if_true]
  · show ∃ t, execHbminitPhase true s = .next t ∧ _
    simp only [execHbminitPhase, hp, bne_self_eq_false, Bool.not_true, Bool.false_eq_true, if_false]
    exact ⟨_, rfl, rfl, fun c hc => of_decide_eq_true (List.mem_filter.mp hc).2⟩
  · show execSelftestPhase false s = _
    simp only [execSelftestPhase, hp, bne_self_eq_false, Bool.not_false, Bool.false_eq_true, if_false, if_true]
  · show ∃ t, execSelftestPhase true s = .next t ∧ _
    simp only [execSelftestPhase, hp, bne_self_eq_false, Bool.not_true, Bool.false_eq_true, if_false]
    exact ⟨_, rfl, rfl⟩
  · show ∃ t, execReadyPhase v s = .next t ∧ _
    simp only [execReadyPhase, hp, hb, bne_self_eq_false, Bool.or_self, Bool.false_eq_true, if_false]
    have base (b : W64) : (BitVec.ofNat 64 (b.toNat % 2 ^ 54)).toNat = b.toNat % 2 ^ 54 := by
      rw [BitVec.toNat_ofNat]
      omega
    exact ⟨_, rfl, rfl, rfl, rfl, base _, base _⟩
  · show ∃ t, execThrottle pwr tj tin s = .next t ∧ _
    exact ⟨_, rfl, rfl, rfl, rfl, rfl, fun h => if_pos h, fun h => if_neg (not_le.mpr h), rfl, rfl⟩
  · show execClockGate core s = _
    simp only [execClockGate, hb, decide_eq_false (not_lt.mpr hi), Bool.or_self, Bool.false_eq_true, if_false]
  · show execCoreWake core s = _
    simp only [execCoreWake, hg, hst, Bool.not_true, Bool.or_self, Bool.false_eq_true, if_false]
  · show ∃ t, execBersyAccess (.read la size) s = .next t ∧ _
    simp only [execBersyAccess, bersy_up hup, hopen, hm, hbad, Bool.not_true, Bool.false_eq_true, if_false]
    exact ⟨_, rfl, congrArg (· ++ _) (touchBy_answers s _ la false)⟩
  · show execBersyAccess (.write la size value) s = _
    simp only [execBersyAccess, bersy_up hup, hopen, hm, if_pos hd, Bool.not_true, Bool.false_eq_true, if_false]
  · show execBersyAccess (.write la size value) s = _
    simp only [execBersyAccess, bersy_up hup, hopen, hm, if_neg hd, hbad, Bool.not_true, Bool.false_eq_true, if_false]
  · show execBersyLaneFail lane s = _
    simp only [execBersyLaneFail, hup, if_true]

/-- Settles O46: each step is its definition at the branch that the clause's premises pick. -/
theorem streamStepsAct : Obligations.StreamStepsAct := by
  unfold Obligations.StreamStepsAct
  refine ⟨fun stream s bs => ?_, fun stream s => rfl, fun p s hf => ?_, fun stream slot s f hf => ⟨?_, fun hl => ?_⟩⟩
  · intro t hst hsh hl
    show execSctlOpen stream s = _
    have closed : ((s.stream stream).state != 0 || !(s.stream stream).shut) = false := by
      rw [show (s.stream stream).state = 0 from hst, show (s.stream stream).shut = true from hsh]
      rfl
    simp only [execSctlOpen, closed, show lookAt s (s.stream stream).desc 64 = .here bs from hl, Bool.false_eq_true, if_false]
    rfl
  · show execIngestPacket p s = _
    simp only [execIngestPacket, hf, Bool.not_true, Bool.false_eq_true, if_false]
  · show execFrameClose stream slot s = _
    simp only [execFrameClose, hf]
  · show execFrameTimeout stream slot s = _
    simp only [execFrameTimeout, hf, hl, Bool.not_true, Bool.false_eq_true, if_false]

end Sys2Proof.Machine

/-! PROOFS. Stores (O56). The statement asks nothing of the memory table that the store finds. A write into a table whose
keys are out of order stops at the first greater key, and a byte 0 then takes away nothing that lies behind it. -/

namespace Sys2Proof.Machine

/-- A store of v8 to the address that v16 and v17 hold. -/
def zeroStore : Fields := { noFields with a := 8, b := 16, d := 8, type := 7 }

/-- One thread of core 0, all its registers 0, stands at the store; page 0 of its context lies at 2^20. The memory table
holds the byte of 2^20 behind the byte of 2^20 + 1. -/
def disordered : State :=
  { (State.reset.withFetchWord 64 ((encode (.st zeroStore)).headD 0).toNat).setDie 0 fun d => { d with poolcfg := 0 } with
    cur := some ⟨0, 0, 0⟩
    tlbs := [⟨1, 0, some 0, 1, 0, 16, 0x10031d#64, 0x80000, [], 0⟩]
    mem := [(0x100001, 1), (0x100000, 5)] }

/-- The store of one lane to its own HBM that the statement speaks of, made in a state where it leaves a first byte that is
not the first byte of its image. -/
def storeMisses (s : State) (f : Fields) (c : Ctx) (s1 : State) (r : Want × Xlt) : Bool :=
  let la := localOf r.2.pa
  c.received.isNone && decide (¬ (200 ≤ c.f.d.toNat ∧ c.f.d.toNat < 216)) && !leafStops s1 [r] &&
    accFree (dirtyAll s1 c [r]) c (stores c [r]) &&
    (stores c [r]).all (fun a => isOwn s a.pa && decide (localOf a.pa + a.bytes ≤ 2 ^ 40) && a.memType != 1 &&
      match accState (dirtyAll s1 c [r]) c.g.core a with | .ready => true | _ => false) &&
    (List.range r.1.bytes).all (fun i => !inPool s1 (placeOf s1 (la + i)) && decide (localOf r.2.ptePa + 8 ≤ la + i)) &&
    decide (0 < r.1.bytes) &&
    match exec (.st f) s with
    | .next t => readByte t la != (storeImage c.ty (c.stData r.1.x r.1.lane)).getD 0 0
    | _ => true

/-- The state at the store and what its checks give. -/
def storeFound (s : State) (f : Fields) : Option (Ctx × State × Want × Xlt) :=
  match readyCtx (.st f) s with
  | some c =>
    match checked c.s c anyTarget (c.wants 8) with
    | some (s1, [r]) => some (c, s1, r)
    | _ => none
  | none => none

theorem disordered_misses : ((storeFound disordered zeroStore).any fun e => storeMisses disordered zeroStore e.1 e.2.1 e.2.2) = true := by
  decide +kernel

theorem storeFound_some {s : State} {f : Fields} {c : Ctx} {s1 : State} {r : Want × Xlt} (h : storeFound s f = some (c, s1, r)) :
    readyCtx (.st f) s = some c ∧ checked c.s c anyTarget (c.wants 8) = some (s1, [r]) := by
  unfold storeFound at h
  split at h
  · next c' hc =>
    split at h
    · next s1' r' hr =>
      cases h
      exact ⟨hc, hr⟩
    · cases h
  · cases h

/-- A store that misses contradicts the statement. -/
theorem not_stored_of_misses {s : State} {f : Fields} {c : Ctx} {s1 : State} {r : Want × Xlt} (hc : readyCtx (.st f) s = some c)
    (hr : checked c.s c anyTarget (c.wants 8) = some (s1, [r])) (hm : storeMisses s f c s1 r = true) :
    ¬ Obligations.StoresWriteTheirBytesOnly := by
  intro h
  simp only [storeMisses, Bool.and_eq_true, List.all_eq_true, decide_eq_true_eq, Bool.not_eq_true', List.mem_range, bne_iff_ne,
    Option.isNone_iff_eq_none] at hm
  obtain ⟨⟨⟨⟨⟨⟨⟨hrec, hd⟩, hleaf⟩, hfree⟩, hstores⟩, hbytes⟩, hpos⟩, hmiss⟩ := hm
  obtain ⟨t, ht, -, himage⟩ := (h f s c s1 [r]).1 hc hr hrec hd hleaf hfree fun a ha => by
    obtain ⟨⟨⟨hown, hend⟩, htype⟩, -⟩ := hstores a ha
    exact ⟨hown, hend, htype⟩
  have image := himage r rfl (fun a ha => by
      obtain ⟨-, hready⟩ := hstores a ha
      revert hready
      cases accState (dirtyAll s1 c [r]) c.g.core a <;> simp) (fun i hi => (hbytes i hi).1)
    (fun i hi q hq _ => by
      rw [List.mem_singleton] at hq
      exact .inr (hq ▸ (hbytes i hi).2)) 0 hpos
  rw [ht] at hmiss
  exact bne_iff_ne.mp hmiss image

/-- Refutes O56: nothing in the statement says that the memory table is in its canonical form, and in a table whose keys are
out of order the byte of `disordered` at 2^20 reads 5 after a store of 0. -/
theorem not_storesWriteTheirBytesOnly : ¬ Obligations.StoresWriteTheirBytesOnly := by
  obtain ⟨⟨c, s1, r⟩, hf, hm⟩ := (Option.any_eq_true _ _).mp disordered_misses
  obtain ⟨hc, hr⟩ := storeFound_some hf
  exact not_stored_of_misses hc hr hm

end Sys2Proof.Machine

/-! PROOFS. The states that outcomes carry, and what is said of them (O49, O50). The model's operations answer in types of their
own; the proofs about memory follow each answer through the state in it. -/

namespace Sys2Proof.Machine

/-- The state that an outcome carries, for each type of outcome. -/
def Served.state : Served → State
  | .done s => s
  | .sent s _ => s
  | .wait s _ => s

def Signal.state : Signal → State
  | .done s => s
  | .walk s _ => s
  | .ask s => s

def Acted.state : Acted → State
  | .done s _ _ _ => s
  | .waits s => s

def HandleStore.state : HandleStore → State
  | .done s => s
  | .posted s => s
  | .ask s => s
  | .failed s _ => s

def PhysWrite.state : PhysWrite → State
  | .done s => s
  | .wait s => s
  | .failed s => s

def PhysRead.state : PhysRead → State
  | .ok s _ => s
  | .wait s => s
  | .failed s => s

def Held.state : Held → State
  | .packet s _ _ => s
  | .other s => s

def DepPlan.state : DepPlan → State
  | .ready s _ => s
  | .wait s => s
  | .failed s _ _ => s

def IngestPlan.state : IngestPlan → State
  | .ready s _ => s
  | .wait s => s
  | .fault s _ _ => s

def ResumeCheck.state : ResumeCheck → State
  | .ok s _ => s
  | .trap s _ => s
  | .walk s _ => s
  | .stall s => s

def Body.state : Body → State
  | .done s => s
  | .trap s _ => s
  | .walk s _ => s
  | .stall s => s

/-- Before an instruction's own effect: every state that the gate hands on has the canonical form. -/
def Gate.Wf : Gate → Prop
  | .leave t => Memory.wf t.mem = true
  | .go s c _ => Memory.wf s.mem = true ∧ Memory.wf c.s.mem = true

/-- The step goes on to a state whose memory table is in the canonical form where p holds; p is that the table of the state
before was. -/
def Lands (p : Prop) : Host.Outcome State Fault Refusal → Prop
  | .next t => p → Memory.wf t.mem = true
  | _ => False

theorem lands_next {p : Prop} {t : State} : Lands p (.next t) ↔ (p → Memory.wf t.mem = true) := Iff.rfl

end Sys2Proof.Machine

/-! PROOFS. The functions of the model that leave the memory table as it is (O50), one equation for each, in the order of the
model's files. A function's equation follows from those of the functions it calls, which are in the simp set: branch by branch
where it branches, and along the list where it folds (`foldl_mem`). -/

namespace Sys2Proof.Machine

/-- A fold of steps that leave the memory table as it is leaves it as it is. -/
@[simp] theorem foldl_mem {α : Type} {f : State → α → State} (h : ∀ s a, (f s a).mem = s.mem) (l : List α) (s : State) :
    (l.foldl f s).mem = s.mem :=
  foldl_keeps (P := fun t : State => t.mem = s.mem) (fun t a ht => (h t a).trans ht) l rfl

theorem ite_mem {p : Prop} [Decidable p] {s a b : State} (ha : a.mem = s.mem) (hb : b.mem = s.mem) : (if p then a else b).mem = s.mem := by
  split
  · exact ha
  · exact hb

/-! ### Mem -/

@[simp] theorem settleLate_mem (s : State) (g : Gang) : (settleLate s g).mem = s.mem := rfl
@[simp] theorem failWait_mem (s : State) (rid lane what : Nat) : (failWait s rid lane what).mem = s.mem := rfl
@[simp] theorem addMonitor_mem (s : State) (m : Monitor) : (addMonitor s m).mem = s.mem := by
  simp [addMonitor]
@[simp] theorem storeTime_mem (s : State) (la t : Nat) : (storeTime s la t).mem = s.mem := rfl

@[simp] theorem dropL2_mem (s : State) (la : Nat) : (dropL2 s la).mem = s.mem := by
  unfold dropL2
  split <;> rfl

@[simp] theorem l1Settle_mem (s : State) (core : Option Nat) (pa : Nat) (write : Bool) : (l1Settle s core pa write).mem = s.mem := rfl
@[simp] theorem dropL1_mem (s : State) (pa : Nat) (p : Nat → Bool) : (dropL1 s pa p).mem = s.mem := rfl

@[simp] theorem touchLine_mem (s : State) (core la : Nat) (write : Bool) : (touchLine s core la write).mem = s.mem := by
  unfold touchLine
  split <;> simp

@[simp] theorem State.hear_mem (s : State) (t : Nat) : (State.hear s t).mem = s.mem := rfl
@[simp] theorem State.link_mem (s : State) (core : Nat) : (State.link s core).mem = s.mem := rfl

@[simp] theorem report_mem (s : State) (q : Option Nat) (die : Nat) (rid handle : Option Nat) (r : Report) :
    (report s q die rid handle r).mem = s.mem := by
  unfold report
  split <;> rfl

/-! ### Lines -/

@[simp] theorem setBrass_mem (s : State) (la : Nat) (b : BitVec 32) : (setBrass s la b).mem = s.mem := rfl

@[simp] theorem noteBad_mem (s : State) (die pa : Nat) : (noteBad s die pa).mem = s.mem := by
  unfold noteBad
  split <;> rfl

@[simp] theorem scrubAt_mem (s : State) (pa n : Nat) : (scrubAt s pa n).mem = s.mem := by
  unfold scrubAt
  split <;> simp

@[simp] theorem requestLine_mem (s : State) (die : Nat) (who : ReqFor) (pts pa : Nat) (excl : Bool) (by_ : Nat) :
    (requestLine s die who pts pa excl by_).mem = s.mem := by
  unfold requestLine
  dsimp only
  repeat' split
  all_goals simp

@[simp] theorem askLine_mem (s : State) (die : Nat) (who : ReqFor) (pts pa : Nat) (excl : Bool) (by_ : Nat) :
    (askLine s die who pts pa excl by_).mem = s.mem := by
  unfold askLine
  split <;> simp

@[simp] theorem clearFailed_mem (s : State) (who : ReqFor) (pas : List Nat) : (clearFailed s who pas).mem = s.mem := rfl

@[simp] theorem postMsg_mem (s : State) (who : ReqFor) (kind : Nat) (m : Msg) (src : List Src) (sig : Option (Nat × Nat × Nat)) (dirty : Option Nat) : (postMsg s who kind m src sig dirty).mem = s.mem := by
  unfold postMsg
  dsimp only
  repeat' split
  all_goals simp

@[simp] theorem updCopy_mem (s : State) (die pa : Nat) (h : LineCopy → LineCopy) : (updCopy s die pa h).mem = s.mem := rfl

@[simp] theorem readStamp_mem (s : State) (die pts pa : Nat) (core : Option Nat) : (readStamp s die pts pa core).1.mem = s.mem := by
  unfold readStamp
  repeat' split
  all_goals simp

@[simp] theorem stampRead_mem (s : State) (core pa : Nat) : (stampRead s core pa).mem = s.mem := by
  simp [stampRead]
@[simp] theorem ownedWrite_mem (s : State) (c : LineCopy) (pts pa : Nat) (bs : List Byte) : (ownedWrite s c pts pa bs).1.mem = s.mem := rfl

@[simp] theorem fillL1_mem (s : State) (core pa : Nat) (st : Moesi) : (fillL1 s core pa st).mem = s.mem := by
  unfold fillL1
  dsimp only
  repeat' split
  all_goals simp

@[simp] theorem renewLease_mem (s : State) (die pa ts : Nat) : (renewLease s die pa ts).mem = s.mem := by
  unfold renewLease
  split <;> rfl

@[simp] theorem l1Load_mem (s : State) (core ctx pa n hint : Nat) : (l1Load s core ctx pa n hint).1.mem = s.mem := by
  unfold l1Load
  repeat' split
  all_goals simp

@[simp] theorem dropWindows_mem (s : State) (die : Nat) : (dropWindows s die).mem = s.mem := rfl
@[simp] theorem dropCopy_mem (s : State) (die pa : Nat) : (dropCopy s die pa).mem = s.mem := rfl

/-! ### Xlate -/

@[simp] theorem raisePts_mem (s : State) (who : ReqFor) (t : Nat) : (raisePts s who t).mem = s.mem := by
  unfold raisePts
  repeat' split
  all_goals simp

@[simp] theorem addTlb_mem (s : State) (e : TlbEntry) : (addTlb s e).mem = s.mem := rfl
@[simp] theorem dirtyTlbs_mem (s : State) (ptePa : Nat) : (dirtyTlbs s ptePa).mem = s.mem := rfl

@[simp] theorem askWalk_mem (s : State) (die ctx vpn : Nat) (fw front : Bool) : (askWalk s die ctx vpn fw front).mem = s.mem := by
  unfold askWalk
  split <;> rfl

/-! ### Operands -/

@[simp] theorem State.sees_mem (s : State) (core slot pos l : Nat) (ops : List Nat) : (State.sees s core slot pos l ops).mem = s.mem := by
  unfold State.sees
  split <;> rfl

@[simp] theorem rfPut_mem (s : State) (g : Gang) (k : Nat) (v : W32) : (rfPut s g k v).mem = s.mem := rfl
@[simp] theorem spoil_mem (s : State) (core slot : Nat) (p : Put) : (spoil s core slot p).mem = s.mem := rfl

@[simp] theorem putOne_mem (s : State) (core slot : Nat) (p : Put) : (putOne s core slot p).mem = s.mem := by
  unfold putOne
  split
  · rfl
  · split
    · exact foldl_mem (fun s e => rfPut_mem ..) _ _
    · split
      · rfl
      · split <;> rfl

@[simp] theorem putAll_mem (s : State) (core slot : Nat) (ps : List Put) : (putAll s core slot ps).mem = s.mem := by
  exact foldl_mem (fun s p => by simp) _ _

/-! ### Flags -/

@[simp] theorem raiseOne_mem (s : State) (core slot pos lane : Nat) (f : Flags) : (raiseOne s core slot pos lane f).mem = s.mem := by
  unfold raiseOne
  split <;> rfl

@[simp] theorem raiseAll_mem (s : State) (core slot : Nat) (fs : List (Nat × Nat × Flags)) : (raiseAll s core slot fs).mem = s.mem := by
  simp [raiseAll]

@[simp] theorem vagueWord_mem (core slot pos : Nat) (s : State) (v : Vague) : (vagueWord core slot pos s v).mem = s.mem := by
  unfold vagueWord
  split
  · rfl
  · split
    · rfl
    · exact putOne_mem ..

@[simp] theorem settleVague_mem (s : State) (core slot pos : Nat) (p : Option Nat → Bool) :
    (settleVague s core slot pos p).mem = s.mem := by
  unfold settleVague
  split <;> simp

@[simp] theorem flagFalls_mem (k core slot : Nat) (s : State) (pos : Nat) : (flagFalls k core slot s pos).mem = s.mem := by
  unfold flagFalls
  dsimp only
  repeat' split
  all_goals simp

/-! ### Records -/

@[simp] theorem poolTake_mem (s : State) (a n ctx : Nat) : (poolTake s a n ctx).mem = s.mem := rfl
@[simp] theorem poolFree_mem (s : State) (a : Nat) : (poolFree s a).mem = s.mem := rfl

/-! ### Expansion -/

@[simp] theorem setExp_mem (s : State) (core save : Nat) (h : Expansion → Expansion) : (setExp s core save h).mem = s.mem := rfl
@[simp] theorem freeExpSlot_mem (s : State) (core save : Nat) : (freeExpSlot s core save).mem = s.mem := rfl
@[simp] theorem placeExp_mem (s : State) (core : Nat) (e : Expansion) : (placeExp s core e).mem = s.mem := rfl
@[simp] theorem saveRelease_mem (s : State) (core save : Nat) : (saveRelease s core save).mem = s.mem := by
  simp [saveRelease]

/-! ### Slices -/

@[simp] theorem threadEnded_mem (s : State) (lid : Nat) : (threadEnded s lid).mem = s.mem := rfl

@[simp] theorem tidyGang_mem (s : State) (core slot : Nat) : (tidyGang s core slot).mem = s.mem := by
  unfold tidyGang
  dsimp only
  repeat' split
  all_goals simp

@[simp] theorem formSubs_mem (s : State) (core slot : Nat) (sel : Slice → Option Nat) : (formSubs s core slot sel).mem = s.mem := by
  unfold formSubs
  split <;> simp -implicitDefEqProofs

@[simp] theorem reform_mem (s : State) (core slot : Nat) : (reform s core slot).mem = s.mem := by
  unfold reform
  dsimp only
  repeat' split
  all_goals simp

@[simp] theorem removeSlice_mem (s : State) (core slot pos : Nat) : (removeSlice s core slot pos).mem = s.mem := by
  simp [removeSlice]
@[simp] theorem endSegment_mem (s : State) (core slot pos : Nat) (e : EndInfo) : (endSegment s core slot pos e).mem = s.mem := rfl

@[simp] theorem forceParked_mem (s : State) (core slot : Nat) : (forceParked s core slot).mem = s.mem := by
  unfold forceParked
  split <;> simp -implicitDefEqProofs

@[simp] theorem sweepSlots_mem (s : State) (core : Nat) : (sweepSlots s core).mem = s.mem := rfl

@[simp] theorem reap_mem (s : State) (core slot pos : Nat) : (reap s core slot pos).mem = s.mem := by
  unfold reap
  split
  · rfl
  · split
    · split <;> simp
    · rfl

@[simp] theorem sweepImages_mem (s : State) (gid : Option Nat) : (sweepImages s gid).mem = s.mem := by
  unfold sweepImages
  split <;> simp -implicitDefEqProofs

@[simp] theorem poolFull_mem (s : State) (g : Gang) (x : Slice) : (poolFull s g x).mem = s.mem := rfl

/-! ### Ops -/

@[simp] theorem entryRead_mem (s : State) (die ctx ix : Nat) (e : Entry) : (entryRead s die ctx ix e).mem = s.mem := by
  unfold entryRead
  split
  · simp
  · rfl
  · split <;> simp

@[simp] theorem fireSnapshot_mem (s : State) (src cause tag core pc : Nat) : (fireSnapshot s src cause tag core pc).mem = s.mem := by
  unfold fireSnapshot
  dsimp only
  split <;> simp

@[simp] theorem takeTrap_mem (s : State) (core slot : Nat) (t : TrapInfo) (pos : Nat) : (takeTrap s core slot t pos).mem = s.mem := by
  unfold takeTrap
  dsimp only
  split <;> simp

@[simp] theorem readHandler_mem (s : State) (core ctx : Nat) : (readHandler s core ctx).mem = s.mem := by
  unfold readHandler
  dsimp only
  split <;> simp

@[simp] theorem noteCode_mem (s : State) (die pa : Nat) : (noteCode s die pa).mem = s.mem := by
  unfold noteCode
  dsimp only
  repeat' split
  all_goals simp

@[simp] theorem trapSlices_mem (s : State) (g : Gang) (sub : Nat) (p : Spot) (hits : List Hit) :
    (trapSlices s g sub p hits).mem = s.mem := by
  rw [trapSlices, tidyGang_mem]
  refine foldl_mem (fun s x => ?_) _ _
  split
  · simp
  · split <;> simp

@[simp] theorem addWait_mem (s : State) (rid lane : Nat) (k : WaitKind) : (addWait s rid lane k).mem = s.mem := rfl

@[simp] theorem walkSlices_mem (s : State) (g : Gang) (sub : Nat) (p : Spot) (needs : List Need) :
    (walkSlices s g sub p needs).mem = s.mem := by
  rw [walkSlices, tidyGang_mem]
  refine foldl_mem (fun s x => ?_) _ _
  split
  · rfl
  · simp

@[simp] theorem setFut_mem (s : State) (h : Nat) (k : Fut → Fut) : (setFut s h k).mem = s.mem := rfl

@[simp] theorem observeFut_mem (s : State) (h : Nat) : (observeFut s h).mem = s.mem := by
  unfold observeFut
  split <;> rfl

@[simp] theorem popHead_mem (s : State) (core code : Nat) : (popHead s core code).mem = s.mem := by
  unfold popHead
  dsimp only
  repeat' split
  all_goals simp

@[simp] theorem noteWin_mem (s : State) (g : Gang) (prio key : Nat) : (noteWin s g prio key).mem = s.mem := rfl

@[simp] theorem placeParts_mem (s : State) (core slot key sub new : Nat) (yields : Bool) :
    (placeParts s core slot key sub new yields).mem = s.mem := by
  unfold placeParts
  repeat' split
  all_goals simp -implicitDefEqProofs

@[simp] theorem partSub_mem (s : State) (core slot sub : Nat) : (partSub s core slot sub).mem = s.mem := by
  unfold partSub
  split <;> simp -implicitDefEqProofs

@[simp] theorem retire_mem (s : State) (c : Ctx) (ilen : Nat) : (retire s c ilen).mem = s.mem := by
  unfold retire
  dsimp only
  repeat' split
  all_goals simp

/-! ### Access -/

@[simp] theorem noteStore_mem (s : State) (g : Gang) (a : Acc) : (noteStore s g a).mem = s.mem := by
  unfold noteStore
  dsimp only
  split <;> simp

@[simp] theorem deviceWrite_mem (s : State) (who : Agent) (la : Nat) (bs : List Byte) : (deviceWrite s who la bs).mem = s.mem := rfl
@[simp] theorem seekPut_mem (s : State) (q : SeekWord) : (seekPut s q).mem = s.mem := rfl

@[simp] theorem coreRead_mem (s : State) (g : Gang) (a : Acc) : (coreRead s g a).1.mem = s.mem := by
  unfold coreRead
  split <;> simp

@[simp] theorem atmTo_mem (s : State) (core : Nat) (as : List Acc) (reply : Bool) (src : List Src) :
    (atmTo s core as reply src).mem = s.mem := by
  unfold atmTo
  repeat' split
  all_goals simp

@[simp] theorem sendElem_mem (g : Gang) (at_ : At) (p : Perf) (a : Acc) (code : Nat) (rest : List Acc) :
    (sendElem g at_ p a code rest).s.mem = p.s.mem := by
  simp [sendElem]

@[simp] theorem sendLine_mem (g : Gang) (at_ : At) (p : Perf) (a : Acc) (rest : List Acc) : (sendLine g at_ p a rest).s.mem = p.s.mem := by
  simp [sendLine]

@[simp] theorem failAll_mem (core : Nat) (as : List Acc) (s : State) : (failAll core as s).1.mem = s.mem := by
  induction as generalizing s with
  | nil => rfl
  | cons a r ih =>
    refine (ih _).trans ?_
    split <;> simp

@[simp] theorem askAccs_mem (s : State) (core slot : Nat) (as : List Acc) : (askAccs s core slot as).mem = s.mem := by
  refine foldl_mem (fun s a => ?_) _ _
  split <;> simp

@[simp] theorem issueLater_mem (s : State) (c : Ctx) (counted : Bool) (poss : List Nat) (l : Later) :
    (issueLater s c counted poss l).mem = s.mem := by
  unfold issueLater
  dsimp only
  repeat' split
  all_goals simp -implicitDefEqProofs

@[simp] theorem noteFailure_mem (s : State) (core slot : Nat) (at_ : At) (failed : List (Nat × Nat × Nat)) :
    (noteFailure s core slot at_ failed).mem = s.mem := by
  simp -implicitDefEqProofs [noteFailure]

@[simp] theorem writeResult_mem (s : State) (q : Pend) : (writeResult s q).mem = s.mem := by
  unfold writeResult
  refine (foldl_mem (fun s p => by simp) _ _).trans ?_
  rw [noteFailure_mem]
  have h : ∀ t : State, t.mem = s.mem → (match q.flag with
      | some k => q.poss.foldl (flagFalls k q.core q.slot) t
      | none => t).mem = s.mem := fun t ht => by
    split
    · exact (foldl_mem (fun s p => by simp) _ _).trans ht
    · exact ht
  refine h _ ((foldl_mem (fun s e => by simp) _ _).trans ?_)
  rw [raiseAll_mem]
  exact foldl_mem (fun s w => by simp) _ _

@[simp] theorem dropPost_mem (s : State) (p : Post) : (dropPost s p).mem = s.mem := by
  unfold dropPost
  dsimp only
  repeat' split
  all_goals simp

@[simp] theorem failThread_mem (core addr : Nat) (s : State) (t : Src) : (failThread core addr s t).mem = s.mem := by
  unfold failThread
  dsimp only
  split <;> simp

@[simp] theorem failDirty_mem (core page : Nat) (s : State) (t : Src) : (failDirty core page s t).mem = s.mem := rfl

@[simp] theorem failPost_mem (s : State) (p : Post) : (failPost s p).mem = s.mem := by
  unfold failPost
  dsimp only
  repeat' split
  all_goals simp -implicitDefEqProofs

@[simp] theorem ackPost_mem (s : State) (p : Post) (time : Nat) : (ackPost s p time).mem = s.mem := by
  unfold ackPost
  repeat' split
  all_goals simp

/-! ### Futures -/

@[simp] theorem waitSlice_mem (s : State) (c : Ctx) (pos : Nat) (kind : EventKind) (subject dest dregs : Nat) (waits : List (Nat × WaitKind)) : (waitSlice s c pos kind subject dest dregs waits).mem = s.mem := by
  simp -implicitDefEqProofs [waitSlice]
@[simp] theorem takeFut_mem (s : State) (die entry ctx lid op : Nat) (discard : Bool) :
    (takeFut s die entry ctx lid op discard).1.mem = s.mem := rfl

@[simp] theorem fireHandle_mem (s : State) (h status : Nat) : (fireHandle s h status).mem = s.mem := by
  have hs : ((s.waits.filter fun w => w.kind.onHandle h).foldl (fun s w => match w.kind with
      | .futStatus _ => fireWait s w.rid w.lane [BitVec.ofNat 32 status] (opOfHandle s h)
      | .fut _ => fireWait s w.rid w.lane [BitVec.ofNat 32 h] (opOfHandle s h)
      | _ => fireWait s w.rid w.lane []) s).mem = s.mem := foldl_mem (fun s w => by split <;> rfl) _ _
  unfold fireHandle
  dsimp only
  split
  · exact hs
  · rw [observeFut_mem]
    exact hs

@[simp] theorem completeFut_mem (s : State) (die h code progress : Nat) (cause : Cause) (addr : Nat) :
    (completeFut s die h code progress cause addr).mem = s.mem := by
  unfold completeFut
  dsimp only
  repeat' split
  all_goals simp

@[simp] theorem startedOp_mem (c : Ctx) (s : State) (op : EngineOp) (entry : Nat) : (startedOp c s op entry).mem = s.mem := by
  unfold startedOp
  dsimp only
  split <;> simp

@[simp] theorem State.setRing_mem (s : State) (core k : Nat) (f : Ring → Ring) : (State.setRing s core k f).mem = s.mem := rfl

theorem ringAcquire_mem {s : State} {core k : Nat} {consumer : Bool} {t : State × Nat} (h : ringAcquire s core k consumer = some t) :
    t.1.mem = s.mem := by
  unfold ringAcquire at h
  dsimp only at h
  split at h
  · cases h
  · cases h
    dsimp only
    rw [State.setRing_mem]
    split
    · exact foldl_mem (fun s e => by simp) _ _
    · rfl

@[simp] theorem ringServe_mem (core k : Nat) (consumer : Bool) (rids : List Nat) (s : State) :
    (ringServe core k consumer rids s).mem = s.mem := by
  induction rids generalizing s with
  | nil => rfl
  | cons rid rest ih =>
    unfold ringServe
    split
    · rfl
    next t st h =>
      refine (ih _).trans ((foldl_mem (fun s w => fireWait_mem ..) _ _).trans ?_)
      exact ringAcquire_mem h

@[simp] theorem giveAll_mem (s : State) (c : Ctx) (v : Nat) : (giveAll s c v).mem = s.mem := by
  simp [giveAll]

@[simp] theorem seeHandle_mem (c : Ctx) (s : State) (e : Slice × Nat) : (seeHandle c s e).mem = s.mem := by
  unfold seeHandle
  dsimp only
  split <;> simp

/-! ### Jobs -/

@[simp] theorem engineRead_mem (s : State) (o : EngineOp) (pa n : Nat) : (engineRead s o pa n).1.mem = s.mem := by
  simp [engineRead]
@[simp] theorem engineWalk_mem (s : State) (o : EngineOp) (va : Nat) : (engineWalk s o va).mem = s.mem := by
  simp [engineWalk]
@[simp] theorem askRead_mem (s : State) (o : EngineOp) (row : Nat) (u : Nat × Nat × Nat) (pa n : Nat) :
    (askRead s o row u pa n).mem = s.mem := rfl
@[simp] theorem takeRead_mem (s : State) (o : EngineOp) (row off pa : Nat) (bs : List Byte) (pts : Nat) :
    (takeRead s o row off pa bs pts).mem = s.mem := rfl

/-! ### Memory -/

@[simp] theorem notClean_mem (s : State) (core slot : Nat) (ps : List Nat) : (notClean s core slot ps).mem = s.mem := rfl

/-! ### Engine -/

@[simp] theorem seeded_mem (c : Ctx) (e : Slice × Nat) : (seeded c e).mem = c.s.mem := by
  unfold seeded
  split <;> rfl

@[simp] theorem reserveEntry_mem (s : State) (o : EngineOp) : (reserveEntry s o).mem = s.mem := by
  unfold reserveEntry
  split <;> rfl

@[simp] theorem reserveNow_mem (s : State) : (reserveNow s).mem = s.mem := by
  unfold reserveNow
  split
  · rfl
  · exact foldl_mem (fun s q => by split <;> simp) _ _

/-! ### Fibre -/

@[simp] theorem spoilFibre_mem (s : State) (core slot pos lane k : Nat) : (spoilFibre s core slot pos lane k).mem = s.mem := rfl
@[simp] theorem putFibres_mem (s : State) (c : Ctx) (k : Nat) (zs : List (Nat × Nat × Fibre)) : (putFibres s c k zs).mem = s.mem := by
  simp -implicitDefEqProofs [putFibres]

@[simp] theorem readCrd_mem (c : Ctx) (a : Acc) (s : State) : (readCrd c a s).1.mem = s.mem := by
  unfold readCrd
  dsimp only
  repeat' split
  all_goals simp

@[simp] theorem seeksDone_mem (c : Ctx) (s : State) : (seeksDone c s).mem = s.mem := rfl

@[simp] theorem advanced_mem (c : Ctx) (r : State × List ((Slice × Nat) × Seek)) : (advanced c r).mem = r.1.mem := by
  simp only [advanced, issueLater_mem, seeksDone_mem]
  exact foldl_mem (fun s e => by simp) _ _

@[simp] theorem zvalRest_mem (c : Ctx) (accs : List Acc) (s : State) : (zvalRest c accs s).mem = s.mem := by
  unfold zvalRest
  dsimp only
  split <;> simp

/-! ### Matrix -/

@[simp] theorem State.setResv_mem (s : State) (core r : Nat) (h : Resv → Resv) : (State.setResv s core r h).mem = s.mem := rfl
@[simp] theorem bindAll_mem (s : State) (c : Ctx) (m : Nat) (b : Option Nat) : (bindAll s c m b).mem = s.mem := by
  simp -implicitDefEqProofs [bindAll]

/-! ### MatrixUnit -/

@[simp] theorem settleResv_mem (s : State) (core k : Nat) : (settleResv s core k).mem = s.mem := by
  unfold settleResv
  split <;> rfl

@[simp] theorem dropOp_mem (s : State) (id : Nat) : (dropOp s id).mem = s.mem := rfl
@[simp] theorem countTerms_mem (s : State) (core : Nat) (n : TermCounts) : (countTerms s core n).mem = s.mem := rfl

/-! ### EngineSteps -/

@[simp] theorem malformed_mem (s : State) (o : EngineOp) : (malformed s o).mem = s.mem := rfl
@[simp] theorem State.setCompact_mem (s : State) (core : Nat) (h : Compact → Compact) : (State.setCompact s core h).mem = s.mem := rfl
@[simp] theorem tokenFail_mem (s : State) (o : EngineOp) (code : Nat) (cause : Cause) (addr : Nat) :
    (tokenFail s o code cause addr).mem = s.mem := rfl

@[simp] theorem flushTurn_mem (s : State) (o : EngineOp) : (flushTurn s o).mem = s.mem := by
  unfold flushTurn
  dsimp only
  repeat' split
  all_goals simp

@[simp] theorem addSign_mem (s : State) (o : EngineOp) (key n : Nat) : (addSign s o key n).mem = s.mem := by
  unfold addSign
  split <;> rfl

@[simp] theorem fillEntry_mem (s : State) (o : EngineOp) (ws : List W32) : (fillEntry s o ws).mem = s.mem := rfl

@[simp] theorem startTile_mem (s : State) (core : Nat) : (startTile s core).mem = s.mem := by
  unfold startTile
  dsimp only
  split
  · split
    next f t stage hf ha =>
      have ht : t.mem = s.mem := by
        split at ha
        · exact ringAcquire_mem ha
        · cases ha
      split <;> simp [ht]
    · rfl
  · rfl

/-! ### Clause -/

@[simp] theorem fetchTraps_mem (s : State) (g : Gang) (u : Sub) (hdr : Nat) (xs : List (Slice × Cause)) (addr : Nat) :
    (fetchTraps s g u hdr xs addr).mem = s.mem := by
  simp [fetchTraps]

@[simp] theorem fetchTrap_mem (s : State) (g : Gang) (u : Sub) (hdr : Nat) (cause : Cause) (addr : Nat) :
    (fetchTrap s g u hdr cause addr).mem = s.mem := by
  simp [fetchTrap]

@[simp] theorem fetchWalk_mem (s : State) (g : Gang) (u : Sub) (hdr va : Nat) : (fetchWalk s g u hdr va).mem = s.mem := by
  unfold fetchWalk
  dsimp only
  split <;> simp

@[simp] theorem beginClause_mem (s : State) (g : Gang) (u : Sub) (hdr : Nat) (h : W64) (ws : List W64) :
    (beginClause s g u hdr h ws).mem = s.mem := rfl

/-! ### Control -/

@[simp] theorem applySlices_mem (s : State) (c : Ctx) (xs : List Slice) : (applySlices s c xs).mem = s.mem := by
  simp -implicitDefEqProofs [applySlices]
@[simp] theorem Ctx.entriesRead_mem (c : Ctx) (look : Slice → Nat → Entry) : (Ctx.entriesRead c look).mem = c.s.mem := by
  simp [Ctx.entriesRead]
@[simp] theorem noteYield_mem (s : State) (g : Gang) (sub : Nat) : (noteYield s g sub).mem = s.mem := rfl

/-! ### Bins -/

@[simp] theorem markFailure_mem (s : State) (m : RecMeta) (w : Wait) : (markFailure s m w).mem = s.mem := by
  unfold markFailure
  dsimp only
  split <;> simp

@[simp] theorem portStore_mem (s : State) (core port popped off h : Nat) : (portStore s core port popped off h).mem = s.mem := rfl
@[simp] theorem loadRegs_mem (s : State) (g : Gang) (m : RecMeta) (pos : Nat) : (loadRegs s g m pos).mem = s.mem := rfl

@[simp] theorem scrubRecord_mem (s : State) (m : RecMeta) : (scrubRecord s m).mem = s.mem := by
  unfold scrubRecord
  split <;> simp

@[simp] theorem createGang_mem (s : State) (core : Nat) (g : Group) (l : Launch) (slot base : Nat) :
    (createGang s core g l slot base).mem = s.mem := rfl

/-! ### MemSys -/

@[simp] theorem feWait_mem (c : Ctx) (waits : List Acc) (s : State) (pos : Nat) : (feWait c waits s pos).mem = s.mem := by
  unfold feWait
  split <;> simp

@[simp] theorem feFailed_mem (c : Ctx) (s : State) (bad : List (Want × Xlt)) : (feFailed c s bad).mem = s.mem := by
  unfold feFailed
  split <;> rfl

@[simp] theorem registerMon_mem (s : State) (core ctx rid : Nat) (w : Watch) : (registerMon s core ctx rid w).mem = s.mem := by
  unfold registerMon
  dsimp only
  repeat' split
  all_goals simp

@[simp] theorem watched_mem (c : Ctx) (s : State) (d dregs : Nat) (ws : List Watch) : (watched c s d dregs ws).mem = s.mem := by
  rw [watched, clearFailed_mem]
  refine foldl_mem (fun s p => ?_) _ _
  split
  · rfl
  · exact (foldl_mem (fun s w => by simp) _ _).trans (by simp)

@[simp] theorem fenceHeld_mem (c : Ctx) (s : State) (strict : Bool) (fenced : List (Nat × Nat × Nat × Nat)) :
    (fenceHeld c s strict fenced).mem = s.mem := by
  unfold fenceHeld
  split
  · rfl
  · split
    · rfl
    · simp

@[simp] theorem invalidateLine_mem (s : State) (l : Nat) : (invalidateLine s l).mem = s.mem := rfl

@[simp] theorem writeBack_mem (s : State) (die : Nat) (who : ReqFor) (line : Nat) (drop : Bool) (src : List Src) :
    (writeBack s die who line drop src).mem = s.mem := by
  unfold writeBack
  repeat' split
  all_goals simp

@[simp] theorem cleanLine_mem (core : Nat) (drop : Bool) (s : State) (t : Src) (l : Nat) : (cleanLine core drop s t l).mem = s.mem := by
  unfold cleanLine
  split
  · split <;> rfl
  · split <;> simp

@[simp] theorem setMside_mem (s : State) (la : Nat) (v : Bool) : (setMside s la v).mem = s.mem := by
  unfold setMside
  split <;> rfl

@[simp] theorem msLine_mem (core : Nat) (v : Bool) (s : State) (t : Src) (l : Nat) : (msLine core v s t l).mem = s.mem := by
  simp [msLine]
@[simp] theorem repairAt_mem (core : Nat) (t : Src) (s : State) (l : Nat) (bs : List Byte) : (repairAt core t s l bs).mem = s.mem := by
  simp [repairAt]

@[simp] theorem readSource_mem (g : Gang) (s : State) (as : List Acc) : (readSource g s as).1.mem = s.mem := by
  refine foldl_keeps (P := fun r : State × List Byte => r.1.mem = s.mem) (fun r a h => ?_) as (b := (s, [])) rfl
  exact (coreRead_mem r.1 g a).trans h

@[simp] theorem repairLane_mem (c : Ctx) (to_ from_ : List (Want × Xlt)) (s : State) (e : Slice × Nat) :
    (repairLane c to_ from_ s e).mem = s.mem := by
  simp [repairLane]

@[simp] theorem repaired_mem (c : Ctx) (s : State) (to_ from_ : List (Want × Xlt)) : (repaired c s to_ from_).mem = s.mem := by
  unfold repaired
  dsimp only
  split <;> simp

@[simp] theorem ldtLoaded_mem (c : Ctx) (s : State) (rs : List (Want × Xlt)) : (ldtLoaded c s rs).mem = s.mem := by
  unfold ldtLoaded
  dsimp only
  split <;> simp

@[simp] theorem portFire_mem (s : State) (core port : Nat) (v : W32) : (portFire s core port v).mem = s.mem := by
  simp -implicitDefEqProofs [portFire]

/-! ### Parallel -/

@[simp] theorem plainLeave_mem (c : Ctx) (s : State) (poss : List Nat) : (plainLeave c s poss).mem = s.mem := by
  simp -implicitDefEqProofs [plainLeave]
@[simp] theorem placeTasks_mem (s : State) (die : Nat) (ts : List Task) : (placeTasks s die ts).mem = s.mem := by
  simp [placeTasks]
@[simp] theorem givePred_mem (c : Ctx) (s : State) (x : Slice) (m : BitVec 4) (v : Bool) : (givePred c s x m v).mem = s.mem := by
  simp [givePred]
@[simp] theorem State.setBarrier_mem (s : State) (core b : Nat) (h : Barrier → Barrier) : (State.setBarrier s core b h).mem = s.mem := rfl
@[simp] theorem barrierFire_mem (s : State) (core b phase : Nat) : (barrierFire s core b phase).mem = s.mem := by
  simp -implicitDefEqProofs [barrierFire]

@[simp] theorem arriveOne_mem (s : State) (core b : Nat) : (arriveOne s core b).1.mem = s.mem := by
  unfold arriveOne
  dsimp only
  split <;> simp

@[simp] theorem arriveMany_mem (core b n : Nat) (s : State) : (arriveMany core b n s).1.mem = s.mem := by
  induction n generalizing s with
  | zero => rfl
  | succ n ih => exact (ih _).trans (arriveOne_mem ..)

/-! ### TaskFeed -/

@[simp] theorem dropPending_mem (s : State) (rid : Nat) : (dropPending s rid).mem = s.mem := rfl

/-! ### Walks -/

@[simp] theorem stampWalk_mem (s : State) (w : Walk) (lines : List Nat) : (stampWalk s w lines).mem = s.mem := by
  exact foldl_keeps (P := fun r : State × Nat => r.1.mem = s.mem) (fun r l h => (readStamp_mem ..).trans h) lines rfl
@[simp] theorem fillCache_mem (w : Walk) (s : State) (line : Nat) : (fillCache w s line).mem = s.mem := rfl

@[simp] theorem failWalk_mem (s : State) (w : Walk) (code line : Nat) (lines : List Nat) : (failWalk s w code line lines).mem = s.mem := by
  unfold failWalk
  dsimp only
  split <;> simp -implicitDefEqProofs

@[simp] theorem clearFront_mem (s : State) (die ctx va : Nat) : (clearFront s die ctx va).mem = s.mem := rfl

@[simp] theorem faultWritten_mem (s : State) (queue : Nat) (e : FaultEntry) : (faultWritten s queue e).mem = s.mem := by
  unfold faultWritten
  dsimp only
  split <;> simp -implicitDefEqProofs

/-! ### Launches -/

@[simp] theorem frontStamp_mem (s : State) (pa : Nat) : (frontStamp s pa).mem = s.mem := by
  simp [frontStamp]
@[simp] theorem forgetLaunch_mem (s : State) (l : Launch) : (forgetLaunch s l).mem = s.mem := rfl

@[simp] theorem addGroup_mem (l : Launch) (s : State) (gi : Nat) : (addGroup l s gi).mem = s.mem := by
  unfold addGroup
  dsimp only
  split <;> simp

@[simp] theorem beginGroups_mem (s : State) (l : Launch) : (beginGroups s l).mem = s.mem := by
  simp [beginGroups]

@[simp] theorem reserveHere_mem (s : State) (node key ctx i : Nat) (data : List Byte) :
    (reserveHere s node key ctx i data).1.mem = s.mem := by
  unfold reserveHere
  dsimp only
  split <;> simp -implicitDefEqProofs

@[simp] theorem releasePart_mem (s : State) (l : Launch) : (releasePart s l).mem = s.mem := rfl

@[simp] theorem tellPart_mem (l : Launch) (arg : Nat) (s : State) (e : PartSt × Nat) : (tellPart l arg s e).mem = s.mem := by
  unfold tellPart
  dsimp only
  repeat' split
  all_goals simp

@[simp] theorem startReserve_mem (s : State) (l : Launch) (ps : List PartSt) : (startReserve s l ps).mem = s.mem := by
  simp [startReserve]

@[simp] theorem registerDep_mem (l : Launch) (s : State) (e : Nat × Nat) : (registerDep l s e).mem = s.mem := by
  unfold registerDep
  split <;> simp

/-! ### Queues -/

@[simp] theorem keepPeers_mem (s : State) (q cons prod : Nat) : (keepPeers s q cons prod).mem = s.mem := rfl

@[simp] theorem watchWake_mem (s : State) (q pa last : Nat) : (watchWake s q pa last).mem = s.mem := by
  unfold watchWake
  repeat' split
  all_goals simp

@[simp] theorem addLaunch_mem (s : State) (l : Launch) : (addLaunch s l).mem = s.mem := rfl

/-! ### Preempt -/

@[simp] theorem moveWaits_mem (s : State) (gid core : Nat) (f h : Nat → Nat) : (moveWaits s gid core f h).mem = s.mem := rfl
@[simp] theorem unitDone_mem (s : State) (die gid method : Nat) : (unitDone s die gid method).mem = s.mem := rfl
@[simp] theorem migrateHere_mem (s : State) (die ctx : Nat) : (migrateHere s die ctx).mem = s.mem := rfl
@[simp] theorem spoilResvs_mem (s : State) (core : Nat) (rs : List Resv) : (spoilResvs s core rs).mem = s.mem := rfl

/-! ### Abort -/

@[simp] theorem dropLaneWaits_mem (s : State) (rid : Nat) (m : BitVec 4) : (dropLaneWaits s rid m).mem = s.mem := rfl
@[simp] theorem cancelOps_mem (s : State) (p : EngineOp → Bool) : (cancelOps s p).mem = s.mem := rfl
@[simp] theorem dropTasks_mem (s : State) (p : Task → Bool) : (dropTasks s p).mem = s.mem := by
  simp -implicitDefEqProofs [dropTasks]

@[simp] theorem endPart_mem (s : State) (l : Launch) : (endPart s l).mem = s.mem := by
  unfold endPart
  dsimp only
  repeat' split
  all_goals simp

/-! ### Firmware -/

@[simp] theorem mbAnswer_mem (s : State) (err : Bool) : (mbAnswer s err).mem = s.mem := rfl
@[simp] theorem removeContext_mem (s : State) (ctx : Nat) : (removeContext s ctx).mem = s.mem := rfl
@[simp] theorem setPrectl_mem (s : State) (ctx bound : Nat) (resume : Bool) : (setPrectl s ctx bound resume).mem = s.mem := rfl
@[simp] theorem setMaint_mem (s : State) (v : Bool) : (setMaint s v).mem = s.mem := rfl

/-! ### Registers -/

@[simp] theorem putDsched_mem (s : State) (die v : Nat) : (putDsched s die v).mem = s.mem := by
  unfold putDsched
  split <;> rfl

@[simp] theorem putHome_mem (s : State) (fw : Bool) (k reg : Nat) (w : RegWrite) : (putHome s fw k reg w).mem = s.mem := by
  unfold putHome
  repeat' split
  all_goals simp

@[simp] theorem putPrectl_mem (s : State) (die : Nat) (w : RegWrite) : (putPrectl s die w).mem = s.mem := by
  unfold putPrectl
  dsimp only
  split <;> simp

@[simp] theorem putShootdown_mem (s : State) (off : Nat) (w : RegWrite) : (putShootdown s off w).mem = s.mem := by
  unfold putShootdown
  dsimp only
  repeat' split
  all_goals simp

@[simp] theorem putSnap_mem (s : State) (off : Nat) (w : RegWrite) : (putSnap s off w).mem = s.mem := by
  unfold putSnap
  repeat' split
  all_goals simp

@[simp] theorem putMailbox_mem (s : State) (off : Nat) (w : RegWrite) : (putMailbox s off w).mem = s.mem := by
  unfold putMailbox
  dsimp only
  repeat' split
  all_goals simp

@[simp] theorem putStream_mem (s : State) (off : Nat) (w : RegWrite) : (putStream s off w).mem = s.mem := by
  unfold putStream
  extract_lets i v t
  have ht : t.mem = s.mem := State.setStream_mem ..
  clear_value i v t
  simp only [apply_ite State.mem, ht, ite_self]

@[simp] theorem putByFirmware_mem (s : State) (off : Nat) (w : RegWrite) : (putByFirmware s off w).mem = s.mem := by
  unfold putByFirmware
  exact ite_mem (putDsched_mem ..) (ite_mem (State.setDie_mem ..) (ite_mem (putShootdown_mem ..) (ite_mem (putPrectl_mem ..)
    (ite_mem rfl (ite_mem rfl (ite_mem rfl (ite_mem rfl (ite_mem rfl (ite_mem rfl (ite_mem rfl rfl))))))))))

@[simp] theorem putRegister_mem (s : State) (w : RegWrite) : (putRegister s w).mem = s.mem := by
  unfold putRegister
  extract_lets off fw v
  clear_value off v
  simp only [apply_ite State.mem, putHome_mem, putSnap_mem, putStream_mem, putMailbox_mem, putByFirmware_mem, ite_self]

/-! ### Homes -/

@[simp] theorem respond_mem (s : State) (kind : Nat) (m : Msg) (h : Msg → Msg) (bare : Bool) : (respond s kind m h bare).mem = s.mem := by
  unfold respond
  repeat' split
  all_goals simp

@[simp] theorem nack_mem (s : State) (m : Msg) (bare : Bool) (reason : Nat) : (nack s m bare reason).mem = s.mem := by
  simp [nack]
@[simp] theorem dataTo_mem (s : State) (m : Msg) (h : Msg → Msg) : (dataTo s m h).mem = s.mem := by
  simp [dataTo]
@[simp] theorem ack_mem (s : State) (m : Msg) (arg time : Nat) (bare : Bool) : (ack s m arg time bare).mem = s.mem := by
  simp [ack]
@[simp] theorem serveMonitor_mem (s : State) (m : Msg) : (serveMonitor s m).mem = s.mem := by
  simp [serveMonitor]
@[simp] theorem holdItem_mem (s : State) (line kind : Nat) (m : Msg) : (holdItem s line kind m).mem = s.mem := rfl
@[simp] theorem supply_mem (s : State) (m : Msg) (h : Msg → Msg) : (supply s m h).mem = s.mem := by
  simp [supply]

@[simp] theorem evictLine_mem (s : State) (pa : Nat) : (evictLine s pa).mem = s.mem := by
  unfold evictLine
  dsimp only
  repeat' split
  all_goals simp

/-! ### Fabric -/

@[simp] theorem dropReq_mem (s : State) (id : Nat) : (dropReq s id).mem = s.mem := rfl
@[simp] theorem mapSent_mem (s : State) (id : Nat) (h : Pend → List Acc → Pend) : (mapSent s id h).mem = s.mem := rfl

@[simp] theorem failAsk_mem (s : State) (op req : Nat) : (failAsk s op req).mem = s.mem := by
  unfold failAsk
  repeat' split
  all_goals simp

@[simp] theorem takeLine_mem (s : State) (r : Req) (m : Msg) : (takeLine s r m).mem = s.mem := by
  unfold takeLine
  split <;> simp

@[simp] theorem sentSees_mem (s : State) (id : Nat) : (sentSees s id).mem = s.mem := by
  simp [sentSees]

@[simp] theorem directData_mem (s : State) (r : Req) (m : Msg) : (directData s r m).mem = s.mem := by
  unfold directData
  repeat' split
  all_goals simp

@[simp] theorem atomAnswer_mem (s : State) (r : Req) (m : Msg) : (atomAnswer s r m).mem = s.mem := by
  unfold atomAnswer
  split <;> simp

@[simp] theorem threadLeaves_mem (node : Nat) (s : State) (lid : Nat) : (threadLeaves node s lid).mem = s.mem := by
  unfold threadLeaves
  repeat' split
  all_goals simp

@[simp] theorem proxyFor_mem (s : State) (ctx n : Nat) (fw : Bool) (ws : List Nat) : (proxyFor s ctx n fw ws).1.mem = s.mem := by
  unfold proxyFor
  dsimp only
  repeat' split
  all_goals simp

@[simp] theorem proxies_mem (ctx live : Nat) (fw : Bool) (tail : List Nat) (s : State) : (proxies ctx live fw tail s).1.mem = s.mem := by
  refine foldl_keeps (P := fun r : State × List Nat => r.1.mem = s.mem) (fun r k h => ?_) _ rfl
  dsimp only
  split
  · exact h
  · exact (proxyFor_mem ..).trans h

@[simp] theorem awayReport_mem (s : State) (m : Msg) : (awayReport s m).mem = s.mem := by
  unfold awayReport
  extract_lets n on t
  have ht : t.mem = s.mem := foldl_mem (fun s a => by simp) _ _
  clear_value t
  split
  · exact ht
  · split
    · exact ht
    · extract_lets u
      have hu : u.mem = s.mem := ht
      clear_value u
      split
      · simp [hu]
      · exact hu

/-! ### Ingest -/

@[simp] theorem streamFire_mem (s : State) (i : Nat) (v : W32) : (streamFire s i v).mem = s.mem := by
  exact foldl_mem (fun s core => foldl_mem (fun s p => portFire_mem ..) _ _) _ _

@[simp] theorem shutQueue_mem (s : State) (i : Nat) : (shutQueue s i).mem = s.mem := by
  unfold shutQueue
  dsimp only
  split <;> simp

@[simp] theorem endFrame_mem (s : State) (i : Nat) (f : Frame) : (endFrame s i f).mem = s.mem := by
  simp [endFrame]

@[simp] theorem pushEntryOf_mem (s : State) (i : Nat) (f : Frame) (ws : List W32) : (pushEntryOf s i f ws).mem = s.mem := by
  unfold pushEntryOf
  dsimp only
  split <;> simp

@[simp] theorem pushReady_mem (i seq : Nat) (s : State) (e : Nat × List W32) : (pushReady i seq s e).mem = s.mem := by
  unfold pushReady
  split
  · split <;> simp
  · rfl

@[simp] theorem dropFrame_mem (s : State) (i : Nat) (f : Frame) (cause : Cause) (va : Nat) : (dropFrame s i f cause va).mem = s.mem := by
  simp [dropFrame]
@[simp] theorem clearIngest_mem (s : State) (i : Nat) : (clearIngest s i).mem = s.mem := rfl

/-! ### Device -/

@[simp] theorem setPhase_mem (s : State) (p : Phase) (err : Nat) : (setPhase s p err).mem = s.mem := rfl

/-! ### Expand -/

@[simp] theorem takeItem_mem (core : Nat) (s : State) (i : Item) : (takeItem core s i).mem = s.mem := rfl
@[simp] theorem bindGang_mem (c : Ctx) (e : Expansion) (s : State) : (bindGang c e s).mem = s.mem := by
  simp -implicitDefEqProofs [bindGang]

@[simp] theorem dealLane_mem (c : Ctx) (s : State) (q : Slice × Nat) (save : Nat) : (dealLane c s q save).mem = s.mem := by
  unfold dealLane
  dsimp only
  repeat' split
  all_goals simp

@[simp] theorem dealAll_mem (c : Ctx) (saveOf : Slice → Nat) (s : State) (bad : List Nat) : (dealAll c saveOf s bad).mem = s.mem := by
  simp [dealAll]

/-! ### Moves -/

@[simp] theorem badWord_mem (s : State) (g : Gang) (sub : Nat) (r : Run) : (badWord s g sub r).mem = s.mem := by
  unfold badWord
  dsimp only
  split <;> simp

end Sys2Proof.Machine

/-! PROOFS. The functions of the model that write memory keep the table in its canonical form (O50). All writing is done by
`tabPut` and the operations on it that the laws of `Mem` speak of; each function below passes the form on from the functions it
calls. A function whose result is not a state but a type with a state in it is followed through that state (`Served.state` and
the like). -/

namespace Sys2Proof.Machine

/-- A step that may not be possible keeps the form where the step itself does. -/
theorem getD_wf {o : Option State} {s : State} (ho : ∀ t, o = some t → Memory.wf t.mem = true) (h : Memory.wf s.mem = true) :
    Memory.wf (o.getD s).mem = true := by
  cases o with
  | none => exact h
  | some t => exact ho t rfl

/-! ### Access -/

@[simp] theorem sendRead_mem (g : Gang) (p : Perf) (a : Acc) (r : List Acc) : (sendRead g p a r).1.s.mem = p.s.mem := by
  unfold sendRead
  dsimp only
  split <;> rfl

theorem nacked_wf {s : State} (m : Msg) (up : Bool) (code : Nat) (h : Memory.wf s.mem = true) :
    Memory.wf (Served.done (nack s m up code)).state.mem = true := by
  show Memory.wf (nack s m up code).mem = true
  rwa [nack_mem]

/-- A fold of steps that keep the canonical form keeps it. -/
theorem foldl_wf {α : Type} {f : State → α → State} {l : List α} {s : State}
    (hf : ∀ s a, Memory.wf s.mem = true → Memory.wf (f s a).mem = true)
    (h : Memory.wf s.mem = true) : Memory.wf (l.foldl f s).mem = true :=
  foldl_keeps (P := fun t : State => Memory.wf t.mem = true) hf l h

theorem wf_ite {p : Prop} [Decidable p] {a b : State} :
    Memory.wf (if p then a else b).mem = if p then Memory.wf a.mem else Memory.wf b.mem :=
  apply_ite (fun s : State => Memory.wf s.mem) p a b

/-- The form of the state in a pair that has been taken apart. -/
theorem fst_wf {α : Type} {p : State × α} {t : State} {a : α} (h : p = (t, a)) (hp : Memory.wf p.1.mem = true) : Memory.wf t.mem = true := by
  subst h
  exact hp

/-! ### Mem -/

@[simp] theorem setFe_wf {s : State} (core k : Nat) (v : Bool) (h : Memory.wf s.mem = true) : Memory.wf (setFe s core k v).mem = true :=
    setFe_inv h core k v
@[simp] theorem feChange_wf {s : State} (core k : Nat) (v : Bool) (h : Memory.wf s.mem = true) :
    Memory.wf (feChange s core k v).mem = true := feChange_inv h core k v
@[simp] theorem writeBytes_wf {s : State} (la : Nat) (bs : List Byte) (h : Memory.wf s.mem = true) :
    Memory.wf (writeBytes s la bs).mem = true := writeBytes_inv h la bs
@[simp] theorem accWrite_wf {s : State} (ctx la : Nat) (bs : List Byte) (thread : Bool) (h : Memory.wf s.mem = true) :
    Memory.wf (accWrite s ctx la bs thread).mem = true := accWrite_inv h ctx la bs thread

/-! ### Lines -/

@[simp] theorem writeAt_wf (s : State) (core ctx pa : Nat) (bs : List Byte) (h : Memory.wf s.mem = true) :
    Memory.wf (writeAt s core ctx pa bs).mem = true := by
  unfold writeAt
  dsimp only
  repeat' split
  all_goals simp [h]

/-! ### Xlate -/

@[simp] theorem orEntry_wf (s : State) (die : Nat) (who : ReqFor) (pa mask : Nat) (src : List Src) (dirty : Option Nat)
    (h : Memory.wf s.mem = true) : Memory.wf (orEntry s die who pa mask src dirty).mem = true := by
  unfold orEntry
  repeat' split
  all_goals simp [h]

@[simp] theorem placeLeaf_wf (s : State) (die : Nat) (who : ReqFor) (ctx va pte pa size : Nat) (retained : List Nat)
    (h : Memory.wf s.mem = true) : Memory.wf (placeLeaf s die who ctx va pte pa size retained).mem = true := by
  unfold placeLeaf
  split <;> simp [h]

@[simp] theorem translate_wf (s : State) (die : Nat) (core : Option Nat) (ctx va : Nat) (bypass : Bool) (who : ReqFor)
    (h : Memory.wf s.mem = true) : Memory.wf (translate s die core ctx va bypass who).1.mem = true := by
  unfold translate
  dsimp only
  repeat' split
  all_goals simp [h]

@[simp] theorem markDirty_wf (s : State) (die : Nat) (who : ReqFor) (va : Nat) (x : Xlt) (src : List Src) (h : Memory.wf s.mem = true) :
    Memory.wf (markDirty s die who va x src).mem = true := by
  unfold markDirty
  dsimp only
  repeat' split
  all_goals simp [h]

@[simp] theorem dirtyFor_wf (s : State) (die : Nat) (who : ReqFor) (va : Nat) (x : Xlt) (h : Memory.wf s.mem = true) :
    Memory.wf (dirtyFor s die who va x).1.mem = true := by
  unfold dirtyFor
  repeat' split
  all_goals simp [h]

/-! ### Records -/

@[simp] theorem poolPut_wf {s : State} (k : Nat) (bs : List Byte) (h : Memory.wf s.mem = true) : Memory.wf (poolPut s k bs).mem = true :=
    poolPut_inv h k bs

/-! ### Expansion -/

@[simp] theorem savePut_wf (s : State) (core save : Nat) (bs : List Byte) (h : Memory.wf s.mem = true) :
    Memory.wf (savePut s core save bs).mem = true := by
  unfold savePut
  split <;> simp [h]

@[simp] theorem expWriteout_wf (s : State) (core save : Nat) (h : Memory.wf s.mem = true) :
    Memory.wf (expWriteout s core save).mem = true := by
  unfold expWriteout
  repeat' split
  all_goals simp [h]

@[simp] theorem expClose_wf (s : State) (core save : Nat) (h : Memory.wf s.mem = true) : Memory.wf (expClose s core save).mem = true := by
  unfold expClose
  dsimp only
  split <;> simp [h]

@[simp] theorem expUnbind_wf (s : State) (core save : Nat) (h : Memory.wf s.mem = true) : Memory.wf (expUnbind s core save).mem = true := by
  unfold expUnbind
  dsimp only
  repeat' split
  all_goals simp [h]

/-! ### Slices -/

@[simp] theorem freeCore_wf (s : State) (core : Nat) (h : Memory.wf s.mem = true) : Memory.wf (freeCore s core).mem = true := by
  simp only [freeCore, State.setCore_mem]
  refine foldl_wf (fun s e hs => ?_) h
  split
  · exact expClose_wf _ _ _ hs
  · exact hs

@[simp] theorem groupEnded_wf (s : State) (gid : Option Nat) (n : Nat) (h : Memory.wf s.mem = true) :
    Memory.wf (groupEnded s gid n).mem = true := by
  unfold groupEnded
  dsimp only
  repeat' split
  all_goals simp [h]

@[simp] theorem wcWrite_wf (s : State) (b : WcBuf) (h : Memory.wf s.mem = true) : Memory.wf (wcWrite s b).mem = true := by
  unfold wcWrite
  dsimp only
  repeat' split
  all_goals simp +contextual [foldl_wf, h]

@[simp] theorem wcWriteSlice_wf (s : State) (core slot pos : Nat) (h : Memory.wf s.mem = true) :
    Memory.wf (wcWriteSlice s core slot pos).mem = true := by
  simp +contextual [wcWriteSlice, foldl_wf, h]

@[simp] theorem departSlice_wf (s : State) (core slot pos : Nat) (h : Memory.wf s.mem = true) :
    Memory.wf (departSlice s core slot pos).mem = true := by
  unfold departSlice
  dsimp only
  split <;> simp [h]

@[simp] theorem endLanes_wf (s : State) (core slot pos : Nat) (m : BitVec 4) (h : Memory.wf s.mem = true) :
    Memory.wf (endLanes s core slot pos m).mem = true := by
  unfold endLanes
  dsimp only
  repeat' split
  all_goals simp -implicitDefEqProofs [h]

@[simp] theorem recPut_wf (s : State) (m : RecMeta) (off : Nat) (bs : List Byte) (h : Memory.wf s.mem = true) :
    Memory.wf (recPut s m off bs).mem = true := by
  unfold recPut
  split <;> simp [h]

@[simp] theorem binRecord_wf (s : State) (rid : Nat) (h : Memory.wf s.mem = true) : Memory.wf (binRecord s rid).mem = true := by
  unfold binRecord
  dsimp only
  repeat' split
  all_goals simp [h]

@[simp] theorem refill_wf (s : State) (core : Nat) (h : Memory.wf s.mem = true) : Memory.wf (refill s core).mem = true := by
  unfold refill
  dsimp only
  repeat' split
  all_goals simp +contextual [foldl_wf, h]

@[simp] theorem unbin_wf (s : State) (rid : Nat) (h : Memory.wf s.mem = true) : Memory.wf (unbin s rid).mem = true := by
  unfold unbin
  split <;> simp [h]

@[simp] theorem makeRunnable_wf (s : State) (rid : Nat) (h : Memory.wf s.mem = true) : Memory.wf (makeRunnable s rid).mem = true := by
  unfold makeRunnable
  split <;> simp [h]

@[simp] theorem releaseMates_wf (s : State) (h : Memory.wf s.mem = true) : Memory.wf (releaseMates s).mem = true := by
  simp +contextual [releaseMates, foldl_wf, wf_ite, h]

@[simp] theorem dropRecord_wf (s : State) (rid : Nat) (h : Memory.wf s.mem = true) : Memory.wf (dropRecord s rid).mem = true := by
  unfold dropRecord
  dsimp only
  repeat' split
  all_goals simp [h]

@[simp] theorem killRecord_wf (s : State) (rid : Nat) (h : Memory.wf s.mem = true) : Memory.wf (killRecord s rid).mem = true := by
  grind [killRecord, foldl_wf, expUnbind_wf, threadEnded_mem, groupEnded_wf, sweepImages_mem, sweepSlots_mem, dropRecord_wf]

@[simp] theorem storeRecord_wf (s : State) (ctx a : Nat) (bytes block fib : List Byte) (h : Memory.wf s.mem = true) :
    Memory.wf (storeRecord s ctx a bytes block fib).mem = true := by
  grind [storeRecord, poolPut_wf, poolTake_mem]

@[simp] theorem finishSegment_wf (s : State) (g : Gang) (x : Slice) (e : EndInfo) (h : Memory.wf s.mem = true) :
    Memory.wf (finishSegment s g x e).mem = true := by
  unfold finishSegment
  grind [State.updSlice_mem, poolFull_mem, storeRecord_wf, departSlice_wf, releaseMates_wf, makeRunnable_wf, State.updRec_mem]

/-! ### Ops -/

theorem formHandler_wf {s t : State} {core ctx pa block : Nat} (hf : formHandler s core ctx pa block = some t)
    (h : Memory.wf s.mem = true) :
    Memory.wf t.mem = true := by
  unfold formHandler at hf
  grind [makeRunnable_wf, State.bump_mem]

@[simp] theorem deliverTrap_wf (s : State) (g : Gang) (x : Slice) (t : TrapInfo) (h : Memory.wf s.mem = true) :
    Memory.wf (deliverTrap s g x t).mem = true := by
  unfold deliverTrap
  dsimp only
  split
  · grind [State.updSlice_mem, poolFull_mem]
  · next a _ =>
    refine releaseMates_wf _ (departSlice_wf _ _ _ _ (storeRecord_wf _ _ _ _ _ _ ?_))
    have read : Memory.wf (if g.handler.isSome then s else readHandler s g.core g.ctx).mem = true := by
      split
      · exact h
      · rwa [readHandler_mem]
    revert read
    generalize (if g.handler.isSome then s else readHandler s g.core g.ctx) = u
    intro hu
    have formed (pa block : Nat) : Memory.wf
      ((if g.handler.isSome then none else formHandler u g.core g.ctx pa block).getD u).mem = true := by
      refine getD_wf (fun t ht => ?_) hu
      split at ht
      · cases ht
      · exact formHandler_wf ht hu
    simp only [wf_ite, report_mem, ite_self]
    exact formed _ _

@[simp] theorem releaseRecord_wf (s : State) (m : RecMeta) (how : Release) (h : Memory.wf s.mem = true) :
    Memory.wf (releaseRecord s m how).mem = true := by
  unfold releaseRecord
  split
  · exact killRecord_wf _ _ h
  · extract_lets s1 ctl s2 s3 s4
    have h1 : Memory.wf s1.mem = true := by
      simp only [s1]
      split
      · exact recPut_wf _ _ _ _ h
      · exact h
    have h4 : Memory.wf s4.mem = true := recPut_wf _ _ _ _ (recPut_wf _ _ _ _ h1)
    split
    · exact makeRunnable_wf _ _ h4
    · exact h4

@[simp] theorem fetchWord_wf (s : State) (g : Gang) (x : Slice) (va : Nat) (ver : Option Nat) (h : Memory.wf s.mem = true) :
    Memory.wf (fetchWord s g x va ver).1.mem = true := by
  grind [fetchWord, translate_wf, clearFailed_mem, noteBad_mem, scrubAt_mem, noteCode_mem]

@[simp] theorem fetchWords_wf (s : State) (g : Gang) (x : Slice) (va n : Nat) (ver : Option Nat) (h : Memory.wf s.mem = true) :
    Memory.wf (fetchWords s g x va n ver).1.mem = true := by
  induction n generalizing s va ver with
  | zero => exact h
  | succ n ih =>
    unfold fetchWords
    split
    · next t w k hf =>
      have ht := fst_wf hf (fetchWord_wf s g x va ver h)
      dsimp only
      split
      · next u ws hr => exact fst_wf hr (ih _ _ _ ht)
      · exact ih _ _ _ ht
    all_goals next hf => exact fst_wf hf (fetchWord_wf s g x va ver h)

@[simp] theorem fetchClause_wf (s : State) (g : Gang) (x : Slice) (pc : Nat) (h : Memory.wf s.mem = true) :
    Memory.wf (fetchClause s g x pc).1.mem = true := by
  grind [fetchClause, fetchWord_wf, fetchWords_wf]

theorem resumeCheck_wf (s : State) (g : Gang) (f : Fields) (xs : List Slice) (next : Nat) (h : Memory.wf s.mem = true) :
    Memory.wf (resumeCheck s g f xs next).state.mem = true := by
  unfold resumeCheck
  grind [ResumeCheck.state, fetchWord_wf, askLine_mem]

theorem resumeOf_wf (s : State) (g : Gang) (sub : Nat) (i : Instr) (next : Nat) (h : Memory.wf s.mem = true) :
    Memory.wf (resumeOf s g sub i next).state.mem = true := by
  unfold resumeOf
  grind [ResumeCheck.state, resumeCheck_wf]

theorem gateQueues_wf (i : Instr) (s : State) (g : Gang) (sub : Nat) (run : Run) (xs : List Slice) (resume : W64)
    (h : Memory.wf s.mem = true) : (gateQueues i s g sub run xs resume).Wf := by
  have trapped : ∀ p hits, (Gate.leave (trapSlices s g sub p hits)).Wf := fun p hits => by
    show Memory.wf (trapSlices s g sub p hits).mem = true
    rwa [trapSlices_mem]
  unfold gateQueues
  extract_lets +onlyGivenNames D f p codes hs ports all starved pops popped
  split
  · exact trapped _ _
  · split
    · exact trapped _ _
    · split
      · exact h
      · refine ⟨h, ?_⟩
        show Memory.wf popped.mem = true
        unfold popped
        split
        · exact h
        · refine foldl_wf (fun t c ht => ?_) h
          rwa [popHead_mem]

theorem gate_wf (i : Instr) (s : State) (g : Gang) (sub : Nat) (run : Run) (h : Memory.wf s.mem = true) : (gate i s g sub run).Wf := by
  have resumed : ∀ q, resumeOf s g sub i run.next = q → Memory.wf q.state.mem = true := fun q hq => hq ▸ resumeOf_wf s g sub i run.next h
  have trapped : ∀ t p hits, Memory.wf t.mem = true → (Gate.leave (trapSlices t g sub p hits)).Wf := fun t p hits ht => by
    show Memory.wf (trapSlices t g sub p hits).mem = true
    rwa [trapSlices_mem]
  unfold gate
  extract_lets D f p dec hz xs
  split
  · exact trapped _ _ _ h
  · split
    · exact trapped _ _ _ h
    · split
      · exact h
      · split
        next heq => exact trapped _ _ _ (resumed _ heq)
        next t needs heq =>
          show Memory.wf (walkSlices t g sub p needs).mem = true
          rw [walkSlices_mem]
          exact resumed _ heq
        next heq => exact resumed _ heq
        next heq => exact gateQueues_wf _ _ _ _ _ _ _ (resumed _ heq)

/-! ### Access -/

@[simp] theorem checkWant_wf (s : State) (g : Gang) (target : State → Xlt → Option Cause) (w : Want) (h : Memory.wf s.mem = true) :
    Memory.wf (checkWant s g target w).1.mem = true := by
  unfold checkWant
  split
  · exact h
  · split
    · exact h
    · split
      · exact h
      · split
        · exact h
        · have ht := translate_wf s (g.core / 64) (some g.core) g.ctx w.va w.x.bypass .front h
          split
          · next hx => exact fst_wf hx (translate_wf _ _ _ _ _ _ _ h)
          · next hx => exact fst_wf hx (translate_wf _ _ _ _ _ _ _ h)
          · next hx =>
            have ht := fst_wf hx (translate_wf _ _ _ _ _ _ _ h)
            repeat' split
            all_goals exact ht

@[simp] theorem checkWants_wf (g : Gang) (target : State → Xlt → Option Cause) (ws : List Want) (s : State) (h : Memory.wf s.mem = true) :
    Memory.wf (checkWants g target ws s).1.mem = true := by
  induction ws generalizing s with
  | nil => exact h
  | cons w ws ih => exact ih _ (checkWant_wf _ _ _ _ h)

@[simp] theorem wcStore_wf (s : State) (g : Gang) (a : Acc) (at_ : At) (data : List Byte) (h : Memory.wf s.mem = true) :
    Memory.wf (wcStore s g a at_ data).mem = true := by
  unfold wcStore
  dsimp only
  repeat' split
  all_goals simp [h]

@[simp] theorem coreWrite_wf (s : State) (g : Gang) (a : Acc) (at_ : At) (data : List Byte) (h : Memory.wf s.mem = true) :
    Memory.wf (coreWrite s g a at_ data).mem = true := by
  unfold coreWrite
  dsimp only
  repeat' split
  all_goals simp [h]

@[simp] theorem performElem_wf (g : Gang) (p : Perf) (a : Acc) (grp : List Acc) (h : Memory.wf p.s.mem = true) :
    Memory.wf (performElem g p a grp).s.mem = true := by
  unfold performElem
  dsimp only
  split <;> simp [h]

@[simp] theorem performHere_wf (g : Gang) (at_ : At) (p : Perf) (a : Acc) (rest : List Acc) (h : Memory.wf p.s.mem = true) :
    Memory.wf (performHere g at_ p a rest).s.mem = true := by
  unfold performHere
  split <;> simp [h]

@[simp] theorem performAccs_wf (g : Gang) (at_ : At) (l : List Acc) (p : Perf) (h : Memory.wf p.s.mem = true) :
    Memory.wf (performAccs g at_ l p).s.mem = true := by
  induction l generalizing p with
  | nil => exact h
  | cons a r ih =>
    unfold performAccs
    grind [noteBad_mem, sendRead_mem, sendElem_mem, sendLine_mem, performHere_wf]

@[simp] theorem accMade_wf (s : State) (c : Ctx) (vl : Bool) (as : List Acc) (writes : List VlWrite) (h : Memory.wf s.mem = true) :
    Memory.wf (accMade s c vl as writes).mem = true := by
  unfold accMade
  dsimp only
  repeat' split
  all_goals simp [h]

@[simp] theorem wcWriteOf_wf (s : State) (core slot : Nat) (lanes : List (Nat × Nat)) (h : Memory.wf s.mem = true) :
    Memory.wf (wcWriteOf s core slot lanes).mem = true := by
  simp +contextual [wcWriteOf, foldl_wf, h]

@[simp] theorem advancePend_wf (s : State) (q : Pend) (h : Memory.wf s.mem = true) : Memory.wf (advancePend s q).mem = true := by
  unfold advancePend
  dsimp only
  repeat' split
  all_goals simp [h]

/-! ### Futures -/

theorem signalUpdate_wf (s : State) (die ctx : Nat) (fw : Bool) (who : ReqFor) (pts : Nat) (mark : Option Nat) (va add : Nat) (bad : Bool)
    (at_ : Nat) (h : Memory.wf s.mem = true) : Memory.wf (signalUpdate s die ctx fw who pts mark va add bad at_).state.mem = true := by
  unfold signalUpdate
  grind [Signal.state, report_mem, translate_wf, askWalk_mem, dirtyFor_wf, noteUncorrectable_mem, clearFailed_mem, askLine_mem,
    raisePts_mem, accWrite_wf, touchBy_mem, postMsg_mem]

theorem ringRelease_wf {s t : State} {core k : Nat} {consumer : Bool} {arg : Nat} {x : Option Nat} (h : ringRelease s core k consumer arg x = some t)
    (hs : Memory.wf s.mem = true) : Memory.wf t.mem = true := by
  unfold ringRelease at h
  grind [ringServe_mem, State.setRing_mem]

/-! ### Jobs -/

@[simp] theorem engineXlate_wf (s : State) (o : EngineOp) (va need : Nat) (h : Memory.wf s.mem = true) :
    Memory.wf (engineXlate s o va need).1.mem = true := by
  grind [engineXlate, translate_wf]

@[simp] theorem engineWrite_wf (s : State) (o : EngineOp) (pa : Nat) (bs : List Byte) (memType : Nat) (h : Memory.wf s.mem = true) :
    Memory.wf (engineWrite s o pa bs memType).1.mem = true := by
  unfold engineWrite
  dsimp only
  repeat' split
  all_goals simp [h]

theorem engineTouch_wf (s : State) (o : EngineOp) (row : Nat) (phys : Bool) (va n need : Nat) {go : State → Nat → Option Xlt → State}
    (hgo : ∀ t pa x, Memory.wf t.mem = true → Memory.wf (go t pa x).mem = true) (h : Memory.wf s.mem = true) :
    Memory.wf (engineTouch s o row phys va n need go).mem = true := by
  unfold engineTouch
  grind [engineXlate_wf, State.updOp_mem, askLine_mem, noteBad_mem, clearFailed_mem, engineWalk_mem]

@[simp] theorem unitRead_wf (s : State) (o : EngineOp) (esz row : Nat) (u : Nat × Nat × Nat) (h : Memory.wf s.mem = true) :
    Memory.wf (unitRead s o esz row u).mem = true := by
  unfold unitRead
  refine engineTouch_wf _ _ _ _ _ _ _ (fun t pa x ht => ?_) h
  split
  · simpa using ht
  · simpa using ht

@[simp] theorem unitWrite_wf (s : State) (o : EngineOp) (esz row : Nat) (u : Nat × Out) (h : Memory.wf s.mem = true) :
    Memory.wf (unitWrite s o esz row u).mem = true := by
  unfold unitWrite
  refine engineTouch_wf _ _ _ _ _ _ _ (fun t pa x ht => ?_) h
  grind [dirtyFor_wf, State.updOp_mem, engineWrite_wf]

@[simp] theorem rowUnit_wf (s : State) (o : EngineOp) (j : Job) (r : Nat) (h : Memory.wf s.mem = true) :
    Memory.wf (rowUnit s o j r).mem = true := by
  unfold rowUnit
  dsimp only
  repeat' split
  all_goals simp [h]

@[simp] theorem jobUnit_wf (s : State) (o : EngineOp) (j : Job) (h : Memory.wf s.mem = true) : Memory.wf (jobUnit s o j).mem = true := by
  unfold jobUnit
  repeat' split
  all_goals simp [h]

/-! ### Memory -/

@[simp] theorem dirtyAll_wf (s : State) (c : Ctx) (rs : List (Want × Xlt)) (h : Memory.wf s.mem = true) :
    Memory.wf (dirtyAll s c rs).mem = true := by
  simp +contextual [dirtyAll, foldl_wf, h]

/-! ### Fibre -/

@[simp] theorem seekFrom_wf (c : Ctx) (x : Slice) (l : Nat) (z : Fibre) (b n p : Nat) (s : State) (h : Memory.wf s.mem = true) :
    Memory.wf (seekFrom c x l z b n p s).1.mem = true := by
  induction n generalizing p s with
  | zero => exact h
  | succ n ih =>
    unfold seekFrom
    grind [checkWant_wf, readCrd_mem]

@[simp] theorem advanceLane_wf (c : Ctx) (seek : Bool) (k : Nat) (s : State) (e : Slice × Nat) (h : Memory.wf s.mem = true) :
    Memory.wf (advanceLane c seek k s e).1.mem = true := by
  unfold advanceLane
  dsimp only
  repeat' split
  all_goals simp [h]

@[simp] theorem advanceAll_wf (c : Ctx) (seek : Bool) (k : Nat) (l : List (Slice × Nat)) (s : State) (h : Memory.wf s.mem = true) :
    Memory.wf (advanceAll c seek k l s).1.mem = true := by
  induction l generalizing s with
  | nil => exact h
  | cons e es ih => exact ih _ (advanceLane_wf _ _ _ _ _ h)

@[simp] theorem zvalLane_wf (c : Ctx) (k : Nat) (s : State) (e : Slice × Nat) (h : Memory.wf s.mem = true) :
    Memory.wf (zvalLane c k s e).1.mem = true := by
  unfold zvalLane
  dsimp only
  repeat' split
  all_goals simp [h]

@[simp] theorem zvalLanes_wf (c : Ctx) (k : Nat) (l : List (Slice × Nat)) (s : State) (h : Memory.wf s.mem = true) :
    Memory.wf (zvalLanes c k l s).1.mem = true := by
  induction l generalizing s with
  | nil => exact h
  | cons e es ih => exact ih _ (zvalLane_wf _ _ _ _ h)

/-! ### Matrix -/

@[simp] theorem clearImage_wf (s : State) (core : Nat) (r : Resv) (h : Memory.wf s.mem = true) :
    Memory.wf (clearImage s core r).mem = true :=
  wf_filter h _

@[simp] theorem clearSlot_wf {s : State} (core slot : Nat) (h : Memory.wf s.mem = true) : Memory.wf (clearSlot s core slot).mem = true :=
    clearSlot_inv h core slot

/-! ### MatrixUnit -/

@[simp] theorem mxWritten_wf (s : State) (o : EngineOp) (h : Memory.wf s.mem = true) : Memory.wf (mxWritten s o).mem = true := by
  simp [mxWritten, wf_tabPuts h]

/-! ### EngineSteps -/

@[simp] theorem descUnit_wf (s : State) (o : EngineOp) (h : Memory.wf s.mem = true) : Memory.wf (descUnit s o).mem = true := by
  unfold descUnit
  repeat' split
  all_goals simp [h]

@[simp] theorem destCheck_wf (o : EngineOp) (l : List (Nat × Nat)) (s : State) (h : Memory.wf s.mem = true) :
    Memory.wf (destCheck o l s).1.mem = true := by
  induction l generalizing s with
  | nil => exact h
  | cons d r ih =>
    unfold destCheck
    grind [engineXlate_wf]

@[simp] theorem startWork_wf (s : State) (o : EngineOp) (ws : List W64) (h : Memory.wf s.mem = true) :
    Memory.wf (startWork s o ws).mem = true := by
  unfold startWork
  grind [destCheck_wf, State.updOp_mem, engineWalk_mem, malformed_mem]

@[simp] theorem raiseCount_wf (s : State) (o : EngineOp) (pa : Nat) (t : Option Xlt) (h : Memory.wf s.mem = true) :
    Memory.wf (raiseCount s o pa t).mem = true := by
  unfold raiseCount
  repeat' split
  all_goals simp [h]

theorem listTouch_wf (s : State) (o : EngineOp) (va n need : Nat) {go : State → Nat → Option Xlt → State}
    (hgo : ∀ t pa x, Memory.wf t.mem = true → Memory.wf (go t pa x).mem = true) (h : Memory.wf s.mem = true) :
    Memory.wf (listTouch s o va n need go).mem = true := by
  unfold listTouch
  grind [engineXlate_wf, tokenFail_mem, askLine_mem, noteBad_mem, clearFailed_mem, engineWalk_mem, dirtyFor_wf]

@[simp] theorem bypassToken_wf (s : State) (o : EngineOp) (ws : List W64) (x : Nat) (h : Memory.wf s.mem = true) :
    Memory.wf (bypassToken s o ws x).mem = true := by
  unfold bypassToken
  split
  · exact h
  · split
    · exact listTouch_wf _ _ _ _ _ (fun t pa x ht => raiseCount_wf _ _ _ _ ht) h
    · refine listTouch_wf _ _ _ _ _ (fun t pa x ht => ?_) h
      simp [engineWrite_wf, ht]

@[simp] theorem takeToken_wf (s : State) (o : EngineOp) (ws : List W64) (h : Memory.wf s.mem = true) :
    Memory.wf (takeToken s o ws).mem = true := by
  unfold takeToken
  split <;> simp [h]

@[simp] theorem compactTurn_wf (s : State) (o : EngineOp) (h : Memory.wf s.mem = true) : Memory.wf (compactTurn s o).mem = true := by
  unfold compactTurn
  dsimp only
  repeat' split
  all_goals simp [h]

@[simp] theorem peerUnit_wf (s : State) (o : EngineOp) (j : Job) (r pa : Nat) (h : Memory.wf s.mem = true) :
    Memory.wf (peerUnit s o j r pa).mem = true := by
  unfold peerUnit
  repeat' split
  all_goals simp [h]

@[simp] theorem copyUnit_wf (s : State) (o : EngineOp) (j : Job) (h : Memory.wf s.mem = true) : Memory.wf (copyUnit s o j).mem = true := by
  unfold copyUnit
  dsimp only
  repeat' split
  all_goals simp [h]

@[simp] theorem workUnit_wf (s : State) (o : EngineOp) (ws : List W64) (h : Memory.wf s.mem = true) :
    Memory.wf (workUnit s o ws).mem = true := by
  unfold workUnit
  repeat' split
  all_goals simp [h]

@[simp] theorem opUnit_wf (s : State) (o : EngineOp) (h : Memory.wf s.mem = true) : Memory.wf (opUnit s o).mem = true := by
  unfold opUnit
  dsimp only
  repeat' split
  all_goals simp [h]

@[simp] theorem freeByte_wf (o : EngineOp) (s : State) (a : Nat) (h : Memory.wf s.mem = true) : Memory.wf (freeByte o s a).mem = true := by
  unfold freeByte
  split <;> simp [h]

@[simp] theorem overlapFree_wf (s : State) (o : EngineOp) (h : Memory.wf s.mem = true) : Memory.wf (overlapFree s o).mem = true := by
  simp +contextual [overlapFree, foldl_wf, h]

@[simp] theorem signAt_wf (s : State) (o : EngineOp) (va : Nat) (h : Memory.wf s.mem = true) : Memory.wf (signAt s o va).mem = true := by
  unfold signAt
  split <;> simp [h]

theorem actNow_wf (s : State) (o : EngineOp) (h : Memory.wf s.mem = true) : Memory.wf (actNow s o).state.mem = true := by
  unfold actNow
  grind [Acted.state, Signal.state, signalUpdate_wf, ringRelease_wf, signAt_wf, State.updOp_mem, foldl_wf, feChange_wf, addSign_mem]

@[simp] theorem drainClear_wf (s : State) (o : EngineOp) (h : Memory.wf s.mem = true) : Memory.wf (drainClear s o).mem = true := by
  unfold drainClear
  grind [clearSlot_wf, wf_tabPuts]

@[simp] theorem finishOp_wf (s : State) (o : EngineOp) (h : Memory.wf s.mem = true) : Memory.wf (finishOp s o).mem = true := by
  unfold finishOp
  grind [Acted.state, overlapFree_wf, actNow_wf, completeFut_mem, sweepSlots_mem, dropOp_mem, drainClear_wf]

@[simp] theorem putHeader_wf (s : State) (o : EngineOp) (ws : List W64) (q : Nat) (h : Memory.wf s.mem = true) :
    Memory.wf (putHeader s o ws q).mem = true := by
  simp -implicitDefEqProofs [putHeader, h]

/-! ### Clause -/

@[simp] theorem nextFetch_wf (s : State) (g : Gang) (u : Sub) (h : Memory.wf s.mem = true) : Memory.wf (nextFetch s g u).1.mem = true := by
  unfold nextFetch
  split <;> simp [h]

/-! ### Control -/

@[simp] theorem endGuarded_wf (c : Ctx) (h : Memory.wf c.s.mem = true) : Memory.wf (endGuarded c).mem = true := by
  grind [endGuarded, foldl_wf, endLanes_wf]

/-! ### Bins -/

@[simp] theorem deliverValue_wf (s : State) (m : RecMeta) (lane : Nat) (vals : List W32) (h : Memory.wf s.mem = true) :
    Memory.wf (deliverValue s m lane vals).mem = true := by
  grind [deliverValue, foldl_wf, recPut_wf]

@[simp] theorem clearWait_wf (s : State) (m : RecMeta) (lane : Nat) (h : Memory.wf s.mem = true) :
    Memory.wf (clearWait s m lane).mem = true := by
  unfold clearWait
  dsimp only
  repeat' split
  all_goals simp [h]

theorem handleStore_wf (s : State) (m : RecMeta) (lane n pa va ty : Nat) (h : Memory.wf s.mem = true) :
    Memory.wf (handleStore s m lane n pa va ty).state.mem = true := by
  unfold handleStore
  grind [HandleStore.state, clearFailed_mem, askLine_mem, deviceWrite_mem, writeAt_wf, postMsg_mem]

@[simp] theorem lostRecord_wf (s : State) (m : RecMeta) (h : Memory.wf s.mem = true) : Memory.wf (lostRecord s m).mem = true := by
  simp [lostRecord, h]

theorem trapRecord_wf {s t : State} {m : RecMeta} {cause : Cause} (ht : trapRecord s m cause = some t) (h : Memory.wf s.mem = true) :
    Memory.wf t.mem = true := by
  obtain ⟨a, -, ht⟩ := Option.map_eq_some_iff.mp ht
  extract_lets x l info i s1 s2 s3 s4 bytes s5 s6 nested s7 formed s8 rep seq s9 s10 s11 at ht
  have h2 : Memory.wf s2.mem = true := by
    simp only [s2, wf_ite, fireSnapshot_mem, ite_self]
    exact unbin_wf _ _ h
  have h6 : Memory.wf s6.mem = true := by
    have h5 : Memory.wf s5.mem = true := by
      simp only [s5, wf_ite, poolFree_mem, ite_self]
      exact recPut_wf _ _ _ _ (recPut_wf _ _ _ _ h2)
    simp only [s6]
    split
    · rwa [poolFree_mem]
    · exact h5
  have h7 : Memory.wf s7.mem = true := by
    simpa only [s7, wf_ite, readHandler_mem, ite_self] using h6
  have h8 : Memory.wf s8.mem = true := getD_wf (fun u hu => by
    simp only [formed] at hu
    split at hu
    · cases hu
    · exact formHandler_wf hu h7) h7
  have h10 : Memory.wf s10.mem = true := by
    simpa only [s10, s9, wf_ite, report_mem, ite_self] using h8
  rw [← ht, State.updRec_mem]
  exact storeRecord_wf _ _ _ _ _ _ h10

@[simp] theorem rejectRecord_wf (s : State) (m : RecMeta) (h : Memory.wf s.mem = true) : Memory.wf (rejectRecord s m).mem = true := by
  unfold rejectRecord
  split
  · exact lostRecord_wf _ _ h
  · split
    · rwa [askLine_mem]
    · exact getD_wf (fun t ht => trapRecord_wf ht (by rwa [noteUncorrectable_mem])) h
    · split
      · exact h
      · exact getD_wf (fun t ht => trapRecord_wf ht h) h

@[simp] theorem rebind_wf (f : Nat → Nat → Nat) (s : State) (m : RecMeta) (h : Memory.wf s.mem = true) :
    Memory.wf (rebind f s m).mem = true := by
  unfold rebind
  extract_lets w
  split
  · exact h
  · exact recPut_wf _ _ _ _ h

theorem reloadSlot_wf {s t : State} {g : Group} {a : Nat} (ht : reloadSlot s g a = some t) (h : Memory.wf s.mem = true) :
    Memory.wf t.mem = true := by
  obtain ⟨new, -, ht⟩ := Option.map_eq_some_iff.mp ht
  extract_lets s1 s2 s3 at ht
  have h1 : Memory.wf s1.mem = true := by
    simp only [s1]
    exact wf_tabPuts h _ _
  have h2 : Memory.wf s2.mem = true := by
    refine foldl_wf (fun u m hu => ?_) ?_
    · rw [State.updRec_mem]
      exact rebind_wf _ _ _ hu
    · rwa [poolFree_mem]
  rw [← ht]
  exact h2

theorem reloadFor_wf {s t : State} {m : RecMeta} (ht : reloadFor s m = some t) (h : Memory.wf s.mem = true) : Memory.wf t.mem = true := by
  refine foldl_keeps (P := fun r : Option State => ∀ t, r = some t → Memory.wf t.mem = true) (fun r a hr t ht => ?_) (spilledOf s m)
    (b := some s) (fun t ht => by cases ht; exact h) t ht
  obtain ⟨u, rfl, hu⟩ := Option.bind_eq_some_iff.mp ht
  split at hu
  · exact reloadSlot_wf hu (hr u rfl)
  · cases hu

@[simp] theorem drainOne_wf (core slot : Nat) (s : State) (e : RecMeta × Nat) (h : Memory.wf s.mem = true) :
    Memory.wf (drainOne core slot s e).mem = true := by
  unfold drainOne
  split
  · next m g _ _ =>
    refine dropRecord_wf _ _ ?_
    have hs := getD_wf (o := reloadFor (scrubRecord s m) m) (s := scrubRecord s m) (fun t ht => reloadFor_wf ht (by simpa using h))
      (by simpa using h)
    revert hs
    generalize (reloadFor (scrubRecord s m) m).getD (scrubRecord s m) = u
    intro hu
    simp only [State.setCore_mem, State.updGang_mem, loadRegs_mem]
    split
    · exact hu
    · simpa using hu
  · exact h

@[simp] theorem formGang_wf (s : State) (core slot base : Nat) (ms : List RecMeta) (h : Memory.wf s.mem = true) :
    Memory.wf (formGang s core slot base ms).mem = true := by
  unfold formGang
  split <;> simp +contextual [foldl_wf, h]

@[simp] theorem drainBin_wf (s : State) (core bin vbud : Nat) (h : Memory.wf s.mem = true) :
    Memory.wf (drainBin s core bin vbud).mem = true := by
  grind [drainBin, foldl_wf, rejectRecord_wf, tidyGang_mem, formGang_wf]

@[simp] theorem moveRecord_wf (core : Nat) (s : State) (rid : Nat) (h : Memory.wf s.mem = true) :
    Memory.wf (moveRecord core s rid).mem = true := by
  simp [moveRecord, h]

@[simp] theorem balance_wf (l : List (Nat × Nat × Nat × Nat)) (cores : List Nat) (s : State) (h : Memory.wf s.mem = true) :
    Memory.wf (balance l cores s).mem = true := by
  induction l generalizing cores s with
  | nil => exact h
  | cons e rest ih =>
    unfold balance
    split
    · exact ih _ _ h
    · exact ih _ _ (foldl_wf (fun t r ht => moveRecord_wf _ _ _ ht) h)

/-! ### MemSys -/

theorem feLoad_wf (c : Ctx) (r : FeLoads) (a : Acc) (h : Memory.wf r.s.mem = true) : Memory.wf (feLoad c r a).s.mem = true := by
  unfold feLoad
  grind [touchLine_mem, State.sees_mem, setFe_wf]

@[simp] theorem feLoaded_wf (c : Ctx) (s : State) (rs : List (Want × Xlt)) (h : Memory.wf s.mem = true) :
    Memory.wf (feLoaded c s rs).mem = true := by
  have loads : Memory.wf ((rs.map fun r => accOf r.1 r.2 (.load c.ty c.f.d.toNat)).foldl (feLoad c) ⟨s, [], [], []⟩).s.mem = true :=
    foldl_keeps (P := fun r : FeLoads => Memory.wf r.s.mem = true) (fun r a hr => feLoad_wf c r a hr) _ h
  unfold feLoaded
  extract_lets r own lost t
  rw [foldl_mem (fun s a => by simp)]
  simp only [t, wf_ite]
  split
  · exact loads
  · rwa [issueLater_mem]

@[simp] theorem feStored_wf (c : Ctx) (s : State) (rs : List (Want × Xlt)) (h : Memory.wf s.mem = true) :
    Memory.wf (feStored c s rs).mem = true := by
  grind [feStored, foldl_wf, writeAt_wf, feChange_wf, feFailed_mem]

@[simp] theorem fesetRange_wf (core : Nat) (v : Bool) (s : State) (r : Want × Xlt) (h : Memory.wf s.mem = true) :
    Memory.wf (fesetRange core v s r).mem = true := by
  simp +contextual [fesetRange, foldl_wf, h]

@[simp] theorem fesetDone_wf (c : Ctx) (v : Bool) (s : State) (rs : List (Want × Xlt)) (h : Memory.wf s.mem = true) :
    Memory.wf (fesetDone c v s rs).mem = true := by
  simp +contextual [fesetDone, foldl_wf, h]

@[simp] theorem fenceWrites_wf (c : Ctx) (h : Memory.wf c.s.mem = true) : Memory.wf (fenceWrites c).mem = true := by
  simp [fenceWrites, h]

@[simp] theorem repairLine_wf (s : State) (la : Nat) (bs : List Byte) (h : Memory.wf s.mem = true) :
    Memory.wf (repairLine s la bs).mem = true := by
  simp [repairLine, h]

theorem pushEntry_wf {c : Ctx} {port : Nat} {t : State} (ht : pushEntry c port = some t) (h : Memory.wf c.s.mem = true) :
    Memory.wf t.mem = true := by
  unfold pushEntry at ht
  grind [portFire_mem, State.setCore_mem, writeBytes_wf, touchLine_mem]

/-! ### TaskFeed -/

@[simp] theorem formTaskSlice_wf (s : State) (die : Nat) (t : Task) (h : Memory.wf s.mem = true) :
    Memory.wf (formTaskSlice s die t).mem = true := by
  unfold formTaskSlice
  split <;> simp [h]

/-! ### Walks -/

theorem physRead_wf (s : State) (die : Nat) (who : ReqFor) (pa n : Nat) (h : Memory.wf s.mem = true) :
    Memory.wf (physRead s die who pa n).state.mem = true := by
  unfold physRead
  grind [PhysRead.state, clearFailed_mem, noteBad_mem, askLine_mem, readStamp_mem]

theorem physWrite_wf (s : State) (die : Nat) (who : ReqFor) (pa : Nat) (bs : List Byte) (h : Memory.wf s.mem = true) :
    Memory.wf (physWrite s die who pa bs).state.mem = true := by
  unfold physWrite
  grind [PhysWrite.state, clearFailed_mem, noteUncorrectable_mem, askLine_mem, touchBy_mem, writeBytes_wf, postMsg_mem]

@[simp] theorem finishWalk_wf (s : State) (w : Walk) (pte pa size : Nat) (lines : List Nat) (h : Memory.wf s.mem = true) :
    Memory.wf (finishWalk s w pte pa size lines).mem = true := by
  simp -implicitDefEqProofs [finishWalk, h]

/-! ### Launches -/

@[simp] theorem frontPut_wf (s : State) (pa : Nat) (bs : List Byte) (h : Memory.wf s.mem = true) :
    Memory.wf (frontPut s pa bs).mem = true := by
  unfold frontPut
  grind [PhysWrite.state, physWrite_wf]

@[simp] theorem journal_wf (s : State) (seq type ctx queue state : Nat) (digest : W64) (late : Bool) (h : Memory.wf s.mem = true) :
    Memory.wf (journal s seq type ctx queue state digest late).mem = true := by
  simp [journal, h]

@[simp] theorem journalLaunch_wf (s : State) (l : Launch) (state : Nat) (h : Memory.wf s.mem = true) :
    Memory.wf (journalLaunch s l state).mem = true := by
  simp [journalLaunch, h]

@[simp] theorem advance_wf (s : State) (q : Nat) (h : Memory.wf s.mem = true) : Memory.wf (advance s q).mem = true := by
  unfold advance
  split <;> simp [h]

@[simp] theorem leaveHead_wf (s : State) (l : Launch) (h : Memory.wf s.mem = true) : Memory.wf (leaveHead s l).mem = true := by
  unfold leaveHead
  repeat' split
  all_goals simp [h]

@[simp] theorem signalLaunch_wf (s : State) (l : Launch) (h : Memory.wf s.mem = true) : Memory.wf (signalLaunch s l).mem = true := by
  unfold signalLaunch
  grind [Signal.state, signalUpdate_wf, forgetLaunch_mem, clearFront_mem]

@[simp] theorem failLaunch_wf (s : State) (l : Launch) (h : Memory.wf s.mem = true) : Memory.wf (failLaunch s l).mem = true := by
  unfold failLaunch
  grind [journalLaunch_wf, leaveHead_wf, State.updLaunch_mem, signalLaunch_wf]

@[simp] theorem reserveProgress_wf (s : State) (lid : Nat) (late : Bool) (h : Memory.wf s.mem = true) :
    Memory.wf (reserveProgress s lid late).mem = true := by
  unfold reserveProgress
  repeat' split
  all_goals simp [h]

@[simp] theorem activate_wf (s : State) (l : Launch) (h : Memory.wf s.mem = true) : Memory.wf (activate s l).mem = true := by
  unfold activate
  repeat' split
  all_goals simp [h]

theorem planDeps_wf (l : Launch) (is : List Nat) (s : State) (h : Memory.wf s.mem = true) :
    Memory.wf (planDeps l is s).state.mem = true := by
  induction is generalizing s with
  | nil => exact h
  | cons i t ih =>
    unfold planDeps
    grind [DepPlan.state, clearFront_mem, translate_wf, askWalk_mem, clearFailed_mem, noteUncorrectable_mem, askLine_mem]

@[simp] theorem waitdepEntered_wf (s : State) (l : Launch) (ps : List (Nat × Nat)) (h : Memory.wf s.mem = true) :
    Memory.wf (waitdepEntered s l ps).mem = true := by
  unfold waitdepEntered
  dsimp only
  split <;> simp [h]

@[simp] theorem clearScratch_wf (s : State) (core n : Nat) (h : Memory.wf s.mem = true) : Memory.wf (clearScratch s core n).mem = true :=
  wf_filter h _

@[simp] theorem placeGroup_wf (s : State) (g : Group) (l : Launch) (core : Nat) (h : Memory.wf s.mem = true) :
    Memory.wf (placeGroup s g l core).mem = true := by
  simp [placeGroup, h]

/-! ### Queues -/

@[simp] theorem setPwake_wf (s : State) (q : Nat) (h : Memory.wf s.mem = true) : Memory.wf (setPwake s q).mem = true := by
  simp [setPwake, h]

@[simp] theorem wakeQueue_wf (s : State) (q : Nat) (h : Memory.wf s.mem = true) : Memory.wf (wakeQueue s q).mem = true := by
  unfold wakeQueue
  repeat' split
  all_goals simp [h]

@[simp] theorem storeProd_wf (s : State) (q prod : Nat) (h : Memory.wf s.mem = true) : Memory.wf (storeProd s q prod).mem = true := by
  unfold storeProd
  repeat' split
  all_goals simp [h]

@[simp] theorem accept_wf (s : State) (x : HwQueue) (ws : List W64) (inBatch : Bool) (h : Memory.wf s.mem = true) :
    Memory.wf (accept s x ws inBatch).1.mem = true := by
  unfold accept
  dsimp only
  split <;> simp [h]

theorem takePacket_wf (s : State) (q : Nat) (want : Nat → Bool) (h : Memory.wf s.mem = true) :
    Memory.wf (takePacket s q want).state.mem = true := by
  unfold takePacket
  grind [Held.state, State.updQ_mem, askLine_mem, clearFailed_mem, noteUncorrectable_mem, accept_wf, frontStamp_mem]

@[simp] theorem packetEnded_wf (s : State) (x : HwQueue) (p : Packet) (ok : Bool) (h : Memory.wf s.mem = true) :
    Memory.wf (packetEnded s x p ok).mem = true := by
  unfold packetEnded
  split <;> simp [h]

@[simp] theorem lookVirt_wf (s : State) (x : HwQueue) (va n : Nat) (h : Memory.wf s.mem = true) :
    Memory.wf (lookVirt s x va n).1.mem = true := by
  grind [lookVirt, translate_wf, askWalk_mem, askLine_mem, frontStamp_mem]

@[simp] theorem checkMember_wf (s : State) (x : HwQueue) (src i : Nat) (ws : List W64) (h : Memory.wf s.mem = true) :
    Memory.wf (checkMember s x src i ws).1.mem = true := by
  grind [checkMember, lookVirt_wf, askLine_mem, noteBad_mem]

@[simp] theorem checkMembers_wf (x : HwQueue) (src : Nat) (l : List Nat) (s : State) (h : Memory.wf s.mem = true) :
    Memory.wf (checkMembers x src l s).1.mem = true := by
  induction l generalizing s with
  | nil => exact h
  | cons i t ih =>
    unfold checkMembers
    grind [askLine_mem, checkMember_wf]

@[simp] theorem acceptAll_wf (x : HwQueue) (l : List Member) (s : State) (h : Memory.wf s.mem = true) :
    Memory.wf (acceptAll x l s).1.mem = true := by
  induction l generalizing s with
  | nil => exact h
  | cons m t ih => exact ih _ (accept_wf _ _ _ _ h)

@[simp] theorem failMember_wf (x : HwQueue) (s : State) (m : Member) (h : Memory.wf s.mem = true) :
    Memory.wf (failMember x s m).mem = true := by
  grind [failMember, accept_wf, journal_wf, signalLaunch_wf, addLaunch_mem]

@[simp] theorem batchBegun_wf (s : State) (x : HwQueue) (p : Packet) (ms : List Member) (cw : List W64) (h : Memory.wf s.mem = true) :
    Memory.wf (batchBegun s x p ms cw).mem = true := by
  unfold batchBegun
  grind [foldl_wf, clearFront_mem, acceptAll_wf, State.updQ_mem, advance_wf, journal_wf, failMember_wf, frontPut_wf]

@[simp] theorem rangeLines_wf (x : HwQueue) (va : Nat) (l : List (Nat × Nat)) (s : State) (h : Memory.wf s.mem = true) :
    Memory.wf (rangeLines x va l s).1.mem = true := by
  induction l generalizing s with
  | nil => exact h
  | cons q t ih =>
    unfold rangeLines
    grind [translate_wf, askWalk_mem]

@[simp] theorem replaced_wf (s : State) (x : HwQueue) (p : Packet) (ls : List Nat) (h : Memory.wf s.mem = true) :
    Memory.wf (replaced s x p ls).mem = true := by
  unfold replaced
  extract_lets va s1 s2 pa
  have h2 : Memory.wf s2.mem = true := by
    simp only [s2, s1]
    rw [foldl_mem (fun s a => by simp), foldl_mem (fun s a => by simp)]
    exact h
  grind [PhysWrite.state, physWrite_wf, advance_wf, journal_wf, State.updQ_mem]

/-! ### Preempt -/

@[simp] theorem holdRecord_wf (s : State) (rid : Nat) (h : Memory.wf s.mem = true) : Memory.wf (holdRecord s rid).mem = true := by
  unfold holdRecord
  repeat' split
  all_goals simp [h]

@[simp] theorem holdUnit_wf (s : State) (die gid ctx : Nat) (h : Memory.wf s.mem = true) :
    Memory.wf (holdUnit s die gid ctx).mem = true := by
  simp +contextual [holdUnit, foldl_wf, h]

@[simp] theorem preemptDie_wf (die : Nat) (s : State) (h : Memory.wf s.mem = true) : Memory.wf (preemptDie die s).mem = true := by
  unfold preemptDie
  grind [foldl_wf, holdUnit_wf, State.updGroup_mem, State.setDie_mem]

@[simp] theorem saveGang_wf (s : State) (g : Gang) (method : Nat) (h : Memory.wf s.mem = true) :
    Memory.wf (saveGang s g method).mem = true := by
  simp +contextual [saveGang, foldl_wf, wf_ite, h]

theorem spillSlot_wf {s t : State} {g : Group} {k : Nat} (ht : spillSlot s g k = some t)
    (h : Memory.wf s.mem = true) : Memory.wf t.mem = true := by
  obtain ⟨a, -, ht⟩ := Option.map_eq_some_iff.mp ht
  extract_lets s1 s2 s3 at ht
  have h2 : Memory.wf s2.mem = true := by
    refine poolPut_wf _ _ ?_
    rwa [poolTake_mem]
  have h3 : Memory.wf s3.mem = true := by
    refine foldl_wf (fun u m hu => ?_) h2
    rw [State.updRec_mem]
    exact rebind_wf _ _ _ hu
  rwa [← ht, State.updGroup_mem]

@[simp] theorem writeOutGexp_wf (s : State) (core : Nat) (h : Memory.wf s.mem = true) : Memory.wf (writeOutGexp s core).mem = true := by
  grind [writeOutGexp, foldl_wf, expWriteout_wf]

theorem holdGroup_wf {s t : State} {g : Group} (ht : holdGroup s g = some t) (h : Memory.wf s.mem = true) : Memory.wf t.mem = true := by
  unfold holdGroup at ht
  extract_lets +onlyGivenNames k n spilled at ht
  obtain ⟨u, hu, ht⟩ := Option.bind_eq_some_iff.mp ht
  obtain ⟨a, -, ht⟩ := Option.map_eq_some_iff.mp ht
  have spill : ∀ v, spilled = some v → Memory.wf v.mem = true := by
    refine foldl_keeps (P := fun r : Option State => ∀ v, r = some v → Memory.wf v.mem = true) (fun r i hr v hv => ?_) (List.range 4)
      (b := some s) (fun v hv => by cases hv; exact h)
    obtain ⟨w, hrw, hw⟩ := Option.bind_eq_some_iff.mp hv
    split at hw
    · exact spillSlot_wf hw (hr w hrw)
    · cases hw
      exact hr v hrw
  rw [← ht]
  simp [spill u hu]

theorem unitStep_wf {s t : State} {die gid : Nat} (ht : unitStep s die gid = some t)
    (h : Memory.wf s.mem = true) : Memory.wf t.mem = true := by
  unfold unitStep at ht
  extract_lets gs method at ht
  have counted : ∀ k, Memory.wf (unitDone s die gid k).mem = true := fun k => by rwa [unitDone_mem]
  split at ht
  · cases ht
    exact saveGang_wf _ _ _ h
  · split at ht
    · cases ht
    · split at ht
      · split at ht
        · obtain ⟨u, hu, rfl⟩ := Option.map_eq_some_iff.mp ht
          rw [unitDone_mem]
          exact holdGroup_wf hu h
        · cases ht
          exact counted _
      · cases ht
        exact counted _

@[simp] theorem resumeRecord_wf (s : State) (rid : Nat) (h : Memory.wf s.mem = true) : Memory.wf (resumeRecord s rid).mem = true := by
  unfold resumeRecord
  repeat' split
  all_goals simp [h]

@[simp] theorem resumeDie_wf (die : Nat) (s : State) (h : Memory.wf s.mem = true) : Memory.wf (resumeDie die s).mem = true := by
  unfold resumeDie
  dsimp only
  repeat' split
  all_goals simp +contextual [foldl_wf, h]

@[simp] theorem restoreGroup_wf (s : State) (g : Group) (im : GroupImage) (core : Nat) (h : Memory.wf s.mem = true) :
    Memory.wf (restoreGroup s g im core).mem = true := by
  unfold restoreGroup
  refine foldl_wf (fun t r ht => resumeRecord_wf _ _ ht) ?_
  simp [wf_tabPuts (wf_tabPuts h _ _)]

/-! ### Abort -/

@[simp] theorem settleSlice_wf (who : Option Nat) (s : State) (e : Nat × Nat × Nat) (h : Memory.wf s.mem = true) :
    Memory.wf (settleSlice who s e).mem = true := by
  unfold settleSlice
  dsimp only
  repeat' split
  all_goals simp [h]

@[simp] theorem trimRecord_wf (s : State) (m : RecMeta) (gone : BitVec 4) (h : Memory.wf s.mem = true) :
    Memory.wf (trimRecord s m gone).mem = true := by
  unfold trimRecord
  extract_lets +onlyGivenNames r x waits was s1 lanes toks s2 s3 exp s4 s5 s6 s7 s8
  have h1 : Memory.wf s1.mem = true := by
    unfold s1
    split
    · exact unbin_wf _ _ h
    · exact h
  have h2 : Memory.wf s2.mem = true := by
    unfold s2
    split
    · exact h1
    · exact recPut_wf _ _ _ _ (recPut_wf _ _ _ _ h1)
  have h3 : Memory.wf s3.mem = true := recPut_wf _ _ _ _ (recPut_wf _ _ _ _ h2)
  have h4 : Memory.wf s4.mem = true := by
    unfold s4
    split
    · exact h3
    · exact expUnbind_wf _ _ _ (recPut_wf _ _ _ _ h3)
  have h5 : Memory.wf s5.mem = true := by
    unfold s5
    rwa [dropLaneWaits_mem]
  have h6 : Memory.wf s6.mem = true := by
    unfold s6
    refine foldl_wf (fun t i ht => ?_) h5
    rwa [threadEnded_mem]
  have h8 : Memory.wf s8.mem = true := by
    unfold s8
    rw [State.updRec_mem]
    exact groupEnded_wf _ _ _ h6
  split
  · exact binRecord_wf _ _ h8
  · split
    · exact makeRunnable_wf _ _ h8
    · exact h8

@[simp] theorem settleRecord_wf (who : Option Nat) (s : State) (rid : Nat) (h : Memory.wf s.mem = true) :
    Memory.wf (settleRecord who s rid).mem = true := by
  unfold settleRecord
  dsimp only
  repeat' split
  all_goals simp [h]

@[simp] theorem settleGroup_wf (s : State) (g : Group) (h : Memory.wf s.mem = true) : Memory.wf (settleGroup s g).mem = true := by
  unfold settleGroup
  repeat' split
  all_goals simp -implicitDefEqProofs [h]

@[simp] theorem settleLaunch_wf (s : State) (l : Launch) (h : Memory.wf s.mem = true) : Memory.wf (settleLaunch s l).mem = true := by
  unfold settleLaunch
  grind [foldl_wf, cancelOps_mem, dropTasks_mem, settleRecord_wf, settleSlice_wf, settleGroup_wf, State.updLaunch_mem, report_mem]

@[simp] theorem dropLaunch_wf (s : State) (l : Launch) (h : Memory.wf s.mem = true) : Memory.wf (dropLaunch s l).mem = true := by
  simp [dropLaunch, h]

@[simp] theorem abortLaunch_wf (s : State) (l : Launch) (h : Memory.wf s.mem = true) : Memory.wf (abortLaunch s l).mem = true := by
  unfold abortLaunch
  repeat' split
  all_goals simp [h]

@[simp] theorem settleContext_wf (s : State) (ctx : Nat) (h : Memory.wf s.mem = true) : Memory.wf (settleContext s ctx).mem = true := by
  grind [settleContext, foldl_wf, cancelOps_mem, dropTasks_mem, settleRecord_wf, settleSlice_wf]

/-! ### Firmware -/

@[simp] theorem unmapStarts_wf (s : State) (q : Nat) (h : Memory.wf s.mem = true) : Memory.wf (unmapStarts s q).mem = true := by
  simp [unmapStarts, h]
@[simp] theorem unmapAll_wf (s : State) (ctx : Nat) (h : Memory.wf s.mem = true) : Memory.wf (unmapAll s ctx).mem = true := by
  simp +contextual [unmapAll, foldl_wf, h]

@[simp] theorem mapQueue_wf (s : State) (q last : Nat) (w : Nat → Nat) (h : Memory.wf s.mem = true) :
    Memory.wf (mapQueue s q last w).mem = true := by
  simp [mapQueue, h]

@[simp] theorem unpowerCores_wf {s : State} (h : Memory.wf s.mem = true) : Memory.wf (unpowerCores s).mem = true := unpowerCores_inv h

/-! ### Homes -/

@[simp] theorem homeWrite_wf (s : State) (m : Msg) (h : Memory.wf s.mem = true) : Memory.wf (homeWrite s m).1.mem = true := by
  refine foldl_keeps (P := fun r : State × Nat => Memory.wf r.1.mem = true) (fun r e hr => accWrite_wf _ _ _ _ ?_) (writeSpans s m) h
  rwa [touchBy_mem]

@[simp] theorem homeAtomic_wf (s : State) (m : Msg) (h : Memory.wf s.mem = true) : Memory.wf (homeAtomic s m).mem = true := by
  unfold homeAtomic
  dsimp only
  split <;> simp [h]

theorem callBack_wf (s : State) (m : Msg) (h : Memory.wf s.mem = true) : Memory.wf (callBack s m).state.mem = true := by
  unfold callBack
  grind [Served.state, nack_mem, clearFailed_mem, requestLine_mem]

theorem forward_wf (s : State) (kind mode : Nat) (m : Msg) (h : Memory.wf s.mem = true) :
    Memory.wf (forward s kind mode m).state.mem = true := by
  unfold forward
  grind [Served.state, nack_mem, send_mem]

theorem serveRead_wf (s : State) (excl : Bool) (m : Msg) (h : Memory.wf s.mem = true) :
    Memory.wf (serveRead s excl m).state.mem = true := by
  unfold serveRead
  grind [Served.state, nack_mem, noteUncorrectable_mem, touchBy_mem, dataTo_mem, setBrass_mem, callBack_wf, forward_wf, dropL2_mem,
    l1Settle_mem, setL2_mem, storeTime_mem, scrub_mem]

@[simp] theorem putBack_wf (s : State) (la : Nat) (data : List Byte) (rts : Nat) (shared : Bool) (h : Memory.wf s.mem = true) :
    Memory.wf (putBack s la data rts shared).mem = true := by
  unfold putBack
  rw [storeTime_mem]
  refine wf_tabPuts ?_ _ _
  simp [h]

@[simp] theorem takeBack_wf (s : State) (m : Msg) (h : Memory.wf s.mem = true) : Memory.wf (takeBack s m).mem = true := by
  unfold takeBack
  dsimp only
  split <;> simp [h]

@[simp] theorem saveWrite_wf (s : State) (m : Msg) (h : Memory.wf s.mem = true) : Memory.wf (saveWrite s m).mem = true := by
  unfold saveWrite
  dsimp only
  repeat' split
  all_goals simp +contextual [foldl_wf, h]

theorem serveRepair_wf (s : State) (m : Msg) (h : Memory.wf s.mem = true) : Memory.wf (serveRepair s m).state.mem = true := by
  unfold serveRepair
  grind [Served.state, postMsg_mem, foldl_mem, State.bump_mem, ack_mem, repairLine_wf]

theorem serve_wf (kind : Nat) (m : Msg) (s : State) (h : Memory.wf s.mem = true) : Memory.wf (serve kind m s).state.mem = true := by
  unfold serve
  dsimp only
  split
  · exact serveRead_wf _ _ _ h
  · exact serveRead_wf _ _ _ h
  · grind [Served.state, nack_mem, ack_mem, takeBack_wf, noteUncorrectable_mem, saveWrite_wf, expUnbind_wf, serveRepair_wf,
      callBack_wf, serveMonitor_mem, setMside_mem, homeAtomic_wf, homeWrite_wf]

theorem servePeer_wf (m : Msg) (s : State) (h : Memory.wf s.mem = true) : Memory.wf (servePeer m s).state.mem = true := by
  obtain ⟨F, hF⟩ : ∃ F, F = servePeer := ⟨_, rfl⟩
  rw [← hF]
  delta servePeer at hF
  subst hF
  beta_reduce
  extract_lets +onlyGivenNames q who desc ask
  have asked (pa : Nat) : Memory.wf (ask s pa).state.mem = true := by
    have late : Memory.wf (askLine s 0 who s.latest pa true).mem = true := by rwa [askLine_mem]
    simp only [ask]
    split
    · refine nacked_wf _ _ _ ?_
      rwa [clearFailed_mem]
    · split
      · refine nacked_wf _ _ _ ?_
        rwa [clearFailed_mem]
      · exact late
  split
  · exact asked _
  · split
    extract_lets +onlyGivenNames size pa
    split
    · exact nacked_wf _ _ _ h
    · split
      · exact nacked_wf _ _ _ h
      · split
        · exact asked _
        · show Memory.wf (ack _ m 0 0 true).mem = true
          rw [ack_mem]
          exact storeProd_wf _ _ _ (frontPut_wf _ _ _ h)

theorem serveAny_wf (kind : Nat) (m : Msg) (s : State) (h : Memory.wf s.mem = true) : Memory.wf (serveAny kind m s).state.mem = true := by
  unfold serveAny
  split
  · exact servePeer_wf _ _ h
  · exact serve_wf _ _ _ h

@[simp] theorem pump_wf (line n : Nat) (s : State) (h : Memory.wf s.mem = true) : Memory.wf (pump line n s).mem = true := by
  induction n generalizing s with
  | zero => exact h
  | succ n ih =>
    unfold pump
    grind [Served.state, serveAny_wf]

@[simp] theorem pumpLine_wf (s : State) (line : Nat) (h : Memory.wf s.mem = true) : Memory.wf (pumpLine s line).mem = true := by
  simp [pumpLine, h]

@[simp] theorem arriveHome_wf (kind : Nat) (m : Msg) (s : State) (h : Memory.wf s.mem = true) :
    Memory.wf (arriveHome kind m s).mem = true := by
  unfold arriveHome
  grind [Served.state, serveAny_wf, holdItem_mem]

@[simp] theorem ownerReply_wf (s : State) (i : HomeItem) (m : Msg) (h : Memory.wf s.mem = true) :
    Memory.wf (ownerReply s i m).mem = true := by
  unfold ownerReply
  repeat' split
  all_goals simp [h]

@[simp] theorem repairDone_wf (s : State) (line : Nat) (h : Memory.wf s.mem = true) : Memory.wf (repairDone s line).mem = true := by
  unfold repairDone
  repeat' split
  all_goals simp [h]

/-! ### Fabric -/

@[simp] theorem failForward_wf (s : State) (rid : Nat) (h : Memory.wf s.mem = true) : Memory.wf (failForward s rid).mem = true := by
  unfold failForward
  grind [trapRecord_wf, getD_wf, State.updRec_mem]

@[simp] theorem failReq_wf (s : State) (r : Req) (h : Memory.wf s.mem = true) : Memory.wf (failReq s r).mem = true := by
  unfold failReq
  dsimp only
  repeat' split
  all_goals simp [h]

@[simp] theorem partAnswer_wf (s : State) (m : Msg) (key : Nat) (h : Memory.wf s.mem = true) :
    Memory.wf (partAnswer s m key).mem = true := by
  unfold partAnswer
  split <;> simp [h]

@[simp] theorem partLost_wf (s : State) (p : Post) (h : Memory.wf s.mem = true) : Memory.wf (partLost s p).mem = true := by
  unfold partLost
  dsimp only
  repeat' split
  all_goals simp [h]

@[simp] theorem settlePost_wf (s : State) (p : Post) (m : Option Msg) (h : Memory.wf s.mem = true) :
    Memory.wf (settlePost s p m).mem = true := by
  unfold settlePost
  repeat' split
  all_goals simp [h]

@[simp] theorem lineBack_wf (s : State) (r : Req) (m : Msg) (h : Memory.wf s.mem = true) : Memory.wf (lineBack s r m).mem = true := by
  unfold lineBack
  dsimp only
  repeat' split
  all_goals simp [h]

@[simp] theorem recordLeaves_wf (s : State) (rid node : Nat) (h : Memory.wf s.mem = true) :
    Memory.wf (recordLeaves s rid node).mem = true := by
  unfold recordLeaves
  split <;> simp [h]

@[simp] theorem arriveRecord_wf (s : State) (rid core : Nat) (h : Memory.wf s.mem = true) :
    Memory.wf (arriveRecord s rid core).mem = true := by
  unfold arriveRecord
  split <;> simp [h]

@[simp] theorem relocate_wf (s : State) (m : RecMeta) (a : Nat) (h : Memory.wf s.mem = true) : Memory.wf (relocate s m a).mem = true := by
  unfold relocate
  split <;> simp [h]

@[simp] theorem takeRecord_wf (s : State) (m : Msg) (core a : Nat) (h : Memory.wf s.mem = true) :
    Memory.wf (takeRecord s m core a).mem = true := by
  simp [takeRecord, h]

@[simp] theorem partEnded_wf (s : State) (m : Msg) (h : Memory.wf s.mem = true) : Memory.wf (partEnded s m).mem = true := by
  unfold partEnded
  dsimp only
  repeat' split
  all_goals simp [h]

/-! ### Ingest -/

theorem planWrites_wf (i ctx : Nat) (l : List (Nat × List Byte)) (s : State) (h : Memory.wf s.mem = true) :
    Memory.wf (planWrites i ctx l s).state.mem = true := by
  induction l generalizing s with
  | nil => exact h
  | cons q r ih =>
    obtain ⟨va, bs⟩ := q
    unfold planWrites
    split
    · show Memory.wf (clearFront s 0 ctx va).mem = true
      rwa [clearFront_mem]
    · have translated := translate_wf s 0 none ctx va false .front h
      split
      next heq => exact fst_wf heq translated
      next t heq =>
        show Memory.wf (askWalk t 0 ctx (va / 0x10000) false true).mem = true
        rw [askWalk_mem]
        exact fst_wf heq translated
      next t x heq =>
        have ht : Memory.wf t.mem = true := fst_wf heq translated
        have failed : Memory.wf (clearFailed t (ingestWho i) [x.pa]).mem = true := by rwa [clearFailed_mem]
        have bad : Memory.wf (noteUncorrectable t (localOf x.pa)).mem = true := by rwa [noteUncorrectable_mem]
        have asked : Memory.wf (askLine t 0 (ingestWho i) t.latest x.pa true).mem = true := by rwa [askLine_mem]
        have marked := dirtyFor_wf t 0 (ingestWho i) va x ht
        grind [IngestPlan.state]

@[simp] theorem ingestWrite_wf (i ctx : Nat) (s : State) (w : Nat × Nat × List Byte × Xlt) (h : Memory.wf s.mem = true) :
    Memory.wf (ingestWrite i ctx s w).mem = true := by
  unfold ingestWrite
  split <;> simp [h]

@[simp] theorem closeGroup_wf (s : State) (i : Nat) (f : Frame) (h : Memory.wf s.mem = true) : Memory.wf (closeGroup s i f).mem = true := by
  unfold closeGroup
  grind [IngestPlan.state, planWrites_wf, dropFrame_mem, clearIngest_mem, pushReady_mem, State.setStream_mem, foldl_wf, ingestWrite_wf]

/-! ### Device -/

@[simp] theorem moduleReset_wf {s : State} (keep : Bool) (h : Memory.wf s.mem = true) : Memory.wf (moduleReset s keep).mem = true :=
    moduleReset_inv h keep

/-! ### Expand -/

@[simp] theorem openedExp_wf (c : Ctx) (s : State) (grp : Bool) (rb a : Nat) (owners : List Owner) (bad : List Nat)
    (h : Memory.wf s.mem = true) : Memory.wf (openedExp c s grp rb a owners bad).mem = true := by
  unfold openedExp
  split <;> simp [h]

@[simp] theorem unbindAll_wf (c : Ctx) (s : State) (h : Memory.wf s.mem = true) : Memory.wf (unbindAll c s).mem = true := by
  unfold unbindAll
  grind [foldl_wf, State.updLane_mem, expUnbind_wf, State.updSlice_mem]

/-! ### Moves -/

@[simp] theorem rawPut_wf (s : State) (la : Nat) (bs : List Byte) (h : Memory.wf s.mem = true) : Memory.wf (rawPut s la bs).mem = true := by
  have put : ∀ m : List Host.Cell, Memory.wf m = true →
      Memory.wf (bs.zipIdx.foldl (fun m e => tabPut 0#8 m (memKey (placeOf s (la + e.2))) e.1) m) = true :=
    fun m hm => foldl_keeps (P := fun m => Memory.wf m = true) (fun m e hm => wf_tabPut hm _ _) _ hm
  unfold rawPut
  dsimp only
  split
  case h_1 | h_7 => exact h
  all_goals exact put _ h

@[simp] theorem strike_wf (s : State) (u : Upset) (h : Memory.wf s.mem = true) : Memory.wf (strike s u).mem = true := by
  unfold strike
  dsimp only
  repeat' split
  all_goals simp [h]

@[simp] theorem strikeDue_wf (s : State) (h : Memory.wf s.mem = true) : Memory.wf (strikeDue s).mem = true := by
  simp +contextual [strikeDue, foldl_wf, h]
@[simp] theorem noteOpen_wf (s : State) (h : Memory.wf s.mem = true) : Memory.wf (noteOpen s).mem = true := by
  simp [noteOpen, h]
@[simp] theorem passTime_wf (s : State) (idle : Bool) (h : Memory.wf s.mem = true) : Memory.wf (passTime s idle).mem = true := by
  simp [passTime, h]

end Sys2Proof.Machine

/-! PROOFS. The effects of the words keep the memory table in its canonical form (O50): the shared operations of an effect, each
from what it is given to do, and the issue that surrounds every effect. -/

namespace Sys2Proof.Machine

/-! ### Access -/

/-- Whatever passes the checks goes on from a state whose table has the form, for the walks of the checks keep it. -/
theorem withAccess_wf {s : State} {c : Ctx} (target : State → Xlt → Option Cause) (ws : List Want) {go : State → List (Want × Xlt) → Body}
    (hgo : ∀ t rs, Memory.wf t.mem = true → Memory.wf (go t rs).state.mem = true) (h : Memory.wf s.mem = true) :
    Memory.wf (withAccess s c target ws go).state.mem = true := by
  have hw := checkWants_wf c.g target ws s h
  unfold withAccess
  dsimp only
  split
  · exact hw
  · split
    · exact hw
    · exact hgo _ _ hw

theorem makeAccesses_wf {s : State} (c : Ctx) (vl : Bool) (as : List Acc) (writes : List VlWrite) (h : Memory.wf s.mem = true) :
    Memory.wf (makeAccesses s c vl as writes).state.mem = true := by
  unfold makeAccesses
  grind [Body.state, failAll_mem, issueLater_mem, clearFailed_mem, askAccs_mem, accMade_wf]

/-! ### Integer -/

theorem perLane_wf {c : Ctx} (val : Slice → Nat → Nat) (h : Memory.wf c.s.mem = true) : Memory.wf (perLane c val).state.mem = true := by
  unfold perLane
  grind [Body.state, putAll_mem]

theorem perLaneLater_wf {c : Ctx} (val : Slice → Nat → Nat × Flags) (h : Memory.wf c.s.mem = true) :
    Memory.wf (perLaneLater c val).state.mem = true := by
  unfold perLaneLater
  grind [Body.state, issueLater_mem]

theorem carryOp_wf {c : Ctx} (val : Slice → Nat → Int) (h : Memory.wf c.s.mem = true) : Memory.wf (carryOp c val).state.mem = true := by
  unfold carryOp
  grind [Body.state, putAll_mem]

/-! ### Float -/

theorem perLaneF_wf {c : Ctx} (val : Slice → Nat → Nat × Flags) (h : Memory.wf c.s.mem = true) :
    Memory.wf (perLaneF c val).state.mem = true := by
  unfold perLaneF
  grind [Body.state, putAll_mem, raiseAll_mem]

/-! ### Futures -/

theorem trapFirst_wf {c : Ctx} (cause : Cause) (addr : Nat) (h : Memory.wf c.s.mem = true) :
    Memory.wf (trapFirst c cause addr).state.mem = true := by
  unfold trapFirst
  split
  · exact h
  · exact h

theorem trapLanes_wf {s : State} (bad : List (Slice × Nat × Cause × Nat)) (h : Memory.wf s.mem = true) :
    Memory.wf (trapLanes s bad).state.mem = true := h

theorem startOp_wf {c : Ctx} {s : State} (op : EngineOp) (hc : Memory.wf c.s.mem = true) (h : Memory.wf s.mem = true) :
    Memory.wf (startOp c s op).state.mem = true := by
  unfold startOp
  grind [Body.state, trapFirst_wf, startedOp_mem]

theorem withDesc_wf {c : Ctx} {go : Slice × Nat → Nat → Body} (hgo : ∀ e a, Memory.wf (go e a).state.mem = true)
    (h : Memory.wf c.s.mem = true) :
    Memory.wf (withDesc c go).state.mem = true := by
  unfold withDesc
  grind [Body.state, trapFirst_wf]

theorem racq_wf {c : Ctx} (consumer : Bool) (h : Memory.wf c.s.mem = true) : Memory.wf (racq c consumer).state.mem = true := by
  unfold racq
  split
  · exact h
  · split
    · exact trapFirst_wf _ _ h
    · extract_lets +onlyGivenNames k r
      split
      · exact trapFirst_wf _ _ h
      · split
        next t st heq =>
          have ht : Memory.wf t.mem = true := by
            split at heq
            · rwa [ringAcquire_mem heq]
            · cases heq
          show Memory.wf (giveAll _ c _).mem = true
          rw [giveAll_mem, State.link_mem]
          split
          · exact foldl_wf (fun u e hu => by rwa [State.sees_mem]) ht
          · exact ht
        next => exact foldl_wf (fun t p ht => by rwa [waitSlice_mem]) h

theorem rrel_wf {c : Ctx} (consumer : Bool) (h : Memory.wf c.s.mem = true) : Memory.wf (rrel c consumer).state.mem = true := by
  unfold rrel
  grind [Body.state, trapFirst_wf, ringRelease_wf]

/-! ### Memory -/

theorem loadReceived_wf {c : Ctx} (entry : List W32) (h : Memory.wf c.s.mem = true) :
    Memory.wf (loadReceived c entry).state.mem = true := by
  unfold loadReceived
  grind [Body.state, trapLanes_wf, issueLater_mem]

theorem withStores_wf {s : State} {c : Ctx} {rs : List (Want × Xlt)} {go : State → Body}
    (hgo : ∀ t, Memory.wf t.mem = true → Memory.wf (go t).state.mem = true) (h : Memory.wf s.mem = true) :
    Memory.wf (withStores s c rs go).state.mem = true := by
  unfold withStores
  grind [Body.state, dirtyAll_wf, foldl_wf, failDirty_mem]

theorem storeReceived_wf {c : Ctx} (entry : List W32) (h : Memory.wf c.s.mem = true) :
    Memory.wf (storeReceived c entry).state.mem = true := by
  unfold storeReceived
  grind [Body.state, trapLanes_wf, foldl_wf, waitSlice_mem, notClean_mem, State.setCore_mem]

theorem Body.after_wf {b : Body} {f : State → State} (hf : ∀ t, Memory.wf t.mem = true → Memory.wf (f t).mem = true)
    (h : Memory.wf b.state.mem = true) :
    Memory.wf (b.after f).state.mem = true := by
  cases b with
  | done s => exact hf s h
  | _ => exact h

/-! ### Engine -/

theorem Body.map_wf {b : Body} {f : State → State} (hf : ∀ t, Memory.wf t.mem = true → Memory.wf (f t).mem = true)
    (h : Memory.wf b.state.mem = true) :
    Memory.wf (b.map f).state.mem = true := by
  cases b with
  | done s => exact hf s h
  | _ => exact h

theorem groupOnly_wf {c : Ctx} {go : Slice × Nat → Body} (hgo : ∀ e, Memory.wf (go e).state.mem = true) (h : Memory.wf c.s.mem = true) :
    Memory.wf (groupOnly c go).state.mem = true := by
  unfold groupOnly
  grind [Body.state, trapFirst_wf]

theorem startSeeded_wf {c : Ctx} (e : Slice × Nat) (op : EngineOp) (h : Memory.wf c.s.mem = true) :
    Memory.wf (startSeeded c e op).state.mem = true := by
  unfold startSeeded
  grind [startOp_wf, seeded_mem]

/-! ### Fibre -/

theorem zadv_wf {c : Ctx} (seek : Bool) (h : Memory.wf c.s.mem = true) : Memory.wf (zadv c seek).state.mem = true := by
  unfold zadv
  grind [Body.state, advanceAll_wf, seeksDone_mem, foldl_wf, askLine_mem, advanced_mem]

/-! ### Matrix -/

theorem mxres_wf {c : Ctx} (wside : Bool) (h : Memory.wf c.s.mem = true) : Memory.wf (mxres c wside).state.mem = true := by
  unfold mxres
  grind [Body.state, groupOnly_wf, trapFirst_wf, clearImage_wf, State.setResv_mem]

theorem mxdrain_wf {c : Ctx} (h : Memory.wf c.s.mem = true) : Memory.wf (mxdrain c).state.mem = true := by
  unfold mxdrain
  grind [withDesc_wf, groupOnly_wf, trapFirst_wf, startSeeded_wf]

/-! ### Control -/

theorem transfer_wf {c : Ctx} (link : Bool) (atN : Option Nat) (tgt : Slice → Nat → Nat) (h : Memory.wf c.s.mem = true) :
    Memory.wf (transfer c link atN tgt).state.mem = true := by
  unfold transfer
  grind [Body.state, putAll_mem, applySlices_mem]

theorem explicitTrap_wf {c : Ctx} (cause : Cause) (h : Memory.wf c.s.mem = true) : Memory.wf (explicitTrap c cause).state.mem = true := by
  unfold explicitTrap
  grind [Body.state]

theorem tret_wf {c : Ctx} (how : Release) (h : Memory.wf c.s.mem = true) : Memory.wf (tret c how).state.mem = true := by
  unfold tret
  grind [Body.state, trapFirst_wf, foldl_wf, wcWriteSlice_wf, releaseRecord_wf]

/-! ### MemSys -/

theorem feset_wf {c : Ctx} (v : Bool) (h : Memory.wf c.s.mem = true) : Memory.wf (feset c v).state.mem = true := by
  unfold feset
  grind [Body.state, withAccess_wf, withStores_wf, fesetDone_wf]

theorem atomic_wf {c : Ctx} (op code : Nat) (ea : Slice → Nat → Nat) (b d : Slice → Nat → Nat) (h : Memory.wf c.s.mem = true) :
    Memory.wf (atomic c op code ea b d).state.mem = true := by
  refine withAccess_wf _ _ (fun t rs ht => ?_) h
  exact withStores_wf (fun u hu => makeAccesses_wf _ _ _ _ hu) ht

theorem watchAll_wf {c : Ctx} {s : State} (d dregs : Nat) (ws : List Watch) (h : Memory.wf s.mem = true) :
    Memory.wf (watchAll c s d dregs ws).state.mem = true := by
  unfold watchAll
  grind [Body.state, askLine_mem, watched_mem]

theorem maintain_wf {c : Ctx} (need : Nat) (whole : Bool) {eff : State → Src → Nat → State}
    (he : ∀ t o l, Memory.wf t.mem = true → Memory.wf (eff t o l).mem = true) (h : Memory.wf c.s.mem = true) :
    Memory.wf (maintain c need whole eff).state.mem = true := by
  refine withAccess_wf _ _ (fun t rs ht => ?_) h
  grind [Body.state, foldl_wf, fenceHeld_mem]

theorem qwait_wf {c : Ctx} (blocking : Bool) (h : Memory.wf c.s.mem = true) : Memory.wf (qwait c blocking).state.mem = true := by
  have answered : ∀ s v, Memory.wf s.mem = true → Memory.wf (Body.done (giveAll s c v)).state.mem = true := fun s v hs => by
    show Memory.wf (giveAll s c v).mem = true
    rwa [giveAll_mem]
  unfold qwait
  extract_lets code p
  split
  · exact h
  · split
    · exact trapFirst_wf _ _ h
    · split
      · exact trapFirst_wf _ _ h
      · split
        · refine answered _ _ ?_
          rwa [State.link_mem]
        · split
          · exact answered _ _ h
          · exact foldl_wf (fun t q ht => by rwa [waitSlice_mem]) h

/-! ### Parallel -/

theorem withAux_wf {c : Ctx} (val : Slice → Nat → Nat × Bool) (h : Memory.wf c.s.mem = true) :
    Memory.wf (withAux c val).state.mem = true := by
  unfold withAux
  grind [Body.state, putAll_mem]

theorem reduce_wf {c : Ctx} (part : Slice → Nat → List (Slice × Nat)) (h : Memory.wf c.s.mem = true) :
    Memory.wf (reduce c part).state.mem = true := by
  unfold reduce
  exact perLaneF_wf _ h

theorem rcv_wf {c : Ctx} (kind : TokenKind) (h : Memory.wf c.s.mem = true) : Memory.wf (rcv c kind).state.mem = true := by
  unfold rcv
  extract_lets t r
  split
  · show Memory.wf (applySlices c.s c _).mem = true
    rwa [applySlices_mem]
  · exact h

theorem spawnTasks_wf {c : Ctx} (nb : Bool) (h : Memory.wf c.s.mem = true) : Memory.wf (spawnTasks c nb).state.mem = true := by
  have entries : Memory.wf (c.entriesRead c.spawnee).mem = true := by rwa [Ctx.entriesRead_mem]
  unfold spawnTasks
  extract_lets +onlyGivenNames die gone none?
  clear_value gone none?
  split
  · exact h
  · cases gone with
    | some pa =>
      show Memory.wf (askLine c.s die (.core c.g.core) (c.s.core c.g.core).pts pa false).mem = true
      rwa [askLine_mem]
    | none =>
      dsimp only
      split
      · exact entries
      · refine foldl_wf (fun t e ht => ?_) entries
        grind [placeTasks_mem, givePred_mem, State.updSlice_mem, waitSlice_mem]

theorem noBarrier_wf {c : Ctx} (h : Memory.wf c.s.mem = true) : Memory.wf (noBarrier c).state.mem = true := h

theorem arrive_wf {c : Ctx} (plain : Bool) (h : Memory.wf c.s.mem = true) : Memory.wf (arrive c plain).state.mem = true := by
  unfold arrive
  grind [Body.state, noBarrier_wf, putAll_mem, arriveMany_mem]

/-! ### Expand -/

theorem itemsTaken_wf {s t : State} (c : Ctx) (items : List Item) (rs : List (Want × Xlt)) (h : Memory.wf t.mem = true) :
    Memory.wf (itemsTaken s t c items rs).mem = true := by
  unfold itemsTaken
  rw [raiseAll_mem]
  exact foldl_wf (fun u i hu => by rwa [takeItem_mem]) h

theorem withItems_wf {c : Ctx} (items : List Item) {go : State → List Nat → State}
    (hgo : ∀ t bad, Memory.wf t.mem = true → Memory.wf (go t bad).mem = true) (h : Memory.wf c.s.mem = true) :
    Memory.wf (withItems c items go).state.mem = true := by
  refine withAccess_wf _ _ (fun t rs ht => ?_) h
  have stored := withStores_wf (c := c) (rs := rs) (fun u hu => makeAccesses_wf c false (itemStores u c items rs) [] hu) ht
  grind [Body.state, itemsTaken_wf]

theorem openExp_wf {c : Ctx} {s : State} (first : Slice × Nat) (grp : Bool) (rb : Nat) (owners : List Owner) (h : Memory.wf s.mem = true) :
    Memory.wf (openExp c s first grp rb owners).state.mem = true := by
  unfold openExp
  refine withAccess_wf _ _ (fun t rs ht => ?_) h
  have stored := withStores_wf (c := c) (rs := rs) (fun u hu => makeAccesses_wf c false (zeroStores c rs) [] hu) ht
  grind [Body.state, openedExp_wf]

theorem expnGroup_wf {c : Ctx} (k : Nat) (h : Memory.wf c.s.mem = true) : Memory.wf (expnGroup c k).state.mem = true := by
  unfold expnGroup
  grind [Body.state, trapLanes_wf, withItems_wf, placeExp_mem, setExp_mem, foldl_wf, State.updSlice_mem, dealAll_mem]

theorem finish_lands {p : Prop} {s : State} {c : Ctx} (starved : Bool) {b : Body} (hs : p → Memory.wf s.mem = true)
    (hb : p → Memory.wf b.state.mem = true) : Lands p (finish s c starved b) := by
  have trapped : ∀ t g sub spot hits, (p → Memory.wf t.mem = true) → Lands p (.next (trapSlices t g sub spot hits)) := by
    intro t g sub spot hits ht hp
    rw [trapSlices_mem]
    exact ht hp
  unfold finish
  split
  · exact trapped _ _ _ _ _ hb
  · split
    · exact trapped _ _ _ _ _ hs
    · split
      · intro hp
        rw [retire_mem]
        exact hb hp
      · intro hp
        rw [walkSlices_mem]
        exact hb hp
      · exact hb
      · exact trapped _ _ _ _ _ hb

/-- A word that a running sub-gang has come to goes on, and keeps the form where its own effect does. -/
theorem issue_lands {i : Instr} {s : State} {body : Ctx → Body} (hi : (issuer s).isSome = true)
    (hb : ∀ c, Memory.wf c.s.mem = true → Memory.wf (body c).state.mem = true) : Lands (Memory.wf s.mem = true) (issue i s body) := by
  obtain ⟨⟨g, sub, run⟩, hr⟩ := Option.isSome_iff_exists.mp hi
  unfold issue
  rw [hr]
  dsimp only
  have gated : Memory.wf s.mem = true → (gate i s.freshen g sub run).Wf := fun h => gate_wf i s.freshen g sub run h
  split
  next heq => exact fun h => by simpa [heq, Gate.Wf] using gated h
  next heq =>
    rw [heq] at gated
    exact finish_lands _ (fun h => (gated h).1) (fun h => hb _ (gated h).2)

/-! ### Clause -/

theorem settled_wf {s : State} (core slot pos : Nat) {go : State → Gang → Slice → State}
    (hgo : ∀ t g x, Memory.wf t.mem = true → Memory.wf (go t g x).mem = true) (h : Memory.wf s.mem = true) :
    Memory.wf (settled s core slot pos go).mem = true := by
  unfold settled
  grind [settleVague_mem]

/-! ### Fabric -/

theorem sunk_wf (p : Pend → Bool) (s0 : State) {s : State} (h : Memory.wf s.mem = true) : Memory.wf (sunk p s0 s).mem = true := by
  unfold sunk
  refine foldl_wf (fun t id ht => ?_) h
  grind [advancePend_wf]

/-! ### Firmware -/

theorem onDies_wf {f : Nat → State → State} {s : State} (hf : ∀ d t, Memory.wf t.mem = true → Memory.wf (f d t).mem = true)
    (h : Memory.wf s.mem = true) : Memory.wf (onDies f s).mem = true := by
  unfold onDies
  exact foldl_wf (fun t d ht => hf d t ht) h

end Sys2Proof.Machine

/-! PROOFS. Every step goes on (O49) and keeps the memory table in its canonical form (O50): the part's own steps, the words with
an effect of their own, and every instruction by its arm. -/

namespace Sys2Proof.Machine

/-! ## The part's own steps -/

/-! ### MatrixUnit -/

theorem execMatrixOpStart_lands (core : Nat) (s : State) : Lands (Memory.wf s.mem = true) (execMatrixOpStart core s) := by
  unfold execMatrixOpStart
  grind [lands_next, State.updOp_mem]

theorem execMatrixOpComplete_lands (op : Nat) (s : State) : Lands (Memory.wf s.mem = true) (execMatrixOpComplete op s) := by
  unfold execMatrixOpComplete
  grind [lands_next, completeFut_mem, mxWritten_wf]

/-! ### EngineSteps -/

theorem execEngineUnitAccess_lands (op : Nat) (s : State) : Lands (Memory.wf s.mem = true) (execEngineUnitAccess op s) := by
  unfold execEngineUnitAccess
  grind [lands_next, opUnit_wf]

theorem completionOf_lands (kind : OpKind) (op : Nat) (s : State) : Lands (Memory.wf s.mem = true) (completionOf kind op s) := by
  unfold completionOf
  grind [lands_next, finishOp_wf]

theorem execFetchReserve_lands (core queue : Nat) (s : State) : Lands (Memory.wf s.mem = true) (execFetchReserve core queue s) := by
  unfold execFetchReserve
  grind [lands_next, reserveEntry_mem]

theorem execFetchCompletion_lands (op : Nat) (s : State) : Lands (Memory.wf s.mem = true) (execFetchCompletion op s) := by
  unfold execFetchCompletion
  grind [lands_next, completeFut_mem, dropOp_mem, fillEntry_mem]

theorem execIxwalkRangeComplete_lands (op : Nat) (s : State) : Lands (Memory.wf s.mem = true) (execIxwalkRangeComplete op s) := by
  have put : ∀ o ws q, Memory.wf s.mem = true → Memory.wf (putHeader s o ws q).mem = true := fun o ws q h => putHeader_wf _ _ _ _ h
  unfold execIxwalkRangeComplete
  split
  · exact id
  · split
    · exact id
    · extract_lets +onlyGivenNames j sig pts add
      have added : ∀ t r, Memory.wf t.mem = true → add t = r → Memory.wf r.state.mem = true := by
        rintro t r ht rfl
        exact signalUpdate_wf _ _ _ _ _ _ _ _ _ _ _ ht
      split
      · exact id
      · split
        · exact put _ _ _
        · split
          next heq => exact fun h => added _ _ h heq
          next heq => exact fun h => added _ _ h heq
          next =>
            dsimp only
            split
            next heq => exact fun h => added _ _ (put _ _ _ h) heq
            next => exact put _ _ _

theorem execIxwalkCompletion_lands (op : Nat) (s : State) : Lands (Memory.wf s.mem = true) (execIxwalkCompletion op s) := by
  unfold execIxwalkCompletion
  grind [lands_next, completeFut_mem, dropOp_mem]

theorem execCpactTileFill_lands (core : Nat) (s : State) : Lands (Memory.wf s.mem = true) (execCpactTileFill core s) := by
  unfold execCpactTileFill
  grind [lands_next, State.updOp_mem, dropOp_mem, getD_wf, ringRelease_wf, startTile_mem]

theorem execCpactCompletion_lands (op : Nat) (s : State) : Lands (Memory.wf s.mem = true) (execCpactCompletion op s) := by
  unfold execCpactCompletion
  grind [lands_next, completeFut_mem, dropOp_mem]

theorem execCancelSafePoint_lands (op : Nat) (s : State) : Lands (Memory.wf s.mem = true) (execCancelSafePoint op s) := by
  unfold execCancelSafePoint
  grind [lands_next, State.updOp_mem]

/-! ### Clause -/

theorem execClauseStart_lands (core slot sub : Nat) (s : State) : Lands (Memory.wf s.mem = true) (execClauseStart core slot sub s) := by
  unfold execClauseStart
  grind [lands_next, askLine_mem, beginClause_mem, fetchTrap_mem, fetchWalk_mem, nextFetch_wf]

theorem laterStep_lands (id : Nat) (tracked : Bool) (s : State) : Lands (Memory.wf s.mem = true) (laterStep id tracked s) := by
  unfold laterStep
  grind [lands_next, advancePend_wf]

theorem execCompletionStageTrap_lands (core slot pos : Nat) (s : State) :
    Lands (Memory.wf s.mem = true) (execCompletionStageTrap core slot pos s) := by
  have taken : ∀ t i f, t.mem = s.mem →
      Lands (Memory.wf s.mem = true) (.next (tidyGang ((takeTrap t core slot i pos).updSlice core slot pos f) core slot)) := by
    intro t i f ht h
    rw [tidyGang_mem, State.updSlice_mem, takeTrap_mem, ht]
    exact h
  unfold execCompletionStageTrap
  split
  · exact id
  · split
    · exact id
    · split
      · exact id
      · extract_lets +onlyGivenNames take
        split
        · split
          · split
            · exact id
            · exact taken _ _ _ rfl
          · exact id
        · exact taken _ _ _ rfl
        · exact taken _ _ _ rfl
        · exact id

theorem buffersOut_lands {p : Prop} {s : State} (core slot pos : Nat) {go : State → Host.Outcome State Fault Refusal}
    (hs : p → Memory.wf s.mem = true)
    (hgo : Lands p (go s)) : Lands p (buffersOut s core slot pos go) := by
  unfold buffersOut
  grind [lands_next, wcWriteSlice_wf]

theorem execSegmentEnd_lands (core slot pos : Nat) (s : State) : Lands (Memory.wf s.mem = true) (execSegmentEnd core slot pos s) := by
  unfold execSegmentEnd
  split
  · exact id
  · split
    · exact id
    · split
      · split
        · exact id
        · exact buffersOut_lands _ _ _ id (settled_wf _ _ _ fun t g x ht => finishSegment_wf _ _ _ _ ht)
      · exact id

theorem execTrapDelivery_lands (core slot pos : Nat) (s : State) : Lands (Memory.wf s.mem = true) (execTrapDelivery core slot pos s) := by
  unfold execTrapDelivery
  split
  · exact id
  · split
    · exact id
    · split
      · split
        · exact id
        · split
          next pa _ =>
            intro h
            show Memory.wf (askLine s (core / 64) (.core core) (s.core core).pts pa false).mem = true
            rwa [askLine_mem]
          next => exact buffersOut_lands _ _ _ id (settled_wf _ _ _ fun t g x ht => deliverTrap_wf _ _ _ _ ht)
      · exact id

theorem execPoolSpaceGrant_lands (core slot pos : Nat) (s : State) :
    Lands (Memory.wf s.mem = true) (execPoolSpaceGrant core slot pos s) := by
  unfold execPoolSpaceGrant
  grind [lands_next, State.updSlice_mem, deliverTrap_wf, finishSegment_wf]

/-! ### Bins -/

theorem execLaneEventFire_lands (rid lane : Nat) (s : State) : Lands (Memory.wf s.mem = true) (execLaneEventFire rid lane s) := by
  have failed : ∀ t m w l, t.mem = s.mem → Lands (Memory.wf s.mem = true) (.next (clearWait (markFailure t m w) m l)) := by
    intro t m w l ht h
    refine clearWait_wf _ _ _ ?_
    rwa [markFailure_mem, ht]
  unfold execLaneEventFire
  split
  next m w _ _ =>
    split
    · exact id
    · split
      · exact id
      · split
        · exact failed _ _ _ _ rfl
        · split
          next n pa va ty _ =>
            have stored : ∀ r, handleStore s m lane n pa va ty = r → Memory.wf s.mem = true → Memory.wf r.state.mem = true := by
              rintro r rfl h
              exact handleStore_wf s m lane n pa va ty h
            split
            next heq => exact fun h => clearWait_wf _ _ _ (stored _ heq h)
            next heq => exact stored _ heq
            next heq => exact stored _ heq
            next t a heq =>
              intro h
              refine clearWait_wf _ _ _ ?_
              rw [markFailure_mem]
              exact stored _ heq h
          next =>
            intro h
            refine clearWait_wf _ _ _ ?_
            rwa [portStore_mem]
          next => exact fun h => clearWait_wf _ _ _ (deliverValue_wf _ _ _ _ h)
  next => exact id

theorem drainStep_lands (core bin : Nat) (cls : Nat → Bool) (load : Bool) (s : State) :
    Lands (Memory.wf s.mem = true) (drainStep core bin cls load s) := by
  unfold drainStep
  grind [lands_next, drainBin_wf]

theorem execExpSlotLoad_lands (core bin : Nat) (s : State) : Lands (Memory.wf s.mem = true) (execExpSlotLoad core bin s) := by
  unfold execExpSlotLoad
  grind [lands_next, askLine_mem, State.setCore_mem, drainStep_lands]

theorem execGangCreate_lands (core : Nat) (s : State) : Lands (Memory.wf s.mem = true) (execGangCreate core s) := by
  unfold execGangCreate
  grind [lands_next, createGang_mem]

theorem execAgingStep_lands (who : AgeRef) (s : State) : Lands (Memory.wf s.mem = true) (execAgingStep who s) := by
  unfold execAgingStep
  grind [lands_next, State.updGang_mem, State.updRec_mem, recPut_wf]

theorem execBalancerPeriod_lands (die : Nat) (s : State) : Lands (Memory.wf s.mem = true) (execBalancerPeriod die s) := by
  unfold execBalancerPeriod
  grind [lands_next, State.setDie_mem, balance_wf]

/-! ### TaskFeed -/

theorem execTaskqRoomPlace_lands (die : Nat) (s : State) : Lands (Memory.wf s.mem = true) (execTaskqRoomPlace die s) := by
  unfold execTaskqRoomPlace
  grind [lands_next, dropPending_mem, fireWait_mem, foldl_wf, placeTasks_mem]

theorem formStep_lands (die ctx entry : Nat) (late : Bool) (s : State) :
    Lands (Memory.wf s.mem = true) (formStep die ctx entry late s) := by
  unfold formStep
  grind [lands_next, formTaskSlice_wf]

/-! ### Walks -/

theorem execWalkComplete_lands (id : Nat) (s : State) : Lands (Memory.wf s.mem = true) (execWalkComplete id s) := by
  unfold execWalkComplete
  grind [lands_next, askLine_mem, finishWalk_wf]

theorem execWalkFail_lands (id : Nat) (s : State) : Lands (Memory.wf s.mem = true) (execWalkFail id s) := by
  unfold execWalkFail
  grind [lands_next, failWalk_mem]

theorem execWalkStart_lands (die : Nat) (s : State) : Lands (Memory.wf s.mem = true) (execWalkStart die s) := by
  unfold execWalkStart
  grind [lands_next]

theorem execTlbRetentionExpiry_lands (id : Nat) (s : State) : Lands (Memory.wf s.mem = true) (execTlbRetentionExpiry id s) := by
  unfold execTlbRetentionExpiry
  grind [lands_next]

theorem execWcBufferWrite_lands (id : Nat) (s : State) : Lands (Memory.wf s.mem = true) (execWcBufferWrite id s) := by
  unfold execWcBufferWrite
  grind [lands_next, wcWrite_wf]

theorem execLogicalClockTick_lands (core : Nat) (s : State) : Lands (Memory.wf s.mem = true) (execLogicalClockTick core s) := by
  unfold execLogicalClockTick
  grind [lands_next, State.setCore_mem]

theorem execShootdownGo_lands (s : State) : Lands (Memory.wf s.mem = true) (execShootdownGo s) := by
  unfold execShootdownGo
  grind [lands_next]

theorem execShootdownComplete_lands (s : State) : Lands (Memory.wf s.mem = true) (execShootdownComplete s) := by
  unfold execShootdownComplete
  grind [lands_next]

theorem execSnapshotLatch_lands (block : Nat) (s : State) : Lands (Memory.wf s.mem = true) (execSnapshotLatch block s) := by
  unfold execSnapshotLatch
  grind [lands_next, State.setCore_mem]

theorem execSnapctlTrig_lands (s : State) : Lands (Memory.wf s.mem = true) (execSnapctlTrig s) := by
  unfold execSnapctlTrig
  grind [lands_next, fireSnapshot_mem]

theorem execSnapctlRel_lands (s : State) : Lands (Memory.wf s.mem = true) (execSnapctlRel s) := by
  unfold execSnapctlRel
  grind [lands_next]

theorem execFaultEntryWrite_lands (queue : Nat) (s : State) : Lands (Memory.wf s.mem = true) (execFaultEntryWrite queue s) := by
  have wrote : ∀ {t die who pa bs r}, physWrite t die who pa bs = r → Memory.wf t.mem = true → Memory.wf r.state.mem = true := by
    rintro t die who pa bs r rfl ht
    exact physWrite_wf _ _ _ _ _ ht
  unfold execFaultEntryWrite
  split
  · exact id
  next e _ =>
    have read : ∀ r, physRead s e.die .front e.base 16 = r → Memory.wf s.mem = true → Memory.wf r.state.mem = true := by
      rintro r rfl h
      exact physRead_wf _ _ _ _ _ h
    split
    next heq => exact read _ heq
    next heq => exact read _ heq
    next t bs heq =>
      have ht : Memory.wf s.mem = true → Memory.wf t.mem = true := read _ heq
      extract_lets +onlyGivenNames prod cons n
      split
      · exact ht
      · split
        next u heq =>
          have hu : Memory.wf s.mem = true → Memory.wf u.mem = true := fun h => wrote heq (ht h)
          split
          next heq =>
            intro h
            show Memory.wf (faultWritten _ queue e).mem = true
            rw [faultWritten_mem]
            exact wrote heq (hu h)
          next heq => exact fun h => wrote heq (hu h)
          next heq => exact fun h => wrote heq (hu h)
        next heq => exact fun h => wrote heq (ht h)
        next heq => exact fun h => wrote heq (ht h)

/-! ### Launches -/

theorem withLines_lands {p : Prop} {s k : State} (pas : List Nat) (hs : p → Memory.wf s.mem = true) (hk : p → Memory.wf k.mem = true) :
    Lands p (withLines s pas k) := by
  unfold withLines
  grind [lands_next, askLine_mem]

theorem execDependenceLatch_lands (lid dep : Nat) (s : State) : Lands (Memory.wf s.mem = true) (execDependenceLatch lid dep s) := by
  unfold execDependenceLatch
  grind [lands_next, State.updLaunch_mem, activate_wf, failLaunch_wf, frontPut_wf, report_mem, withLines_lands]

theorem enterWaitdep_lands {p : Prop} {s : State} (l : Launch) (hs : p → Memory.wf s.mem = true) : Lands p (enterWaitdep s l) := by
  unfold enterWaitdep
  grind [lands_next, DepPlan.state, planDeps_wf, report_mem, failLaunch_wf, waitdepEntered_wf]

theorem execLaunchHeadCheck_lands (queue : Nat) (s : State) : Lands (Memory.wf s.mem = true) (execLaunchHeadCheck queue s) := by
  have failed : ∀ l, Lands (Memory.wf s.mem = true) (.next (failLaunch s l)) := fun l h => failLaunch_wf _ _ h
  have asked : ∀ pa x, Lands (Memory.wf s.mem = true) (.next (askLine s 0 .front s.latest pa x)) := fun pa x h => by
    show Memory.wf (askLine s 0 .front s.latest pa x).mem = true
    rwa [askLine_mem]
  unfold execLaunchHeadCheck
  split
  · exact id
  · split
    · exact id
    next l _ =>
      split
      · exact id
      · split
        · exact asked _ _
        · split
          · exact failed _
          · extract_lets go
            have entered : ∀ e, Lands (Memory.wf s.mem = true) (go e) := by
              intro e
              unfold go
              split
              · exact failed _
              · exact enterWaitdep_lands _ fun h => by rwa [State.updLaunch_mem]
            split
            · exact entered _
            · split
              · exact asked _ _
              next pa _ =>
                intro h
                refine failLaunch_wf _ _ ?_
                rwa [noteBad_mem]
              · exact failed _
              · exact entered _

/-! ### Queues -/

theorem execQwakeWrite_lands (queue : Nat) (value : W64) (s : State) : Lands (Memory.wf s.mem = true) (execQwakeWrite queue value s) := by
  unfold execQwakeWrite
  grind [lands_next, keepPeers_mem, report_mem, storeProd_wf, withLines_lands]

theorem execWakeWordChange_lands (queue : Nat) (s : State) : Lands (Memory.wf s.mem = true) (execWakeWordChange queue s) := by
  unfold execWakeWordChange
  grind [lands_next, State.updQ_mem, wakeQueue_wf, watchWake_mem, withLines_lands]

theorem endPacket_lands {p : Prop} {s : State} (x : HwQueue) (k : Packet) (ok : Bool) (hs : p → Memory.wf s.mem = true) :
    Lands p (endPacket s x k ok) := withLines_lands _ hs fun hp => packetEnded_wf _ _ _ _ (hs hp)

theorem packetStep_lands {p : Prop} {s : State} (q : Nat) (want : Nat → Bool) {act : State → HwQueue → Packet → Host.Outcome State Fault Refusal}
    (hs : p → Memory.wf s.mem = true) (ha : ∀ t x k, (p → Memory.wf t.mem = true) → Lands p (act t x k)) : Lands p
      (packetStep s q want act) := by
  have taken : p → Memory.wf (takePacket s q want).state.mem = true := fun hp => takePacket_wf s q want (hs hp)
  unfold packetStep
  split
  next heq =>
    rw [heq] at taken
    exact taken
  next heq =>
    rw [heq] at taken
    split
    · exact endPacket_lands _ _ _ taken
    · exact ha _ _ _ taken

theorem execNopPacket_lands (queue : Nat) (s : State) : Lands (Memory.wf s.mem = true) (execNopPacket queue s) := by
  unfold execNopPacket
  grind [lands_next, endPacket_lands, packetStep_lands]

theorem execLaunchPacket_lands (queue : Nat) (s : State) : Lands (Memory.wf s.mem = true) (execLaunchPacket queue s) := by
  unfold execLaunchPacket
  refine packetStep_lands _ _ id fun t x p ht => ?_
  grind [lands_next, State.updQ_mem, addLaunch_mem, lookVirt_wf, endPacket_lands, clearFront_mem]

theorem execBeginPacket_lands (queue : Nat) (s : State) : Lands (Memory.wf s.mem = true) (execBeginPacket queue s) := by
  unfold execBeginPacket
  refine packetStep_lands _ _ id fun t x p ht => ?_
  extract_lets +onlyGivenNames m
  split
  · exact endPacket_lands _ _ _ ht
  · split
    · exact ht
    · extract_lets +onlyGivenNames at_
      have looked : Memory.wf s.mem = true → Memory.wf (checkMembers x (packetSrc p.words) ((List.range m).map fun i => at_
        (i + 1)) t).1.mem = true :=
        fun h => checkMembers_wf _ _ _ _ (ht h)
      split
      next u _ pa heq _ =>
        intro h
        show Memory.wf (askLine u 0 .front u.latest pa false).mem = true
        rw [askLine_mem]
        exact fst_wf heq (looked h)
      next heq _ => exact fun h => fst_wf heq (looked h)
      next heq _ =>
        exact withLines_lands _ (fun h => fst_wf heq (looked h)) fun h => batchBegun_wf _ _ _ _ _ (fst_wf heq (looked h))

theorem execCommitPacket_lands (queue : Nat) (s : State) : Lands (Memory.wf s.mem = true) (execCommitPacket queue s) := by
  unfold execCommitPacket
  grind [lands_next, endPacket_lands, packetStep_lands]

theorem sentPacket_lands {p : Prop} {s : State} (x : HwQueue) (k : Packet) (line : Nat) (hs : p → Memory.wf s.mem = true) :
    Lands p (sentPacket s x k line) := by
  unfold sentPacket
  grind [lands_next, endPacket_lands, clearFailed_mem]

theorem execReplacePacket_lands (queue : Nat) (s : State) : Lands (Memory.wf s.mem = true) (execReplacePacket queue s) := by
  unfold execReplacePacket
  refine packetStep_lands _ _ id fun t x p ht => ?_
  split
  · exact sentPacket_lands _ _ _ ht
  · split
    · exact endPacket_lands _ _ _ ht
    · extract_lets va parts
      have ranged : Memory.wf s.mem = true → Memory.wf (rangeLines x va parts t).1.mem = true := fun h => rangeLines_wf _ _ _ _ (ht h)
      split
      next heq => exact fun h => fst_wf heq (ranged h)
      next heq => exact withLines_lands _ (fun h => fst_wf heq (ranged h)) fun h => replaced_wf _ _ _ _ (fst_wf heq (ranged h))

theorem execSignalPacket_lands (queue : Nat) (s : State) : Lands (Memory.wf s.mem = true) (execSignalPacket queue s) := by
  unfold execSignalPacket
  refine packetStep_lands _ _ id fun t x p ht => ?_
  split
  · exact sentPacket_lands _ _ _ ht
  · split
    · exact ht
    · split
      next pa _ =>
        intro h
        show Memory.wf (askLine t 0 .front t.latest pa true).mem = true
        rw [askLine_mem]
        exact ht h
      next =>
        extract_lets va told
        have told : ∀ r, signalUpdate t 0 x.ctx x.fwown .front t.latest (frontMark t 0 x.ctx va) va (wordAt p.words 2) false 0 = r →
            Memory.wf s.mem = true → Memory.wf r.state.mem = true := by
          rintro r rfl h
          exact signalUpdate_wf _ _ _ _ _ _ _ _ _ _ _ (ht h)
        split
        next heq => exact told _ heq
        next heq => exact told _ heq
        next u heq =>
          have hu : Memory.wf s.mem = true → Memory.wf (clearFront u 0 x.ctx va).mem = true := fun h => by
            rw [clearFront_mem]
            exact told _ heq h
          extract_lets v
          split
          · exact endPacket_lands _ _ _ hu
          · exact hu

/-! ### Preempt -/

theorem execPreemptGo_lands (die : Nat) (s : State) : Lands (Memory.wf s.mem = true) (execPreemptGo die s) := by
  unfold execPreemptGo
  grind [lands_next, preemptDie_wf]

theorem execPreemptGroupDone_lands (die : Nat) (s : State) : Lands (Memory.wf s.mem = true) (execPreemptGroupDone die s) := by
  unfold execPreemptGroupDone
  split
  · exact id
  · split
    · intro h
      rwa [State.setDie_mem]
    · intro h
      refine getD_wf (fun t ht => ?_) h
      obtain ⟨gid, -, hu⟩ := List.exists_of_findSome?_eq_some ht
      exact unitStep_wf hu h

theorem execPreemptResume_lands (die : Nat) (s : State) : Lands (Memory.wf s.mem = true) (execPreemptResume die s) := by
  unfold execPreemptResume
  grind [lands_next, resumeDie_wf]

theorem execGroupPlace_lands (core : Nat) (s : State) : Lands (Memory.wf s.mem = true) (execGroupPlace core s) := by
  unfold execGroupPlace
  grind [lands_next, placeGroup_wf, restoreGroup_wf]

/-! ### Abort -/

theorem finishLaunch_lands (s : State) (l : Launch) : Lands (Memory.wf s.mem = true) (finishLaunch s l) := by
  unfold finishLaunch
  grind [lands_next, State.updLaunch_mem, failLaunch_wf, forgetLaunch_mem, journalLaunch_wf, postMsg_mem, signalLaunch_wf, withLines_lands]

theorem execLaunchComplete_lands (lid : Nat) (s : State) : Lands (Memory.wf s.mem = true) (execLaunchComplete lid s) := by
  unfold execLaunchComplete
  grind [lands_next, State.updLaunch_mem, settleLaunch_wf, signalLaunch_wf, finishLaunch_lands]

/-! ### Firmware -/

theorem execCtxnew_lands (ctx : Nat) (s : State) : Lands (Memory.wf s.mem = true) (execCtxnew ctx s) := by
  unfold execCtxnew
  grind [lands_next, askLine_mem, clearFailed_mem, mbAnswer_mem]

theorem execCtxdel_lands (ctx : Nat) (s : State) : Lands (Memory.wf s.mem = true) (execCtxdel ctx s) := by
  unfold execCtxdel
  grind [lands_next, abortLaunch_wf, mbAnswer_mem, removeContext_mem, settleContext_wf, unmapAll_wf, withLines_lands]

theorem execMapq_lands (queue : Nat) (s : State) : Lands (Memory.wf s.mem = true) (execMapq queue s) := by
  unfold execMapq
  grind [lands_next, askLine_mem, clearFailed_mem, mapQueue_wf, mbAnswer_mem]

theorem execUnmapq_lands (queue : Nat) (s : State) : Lands (Memory.wf s.mem = true) (execUnmapq queue s) := by
  unfold execUnmapq
  grind [lands_next, withLines_lands, State.updQ_mem, unmapStarts_wf, mbAnswer_mem]

theorem execQueueUnmapComplete_lands (queue : Nat) (s : State) : Lands (Memory.wf s.mem = true) (execQueueUnmapComplete queue s) := by
  unfold execQueueUnmapComplete
  grind [lands_next, State.updQ_mem, frontPut_wf, withLines_lands]

theorem execAbortCmd_lands (seq : Nat) (s : State) : Lands (Memory.wf s.mem = true) (execAbortCmd seq s) := by
  unfold execAbortCmd
  grind [lands_next, abortLaunch_wf, askLine_mem, mbAnswer_mem]

theorem execPreemptCmd_lands (arg : BitVec 56) (s : State) : Lands (Memory.wf s.mem = true) (execPreemptCmd arg s) := by
  unfold execPreemptCmd
  grind [lands_next, mbAnswer_mem, onDies_wf, preemptDie_wf, setPrectl_mem]

theorem restoreContext_lands (ctx : Nat) (s : State) : Lands (Memory.wf s.mem = true) (restoreContext ctx s) := by
  unfold restoreContext
  grind [lands_next, mbAnswer_mem, onDies_wf, resumeDie_wf, setPrectl_mem]

theorem execRestoreCmd_lands (s : State) : Lands (Memory.wf s.mem = true) (execRestoreCmd s) := by
  unfold execRestoreCmd
  grind [lands_next, restoreContext_lands]

theorem attestBuffer_lands (buffer : Nat) (s : State) : Lands (Memory.wf s.mem = true) (attestBuffer buffer s) := by
  unfold attestBuffer
  grind [lands_next, foldl_wf, askLine_mem, clearFailed_mem, frontPut_wf, mbAnswer_mem]

theorem execAttest_lands (s : State) : Lands (Memory.wf s.mem = true) (execAttest s) := by
  unfold execAttest
  grind [lands_next, attestBuffer_lands]

theorem execStandbyEnter_lands (s : State) : Lands (Memory.wf s.mem = true) (execStandbyEnter s) := by
  unfold execStandbyEnter
  grind [lands_next, mbAnswer_mem, unpowerCores_wf]

theorem execStandbyLeave_lands (s : State) : Lands (Memory.wf s.mem = true) (execStandbyLeave s) := by
  unfold execStandbyLeave
  grind [lands_next, mbAnswer_mem, setMaint_mem]

/-! ### Registers -/

theorem execRegisterWrite_lands (w : RegWrite) (s : State) : Lands (Memory.wf s.mem = true) (execRegisterWrite w s) := by
  unfold execRegisterWrite
  grind [lands_next, putRegister_mem]

theorem execFeataccWrite_lands (value : W64) (s : State) : Lands (Memory.wf s.mem = true) (execFeataccWrite value s) := by
  unfold execFeataccWrite
  grind [lands_next]

theorem execPoolcfgApply_lands (die : Nat) (s : State) : Lands (Memory.wf s.mem = true) (execPoolcfgApply die s) := by
  unfold execPoolcfgApply
  grind [lands_next, State.setDie_mem]

/-! ### Homes -/

theorem receive_lands (kind : Nat) (m : Msg) (s : State) : Lands (Memory.wf s.mem = true) (receive kind m s) := by
  unfold receive
  grind [lands_next, arriveHome_wf, nack_mem]

theorem execFwqMsg_lands (m : Msg) (s : State) : Lands (Memory.wf s.mem = true) (execFwqMsg m s) := by
  unfold execFwqMsg
  grind [lands_next, ack_mem, dropCopy_mem, foldl_wf, l1Settle_mem, nack_mem, noteBad_mem, respond_mem, supply_mem, updCopy_mem]

theorem execDirtyEvictWriteback_lands (die line : Nat) (s : State) :
    Lands (Memory.wf s.mem = true) (execDirtyEvictWriteback die line s) := by
  unfold execDirtyEvictWriteback
  grind [lands_next, writeBack_mem]

theorem execL2EvictRecall_lands (line : Nat) (s : State) : Lands (Memory.wf s.mem = true) (execL2EvictRecall line s) := by
  unfold execL2EvictRecall
  grind [lands_next, evictLine_mem]

/-! ### Fabric -/

theorem execRequestInject_lands (id : Nat) (s : State) : Lands (Memory.wf s.mem = true) (execRequestInject id s) := by
  unfold execRequestInject
  grind [lands_next, pumpLine_wf, failReq_wf, send_mem]

theorem execRequestTimeout_lands (id : Nat) (s : State) : Lands (Memory.wf s.mem = true) (execRequestTimeout id s) := by
  unfold execRequestTimeout
  grind [lands_next, failReq_wf, pumpLine_wf, settlePost_wf]

theorem execDataMsg_lands (m : Msg) (s : State) : Lands (Memory.wf s.mem = true) (execDataMsg m s) := by
  have heard : ∀ id t, ((dropReq s id).hear t).mem = s.mem := fun id t => by rw [State.hear_mem, dropReq_mem]
  unfold execDataMsg
  grind [lands_next, sunk_wf, lineBack_wf, directData_mem, takeLine_mem]

theorem execAckMsg_lands (m : Msg) (s : State) : Lands (Memory.wf s.mem = true) (execAckMsg m s) := by
  unfold execAckMsg
  grind [lands_next, ownerReply_wf, settlePost_wf, recordLeaves_wf, pumpLine_wf, atomAnswer_mem, State.hear_mem, dropReq_mem]

theorem execMsat_lands (m : Msg) (s : State) : Lands (Memory.wf s.mem = true) (execMsat m s) := by
  have heard : ∀ id t, ((dropReq s id).hear t).mem = s.mem := fun id t => by rw [State.hear_mem, dropReq_mem]
  unfold execMsat
  grind [lands_next, fireWait_mem]

theorem execNackMsg_lands (m : Msg) (s : State) : Lands (Memory.wf s.mem = true) (execNackMsg m s) := by
  unfold execNackMsg
  grind [lands_next, failReq_wf, ownerReply_wf, settlePost_wf]

theorem execRecordMove_lands (rid dest : Nat) (s : State) : Lands (Memory.wf s.mem = true) (execRecordMove rid dest s) := by
  unfold execRecordMove
  grind [lands_next, State.updRec_mem, arriveRecord_wf, failForward_wf, relocate_wf]

theorem execRecMsg_lands (m : Msg) (s : State) : Lands (Memory.wf s.mem = true) (execRecMsg m s) := by
  unfold execRecMsg
  grind [lands_next, nack_mem, takeRecord_wf]

theorem execPartReserve_lands (m : Msg) (s : State) : Lands (Memory.wf s.mem = true) (execPartReserve m s) := by
  unfold execPartReserve
  grind [lands_next, State.hear_mem, ack_mem, nack_mem, reserveHere_mem]

theorem execPartCommit_lands (m : Msg) (s : State) : Lands (Memory.wf s.mem = true) (execPartCommit m s) := by
  unfold execPartCommit
  grind [lands_next, State.hear_mem, State.updLaunch_mem, ack_mem, nack_mem]

theorem execPartRollback_lands (m : Msg) (s : State) : Lands (Memory.wf s.mem = true) (execPartRollback m s) := by
  unfold execPartRollback
  grind [lands_next, ack_mem, nack_mem, releasePart_mem]

theorem execPartReport_lands (m : Msg) (s : State) : Lands (Memory.wf s.mem = true) (execPartReport m s) := by
  unfold execPartReport
  grind [lands_next, State.hear_mem, ack_mem, awayReport_mem, nack_mem, partEnded_wf]

theorem execReservingTimeout_lands (lid : Nat) (s : State) : Lands (Memory.wf s.mem = true) (execReservingTimeout lid s) := by
  unfold execReservingTimeout
  grind [lands_next, reserveProgress_wf]

theorem execBackoffExpiry_lands (lid : Nat) (s : State) : Lands (Memory.wf s.mem = true) (execBackoffExpiry lid s) := by
  unfold execBackoffExpiry
  grind [lands_next, reserveProgress_wf, startReserve_mem]

theorem execPartReserveExpiry_lands (key : Nat) (s : State) : Lands (Memory.wf s.mem = true) (execPartReserveExpiry key s) := by
  unfold execPartReserveExpiry
  grind [lands_next, releasePart_mem]

theorem execPartStart_lands (key : Nat) (s : State) : Lands (Memory.wf s.mem = true) (execPartStart key s) := by
  unfold execPartStart
  grind [lands_next, beginGroups_mem]

theorem execPartUnreachable_lands (lid : Nat) (s : State) : Lands (Memory.wf s.mem = true) (execPartUnreachable lid s) := by
  unfold execPartUnreachable
  split
  next l _ =>
    extract_lets lost t
    have ht : Memory.wf s.mem = true → Memory.wf t.mem = true := fun h => by
      unfold t
      rwa [State.updLaunch_mem]
    split
    · exact id
    · refine withLines_lands _ ht fun h => ?_
      split
      · exact abortLaunch_wf _ _ (ht h)
      · exact ht h
  next => exact id

theorem execFabricReceiveEntry_lands (core port : Nat) (words : List W32) (s : State) :
    Lands (Memory.wf s.mem = true) (execFabricReceiveEntry core port words s) := by
  unfold execFabricReceiveEntry
  grind [lands_next, State.setCore_mem, portFire_mem]

theorem execFlitReceive_lands (port : Nat) (f : Flit) (s : State) : Lands (Memory.wf s.mem = true) (execFlitReceive port f s) := by
  unfold execFlitReceive
  grind [lands_next]

theorem execLinkTakedown_lands (port : Nat) (s : State) : Lands (Memory.wf s.mem = true) (execLinkTakedown port s) := by
  unfold execLinkTakedown
  grind [lands_next]

/-! ### Ingest -/

theorem execSctlOpen_lands (stream : Nat) (s : State) : Lands (Memory.wf s.mem = true) (execSctlOpen stream s) := by
  unfold execSctlOpen
  grind [lands_next, State.setStream_mem, askLine_mem, clearFailed_mem, noteUncorrectable_mem]

theorem execSctlClose_lands (stream : Nat) (s : State) : Lands (Memory.wf s.mem = true) (execSctlClose stream s) := by
  unfold execSctlClose
  grind [lands_next, State.setStream_mem, shutQueue_mem]

theorem execIngestPacket_lands (p : StreamPacket) (s : State) : Lands (Memory.wf s.mem = true) (execIngestPacket p s) := by
  unfold execIngestPacket
  grind [lands_next]

theorem execFrameClose_lands (stream slot : Nat) (s : State) : Lands (Memory.wf s.mem = true) (execFrameClose stream slot s) := by
  unfold execFrameClose
  grind [lands_next, closeGroup_wf]

theorem execFrameTimeout_lands (stream slot : Nat) (s : State) : Lands (Memory.wf s.mem = true) (execFrameTimeout stream slot s) := by
  unfold execFrameTimeout
  grind [lands_next, State.setStream_mem]

/-! ### Device -/

theorem execMreset_lands (value : W64) (s : State) : Lands (Memory.wf s.mem = true) (execMreset value s) := by
  unfold execMreset
  grind [lands_next, moduleReset_wf]

theorem execPowerOnReset_lands (s : State) : Lands (Memory.wf s.mem = true) (execPowerOnReset s) := by
  unfold execPowerOnReset
  grind [lands_next, moduleReset_wf]

theorem execThermalTrip_lands (s : State) : Lands (Memory.wf s.mem = true) (execThermalTrip s) := by
  unfold execThermalTrip
  grind [lands_next, moduleReset_wf]

theorem execBootRomPhase_lands (staged : Bool) (s : State) : Lands (Memory.wf s.mem = true) (execBootRomPhase staged s) := by
  unfold execBootRomPhase
  grind [lands_next, setPhase_mem]

theorem execVerifyPhase_lands (v : Bool) (s : State) : Lands (Memory.wf s.mem = true) (execVerifyPhase v s) := by
  unfold execVerifyPhase
  grind [lands_next, setPhase_mem]

theorem execHbminitPhase_lands (ok : Bool) (s : State) : Lands (Memory.wf s.mem = true) (execHbminitPhase ok s) := by
  unfold execHbminitPhase
  split
  · exact id
  · split
    · intro h
      rwa [setPhase_mem]
    · extract_lets t
      intro h
      refine wf_filter ?_ _
      unfold t
      rwa [setMaint_mem, setPhase_mem]

theorem execSelftestPhase_lands (ok : Bool) (s : State) : Lands (Memory.wf s.mem = true) (execSelftestPhase ok s) := by
  unfold execSelftestPhase
  grind [lands_next, setMaint_mem, setPhase_mem]

theorem execReadyPhase_lands (v : FirmwareValues) (s : State) : Lands (Memory.wf s.mem = true) (execReadyPhase v s) := by
  unfold execReadyPhase
  grind [lands_next]

theorem execThrottle_lands (pwr tj tin : BitVec 16) (s : State) : Lands (Memory.wf s.mem = true) (execThrottle pwr tj tin s) := by
  unfold execThrottle
  grind [lands_next]

theorem execClockGate_lands (core : Nat) (s : State) : Lands (Memory.wf s.mem = true) (execClockGate core s) := by
  unfold execClockGate
  grind [lands_next, State.setCore_mem]

theorem execCoreWake_lands (core : Nat) (s : State) : Lands (Memory.wf s.mem = true) (execCoreWake core s) := by
  unfold execCoreWake
  grind [lands_next, State.setCore_mem]

theorem execBersyAccess_lands (a : BersyAccess) (s : State) : Lands (Memory.wf s.mem = true) (execBersyAccess a s) := by
  unfold execBersyAccess
  grind [lands_next, askLine_mem, deviceWrite_mem, noteUncorrectable_mem, touchBy_mem, writeBytes_wf]

theorem execBersyLaneFail_lands (lane : Nat) (s : State) : Lands (Memory.wf s.mem = true) (execBersyLaneFail lane s) := by
  unfold execBersyLaneFail
  grind [lands_next, report_mem]

theorem execPtpEventMessage_lands (_port : Nat) (s : State) : Lands (Memory.wf s.mem = true) (execPtpEventMessage _port s) := by
  unfold execPtpEventMessage
  grind [lands_next]

/-! ## The words -/

/-! ### Float -/

theorem execCvtf_lands (f : Fields) (s : State) (hi : (issuer s).isSome = true) : Lands (Memory.wf s.mem = true) (execCvtf f s) := by
  refine issue_lands hi fun c hc => ?_
  grind [foldl_wf, Body.state, State.updLane_mem, perLaneF_wf]

theorem execPairWord_lands (h1 h2 : Half) (s : State) (hi : (issuer s).isSome = true) :
    Lands (Memory.wf s.mem = true) (execPairWord h1 h2 s) := by
  refine issue_lands hi fun c hc => ?_
  grind [Body.state, putAll_mem, raiseAll_mem]

/-! ### Futures -/

theorem execRinit_lands (f : Fields) (s : State) (hi : (issuer s).isSome = true) : Lands (Memory.wf s.mem = true) (execRinit f s) := by
  refine issue_lands hi fun c hc => ?_
  grind [Body.state, State.setRing_mem, trapFirst_wf]

theorem execFwait_lands (f : Fields) (s : State) (hi : (issuer s).isSome = true) : Lands (Memory.wf s.mem = true) (execFwait f s) := by
  refine issue_lands hi fun c hc => ?_
  grind [foldl_wf, Body.state, State.link_mem, putAll_mem, seeHandle_mem, waitSlice_mem]

theorem execFtest_lands (f : Fields) (s : State) (hi : (issuer s).isSome = true) : Lands (Memory.wf s.mem = true) (execFtest f s) := by
  refine issue_lands hi fun c hc => ?_
  grind [foldl_wf, Body.state, State.link_mem, putAll_mem, seeHandle_mem]

theorem execFcancel_lands (f : Fields) (s : State) (hi : (issuer s).isSome = true) : Lands (Memory.wf s.mem = true) (execFcancel f s) := by
  refine issue_lands hi fun c hc => ?_
  grind [Body.state]

theorem execMov_lands (f : Fields) (s : State) (hi : (issuer s).isSome = true) : Lands (Memory.wf s.mem = true) (execMov f s) := by
  refine issue_lands hi fun c hc => ?_
  grind [foldl_wf, Body.state, State.link_mem, giveAll_mem, perLane_wf, waitSlice_mem]

/-! ### Memory -/

theorem execLd_lands (f : Fields) (s : State) (hi : (issuer s).isSome = true) : Lands (Memory.wf s.mem = true) (execLd f s) := by
  refine issue_lands hi fun c hc => ?_
  grind [Body.state, loadReceived_wf, makeAccesses_wf, withAccess_wf]

theorem execSt_lands (f : Fields) (s : State) (hi : (issuer s).isSome = true) : Lands (Memory.wf s.mem = true) (execSt f s) := by
  refine issue_lands hi fun c hc => ?_
  split
  · exact storeReceived_wf _ hc
  · refine withAccess_wf _ _ (fun t rs ht => ?_) hc
    extract_lets unclean
    refine withStores_wf (fun u hu => ?_) ht
    have clean : Memory.wf (notClean u c.g.core c.g.slot unclean).mem = true := by rwa [notClean_mem]
    split
    · exact foldl_wf (fun v p hv => by rwa [waitSlice_mem]) clean
    · exact Body.after_wf (fun v hv => by rwa [notClean_mem]) (makeAccesses_wf _ _ _ _ hu)

/-! ### Engine -/

theorem execCpy_lands (f : Fields) (s : State) (hi : (issuer s).isSome = true) : Lands (Memory.wf s.mem = true) (execCpy f s) := by
  refine issue_lands hi fun c hc => ?_
  grind [Body.state, startOp_wf, withDesc_wf]

theorem execIxwalk_lands (f : Fields) (s : State) (hi : (issuer s).isSome = true) : Lands (Memory.wf s.mem = true) (execIxwalk f s) := by
  refine issue_lands hi fun c hc => ?_
  grind [Body.state, startOp_wf, withDesc_wf]

theorem execQnt_lands (f : Fields) (s : State) (hi : (issuer s).isSome = true) : Lands (Memory.wf s.mem = true) (execQnt f s) := by
  refine issue_lands hi fun c hc => ?_
  grind [Body.state, startSeeded_wf, withDesc_wf]

theorem execDqnt_lands (f : Fields) (s : State) (hi : (issuer s).isSome = true) : Lands (Memory.wf s.mem = true) (execDqnt f s) := by
  refine issue_lands hi fun c hc => ?_
  grind [Body.state, startOp_wf, withDesc_wf]

theorem execCpact_lands (f : Fields) (s : State) (hi : (issuer s).isSome = true) : Lands (Memory.wf s.mem = true) (execCpact f s) := by
  refine issue_lands hi fun c hc => ?_
  grind [Body.state, groupOnly_wf, startOp_wf, trapFirst_wf, withDesc_wf]

theorem execCpfl_lands (f : Fields) (s : State) (hi : (issuer s).isSome = true) : Lands (Memory.wf s.mem = true) (execCpfl f s) := by
  refine issue_lands hi fun c hc => ?_
  grind [Body.state, groupOnly_wf, startOp_wf]

/-! ### Fibre -/

theorem execZopen_lands (f : Fields) (s : State) (hi : (issuer s).isSome = true) : Lands (Memory.wf s.mem = true) (execZopen f s) := by
  refine issue_lands hi fun c hc => ?_
  grind [Body.state, putFibres_mem, trapLanes_wf]

theorem execZclose_lands (f : Fields) (s : State) (hi : (issuer s).isSome = true) : Lands (Memory.wf s.mem = true) (execZclose f s) := by
  refine issue_lands hi fun c hc => ?_
  grind [Body.state, putFibres_mem]

theorem execZval_lands (f : Fields) (s : State) (hi : (issuer s).isSome = true) : Lands (Memory.wf s.mem = true) (execZval f s) := by
  refine issue_lands hi fun c hc => ?_
  have read := zvalLanes_wf c (fibreNo c.f.a.toNat) c.lanes c.s hc
  extract_lets k d r q
  split
  · exact read
  · split
    · exact read
    · have rest : ∀ as t, Memory.wf t.mem = true → Memory.wf (zvalRest c as t).mem = true := fun as t ht => by rwa [zvalRest_mem]
      split
      · exact rest _ _ read
      · exact Body.map_wf (rest _) (makeAccesses_wf _ _ _ _ read)

/-! ### Matrix -/

theorem execMxrel_lands (f : Fields) (s : State) (hi : (issuer s).isSome = true) : Lands (Memory.wf s.mem = true) (execMxrel f s) := by
  refine issue_lands hi fun c hc => ?_
  grind [Body.state, State.setResv_mem, groupOnly_wf, trapFirst_wf]

theorem execMxfence_lands (f : Fields) (s : State) (hi : (issuer s).isSome = true) : Lands (Memory.wf s.mem = true) (execMxfence f s) := by
  refine issue_lands hi fun c hc => ?_
  grind [foldl_wf, Body.state, State.updLane_mem, trapLanes_wf]

theorem execMxissue_lands (f : Fields) (s : State) (hi : (issuer s).isSome = true) : Lands (Memory.wf s.mem = true) (execMxissue f s) := by
  refine issue_lands hi fun c hc => ?_
  grind [Body.state, groupOnly_wf, startOp_wf, trapFirst_wf]

theorem execTalloc_lands (f : Fields) (s : State) (hi : (issuer s).isSome = true) : Lands (Memory.wf s.mem = true) (execTalloc f s) := by
  refine issue_lands hi fun c hc => ?_
  grind [Body.state, State.setCore_mem, bindAll_mem, clearSlot_wf, groupOnly_wf, trapFirst_wf]

theorem execTfree_lands (f : Fields) (s : State) (hi : (issuer s).isSome = true) : Lands (Memory.wf s.mem = true) (execTfree f s) := by
  refine issue_lands hi fun c hc => ?_
  grind [Body.state, bindAll_mem, groupOnly_wf, sweepSlots_mem, trapFirst_wf]

/-! ### Control -/

theorem execCallx_lands (f : Fields) (s : State) (hi : (issuer s).isSome = true) : Lands (Memory.wf s.mem = true) (execCallx f s) := by
  refine issue_lands hi fun c hc => ?_
  grind [foldl_wf, Body.state, State.bump_mem, applySlices_mem, askLine_mem, Ctx.entriesRead_mem, endSegment_mem, putAll_mem]

theorem execExit_lands (f : Fields) (s : State) (hi : (issuer s).isSome = true) : Lands (Memory.wf s.mem = true) (execExit f s) := by
  refine issue_lands hi fun c hc => ?_
  grind [Body.state, endGuarded_wf]

theorem execEndThread_lands (f : Fields) (s : State) (hi : (issuer s).isSome = true) :
    Lands (Memory.wf s.mem = true) (execEndThread f s) := by
  refine issue_lands hi fun c hc => ?_
  grind [Body.state, endGuarded_wf]

theorem execYield_lands (f : Fields) (s : State) (hi : (issuer s).isSome = true) : Lands (Memory.wf s.mem = true) (execYield f s) := by
  refine issue_lands hi fun c hc => ?_
  grind [Body.state, noteYield_mem]

theorem execGets_lands (f : Fields) (s : State) (hi : (issuer s).isSome = true) : Lands (Memory.wf s.mem = true) (execGets f s) := by
  refine issue_lands hi fun c hc => ?_
  grind [Body.state, perLane_wf, perLaneLater_wf]

theorem execSets_lands (f : Fields) (s : State) (hi : (issuer s).isSome = true) : Lands (Memory.wf s.mem = true) (execSets f s) := by
  refine issue_lands hi fun c hc => ?_
  grind [foldl_wf, Body.state, State.updLane_mem, State.updSlice_mem]

theorem execSnap_lands (f : Fields) (s : State) (hi : (issuer s).isSome = true) : Lands (Memory.wf s.mem = true) (execSnap f s) := by
  refine issue_lands hi fun c hc => ?_
  grind [Body.state, fireSnapshot_mem]

/-! ### MemSys -/

theorem execLdfe_lands (f : Fields) (s : State) (hi : (issuer s).isSome = true) : Lands (Memory.wf s.mem = true) (execLdfe f s) := by
  refine issue_lands hi fun c hc => ?_
  grind [Body.state, feLoaded_wf, withAccess_wf]

theorem execStfe_lands (f : Fields) (s : State) (hi : (issuer s).isSome = true) : Lands (Memory.wf s.mem = true) (execStfe f s) := by
  refine issue_lands hi fun c hc => ?_
  grind [Body.state, feStored_wf, withAccess_wf, withStores_wf]

theorem execArriveRemote_lands (f : Fields) (s : State) (hi : (issuer s).isSome = true) :
    Lands (Memory.wf s.mem = true) (execArriveRemote f s) := by
  refine issue_lands hi fun c hc => ?_
  grind [Body.state, makeAccesses_wf, withAccess_wf, withStores_wf]

theorem execWaitc_lands (f : Fields) (s : State) (hi : (issuer s).isSome = true) : Lands (Memory.wf s.mem = true) (execWaitc f s) := by
  refine issue_lands hi fun c hc => ?_
  grind [Body.state, watchAll_wf, withAccess_wf]

theorem execBwaitRemote_lands (f : Fields) (s : State) (hi : (issuer s).isSome = true) :
    Lands (Memory.wf s.mem = true) (execBwaitRemote f s) := by
  refine issue_lands hi fun c hc => ?_
  grind [Body.state, watchAll_wf, withAccess_wf]

theorem execFence_lands (f : Fields) (s : State) (hi : (issuer s).isSome = true) : Lands (Memory.wf s.mem = true) (execFence f s) := by
  refine issue_lands hi fun c hc => ?_
  grind [Body.state, fenceHeld_mem, fenceWrites_wf]

theorem execFenceWc_lands (f : Fields) (s : State) (hi : (issuer s).isSome = true) : Lands (Memory.wf s.mem = true) (execFenceWc f s) := by
  refine issue_lands hi fun c hc => ?_
  grind [Body.state, fenceHeld_mem, fenceWrites_wf]

theorem execCmaintIinv_lands (f : Fields) (s : State) (hi : (issuer s).isSome = true) :
    Lands (Memory.wf s.mem = true) (execCmaintIinv f s) := by
  refine issue_lands hi fun c hc => ?_
  grind [Body.state, invalidateLine_mem, maintain_wf]

theorem execCmaintWb_lands (f : Fields) (s : State) (hi : (issuer s).isSome = true) :
    Lands (Memory.wf s.mem = true) (execCmaintWb f s) := by
  refine issue_lands hi fun c hc => ?_
  grind [Body.state, cleanLine_mem, maintain_wf]

theorem execCmaintWbinv_lands (f : Fields) (s : State) (hi : (issuer s).isSome = true) :
    Lands (Memory.wf s.mem = true) (execCmaintWbinv f s) := by
  refine issue_lands hi fun c hc => ?_
  grind [Body.state, cleanLine_mem, maintain_wf]

theorem execCmaintMsset_lands (f : Fields) (s : State) (hi : (issuer s).isSome = true) :
    Lands (Memory.wf s.mem = true) (execCmaintMsset f s) := by
  refine issue_lands hi fun c hc => ?_
  grind [Body.state, maintain_wf, msLine_mem]

theorem execCmaintMsclr_lands (f : Fields) (s : State) (hi : (issuer s).isSome = true) :
    Lands (Memory.wf s.mem = true) (execCmaintMsclr f s) := by
  refine issue_lands hi fun c hc => ?_
  grind [Body.state, maintain_wf, msLine_mem]

theorem execCmaintRepair_lands (f : Fields) (s : State) (hi : (issuer s).isSome = true) :
    Lands (Memory.wf s.mem = true) (execCmaintRepair f s) := by
  refine issue_lands hi fun c hc => ?_
  grind [Body.state, askLine_mem, fenceHeld_mem, repaired_mem, withAccess_wf]

theorem execLdt_lands (f : Fields) (s : State) (hi : (issuer s).isSome = true) : Lands (Memory.wf s.mem = true) (execLdt f s) := by
  refine issue_lands hi fun c hc => ?_
  grind [Body.state, ldtLoaded_mem, withAccess_wf]

theorem execQpush_lands (f : Fields) (s : State) (hi : (issuer s).isSome = true) : Lands (Memory.wf s.mem = true) (execQpush f s) := by
  refine issue_lands hi fun c hc => ?_
  grind [Body.state, giveAll_mem, pushEntry_wf, trapFirst_wf]

/-! ### Parallel -/

theorem execXlane_lands (f : Fields) (s : State) (hi : (issuer s).isSome = true) : Lands (Memory.wf s.mem = true) (execXlane f s) := by
  refine issue_lands hi fun c hc => ?_
  grind [Body.state, withAux_wf]

theorem execPqry_lands (f : Fields) (s : State) (hi : (issuer s).isSome = true) : Lands (Memory.wf s.mem = true) (execPqry f s) := by
  refine issue_lands hi fun c hc => ?_
  grind [Body.state, giveAll_mem]

theorem execKgrp_lands (f : Fields) (s : State) (hi : (issuer s).isSome = true) : Lands (Memory.wf s.mem = true) (execKgrp f s) := by
  refine issue_lands hi fun c hc => ?_
  grind [Body.state, withAux_wf]

theorem execLead_lands (f : Fields) (s : State) (hi : (issuer s).isSome = true) : Lands (Memory.wf s.mem = true) (execLead f s) := by
  refine issue_lands hi fun c hc => ?_
  grind [Body.state, perLane_wf]

theorem execJoin_lands (f : Fields) (s : State) (hi : (issuer s).isSome = true) : Lands (Memory.wf s.mem = true) (execJoin f s) := by
  refine issue_lands hi fun c hc => ?_
  grind [Body.state, applySlices_mem]

theorem execBrkj_lands (f : Fields) (s : State) (hi : (issuer s).isSome = true) : Lands (Memory.wf s.mem = true) (execBrkj f s) := by
  refine issue_lands hi fun c hc => ?_
  grind [Body.state, applySlices_mem]

theorem execRegang_lands (f : Fields) (s : State) (hi : (issuer s).isSome = true) : Lands (Memory.wf s.mem = true) (execRegang f s) := by
  refine issue_lands hi fun c hc => ?_
  grind [foldl_wf, Body.state, State.updSlice_mem, plainLeave_mem, reform_mem]

theorem execCont_lands (f : Fields) (s : State) (hi : (issuer s).isSome = true) : Lands (Memory.wf s.mem = true) (execCont f s) := by
  refine issue_lands hi fun c hc => ?_
  grind [Body.state, plainLeave_mem]

theorem execFwd_lands (f : Fields) (s : State) (hi : (issuer s).isSome = true) : Lands (Memory.wf s.mem = true) (execFwd f s) := by
  refine issue_lands hi fun c hc => ?_
  grind [Body.state, State.bump_mem, endSegment_mem, foldl_wf, plainLeave_mem]

theorem execBari_lands (f : Fields) (s : State) (hi : (issuer s).isSome = true) : Lands (Memory.wf s.mem = true) (execBari f s) := by
  refine issue_lands hi fun c hc => ?_
  grind [Body.state, State.setBarrier_mem, trapFirst_wf]

theorem execBwait_lands (f : Fields) (s : State) (hi : (issuer s).isSome = true) : Lands (Memory.wf s.mem = true) (execBwait f s) := by
  refine issue_lands hi fun c hc => ?_
  grind [foldl_wf, Body.state, State.link_mem, noBarrier_wf, waitSlice_mem]

/-! ### Expand -/

theorem execExpb_lands (f : Fields) (s : State) (hi : (issuer s).isSome = true) : Lands (Memory.wf s.mem = true) (execExpb f s) := by
  refine issue_lands hi fun c hc => ?_
  grind [Body.state, openExp_wf, withAccess_wf]

theorem execExpn_lands (f : Fields) (s : State) (hi : (issuer s).isSome = true) : Lands (Memory.wf s.mem = true) (execExpn f s) := by
  refine issue_lands hi fun c hc => ?_
  grind [Body.state, dealAll_mem, expnGroup_wf, trapLanes_wf, withItems_wf]

theorem execExpe_lands (f : Fields) (s : State) (hi : (issuer s).isSome = true) : Lands (Memory.wf s.mem = true) (execExpe f s) := by
  refine issue_lands hi fun c hc => ?_
  grind [Body.state, trapLanes_wf, unbindAll_wf, withItems_wf]

theorem execSegr_lands (f : Fields) (s : State) (hi : (issuer s).isSome = true) : Lands (Memory.wf s.mem = true) (execSegr f s) := by
  refine issue_lands hi fun c hc => ?_
  grind [foldl_wf, Body.state, State.updLane_mem, raiseAll_mem, trapLanes_wf, withItems_wf]

/-! ## Every instruction, and the step -/

/-- Every instruction goes on: a word where a running sub-gang has come to one, a step of the part's own from every state. -/
theorem exec_lands (i : Instr) (s : State) (hi : i.isWord = true → (issuer s).isSome = true) :
    Lands (Memory.wf s.mem = true) (exec i s) := by
  cases i with
  | clauseStart core slot sub => exact execClauseStart_lands core slot sub s
  | pairWord h1 h2 => exact execPairWord_lands h1 h2 s (hi rfl)
  | vlResultWrite id => exact laterStep_lands _ _ _
  | untrackedResultWrite id => exact laterStep_lands _ _ _
  | add f => exact issue_lands (hi rfl) fun _ hc => perLane_wf _ hc
  | sub f => exact issue_lands (hi rfl) fun _ hc => perLane_wf _ hc
  | mul f => exact issue_lands (hi rfl) fun _ hc => perLane_wf _ hc
  | mulh f => exact issue_lands (hi rfl) fun _ hc => perLane_wf _ hc
  | mad f => exact issue_lands (hi rfl) fun _ hc => perLane_wf _ hc
  | madWide f => exact issue_lands (hi rfl) fun _ hc => perLane_wf _ hc
  | div f => exact issue_lands (hi rfl) fun _ hc => perLaneLater_wf _ hc
  | rem f => exact issue_lands (hi rfl) fun _ hc => perLaneLater_wf _ hc
  | min f => exact issue_lands (hi rfl) fun _ hc => perLane_wf _ hc
  | max f => exact issue_lands (hi rfl) fun _ hc => perLane_wf _ hc
  | abs f => exact issue_lands (hi rfl) fun _ hc => perLane_wf _ hc
  | neg f => exact issue_lands (hi rfl) fun _ hc => perLane_wf _ hc
  | dot4 f => exact issue_lands (hi rfl) fun _ hc => perLane_wf _ hc
  | addc f => exact issue_lands (hi rfl) fun _ hc => carryOp_wf _ hc
  | subb f => exact issue_lands (hi rfl) fun _ hc => carryOp_wf _ hc
  | madc f => exact issue_lands (hi rfl) fun _ hc => carryOp_wf _ hc
  | and f => exact issue_lands (hi rfl) fun _ hc => perLane_wf _ hc
  | or f => exact issue_lands (hi rfl) fun _ hc => perLane_wf _ hc
  | xor f => exact issue_lands (hi rfl) fun _ hc => perLane_wf _ hc
  | andn f => exact issue_lands (hi rfl) fun _ hc => perLane_wf _ hc
  | not f => exact issue_lands (hi rfl) fun _ hc => perLane_wf _ hc
  | lut3 f => exact issue_lands (hi rfl) fun _ hc => perLane_wf _ hc
  | shl f => exact issue_lands (hi rfl) fun _ hc => perLane_wf _ hc
  | shr f => exact issue_lands (hi rfl) fun _ hc => perLane_wf _ hc
  | sra f => exact issue_lands (hi rfl) fun _ hc => perLane_wf _ hc
  | rot f => exact issue_lands (hi rfl) fun _ hc => perLane_wf _ hc
  | fsh f => exact issue_lands (hi rfl) fun _ hc => perLane_wf _ hc
  | bfx f => exact issue_lands (hi rfl) fun _ hc => perLane_wf _ hc
  | bfi f => exact issue_lands (hi rfl) fun _ hc => perLane_wf _ hc
  | popc f => exact issue_lands (hi rfl) fun _ hc => perLane_wf _ hc
  | clz f => exact issue_lands (hi rfl) fun _ hc => perLane_wf _ hc
  | ctz f => exact issue_lands (hi rfl) fun _ hc => perLane_wf _ hc
  | brev f => exact issue_lands (hi rfl) fun _ hc => perLane_wf _ hc
  | bsel f => exact issue_lands (hi rfl) fun _ hc => perLane_wf _ hc
  | mov f => exact execMov_lands f s (hi rfl)
  | movi f => exact issue_lands (hi rfl) fun _ hc => perLane_wf _ hc
  | sel f => exact issue_lands (hi rfl) fun _ hc => perLane_wf _ hc
  | cmp f => exact issue_lands (hi rfl) fun _ hc => perLane_wf _ hc
  | pset f => exact issue_lands (hi rfl) fun _ hc => perLane_wf _ hc
  | lea f => exact issue_lands (hi rfl) fun _ hc => perLane_wf _ hc
  | cvti f => exact issue_lands (hi rfl) fun _ hc => perLane_wf _ hc
  | ld f => exact execLd_lands f s (hi rfl)
  | st f => exact execSt_lands f s (hi rfl)
  | pref f => exact issue_lands (hi rfl) fun _ hc => hc
  | fadd f => exact issue_lands (hi rfl) fun _ hc => perLaneF_wf _ hc
  | fsub f => exact issue_lands (hi rfl) fun _ hc => perLaneF_wf _ hc
  | fmul f => exact issue_lands (hi rfl) fun _ hc => perLaneF_wf _ hc
  | ffma f => exact issue_lands (hi rfl) fun _ hc => perLaneF_wf _ hc
  | fmin f => exact issue_lands (hi rfl) fun _ hc => perLaneF_wf _ hc
  | fmax f => exact issue_lands (hi rfl) fun _ hc => perLaneF_wf _ hc
  | fcmp f => exact issue_lands (hi rfl) fun _ hc => perLaneF_wf _ hc
  | fclass f => exact issue_lands (hi rfl) fun _ hc => perLane_wf _ hc
  | frnd f => exact issue_lands (hi rfl) fun _ hc => perLaneF_wf _ hc
  | fdiv f => exact issue_lands (hi rfl) fun _ hc => perLaneLater_wf _ hc
  | fsqrt f => exact issue_lands (hi rfl) fun _ hc => perLaneLater_wf _ hc
  | frcp f => exact issue_lands (hi rfl) fun _ hc => perLaneLater_wf _ hc
  | frsq f => exact issue_lands (hi rfl) fun _ hc => perLaneLater_wf _ hc
  | fex2 f => exact issue_lands (hi rfl) fun _ hc => perLaneLater_wf _ hc
  | flg2 f => exact issue_lands (hi rfl) fun _ hc => perLaneLater_wf _ hc
  | fsin f => exact issue_lands (hi rfl) fun _ hc => perLaneLater_wf _ hc
  | fcos f => exact issue_lands (hi rfl) fun _ hc => perLaneLater_wf _ hc
  | ftanh f => exact issue_lands (hi rfl) fun _ hc => perLaneLater_wf _ hc
  | hadd2 f => exact issue_lands (hi rfl) fun _ hc => perLaneF_wf _ hc
  | hmul2 f => exact issue_lands (hi rfl) fun _ hc => perLaneF_wf _ hc
  | hfma2 f => exact issue_lands (hi rfl) fun _ hc => perLaneF_wf _ hc
  | cvtf f => exact execCvtf_lands f s (hi rfl)
  | cvtfi f => exact issue_lands (hi rfl) fun _ hc => perLaneF_wf _ hc
  | cvtif f => exact issue_lands (hi rfl) fun _ hc => perLaneF_wf _ hc
  | fscale f => exact issue_lands (hi rfl) fun _ hc => perLaneF_wf _ hc
  | nop f => exact issue_lands (hi rfl) fun _ hc => hc
  | bra f => exact issue_lands (hi rfl) fun _ hc => transfer_wf _ _ _ hc
  | brx f => exact issue_lands (hi rfl) fun _ hc => transfer_wf _ _ _ hc
  | call f => exact issue_lands (hi rfl) fun _ hc => transfer_wf _ _ _ hc
  | callx f => exact execCallx_lands f s (hi rfl)
  | ret f => exact issue_lands (hi rfl) fun _ hc => transfer_wf _ _ _ hc
  | exit f => exact execExit_lands f s (hi rfl)
  | endThread f => exact execEndThread_lands f s (hi rfl)
  | trap f => exact issue_lands (hi rfl) fun _ hc => explicitTrap_wf _ hc
  | bpt f => exact issue_lands (hi rfl) fun _ hc => explicitTrap_wf _ hc
  | yield f => exact execYield_lands f s (hi rfl)
  | xlane f => exact execXlane_lands f s (hi rfl)
  | pqry f => exact execPqry_lands f s (hi rfl)
  | gred f => exact issue_lands (hi rfl) fun _ hc => reduce_wf _ hc
  | scan f => exact issue_lands (hi rfl) fun _ hc => reduce_wf _ hc
  | kgrp f => exact execKgrp_lands f s (hi rfl)
  | lead f => exact execLead_lands f s (hi rfl)
  | rcvJ f => exact issue_lands (hi rfl) fun _ hc => rcv_wf _ hc
  | rcvB f => exact issue_lands (hi rfl) fun _ hc => rcv_wf _ hc
  | join f => exact execJoin_lands f s (hi rfl)
  | brkj f => exact execBrkj_lands f s (hi rfl)
  | regang f => exact execRegang_lands f s (hi rfl)
  | cont f => exact execCont_lands f s (hi rfl)
  | fwd f => exact execFwd_lands f s (hi rfl)
  | spawn f => exact issue_lands (hi rfl) fun _ hc => spawnTasks_wf _ hc
  | spawnNb f => exact issue_lands (hi rfl) fun _ hc => spawnTasks_wf _ hc
  | bari f => exact execBari_lands f s (hi rfl)
  | arrive f => exact issue_lands (hi rfl) fun _ hc => arrive_wf _ hc
  | arriveRlx f => exact issue_lands (hi rfl) fun _ hc => arrive_wf _ hc
  | arriveRemote f => exact execArriveRemote_lands f s (hi rfl)
  | bwait f => exact execBwait_lands f s (hi rfl)
  | bwaitRemote f => exact execBwaitRemote_lands f s (hi rfl)
  | expb f => exact execExpb_lands f s (hi rfl)
  | expn f => exact execExpn_lands f s (hi rfl)
  | expe f => exact execExpe_lands f s (hi rfl)
  | segr f => exact execSegr_lands f s (hi rfl)
  | ldfe f => exact execLdfe_lands f s (hi rfl)
  | stfe f => exact execStfe_lands f s (hi rfl)
  | fesetEmpty f => exact issue_lands (hi rfl) fun _ hc => feset_wf _ hc
  | fesetFull f => exact issue_lands (hi rfl) fun _ hc => feset_wf _ hc
  | atom f => exact issue_lands (hi rfl) fun _ hc => atomic_wf _ _ _ _ _ hc
  | red f => exact issue_lands (hi rfl) fun _ hc => atomic_wf _ _ _ _ _ hc
  | cas f => exact issue_lands (hi rfl) fun _ hc => atomic_wf _ _ _ _ _ hc
  | waitc f => exact execWaitc_lands f s (hi rfl)
  | fence f => exact execFence_lands f s (hi rfl)
  | fenceWc f => exact execFenceWc_lands f s (hi rfl)
  | cmaintIinv f => exact execCmaintIinv_lands f s (hi rfl)
  | cmaintWb f => exact execCmaintWb_lands f s (hi rfl)
  | cmaintWbinv f => exact execCmaintWbinv_lands f s (hi rfl)
  | cmaintMsset f => exact execCmaintMsset_lands f s (hi rfl)
  | cmaintMsclr f => exact execCmaintMsclr_lands f s (hi rfl)
  | cmaintRepair f => exact execCmaintRepair_lands f s (hi rfl)
  | ldt f => exact execLdt_lands f s (hi rfl)
  | qpush f => exact execQpush_lands f s (hi rfl)
  | qwait f => exact issue_lands (hi rfl) fun _ hc => qwait_wf _ hc
  | qwaitNb f => exact issue_lands (hi rfl) fun _ hc => qwait_wf _ hc
  | mxresX f => exact issue_lands (hi rfl) fun _ hc => mxres_wf _ hc
  | mxresW f => exact issue_lands (hi rfl) fun _ hc => mxres_wf _ hc
  | mxrel f => exact execMxrel_lands f s (hi rfl)
  | mxfence f => exact execMxfence_lands f s (hi rfl)
  | mxissue f => exact execMxissue_lands f s (hi rfl)
  | mxdrain f => exact issue_lands (hi rfl) fun _ hc => mxdrain_wf hc
  | mxdrainRaw f => exact issue_lands (hi rfl) fun _ hc => mxdrain_wf hc
  | mxdrainMx f => exact issue_lands (hi rfl) fun _ hc => mxdrain_wf hc
  | talloc f => exact execTalloc_lands f s (hi rfl)
  | tfree f => exact execTfree_lands f s (hi rfl)
  | qnt f => exact execQnt_lands f s (hi rfl)
  | dqnt f => exact execDqnt_lands f s (hi rfl)
  | cpy f => exact execCpy_lands f s (hi rfl)
  | fetch f => exact issue_lands (hi rfl) fun c hc => withDesc_wf (fun e a => groupOnly_wf (fun _ => Body.map_wf
    (fun t ht => by rwa [reserveNow_mem]) (startOp_wf _ hc hc)) hc) hc
  | ixwalk f => exact execIxwalk_lands f s (hi rfl)
  | zopen f => exact execZopen_lands f s (hi rfl)
  | zadv f => exact issue_lands (hi rfl) fun _ hc => zadv_wf _ hc
  | zadvSeek f => exact issue_lands (hi rfl) fun _ hc => zadv_wf _ hc
  | zend f => exact issue_lands (hi rfl) fun _ hc => perLane_wf _ hc
  | zclose f => exact execZclose_lands f s (hi rfl)
  | zval f => exact execZval_lands f s (hi rfl)
  | cpact f => exact execCpact_lands f s (hi rfl)
  | cpfl f => exact execCpfl_lands f s (hi rfl)
  | racqP f => exact issue_lands (hi rfl) fun _ hc => racq_wf _ hc
  | racqC f => exact issue_lands (hi rfl) fun _ hc => racq_wf _ hc
  | rrelP f => exact issue_lands (hi rfl) fun _ hc => rrel_wf _ hc
  | rrelC f => exact issue_lands (hi rfl) fun _ hc => rrel_wf _ hc
  | fwait f => exact execFwait_lands f s (hi rfl)
  | ftest f => exact execFtest_lands f s (hi rfl)
  | fcancel f => exact execFcancel_lands f s (hi rfl)
  | rinit f => exact execRinit_lands f s (hi rfl)
  | gets f => exact execGets_lands f s (hi rfl)
  | sets f => exact execSets_lands f s (hi rfl)
  | tretRetry f => exact issue_lands (hi rfl) fun _ hc => tret_wf _ hc
  | tretSkip f => exact issue_lands (hi rfl) fun _ hc => tret_wf _ hc
  | tretKill f => exact issue_lands (hi rfl) fun _ hc => tret_wf _ hc
  | snap f => exact execSnap_lands f s (hi rfl)
  | udf f => exact issue_lands (hi rfl) fun _ hc => trapFirst_wf _ _ hc
  | snapshotLatch block => exact execSnapshotLatch_lands block s
  | trapDelivery core slot pos => exact execTrapDelivery_lands core slot pos s
  | completionStageTrap core slot pos => exact execCompletionStageTrap_lands core slot pos s
  | segmentEnd core slot pos => exact execSegmentEnd_lands core slot pos s
  | poolSpaceGrant core slot pos => exact execPoolSpaceGrant_lands core slot pos s
  | recordMove rid dest => exact execRecordMove_lands rid dest s
  | laneEventFire rid lane => exact execLaneEventFire_lands rid lane s
  | binDrain core bin => exact drainStep_lands _ _ _ _ _
  | expSlotLoad core bin => exact execExpSlotLoad_lands core bin s
  | gangCreate core => exact execGangCreate_lands core s
  | agingStep who => exact execAgingStep_lands who s
  | balancerPeriod die => exact execBalancerPeriod_lands die s
  | taskSliceForm die ctx entry => exact formStep_lands _ _ _ _ _
  | taskAgeTimeout die ctx entry => exact formStep_lands _ _ _ _ _
  | taskqRoomPlace die => exact execTaskqRoomPlace_lands die s
  | launchHeadCheck queue => exact execLaunchHeadCheck_lands queue s
  | dependenceLatch lid dep => exact execDependenceLatch_lands lid dep s
  | launchComplete lid => exact execLaunchComplete_lands lid s
  | groupPlace core => exact execGroupPlace_lands core s
  | walkComplete id => exact execWalkComplete_lands id s
  | walkFail id => exact execWalkFail_lands id s
  | walkStart die => exact execWalkStart_lands die s
  | tlbRetentionExpiry id => exact execTlbRetentionExpiry_lands id s
  | wcBufferWrite id => exact execWcBufferWrite_lands id s
  | logicalClockTick core => exact execLogicalClockTick_lands core s
  | dirtyEvictWriteback die line => exact execDirtyEvictWriteback_lands die line s
  | requestInject id => exact execRequestInject_lands id s
  | requestTimeout id => exact execRequestTimeout_lands id s
  | reservingTimeout lid => exact execReservingTimeout_lands lid s
  | backoffExpiry lid => exact execBackoffExpiry_lands lid s
  | partReserveExpiry key => exact execPartReserveExpiry_lands key s
  | partStart key => exact execPartStart_lands key s
  | engineUnitAccess op => exact execEngineUnitAccess_lands op s
  | cpyCompletion op => exact completionOf_lands _ _ _
  | fetchReserve core queue => exact execFetchReserve_lands core queue s
  | fetchCompletion op => exact execFetchCompletion_lands op s
  | ixwalkRangeComplete op => exact execIxwalkRangeComplete_lands op s
  | ixwalkCompletion op => exact execIxwalkCompletion_lands op s
  | cpactTileFill core => exact execCpactTileFill_lands core s
  | cpactCompletion op => exact execCpactCompletion_lands op s
  | matrixOpStart core => exact execMatrixOpStart_lands core s
  | matrixOpComplete op => exact execMatrixOpComplete_lands op s
  | mxdrainCompletion op => exact completionOf_lands _ _ _
  | qntCompletion op => exact completionOf_lands _ _ _
  | dqntCompletion op => exact completionOf_lands _ _ _
  | cancelSafePoint op => exact execCancelSafePoint_lands op s
  | faultEntryWrite queue => exact execFaultEntryWrite_lands queue s
  | preemptGo die => exact execPreemptGo_lands die s
  | preemptGroupDone die => exact execPreemptGroupDone_lands die s
  | preemptResume die => exact execPreemptResume_lands die s
  | qwakeWrite queue value => exact execQwakeWrite_lands queue value s
  | wakeWordChange queue => exact execWakeWordChange_lands queue s
  | nopPacket queue => exact execNopPacket_lands queue s
  | launchPacket queue => exact execLaunchPacket_lands queue s
  | beginPacket queue => exact execBeginPacket_lands queue s
  | commitPacket queue => exact execCommitPacket_lands queue s
  | replacePacket queue => exact execReplacePacket_lands queue s
  | signalPacket queue => exact execSignalPacket_lands queue s
  | ctxnew ctx => exact execCtxnew_lands ctx s
  | ctxdel ctx => exact execCtxdel_lands ctx s
  | mapq queue => exact execMapq_lands queue s
  | unmapq queue => exact execUnmapq_lands queue s
  | queueUnmapComplete queue => exact execQueueUnmapComplete_lands queue s
  | abortCmd seq => exact execAbortCmd_lands seq s
  | preemptCmd arg => exact execPreemptCmd_lands arg s
  | binTimeout core bin => exact drainStep_lands _ _ _ _ _
  | feataccWrite value => exact execFeataccWrite_lands value s
  | poolcfgApply die => exact execPoolcfgApply_lands die s
  | registerWrite w => exact execRegisterWrite_lands w s
  | sctlOpen stream => exact execSctlOpen_lands stream s
  | sctlClose stream => exact execSctlClose_lands stream s
  | frameClose stream slot => exact execFrameClose_lands stream slot s
  | frameTimeout stream slot => exact execFrameTimeout_lands stream slot s
  | mreset value => exact execMreset_lands value s
  | clockGate core => exact execClockGate_lands core s
  | coreWake core => exact execCoreWake_lands core s
  | partUnreachable lid => exact execPartUnreachable_lands lid s
  | launchMsg m => exact receive_lands _ _ _
  | recMsg m => exact execRecMsg_lands m s
  | partReserve m => exact execPartReserve_lands m s
  | partCommit m => exact execPartCommit_lands m s
  | partRollback m => exact execPartRollback_lands m s
  | partReport m => exact execPartReport_lands m s
  | rdMsg m => exact receive_lands _ _ _
  | rdxMsg m => exact receive_lands _ _ _
  | wrMsg m => exact receive_lands _ _ _
  | wrpMsg m => exact receive_lands _ _ _
  | atmMsg m => exact receive_lands _ _ _
  | monMsg m => exact receive_lands _ _ _
  | fwqMsg m => exact execFwqMsg_lands m s
  | dataMsg m => exact execDataMsg_lands m s
  | ackMsg m => exact execAckMsg_lands m s
  | msat m => exact execMsat_lands m s
  | nackMsg m => exact execNackMsg_lands m s
  | flitReceive port f => exact execFlitReceive_lands port f s
  | linkTakedown port => exact execLinkTakedown_lands port s
  | bersyAccess x => exact execBersyAccess_lands x s
  | bersyLaneFail lane => exact execBersyLaneFail_lands lane s
  | ptpEventMessage port => exact execPtpEventMessage_lands port s
  | ingestPacket p => exact execIngestPacket_lands p s
  | bootRomPhase staged => exact execBootRomPhase_lands staged s
  | verifyPhase v => exact execVerifyPhase_lands v s
  | hbminitPhase ok => exact execHbminitPhase_lands ok s
  | selftestPhase ok => exact execSelftestPhase_lands ok s
  | readyPhase fw => exact execReadyPhase_lands fw s
  | throttle pwr tj tin => exact execThrottle_lands pwr tj tin s
  | fabricReceiveEntry core port words => exact execFabricReceiveEntry_lands core port words s
  | l2EvictRecall line => exact execL2EvictRecall_lands line s
  | attest => exact execAttest_lands s
  | restoreCmd => exact execRestoreCmd_lands s
  | shootdownGo => exact execShootdownGo_lands s
  | shootdownComplete => exact execShootdownComplete_lands s
  | snapctlTrig => exact execSnapctlTrig_lands s
  | snapctlRel => exact execSnapctlRel_lands s
  | standbyEnter => exact execStandbyEnter_lands s
  | standbyLeave => exact execStandbyLeave_lands s
  | powerOnReset => exact execPowerOnReset_lands s
  | thermalTrip => exact execThermalTrip_lands s

theorem runWord_lands {run : Instr → State → Host.Outcome State Fault Refusal} (s : State) (c : Cur)
    (hrun : ∀ i t, (issuer t).isSome = true → Lands (Memory.wf t.mem = true) (run i t)) : Lands (Memory.wf s.mem = true)
      (runWord s c run) := by
  unfold runWord
  split
  · exact id
  next heq =>
    split
    · exact hrun _ _ (by rw [heq]; rfl)
    · intro h
      rwa [badWord_mem]

theorem ownStep_lands {run : Instr → State → Host.Outcome State Fault Refusal} (i : Instr) (s : State)
    (hrun : i.isWord = false → Lands (Memory.wf s.mem = true) (run i s)) : Lands (Memory.wf s.mem = true) (ownStep run i s) := by
  unfold ownStep
  split
  · exact id
  next h => exact hrun (Bool.eq_false_iff.mpr h)

theorem perform_lands (s : State) (m : Move) : Lands (Memory.wf s.mem = true) (perform exec s m) := by
  have own : ∀ i t, Lands (Memory.wf t.mem = true) (ownStep exec i t) := fun i t =>
    ownStep_lands i t fun hw => exec_lands i t fun hi => absurd hi (by simp [hw])
  unfold perform
  split
  · exact runWord_lands _ _ fun i t ht => exec_lands i t fun _ => ht
  · exact own _ _
  · split
    next r _ => exact own _ { s with due := r }
    next => exact id
  · split
    next i r _ =>
      split
      · exact id
      · split
        · exact own i s
        · exact own i { s with inputs := r }
    next => exact id

theorem settle_lands {p : Prop} {o : Host.Outcome State Fault Refusal} (idle : Bool) (h : Lands p o) : Lands p (settle idle o) := by
  cases o with
  | next t => exact fun hp => passTime_wf t idle (h hp)
  | fault _ => exact h
  | refused _ => exact h

theorem step_lands (s : State) : Lands (Memory.wf s.mem = true) (step s) := by
  unfold step
  split
  · exact settle_lands _ (perform_lands s _)
  · exact passTime_wf s true

/-- Settles O49: every move that a step makes lands in a state. -/
theorem stepNeverStops : Obligations.StepNeverStops := by
  intro s
  have h := step_lands s
  cases hs : step s with
  | next t => exact ⟨t, rfl⟩
  | fault _ => exact (hs ▸ h).elim
  | refused _ => exact (hs ▸ h).elim

/-- Settles O50: every move that a step makes, and the time that passes after it, keeps the canonical form. -/
theorem stepKeepsMemoryCanonical : Obligations.StepKeepsMemoryCanonical := by
  intro s t hs ht
  have h := step_lands s
  rw [ht] at h
  exact h hs

end Sys2Proof.Machine
